-- ==== Sys2Proof/Word.lean ====
section
/-!
DEFINITION. The words of the machine: the widths R41, R239 and R257 give to register contents.
-/
namespace Sys2Proof

/-- A general register, a system register or an address while it is computed (R41, R216). -/
abbrev Word := BitVec 64

/-- The smallest addressable unit (R4). -/
abbrev Byte := BitVec 8

/-- A vector register, 512 bits (R239). -/
abbrev Vec := BitVec 512

/-- An operand tile or a plane image: 64 rows of 128 bytes; row r holds bytes 128r to 128r + 127 (R257). -/
abbrev Tile := BitVec 65536

/-- An accumulator: 64 rows of 64 elements of 32 bits (R257, R281). -/
abbrev Acc := BitVec 131072

/-- One 128-byte line of a private cache (R152). -/
abbrev LineData := BitVec 1024

end Sys2Proof
end

