-- ==== Sys2Proof/Config.lean ====
section
/-!
DEFINITION. The free values: what the manual leaves open and the model does not choose. They are opaque, so nothing proved
about the machine depends on what they are.
-/
namespace Sys2Proof

/-- How many clk pass at step `n` of the model (log 5): the manual fixes no time for an instruction. -/
opaque Config.stepClk (n : Nat) : Nat

/-- What the home of another member of the coherence set answers to a request (R313; log 106): the cause of an error response,
if it is one; the bytes from a physical address on; and whether a request for ownership is granted. The other member's
directory and memory are not this module's. -/
opaque Config.farError (n addr key : Nat) : Option (Fin 11)
opaque Config.farData (n addr key : Nat) : Nat
opaque Config.farGrant (n addr key : Nat) : Bool
/-- Whether another agent has written a byte there since this module did. -/
opaque Config.farChanged (n addr key : Nat) : Bool

/-- The reading of sensor `i` (R444) where a bell's own step names none: what a sensor finds is not the machine's. -/
opaque Config.sensor (n i : Nat) : Word

/-- The CAUSE of the notice of a task that dies because its partition is disabled (R435): the manual lists none for it. -/
opaque Config.disableCause (n : Nat) : BitVec 8
/-- The STATUS of that notice. -/
opaque Config.disableStatus (n : Nat) : Word

/-- The slot that boot takes where both hold valid images of a kind with the same sequence number (R432): the manual orders
slots by sequence number only. -/
opaque Config.equalSlot (kind seq : Nat) : Bool

/-- Whether a signature verifies under an SLH-DSA-SHAKE-256s public key (FIPS 205) over a message of `n` bytes (R432; log 88). -/
opaque Config.slhDsaVerifies (pk n message sig : Nat) : Bool

/-- What measurement 5 becomes at the `n`-th reconfiguration of partitions (R434): the manual says only that it changes. -/
opaque Config.tableDigest (digest n : Nat) : Nat

/-- What boundary scan finds on the module's pins (R446). -/
opaque Config.boundary (n : Nat) : Nat

/-- The version of the boot ROM (R434's measurement 1). -/
opaque Config.romVersion : Nat
/-- The device key, which follows from a fused secret and the digest of the hub firmware (R434). -/
opaque Config.deviceKey (digest : Nat) : Nat
/-- The signature that answers a challenge under a device key (R434). -/
opaque Config.attest (key nonce : Nat) : Nat
/-- The digest of the certificate chain that ends in a device key (R434). -/
opaque Config.chainDigest (key : Nat) : Nat

end Sys2Proof
end

