-- ==== Sys2Proof/Syntax.lean ====
section
/-!
DEFINITION. The abstract syntax: one constructor of `Instr` for every row of spec/opcode_table.json, the encoded
instructions of Calxo first (formats S, M and L of R27 to R29) and then the steps of the part that have no encoding
(the table's events). An event has no operand fields; what the outside world or another unit supplies to it is its `Input`.
-/
namespace Sys2Proof

/-- The type codes of the ty4 table (R30). -/
inductive Ty where
  | b8 | b16 | b32 | b64 | i8 | i16 | i32 | i64 | n8 | n16 | n32 | n64 | f32 | bf16 | e4m3 | e5m2
deriving DecidableEq, Repr

/-- The condition codes of R52; the signed and floating codes 2 to 5 and the unsigned codes 6 to 9. -/
inductive Cond where
  | eq | ne | lt | le | gt | ge | ltu | leu | gtu | geu | un
deriving DecidableEq, Repr

/-- The scope codes of R54. -/
inductive Scope where
  | core | clu | die | mod | set | dom
deriving DecidableEq, Repr

/-- The ordering field of `amo` and `cas` (R61). -/
inductive Order where
  | none | acq | rel | ar
deriving DecidableEq, Repr

/-- The rounding modes of R73. -/
inductive Rm where
  | rne | rtz | rup | rdn
deriving DecidableEq, Repr

/-- A register number of the general or the vector class (R36). -/
abbrev R32 := Fin 32
/-- A register number of the predicate, mask or operand-tile class (R36). -/
abbrev R8 := Fin 8
/-- An accumulator number (R36). -/
abbrev R4 := Fin 4

/-- A tile-operand field that may name any tile, accumulator or plane register (R36). -/
inductive TileName where
  | t (n : R8) | a (n : R4) | ws | w
deriving DecidableEq, Repr

/-- The system registers of R55. -/
inductive SysReg where
  | sid | cid | kid | did | mid
  | ttag | tidx | gidx | gsz | castp
  | xvec | xdvec | xpin | xpc | xcause | xaddr | xinfo | xstat | xscr | xcause2 | xpc2 | xaddr2 | xlvl | xmask | xctl
  | xprq | xpdl | xsave
  | cyc | time
  | bpeal | blen | bnext
  | ptbase | asn | keyl
  | ebind | estat
  | dci (n : R8) | dcc (n : R8)
  | rollc | rolli
  | cseq
deriving DecidableEq, Repr

/-- The fields shared by every format-M and format-L word (R29): the guard, the last-use hints of a and b
(hint[1:0]) and the temporal class (hint[3:2]). -/
structure Hdr where
  gp : R8
  gn : Bool
  lu : BitVec 2
  tmp : BitVec 2
deriving DecidableEq, Repr

/-- The mask field and the zeroing bit of the instructions with lanes (R31). -/
structure Mask where
  m : R8
  z : Bool
deriving DecidableEq, Repr

/-- The operations of format L op 0x08 (R243). -/
inductive BcastOp where
  | add | sub | mul | addSat | subSat | min | max | and | or | xor | andn | shl | shr | sar
  | fadd (rm : Rm) | fsub (rm : Rm) | fmul (rm : Rm) | ffma (rm : Rm) | ffms (rm : Rm) | fmin | fmax | fdiv (rm : Rm)
deriving DecidableEq, Repr

/-- What upsets an engine's array at its next `tmul` (R280): contributions, by row and column, with the bits that are inverted, in
the first run and in the rerun. -/
structure EngineCheck where
  first : List (Nat × Nat × Nat)
  rerun : List (Nat × Nat × Nat)
deriving DecidableEq, Repr

/-- Nothing upsets the array. -/
def EngineCheck.pass : EngineCheck := { first := [], rerun := [] }

/-- The atomic operations of R171, shared by `amo`, `ratom` and the home's ALU. -/
inductive AmoOp where
  | add | and | or | xor | min | max | swap | fadd
deriving DecidableEq, Repr

/-- The kind of a remote operation (R322), with what each needs at its target. -/
inductive RemoteKind where
  /-- `rput`: the bytes to write, byte 0 in the low bits, and the flag's offset. -/
  | put (data : Nat) (flag : Option Nat)
  | get
  | atom (op : AmoOp) (ty : Ty) (x : Word)
  | cas (ty : Ty) (expected new : Word)
  /-- `wcnt.arr` of another module (R324). -/
  | count
  /-- a put of a repartition's elements (R333), whose flag is the count that the receiving hub keeps for the operation, which its GID
  and its count name (log 61) -/
  | move (data gid count : Nat)
deriving DecidableEq, Repr

/-- A remote operation as it arrives at its target (R315). -/
structure RemoteReq where
  source : Nat
  window : Nat
  offset : Nat
  length : Nat
  kind : RemoteKind
  /-- The issuing partition, for `wcnt.arr` (R324). -/
  part : Nat
  /-- The target has accepted it, and holds it (R315). -/
  accepted : Bool := false
deriving DecidableEq, Repr

/-- How a remote operation ended at its target (R321): done, with the value or the bytes it returns, or a failure
with its subcause and the R111 cause of subcause 0x07. -/
inductive RemoteResult where
  | done (value : Nat)
  | failed (sub ecause : Nat)
deriving DecidableEq, Repr

/-- The kind of a collective operation with the parameters that must agree (R326). -/
inductive CollKind where
  | bar
  | red (op : Nat) (ty : Ty)
  /-- RCTL, BOX0, BOX1, BOX2 and TMO of the record (R327). -/
  | part (rctl box0 box1 box2 : Word) (tmo : Nat)
deriving DecidableEq, Repr

def CollKind.isPart : CollKind → Bool
  | .part _ _ _ _ _ => true
  | _ => false

/-- What one participant brings to a collective operation (R326): where it is, its descriptor, and its data. -/
structure CollJoin where
  mid : Nat
  ttag : Word
  gid : Nat
  count : Nat
  descriptor : List Nat
  kind : CollKind
  /-- `cred`: V[a]. -/
  value : Vec
  /-- `rpart`: the elements of the array, each as one number, byte 0 in the low bits. -/
  elements : List Nat
  rcap : Nat
  /-- `rpart`: the receive buffer of the record. -/
  rbuf : Word := 0
deriving DecidableEq, Repr

/-- A call as the gate sends it to the service engine (R387), with the caller's address space (R388). -/
structure SvcCall where
  part : Nat
  ttag : Word
  gidx : Nat
  slot : Nat
  seq : Word
  opc : Nat
  arg0 : Word
  arg1 : Word
  arg2 : Word
  ptbase : Word
  asn : Word
  keyl : Word
deriving DecidableEq, Repr

/-- A coherence message about one grain under one KeyID (R125): the agent that sends it or that it is for, and where it names
copies, their format, element type and mode. The address is local to the home that the message is for or from; an address of
another member of the set has 2^51 added. -/
structure CohMsg where
  agent : Nat
  addr : Nat
  key : Nat
  grain : Nat
  fmt : Nat
  etype : Nat
  mode : Nat
  /-- what an update carries (R128): the grain's new value rounded in the format; 0 in every other message -/
  data : Nat := 0
deriving DecidableEq, Repr

/-- An error found by one of the checks of R402, with where it lies (R403, R404). -/
structure McEvent where
  code : Nat
  bank : Nat
  /-- 1 corrected, 2 contained, 3 fatal. -/
  cls : Nat
  part : Nat
  unit : Nat
  addr : Option Nat
  key : Nat
  syn : Option Word
  /-- The strand whose task the error kills, where the check's response is a death (R402, R403). -/
  kills : Option Nat
  /-- The 32-byte sectors of the address's 512-byte line that an uncorrectable error affects (R403); 0: the one of the address. -/
  sectors : Nat := 0
  /-- The physical accumulator (true) or tile or plane of the strand that it lies in, by its identity (R403). -/
  tile : Option (Bool × Nat) := none
deriving DecidableEq, Repr

/-- An image in the boot flash (R431, R432): the flash offset where it begins, the words KIND, SEQ and LEN of its header, PK, DIGEST and
SIG as numbers whose lowest byte is the first, and its body. The manual gives bodies no format: what the hub reads from one stands
beside its bytes, the (serial, MID) entries and the coherence sets of a manifest (R437), and the register writes by which the
partition monitor starts the partitions of a partition table (R433; log 90). -/
structure BootImage where
  offset : Nat
  kind : Nat
  seq : Nat
  len : Nat
  pk : Nat
  digest : Nat
  sig : Nat
  body : List Byte
  entries : List (Nat × Nat) := []
  sets : List (List Nat) := []
  writes : List (Nat × Word) := []
deriving DecidableEq, Repr

/-- What the debug port or the I3C port is asked for (R446). -/
inductive DebugRead where
  | bypass | idcode | boundary
  /-- a register at a local address, on the I3C port -/
  | register (addr : Nat)
deriving DecidableEq, Repr

/-- A set of domain tables (R439): its sequence number, FDMAP, FCSET, the rotor phase and the directory of registered windows, as
remote addresses. -/
structure TableSet where
  seq : Nat
  fdmap : List Word
  fcset : List Word
  mid : Nat
  /-- The leader's TIME, for a module that joins (R305). -/
  time : Nat
  phase : Nat := 0
  windows : List Word := []
deriving DecidableEq, Repr

/-- A pair of timestamps exchanged in a reconfiguration gap with the peer of a rotor (R305), in fs: when this module's went out,
the peer's TIME when it came, the peer's TIME when its own went out, and when that came here; and whether the peer lies closer to
the reference. -/
structure Exchange where
  rotor : Nat
  sent : Int
  seen : Int
  peerSent : Int
  arrived : Int
  closer : Bool
deriving DecidableEq, Repr

/-- A flit as the receiver finds it (R306); its header names the packet's source, destination, number and flits. -/
structure Flit where
  source : Nat
  dst : Nat
  packet : Nat
  flits : Nat
  index : Nat
  crcOk : Bool
  fibre : Nat
  wave : Nat
deriving DecidableEq, Repr

inductive Instr where
  -- format S, register-register (R51, R53)
  | add (d a b : R32) | sub (d a b : R32) | and (d a b : R32) | or (d a b : R32) | xor (d a b : R32)
  | andn (d a b : R32) | orn (d a b : R32) | shl (d a b : R32) | shr (d a b : R32) | sar (d a b : R32)
  | rot (d a b : R32) | minI64 (d a b : R32) | maxI64 (d a b : R32) | minN64 (d a b : R32) | maxN64 (d a b : R32)
  | mov (d a : R32)
  | mul (d a b : R32) | mulhI64 (d a b : R32) | mulhN64 (d a b : R32) | divI64 (d a b : R32) | divN64 (d a b : R32)
  | remI64 (d a b : R32) | remN64 (d a b : R32)
  | clz (d a : R32) | ctz (d a : R32) | popc (d a : R32) | bswap (d a : R32)
  | extI8 (d a : R32) | extI16 (d a : R32) | extI32 (d a : R32)
  | extN8 (d a : R32) | extN16 (d a : R32) | extN32 (d a : R32)
  | cmp (c : Cond) (d : R8) (a b : R32)
  | pand (d a b : R8) | por (d a b : R8) | pxor (d a b : R8) | pnot (d a : R8) | pmov (d a : R8)
  | sel (q : R8) (d a b : R32)
  | lea (s : R4) (d a b : R32)
  -- format S, immediate (R56)
  | addImmediate (i : BitVec 15) (d a : R32) | andImmediate (i : BitVec 15) (d a : R32)
  | orImmediate (i : BitVec 15) (d a : R32) | xorImmediate (i : BitVec 15) (d a : R32)
  | shlImmediate (n : BitVec 6) (d a : R32) | shrImmediate (n : BitVec 6) (d a : R32)
  | sarImmediate (n : BitVec 6) (d a : R32) | rotImmediate (n : BitVec 6) (d a : R32)
  | mulImmediate (i : BitVec 15) (d a : R32)
  | cmpi (c : Cond) (i : BitVec 11) (d : R8) (a : R32)
  | movi (i : BitVec 15) (d : R32)
  -- format S, memory, branch, jump (R57)
  | ld (ty : Ty) (o : BitVec 11) (d a : R32) | st (ty : Ty) (o : BitVec 11) (d a : R32)
  | pfL1 (o : BitVec 11) (a : R32) | pfCc (o : BitVec 11) (a : R32) | pfL2 (o : BitVec 11) (a : R32)
  | br (o : BitVec 21) (n : Bool) (p : R8) | jmp (o : BitVec 25) | call (o : BitVec 25)
  | jmpr (a : R32) | callr (a : R32) | ret
  -- format S, system (R53)
  | srGet (n : SysReg) (d : R32) | srSet (n : SysReg) (a : R32) | srSwap (n : SysReg) (d a : R32)
  | nop | trap (n : BitVec 5) | tret | tack | halt | yield
  | fenceAcq (c : Scope) | fenceRel (c : Scope) | fenceAr (c : Scope)
  | cflWt (a : R32) | cflInv (a : R32) | cflWi (a : R32)
  | tlbiPage (a : R32) | tlbiAsn (a : R32) | tlbiAll
  | waitNe (d a b : R32) | waitEq (d a b : R32) | waitGe (d a b : R32)
  -- format L, scalar (R65)
  | li (h : Hdr) (d : R32) (lit : BitVec 32) | lihi (h : Hdr) (d : R32) (lit : BitVec 32)
  | addLiteral (h : Hdr) (d a : R32) (lit : BitVec 32) | subLiteral (h : Hdr) (d a : R32) (lit : BitVec 32)
  | andLiteral (h : Hdr) (d a : R32) (lit : BitVec 32) | orLiteral (h : Hdr) (d a : R32) (lit : BitVec 32)
  | xorLiteral (h : Hdr) (d a : R32) (lit : BitVec 32) | andnLiteral (h : Hdr) (d a : R32) (lit : BitVec 32)
  | ornLiteral (h : Hdr) (d a : R32) (lit : BitVec 32) | shlLiteral (h : Hdr) (d a : R32) (lit : BitVec 32)
  | shrLiteral (h : Hdr) (d a : R32) (lit : BitVec 32) | sarLiteral (h : Hdr) (d a : R32) (lit : BitVec 32)
  | rotLiteral (h : Hdr) (d a : R32) (lit : BitVec 32) | minI64Literal (h : Hdr) (d a : R32) (lit : BitVec 32)
  | maxI64Literal (h : Hdr) (d a : R32) (lit : BitVec 32) | minN64Literal (h : Hdr) (d a : R32) (lit : BitVec 32)
  | maxN64Literal (h : Hdr) (d a : R32) (lit : BitVec 32) | movLiteral (h : Hdr) (d : R32) (lit : BitVec 32)
  | mulLiteral (h : Hdr) (d a : R32) (lit : BitVec 32) | mulhI64Literal (h : Hdr) (d a : R32) (lit : BitVec 32)
  | mulhN64Literal (h : Hdr) (d a : R32) (lit : BitVec 32) | divI64Literal (h : Hdr) (d a : R32) (lit : BitVec 32)
  | divN64Literal (h : Hdr) (d a : R32) (lit : BitVec 32) | remI64Literal (h : Hdr) (d a : R32) (lit : BitVec 32)
  | remN64Literal (h : Hdr) (d a : R32) (lit : BitVec 32)
  | cmpLiteral (h : Hdr) (c : Cond) (d : R8) (a : R32) (lit : BitVec 32)
  | brLong (h : Hdr) (lit : BitVec 32) | callLong (h : Hdr) (lit : BitVec 32)
  | ldLong (h : Hdr) (ty : Ty) (acq : Option Scope) (s : R4) (d a b : R32) (lit : BitVec 32)
  | stLong (h : Hdr) (ty : Ty) (rel : Option Scope) (s : R4) (d a b : R32) (lit : BitVec 32)
  -- format M, bit fields and atomics (R61, R62)
  | bfxI64 (h : Hdr) (d a : R32) (pos w : BitVec 6) | bfxN64 (h : Hdr) (d a : R32) (pos w : BitVec 6)
  | bfi (h : Hdr) (d a : R32) (pos w : BitVec 6)
  | amoAdd (h : Hdr) (ty : Ty) (o : Order) (c : Scope) (d a b : R32)
  | amoAnd (h : Hdr) (ty : Ty) (o : Order) (c : Scope) (d a b : R32)
  | amoOr (h : Hdr) (ty : Ty) (o : Order) (c : Scope) (d a b : R32)
  | amoXor (h : Hdr) (ty : Ty) (o : Order) (c : Scope) (d a b : R32)
  | amoMin (h : Hdr) (ty : Ty) (o : Order) (c : Scope) (d a b : R32)
  | amoMax (h : Hdr) (ty : Ty) (o : Order) (c : Scope) (d a b : R32)
  | amoSwap (h : Hdr) (ty : Ty) (o : Order) (c : Scope) (d a b : R32)
  | amoFadd (h : Hdr) (ty : Ty) (o : Order) (c : Scope) (d a b : R32)
  | cas (h : Hdr) (ty : Ty) (o : Order) (c : Scope) (d a b : R32)
  -- format M, vector integer (R242)
  | vadd (h : Hdr) (k : Mask) (ty : Ty) (d a b : R32) | vsub (h : Hdr) (k : Mask) (ty : Ty) (d a b : R32)
  | vmul (h : Hdr) (k : Mask) (ty : Ty) (d a b : R32)
  | vaddSat (h : Hdr) (k : Mask) (ty : Ty) (d a b : R32) | vsubSat (h : Hdr) (k : Mask) (ty : Ty) (d a b : R32)
  | vmin (h : Hdr) (k : Mask) (ty : Ty) (d a b : R32) | vmax (h : Hdr) (k : Mask) (ty : Ty) (d a b : R32)
  | vabs (h : Hdr) (k : Mask) (ty : Ty) (d a : R32) | vneg (h : Hdr) (k : Mask) (ty : Ty) (d a : R32)
  | vand (h : Hdr) (k : Mask) (ty : Ty) (d a b : R32) | vor (h : Hdr) (k : Mask) (ty : Ty) (d a b : R32)
  | vxor (h : Hdr) (k : Mask) (ty : Ty) (d a b : R32) | vandn (h : Hdr) (k : Mask) (ty : Ty) (d a b : R32)
  | vshl (h : Hdr) (k : Mask) (ty : Ty) (d a b : R32) | vshr (h : Hdr) (k : Mask) (ty : Ty) (d a b : R32)
  | vsar (h : Hdr) (k : Mask) (ty : Ty) (d a b : R32)
  | vshlImmediate (h : Hdr) (k : Mask) (ty : Ty) (d a : R32) (n : BitVec 6)
  | vshrImmediate (h : Hdr) (k : Mask) (ty : Ty) (d a : R32) (n : BitVec 6)
  | vsarImmediate (h : Hdr) (k : Mask) (ty : Ty) (d a : R32) (n : BitVec 6)
  | vmov (h : Hdr) (k : Mask) (ty : Ty) (d a : R32)
  | vectorBroadcastLiteral (h : Hdr) (k : Mask) (op : BcastOp) (ty : Ty) (d a : R32) (lit : BitVec 32)
  -- format M, vector float (R244)
  | vaddFloat (h : Hdr) (k : Mask) (ty : Ty) (rm : Rm) (d a b : R32)
  | vsubFloat (h : Hdr) (k : Mask) (ty : Ty) (rm : Rm) (d a b : R32)
  | vmulFloat (h : Hdr) (k : Mask) (ty : Ty) (rm : Rm) (d a b : R32)
  | vfma (h : Hdr) (k : Mask) (ty : Ty) (rm : Rm) (d a b : R32)
  | vfms (h : Hdr) (k : Mask) (ty : Ty) (rm : Rm) (d a b : R32)
  | vminFloat (h : Hdr) (k : Mask) (ty : Ty) (d a b : R32) | vmaxFloat (h : Hdr) (k : Mask) (ty : Ty) (d a b : R32)
  | vabsFloat (h : Hdr) (k : Mask) (ty : Ty) (d a : R32) | vnegFloat (h : Hdr) (k : Mask) (ty : Ty) (d a : R32)
  | vdiv (h : Hdr) (k : Mask) (ty : Ty) (rm : Rm) (d a b : R32)
  | vsqrt (h : Hdr) (k : Mask) (ty : Ty) (rm : Rm) (d a : R32)
  -- compare, select, masks (R245 to R247)
  | vcmp (h : Hdr) (m : R8) (c : Cond) (ty : Ty) (d : R8) (a b : R32)
  | vsel (h : Hdr) (m : R8) (ty : Ty) (d a b : R32)
  | mand (h : Hdr) (d a b : R8) | mor (h : Hdr) (d a b : R8) | mxor (h : Hdr) (d a b : R8) | mnot (h : Hdr) (d a : R8)
  | mcnt (h : Hdr) (d : R32) (a : R8) | mfirst (h : Hdr) (d : R32) (a : R8)
  -- convert, permute, reduce (R248 to R252)
  | vcvt (h : Hdr) (k : Mask) (dt sty : Ty) (rm : Rm) (sat : Bool) (d a : R32)
  | vsplit3 (h : Hdr) (k : Mask) (d a : R32)
  | vperm (h : Hdr) (k : Mask) (ty : Ty) (d a b : R32)
  | vzip (h : Hdr) (k : Mask) (ty : Ty) (d a b : R32) (hi : Bool)
  | vuzp (h : Hdr) (k : Mask) (ty : Ty) (d a b : R32) (odd : Bool)
  | vbcast (h : Hdr) (k : Mask) (ty : Ty) (d a : R32)
  | vext (h : Hdr) (ty : Ty) (d a b : R32) | vins (h : Hdr) (ty : Ty) (d a b : R32)
  | vredAdd (h : Hdr) (m : R8) (ty : Ty) (d a : R32) | vredMin (h : Hdr) (m : R8) (ty : Ty) (d a : R32)
  | vredMax (h : Hdr) (m : R8) (ty : Ty) (d a : R32) | vredAnd (h : Hdr) (m : R8) (ty : Ty) (d a : R32)
  | vredOr (h : Hdr) (m : R8) (ty : Ty) (d a : R32) | vredXor (h : Hdr) (m : R8) (ty : Ty) (d a : R32)
  | vscanAdd (h : Hdr) (k : Mask) (ty : Ty) (d a : R32) | vscanMin (h : Hdr) (k : Mask) (ty : Ty) (d a : R32)
  | vscanMax (h : Hdr) (k : Mask) (ty : Ty) (d a : R32) | vscanAnd (h : Hdr) (k : Mask) (ty : Ty) (d a : R32)
  | vscanOr (h : Hdr) (k : Mask) (ty : Ty) (d a : R32) | vscanXor (h : Hdr) (k : Mask) (ty : Ty) (d a : R32)
  -- special functions, dot, key, class, iota (R251 to R256)
  | vexp2 (h : Hdr) (k : Mask) (ty : Ty) (d a : R32) | vlog2 (h : Hdr) (k : Mask) (ty : Ty) (d a : R32)
  | vrcp (h : Hdr) (k : Mask) (ty : Ty) (d a : R32) | vrsqrt (h : Hdr) (k : Mask) (ty : Ty) (d a : R32)
  | vsinpi (h : Hdr) (k : Mask) (ty : Ty) (d a : R32) | vcospi (h : Hdr) (k : Mask) (ty : Ty) (d a : R32)
  | vtanh (h : Hdr) (k : Mask) (ty : Ty) (d a : R32)
  | vdot (h : Hdr) (k : Mask) (ty : Ty) (d a b : R32)
  | vkeyMort (h : Hdr) (k : Mask) (ty : Ty) (d a : R32) (n : BitVec 5)
  | vkeyHilb (h : Hdr) (k : Mask) (ty : Ty) (d a : R32) (n : BitVec 5)
  | vclass (h : Hdr) (k : Mask) (ty : Ty) (d a : R32)
  | viota (h : Hdr) (k : Mask) (ty : Ty) (d : R32)
  -- vector memory (R168)
  | vld (h : Hdr) (k : Mask) (ty : Ty) (d a : R32) (i : BitVec 14)
  | vlds (h : Hdr) (k : Mask) (ty : Ty) (d a b : R32) (i : BitVec 14)
  | vldsLiteral (h : Hdr) (k : Mask) (ty : Ty) (d a : R32) (lit : BitVec 32)
  | vgat (h : Hdr) (k : Mask) (ty : Ty) (d a b : R32) (s : R4)
  | vldb (h : Hdr) (k : Mask) (ty : Ty) (d a : R32) (i : BitVec 14)
  | vst (h : Hdr) (m : R8) (ty : Ty) (d a : R32) (i : BitVec 14)
  | vsts (h : Hdr) (m : R8) (ty : Ty) (d a b : R32) (i : BitVec 14)
  | vstsLiteral (h : Hdr) (m : R8) (ty : Ty) (d a : R32) (lit : BitVec 32)
  | vsct (h : Hdr) (m : R8) (ty : Ty) (d a b : R32) (s : R4)
  -- tiles (R266 to R278); `rows` and `rb` are the shape fields of R63
  | tld (h : Hdr) (d : R8) (a b : R32) (rows : BitVec 6) (rb : BitVec 4)
  | tldLiteral (h : Hdr) (d : R8) (a : R32) (rows : BitVec 6) (rb : BitVec 4) (lit : BitVec 32)
  | tldT2 (h : Hdr) (d : R8) (a b : R32) (rows : BitVec 6) (rb : BitVec 4)
  | tldT2Literal (h : Hdr) (d : R8) (a : R32) (rows : BitVec 6) (rb : BitVec 4) (lit : BitVec 32)
  | tst (h : Hdr) (d : R8) (a b : R32) (rows : BitVec 6) (rb : BitVec 4)
  | tstLiteral (h : Hdr) (d : R8) (a : R32) (rows : BitVec 6) (rb : BitVec 4) (lit : BitVec 32)
  | tstT2 (h : Hdr) (d : R8) (a b : R32) (rows : BitVec 6) (rb : BitVec 4)
  | tstT2Literal (h : Hdr) (d : R8) (a : R32) (rows : BitVec 6) (rb : BitVec 4) (lit : BitVec 32)
  | tzero (h : Hdr) (d : R8) | tmov (h : Hdr) (d a : R8)
  | tr2v (h : Hdr) (d : R32) (a : R8) (row : BitVec 6) (hi : Bool)
  | v2tr (h : Hdr) (d : R8) (a : R32) (row : BitVec 6) (hi : Bool)
  | tdisc (h : Hdr) (list : BitVec 14)
  | tstat (h : Hdr) (d : R32) (x : TileName)
  -- matrix engine (R286 to R295)
  | wld (h : Hdr) (ty : Ty) (a : R8) | wldT2 (h : Hdr) (a : R8)
  | wldT2Memory (h : Hdr) (a : R32) (lit : BitVec 32) | wldPip (h : Hdr) (a : R32) (lit : BitVec 32)
  | wflip (h : Hdr)
  | tmul (h : Hdr) (ty : Ty) (d : R4) (a : R8) | tmulT2i8 (h : Hdr) (d : R4) (hi : Bool)
  | tmulFlip (h : Hdr) (ty : Ty) (d : R4) (a : R8) | tmulFlipT2i8 (h : Hdr) (d : R4) (hi : Bool)
  | azero (h : Hdr) (d : R4) | aaddF32 (h : Hdr) (d a b : R4) | aaddI32 (h : Hdr) (d a b : R4)
  | ascale (h : Hdr) (d a : R4) (b : R32)
  | ald (h : Hdr) (ty : Ty) (d : R4) (a b : R32)
  | ast (h : Hdr) (ty : Ty) (clamp : Bool) (d : R4) (a b : R32)
  | a2t (h : Hdr) (ty : Ty) (clamp : Bool) (d : R8) (a : R4)
  | roll (h : Hdr) (a b : R32) (len : BitVec 4)
  | leave (h : Hdr) (d : R32) (n : BitVec 6) | leaveRet (h : Hdr)
  -- copy engine (R212)
  | dcp (h : Hdr) (d a : R32) (ch : R8) | dcpLiteral (h : Hdr) (d a : R32) (ch : R8) (lit : BitVec 32)
  | dcpw (h : Hdr) (a : R32) (ch : R8) | dcps (h : Hdr) (d : R32) (ch : R8) | dcpx (h : Hdr) (ch : R8)
  -- remote (R322)
  | rput (h : Hdr) (d a b : R32) (f : BitVec 14) | rputLong (h : Hdr) (d a b : R32) (lit : BitVec 32)
  | rget (h : Hdr) (d a b : R32)
  | ratomAdd (h : Hdr) (ty : Ty) (d a b : R32) | ratomAnd (h : Hdr) (ty : Ty) (d a b : R32)
  | ratomOr (h : Hdr) (ty : Ty) (d a b : R32) | ratomXor (h : Hdr) (ty : Ty) (d a b : R32)
  | ratomMin (h : Hdr) (ty : Ty) (d a b : R32) | ratomMax (h : Hdr) (ty : Ty) (d a b : R32)
  | ratomSwap (h : Hdr) (ty : Ty) (d a b : R32) | ratomFadd (h : Hdr) (ty : Ty) (d a b : R32)
  | rcas (h : Hdr) (ty : Ty) (d a b : R32)
  | wcntArr (h : Hdr) (d a : R32) | wcntIss (h : Hdr) (d a : R32) | wcntDone (h : Hdr) (d a : R32)
  | rfence (h : Hdr) (a : R32)
  -- collectives (R337 to R340)
  | rpart (h : Hdr) (d a : R32) (lit : BitVec 32) | rpstat (h : Hdr) (d a : R32) | cbar (h : Hdr) (a : R32)
  | credAdd (h : Hdr) (ty : Ty) (d a b : R32) | credMin (h : Hdr) (ty : Ty) (d a b : R32)
  | credMax (h : Hdr) (ty : Ty) (d a b : R32)
  -- execution (R360)
  | cast (h : Hdr) (d a : R32) | exit (h : Hdr) (a : R32) | gong (h : Hdr) | post (h : Hdr) (d a b : R32)
  | take (h : Hdr) (d : R32) | prio (h : Hdr) (a b : R32)
  -- system (R64)
  | cinv (h : Hdr) (d a b : R32) | cinvRe (h : Hdr) (d a b : R32) | stest (h : Hdr) (d a : R32)
  | thint (h : Hdr) (d a b : R32) (pr : R8) | step (h : Hdr) (d a : R32) | subup (h : Hdr) (a : R32)
  | bellqPeal (h : Hdr) (d : R32) | bellqLen (h : Hdr) (d : R32) | bellqNext (h : Hdr) (d : R32) | bellw (h : Hdr)
  -- steps without an encoding, whose operands are the step's `Input`: tiles and engines (R273, R284, R285, R401)
  | tileDrain | engineChoice | engineStreamEnd | leaveGrant
  -- copy engine (R195, R200, R203)
  | recordSnapshot | copyChunk | cpbindWrite
  -- remote operations (R307, R315, R316)
  | remoteOperationArrival | remoteOperationEnd | remoteOperationTimeout
  -- collectives (R326, R333, R336, R339)
  | collectiveJoin | collectiveTimeout | rpartCommit | rpartEnd
  -- dispatcher (R348 to R353)
  | taskDistribution | taskPlacement | levelling | shareEnd
  -- service engine (R388, R389)
  | windowRegister | windowRelease | taskPreempt | taskKill | taskQuery | derive | serviceRestart
  -- migrator (R98, R101, R102)
  | migratorHint | migrationMoveEnd | migpoolWrite
  -- coherence (R126, R128, R130, R137, R178)
  | rds | rdf | rdo | up | wt | wb | dr | am | iv | ud | rc | ak
  | eviction | stalePointerScrub
  -- main memory registers (R96, R104, R108, R110, R112, R139)
  | irdEnable | irdDisable | fwEnable | fwInvalidate | fwInvalidateEnd | keyProgram | keyRetire | keyRetireEnd
  | melheadCons | slctlApply | sliceDrainEnd
  -- traps and pre-emption (R370, R375, R378, R382, R384, R385)
  | timerExpiry | interrupt | xprqWrite | forcedPreemption | taskResume | partitionSwap | xctlKill
  -- bells and machine checks (R391 to R408, R444, R445)
  | bellBegin | greatBellBegin | bellEnd | bellExtension | drainWindowBegin | powerControllerUpdate
  | ringHeaterTrack | selfTestRun | selfTestEnd | machineCheckEvent
  -- fabric (R304 to R309)
  | turnBoundary | flitReceive | flitAckTimeout | packetSend | relayForward
  -- domain (R438, R439)
  | electionTrigger | claimSend | claimReceive | acknowledgementReceive | claimAbandon | heartbeatReceive
  | tableSetReceive
  -- boot, partitions, warm reset (R433 to R436, R442)
  | powerOnReset | moduleResetCommand | partitionEnable | partitionDisable | drstGo | warmResetRetrain
  -- attestation (R434)
  | getVersion | getCapabilities | negotiateAlgorithms | getDigests | getCertificate | challenge | getMeasurements
  -- host, debug, registers, leader (R5, R439 to R441, R446)
  | hostRequest | hostLinkDown | debugStop | registerWrite | hostLinkUp | debugToken | tableSequenceReport
deriving DecidableEq, Repr

/-- The operands of a step without an encoding: what another unit or the outside world hands to it. The fields are
numbered in the order in which the step's own meaning names them. -/
inductive Input where
  | none
  /-- one number: a strand, a cluster, a die, a register's index, a packet ... -/
  | num (n : Nat)
  | num2 (a b : Nat)
  | num3 (a b c : Nat)
  /-- a value written to register `n` of its kind, or to local address `n` -/
  | word (n : Nat) (v : Word)
  | flag (b : Bool)
  | list (l : List Nat)
  /-- `ENGINE_CHOICE`: an engine and what its checksums find -/
  | engine (eng : Nat) (check : EngineCheck)
  | remote (r : RemoteReq)
  | remoteEnd (id : Nat) (res : RemoteResult)
  /-- `REMOTE_OPERATION_ARRIVAL` of an operation that has been performed: its source, the bytes of its reply, its result -/
  | remoteReply (source n : Nat) (res : RemoteResult)
  | join (part : Nat) (j : CollJoin)
  | call (c : SvcCall)
  | coh (m : CohMsg)
  /-- the 4-byte words of the grain that `mask` names, from `data` -/
  | cohWrite (m : CohMsg) (mask data : Nat)
  | cohAtom (m : CohMsg) (op : AmoOp) (ty : Ty) (x : Word)
  /-- `EVICTION`: a line of a core's cache or of the cluster's, by its place in the cache -/
  | evict (cluster : Nat) (core : Option Nat) (index : Nat)
  | check (e : McEvent)
  /-- `BELL_BEGIN`, `GREAT_BELL_BEGIN`: strands with row loads in flight; readings of the sensors that the bell samples, as
  the words of R444; for a great bell, what its retune finds: (loop, TEMP, CODE), and the rings that cannot lock, by
  fibre · 32 + wavelength; by how many turns its work overruns, and the work that is left even then (R397): sensor `i` as `i`, the
  self-test as 5, ring-heater loop `f` as 8 + `f` -/
  | bell (flight : List Nat) (sensors : List Word) (rings : List (Nat × Nat × Nat)) (lost : List Nat) (late : Nat := 0) (left : List Nat := [])
  /-- `TURN_BOUNDARY`: the exchanges of the gap, and by how many ppm TIME is then steered -/
  | exchange (l : List Exchange) (ppm : Nat)
  | flit (f : Flit)
  | images (l : List BootImage)
  | tables (t : TableSet) (whole : Bool)
  /-- an election message: its term, its sender's serial number, whether its signature verifies, and the round in which it arrives -/
  | claim (term serial : Nat) (verified : Bool) (round : Nat := 0)
  | debug (r : DebugRead)
  | outcome (n : Nat) (ok : Bool)
  /-- `HOST_REQUEST`: `n` bytes at an address that the host exposes, read or written -/
  | host (addr n : Nat) (write : Option Nat)
  /-- `HOST_REQUEST`: `n` bytes of the configuration and mailbox space, read or written -/
  | hostSpace (offset n : Nat) (write : Option Nat)
deriving DecidableEq, Repr

end Sys2Proof
end

