-- ==== Sys2Proof/WellFormed.lean ====
section
/-!
DEFINITION. Well-formedness of instructions: the reserved values and combinations of R28, R32, R37, R39, R49, R52 and of
each instruction's own description. `Instr.flaw` names the first check an instruction fails; an instruction is well
formed when it fails none. A decoded word that fails one raises illegal instruction (R39).
-/
namespace Sys2Proof

/-- Why an encoding is not an instruction (R39), or why a term of `Instr` is the term of none. -/
inductive Reject where
  /-- fewer bytes than the length the first byte fixes (R24) -/
  | short
  /-- a reserved major opcode (R50, R58, R65) -/
  | reservedOp
  /-- a reserved fn value (R49) -/
  | reservedFn
  /-- a register field out of its class, p0 or m0 as a destination included (R36, R37) -/
  | outOfClass
  /-- a type code the instruction does not accept (R30) -/
  | reservedType
  /-- a condition code that is reserved or disagrees with the type (R52) -/
  | reservedCond
  /-- the guard pattern gp = 0, gn = 1, or the branch pattern p = 0, pn = 1 (R28, R32) -/
  | guardPattern
  /-- a nonzero must-be-zero field (R37, R39) -/
  | nonzeroField
  /-- a reserved value or combination named by the instruction's own description (R39) -/
  | reservedCombination
  /-- a step of the table that has no encoding -/
  | notEncoded
deriving DecidableEq, Repr

namespace Ty

/-- The code of R30. -/
def code : Ty → Nat
  | .b8 => 0 | .b16 => 1 | .b32 => 2 | .b64 => 3 | .i8 => 4 | .i16 => 5 | .i32 => 6 | .i64 => 7
  | .n8 => 8 | .n16 => 9 | .n32 => 10 | .n64 => 11 | .f32 => 12 | .bf16 => 13 | .e4m3 => 14 | .e5m2 => 15

/-- Lane or element width in bits (R239). -/
def bits : Ty → Nat
  | .b8 | .i8 | .n8 | .e4m3 | .e5m2 => 8
  | .b16 | .i16 | .n16 | .bf16 => 16
  | .b32 | .i32 | .n32 | .f32 => 32
  | .b64 | .i64 | .n64 => 64

/-- Size in bytes. -/
def bytes (t : Ty) : Nat := t.bits / 8

def isRaw : Ty → Bool | .b8 | .b16 | .b32 | .b64 => true | _ => false
def isSigned : Ty → Bool | .i8 | .i16 | .i32 | .i64 => true | _ => false
def isUnsigned : Ty → Bool | .n8 | .n16 | .n32 | .n64 => true | _ => false
/-- The floating lane formats of R244. -/
def isFloat : Ty → Bool | .f32 | .bf16 => true | _ => false
/-- The four floating formats of R70. -/
def isAnyFloat : Ty → Bool | .f32 | .bf16 | .e4m3 | .e5m2 => true | _ => false
/-- Codes 4 to 11. -/
def isInt (t : Ty) : Bool := t.isSigned || t.isUnsigned
/-- Codes 0 to 11. -/
def isWord (t : Ty) : Bool := t.isRaw || t.isInt
/-- Codes 0 to 13. -/
def isLane (t : Ty) : Bool := t.isWord || t.isFloat

end Ty

namespace Cond

/-- The code of R52. -/
def code : Cond → Nat
  | .eq => 0 | .ne => 1 | .lt => 2 | .le => 3 | .gt => 4 | .ge => 5
  | .ltu => 6 | .leu => 7 | .gtu => 8 | .geu => 9 | .un => 10

/-- The scalar compares accept every code but unordered (R225). -/
def scalarOk : Cond → Bool | .un => false | _ => true

/-- The signedness rule of R52 for `vcmp` (R245). -/
def laneOk (c : Cond) (t : Ty) : Bool :=
  match c with
  | .eq | .ne => t.isLane
  | .lt | .le | .gt | .ge => t.isSigned || t.isFloat
  | .ltu | .leu | .gtu | .geu => t.isRaw || t.isUnsigned
  | .un => t.isFloat

end Cond

namespace Check

/-- The first named flaw of a list of checks. -/
def first : List (Bool × Reject) → Option Reject
  | [] => none
  | (ok, r) :: rest => if ok then first rest else some r

/-- The reserved guard pattern (R32). -/
def guard (h : Hdr) : Bool × Reject := (!(decide (h.gp = 0) && h.gn), .guardPattern)
def ty (ok : Bool) : Bool × Reject := (ok, .reservedType)
def cond (ok : Bool) : Bool × Reject := (ok, .reservedCond)
/-- p0 and m0 are no destinations (R37). -/
def dst (d : R8) : Bool × Reject := (decide (d ≠ 0), .outOfClass)
def comb (ok : Bool) : Bool × Reject := (ok, .reservedCombination)

/-- The types of `amo.add`, `amo.min`, `amo.max` (R61). -/
def amoArith (t : Ty) : Bool := t == .i32 || t == .i64 || t == .n32 || t == .n64
/-- The types of the bitwise atomics, of swap and of `cas` (R61). -/
def amoBits (t : Ty) : Bool := t == .b32 || t == .b64

/-- The pairs and modifiers of `vcvt` (R248). -/
def cvtOk (dt st : Ty) (rm : Rm) (sat : Bool) : Bool :=
  if st == dt then false
  else if st.isAnyFloat && dt.isAnyFloat then
    !sat && (if (st == .f32) || (st == .bf16 && dt.bits == 8) || (st.bits == 8 && dt.bits == 8) then true
      else decide (rm = .rne))
  else if st.isInt && dt.isFloat then !sat
  else if st.isFloat && dt.isInt then true
  else if st.isInt && dt.isInt then decide (rm = .rne)
  else false

/-- The types of the broadcast family's operations (R243, R242, R244). -/
def bcast (op : BcastOp) (t : Ty) : Bool :=
  match op with
  | .add | .sub | .mul => t.isWord
  | .addSat | .subSat | .min | .max => t.isInt
  | .and | .or | .xor | .andn | .shl | .shr => t.isRaw
  | .sar => t.isSigned
  | .fadd _ | .fsub _ | .fmul _ | .ffma _ | .ffms _ | .fmin | .fmax | .fdiv _ => t.isFloat

/-- The plane modes that a type field names (R63). -/
def plane (t : Ty) : Bool := t == .bf16 || t == .e4m3 || t == .e5m2 || t == .i8

end Check

open Check in
/-- The first check that an instruction fails, or none. -/
def Instr.flaw : Instr → Option Reject
  | .add _ _ _ => none
  | .sub _ _ _ => none
  | .and _ _ _ => none
  | .or _ _ _ => none
  | .xor _ _ _ => none
  | .andn _ _ _ => none
  | .orn _ _ _ => none
  | .shl _ _ _ => none
  | .shr _ _ _ => none
  | .sar _ _ _ => none
  | .rot _ _ _ => none
  | .minI64 _ _ _ => none
  | .maxI64 _ _ _ => none
  | .minN64 _ _ _ => none
  | .maxN64 _ _ _ => none
  | .mov _ _ => none
  | .mul _ _ _ => none
  | .mulhI64 _ _ _ => none
  | .mulhN64 _ _ _ => none
  | .divI64 _ _ _ => none
  | .divN64 _ _ _ => none
  | .remI64 _ _ _ => none
  | .remN64 _ _ _ => none
  | .clz _ _ => none
  | .ctz _ _ => none
  | .popc _ _ => none
  | .bswap _ _ => none
  | .extI8 _ _ => none
  | .extI16 _ _ => none
  | .extI32 _ _ => none
  | .extN8 _ _ => none
  | .extN16 _ _ => none
  | .extN32 _ _ => none
  | .cmp c d _ _ => first [cond c.scalarOk, dst d]
  | .pand d _ _ => first [dst d]
  | .por d _ _ => first [dst d]
  | .pxor d _ _ => first [dst d]
  | .pnot d _ => first [dst d]
  | .pmov d _ => first [dst d]
  | .sel _ _ _ _ => none
  | .lea _ _ _ _ => none
  | .addImmediate _ _ _ => none
  | .andImmediate _ _ _ => none
  | .orImmediate _ _ _ => none
  | .xorImmediate _ _ _ => none
  | .shlImmediate _ _ _ => none
  | .shrImmediate _ _ _ => none
  | .sarImmediate _ _ _ => none
  | .rotImmediate _ _ _ => none
  | .mulImmediate _ _ _ => none
  | .cmpi c _ d _ => first [cond c.scalarOk, dst d]
  | .movi _ _ => none
  | .ld t _ _ _ => first [ty (t.isWord)]
  | .st t _ _ _ => first [ty (t.isRaw)]
  | .pfL1 _ _ => none
  | .pfCc _ _ => none
  | .pfL2 _ _ => none
  | .br _ n p => first [(!(decide (p = 0) && n), .guardPattern)]
  | .jmp _ => none
  | .call _ => none
  | .jmpr _ => none
  | .callr _ => none
  | .ret => none
  | .srGet _ _ => none
  | .srSet _ _ => none
  | .srSwap _ _ _ => none
  | .nop => none
  | .trap _ => none
  | .tret => none
  | .tack => none
  | .halt => none
  | .yield => none
  | .fenceAcq _ => none
  | .fenceRel _ => none
  | .fenceAr _ => none
  | .cflWt _ => none
  | .cflInv _ => none
  | .cflWi _ => none
  | .tlbiPage _ => none
  | .tlbiAsn _ => none
  | .tlbiAll => none
  | .waitNe _ _ _ => none
  | .waitEq _ _ _ => none
  | .waitGe _ _ _ => none
  | .li h _ _ => first [guard h]
  | .lihi h _ _ => first [guard h]
  | .addLiteral h _ _ _ => first [guard h]
  | .subLiteral h _ _ _ => first [guard h]
  | .andLiteral h _ _ _ => first [guard h]
  | .orLiteral h _ _ _ => first [guard h]
  | .xorLiteral h _ _ _ => first [guard h]
  | .andnLiteral h _ _ _ => first [guard h]
  | .ornLiteral h _ _ _ => first [guard h]
  | .shlLiteral h _ _ _ => first [guard h]
  | .shrLiteral h _ _ _ => first [guard h]
  | .sarLiteral h _ _ _ => first [guard h]
  | .rotLiteral h _ _ _ => first [guard h]
  | .minI64Literal h _ _ _ => first [guard h]
  | .maxI64Literal h _ _ _ => first [guard h]
  | .minN64Literal h _ _ _ => first [guard h]
  | .maxN64Literal h _ _ _ => first [guard h]
  | .movLiteral h _ _ => first [guard h]
  | .mulLiteral h _ _ _ => first [guard h]
  | .mulhI64Literal h _ _ _ => first [guard h]
  | .mulhN64Literal h _ _ _ => first [guard h]
  | .divI64Literal h _ _ _ => first [guard h]
  | .divN64Literal h _ _ _ => first [guard h]
  | .remI64Literal h _ _ _ => first [guard h]
  | .remN64Literal h _ _ _ => first [guard h]
  | .cmpLiteral h c d _ _ => first [guard h, cond c.scalarOk, dst d]
  | .brLong h _ => first [guard h]
  | .callLong h _ => first [guard h]
  | .ldLong h t _ _ _ _ _ _ => first [guard h, ty (t.isWord)]
  | .stLong h t _ _ _ _ _ _ => first [guard h, ty (t.isRaw)]
  | .bfxI64 h _ _ pos w => first [guard h, comb (decide (pos.toNat + (if w.toNat = 0 then 64 else w.toNat) ≤ 64))]
  | .bfxN64 h _ _ pos w => first [guard h, comb (decide (pos.toNat + (if w.toNat = 0 then 64 else w.toNat) ≤ 64))]
  | .bfi h _ _ pos w => first [guard h, comb (decide (pos.toNat + (if w.toNat = 0 then 64 else w.toNat) ≤ 64))]
  | .amoAdd h t _ _ _ _ _ => first [guard h, ty (amoArith t)]
  | .amoAnd h t _ _ _ _ _ => first [guard h, ty (amoBits t)]
  | .amoOr h t _ _ _ _ _ => first [guard h, ty (amoBits t)]
  | .amoXor h t _ _ _ _ _ => first [guard h, ty (amoBits t)]
  | .amoMin h t _ _ _ _ _ => first [guard h, ty (amoArith t)]
  | .amoMax h t _ _ _ _ _ => first [guard h, ty (amoArith t)]
  | .amoSwap h t _ _ _ _ _ => first [guard h, ty (amoBits t)]
  | .amoFadd h t _ _ _ _ _ => first [guard h, ty (t == .f32)]
  | .cas h t _ _ _ _ _ => first [guard h, ty (amoBits t)]
  | .vadd h _ t _ _ _ => first [guard h, ty (t.isWord)]
  | .vsub h _ t _ _ _ => first [guard h, ty (t.isWord)]
  | .vmul h _ t _ _ _ => first [guard h, ty (t.isWord)]
  | .vaddSat h _ t _ _ _ => first [guard h, ty (t.isInt)]
  | .vsubSat h _ t _ _ _ => first [guard h, ty (t.isInt)]
  | .vmin h _ t _ _ _ => first [guard h, ty (t.isInt)]
  | .vmax h _ t _ _ _ => first [guard h, ty (t.isInt)]
  | .vabs h _ t _ _ => first [guard h, ty (t.isSigned)]
  | .vneg h _ t _ _ => first [guard h, ty (t.isSigned)]
  | .vand h _ t _ _ _ => first [guard h, ty (t.isRaw)]
  | .vor h _ t _ _ _ => first [guard h, ty (t.isRaw)]
  | .vxor h _ t _ _ _ => first [guard h, ty (t.isRaw)]
  | .vandn h _ t _ _ _ => first [guard h, ty (t.isRaw)]
  | .vshl h _ t _ _ _ => first [guard h, ty (t.isRaw)]
  | .vshr h _ t _ _ _ => first [guard h, ty (t.isRaw)]
  | .vsar h _ t _ _ _ => first [guard h, ty (t.isSigned)]
  | .vshlImmediate h _ t _ _ n => first [guard h, ty (t.isRaw), comb (decide (n.toNat < t.bits))]
  | .vshrImmediate h _ t _ _ n => first [guard h, ty (t.isRaw), comb (decide (n.toNat < t.bits))]
  | .vsarImmediate h _ t _ _ n => first [guard h, ty (t.isSigned), comb (decide (n.toNat < t.bits))]
  | .vmov h _ t _ _ => first [guard h, ty (t.isRaw)]
  | .vectorBroadcastLiteral h _ op t _ _ _ => first [guard h, ty (bcast op t)]
  | .vaddFloat h _ t _ _ _ _ => first [guard h, ty (t.isFloat)]
  | .vsubFloat h _ t _ _ _ _ => first [guard h, ty (t.isFloat)]
  | .vmulFloat h _ t _ _ _ _ => first [guard h, ty (t.isFloat)]
  | .vfma h _ t _ _ _ _ => first [guard h, ty (t.isFloat)]
  | .vfms h _ t _ _ _ _ => first [guard h, ty (t.isFloat)]
  | .vminFloat h _ t _ _ _ => first [guard h, ty (t.isFloat)]
  | .vmaxFloat h _ t _ _ _ => first [guard h, ty (t.isFloat)]
  | .vabsFloat h _ t _ _ => first [guard h, ty (t.isFloat)]
  | .vnegFloat h _ t _ _ => first [guard h, ty (t.isFloat)]
  | .vdiv h _ t _ _ _ _ => first [guard h, ty (t.isFloat)]
  | .vsqrt h _ t _ _ _ => first [guard h, ty (t.isFloat)]
  | .vcmp h _ c t d _ _ => first [guard h, ty (t.isLane), cond (c.laneOk t), dst d]
  | .vsel h _ t _ _ _ => first [guard h, ty (t.isRaw)]
  | .mand h d _ _ => first [guard h, dst d]
  | .mor h d _ _ => first [guard h, dst d]
  | .mxor h d _ _ => first [guard h, dst d]
  | .mnot h d _ => first [guard h, dst d]
  | .mcnt h _ _ => first [guard h]
  | .mfirst h _ _ => first [guard h]
  | .vcvt h _ dty sty rm sat _ _ => first [guard h, comb (cvtOk dty sty rm sat)]
  | .vsplit3 h _ d _ => first [guard h, comb (decide (d.val ≤ 29))]
  | .vperm h _ t _ _ _ => first [guard h, ty (t.isRaw)]
  | .vzip h _ t _ _ _ _ => first [guard h, ty (t.isRaw)]
  | .vuzp h _ t _ _ _ _ => first [guard h, ty (t.isRaw)]
  | .vbcast h _ t _ _ => first [guard h, ty (t.isRaw)]
  | .vext h t _ _ _ => first [guard h, ty (t.isRaw)]
  | .vins h t _ _ _ => first [guard h, ty (t.isRaw)]
  | .vredAdd h _ t _ _ => first [guard h, ty (t.isLane)]
  | .vredMin h _ t _ _ => first [guard h, ty (t.isInt || t.isFloat)]
  | .vredMax h _ t _ _ => first [guard h, ty (t.isInt || t.isFloat)]
  | .vredAnd h _ t _ _ => first [guard h, ty (t.isRaw)]
  | .vredOr h _ t _ _ => first [guard h, ty (t.isRaw)]
  | .vredXor h _ t _ _ => first [guard h, ty (t.isRaw)]
  | .vscanAdd h _ t _ _ => first [guard h, ty (t.isLane)]
  | .vscanMin h _ t _ _ => first [guard h, ty (t.isInt || t.isFloat)]
  | .vscanMax h _ t _ _ => first [guard h, ty (t.isInt || t.isFloat)]
  | .vscanAnd h _ t _ _ => first [guard h, ty (t.isRaw)]
  | .vscanOr h _ t _ _ => first [guard h, ty (t.isRaw)]
  | .vscanXor h _ t _ _ => first [guard h, ty (t.isRaw)]
  | .vexp2 h _ t _ _ => first [guard h, ty (t.isFloat)]
  | .vlog2 h _ t _ _ => first [guard h, ty (t.isFloat)]
  | .vrcp h _ t _ _ => first [guard h, ty (t.isFloat)]
  | .vrsqrt h _ t _ _ => first [guard h, ty (t.isFloat)]
  | .vsinpi h _ t _ _ => first [guard h, ty (t.isFloat)]
  | .vcospi h _ t _ _ => first [guard h, ty (t.isFloat)]
  | .vtanh h _ t _ _ => first [guard h, ty (t.isFloat)]
  | .vdot h _ t _ _ _ => first [guard h, ty (t == .i8 || t == .n8 || t == .bf16 || t == .e4m3 || t == .e5m2)]
  | .vkeyMort h _ t _ a n => first [guard h, ty (t == .n32 || t == .f32), comb (decide (a.val ≤ 29)), comb (decide (1 ≤ n.toNat ∧ n.toNat ≤ 21))]
  | .vkeyHilb h _ t _ a n => first [guard h, ty (t == .n32 || t == .f32), comb (decide (a.val ≤ 29)), comb (decide (1 ≤ n.toNat ∧ n.toNat ≤ 21))]
  | .vclass h _ t _ _ => first [guard h, ty (t.isFloat)]
  | .viota h _ t _ => first [guard h, ty (t.isRaw)]
  | .vld h _ t _ _ _ => first [guard h, ty (t.isRaw)]
  | .vlds h _ t _ _ _ _ => first [guard h, ty (t.isRaw)]
  | .vldsLiteral h _ t _ _ _ => first [guard h, ty (t.isRaw)]
  | .vgat h _ t _ _ _ _ => first [guard h, ty (t.isRaw)]
  | .vldb h _ t _ _ _ => first [guard h, ty (t.isRaw)]
  | .vst h _ t _ _ _ => first [guard h, ty (t.isRaw)]
  | .vsts h _ t _ _ _ _ => first [guard h, ty (t.isRaw)]
  | .vstsLiteral h _ t _ _ _ => first [guard h, ty (t.isRaw)]
  | .vsct h _ t _ _ _ _ => first [guard h, ty (t.isRaw)]
  | .tld h _ _ _ _ _ => first [guard h]
  | .tldLiteral h _ _ _ _ _ => first [guard h]
  | .tldT2 h _ _ _ _ _ => first [guard h]
  | .tldT2Literal h _ _ _ _ _ => first [guard h]
  | .tst h _ _ _ _ _ => first [guard h]
  | .tstLiteral h _ _ _ _ _ => first [guard h]
  | .tstT2 h _ _ _ _ _ => first [guard h]
  | .tstT2Literal h _ _ _ _ _ => first [guard h]
  | .tzero h _ => first [guard h]
  | .tmov h _ _ => first [guard h]
  | .tr2v h _ _ _ _ => first [guard h]
  | .v2tr h _ _ _ _ => first [guard h]
  | .tdisc h _ => first [guard h]
  | .tstat h _ _ => first [guard h]
  | .wld h t _ => first [guard h, ty (plane t)]
  | .wldT2 h _ => first [guard h]
  | .wldT2Memory h _ _ => first [guard h]
  | .wldPip h _ _ => first [guard h]
  | .wflip h => first [guard h]
  | .tmul h t _ _ => first [guard h, ty (plane t)]
  | .tmulT2i8 h _ _ => first [guard h]
  | .tmulFlip h t _ _ => first [guard h, ty (plane t)]
  | .tmulFlipT2i8 h _ _ => first [guard h]
  | .azero h _ => first [guard h]
  | .aaddF32 h _ _ _ => first [guard h]
  | .aaddI32 h _ _ _ => first [guard h]
  | .ascale h _ _ _ => first [guard h]
  | .ald h t _ _ _ => first [guard h, ty (t == .f32 || t == .i32)]
  | .ast h t _ _ _ _ => first [guard h, ty (t.isAnyFloat || t == .i8 || t == .n8)]
  | .a2t h t _ _ _ => first [guard h, ty (t == .bf16 || t == .e4m3 || t == .e5m2 || t == .i8 || t == .n8)]
  | .roll h _ _ _ => first [guard h]
  | .leave h _ _ => first [guard h]
  | .leaveRet h => first [guard h]
  | .dcp h _ _ _ => first [guard h]
  | .dcpLiteral h _ _ _ _ => first [guard h]
  | .dcpw h _ _ => first [guard h]
  | .dcps h _ _ => first [guard h]
  | .dcpx h _ => first [guard h]
  | .rput h _ _ _ f => first [guard h, comb (decide (f.toNat ≤ 0x2000))]
  | .rputLong h _ _ _ _ => first [guard h]
  | .rget h _ _ _ => first [guard h]
  | .ratomAdd h t _ _ _ => first [guard h, ty (amoArith t)]
  | .ratomAnd h t _ _ _ => first [guard h, ty (amoBits t)]
  | .ratomOr h t _ _ _ => first [guard h, ty (amoBits t)]
  | .ratomXor h t _ _ _ => first [guard h, ty (amoBits t)]
  | .ratomMin h t _ _ _ => first [guard h, ty (amoArith t)]
  | .ratomMax h t _ _ _ => first [guard h, ty (amoArith t)]
  | .ratomSwap h t _ _ _ => first [guard h, ty (amoBits t)]
  | .ratomFadd h t _ _ _ => first [guard h, ty (t == .f32)]
  | .rcas h t _ _ _ => first [guard h, ty (amoBits t)]
  | .wcntArr h _ _ => first [guard h]
  | .wcntIss h _ _ => first [guard h]
  | .wcntDone h _ _ => first [guard h]
  | .rfence h _ => first [guard h]
  | .rpart h _ _ _ => first [guard h]
  | .rpstat h _ _ => first [guard h]
  | .cbar h _ => first [guard h]
  | .credAdd h t _ _ _ => first [guard h, ty (t == .i32 || t == .i64 || t == .f32)]
  | .credMin h t _ _ _ => first [guard h, ty (t == .i32 || t == .i64 || t == .f32)]
  | .credMax h t _ _ _ => first [guard h, ty (t == .i32 || t == .i64 || t == .f32)]
  | .cast h _ _ => first [guard h]
  | .exit h _ => first [guard h]
  | .gong h => first [guard h]
  | .post h _ _ _ => first [guard h]
  | .take h _ => first [guard h]
  | .prio h _ _ => first [guard h]
  | .cinv h _ _ _ => first [guard h]
  | .cinvRe h _ _ _ => first [guard h]
  | .stest h _ _ => first [guard h]
  | .thint h _ _ _ _ => first [guard h]
  | .step h _ _ => first [guard h]
  | .subup h _ => first [guard h]
  | .bellqPeal h _ => first [guard h]
  | .bellqLen h _ => first [guard h]
  | .bellqNext h _ => first [guard h]
  | .bellw h => first [guard h]
  | .tileDrain => some .notEncoded
  | .engineChoice => some .notEncoded
  | .engineStreamEnd => some .notEncoded
  | .leaveGrant => some .notEncoded
  | .recordSnapshot => some .notEncoded
  | .copyChunk => some .notEncoded
  | .cpbindWrite => some .notEncoded
  | .remoteOperationArrival => some .notEncoded
  | .remoteOperationEnd => some .notEncoded
  | .remoteOperationTimeout => some .notEncoded
  | .collectiveJoin => some .notEncoded
  | .collectiveTimeout => some .notEncoded
  | .rpartCommit => some .notEncoded
  | .rpartEnd => some .notEncoded
  | .taskDistribution => some .notEncoded
  | .taskPlacement => some .notEncoded
  | .levelling => some .notEncoded
  | .shareEnd => some .notEncoded
  | .windowRegister => some .notEncoded
  | .windowRelease => some .notEncoded
  | .taskPreempt => some .notEncoded
  | .taskKill => some .notEncoded
  | .taskQuery => some .notEncoded
  | .derive => some .notEncoded
  | .serviceRestart => some .notEncoded
  | .migratorHint => some .notEncoded
  | .migrationMoveEnd => some .notEncoded
  | .migpoolWrite => some .notEncoded
  | .rds => some .notEncoded
  | .rdf => some .notEncoded
  | .rdo => some .notEncoded
  | .up => some .notEncoded
  | .wt => some .notEncoded
  | .wb => some .notEncoded
  | .dr => some .notEncoded
  | .am => some .notEncoded
  | .iv => some .notEncoded
  | .ud => some .notEncoded
  | .rc => some .notEncoded
  | .ak => some .notEncoded
  | .eviction => some .notEncoded
  | .stalePointerScrub => some .notEncoded
  | .irdEnable => some .notEncoded
  | .irdDisable => some .notEncoded
  | .fwEnable => some .notEncoded
  | .fwInvalidate => some .notEncoded
  | .fwInvalidateEnd => some .notEncoded
  | .keyProgram => some .notEncoded
  | .keyRetire => some .notEncoded
  | .keyRetireEnd => some .notEncoded
  | .melheadCons => some .notEncoded
  | .slctlApply => some .notEncoded
  | .sliceDrainEnd => some .notEncoded
  | .timerExpiry => some .notEncoded
  | .interrupt => some .notEncoded
  | .xprqWrite => some .notEncoded
  | .forcedPreemption => some .notEncoded
  | .taskResume => some .notEncoded
  | .partitionSwap => some .notEncoded
  | .xctlKill => some .notEncoded
  | .bellBegin => some .notEncoded
  | .greatBellBegin => some .notEncoded
  | .bellEnd => some .notEncoded
  | .bellExtension => some .notEncoded
  | .drainWindowBegin => some .notEncoded
  | .powerControllerUpdate => some .notEncoded
  | .ringHeaterTrack => some .notEncoded
  | .selfTestRun => some .notEncoded
  | .selfTestEnd => some .notEncoded
  | .machineCheckEvent => some .notEncoded
  | .turnBoundary => some .notEncoded
  | .flitReceive => some .notEncoded
  | .flitAckTimeout => some .notEncoded
  | .packetSend => some .notEncoded
  | .relayForward => some .notEncoded
  | .electionTrigger => some .notEncoded
  | .claimSend => some .notEncoded
  | .claimReceive => some .notEncoded
  | .acknowledgementReceive => some .notEncoded
  | .claimAbandon => some .notEncoded
  | .heartbeatReceive => some .notEncoded
  | .tableSetReceive => some .notEncoded
  | .powerOnReset => some .notEncoded
  | .moduleResetCommand => some .notEncoded
  | .partitionEnable => some .notEncoded
  | .partitionDisable => some .notEncoded
  | .drstGo => some .notEncoded
  | .warmResetRetrain => some .notEncoded
  | .getVersion => some .notEncoded
  | .getCapabilities => some .notEncoded
  | .negotiateAlgorithms => some .notEncoded
  | .getDigests => some .notEncoded
  | .getCertificate => some .notEncoded
  | .challenge => some .notEncoded
  | .getMeasurements => some .notEncoded
  | .hostRequest => some .notEncoded
  | .hostLinkDown => some .notEncoded
  | .debugStop => some .notEncoded
  | .registerWrite => some .notEncoded
  | .hostLinkUp => some .notEncoded
  | .debugToken => some .notEncoded
  | .tableSequenceReport => some .notEncoded

/-- An instruction is well formed when it fails no check. -/
def Instr.wf (i : Instr) : Bool := i.flaw.isNone

end Sys2Proof
end

