-- ==== Sys2Proof/Decode.lean ====
section
/-!
DEFINITION. The decoder and, after it, the encoder, both written from the encoding tables of
spec/02_instruction_formats.md and spec/03_opcode_map.md. Decoding is total on any bytes: what is no instruction is
rejected by name (R39). The fields of a word are held as numbers, so that packing and unpacking are plain arithmetic.
-/
namespace Sys2Proof

/-- Bits [lo + w - 1 : lo] of `x`. -/
def bits (x lo w : Nat) : Nat := x / 2 ^ lo % 2 ^ w

/-- The fields of a format-M or format-L word (R29). `lu` is hint[1:0], `tmp` is hint[3:2], `imm` is imm14 or x14. -/
structure RawM where
  op : Nat := 0
  gp : Nat := 0
  gn : Nat := 0
  d : Nat := 0
  a : Nat := 0
  b : Nat := 0
  lu : Nat := 0
  tmp : Nat := 0
  fn : Nat := 0
  ty : Nat := 0
  m : Nat := 0
  z : Nat := 0
  imm : Nat := 0
  lit : Nat := 0
deriving DecidableEq, Repr

/-- The fields of the 64 low bits of an M or L word (R29); `w` holds the word, lit32 included. -/
def unpackM (w : Nat) : RawM :=
  { op := bits w 2 6, gp := bits w 8 3, gn := bits w 11 1, d := bits w 12 6, a := bits w 18 6, b := bits w 24 6,
    lu := bits w 30 2, tmp := bits w 32 2, fn := bits w 34 8, ty := bits w 42 4, m := bits w 46 3, z := bits w 49 1,
    imm := bits w 50 14, lit := bits w 64 32 }

/-- The word of the fields of R29 with the length bits `len`. -/
def packM (len : Nat) (r : RawM) : Nat :=
  len + 2 ^ 2 * r.op + 2 ^ 8 * r.gp + 2 ^ 11 * r.gn + 2 ^ 12 * r.d + 2 ^ 18 * r.a + 2 ^ 24 * r.b + 2 ^ 30 * r.lu
    + 2 ^ 32 * r.tmp + 2 ^ 34 * r.fn + 2 ^ 42 * r.ty + 2 ^ 46 * r.m + 2 ^ 49 * r.z + 2 ^ 50 * r.imm + 2 ^ 64 * r.lit

/-- Every field fits its width. -/
def rawFits (r : RawM) : Prop :=
  r.op < 64 ∧ r.gp < 8 ∧ r.gn < 2 ∧ r.d < 64 ∧ r.a < 64 ∧ r.b < 64 ∧ r.lu < 4 ∧ r.tmp < 4 ∧ r.fn < 256 ∧ r.ty < 16 ∧
    r.m < 8 ∧ r.z < 2 ∧ r.imm < 16384 ∧ r.lit < 4294967296

def fin8 (x : Nat) : R8 := Fin.ofNat 8 x
def fin4 (x : Nat) : R4 := Fin.ofNat 4 x

def RawM.hdr (r : RawM) : Hdr :=
  { gp := fin8 r.gp, gn := decide (r.gn = 1), lu := BitVec.ofNat 2 r.lu, tmp := BitVec.ofNat 2 r.tmp }
def RawM.mask (r : RawM) : Mask := { m := fin8 r.m, z := decide (r.z = 1) }

/-- A must-be-zero field (R37). -/
def zero (x : Nat) : Except Reject Unit := if x = 0 then .ok () else .error .nonzeroField
def must (ok : Bool) (e : Reject) : Except Reject Unit := if ok then .ok () else .error e

/-- A general or vector register field (R36). -/
def g (x : Nat) : Except Reject R32 := if h : x < 32 then .ok ⟨x, h⟩ else .error .outOfClass
/-- A predicate or mask field (R36, R28). -/
def r8 (x : Nat) : Except Reject R8 := if h : x < 8 then .ok ⟨x, h⟩ else .error .outOfClass
/-- A field that names an operand tile (R36). -/
def tl (x : Nat) : Except Reject R8 := if 32 ≤ x ∧ x < 40 then .ok (fin8 (x - 32)) else .error .outOfClass
/-- A field that names an accumulator (R36). -/
def ac (x : Nat) : Except Reject R4 := if 40 ≤ x ∧ x < 44 then .ok (fin4 (x - 40)) else .error .outOfClass
/-- The quad of `tmul.t2i8`: t0 or t4 (R63). -/
def quad (x : Nat) : Except Reject Bool :=
  if x = 32 then .ok false else if x = 36 then .ok true else .error .outOfClass
/-- A field that names any tile, accumulator or plane (R36). -/
def tileName (x : Nat) : Except Reject TileName :=
  if 32 ≤ x ∧ x < 40 then .ok (.t (fin8 (x - 32)))
  else if 40 ≤ x ∧ x < 44 then .ok (.a (fin4 (x - 40)))
  else if x = 44 then .ok .ws
  else if x = 45 then .ok .w
  else .error .outOfClass

def TileName.code : TileName → Nat
  | .t n => 32 + n.val
  | .a n => 40 + n.val
  | .ws => 44
  | .w => 45

/-- The ty4 table (R30). -/
def tyOf (x : Nat) : Ty :=
  match x with
  | 0 => .b8 | 1 => .b16 | 2 => .b32 | 3 => .b64 | 4 => .i8 | 5 => .i16 | 6 => .i32 | 7 => .i64
  | 8 => .n8 | 9 => .n16 | 10 => .n32 | 11 => .n64 | 12 => .f32 | 13 => .bf16 | 14 => .e4m3 | _ => .e5m2

/-- The condition codes of R52. -/
def condOf (x : Nat) : Except Reject Cond :=
  match x with
  | 0 => .ok .eq | 1 => .ok .ne | 2 => .ok .lt | 3 => .ok .le | 4 => .ok .gt | 5 => .ok .ge
  | 6 => .ok .ltu | 7 => .ok .leu | 8 => .ok .gtu | 9 => .ok .geu | 10 => .ok .un
  | _ => .error .reservedCond

/-- The scope codes of R54. -/
def scopeOf (x : Nat) : Except Reject Scope :=
  match x with
  | 0 => .ok .core | 1 => .ok .clu | 2 => .ok .die | 3 => .ok .mod | 4 => .ok .set | 5 => .ok .dom
  | _ => .error .reservedCombination
def Scope.code : Scope → Nat
  | .core => 0 | .clu => 1 | .die => 2 | .mod => 3 | .set => 4 | .dom => 5

/-- The ordering field of R61. -/
def orderOf (x : Nat) : Order :=
  match x with
  | 0 => .none | 1 => .acq | 2 => .rel | _ => .ar
def Order.code : Order → Nat
  | .none => 0 | .acq => 1 | .rel => 2 | .ar => 3

/-- The rounding modes as R59 numbers them. -/
def rmOf (x : Nat) : Rm :=
  match x with
  | 0 => .rne | 1 => .rtz | 2 => .rup | _ => .rdn
def Rm.code : Rm → Nat
  | .rne => 0 | .rtz => 1 | .rup => 2 | .rdn => 3

/-- The ordering and scope of the long `ld` and `st` (R65): ordering `k` is the one the instruction accepts, and without
an ordering the scope field is zero. -/
def ordScope (k ord scope : Nat) : Except Reject (Option Scope) :=
  if ord = 0 then (if scope = 0 then .ok none else .error .reservedCombination)
  else if ord = k then do return some (← scopeOf scope)
  else .error .reservedCombination
def ordScopeCode (k : Nat) : Option Scope → Nat
  | none => 0
  | some c => k + 4 * c.code

/-- The operations of format L op 0x08: the integer family for ty 0 to 11, the float family for ty 12 and 13 (R65). -/
def bcastOf (t : Ty) (fn : Nat) : Except Reject BcastOp :=
  if t.isFloat then
    match bits fn 0 6, bits fn 6 2 with
    | 0, rm => .ok (.fadd (rmOf rm)) | 1, rm => .ok (.fsub (rmOf rm)) | 2, rm => .ok (.fmul (rmOf rm))
    | 3, rm => .ok (.ffma (rmOf rm)) | 4, rm => .ok (.ffms (rmOf rm))
    | 5, 0 => .ok .fmin | 6, 0 => .ok .fmax | 9, rm => .ok (.fdiv (rmOf rm))
    | _, _ => .error .reservedFn
  else
    match fn with
    | 0x00 => .ok .add | 0x01 => .ok .sub | 0x02 => .ok .mul | 0x80 => .ok .addSat | 0x81 => .ok .subSat
    | 0x03 => .ok .min | 0x04 => .ok .max | 0x08 => .ok .and | 0x09 => .ok .or | 0x0A => .ok .xor | 0x0B => .ok .andn
    | 0x0C => .ok .shl | 0x0D => .ok .shr | 0x0E => .ok .sar
    | _ => .error .reservedFn
def BcastOp.code : BcastOp → Nat
  | .add => 0x00 | .sub => 0x01 | .mul => 0x02 | .addSat => 0x80 | .subSat => 0x81 | .min => 0x03 | .max => 0x04
  | .and => 0x08 | .or => 0x09 | .xor => 0x0A | .andn => 0x0B | .shl => 0x0C | .shr => 0x0D | .sar => 0x0E
  | .fadd rm => 0 + 64 * rm.code | .fsub rm => 1 + 64 * rm.code | .fmul rm => 2 + 64 * rm.code
  | .ffma rm => 3 + 64 * rm.code | .ffms rm => 4 + 64 * rm.code | .fmin => 5 | .fmax => 6 | .fdiv rm => 9 + 64 * rm.code

/-- The system-register numbers of R55. -/
def SysReg.number : SysReg → Nat
  | .sid => 0x000 | .cid => 0x001 | .kid => 0x002 | .did => 0x003 | .mid => 0x004
  | .ttag => 0x010 | .tidx => 0x011 | .gidx => 0x012 | .gsz => 0x013 | .castp => 0x014
  | .xvec => 0x020 | .xdvec => 0x021 | .xpin => 0x022 | .xpc => 0x023 | .xcause => 0x024 | .xaddr => 0x025
  | .xinfo => 0x026 | .xstat => 0x027 | .xscr => 0x028 | .xcause2 => 0x029 | .xpc2 => 0x02A | .xaddr2 => 0x02B
  | .xlvl => 0x02C | .xmask => 0x02D | .xctl => 0x02E
  | .xprq => 0x030 | .xpdl => 0x031 | .xsave => 0x032
  | .cyc => 0x040 | .time => 0x041
  | .bpeal => 0x050 | .blen => 0x051 | .bnext => 0x052
  | .ptbase => 0x060 | .asn => 0x061 | .keyl => 0x062
  | .ebind => 0x070 | .estat => 0x071
  | .dci n => 0x080 + n.val
  | .dcc n => 0x088 + n.val
  | .rollc => 0x090 | .rolli => 0x091
  | .cseq => 0x0A0

/-- The system register of a number, or a reserved number (R55). -/
def sysRegOf (x : Nat) : Except Reject SysReg :=
  match x with
  | 0x000 => .ok .sid | 0x001 => .ok .cid | 0x002 => .ok .kid | 0x003 => .ok .did | 0x004 => .ok .mid
  | 0x010 => .ok .ttag | 0x011 => .ok .tidx | 0x012 => .ok .gidx | 0x013 => .ok .gsz | 0x014 => .ok .castp
  | 0x020 => .ok .xvec | 0x021 => .ok .xdvec | 0x022 => .ok .xpin | 0x023 => .ok .xpc | 0x024 => .ok .xcause
  | 0x025 => .ok .xaddr | 0x026 => .ok .xinfo | 0x027 => .ok .xstat | 0x028 => .ok .xscr | 0x029 => .ok .xcause2
  | 0x02A => .ok .xpc2 | 0x02B => .ok .xaddr2 | 0x02C => .ok .xlvl | 0x02D => .ok .xmask | 0x02E => .ok .xctl
  | 0x030 => .ok .xprq | 0x031 => .ok .xpdl | 0x032 => .ok .xsave
  | 0x040 => .ok .cyc | 0x041 => .ok .time
  | 0x050 => .ok .bpeal | 0x051 => .ok .blen | 0x052 => .ok .bnext
  | 0x060 => .ok .ptbase | 0x061 => .ok .asn | 0x062 => .ok .keyl
  | 0x070 => .ok .ebind | 0x071 => .ok .estat
  | 0x090 => .ok .rollc | 0x091 => .ok .rolli
  | 0x0A0 => .ok .cseq
  | _ =>
    if 0x080 ≤ x ∧ x < 0x088 then .ok (.dci (fin8 (x - 0x080)))
    else if 0x088 ≤ x ∧ x < 0x090 then .ok (.dcc (fin8 (x - 0x088)))
    else .error .reservedFn

/-! ## Format S -/

/-- The register-register fields of a format-S word (R27): fn, d, a, b. -/
structure RawR where
  fn : Nat
  d : Nat
  a : Nat
  b : Nat
deriving DecidableEq, Repr

def unpackR (w : Nat) : RawR := { d := bits w 7 5, a := bits w 12 5, b := bits w 17 5, fn := bits w 22 10 }

/-- Op 0x01: the integer ALU (R51). -/
def decS01 (r : RawR) : Except Reject Instr :=
  match r.fn with
  | 0x000 => do return .add (← g r.d) (← g r.a) (← g r.b)
  | 0x001 => do return .sub (← g r.d) (← g r.a) (← g r.b)
  | 0x002 => do return .and (← g r.d) (← g r.a) (← g r.b)
  | 0x003 => do return .or (← g r.d) (← g r.a) (← g r.b)
  | 0x004 => do return .xor (← g r.d) (← g r.a) (← g r.b)
  | 0x005 => do return .andn (← g r.d) (← g r.a) (← g r.b)
  | 0x006 => do return .orn (← g r.d) (← g r.a) (← g r.b)
  | 0x007 => do return .shl (← g r.d) (← g r.a) (← g r.b)
  | 0x008 => do return .shr (← g r.d) (← g r.a) (← g r.b)
  | 0x009 => do return .sar (← g r.d) (← g r.a) (← g r.b)
  | 0x00A => do return .rot (← g r.d) (← g r.a) (← g r.b)
  | 0x00B => do return .minI64 (← g r.d) (← g r.a) (← g r.b)
  | 0x00C => do return .maxI64 (← g r.d) (← g r.a) (← g r.b)
  | 0x00D => do return .minN64 (← g r.d) (← g r.a) (← g r.b)
  | 0x00E => do return .maxN64 (← g r.d) (← g r.a) (← g r.b)
  | 0x00F => do zero r.b; return .mov (← g r.d) (← g r.a)
  | _ => .error .reservedFn

/-- Op 0x02: multiply and divide (R51). -/
def decS02 (r : RawR) : Except Reject Instr :=
  match r.fn with
  | 0x000 => do return .mul (← g r.d) (← g r.a) (← g r.b)
  | 0x001 => do return .mulhI64 (← g r.d) (← g r.a) (← g r.b)
  | 0x002 => do return .mulhN64 (← g r.d) (← g r.a) (← g r.b)
  | 0x003 => do return .divI64 (← g r.d) (← g r.a) (← g r.b)
  | 0x004 => do return .divN64 (← g r.d) (← g r.a) (← g r.b)
  | 0x005 => do return .remI64 (← g r.d) (← g r.a) (← g r.b)
  | 0x006 => do return .remN64 (← g r.d) (← g r.a) (← g r.b)
  | _ => .error .reservedFn

/-- Op 0x03: bit operations (R51). -/
def decS03 (r : RawR) : Except Reject Instr := do
  zero r.b
  match r.fn with
  | 0x000 => return .clz (← g r.d) (← g r.a)
  | 0x001 => return .ctz (← g r.d) (← g r.a)
  | 0x002 => return .popc (← g r.d) (← g r.a)
  | 0x003 => return .bswap (← g r.d) (← g r.a)
  | 0x004 => return .extI8 (← g r.d) (← g r.a)
  | 0x005 => return .extI16 (← g r.d) (← g r.a)
  | 0x006 => return .extI32 (← g r.d) (← g r.a)
  | 0x007 => return .extN8 (← g r.d) (← g r.a)
  | 0x008 => return .extN16 (← g r.d) (← g r.a)
  | 0x009 => return .extN32 (← g r.d) (← g r.a)
  | _ => .error .reservedFn

/-- Op 0x05: predicate operations and `sel` (R53). -/
def decS05 (r : RawR) : Except Reject Instr :=
  match r.fn with
  | 0x000 => do return .pand (← r8 r.d) (← r8 r.a) (← r8 r.b)
  | 0x001 => do return .por (← r8 r.d) (← r8 r.a) (← r8 r.b)
  | 0x002 => do return .pxor (← r8 r.d) (← r8 r.a) (← r8 r.b)
  | 0x003 => do zero r.b; return .pnot (← r8 r.d) (← r8 r.a)
  | 0x004 => do zero r.b; return .pmov (← r8 r.d) (← r8 r.a)
  | x => if 8 ≤ x ∧ x < 16 then do return .sel (fin8 (x - 8)) (← g r.d) (← g r.a) (← g r.b) else .error .reservedFn

/-- Op 0x1B: jumps through a register (R53). -/
def decS1B (r : RawR) : Except Reject Instr :=
  match r.fn with
  | 0 => do zero r.d; zero r.b; return .jmpr (← g r.a)
  | 1 => do zero r.d; zero r.b; return .callr (← g r.a)
  | 2 => do zero r.d; zero r.a; zero r.b; return .ret
  | _ => .error .reservedFn

/-- Op 0x23 (R53). -/
def decS23 (r : RawR) : Except Reject Instr :=
  match r.fn with
  | 1 => do zero r.d; zero r.b; return .trap (BitVec.ofNat 5 r.a)
  | 0 => do zero r.d; zero r.a; zero r.b; return .nop
  | 2 => do zero r.d; zero r.a; zero r.b; return .tret
  | 3 => do zero r.d; zero r.a; zero r.b; return .tack
  | 4 => do zero r.d; zero r.a; zero r.b; return .halt
  | 5 => do zero r.d; zero r.a; zero r.b; return .yield
  | _ => .error .reservedFn

/-- Op 0x24: fence, cfl and tlbi (R53, R54). -/
def decS24 (r : RawR) : Except Reject Instr :=
  match r.fn with
  | 0x100 => do zero r.d; zero r.b; return .cflWt (← g r.a)
  | 0x101 => do zero r.d; zero r.b; return .cflInv (← g r.a)
  | 0x102 => do zero r.d; zero r.b; return .cflWi (← g r.a)
  | 0x200 => do zero r.d; zero r.b; return .tlbiPage (← g r.a)
  | 0x201 => do zero r.d; zero r.b; return .tlbiAsn (← g r.a)
  | 0x202 => do zero r.d; zero r.a; zero r.b; return .tlbiAll
  | x => do
    zero r.d; zero r.a; zero r.b
    let c ← scopeOf (bits x 0 3)
    match bits x 3 7 with
    | 1 => return .fenceAcq c
    | 2 => return .fenceRel c
    | 3 => return .fenceAr c
    | _ => .error .reservedFn

/-- Op 0x25: wait (R53). -/
def decS25 (r : RawR) : Except Reject Instr :=
  match r.fn with
  | 0 => do return .waitNe (← g r.d) (← g r.a) (← g r.b)
  | 1 => do return .waitEq (← g r.d) (← g r.a) (← g r.b)
  | 2 => do return .waitGe (← g r.d) (← g r.a) (← g r.b)
  | _ => .error .reservedFn

/-- Format S by its major opcode (R27, R50 to R57). -/
def decS (w : Nat) : Except Reject Instr :=
  let r := unpackR w
  let i := bits w 17 15
  let o := BitVec.ofNat 11 (bits w 21 11)
  match bits w 1 6 with
  | 0x01 => decS01 r
  | 0x02 => decS02 r
  | 0x03 => decS03 r
  | 0x04 => do return .cmp (← condOf r.fn) (← r8 r.d) (← g r.a) (← g r.b)
  | 0x05 => decS05 r
  | 0x06 => do must (decide (r.fn < 4)) .reservedFn; return .lea (fin4 r.fn) (← g r.d) (← g r.a) (← g r.b)
  | 0x08 => do return .addImmediate (BitVec.ofNat 15 i) (← g r.d) (← g r.a)
  | 0x09 => do return .andImmediate (BitVec.ofNat 15 i) (← g r.d) (← g r.a)
  | 0x0A => do return .orImmediate (BitVec.ofNat 15 i) (← g r.d) (← g r.a)
  | 0x0B => do return .xorImmediate (BitVec.ofNat 15 i) (← g r.d) (← g r.a)
  | 0x0C => do
    zero (bits i 8 7)
    match bits i 6 2 with
    | 0 => return .shlImmediate (BitVec.ofNat 6 i) (← g r.d) (← g r.a)
    | 1 => return .shrImmediate (BitVec.ofNat 6 i) (← g r.d) (← g r.a)
    | 2 => return .sarImmediate (BitVec.ofNat 6 i) (← g r.d) (← g r.a)
    | _ => return .rotImmediate (BitVec.ofNat 6 i) (← g r.d) (← g r.a)
  | 0x0D => do return .mulImmediate (BitVec.ofNat 15 i) (← g r.d) (← g r.a)
  | 0x0E => do return .cmpi (← condOf (bits i 11 4)) (BitVec.ofNat 11 i) (← r8 r.d) (← g r.a)
  | 0x0F => do zero r.a; return .movi (BitVec.ofNat 15 i) (← g r.d)
  | 0x10 => do return .ld (tyOf (bits w 17 4)) o (← g r.d) (← g r.a)
  | 0x11 => do return .st (tyOf (bits w 17 4)) o (← g r.d) (← g r.a)
  | 0x12 => do
    zero r.d
    match bits w 17 4 with
    | 0 => return .pfL1 o (← g r.a)
    | 1 => return .pfCc o (← g r.a)
    | 2 => return .pfL2 o (← g r.a)
    | _ => .error .reservedType
  | 0x18 => .ok (.br (BitVec.ofNat 21 (bits w 11 21)) (decide (bits w 10 1 = 1)) (fin8 (bits w 7 3)))
  | 0x19 => .ok (.jmp (BitVec.ofNat 25 (bits w 7 25)))
  | 0x1A => .ok (.call (BitVec.ofNat 25 (bits w 7 25)))
  | 0x1B => decS1B r
  | 0x20 => do zero r.a; zero r.b; return .srGet (← sysRegOf r.fn) (← g r.d)
  | 0x21 => do zero r.d; zero r.b; return .srSet (← sysRegOf r.fn) (← g r.a)
  | 0x22 => do zero r.b; return .srSwap (← sysRegOf r.fn) (← g r.d) (← g r.a)
  | 0x23 => decS23 r
  | 0x24 => decS24 r
  | 0x25 => decS25 r
  | _ => .error .reservedOp

/-! ## Formats M and L -/

/-- The instructions that act beyond the core: the copy engine, remote, collective, execution and system families (M
ops 0x1C to 0x2C, L ops 0x1C to 0x24). Lean's compiled code can hold at most 245 constructors with fields in one type,
and `Instr` has more; the decoder therefore builds these as a type of their own, `Far.instr` names the instruction each
is, and nothing else depends on the difference. -/
inductive Far where
  | dcp (h : Hdr) (d : R32) (a : R32) (ch : R8)
  | dcpLiteral (h : Hdr) (d : R32) (a : R32) (ch : R8) (lit : BitVec 32)
  | dcpw (h : Hdr) (a : R32) (ch : R8)
  | dcps (h : Hdr) (d : R32) (ch : R8)
  | dcpx (h : Hdr) (ch : R8)
  | rput (h : Hdr) (d : R32) (a : R32) (b : R32) (f : BitVec 14)
  | rputLong (h : Hdr) (d : R32) (a : R32) (b : R32) (lit : BitVec 32)
  | rget (h : Hdr) (d : R32) (a : R32) (b : R32)
  | ratomAdd (h : Hdr) (ty : Ty) (d : R32) (a : R32) (b : R32)
  | ratomAnd (h : Hdr) (ty : Ty) (d : R32) (a : R32) (b : R32)
  | ratomOr (h : Hdr) (ty : Ty) (d : R32) (a : R32) (b : R32)
  | ratomXor (h : Hdr) (ty : Ty) (d : R32) (a : R32) (b : R32)
  | ratomMin (h : Hdr) (ty : Ty) (d : R32) (a : R32) (b : R32)
  | ratomMax (h : Hdr) (ty : Ty) (d : R32) (a : R32) (b : R32)
  | ratomSwap (h : Hdr) (ty : Ty) (d : R32) (a : R32) (b : R32)
  | ratomFadd (h : Hdr) (ty : Ty) (d : R32) (a : R32) (b : R32)
  | rcas (h : Hdr) (ty : Ty) (d : R32) (a : R32) (b : R32)
  | wcntArr (h : Hdr) (d : R32) (a : R32)
  | wcntIss (h : Hdr) (d : R32) (a : R32)
  | wcntDone (h : Hdr) (d : R32) (a : R32)
  | rfence (h : Hdr) (a : R32)
  | rpart (h : Hdr) (d : R32) (a : R32) (lit : BitVec 32)
  | rpstat (h : Hdr) (d : R32) (a : R32)
  | cbar (h : Hdr) (a : R32)
  | credAdd (h : Hdr) (ty : Ty) (d : R32) (a : R32) (b : R32)
  | credMin (h : Hdr) (ty : Ty) (d : R32) (a : R32) (b : R32)
  | credMax (h : Hdr) (ty : Ty) (d : R32) (a : R32) (b : R32)
  | cast (h : Hdr) (d : R32) (a : R32)
  | exit (h : Hdr) (a : R32)
  | gong (h : Hdr)
  | post (h : Hdr) (d : R32) (a : R32) (b : R32)
  | take (h : Hdr) (d : R32)
  | prio (h : Hdr) (a : R32) (b : R32)
  | cinv (h : Hdr) (d : R32) (a : R32) (b : R32)
  | cinvRe (h : Hdr) (d : R32) (a : R32) (b : R32)
  | stest (h : Hdr) (d : R32) (a : R32)
  | thint (h : Hdr) (d : R32) (a : R32) (b : R32) (pr : R8)
  | step (h : Hdr) (d : R32) (a : R32)
  | subup (h : Hdr) (a : R32)
  | bellqPeal (h : Hdr) (d : R32)
  | bellqLen (h : Hdr) (d : R32)
  | bellqNext (h : Hdr) (d : R32)
  | bellw (h : Hdr)
deriving DecidableEq, Repr

/-- The instruction. -/
noncomputable def Far.instr : Far → Instr
  | .dcp h d a ch => .dcp h d a ch
  | .dcpLiteral h d a ch lit => .dcpLiteral h d a ch lit
  | .dcpw h a ch => .dcpw h a ch
  | .dcps h d ch => .dcps h d ch
  | .dcpx h ch => .dcpx h ch
  | .rput h d a b f => .rput h d a b f
  | .rputLong h d a b lit => .rputLong h d a b lit
  | .rget h d a b => .rget h d a b
  | .ratomAdd h ty d a b => .ratomAdd h ty d a b
  | .ratomAnd h ty d a b => .ratomAnd h ty d a b
  | .ratomOr h ty d a b => .ratomOr h ty d a b
  | .ratomXor h ty d a b => .ratomXor h ty d a b
  | .ratomMin h ty d a b => .ratomMin h ty d a b
  | .ratomMax h ty d a b => .ratomMax h ty d a b
  | .ratomSwap h ty d a b => .ratomSwap h ty d a b
  | .ratomFadd h ty d a b => .ratomFadd h ty d a b
  | .rcas h ty d a b => .rcas h ty d a b
  | .wcntArr h d a => .wcntArr h d a
  | .wcntIss h d a => .wcntIss h d a
  | .wcntDone h d a => .wcntDone h d a
  | .rfence h a => .rfence h a
  | .rpart h d a lit => .rpart h d a lit
  | .rpstat h d a => .rpstat h d a
  | .cbar h a => .cbar h a
  | .credAdd h ty d a b => .credAdd h ty d a b
  | .credMin h ty d a b => .credMin h ty d a b
  | .credMax h ty d a b => .credMax h ty d a b
  | .cast h d a => .cast h d a
  | .exit h a => .exit h a
  | .gong h => .gong h
  | .post h d a b => .post h d a b
  | .take h d => .take h d
  | .prio h a b => .prio h a b
  | .cinv h d a b => .cinv h d a b
  | .cinvRe h d a b => .cinvRe h d a b
  | .stest h d a => .stest h d a
  | .thint h d a b pr => .thint h d a b pr
  | .step h d a => .step h d a
  | .subup h a => .subup h a
  | .bellqPeal h d => .bellqPeal h d
  | .bellqLen h d => .bellqLen h d
  | .bellqNext h d => .bellqNext h d
  | .bellw h => .bellw h

open Check in
/-- The first check a far instruction fails: the same checks as `Instr.flaw`. -/
def Far.flaw : Far → Option Reject
  | .dcp h _ _ _ => first [guard h]
  | .dcpLiteral h _ _ _ _ => first [guard h]
  | .dcpw h _ _ => first [guard h]
  | .dcps h _ _ => first [guard h]
  | .dcpx h _ => first [guard h]
  | .rput h _ _ _ f => first [guard h, comb (decide (f.toNat ≤ 0x2000))]
  | .rputLong h _ _ _ _ => first [guard h]
  | .rget h _ _ _ => first [guard h]
  | .ratomAdd h t _ _ _ => first [guard h, ty (amoArith t)]
  | .ratomAnd h t _ _ _ => first [guard h, ty (amoBits t)]
  | .ratomOr h t _ _ _ => first [guard h, ty (amoBits t)]
  | .ratomXor h t _ _ _ => first [guard h, ty (amoBits t)]
  | .ratomMin h t _ _ _ => first [guard h, ty (amoArith t)]
  | .ratomMax h t _ _ _ => first [guard h, ty (amoArith t)]
  | .ratomSwap h t _ _ _ => first [guard h, ty (amoBits t)]
  | .ratomFadd h t _ _ _ => first [guard h, ty (t == .f32)]
  | .rcas h t _ _ _ => first [guard h, ty (amoBits t)]
  | .wcntArr h _ _ => first [guard h]
  | .wcntIss h _ _ => first [guard h]
  | .wcntDone h _ _ => first [guard h]
  | .rfence h _ => first [guard h]
  | .rpart h _ _ _ => first [guard h]
  | .rpstat h _ _ => first [guard h]
  | .cbar h _ => first [guard h]
  | .credAdd h t _ _ _ => first [guard h, ty (t == .i32 || t == .i64 || t == .f32)]
  | .credMin h t _ _ _ => first [guard h, ty (t == .i32 || t == .i64 || t == .f32)]
  | .credMax h t _ _ _ => first [guard h, ty (t == .i32 || t == .i64 || t == .f32)]
  | .cast h _ _ => first [guard h]
  | .exit h _ => first [guard h]
  | .gong h => first [guard h]
  | .post h _ _ _ => first [guard h]
  | .take h _ => first [guard h]
  | .prio h _ _ => first [guard h]
  | .cinv h _ _ _ => first [guard h]
  | .cinvRe h _ _ _ => first [guard h]
  | .stest h _ _ => first [guard h]
  | .thint h _ _ _ _ => first [guard h]
  | .step h _ _ => first [guard h]
  | .subup h _ => first [guard h]
  | .bellqPeal h _ => first [guard h]
  | .bellqLen h _ => first [guard h]
  | .bellqNext h _ => first [guard h]
  | .bellw h => first [guard h]

/-- Format M, major opcode 0x01. -/
def decM01 (r : RawM) : Except Reject Instr :=
  match r.fn with
  | 0x00 => do zero r.imm; return .vadd r.hdr r.mask (tyOf r.ty) (← g r.d) (← g r.a) (← g r.b)
  | 0x01 => do zero r.imm; return .vsub r.hdr r.mask (tyOf r.ty) (← g r.d) (← g r.a) (← g r.b)
  | 0x02 => do zero r.imm; return .vmul r.hdr r.mask (tyOf r.ty) (← g r.d) (← g r.a) (← g r.b)
  | 0x03 => do zero r.imm; return .vmin r.hdr r.mask (tyOf r.ty) (← g r.d) (← g r.a) (← g r.b)
  | 0x04 => do zero r.imm; return .vmax r.hdr r.mask (tyOf r.ty) (← g r.d) (← g r.a) (← g r.b)
  | 0x80 => do zero r.imm; return .vaddSat r.hdr r.mask (tyOf r.ty) (← g r.d) (← g r.a) (← g r.b)
  | 0x81 => do zero r.imm; return .vsubSat r.hdr r.mask (tyOf r.ty) (← g r.d) (← g r.a) (← g r.b)
  | 0x05 => do zero r.b; zero r.imm; return .vabs r.hdr r.mask (tyOf r.ty) (← g r.d) (← g r.a)
  | 0x06 => do zero r.b; zero r.imm; return .vneg r.hdr r.mask (tyOf r.ty) (← g r.d) (← g r.a)
  | 0x08 => do zero r.imm; return .vand r.hdr r.mask (tyOf r.ty) (← g r.d) (← g r.a) (← g r.b)
  | 0x09 => do zero r.imm; return .vor r.hdr r.mask (tyOf r.ty) (← g r.d) (← g r.a) (← g r.b)
  | 0x0A => do zero r.imm; return .vxor r.hdr r.mask (tyOf r.ty) (← g r.d) (← g r.a) (← g r.b)
  | 0x0B => do zero r.imm; return .vandn r.hdr r.mask (tyOf r.ty) (← g r.d) (← g r.a) (← g r.b)
  | 0x0C => do zero r.imm; return .vshl r.hdr r.mask (tyOf r.ty) (← g r.d) (← g r.a) (← g r.b)
  | 0x0D => do zero r.imm; return .vshr r.hdr r.mask (tyOf r.ty) (← g r.d) (← g r.a) (← g r.b)
  | 0x0E => do zero r.imm; return .vsar r.hdr r.mask (tyOf r.ty) (← g r.d) (← g r.a) (← g r.b)
  | 0x4C => do zero r.b; zero (bits r.imm 6 8); return .vshlImmediate r.hdr r.mask (tyOf r.ty) (← g r.d) (← g r.a) (BitVec.ofNat 6 r.imm)
  | 0x4D => do zero r.b; zero (bits r.imm 6 8); return .vshrImmediate r.hdr r.mask (tyOf r.ty) (← g r.d) (← g r.a) (BitVec.ofNat 6 r.imm)
  | 0x4E => do zero r.b; zero (bits r.imm 6 8); return .vsarImmediate r.hdr r.mask (tyOf r.ty) (← g r.d) (← g r.a) (BitVec.ofNat 6 r.imm)
  | 0x10 => do zero r.b; zero r.imm; return .vmov r.hdr r.mask (tyOf r.ty) (← g r.d) (← g r.a)
  | _ => .error .reservedFn

/-- Format M, major opcode 0x02. -/
def decM02 (r : RawM) : Except Reject Instr :=
  match bits r.fn 0 6 with
  | 0x00 => do zero r.imm; return .vaddFloat r.hdr r.mask (tyOf r.ty) (rmOf (bits r.fn 6 2)) (← g r.d) (← g r.a) (← g r.b)
  | 0x01 => do zero r.imm; return .vsubFloat r.hdr r.mask (tyOf r.ty) (rmOf (bits r.fn 6 2)) (← g r.d) (← g r.a) (← g r.b)
  | 0x02 => do zero r.imm; return .vmulFloat r.hdr r.mask (tyOf r.ty) (rmOf (bits r.fn 6 2)) (← g r.d) (← g r.a) (← g r.b)
  | 0x03 => do zero r.imm; return .vfma r.hdr r.mask (tyOf r.ty) (rmOf (bits r.fn 6 2)) (← g r.d) (← g r.a) (← g r.b)
  | 0x04 => do zero r.imm; return .vfms r.hdr r.mask (tyOf r.ty) (rmOf (bits r.fn 6 2)) (← g r.d) (← g r.a) (← g r.b)
  | 0x05 => do zero r.imm; must (decide (bits r.fn 6 2 = 0)) .reservedFn; return .vminFloat r.hdr r.mask (tyOf r.ty) (← g r.d) (← g r.a) (← g r.b)
  | 0x06 => do zero r.imm; must (decide (bits r.fn 6 2 = 0)) .reservedFn; return .vmaxFloat r.hdr r.mask (tyOf r.ty) (← g r.d) (← g r.a) (← g r.b)
  | 0x07 => do zero r.b; zero r.imm; must (decide (bits r.fn 6 2 = 0)) .reservedFn; return .vabsFloat r.hdr r.mask (tyOf r.ty) (← g r.d) (← g r.a)
  | 0x08 => do zero r.b; zero r.imm; must (decide (bits r.fn 6 2 = 0)) .reservedFn; return .vnegFloat r.hdr r.mask (tyOf r.ty) (← g r.d) (← g r.a)
  | 0x09 => do zero r.imm; return .vdiv r.hdr r.mask (tyOf r.ty) (rmOf (bits r.fn 6 2)) (← g r.d) (← g r.a) (← g r.b)
  | 0x0A => do zero r.b; zero r.imm; return .vsqrt r.hdr r.mask (tyOf r.ty) (rmOf (bits r.fn 6 2)) (← g r.d) (← g r.a)
  | _ => .error .reservedFn

/-- Format M, major opcode 0x03. -/
def decM03 (r : RawM) : Except Reject Instr :=
  match r.fn with
  | 0x10 => do zero r.z; zero r.imm; return .vsel r.hdr (fin8 r.m) (tyOf r.ty) (← g r.d) (← g r.a) (← g r.b)
  | 0x20 => do zero r.m; zero r.z; zero r.ty; zero r.imm; return .mand r.hdr (← r8 r.d) (← r8 r.a) (← r8 r.b)
  | 0x21 => do zero r.m; zero r.z; zero r.ty; zero r.imm; return .mor r.hdr (← r8 r.d) (← r8 r.a) (← r8 r.b)
  | 0x22 => do zero r.m; zero r.z; zero r.ty; zero r.imm; return .mxor r.hdr (← r8 r.d) (← r8 r.a) (← r8 r.b)
  | 0x23 => do zero r.b; zero r.m; zero r.z; zero r.ty; zero r.imm; return .mnot r.hdr (← r8 r.d) (← r8 r.a)
  | 0x24 => do zero r.b; zero r.m; zero r.z; zero r.ty; zero r.imm; return .mcnt r.hdr (← g r.d) (← r8 r.a)
  | 0x25 => do zero r.b; zero r.m; zero r.z; zero r.ty; zero r.imm; return .mfirst r.hdr (← g r.d) (← r8 r.a)
  | _ => do zero r.z; zero r.imm; return .vcmp r.hdr (fin8 r.m) (← condOf r.fn) (tyOf r.ty) (← r8 r.d) (← g r.a) (← g r.b)

/-- Format M, major opcode 0x04. -/
def decM04 (r : RawM) : Except Reject Instr :=
  match bits r.fn 0 5 with
  | 0x00 => do zero r.b; zero (bits r.imm 4 10); return .vcvt r.hdr r.mask (tyOf r.ty) (tyOf (bits r.imm 0 4)) (rmOf (bits r.fn 6 2)) (decide (bits r.fn 5 1 = 1)) (← g r.d) (← g r.a)
  | 0x01 => do zero r.b; must (decide (r.ty = 13)) .reservedType; must (decide (r.imm = 12)) .reservedCombination; must (decide (r.fn = 1)) .reservedFn; return .vsplit3 r.hdr r.mask (← g r.d) (← g r.a)
  | _ => .error .reservedFn

/-- Format M, major opcode 0x05. -/
def decM05 (r : RawM) : Except Reject Instr :=
  match r.fn with
  | 0x00 => do zero r.imm; return .vperm r.hdr r.mask (tyOf r.ty) (← g r.d) (← g r.a) (← g r.b)
  | 0x01 => do zero (bits r.imm 1 13); return .vzip r.hdr r.mask (tyOf r.ty) (← g r.d) (← g r.a) (← g r.b) (decide (bits r.imm 0 1 = 1))
  | 0x02 => do zero (bits r.imm 1 13); return .vuzp r.hdr r.mask (tyOf r.ty) (← g r.d) (← g r.a) (← g r.b) (decide (bits r.imm 0 1 = 1))
  | 0x03 => do zero r.b; zero r.imm; return .vbcast r.hdr r.mask (tyOf r.ty) (← g r.d) (← g r.a)
  | 0x04 => do zero r.m; zero r.z; zero r.imm; return .vext r.hdr (tyOf r.ty) (← g r.d) (← g r.a) (← g r.b)
  | 0x05 => do zero r.m; zero r.z; zero r.imm; return .vins r.hdr (tyOf r.ty) (← g r.d) (← g r.a) (← g r.b)
  | _ => .error .reservedFn

/-- Format M, major opcode 0x06. -/
def decM06 (r : RawM) : Except Reject Instr :=
  match r.fn with
  | 0x00 => do zero r.b; zero r.z; zero r.imm; return .vredAdd r.hdr (fin8 r.m) (tyOf r.ty) (← g r.d) (← g r.a)
  | 0x01 => do zero r.b; zero r.z; zero r.imm; return .vredMin r.hdr (fin8 r.m) (tyOf r.ty) (← g r.d) (← g r.a)
  | 0x02 => do zero r.b; zero r.z; zero r.imm; return .vredMax r.hdr (fin8 r.m) (tyOf r.ty) (← g r.d) (← g r.a)
  | 0x03 => do zero r.b; zero r.z; zero r.imm; return .vredAnd r.hdr (fin8 r.m) (tyOf r.ty) (← g r.d) (← g r.a)
  | 0x04 => do zero r.b; zero r.z; zero r.imm; return .vredOr r.hdr (fin8 r.m) (tyOf r.ty) (← g r.d) (← g r.a)
  | 0x05 => do zero r.b; zero r.z; zero r.imm; return .vredXor r.hdr (fin8 r.m) (tyOf r.ty) (← g r.d) (← g r.a)
  | 0x10 => do zero r.b; zero r.imm; return .vscanAdd r.hdr r.mask (tyOf r.ty) (← g r.d) (← g r.a)
  | 0x11 => do zero r.b; zero r.imm; return .vscanMin r.hdr r.mask (tyOf r.ty) (← g r.d) (← g r.a)
  | 0x12 => do zero r.b; zero r.imm; return .vscanMax r.hdr r.mask (tyOf r.ty) (← g r.d) (← g r.a)
  | 0x13 => do zero r.b; zero r.imm; return .vscanAnd r.hdr r.mask (tyOf r.ty) (← g r.d) (← g r.a)
  | 0x14 => do zero r.b; zero r.imm; return .vscanOr r.hdr r.mask (tyOf r.ty) (← g r.d) (← g r.a)
  | 0x15 => do zero r.b; zero r.imm; return .vscanXor r.hdr r.mask (tyOf r.ty) (← g r.d) (← g r.a)
  | _ => .error .reservedFn

/-- Format M, major opcode 0x07. -/
def decM07 (r : RawM) : Except Reject Instr :=
  match r.fn with
  | 0x00 => do zero r.b; zero r.imm; return .vexp2 r.hdr r.mask (tyOf r.ty) (← g r.d) (← g r.a)
  | 0x01 => do zero r.b; zero r.imm; return .vlog2 r.hdr r.mask (tyOf r.ty) (← g r.d) (← g r.a)
  | 0x02 => do zero r.b; zero r.imm; return .vrcp r.hdr r.mask (tyOf r.ty) (← g r.d) (← g r.a)
  | 0x03 => do zero r.b; zero r.imm; return .vrsqrt r.hdr r.mask (tyOf r.ty) (← g r.d) (← g r.a)
  | 0x04 => do zero r.b; zero r.imm; return .vsinpi r.hdr r.mask (tyOf r.ty) (← g r.d) (← g r.a)
  | 0x05 => do zero r.b; zero r.imm; return .vcospi r.hdr r.mask (tyOf r.ty) (← g r.d) (← g r.a)
  | 0x06 => do zero r.b; zero r.imm; return .vtanh r.hdr r.mask (tyOf r.ty) (← g r.d) (← g r.a)
  | _ => .error .reservedFn

/-- Format M, major opcode 0x08. -/
def decM08 (r : RawM) : Except Reject Instr :=
  match r.fn with
  | 0x00 => do zero r.imm; return .vdot r.hdr r.mask (tyOf r.ty) (← g r.d) (← g r.a) (← g r.b)
  | 0x01 =>
    match bits r.imm 0 1 with
    | 0 => do zero r.b; zero (bits r.imm 6 8); return .vkeyMort r.hdr r.mask (tyOf r.ty) (← g r.d) (← g r.a) (BitVec.ofNat 5 (bits r.imm 1 5))
    | 1 => do zero r.b; zero (bits r.imm 6 8); return .vkeyHilb r.hdr r.mask (tyOf r.ty) (← g r.d) (← g r.a) (BitVec.ofNat 5 (bits r.imm 1 5))
    | _ => .error .reservedCombination
  | 0x02 => do zero r.b; zero r.imm; return .vclass r.hdr r.mask (tyOf r.ty) (← g r.d) (← g r.a)
  | 0x03 => do zero r.a; zero r.b; zero r.imm; return .viota r.hdr r.mask (tyOf r.ty) (← g r.d)
  | _ => .error .reservedFn

/-- Format M, major opcode 0x0C. -/
def decM0C (r : RawM) : Except Reject Instr :=
  match r.fn with
  | 0x00 => do zero r.b; return .vld r.hdr r.mask (tyOf r.ty) (← g r.d) (← g r.a) (BitVec.ofNat 14 r.imm)
  | 0x01 => do return .vlds r.hdr r.mask (tyOf r.ty) (← g r.d) (← g r.a) (← g r.b) (BitVec.ofNat 14 r.imm)
  | 0x02 => do zero (bits r.imm 2 12); return .vgat r.hdr r.mask (tyOf r.ty) (← g r.d) (← g r.a) (← g r.b) (fin4 (bits r.imm 0 2))
  | 0x03 => do zero r.b; return .vldb r.hdr r.mask (tyOf r.ty) (← g r.d) (← g r.a) (BitVec.ofNat 14 r.imm)
  | _ => .error .reservedFn

/-- Format M, major opcode 0x0D. -/
def decM0D (r : RawM) : Except Reject Instr :=
  match r.fn with
  | 0x00 => do zero r.b; zero r.z; return .vst r.hdr (fin8 r.m) (tyOf r.ty) (← g r.d) (← g r.a) (BitVec.ofNat 14 r.imm)
  | 0x01 => do zero r.z; return .vsts r.hdr (fin8 r.m) (tyOf r.ty) (← g r.d) (← g r.a) (← g r.b) (BitVec.ofNat 14 r.imm)
  | 0x02 => do zero r.z; zero (bits r.imm 2 12); return .vsct r.hdr (fin8 r.m) (tyOf r.ty) (← g r.d) (← g r.a) (← g r.b) (fin4 (bits r.imm 0 2))
  | _ => .error .reservedFn

/-- Format M, major opcode 0x10. -/
def decM10 (r : RawM) : Except Reject Instr :=
  match r.fn with
  | 0x00 => do zero r.m; zero r.z; zero (bits r.imm 5 9); return .amoAdd r.hdr (tyOf r.ty) (orderOf (bits r.imm 0 2)) (← scopeOf (bits r.imm 2 3)) (← g r.d) (← g r.a) (← g r.b)
  | 0x01 => do zero r.m; zero r.z; zero (bits r.imm 5 9); return .amoAnd r.hdr (tyOf r.ty) (orderOf (bits r.imm 0 2)) (← scopeOf (bits r.imm 2 3)) (← g r.d) (← g r.a) (← g r.b)
  | 0x02 => do zero r.m; zero r.z; zero (bits r.imm 5 9); return .amoOr r.hdr (tyOf r.ty) (orderOf (bits r.imm 0 2)) (← scopeOf (bits r.imm 2 3)) (← g r.d) (← g r.a) (← g r.b)
  | 0x03 => do zero r.m; zero r.z; zero (bits r.imm 5 9); return .amoXor r.hdr (tyOf r.ty) (orderOf (bits r.imm 0 2)) (← scopeOf (bits r.imm 2 3)) (← g r.d) (← g r.a) (← g r.b)
  | 0x04 => do zero r.m; zero r.z; zero (bits r.imm 5 9); return .amoMin r.hdr (tyOf r.ty) (orderOf (bits r.imm 0 2)) (← scopeOf (bits r.imm 2 3)) (← g r.d) (← g r.a) (← g r.b)
  | 0x05 => do zero r.m; zero r.z; zero (bits r.imm 5 9); return .amoMax r.hdr (tyOf r.ty) (orderOf (bits r.imm 0 2)) (← scopeOf (bits r.imm 2 3)) (← g r.d) (← g r.a) (← g r.b)
  | 0x06 => do zero r.m; zero r.z; zero (bits r.imm 5 9); return .amoSwap r.hdr (tyOf r.ty) (orderOf (bits r.imm 0 2)) (← scopeOf (bits r.imm 2 3)) (← g r.d) (← g r.a) (← g r.b)
  | 0x07 => do zero r.m; zero r.z; zero (bits r.imm 5 9); return .amoFadd r.hdr (tyOf r.ty) (orderOf (bits r.imm 0 2)) (← scopeOf (bits r.imm 2 3)) (← g r.d) (← g r.a) (← g r.b)
  | _ => .error .reservedFn

/-- Format M, major opcode 0x11. -/
def decM11 (r : RawM) : Except Reject Instr :=
  match r.fn with
  | 0x00 => do zero r.m; zero r.z; zero (bits r.imm 5 9); return .cas r.hdr (tyOf r.ty) (orderOf (bits r.imm 0 2)) (← scopeOf (bits r.imm 2 3)) (← g r.d) (← g r.a) (← g r.b)
  | _ => .error .reservedFn

/-- Format M, major opcode 0x12. -/
def decM12 (r : RawM) : Except Reject Instr :=
  match r.fn with
  | 0x00 => do zero r.b; zero r.m; zero r.z; zero r.ty; zero (bits r.imm 12 2); return .bfxI64 r.hdr (← g r.d) (← g r.a) (BitVec.ofNat 6 r.imm) (BitVec.ofNat 6 (bits r.imm 6 6))
  | 0x01 => do zero r.b; zero r.m; zero r.z; zero r.ty; zero (bits r.imm 12 2); return .bfxN64 r.hdr (← g r.d) (← g r.a) (BitVec.ofNat 6 r.imm) (BitVec.ofNat 6 (bits r.imm 6 6))
  | 0x02 => do zero r.b; zero r.m; zero r.z; zero r.ty; zero (bits r.imm 12 2); return .bfi r.hdr (← g r.d) (← g r.a) (BitVec.ofNat 6 r.imm) (BitVec.ofNat 6 (bits r.imm 6 6))
  | _ => .error .reservedFn

/-- Format M, major opcode 0x14. -/
def decM14 (r : RawM) : Except Reject Instr :=
  match r.fn with
  | 0x00 => do zero r.m; zero r.z; zero r.ty; zero (bits r.imm 10 4); return .tld r.hdr (← tl r.d) (← g r.a) (← g r.b) (BitVec.ofNat 6 r.imm) (BitVec.ofNat 4 (bits r.imm 6 4))
  | 0x01 => do zero r.m; zero r.z; zero r.ty; zero (bits r.imm 10 4); return .tst r.hdr (← tl r.d) (← g r.a) (← g r.b) (BitVec.ofNat 6 r.imm) (BitVec.ofNat 4 (bits r.imm 6 4))
  | 0x02 => do zero r.m; zero r.z; zero r.ty; zero (bits r.imm 10 4); return .tldT2 r.hdr (← tl r.d) (← g r.a) (← g r.b) (BitVec.ofNat 6 r.imm) (BitVec.ofNat 4 (bits r.imm 6 4))
  | 0x03 => do zero r.m; zero r.z; zero r.ty; zero (bits r.imm 10 4); return .tstT2 r.hdr (← tl r.d) (← g r.a) (← g r.b) (BitVec.ofNat 6 r.imm) (BitVec.ofNat 4 (bits r.imm 6 4))
  | _ => .error .reservedFn

/-- Format M, major opcode 0x15. -/
def decM15 (r : RawM) : Except Reject Instr :=
  match r.fn with
  | 0x00 => do zero r.a; zero r.b; zero r.m; zero r.z; zero r.ty; zero r.imm; return .tzero r.hdr (← tl r.d)
  | 0x01 => do zero r.b; zero r.m; zero r.z; zero r.ty; zero r.imm; return .tmov r.hdr (← tl r.d) (← tl r.a)
  | 0x02 => do zero r.b; zero r.m; zero r.z; zero r.ty; zero (bits r.imm 7 7); return .tr2v r.hdr (← g r.d) (← tl r.a) (BitVec.ofNat 6 r.imm) (decide (bits r.imm 6 1 = 1))
  | 0x03 => do zero r.b; zero r.m; zero r.z; zero r.ty; zero (bits r.imm 7 7); return .v2tr r.hdr (← tl r.d) (← g r.a) (BitVec.ofNat 6 r.imm) (decide (bits r.imm 6 1 = 1))
  | 0x04 => do zero r.d; zero r.a; zero r.b; zero r.m; zero r.z; zero r.ty; return .tdisc r.hdr (BitVec.ofNat 14 r.imm)
  | 0x05 => do zero r.b; zero r.m; zero r.z; zero r.ty; zero r.imm; return .tstat r.hdr (← g r.d) (← tileName r.a)
  | _ => .error .reservedFn

/-- Format M, major opcode 0x16. The hint bits of `wflip`, as of `leave.ret`, are ignored (R34, R35), though R290 has every field but fn,
op and the guard zero: the model's choice (log 132). -/
def decM16 (r : RawM) : Except Reject Instr :=
  match r.fn with
  | 0x00 => do must (decide (r.d = 44)) .outOfClass; zero r.b; zero r.m; zero r.z; zero r.imm; return .wld r.hdr (tyOf r.ty) (← tl r.a)
  | 0x01 => do zero r.d; zero r.a; zero r.b; zero r.m; zero r.z; zero r.ty; zero r.imm; return .wflip r.hdr
  | 0x02 => do must (decide (r.d = 44)) .outOfClass; zero r.b; zero r.m; zero r.z; zero r.ty; zero r.imm; return .wldT2 r.hdr (← tl r.a)
  | _ => .error .reservedFn

/-- Format M, major opcode 0x17. -/
def decM17 (r : RawM) : Except Reject Instr :=
  match r.fn with
  | 0x00 => do zero r.b; zero r.m; zero r.z; zero r.imm; return .tmul r.hdr (tyOf r.ty) (← ac r.d) (← tl r.a)
  | 0x01 => do zero r.b; zero r.m; zero r.z; zero r.ty; zero r.imm; return .tmulT2i8 r.hdr (← ac r.d) (← quad r.a)
  | 0x80 => do zero r.b; zero r.m; zero r.z; zero r.imm; return .tmulFlip r.hdr (tyOf r.ty) (← ac r.d) (← tl r.a)
  | 0x81 => do zero r.b; zero r.m; zero r.z; zero r.ty; zero r.imm; return .tmulFlipT2i8 r.hdr (← ac r.d) (← quad r.a)
  | _ => .error .reservedFn

/-- Format M, major opcode 0x18. -/
def decM18 (r : RawM) : Except Reject Instr :=
  match r.fn with
  | 0x00 => do zero r.a; zero r.b; zero r.m; zero r.z; zero r.ty; zero r.imm; return .azero r.hdr (← ac r.d)
  | 0x01 =>
    match r.ty with
    | 12 => do zero r.m; zero r.z; zero r.imm; return .aaddF32 r.hdr (← ac r.d) (← ac r.a) (← ac r.b)
    | 6 => do zero r.m; zero r.z; zero r.imm; return .aaddI32 r.hdr (← ac r.d) (← ac r.a) (← ac r.b)
    | _ => .error .reservedType
  | 0x02 => do zero r.m; zero r.z; must (decide (r.ty = 12)) .reservedType; zero r.imm; return .ascale r.hdr (← ac r.d) (← ac r.a) (← g r.b)
  | 0x03 => do zero r.m; zero r.z; zero r.imm; return .ald r.hdr (tyOf r.ty) (← ac r.d) (← g r.a) (← g r.b)
  | 0x04 => do zero r.m; zero r.z; zero (bits r.imm 1 13); return .ast r.hdr (tyOf r.ty) (decide (bits r.imm 0 1 = 1)) (← ac r.d) (← g r.a) (← g r.b)
  | 0x05 => do zero r.b; zero r.m; zero r.z; zero (bits r.imm 1 13); return .a2t r.hdr (tyOf r.ty) (decide (bits r.imm 0 1 = 1)) (← tl r.d) (← ac r.a)
  | _ => .error .reservedFn

/-- Format M, major opcode 0x19. -/
def decM19 (r : RawM) : Except Reject Instr :=
  match r.fn with
  | 0x00 => do zero r.d; zero r.m; zero r.z; zero r.ty; zero (bits r.imm 4 10); return .roll r.hdr (← g r.a) (← g r.b) (BitVec.ofNat 4 r.imm)
  | 0x01 => do zero r.a; zero r.b; zero r.m; zero r.z; zero r.ty; zero (bits r.imm 6 8); return .leave r.hdr (← g r.d) (BitVec.ofNat 6 r.imm)
  | 0x02 => do zero r.d; zero r.a; zero r.b; zero r.m; zero r.z; zero r.ty; zero r.imm; return .leaveRet r.hdr
  | _ => .error .reservedFn

/-- Format M, major opcode 0x1C. -/
def decM1C (r : RawM) : Except Reject Far :=
  match r.fn with
  | 0x00 => do zero r.b; zero r.m; zero r.z; zero r.ty; zero (bits r.imm 3 11); return .dcp r.hdr (← g r.d) (← g r.a) (fin8 (bits r.imm 0 3))
  | 0x01 => do zero r.d; zero r.b; zero r.m; zero r.z; zero r.ty; zero (bits r.imm 3 11); return .dcpw r.hdr (← g r.a) (fin8 (bits r.imm 0 3))
  | 0x02 => do zero r.a; zero r.b; zero r.m; zero r.z; zero r.ty; zero (bits r.imm 3 11); return .dcps r.hdr (← g r.d) (fin8 (bits r.imm 0 3))
  | 0x03 => do zero r.d; zero r.a; zero r.b; zero r.m; zero r.z; zero r.ty; zero (bits r.imm 3 11); return .dcpx r.hdr (fin8 (bits r.imm 0 3))
  | _ => .error .reservedFn

/-- Format M, major opcode 0x20. -/
def decM20 (r : RawM) : Except Reject Far :=
  match r.fn with
  | 0x00 => do zero r.m; zero r.z; zero r.ty; return .rput r.hdr (← g r.d) (← g r.a) (← g r.b) (BitVec.ofNat 14 r.imm)
  | 0x01 => do zero r.m; zero r.z; zero r.ty; zero r.imm; return .rget r.hdr (← g r.d) (← g r.a) (← g r.b)
  | 0x02 =>
    match bits r.imm 0 3 with
    | 0 => do zero r.m; zero r.z; zero (bits r.imm 3 11); return .ratomAdd r.hdr (tyOf r.ty) (← g r.d) (← g r.a) (← g r.b)
    | 1 => do zero r.m; zero r.z; zero (bits r.imm 3 11); return .ratomAnd r.hdr (tyOf r.ty) (← g r.d) (← g r.a) (← g r.b)
    | 2 => do zero r.m; zero r.z; zero (bits r.imm 3 11); return .ratomOr r.hdr (tyOf r.ty) (← g r.d) (← g r.a) (← g r.b)
    | 3 => do zero r.m; zero r.z; zero (bits r.imm 3 11); return .ratomXor r.hdr (tyOf r.ty) (← g r.d) (← g r.a) (← g r.b)
    | 4 => do zero r.m; zero r.z; zero (bits r.imm 3 11); return .ratomMin r.hdr (tyOf r.ty) (← g r.d) (← g r.a) (← g r.b)
    | 5 => do zero r.m; zero r.z; zero (bits r.imm 3 11); return .ratomMax r.hdr (tyOf r.ty) (← g r.d) (← g r.a) (← g r.b)
    | 6 => do zero r.m; zero r.z; zero (bits r.imm 3 11); return .ratomSwap r.hdr (tyOf r.ty) (← g r.d) (← g r.a) (← g r.b)
    | 7 => do zero r.m; zero r.z; zero (bits r.imm 3 11); return .ratomFadd r.hdr (tyOf r.ty) (← g r.d) (← g r.a) (← g r.b)
    | _ => .error .reservedCombination
  | 0x03 => do zero r.m; zero r.z; zero r.imm; return .rcas r.hdr (tyOf r.ty) (← g r.d) (← g r.a) (← g r.b)
  | 0x04 =>
    match bits r.imm 0 2 with
    | 0 => do zero r.b; zero r.m; zero r.z; zero r.ty; zero (bits r.imm 2 12); return .wcntArr r.hdr (← g r.d) (← g r.a)
    | 1 => do zero r.b; zero r.m; zero r.z; zero r.ty; zero (bits r.imm 2 12); return .wcntIss r.hdr (← g r.d) (← g r.a)
    | 2 => do zero r.b; zero r.m; zero r.z; zero r.ty; zero (bits r.imm 2 12); return .wcntDone r.hdr (← g r.d) (← g r.a)
    | _ => .error .reservedCombination
  | 0x05 => do zero r.d; zero r.b; zero r.m; zero r.z; zero r.ty; zero r.imm; return .rfence r.hdr (← g r.a)
  | _ => .error .reservedFn

/-- Format M, major opcode 0x24. -/
def decM24 (r : RawM) : Except Reject Far :=
  match r.fn with
  | 0x00 => do zero r.b; zero r.m; zero r.z; zero r.ty; zero r.imm; return .rpstat r.hdr (← g r.d) (← g r.a)
  | 0x01 => do zero r.d; zero r.b; zero r.m; zero r.z; zero r.ty; zero r.imm; return .cbar r.hdr (← g r.a)
  | 0x02 =>
    match bits r.imm 0 2 with
    | 0 => do zero r.m; zero r.z; zero (bits r.imm 2 12); return .credAdd r.hdr (tyOf r.ty) (← g r.d) (← g r.a) (← g r.b)
    | 1 => do zero r.m; zero r.z; zero (bits r.imm 2 12); return .credMin r.hdr (tyOf r.ty) (← g r.d) (← g r.a) (← g r.b)
    | 2 => do zero r.m; zero r.z; zero (bits r.imm 2 12); return .credMax r.hdr (tyOf r.ty) (← g r.d) (← g r.a) (← g r.b)
    | _ => .error .reservedCombination
  | _ => .error .reservedFn

/-- Format M, major opcode 0x28. -/
def decM28 (r : RawM) : Except Reject Far :=
  match r.fn with
  | 0x00 => do zero r.b; zero r.m; zero r.z; zero r.ty; zero r.imm; return .cast r.hdr (← g r.d) (← g r.a)
  | 0x01 => do zero r.d; zero r.b; zero r.m; zero r.z; zero r.ty; zero r.imm; return .exit r.hdr (← g r.a)
  | 0x02 => do zero r.d; zero r.a; zero r.b; zero r.m; zero r.z; zero r.ty; zero r.imm; return .gong r.hdr
  | 0x03 => do zero r.m; zero r.z; zero r.ty; zero r.imm; return .post r.hdr (← g r.d) (← g r.a) (← g r.b)
  | 0x04 => do zero r.a; zero r.b; zero r.m; zero r.z; zero r.ty; zero r.imm; return .take r.hdr (← g r.d)
  | 0x05 => do zero r.d; zero r.m; zero r.z; zero r.ty; zero r.imm; return .prio r.hdr (← g r.a) (← g r.b)
  | _ => .error .reservedFn

/-- Format M, major opcode 0x2C. -/
def decM2C (r : RawM) : Except Reject Far :=
  match r.fn with
  | 0x00 => do zero r.m; zero r.z; zero r.ty; zero r.imm; return .cinv r.hdr (← g r.d) (← g r.a) (← g r.b)
  | 0x01 => do zero r.m; zero r.z; zero r.ty; zero r.imm; return .cinvRe r.hdr (← g r.d) (← g r.a) (← g r.b)
  | 0x02 => do zero r.b; zero r.m; zero r.z; zero r.ty; zero r.imm; return .stest r.hdr (← g r.d) (← g r.a)
  | 0x03 => do zero r.m; zero r.z; zero r.ty; zero (bits r.imm 3 11); return .thint r.hdr (← g r.d) (← g r.a) (← g r.b) (fin8 (bits r.imm 0 3))
  | 0x04 => do zero r.b; zero r.m; zero r.z; zero r.ty; zero r.imm; return .step r.hdr (← g r.d) (← g r.a)
  | 0x05 => do zero r.d; zero r.b; zero r.m; zero r.z; zero r.ty; zero r.imm; return .subup r.hdr (← g r.a)
  | 0x06 =>
    match bits r.imm 0 2 with
    | 0 => do zero r.a; zero r.b; zero r.m; zero r.z; zero r.ty; zero (bits r.imm 2 12); return .bellqPeal r.hdr (← g r.d)
    | 1 => do zero r.a; zero r.b; zero r.m; zero r.z; zero r.ty; zero (bits r.imm 2 12); return .bellqLen r.hdr (← g r.d)
    | 2 => do zero r.a; zero r.b; zero r.m; zero r.z; zero r.ty; zero (bits r.imm 2 12); return .bellqNext r.hdr (← g r.d)
    | _ => .error .reservedCombination
  | 0x07 => do zero r.d; zero r.a; zero r.b; zero r.m; zero r.z; zero r.ty; zero r.imm; return .bellw r.hdr
  | _ => .error .reservedFn

/-- Format L, major opcode 0x01. -/
def decL01 (r : RawM) : Except Reject Instr :=
  match r.fn with
  | 0x00 => do zero r.a; zero r.b; zero r.m; zero r.z; zero r.ty; zero r.imm; return .li r.hdr (← g r.d) (BitVec.ofNat 32 r.lit)
  | 0x01 => do zero r.a; zero r.b; zero r.m; zero r.z; zero r.ty; zero r.imm; return .lihi r.hdr (← g r.d) (BitVec.ofNat 32 r.lit)
  | _ => .error .reservedFn

/-- Format L, major opcode 0x02. -/
def decL02 (r : RawM) : Except Reject Instr :=
  match r.fn with
  | 0x00 => do zero r.b; zero r.m; zero r.z; zero r.ty; zero r.imm; return .addLiteral r.hdr (← g r.d) (← g r.a) (BitVec.ofNat 32 r.lit)
  | 0x01 => do zero r.b; zero r.m; zero r.z; zero r.ty; zero r.imm; return .subLiteral r.hdr (← g r.d) (← g r.a) (BitVec.ofNat 32 r.lit)
  | 0x02 => do zero r.b; zero r.m; zero r.z; zero r.ty; zero r.imm; return .andLiteral r.hdr (← g r.d) (← g r.a) (BitVec.ofNat 32 r.lit)
  | 0x03 => do zero r.b; zero r.m; zero r.z; zero r.ty; zero r.imm; return .orLiteral r.hdr (← g r.d) (← g r.a) (BitVec.ofNat 32 r.lit)
  | 0x04 => do zero r.b; zero r.m; zero r.z; zero r.ty; zero r.imm; return .xorLiteral r.hdr (← g r.d) (← g r.a) (BitVec.ofNat 32 r.lit)
  | 0x05 => do zero r.b; zero r.m; zero r.z; zero r.ty; zero r.imm; return .andnLiteral r.hdr (← g r.d) (← g r.a) (BitVec.ofNat 32 r.lit)
  | 0x06 => do zero r.b; zero r.m; zero r.z; zero r.ty; zero r.imm; return .ornLiteral r.hdr (← g r.d) (← g r.a) (BitVec.ofNat 32 r.lit)
  | 0x07 => do zero r.b; zero r.m; zero r.z; zero r.ty; zero r.imm; return .shlLiteral r.hdr (← g r.d) (← g r.a) (BitVec.ofNat 32 r.lit)
  | 0x08 => do zero r.b; zero r.m; zero r.z; zero r.ty; zero r.imm; return .shrLiteral r.hdr (← g r.d) (← g r.a) (BitVec.ofNat 32 r.lit)
  | 0x09 => do zero r.b; zero r.m; zero r.z; zero r.ty; zero r.imm; return .sarLiteral r.hdr (← g r.d) (← g r.a) (BitVec.ofNat 32 r.lit)
  | 0x0A => do zero r.b; zero r.m; zero r.z; zero r.ty; zero r.imm; return .rotLiteral r.hdr (← g r.d) (← g r.a) (BitVec.ofNat 32 r.lit)
  | 0x0B => do zero r.b; zero r.m; zero r.z; zero r.ty; zero r.imm; return .minI64Literal r.hdr (← g r.d) (← g r.a) (BitVec.ofNat 32 r.lit)
  | 0x0C => do zero r.b; zero r.m; zero r.z; zero r.ty; zero r.imm; return .maxI64Literal r.hdr (← g r.d) (← g r.a) (BitVec.ofNat 32 r.lit)
  | 0x0D => do zero r.b; zero r.m; zero r.z; zero r.ty; zero r.imm; return .minN64Literal r.hdr (← g r.d) (← g r.a) (BitVec.ofNat 32 r.lit)
  | 0x0E => do zero r.b; zero r.m; zero r.z; zero r.ty; zero r.imm; return .maxN64Literal r.hdr (← g r.d) (← g r.a) (BitVec.ofNat 32 r.lit)
  | 0x0F => do zero r.a; zero r.b; zero r.m; zero r.z; zero r.ty; zero r.imm; return .movLiteral r.hdr (← g r.d) (BitVec.ofNat 32 r.lit)
  | 0x10 => do zero r.b; zero r.m; zero r.z; zero r.ty; zero r.imm; return .mulLiteral r.hdr (← g r.d) (← g r.a) (BitVec.ofNat 32 r.lit)
  | 0x11 => do zero r.b; zero r.m; zero r.z; zero r.ty; zero r.imm; return .mulhI64Literal r.hdr (← g r.d) (← g r.a) (BitVec.ofNat 32 r.lit)
  | 0x12 => do zero r.b; zero r.m; zero r.z; zero r.ty; zero r.imm; return .mulhN64Literal r.hdr (← g r.d) (← g r.a) (BitVec.ofNat 32 r.lit)
  | 0x13 => do zero r.b; zero r.m; zero r.z; zero r.ty; zero r.imm; return .divI64Literal r.hdr (← g r.d) (← g r.a) (BitVec.ofNat 32 r.lit)
  | 0x14 => do zero r.b; zero r.m; zero r.z; zero r.ty; zero r.imm; return .divN64Literal r.hdr (← g r.d) (← g r.a) (BitVec.ofNat 32 r.lit)
  | 0x15 => do zero r.b; zero r.m; zero r.z; zero r.ty; zero r.imm; return .remI64Literal r.hdr (← g r.d) (← g r.a) (BitVec.ofNat 32 r.lit)
  | 0x16 => do zero r.b; zero r.m; zero r.z; zero r.ty; zero r.imm; return .remN64Literal r.hdr (← g r.d) (← g r.a) (BitVec.ofNat 32 r.lit)
  | _ => .error .reservedFn

/-- Format L, major opcode 0x03. -/
def decL03 (r : RawM) : Except Reject Instr :=
  do zero r.b; zero r.m; zero r.z; zero r.ty; zero r.imm; return .cmpLiteral r.hdr (← condOf r.fn) (← r8 r.d) (← g r.a) (BitVec.ofNat 32 r.lit)

/-- Format L, major opcode 0x04. -/
def decL04 (r : RawM) : Except Reject Instr :=
  match r.fn with
  | 0x00 => do zero r.d; zero r.a; zero r.b; zero r.m; zero r.z; zero r.ty; zero r.imm; return .brLong r.hdr (BitVec.ofNat 32 r.lit)
  | 0x01 => do zero r.d; zero r.a; zero r.b; zero r.m; zero r.z; zero r.ty; zero r.imm; return .callLong r.hdr (BitVec.ofNat 32 r.lit)
  | _ => .error .reservedFn

/-- Format L, major opcode 0x05. -/
def decL05 (r : RawM) : Except Reject Instr :=
  match r.fn with
  | 0x00 => do zero r.m; zero r.z; zero (bits r.imm 7 7); return .ldLong r.hdr (tyOf r.ty) (← ordScope 1 (bits r.imm 2 2) (bits r.imm 4 3)) (fin4 (bits r.imm 0 2)) (← g r.d) (← g r.a) (← g r.b) (BitVec.ofNat 32 r.lit)
  | 0x01 => do zero r.m; zero r.z; zero (bits r.imm 7 7); return .stLong r.hdr (tyOf r.ty) (← ordScope 2 (bits r.imm 2 2) (bits r.imm 4 3)) (fin4 (bits r.imm 0 2)) (← g r.d) (← g r.a) (← g r.b) (BitVec.ofNat 32 r.lit)
  | _ => .error .reservedFn

/-- Format L, major opcode 0x08. -/
def decL08 (r : RawM) : Except Reject Instr :=
  do zero r.b; zero r.imm; return .vectorBroadcastLiteral r.hdr r.mask (← bcastOf (tyOf r.ty) r.fn) (tyOf r.ty) (← g r.d) (← g r.a) (BitVec.ofNat 32 r.lit)

/-- Format L, major opcode 0x0C. -/
def decL0C (r : RawM) : Except Reject Instr :=
  match r.fn with
  | 0x00 => do zero r.b; zero r.imm; return .vldsLiteral r.hdr r.mask (tyOf r.ty) (← g r.d) (← g r.a) (BitVec.ofNat 32 r.lit)
  | 0x01 => do zero r.b; zero r.z; zero r.imm; return .vstsLiteral r.hdr (fin8 r.m) (tyOf r.ty) (← g r.d) (← g r.a) (BitVec.ofNat 32 r.lit)
  | _ => .error .reservedFn

/-- Format L, major opcode 0x14. -/
def decL14 (r : RawM) : Except Reject Instr :=
  match r.fn with
  | 0x00 => do zero r.b; zero r.m; zero r.z; zero r.ty; zero (bits r.imm 10 4); return .tldLiteral r.hdr (← tl r.d) (← g r.a) (BitVec.ofNat 6 r.imm) (BitVec.ofNat 4 (bits r.imm 6 4)) (BitVec.ofNat 32 r.lit)
  | 0x01 => do zero r.b; zero r.m; zero r.z; zero r.ty; zero (bits r.imm 10 4); return .tstLiteral r.hdr (← tl r.d) (← g r.a) (BitVec.ofNat 6 r.imm) (BitVec.ofNat 4 (bits r.imm 6 4)) (BitVec.ofNat 32 r.lit)
  | 0x02 => do zero r.b; zero r.m; zero r.z; zero r.ty; zero (bits r.imm 10 4); return .tldT2Literal r.hdr (← tl r.d) (← g r.a) (BitVec.ofNat 6 r.imm) (BitVec.ofNat 4 (bits r.imm 6 4)) (BitVec.ofNat 32 r.lit)
  | 0x03 => do zero r.b; zero r.m; zero r.z; zero r.ty; zero (bits r.imm 10 4); return .tstT2Literal r.hdr (← tl r.d) (← g r.a) (BitVec.ofNat 6 r.imm) (BitVec.ofNat 4 (bits r.imm 6 4)) (BitVec.ofNat 32 r.lit)
  | _ => .error .reservedFn

/-- Format L, major opcode 0x16. -/
def decL16 (r : RawM) : Except Reject Instr :=
  match r.fn with
  | 0x00 => do must (decide (r.d = 44)) .outOfClass; zero r.b; zero r.m; zero r.z; zero r.ty; zero r.imm; return .wldT2Memory r.hdr (← g r.a) (BitVec.ofNat 32 r.lit)
  | 0x01 => do must (decide (r.d = 44)) .outOfClass; zero r.b; zero r.m; zero r.z; zero r.ty; zero r.imm; return .wldPip r.hdr (← g r.a) (BitVec.ofNat 32 r.lit)
  | _ => .error .reservedFn

/-- Format L, major opcode 0x1C. -/
def decL1C (r : RawM) : Except Reject Far :=
  match r.fn with
  | 0x00 => do zero r.b; zero r.m; zero r.z; zero r.ty; zero (bits r.imm 3 11); return .dcpLiteral r.hdr (← g r.d) (← g r.a) (fin8 (bits r.imm 0 3)) (BitVec.ofNat 32 r.lit)
  | _ => .error .reservedFn

/-- Format L, major opcode 0x20. -/
def decL20 (r : RawM) : Except Reject Far :=
  match r.fn with
  | 0x00 => do zero r.m; zero r.z; zero r.ty; zero r.imm; return .rputLong r.hdr (← g r.d) (← g r.a) (← g r.b) (BitVec.ofNat 32 r.lit)
  | _ => .error .reservedFn

/-- Format L, major opcode 0x24. -/
def decL24 (r : RawM) : Except Reject Far :=
  match r.fn with
  | 0x00 => do zero r.b; zero r.m; zero r.z; zero r.ty; zero r.imm; return .rpart r.hdr (← g r.d) (← g r.a) (BitVec.ofNat 32 r.lit)
  | _ => .error .reservedFn

/-! ## The whole decoder -/

/-- The instruction of either kind. -/
noncomputable def instrOf : Instr ⊕ Far → Instr
  | .inl i => i
  | .inr f => f.instr

/-- The checks of the instruction of either kind. -/
def flawOf : Instr ⊕ Far → Option Reject
  | .inl i => i.flaw
  | .inr f => f.flaw

/-- Format M by its major opcode (R58). -/
def decM (r : RawM) : Except Reject (Instr ⊕ Far) :=
  match r.op with
  | 0x01 => Sum.inl <$> decM01 r
  | 0x02 => Sum.inl <$> decM02 r
  | 0x03 => Sum.inl <$> decM03 r
  | 0x04 => Sum.inl <$> decM04 r
  | 0x05 => Sum.inl <$> decM05 r
  | 0x06 => Sum.inl <$> decM06 r
  | 0x07 => Sum.inl <$> decM07 r
  | 0x08 => Sum.inl <$> decM08 r
  | 0x0C => Sum.inl <$> decM0C r
  | 0x0D => Sum.inl <$> decM0D r
  | 0x10 => Sum.inl <$> decM10 r
  | 0x11 => Sum.inl <$> decM11 r
  | 0x12 => Sum.inl <$> decM12 r
  | 0x14 => Sum.inl <$> decM14 r
  | 0x15 => Sum.inl <$> decM15 r
  | 0x16 => Sum.inl <$> decM16 r
  | 0x17 => Sum.inl <$> decM17 r
  | 0x18 => Sum.inl <$> decM18 r
  | 0x19 => Sum.inl <$> decM19 r
  | 0x1C => Sum.inr <$> decM1C r
  | 0x20 => Sum.inr <$> decM20 r
  | 0x24 => Sum.inr <$> decM24 r
  | 0x28 => Sum.inr <$> decM28 r
  | 0x2C => Sum.inr <$> decM2C r
  | _ => .error .reservedOp

/-- Format L by its major opcode (R65). -/
def decL (r : RawM) : Except Reject (Instr ⊕ Far) :=
  match r.op with
  | 0x01 => Sum.inl <$> decL01 r
  | 0x02 => Sum.inl <$> decL02 r
  | 0x03 => Sum.inl <$> decL03 r
  | 0x04 => Sum.inl <$> decL04 r
  | 0x05 => Sum.inl <$> decL05 r
  | 0x08 => Sum.inl <$> decL08 r
  | 0x0C => Sum.inl <$> decL0C r
  | 0x14 => Sum.inl <$> decL14 r
  | 0x16 => Sum.inl <$> decL16 r
  | 0x1C => Sum.inr <$> decL1C r
  | 0x20 => Sum.inr <$> decL20 r
  | 0x24 => Sum.inr <$> decL24 r
  | _ => .error .reservedOp

/-- The length in bytes, from the lowest byte (R24). -/
def lengthOf (b : Nat) : Nat := if b % 2 = 0 then 4 else if b % 4 = 1 then 8 else 12

/-- The fields of an instruction's word, before the checks of the instruction itself. -/
def parse (w : Nat) : Except Reject (Instr ⊕ Far) :=
  if w % 2 = 0 then Sum.inl <$> decS (w % 2 ^ 32)
  else if w % 4 = 1 then decM (unpackM (w % 2 ^ 64))
  else decL (unpackM (w % 2 ^ 96))

/-- The instruction, of either kind, whose word is `w`, or the check of R39 it fails. -/
def decodeKind (w : Nat) : Except Reject (Instr ⊕ Far) :=
  match parse w with
  | .error e => .error e
  | .ok i =>
    match flawOf i with
    | none => .ok i
    | some e => .error e

/-- The instruction whose word, read as one little-endian number, is `w`, or the check of R39 it fails. -/
noncomputable def decodeWord (w : Nat) : Except Reject Instr := instrOf <$> decodeKind w

/-- Bytes as one little-endian number (R4). -/
def numOfBytes : List Byte → Nat
  | [] => 0
  | b :: bs => b.toNat + 256 * numOfBytes bs

/-- The `n` low bytes of a number, lowest first (R4). -/
def bytesOfNum : Nat → Nat → List Byte
  | 0, _ => []
  | n + 1, x => BitVec.ofNat 8 x :: bytesOfNum n (x / 256)

/-- Decoding over bytes: the instruction at their start and the bytes that follow it, or the reason there is none. -/
noncomputable def decode (bs : List Byte) : Except Reject (Instr × List Byte) :=
  match bs with
  | [] => .error .short
  | b :: _ =>
    let n := lengthOf b.toNat
    if bs.length < n then .error .short
    else
      match decodeWord (numOfBytes (bs.take n)) with
      | .error e => .error e
      | .ok i => .ok (i, bs.drop n)

/-! ## The encoder -/

/-- The three formats' words (R27, R29), before packing. -/
inductive Enc where
  | short (w : Nat)
  | mid (r : RawM)
  | long (r : RawM)
deriving DecidableEq, Repr

/-- The register-register layout (R27). -/
def rr (op fn d a b : Nat) : Nat := 2 * op + 2 ^ 7 * d + 2 ^ 12 * a + 2 ^ 17 * b + 2 ^ 22 * fn
/-- The immediate layout (R27). -/
def im (op d a i : Nat) : Nat := 2 * op + 2 ^ 7 * d + 2 ^ 12 * a + 2 ^ 17 * i
/-- The memory layout (R27). -/
def me (op d a ty off : Nat) : Nat := 2 * op + 2 ^ 7 * d + 2 ^ 12 * a + 2 ^ 17 * ty + 2 ^ 21 * off
/-- The branch layout (R27). -/
def bj (op p pn off : Nat) : Nat := 2 * op + 2 ^ 7 * p + 2 ^ 10 * pn + 2 ^ 11 * off
/-- The jump layout (R27). -/
def jp (op off : Nat) : Nat := 2 * op + 2 ^ 7 * off

/-- The fields of an instruction's word; none for the steps that have no encoding. -/
def Instr.fields : Instr → Option Enc
  | .add d a b => some (.short (rr 0x01 0x000 d.val a.val b.val))
  | .sub d a b => some (.short (rr 0x01 0x001 d.val a.val b.val))
  | .and d a b => some (.short (rr 0x01 0x002 d.val a.val b.val))
  | .or d a b => some (.short (rr 0x01 0x003 d.val a.val b.val))
  | .xor d a b => some (.short (rr 0x01 0x004 d.val a.val b.val))
  | .andn d a b => some (.short (rr 0x01 0x005 d.val a.val b.val))
  | .orn d a b => some (.short (rr 0x01 0x006 d.val a.val b.val))
  | .shl d a b => some (.short (rr 0x01 0x007 d.val a.val b.val))
  | .shr d a b => some (.short (rr 0x01 0x008 d.val a.val b.val))
  | .sar d a b => some (.short (rr 0x01 0x009 d.val a.val b.val))
  | .rot d a b => some (.short (rr 0x01 0x00A d.val a.val b.val))
  | .minI64 d a b => some (.short (rr 0x01 0x00B d.val a.val b.val))
  | .maxI64 d a b => some (.short (rr 0x01 0x00C d.val a.val b.val))
  | .minN64 d a b => some (.short (rr 0x01 0x00D d.val a.val b.val))
  | .maxN64 d a b => some (.short (rr 0x01 0x00E d.val a.val b.val))
  | .mov d a => some (.short (rr 0x01 0x00F d.val a.val 0))
  | .mul d a b => some (.short (rr 0x02 0x000 d.val a.val b.val))
  | .mulhI64 d a b => some (.short (rr 0x02 0x001 d.val a.val b.val))
  | .mulhN64 d a b => some (.short (rr 0x02 0x002 d.val a.val b.val))
  | .divI64 d a b => some (.short (rr 0x02 0x003 d.val a.val b.val))
  | .divN64 d a b => some (.short (rr 0x02 0x004 d.val a.val b.val))
  | .remI64 d a b => some (.short (rr 0x02 0x005 d.val a.val b.val))
  | .remN64 d a b => some (.short (rr 0x02 0x006 d.val a.val b.val))
  | .clz d a => some (.short (rr 0x03 0x000 d.val a.val 0))
  | .ctz d a => some (.short (rr 0x03 0x001 d.val a.val 0))
  | .popc d a => some (.short (rr 0x03 0x002 d.val a.val 0))
  | .bswap d a => some (.short (rr 0x03 0x003 d.val a.val 0))
  | .extI8 d a => some (.short (rr 0x03 0x004 d.val a.val 0))
  | .extI16 d a => some (.short (rr 0x03 0x005 d.val a.val 0))
  | .extI32 d a => some (.short (rr 0x03 0x006 d.val a.val 0))
  | .extN8 d a => some (.short (rr 0x03 0x007 d.val a.val 0))
  | .extN16 d a => some (.short (rr 0x03 0x008 d.val a.val 0))
  | .extN32 d a => some (.short (rr 0x03 0x009 d.val a.val 0))
  | .cmp c d a b => some (.short (rr 0x04 c.code d.val a.val b.val))
  | .pand d a b => some (.short (rr 0x05 0x000 d.val a.val b.val))
  | .por d a b => some (.short (rr 0x05 0x001 d.val a.val b.val))
  | .pxor d a b => some (.short (rr 0x05 0x002 d.val a.val b.val))
  | .pnot d a => some (.short (rr 0x05 0x003 d.val a.val 0))
  | .pmov d a => some (.short (rr 0x05 0x004 d.val a.val 0))
  | .sel q d a b => some (.short (rr 0x05 (8 + q.val) d.val a.val b.val))
  | .lea s d a b => some (.short (rr 0x06 s.val d.val a.val b.val))
  | .addImmediate i d a => some (.short (im 0x08 d.val a.val i.toNat))
  | .andImmediate i d a => some (.short (im 0x09 d.val a.val i.toNat))
  | .orImmediate i d a => some (.short (im 0x0A d.val a.val i.toNat))
  | .xorImmediate i d a => some (.short (im 0x0B d.val a.val i.toNat))
  | .shlImmediate n d a => some (.short (im 0x0C d.val a.val n.toNat))
  | .shrImmediate n d a => some (.short (im 0x0C d.val a.val (n.toNat + 64 * 1)))
  | .sarImmediate n d a => some (.short (im 0x0C d.val a.val (n.toNat + 64 * 2)))
  | .rotImmediate n d a => some (.short (im 0x0C d.val a.val (n.toNat + 64 * 3)))
  | .mulImmediate i d a => some (.short (im 0x0D d.val a.val i.toNat))
  | .cmpi c i d a => some (.short (im 0x0E d.val a.val (i.toNat + 2048 * c.code)))
  | .movi i d => some (.short (im 0x0F d.val 0 i.toNat))
  | .ld ty o d a => some (.short (me 0x10 d.val a.val ty.code o.toNat))
  | .st ty o d a => some (.short (me 0x11 d.val a.val ty.code o.toNat))
  | .pfL1 o a => some (.short (me 0x12 0 a.val 0 o.toNat))
  | .pfCc o a => some (.short (me 0x12 0 a.val 1 o.toNat))
  | .pfL2 o a => some (.short (me 0x12 0 a.val 2 o.toNat))
  | .br o n p => some (.short (bj 0x18 p.val n.toNat o.toNat))
  | .jmp o => some (.short (jp 0x19 o.toNat))
  | .call o => some (.short (jp 0x1A o.toNat))
  | .jmpr a => some (.short (rr 0x1B 0 0 a.val 0))
  | .callr a => some (.short (rr 0x1B 1 0 a.val 0))
  | .ret => some (.short (rr 0x1B 2 0 0 0))
  | .srGet n d => some (.short (rr 0x20 n.number d.val 0 0))
  | .srSet n a => some (.short (rr 0x21 n.number 0 a.val 0))
  | .srSwap n d a => some (.short (rr 0x22 n.number d.val a.val 0))
  | .nop => some (.short (rr 0x23 0 0 0 0))
  | .trap n => some (.short (rr 0x23 1 0 n.toNat 0))
  | .tret => some (.short (rr 0x23 2 0 0 0))
  | .tack => some (.short (rr 0x23 3 0 0 0))
  | .halt => some (.short (rr 0x23 4 0 0 0))
  | .yield => some (.short (rr 0x23 5 0 0 0))
  | .fenceAcq c => some (.short (rr 0x24 (8 + c.code) 0 0 0))
  | .fenceRel c => some (.short (rr 0x24 (16 + c.code) 0 0 0))
  | .fenceAr c => some (.short (rr 0x24 (24 + c.code) 0 0 0))
  | .cflWt a => some (.short (rr 0x24 0x100 0 a.val 0))
  | .cflInv a => some (.short (rr 0x24 0x101 0 a.val 0))
  | .cflWi a => some (.short (rr 0x24 0x102 0 a.val 0))
  | .tlbiPage a => some (.short (rr 0x24 0x200 0 a.val 0))
  | .tlbiAsn a => some (.short (rr 0x24 0x201 0 a.val 0))
  | .tlbiAll => some (.short (rr 0x24 0x202 0 0 0))
  | .waitNe d a b => some (.short (rr 0x25 0x000 d.val a.val b.val))
  | .waitEq d a b => some (.short (rr 0x25 0x001 d.val a.val b.val))
  | .waitGe d a b => some (.short (rr 0x25 0x002 d.val a.val b.val))
  | .li h d lit => some (.long { op := 0x01, fn := 0x00, gp := h.gp.val, gn := h.gn.toNat, lu := h.lu.toNat, tmp := h.tmp.toNat, d := d.val, lit := lit.toNat })
  | .lihi h d lit => some (.long { op := 0x01, fn := 0x01, gp := h.gp.val, gn := h.gn.toNat, lu := h.lu.toNat, tmp := h.tmp.toNat, d := d.val, lit := lit.toNat })
  | .addLiteral h d a lit => some (.long { op := 0x02, fn := 0x00, gp := h.gp.val, gn := h.gn.toNat, lu := h.lu.toNat, tmp := h.tmp.toNat, d := d.val, a := a.val, lit := lit.toNat })
  | .subLiteral h d a lit => some (.long { op := 0x02, fn := 0x01, gp := h.gp.val, gn := h.gn.toNat, lu := h.lu.toNat, tmp := h.tmp.toNat, d := d.val, a := a.val, lit := lit.toNat })
  | .andLiteral h d a lit => some (.long { op := 0x02, fn := 0x02, gp := h.gp.val, gn := h.gn.toNat, lu := h.lu.toNat, tmp := h.tmp.toNat, d := d.val, a := a.val, lit := lit.toNat })
  | .orLiteral h d a lit => some (.long { op := 0x02, fn := 0x03, gp := h.gp.val, gn := h.gn.toNat, lu := h.lu.toNat, tmp := h.tmp.toNat, d := d.val, a := a.val, lit := lit.toNat })
  | .xorLiteral h d a lit => some (.long { op := 0x02, fn := 0x04, gp := h.gp.val, gn := h.gn.toNat, lu := h.lu.toNat, tmp := h.tmp.toNat, d := d.val, a := a.val, lit := lit.toNat })
  | .andnLiteral h d a lit => some (.long { op := 0x02, fn := 0x05, gp := h.gp.val, gn := h.gn.toNat, lu := h.lu.toNat, tmp := h.tmp.toNat, d := d.val, a := a.val, lit := lit.toNat })
  | .ornLiteral h d a lit => some (.long { op := 0x02, fn := 0x06, gp := h.gp.val, gn := h.gn.toNat, lu := h.lu.toNat, tmp := h.tmp.toNat, d := d.val, a := a.val, lit := lit.toNat })
  | .shlLiteral h d a lit => some (.long { op := 0x02, fn := 0x07, gp := h.gp.val, gn := h.gn.toNat, lu := h.lu.toNat, tmp := h.tmp.toNat, d := d.val, a := a.val, lit := lit.toNat })
  | .shrLiteral h d a lit => some (.long { op := 0x02, fn := 0x08, gp := h.gp.val, gn := h.gn.toNat, lu := h.lu.toNat, tmp := h.tmp.toNat, d := d.val, a := a.val, lit := lit.toNat })
  | .sarLiteral h d a lit => some (.long { op := 0x02, fn := 0x09, gp := h.gp.val, gn := h.gn.toNat, lu := h.lu.toNat, tmp := h.tmp.toNat, d := d.val, a := a.val, lit := lit.toNat })
  | .rotLiteral h d a lit => some (.long { op := 0x02, fn := 0x0A, gp := h.gp.val, gn := h.gn.toNat, lu := h.lu.toNat, tmp := h.tmp.toNat, d := d.val, a := a.val, lit := lit.toNat })
  | .minI64Literal h d a lit => some (.long { op := 0x02, fn := 0x0B, gp := h.gp.val, gn := h.gn.toNat, lu := h.lu.toNat, tmp := h.tmp.toNat, d := d.val, a := a.val, lit := lit.toNat })
  | .maxI64Literal h d a lit => some (.long { op := 0x02, fn := 0x0C, gp := h.gp.val, gn := h.gn.toNat, lu := h.lu.toNat, tmp := h.tmp.toNat, d := d.val, a := a.val, lit := lit.toNat })
  | .minN64Literal h d a lit => some (.long { op := 0x02, fn := 0x0D, gp := h.gp.val, gn := h.gn.toNat, lu := h.lu.toNat, tmp := h.tmp.toNat, d := d.val, a := a.val, lit := lit.toNat })
  | .maxN64Literal h d a lit => some (.long { op := 0x02, fn := 0x0E, gp := h.gp.val, gn := h.gn.toNat, lu := h.lu.toNat, tmp := h.tmp.toNat, d := d.val, a := a.val, lit := lit.toNat })
  | .movLiteral h d lit => some (.long { op := 0x02, fn := 0x0F, gp := h.gp.val, gn := h.gn.toNat, lu := h.lu.toNat, tmp := h.tmp.toNat, d := d.val, lit := lit.toNat })
  | .mulLiteral h d a lit => some (.long { op := 0x02, fn := 0x10, gp := h.gp.val, gn := h.gn.toNat, lu := h.lu.toNat, tmp := h.tmp.toNat, d := d.val, a := a.val, lit := lit.toNat })
  | .mulhI64Literal h d a lit => some (.long { op := 0x02, fn := 0x11, gp := h.gp.val, gn := h.gn.toNat, lu := h.lu.toNat, tmp := h.tmp.toNat, d := d.val, a := a.val, lit := lit.toNat })
  | .mulhN64Literal h d a lit => some (.long { op := 0x02, fn := 0x12, gp := h.gp.val, gn := h.gn.toNat, lu := h.lu.toNat, tmp := h.tmp.toNat, d := d.val, a := a.val, lit := lit.toNat })
  | .divI64Literal h d a lit => some (.long { op := 0x02, fn := 0x13, gp := h.gp.val, gn := h.gn.toNat, lu := h.lu.toNat, tmp := h.tmp.toNat, d := d.val, a := a.val, lit := lit.toNat })
  | .divN64Literal h d a lit => some (.long { op := 0x02, fn := 0x14, gp := h.gp.val, gn := h.gn.toNat, lu := h.lu.toNat, tmp := h.tmp.toNat, d := d.val, a := a.val, lit := lit.toNat })
  | .remI64Literal h d a lit => some (.long { op := 0x02, fn := 0x15, gp := h.gp.val, gn := h.gn.toNat, lu := h.lu.toNat, tmp := h.tmp.toNat, d := d.val, a := a.val, lit := lit.toNat })
  | .remN64Literal h d a lit => some (.long { op := 0x02, fn := 0x16, gp := h.gp.val, gn := h.gn.toNat, lu := h.lu.toNat, tmp := h.tmp.toNat, d := d.val, a := a.val, lit := lit.toNat })
  | .cmpLiteral h c d a lit => some (.long { op := 0x03, fn := c.code, gp := h.gp.val, gn := h.gn.toNat, lu := h.lu.toNat, tmp := h.tmp.toNat, d := d.val, a := a.val, lit := lit.toNat })
  | .brLong h lit => some (.long { op := 0x04, fn := 0x00, gp := h.gp.val, gn := h.gn.toNat, lu := h.lu.toNat, tmp := h.tmp.toNat, lit := lit.toNat })
  | .callLong h lit => some (.long { op := 0x04, fn := 0x01, gp := h.gp.val, gn := h.gn.toNat, lu := h.lu.toNat, tmp := h.tmp.toNat, lit := lit.toNat })
  | .ldLong h ty acq s d a b lit => some (.long { op := 0x05, fn := 0x00, gp := h.gp.val, gn := h.gn.toNat, lu := h.lu.toNat, tmp := h.tmp.toNat, d := d.val, a := a.val, b := b.val, ty := ty.code, imm := s.val + 4 * (ordScopeCode 1 acq), lit := lit.toNat })
  | .stLong h ty rel s d a b lit => some (.long { op := 0x05, fn := 0x01, gp := h.gp.val, gn := h.gn.toNat, lu := h.lu.toNat, tmp := h.tmp.toNat, d := d.val, a := a.val, b := b.val, ty := ty.code, imm := s.val + 4 * (ordScopeCode 2 rel), lit := lit.toNat })
  | .bfxI64 h d a pos w => some (.mid { op := 0x12, fn := 0x00, gp := h.gp.val, gn := h.gn.toNat, lu := h.lu.toNat, tmp := h.tmp.toNat, d := d.val, a := a.val, imm := pos.toNat + 64 * w.toNat })
  | .bfxN64 h d a pos w => some (.mid { op := 0x12, fn := 0x01, gp := h.gp.val, gn := h.gn.toNat, lu := h.lu.toNat, tmp := h.tmp.toNat, d := d.val, a := a.val, imm := pos.toNat + 64 * w.toNat })
  | .bfi h d a pos w => some (.mid { op := 0x12, fn := 0x02, gp := h.gp.val, gn := h.gn.toNat, lu := h.lu.toNat, tmp := h.tmp.toNat, d := d.val, a := a.val, imm := pos.toNat + 64 * w.toNat })
  | .amoAdd h ty o c d a b => some (.mid { op := 0x10, fn := 0x00, gp := h.gp.val, gn := h.gn.toNat, lu := h.lu.toNat, tmp := h.tmp.toNat, d := d.val, a := a.val, b := b.val, ty := ty.code, imm := o.code + 4 * c.code })
  | .amoAnd h ty o c d a b => some (.mid { op := 0x10, fn := 0x01, gp := h.gp.val, gn := h.gn.toNat, lu := h.lu.toNat, tmp := h.tmp.toNat, d := d.val, a := a.val, b := b.val, ty := ty.code, imm := o.code + 4 * c.code })
  | .amoOr h ty o c d a b => some (.mid { op := 0x10, fn := 0x02, gp := h.gp.val, gn := h.gn.toNat, lu := h.lu.toNat, tmp := h.tmp.toNat, d := d.val, a := a.val, b := b.val, ty := ty.code, imm := o.code + 4 * c.code })
  | .amoXor h ty o c d a b => some (.mid { op := 0x10, fn := 0x03, gp := h.gp.val, gn := h.gn.toNat, lu := h.lu.toNat, tmp := h.tmp.toNat, d := d.val, a := a.val, b := b.val, ty := ty.code, imm := o.code + 4 * c.code })
  | .amoMin h ty o c d a b => some (.mid { op := 0x10, fn := 0x04, gp := h.gp.val, gn := h.gn.toNat, lu := h.lu.toNat, tmp := h.tmp.toNat, d := d.val, a := a.val, b := b.val, ty := ty.code, imm := o.code + 4 * c.code })
  | .amoMax h ty o c d a b => some (.mid { op := 0x10, fn := 0x05, gp := h.gp.val, gn := h.gn.toNat, lu := h.lu.toNat, tmp := h.tmp.toNat, d := d.val, a := a.val, b := b.val, ty := ty.code, imm := o.code + 4 * c.code })
  | .amoSwap h ty o c d a b => some (.mid { op := 0x10, fn := 0x06, gp := h.gp.val, gn := h.gn.toNat, lu := h.lu.toNat, tmp := h.tmp.toNat, d := d.val, a := a.val, b := b.val, ty := ty.code, imm := o.code + 4 * c.code })
  | .amoFadd h ty o c d a b => some (.mid { op := 0x10, fn := 0x07, gp := h.gp.val, gn := h.gn.toNat, lu := h.lu.toNat, tmp := h.tmp.toNat, d := d.val, a := a.val, b := b.val, ty := ty.code, imm := o.code + 4 * c.code })
  | .cas h ty o c d a b => some (.mid { op := 0x11, fn := 0x00, gp := h.gp.val, gn := h.gn.toNat, lu := h.lu.toNat, tmp := h.tmp.toNat, d := d.val, a := a.val, b := b.val, ty := ty.code, imm := o.code + 4 * c.code })
  | .vadd h k ty d a b => some (.mid { op := 0x01, fn := 0x00, gp := h.gp.val, gn := h.gn.toNat, lu := h.lu.toNat, tmp := h.tmp.toNat, d := d.val, a := a.val, b := b.val, m := k.m.val, z := k.z.toNat, ty := ty.code })
  | .vsub h k ty d a b => some (.mid { op := 0x01, fn := 0x01, gp := h.gp.val, gn := h.gn.toNat, lu := h.lu.toNat, tmp := h.tmp.toNat, d := d.val, a := a.val, b := b.val, m := k.m.val, z := k.z.toNat, ty := ty.code })
  | .vmul h k ty d a b => some (.mid { op := 0x01, fn := 0x02, gp := h.gp.val, gn := h.gn.toNat, lu := h.lu.toNat, tmp := h.tmp.toNat, d := d.val, a := a.val, b := b.val, m := k.m.val, z := k.z.toNat, ty := ty.code })
  | .vaddSat h k ty d a b => some (.mid { op := 0x01, fn := 0x80, gp := h.gp.val, gn := h.gn.toNat, lu := h.lu.toNat, tmp := h.tmp.toNat, d := d.val, a := a.val, b := b.val, m := k.m.val, z := k.z.toNat, ty := ty.code })
  | .vsubSat h k ty d a b => some (.mid { op := 0x01, fn := 0x81, gp := h.gp.val, gn := h.gn.toNat, lu := h.lu.toNat, tmp := h.tmp.toNat, d := d.val, a := a.val, b := b.val, m := k.m.val, z := k.z.toNat, ty := ty.code })
  | .vmin h k ty d a b => some (.mid { op := 0x01, fn := 0x03, gp := h.gp.val, gn := h.gn.toNat, lu := h.lu.toNat, tmp := h.tmp.toNat, d := d.val, a := a.val, b := b.val, m := k.m.val, z := k.z.toNat, ty := ty.code })
  | .vmax h k ty d a b => some (.mid { op := 0x01, fn := 0x04, gp := h.gp.val, gn := h.gn.toNat, lu := h.lu.toNat, tmp := h.tmp.toNat, d := d.val, a := a.val, b := b.val, m := k.m.val, z := k.z.toNat, ty := ty.code })
  | .vabs h k ty d a => some (.mid { op := 0x01, fn := 0x05, gp := h.gp.val, gn := h.gn.toNat, lu := h.lu.toNat, tmp := h.tmp.toNat, d := d.val, a := a.val, m := k.m.val, z := k.z.toNat, ty := ty.code })
  | .vneg h k ty d a => some (.mid { op := 0x01, fn := 0x06, gp := h.gp.val, gn := h.gn.toNat, lu := h.lu.toNat, tmp := h.tmp.toNat, d := d.val, a := a.val, m := k.m.val, z := k.z.toNat, ty := ty.code })
  | .vand h k ty d a b => some (.mid { op := 0x01, fn := 0x08, gp := h.gp.val, gn := h.gn.toNat, lu := h.lu.toNat, tmp := h.tmp.toNat, d := d.val, a := a.val, b := b.val, m := k.m.val, z := k.z.toNat, ty := ty.code })
  | .vor h k ty d a b => some (.mid { op := 0x01, fn := 0x09, gp := h.gp.val, gn := h.gn.toNat, lu := h.lu.toNat, tmp := h.tmp.toNat, d := d.val, a := a.val, b := b.val, m := k.m.val, z := k.z.toNat, ty := ty.code })
  | .vxor h k ty d a b => some (.mid { op := 0x01, fn := 0x0A, gp := h.gp.val, gn := h.gn.toNat, lu := h.lu.toNat, tmp := h.tmp.toNat, d := d.val, a := a.val, b := b.val, m := k.m.val, z := k.z.toNat, ty := ty.code })
  | .vandn h k ty d a b => some (.mid { op := 0x01, fn := 0x0B, gp := h.gp.val, gn := h.gn.toNat, lu := h.lu.toNat, tmp := h.tmp.toNat, d := d.val, a := a.val, b := b.val, m := k.m.val, z := k.z.toNat, ty := ty.code })
  | .vshl h k ty d a b => some (.mid { op := 0x01, fn := 0x0C, gp := h.gp.val, gn := h.gn.toNat, lu := h.lu.toNat, tmp := h.tmp.toNat, d := d.val, a := a.val, b := b.val, m := k.m.val, z := k.z.toNat, ty := ty.code })
  | .vshr h k ty d a b => some (.mid { op := 0x01, fn := 0x0D, gp := h.gp.val, gn := h.gn.toNat, lu := h.lu.toNat, tmp := h.tmp.toNat, d := d.val, a := a.val, b := b.val, m := k.m.val, z := k.z.toNat, ty := ty.code })
  | .vsar h k ty d a b => some (.mid { op := 0x01, fn := 0x0E, gp := h.gp.val, gn := h.gn.toNat, lu := h.lu.toNat, tmp := h.tmp.toNat, d := d.val, a := a.val, b := b.val, m := k.m.val, z := k.z.toNat, ty := ty.code })
  | .vshlImmediate h k ty d a n => some (.mid { op := 0x01, fn := 0x4C, gp := h.gp.val, gn := h.gn.toNat, lu := h.lu.toNat, tmp := h.tmp.toNat, d := d.val, a := a.val, m := k.m.val, z := k.z.toNat, ty := ty.code, imm := n.toNat })
  | .vshrImmediate h k ty d a n => some (.mid { op := 0x01, fn := 0x4D, gp := h.gp.val, gn := h.gn.toNat, lu := h.lu.toNat, tmp := h.tmp.toNat, d := d.val, a := a.val, m := k.m.val, z := k.z.toNat, ty := ty.code, imm := n.toNat })
  | .vsarImmediate h k ty d a n => some (.mid { op := 0x01, fn := 0x4E, gp := h.gp.val, gn := h.gn.toNat, lu := h.lu.toNat, tmp := h.tmp.toNat, d := d.val, a := a.val, m := k.m.val, z := k.z.toNat, ty := ty.code, imm := n.toNat })
  | .vmov h k ty d a => some (.mid { op := 0x01, fn := 0x10, gp := h.gp.val, gn := h.gn.toNat, lu := h.lu.toNat, tmp := h.tmp.toNat, d := d.val, a := a.val, m := k.m.val, z := k.z.toNat, ty := ty.code })
  | .vectorBroadcastLiteral h k op ty d a lit => some (.long { op := 0x08, fn := op.code, gp := h.gp.val, gn := h.gn.toNat, lu := h.lu.toNat, tmp := h.tmp.toNat, d := d.val, a := a.val, m := k.m.val, z := k.z.toNat, ty := ty.code, lit := lit.toNat })
  | .vaddFloat h k ty rm d a b => some (.mid { op := 0x02, fn := 0x00 + 64 * rm.code, gp := h.gp.val, gn := h.gn.toNat, lu := h.lu.toNat, tmp := h.tmp.toNat, d := d.val, a := a.val, b := b.val, m := k.m.val, z := k.z.toNat, ty := ty.code })
  | .vsubFloat h k ty rm d a b => some (.mid { op := 0x02, fn := 0x01 + 64 * rm.code, gp := h.gp.val, gn := h.gn.toNat, lu := h.lu.toNat, tmp := h.tmp.toNat, d := d.val, a := a.val, b := b.val, m := k.m.val, z := k.z.toNat, ty := ty.code })
  | .vmulFloat h k ty rm d a b => some (.mid { op := 0x02, fn := 0x02 + 64 * rm.code, gp := h.gp.val, gn := h.gn.toNat, lu := h.lu.toNat, tmp := h.tmp.toNat, d := d.val, a := a.val, b := b.val, m := k.m.val, z := k.z.toNat, ty := ty.code })
  | .vfma h k ty rm d a b => some (.mid { op := 0x02, fn := 0x03 + 64 * rm.code, gp := h.gp.val, gn := h.gn.toNat, lu := h.lu.toNat, tmp := h.tmp.toNat, d := d.val, a := a.val, b := b.val, m := k.m.val, z := k.z.toNat, ty := ty.code })
  | .vfms h k ty rm d a b => some (.mid { op := 0x02, fn := 0x04 + 64 * rm.code, gp := h.gp.val, gn := h.gn.toNat, lu := h.lu.toNat, tmp := h.tmp.toNat, d := d.val, a := a.val, b := b.val, m := k.m.val, z := k.z.toNat, ty := ty.code })
  | .vminFloat h k ty d a b => some (.mid { op := 0x02, fn := 0x05, gp := h.gp.val, gn := h.gn.toNat, lu := h.lu.toNat, tmp := h.tmp.toNat, d := d.val, a := a.val, b := b.val, m := k.m.val, z := k.z.toNat, ty := ty.code })
  | .vmaxFloat h k ty d a b => some (.mid { op := 0x02, fn := 0x06, gp := h.gp.val, gn := h.gn.toNat, lu := h.lu.toNat, tmp := h.tmp.toNat, d := d.val, a := a.val, b := b.val, m := k.m.val, z := k.z.toNat, ty := ty.code })
  | .vabsFloat h k ty d a => some (.mid { op := 0x02, fn := 0x07, gp := h.gp.val, gn := h.gn.toNat, lu := h.lu.toNat, tmp := h.tmp.toNat, d := d.val, a := a.val, m := k.m.val, z := k.z.toNat, ty := ty.code })
  | .vnegFloat h k ty d a => some (.mid { op := 0x02, fn := 0x08, gp := h.gp.val, gn := h.gn.toNat, lu := h.lu.toNat, tmp := h.tmp.toNat, d := d.val, a := a.val, m := k.m.val, z := k.z.toNat, ty := ty.code })
  | .vdiv h k ty rm d a b => some (.mid { op := 0x02, fn := 0x09 + 64 * rm.code, gp := h.gp.val, gn := h.gn.toNat, lu := h.lu.toNat, tmp := h.tmp.toNat, d := d.val, a := a.val, b := b.val, m := k.m.val, z := k.z.toNat, ty := ty.code })
  | .vsqrt h k ty rm d a => some (.mid { op := 0x02, fn := 0x0A + 64 * rm.code, gp := h.gp.val, gn := h.gn.toNat, lu := h.lu.toNat, tmp := h.tmp.toNat, d := d.val, a := a.val, m := k.m.val, z := k.z.toNat, ty := ty.code })
  | .vcmp h m c ty d a b => some (.mid { op := 0x03, fn := c.code, gp := h.gp.val, gn := h.gn.toNat, lu := h.lu.toNat, tmp := h.tmp.toNat, d := d.val, a := a.val, b := b.val, m := m.val, ty := ty.code })
  | .vsel h m ty d a b => some (.mid { op := 0x03, fn := 0x10, gp := h.gp.val, gn := h.gn.toNat, lu := h.lu.toNat, tmp := h.tmp.toNat, d := d.val, a := a.val, b := b.val, m := m.val, ty := ty.code })
  | .mand h d a b => some (.mid { op := 0x03, fn := 0x20, gp := h.gp.val, gn := h.gn.toNat, lu := h.lu.toNat, tmp := h.tmp.toNat, d := d.val, a := a.val, b := b.val })
  | .mor h d a b => some (.mid { op := 0x03, fn := 0x21, gp := h.gp.val, gn := h.gn.toNat, lu := h.lu.toNat, tmp := h.tmp.toNat, d := d.val, a := a.val, b := b.val })
  | .mxor h d a b => some (.mid { op := 0x03, fn := 0x22, gp := h.gp.val, gn := h.gn.toNat, lu := h.lu.toNat, tmp := h.tmp.toNat, d := d.val, a := a.val, b := b.val })
  | .mnot h d a => some (.mid { op := 0x03, fn := 0x23, gp := h.gp.val, gn := h.gn.toNat, lu := h.lu.toNat, tmp := h.tmp.toNat, d := d.val, a := a.val })
  | .mcnt h d a => some (.mid { op := 0x03, fn := 0x24, gp := h.gp.val, gn := h.gn.toNat, lu := h.lu.toNat, tmp := h.tmp.toNat, d := d.val, a := a.val })
  | .mfirst h d a => some (.mid { op := 0x03, fn := 0x25, gp := h.gp.val, gn := h.gn.toNat, lu := h.lu.toNat, tmp := h.tmp.toNat, d := d.val, a := a.val })
  | .vcvt h k dt sty rm sat d a => some (.mid { op := 0x04, fn := 32 * sat.toNat + 64 * rm.code, gp := h.gp.val, gn := h.gn.toNat, lu := h.lu.toNat, tmp := h.tmp.toNat, d := d.val, a := a.val, m := k.m.val, z := k.z.toNat, ty := dt.code, imm := sty.code })
  | .vsplit3 h k d a => some (.mid { op := 0x04, fn := 0x01, gp := h.gp.val, gn := h.gn.toNat, lu := h.lu.toNat, tmp := h.tmp.toNat, d := d.val, a := a.val, m := k.m.val, z := k.z.toNat, ty := 13, imm := 12 })
  | .vperm h k ty d a b => some (.mid { op := 0x05, fn := 0x00, gp := h.gp.val, gn := h.gn.toNat, lu := h.lu.toNat, tmp := h.tmp.toNat, d := d.val, a := a.val, b := b.val, m := k.m.val, z := k.z.toNat, ty := ty.code })
  | .vzip h k ty d a b hi => some (.mid { op := 0x05, fn := 0x01, gp := h.gp.val, gn := h.gn.toNat, lu := h.lu.toNat, tmp := h.tmp.toNat, d := d.val, a := a.val, b := b.val, m := k.m.val, z := k.z.toNat, ty := ty.code, imm := hi.toNat })
  | .vuzp h k ty d a b odd => some (.mid { op := 0x05, fn := 0x02, gp := h.gp.val, gn := h.gn.toNat, lu := h.lu.toNat, tmp := h.tmp.toNat, d := d.val, a := a.val, b := b.val, m := k.m.val, z := k.z.toNat, ty := ty.code, imm := odd.toNat })
  | .vbcast h k ty d a => some (.mid { op := 0x05, fn := 0x03, gp := h.gp.val, gn := h.gn.toNat, lu := h.lu.toNat, tmp := h.tmp.toNat, d := d.val, a := a.val, m := k.m.val, z := k.z.toNat, ty := ty.code })
  | .vext h ty d a b => some (.mid { op := 0x05, fn := 0x04, gp := h.gp.val, gn := h.gn.toNat, lu := h.lu.toNat, tmp := h.tmp.toNat, d := d.val, a := a.val, b := b.val, ty := ty.code })
  | .vins h ty d a b => some (.mid { op := 0x05, fn := 0x05, gp := h.gp.val, gn := h.gn.toNat, lu := h.lu.toNat, tmp := h.tmp.toNat, d := d.val, a := a.val, b := b.val, ty := ty.code })
  | .vredAdd h m ty d a => some (.mid { op := 0x06, fn := 0x00, gp := h.gp.val, gn := h.gn.toNat, lu := h.lu.toNat, tmp := h.tmp.toNat, d := d.val, a := a.val, m := m.val, ty := ty.code })
  | .vredMin h m ty d a => some (.mid { op := 0x06, fn := 0x01, gp := h.gp.val, gn := h.gn.toNat, lu := h.lu.toNat, tmp := h.tmp.toNat, d := d.val, a := a.val, m := m.val, ty := ty.code })
  | .vredMax h m ty d a => some (.mid { op := 0x06, fn := 0x02, gp := h.gp.val, gn := h.gn.toNat, lu := h.lu.toNat, tmp := h.tmp.toNat, d := d.val, a := a.val, m := m.val, ty := ty.code })
  | .vredAnd h m ty d a => some (.mid { op := 0x06, fn := 0x03, gp := h.gp.val, gn := h.gn.toNat, lu := h.lu.toNat, tmp := h.tmp.toNat, d := d.val, a := a.val, m := m.val, ty := ty.code })
  | .vredOr h m ty d a => some (.mid { op := 0x06, fn := 0x04, gp := h.gp.val, gn := h.gn.toNat, lu := h.lu.toNat, tmp := h.tmp.toNat, d := d.val, a := a.val, m := m.val, ty := ty.code })
  | .vredXor h m ty d a => some (.mid { op := 0x06, fn := 0x05, gp := h.gp.val, gn := h.gn.toNat, lu := h.lu.toNat, tmp := h.tmp.toNat, d := d.val, a := a.val, m := m.val, ty := ty.code })
  | .vscanAdd h k ty d a => some (.mid { op := 0x06, fn := 0x10, gp := h.gp.val, gn := h.gn.toNat, lu := h.lu.toNat, tmp := h.tmp.toNat, d := d.val, a := a.val, m := k.m.val, z := k.z.toNat, ty := ty.code })
  | .vscanMin h k ty d a => some (.mid { op := 0x06, fn := 0x11, gp := h.gp.val, gn := h.gn.toNat, lu := h.lu.toNat, tmp := h.tmp.toNat, d := d.val, a := a.val, m := k.m.val, z := k.z.toNat, ty := ty.code })
  | .vscanMax h k ty d a => some (.mid { op := 0x06, fn := 0x12, gp := h.gp.val, gn := h.gn.toNat, lu := h.lu.toNat, tmp := h.tmp.toNat, d := d.val, a := a.val, m := k.m.val, z := k.z.toNat, ty := ty.code })
  | .vscanAnd h k ty d a => some (.mid { op := 0x06, fn := 0x13, gp := h.gp.val, gn := h.gn.toNat, lu := h.lu.toNat, tmp := h.tmp.toNat, d := d.val, a := a.val, m := k.m.val, z := k.z.toNat, ty := ty.code })
  | .vscanOr h k ty d a => some (.mid { op := 0x06, fn := 0x14, gp := h.gp.val, gn := h.gn.toNat, lu := h.lu.toNat, tmp := h.tmp.toNat, d := d.val, a := a.val, m := k.m.val, z := k.z.toNat, ty := ty.code })
  | .vscanXor h k ty d a => some (.mid { op := 0x06, fn := 0x15, gp := h.gp.val, gn := h.gn.toNat, lu := h.lu.toNat, tmp := h.tmp.toNat, d := d.val, a := a.val, m := k.m.val, z := k.z.toNat, ty := ty.code })
  | .vexp2 h k ty d a => some (.mid { op := 0x07, fn := 0x00, gp := h.gp.val, gn := h.gn.toNat, lu := h.lu.toNat, tmp := h.tmp.toNat, d := d.val, a := a.val, m := k.m.val, z := k.z.toNat, ty := ty.code })
  | .vlog2 h k ty d a => some (.mid { op := 0x07, fn := 0x01, gp := h.gp.val, gn := h.gn.toNat, lu := h.lu.toNat, tmp := h.tmp.toNat, d := d.val, a := a.val, m := k.m.val, z := k.z.toNat, ty := ty.code })
  | .vrcp h k ty d a => some (.mid { op := 0x07, fn := 0x02, gp := h.gp.val, gn := h.gn.toNat, lu := h.lu.toNat, tmp := h.tmp.toNat, d := d.val, a := a.val, m := k.m.val, z := k.z.toNat, ty := ty.code })
  | .vrsqrt h k ty d a => some (.mid { op := 0x07, fn := 0x03, gp := h.gp.val, gn := h.gn.toNat, lu := h.lu.toNat, tmp := h.tmp.toNat, d := d.val, a := a.val, m := k.m.val, z := k.z.toNat, ty := ty.code })
  | .vsinpi h k ty d a => some (.mid { op := 0x07, fn := 0x04, gp := h.gp.val, gn := h.gn.toNat, lu := h.lu.toNat, tmp := h.tmp.toNat, d := d.val, a := a.val, m := k.m.val, z := k.z.toNat, ty := ty.code })
  | .vcospi h k ty d a => some (.mid { op := 0x07, fn := 0x05, gp := h.gp.val, gn := h.gn.toNat, lu := h.lu.toNat, tmp := h.tmp.toNat, d := d.val, a := a.val, m := k.m.val, z := k.z.toNat, ty := ty.code })
  | .vtanh h k ty d a => some (.mid { op := 0x07, fn := 0x06, gp := h.gp.val, gn := h.gn.toNat, lu := h.lu.toNat, tmp := h.tmp.toNat, d := d.val, a := a.val, m := k.m.val, z := k.z.toNat, ty := ty.code })
  | .vdot h k ty d a b => some (.mid { op := 0x08, fn := 0x00, gp := h.gp.val, gn := h.gn.toNat, lu := h.lu.toNat, tmp := h.tmp.toNat, d := d.val, a := a.val, b := b.val, m := k.m.val, z := k.z.toNat, ty := ty.code })
  | .vkeyMort h k ty d a n => some (.mid { op := 0x08, fn := 0x01, gp := h.gp.val, gn := h.gn.toNat, lu := h.lu.toNat, tmp := h.tmp.toNat, d := d.val, a := a.val, m := k.m.val, z := k.z.toNat, ty := ty.code, imm := 2 * n.toNat })
  | .vkeyHilb h k ty d a n => some (.mid { op := 0x08, fn := 0x01, gp := h.gp.val, gn := h.gn.toNat, lu := h.lu.toNat, tmp := h.tmp.toNat, d := d.val, a := a.val, m := k.m.val, z := k.z.toNat, ty := ty.code, imm := 1 + 2 * n.toNat })
  | .vclass h k ty d a => some (.mid { op := 0x08, fn := 0x02, gp := h.gp.val, gn := h.gn.toNat, lu := h.lu.toNat, tmp := h.tmp.toNat, d := d.val, a := a.val, m := k.m.val, z := k.z.toNat, ty := ty.code })
  | .viota h k ty d => some (.mid { op := 0x08, fn := 0x03, gp := h.gp.val, gn := h.gn.toNat, lu := h.lu.toNat, tmp := h.tmp.toNat, d := d.val, m := k.m.val, z := k.z.toNat, ty := ty.code })
  | .vld h k ty d a i => some (.mid { op := 0x0C, fn := 0x00, gp := h.gp.val, gn := h.gn.toNat, lu := h.lu.toNat, tmp := h.tmp.toNat, d := d.val, a := a.val, m := k.m.val, z := k.z.toNat, ty := ty.code, imm := i.toNat })
  | .vlds h k ty d a b i => some (.mid { op := 0x0C, fn := 0x01, gp := h.gp.val, gn := h.gn.toNat, lu := h.lu.toNat, tmp := h.tmp.toNat, d := d.val, a := a.val, b := b.val, m := k.m.val, z := k.z.toNat, ty := ty.code, imm := i.toNat })
  | .vldsLiteral h k ty d a lit => some (.long { op := 0x0C, fn := 0x00, gp := h.gp.val, gn := h.gn.toNat, lu := h.lu.toNat, tmp := h.tmp.toNat, d := d.val, a := a.val, m := k.m.val, z := k.z.toNat, ty := ty.code, lit := lit.toNat })
  | .vgat h k ty d a b s => some (.mid { op := 0x0C, fn := 0x02, gp := h.gp.val, gn := h.gn.toNat, lu := h.lu.toNat, tmp := h.tmp.toNat, d := d.val, a := a.val, b := b.val, m := k.m.val, z := k.z.toNat, ty := ty.code, imm := s.val })
  | .vldb h k ty d a i => some (.mid { op := 0x0C, fn := 0x03, gp := h.gp.val, gn := h.gn.toNat, lu := h.lu.toNat, tmp := h.tmp.toNat, d := d.val, a := a.val, m := k.m.val, z := k.z.toNat, ty := ty.code, imm := i.toNat })
  | .vst h m ty d a i => some (.mid { op := 0x0D, fn := 0x00, gp := h.gp.val, gn := h.gn.toNat, lu := h.lu.toNat, tmp := h.tmp.toNat, d := d.val, a := a.val, m := m.val, ty := ty.code, imm := i.toNat })
  | .vsts h m ty d a b i => some (.mid { op := 0x0D, fn := 0x01, gp := h.gp.val, gn := h.gn.toNat, lu := h.lu.toNat, tmp := h.tmp.toNat, d := d.val, a := a.val, b := b.val, m := m.val, ty := ty.code, imm := i.toNat })
  | .vstsLiteral h m ty d a lit => some (.long { op := 0x0C, fn := 0x01, gp := h.gp.val, gn := h.gn.toNat, lu := h.lu.toNat, tmp := h.tmp.toNat, d := d.val, a := a.val, m := m.val, ty := ty.code, lit := lit.toNat })
  | .vsct h m ty d a b s => some (.mid { op := 0x0D, fn := 0x02, gp := h.gp.val, gn := h.gn.toNat, lu := h.lu.toNat, tmp := h.tmp.toNat, d := d.val, a := a.val, b := b.val, m := m.val, ty := ty.code, imm := s.val })
  | .tld h d a b rows rb => some (.mid { op := 0x14, fn := 0x00, gp := h.gp.val, gn := h.gn.toNat, lu := h.lu.toNat, tmp := h.tmp.toNat, d := (32 + d.val), a := a.val, b := b.val, imm := rows.toNat + 64 * rb.toNat })
  | .tldLiteral h d a rows rb lit => some (.long { op := 0x14, fn := 0x00, gp := h.gp.val, gn := h.gn.toNat, lu := h.lu.toNat, tmp := h.tmp.toNat, d := (32 + d.val), a := a.val, imm := rows.toNat + 64 * rb.toNat, lit := lit.toNat })
  | .tldT2 h d a b rows rb => some (.mid { op := 0x14, fn := 0x02, gp := h.gp.val, gn := h.gn.toNat, lu := h.lu.toNat, tmp := h.tmp.toNat, d := (32 + d.val), a := a.val, b := b.val, imm := rows.toNat + 64 * rb.toNat })
  | .tldT2Literal h d a rows rb lit => some (.long { op := 0x14, fn := 0x02, gp := h.gp.val, gn := h.gn.toNat, lu := h.lu.toNat, tmp := h.tmp.toNat, d := (32 + d.val), a := a.val, imm := rows.toNat + 64 * rb.toNat, lit := lit.toNat })
  | .tst h d a b rows rb => some (.mid { op := 0x14, fn := 0x01, gp := h.gp.val, gn := h.gn.toNat, lu := h.lu.toNat, tmp := h.tmp.toNat, d := (32 + d.val), a := a.val, b := b.val, imm := rows.toNat + 64 * rb.toNat })
  | .tstLiteral h d a rows rb lit => some (.long { op := 0x14, fn := 0x01, gp := h.gp.val, gn := h.gn.toNat, lu := h.lu.toNat, tmp := h.tmp.toNat, d := (32 + d.val), a := a.val, imm := rows.toNat + 64 * rb.toNat, lit := lit.toNat })
  | .tstT2 h d a b rows rb => some (.mid { op := 0x14, fn := 0x03, gp := h.gp.val, gn := h.gn.toNat, lu := h.lu.toNat, tmp := h.tmp.toNat, d := (32 + d.val), a := a.val, b := b.val, imm := rows.toNat + 64 * rb.toNat })
  | .tstT2Literal h d a rows rb lit => some (.long { op := 0x14, fn := 0x03, gp := h.gp.val, gn := h.gn.toNat, lu := h.lu.toNat, tmp := h.tmp.toNat, d := (32 + d.val), a := a.val, imm := rows.toNat + 64 * rb.toNat, lit := lit.toNat })
  | .tzero h d => some (.mid { op := 0x15, fn := 0x00, gp := h.gp.val, gn := h.gn.toNat, lu := h.lu.toNat, tmp := h.tmp.toNat, d := (32 + d.val) })
  | .tmov h d a => some (.mid { op := 0x15, fn := 0x01, gp := h.gp.val, gn := h.gn.toNat, lu := h.lu.toNat, tmp := h.tmp.toNat, d := (32 + d.val), a := (32 + a.val) })
  | .tr2v h d a row hi => some (.mid { op := 0x15, fn := 0x02, gp := h.gp.val, gn := h.gn.toNat, lu := h.lu.toNat, tmp := h.tmp.toNat, d := d.val, a := (32 + a.val), imm := row.toNat + 64 * hi.toNat })
  | .v2tr h d a row hi => some (.mid { op := 0x15, fn := 0x03, gp := h.gp.val, gn := h.gn.toNat, lu := h.lu.toNat, tmp := h.tmp.toNat, d := (32 + d.val), a := a.val, imm := row.toNat + 64 * hi.toNat })
  | .tdisc h list => some (.mid { op := 0x15, fn := 0x04, gp := h.gp.val, gn := h.gn.toNat, lu := h.lu.toNat, tmp := h.tmp.toNat, imm := list.toNat })
  | .tstat h d x => some (.mid { op := 0x15, fn := 0x05, gp := h.gp.val, gn := h.gn.toNat, lu := h.lu.toNat, tmp := h.tmp.toNat, d := d.val, a := x.code })
  | .wld h ty a => some (.mid { op := 0x16, fn := 0x00, gp := h.gp.val, gn := h.gn.toNat, lu := h.lu.toNat, tmp := h.tmp.toNat, d := 44, a := (32 + a.val), ty := ty.code })
  | .wldT2 h a => some (.mid { op := 0x16, fn := 0x02, gp := h.gp.val, gn := h.gn.toNat, lu := h.lu.toNat, tmp := h.tmp.toNat, d := 44, a := (32 + a.val) })
  | .wldT2Memory h a lit => some (.long { op := 0x16, fn := 0x00, gp := h.gp.val, gn := h.gn.toNat, lu := h.lu.toNat, tmp := h.tmp.toNat, d := 44, a := a.val, lit := lit.toNat })
  | .wldPip h a lit => some (.long { op := 0x16, fn := 0x01, gp := h.gp.val, gn := h.gn.toNat, lu := h.lu.toNat, tmp := h.tmp.toNat, d := 44, a := a.val, lit := lit.toNat })
  | .wflip h => some (.mid { op := 0x16, fn := 0x01, gp := h.gp.val, gn := h.gn.toNat, lu := h.lu.toNat, tmp := h.tmp.toNat })
  | .tmul h ty d a => some (.mid { op := 0x17, fn := 0x00, gp := h.gp.val, gn := h.gn.toNat, lu := h.lu.toNat, tmp := h.tmp.toNat, d := (40 + d.val), a := (32 + a.val), ty := ty.code })
  | .tmulT2i8 h d hi => some (.mid { op := 0x17, fn := 0x01, gp := h.gp.val, gn := h.gn.toNat, lu := h.lu.toNat, tmp := h.tmp.toNat, d := (40 + d.val), a := (if hi then 36 else 32) })
  | .tmulFlip h ty d a => some (.mid { op := 0x17, fn := 0x80, gp := h.gp.val, gn := h.gn.toNat, lu := h.lu.toNat, tmp := h.tmp.toNat, d := (40 + d.val), a := (32 + a.val), ty := ty.code })
  | .tmulFlipT2i8 h d hi => some (.mid { op := 0x17, fn := 0x81, gp := h.gp.val, gn := h.gn.toNat, lu := h.lu.toNat, tmp := h.tmp.toNat, d := (40 + d.val), a := (if hi then 36 else 32) })
  | .azero h d => some (.mid { op := 0x18, fn := 0x00, gp := h.gp.val, gn := h.gn.toNat, lu := h.lu.toNat, tmp := h.tmp.toNat, d := (40 + d.val) })
  | .aaddF32 h d a b => some (.mid { op := 0x18, fn := 0x01, gp := h.gp.val, gn := h.gn.toNat, lu := h.lu.toNat, tmp := h.tmp.toNat, d := (40 + d.val), a := (40 + a.val), b := (40 + b.val), ty := 12 })
  | .aaddI32 h d a b => some (.mid { op := 0x18, fn := 0x01, gp := h.gp.val, gn := h.gn.toNat, lu := h.lu.toNat, tmp := h.tmp.toNat, d := (40 + d.val), a := (40 + a.val), b := (40 + b.val), ty := 6 })
  | .ascale h d a b => some (.mid { op := 0x18, fn := 0x02, gp := h.gp.val, gn := h.gn.toNat, lu := h.lu.toNat, tmp := h.tmp.toNat, d := (40 + d.val), a := (40 + a.val), b := b.val, ty := 12 })
  | .ald h ty d a b => some (.mid { op := 0x18, fn := 0x03, gp := h.gp.val, gn := h.gn.toNat, lu := h.lu.toNat, tmp := h.tmp.toNat, d := (40 + d.val), a := a.val, b := b.val, ty := ty.code })
  | .ast h ty clamp d a b => some (.mid { op := 0x18, fn := 0x04, gp := h.gp.val, gn := h.gn.toNat, lu := h.lu.toNat, tmp := h.tmp.toNat, d := (40 + d.val), a := a.val, b := b.val, ty := ty.code, imm := clamp.toNat })
  | .a2t h ty clamp d a => some (.mid { op := 0x18, fn := 0x05, gp := h.gp.val, gn := h.gn.toNat, lu := h.lu.toNat, tmp := h.tmp.toNat, d := (32 + d.val), a := (40 + a.val), ty := ty.code, imm := clamp.toNat })
  | .roll h a b len => some (.mid { op := 0x19, fn := 0x00, gp := h.gp.val, gn := h.gn.toNat, lu := h.lu.toNat, tmp := h.tmp.toNat, a := a.val, b := b.val, imm := len.toNat })
  | .leave h d n => some (.mid { op := 0x19, fn := 0x01, gp := h.gp.val, gn := h.gn.toNat, lu := h.lu.toNat, tmp := h.tmp.toNat, d := d.val, imm := n.toNat })
  | .leaveRet h => some (.mid { op := 0x19, fn := 0x02, gp := h.gp.val, gn := h.gn.toNat, lu := h.lu.toNat, tmp := h.tmp.toNat })
  | .dcp h d a ch => some (.mid { op := 0x1C, fn := 0x00, gp := h.gp.val, gn := h.gn.toNat, lu := h.lu.toNat, tmp := h.tmp.toNat, d := d.val, a := a.val, imm := ch.val })
  | .dcpLiteral h d a ch lit => some (.long { op := 0x1C, fn := 0x00, gp := h.gp.val, gn := h.gn.toNat, lu := h.lu.toNat, tmp := h.tmp.toNat, d := d.val, a := a.val, imm := ch.val, lit := lit.toNat })
  | .dcpw h a ch => some (.mid { op := 0x1C, fn := 0x01, gp := h.gp.val, gn := h.gn.toNat, lu := h.lu.toNat, tmp := h.tmp.toNat, a := a.val, imm := ch.val })
  | .dcps h d ch => some (.mid { op := 0x1C, fn := 0x02, gp := h.gp.val, gn := h.gn.toNat, lu := h.lu.toNat, tmp := h.tmp.toNat, d := d.val, imm := ch.val })
  | .dcpx h ch => some (.mid { op := 0x1C, fn := 0x03, gp := h.gp.val, gn := h.gn.toNat, lu := h.lu.toNat, tmp := h.tmp.toNat, imm := ch.val })
  | .rput h d a b f => some (.mid { op := 0x20, fn := 0x00, gp := h.gp.val, gn := h.gn.toNat, lu := h.lu.toNat, tmp := h.tmp.toNat, d := d.val, a := a.val, b := b.val, imm := f.toNat })
  | .rputLong h d a b lit => some (.long { op := 0x20, fn := 0x00, gp := h.gp.val, gn := h.gn.toNat, lu := h.lu.toNat, tmp := h.tmp.toNat, d := d.val, a := a.val, b := b.val, lit := lit.toNat })
  | .rget h d a b => some (.mid { op := 0x20, fn := 0x01, gp := h.gp.val, gn := h.gn.toNat, lu := h.lu.toNat, tmp := h.tmp.toNat, d := d.val, a := a.val, b := b.val })
  | .ratomAdd h ty d a b => some (.mid { op := 0x20, fn := 0x02, gp := h.gp.val, gn := h.gn.toNat, lu := h.lu.toNat, tmp := h.tmp.toNat, d := d.val, a := a.val, b := b.val, ty := ty.code })
  | .ratomAnd h ty d a b => some (.mid { op := 0x20, fn := 0x02, gp := h.gp.val, gn := h.gn.toNat, lu := h.lu.toNat, tmp := h.tmp.toNat, d := d.val, a := a.val, b := b.val, ty := ty.code, imm := 1 })
  | .ratomOr h ty d a b => some (.mid { op := 0x20, fn := 0x02, gp := h.gp.val, gn := h.gn.toNat, lu := h.lu.toNat, tmp := h.tmp.toNat, d := d.val, a := a.val, b := b.val, ty := ty.code, imm := 2 })
  | .ratomXor h ty d a b => some (.mid { op := 0x20, fn := 0x02, gp := h.gp.val, gn := h.gn.toNat, lu := h.lu.toNat, tmp := h.tmp.toNat, d := d.val, a := a.val, b := b.val, ty := ty.code, imm := 3 })
  | .ratomMin h ty d a b => some (.mid { op := 0x20, fn := 0x02, gp := h.gp.val, gn := h.gn.toNat, lu := h.lu.toNat, tmp := h.tmp.toNat, d := d.val, a := a.val, b := b.val, ty := ty.code, imm := 4 })
  | .ratomMax h ty d a b => some (.mid { op := 0x20, fn := 0x02, gp := h.gp.val, gn := h.gn.toNat, lu := h.lu.toNat, tmp := h.tmp.toNat, d := d.val, a := a.val, b := b.val, ty := ty.code, imm := 5 })
  | .ratomSwap h ty d a b => some (.mid { op := 0x20, fn := 0x02, gp := h.gp.val, gn := h.gn.toNat, lu := h.lu.toNat, tmp := h.tmp.toNat, d := d.val, a := a.val, b := b.val, ty := ty.code, imm := 6 })
  | .ratomFadd h ty d a b => some (.mid { op := 0x20, fn := 0x02, gp := h.gp.val, gn := h.gn.toNat, lu := h.lu.toNat, tmp := h.tmp.toNat, d := d.val, a := a.val, b := b.val, ty := ty.code, imm := 7 })
  | .rcas h ty d a b => some (.mid { op := 0x20, fn := 0x03, gp := h.gp.val, gn := h.gn.toNat, lu := h.lu.toNat, tmp := h.tmp.toNat, d := d.val, a := a.val, b := b.val, ty := ty.code })
  | .wcntArr h d a => some (.mid { op := 0x20, fn := 0x04, gp := h.gp.val, gn := h.gn.toNat, lu := h.lu.toNat, tmp := h.tmp.toNat, d := d.val, a := a.val })
  | .wcntIss h d a => some (.mid { op := 0x20, fn := 0x04, gp := h.gp.val, gn := h.gn.toNat, lu := h.lu.toNat, tmp := h.tmp.toNat, d := d.val, a := a.val, imm := 1 })
  | .wcntDone h d a => some (.mid { op := 0x20, fn := 0x04, gp := h.gp.val, gn := h.gn.toNat, lu := h.lu.toNat, tmp := h.tmp.toNat, d := d.val, a := a.val, imm := 2 })
  | .rfence h a => some (.mid { op := 0x20, fn := 0x05, gp := h.gp.val, gn := h.gn.toNat, lu := h.lu.toNat, tmp := h.tmp.toNat, a := a.val })
  | .rpart h d a lit => some (.long { op := 0x24, fn := 0x00, gp := h.gp.val, gn := h.gn.toNat, lu := h.lu.toNat, tmp := h.tmp.toNat, d := d.val, a := a.val, lit := lit.toNat })
  | .rpstat h d a => some (.mid { op := 0x24, fn := 0x00, gp := h.gp.val, gn := h.gn.toNat, lu := h.lu.toNat, tmp := h.tmp.toNat, d := d.val, a := a.val })
  | .cbar h a => some (.mid { op := 0x24, fn := 0x01, gp := h.gp.val, gn := h.gn.toNat, lu := h.lu.toNat, tmp := h.tmp.toNat, a := a.val })
  | .credAdd h ty d a b => some (.mid { op := 0x24, fn := 0x02, gp := h.gp.val, gn := h.gn.toNat, lu := h.lu.toNat, tmp := h.tmp.toNat, d := d.val, a := a.val, b := b.val, ty := ty.code })
  | .credMin h ty d a b => some (.mid { op := 0x24, fn := 0x02, gp := h.gp.val, gn := h.gn.toNat, lu := h.lu.toNat, tmp := h.tmp.toNat, d := d.val, a := a.val, b := b.val, ty := ty.code, imm := 1 })
  | .credMax h ty d a b => some (.mid { op := 0x24, fn := 0x02, gp := h.gp.val, gn := h.gn.toNat, lu := h.lu.toNat, tmp := h.tmp.toNat, d := d.val, a := a.val, b := b.val, ty := ty.code, imm := 2 })
  | .cast h d a => some (.mid { op := 0x28, fn := 0x00, gp := h.gp.val, gn := h.gn.toNat, lu := h.lu.toNat, tmp := h.tmp.toNat, d := d.val, a := a.val })
  | .exit h a => some (.mid { op := 0x28, fn := 0x01, gp := h.gp.val, gn := h.gn.toNat, lu := h.lu.toNat, tmp := h.tmp.toNat, a := a.val })
  | .gong h => some (.mid { op := 0x28, fn := 0x02, gp := h.gp.val, gn := h.gn.toNat, lu := h.lu.toNat, tmp := h.tmp.toNat })
  | .post h d a b => some (.mid { op := 0x28, fn := 0x03, gp := h.gp.val, gn := h.gn.toNat, lu := h.lu.toNat, tmp := h.tmp.toNat, d := d.val, a := a.val, b := b.val })
  | .take h d => some (.mid { op := 0x28, fn := 0x04, gp := h.gp.val, gn := h.gn.toNat, lu := h.lu.toNat, tmp := h.tmp.toNat, d := d.val })
  | .prio h a b => some (.mid { op := 0x28, fn := 0x05, gp := h.gp.val, gn := h.gn.toNat, lu := h.lu.toNat, tmp := h.tmp.toNat, a := a.val, b := b.val })
  | .cinv h d a b => some (.mid { op := 0x2C, fn := 0x00, gp := h.gp.val, gn := h.gn.toNat, lu := h.lu.toNat, tmp := h.tmp.toNat, d := d.val, a := a.val, b := b.val })
  | .cinvRe h d a b => some (.mid { op := 0x2C, fn := 0x01, gp := h.gp.val, gn := h.gn.toNat, lu := h.lu.toNat, tmp := h.tmp.toNat, d := d.val, a := a.val, b := b.val })
  | .stest h d a => some (.mid { op := 0x2C, fn := 0x02, gp := h.gp.val, gn := h.gn.toNat, lu := h.lu.toNat, tmp := h.tmp.toNat, d := d.val, a := a.val })
  | .thint h d a b pr => some (.mid { op := 0x2C, fn := 0x03, gp := h.gp.val, gn := h.gn.toNat, lu := h.lu.toNat, tmp := h.tmp.toNat, d := d.val, a := a.val, b := b.val, imm := pr.val })
  | .step h d a => some (.mid { op := 0x2C, fn := 0x04, gp := h.gp.val, gn := h.gn.toNat, lu := h.lu.toNat, tmp := h.tmp.toNat, d := d.val, a := a.val })
  | .subup h a => some (.mid { op := 0x2C, fn := 0x05, gp := h.gp.val, gn := h.gn.toNat, lu := h.lu.toNat, tmp := h.tmp.toNat, a := a.val })
  | .bellqPeal h d => some (.mid { op := 0x2C, fn := 0x06, gp := h.gp.val, gn := h.gn.toNat, lu := h.lu.toNat, tmp := h.tmp.toNat, d := d.val })
  | .bellqLen h d => some (.mid { op := 0x2C, fn := 0x06, gp := h.gp.val, gn := h.gn.toNat, lu := h.lu.toNat, tmp := h.tmp.toNat, d := d.val, imm := 1 })
  | .bellqNext h d => some (.mid { op := 0x2C, fn := 0x06, gp := h.gp.val, gn := h.gn.toNat, lu := h.lu.toNat, tmp := h.tmp.toNat, d := d.val, imm := 2 })
  | .bellw h => some (.mid { op := 0x2C, fn := 0x07, gp := h.gp.val, gn := h.gn.toNat, lu := h.lu.toNat, tmp := h.tmp.toNat })
  | .tileDrain => none
  | .engineChoice => none
  | .engineStreamEnd => none
  | .leaveGrant => none
  | .recordSnapshot => none
  | .copyChunk => none
  | .cpbindWrite => none
  | .remoteOperationArrival => none
  | .remoteOperationEnd => none
  | .remoteOperationTimeout => none
  | .collectiveJoin => none
  | .collectiveTimeout => none
  | .rpartCommit => none
  | .rpartEnd => none
  | .taskDistribution => none
  | .taskPlacement => none
  | .levelling => none
  | .shareEnd => none
  | .windowRegister => none
  | .windowRelease => none
  | .taskPreempt => none
  | .taskKill => none
  | .taskQuery => none
  | .derive => none
  | .serviceRestart => none
  | .migratorHint => none
  | .migrationMoveEnd => none
  | .migpoolWrite => none
  | .rds => none
  | .rdf => none
  | .rdo => none
  | .up => none
  | .wt => none
  | .wb => none
  | .dr => none
  | .am => none
  | .iv => none
  | .ud => none
  | .rc => none
  | .ak => none
  | .eviction => none
  | .stalePointerScrub => none
  | .irdEnable => none
  | .irdDisable => none
  | .fwEnable => none
  | .fwInvalidate => none
  | .fwInvalidateEnd => none
  | .keyProgram => none
  | .keyRetire => none
  | .keyRetireEnd => none
  | .melheadCons => none
  | .slctlApply => none
  | .sliceDrainEnd => none
  | .timerExpiry => none
  | .interrupt => none
  | .xprqWrite => none
  | .forcedPreemption => none
  | .taskResume => none
  | .partitionSwap => none
  | .xctlKill => none
  | .bellBegin => none
  | .greatBellBegin => none
  | .bellEnd => none
  | .bellExtension => none
  | .drainWindowBegin => none
  | .powerControllerUpdate => none
  | .ringHeaterTrack => none
  | .selfTestRun => none
  | .selfTestEnd => none
  | .machineCheckEvent => none
  | .turnBoundary => none
  | .flitReceive => none
  | .flitAckTimeout => none
  | .packetSend => none
  | .relayForward => none
  | .electionTrigger => none
  | .claimSend => none
  | .claimReceive => none
  | .acknowledgementReceive => none
  | .claimAbandon => none
  | .heartbeatReceive => none
  | .tableSetReceive => none
  | .powerOnReset => none
  | .moduleResetCommand => none
  | .partitionEnable => none
  | .partitionDisable => none
  | .drstGo => none
  | .warmResetRetrain => none
  | .getVersion => none
  | .getCapabilities => none
  | .negotiateAlgorithms => none
  | .getDigests => none
  | .getCertificate => none
  | .challenge => none
  | .getMeasurements => none
  | .hostRequest => none
  | .hostLinkDown => none
  | .debugStop => none
  | .registerWrite => none
  | .hostLinkUp => none
  | .debugToken => none
  | .tableSequenceReport => none

/-- How many bytes an encoded instruction has (R24). -/
def Enc.size : Enc → Nat
  | .short _ => 4
  | .mid _ => 8
  | .long _ => 12

/-- The word of an encoded instruction as one number. -/
def Enc.word : Enc → Nat
  | .short w => w
  | .mid r => packM 1 r
  | .long r => packM 3 r

/-- The bytes of an instruction, in the order memory holds them (R24). -/
def encode (i : Instr) : Option (List Byte) :=
  i.fields.map fun e => bytesOfNum e.size e.word

/-- The instruction this decoder reads from the word `w` of `nbits` bits, every bit above them zero. -/
noncomputable def decodeTableWord (nbits w : Nat) : Option Instr :=
  match decode (bytesOfNum 12 (w % 2 ^ nbits)) with
  | .ok (i, _) => some i
  | .error _ => none

end Sys2Proof
end

