-- ==== Sys2Proof/Machine/Bits.lean ====
section
/-!
DEFINITION. Bit fields, extensions and byte order, decided once (R4, R10, R41).
-/
namespace Sys2Proof.Machine

/-- Bits [lo + n - 1 : lo] of a word, as a number. -/
def fld (w : Word) (lo n : Nat) : Nat := bits w.toNat lo n

/-- Bit `i` of a word. -/
def bit (w : Word) (i : Nat) : Bool := w.getLsbD i

/-- A word with bits [lo + n - 1 : lo] replaced by the low bits of `x`. -/
def setFld (w : Word) (lo n x : Nat) : Word :=
  (w &&& ~~~ (BitVec.ofNat 64 ((2 ^ n - 1) * 2 ^ lo))) ||| BitVec.ofNat 64 (x % 2 ^ n * 2 ^ lo)

/-- `new` in the bits of `mask`, `old` elsewhere: a register write with read-only fields (R5). -/
def mergeMask (mask old new : Word) : Word := (old &&& ~~~ mask) ||| (new &&& mask)

/-- The two's-complement value of the low `n` bits of `x`. -/
def sextN (n x : Nat) : Int :=
  let y := x % 2 ^ n
  if 2 * y < 2 ^ n then (y : Int) else (y : Int) - (2 : Int) ^ n

/-- An integer as an `n`-bit pattern (R67). -/
def wrapN (n : Nat) (x : Int) : Nat := (x % (2 : Int) ^ n).toNat

/-- An integer as a word (R67). -/
def toWord (x : Int) : Word := BitVec.ofNat 64 (wrapN 64 x)

def b2n (b : Bool) : Nat := if b then 1 else 0
def boolWord (b : Bool) : Word := if b then 1 else 0

/-- `x` rounded down to a multiple of `n`. -/
def alignDown (x n : Nat) : Nat := x / n * n

/-- Element `i` of width `w` bits of a packed number (R41's Lane). -/
def elemN (x w i : Nat) : Nat := bits x (w * i) w

/-- The packed number of elements of `w` bits, element 0 lowest. -/
def packN (w : Nat) : List Nat → Nat
  | [] => 0
  | x :: xs => x % 2 ^ w + 2 ^ w * packN w xs

/-- The first `n` elements of `w` bits of a packed number. -/
def unpackN (w : Nat) : Nat → Nat → List Nat
  | 0, _ => []
  | n + 1, x => x % 2 ^ w :: unpackN w n (x / 2 ^ w)

/-- The bits of the byte mask `m` (one bit a byte), spread to eight bits each, for `n` bytes. -/
def byteMask : Nat → Nat → Nat
  | 0, _ => 0
  | n + 1, m => (if m % 2 = 1 then 255 else 0) + 256 * byteMask n (m / 2)

/-- The number `old` with `n` bytes at byte offset `o` replaced by the low bytes of `x`. -/
def setBytes (old o n x : Nat) : Nat :=
  old % 2 ^ (8 * o) + 2 ^ (8 * o) * (x % 2 ^ (8 * n)) + 2 ^ (8 * (o + n)) * (old / 2 ^ (8 * (o + n)))

end Sys2Proof.Machine
end

