-- ==== Sys2Proof/Machine/Aes.lean ====
section
/-!
DEFINITION. AES-256-XTS as the memory controllers apply it to a data unit of 32 bytes (R109): two AES blocks under the tweak of
the unit's address divided by 32. A block is a 128-bit number, its first byte lowest; so is a key (log 125).
-/
namespace Sys2Proof.Machine

/-- The substitution of AES and its inverse, byte i at bits [8i + 7:8i]. -/
def aesSbox : Nat :=
  packN 256 [0xc072a49cafa2d4adf04759fa7dc982ca76abd7fe2b670130c56f6bf27b777c63,
    0x75b227ebe28012079a059618c323c7041531d871f1e5a534ccf73f362693fdb7,
    0xcf584c4a39becb6a5bb1fc20ed00d153842fe329b3d63b52a05a6e1b1a2c8309,
    0xd2f3ff1021dab6bcf5389d928f40a351a89f3c507f02f94585334d43fbaaefd0,
    0xdb0b5ede14b8ee4688902a22dc4f816073195d643d7ea7c41744975fec130ccd,
    0x08ae7a65eaf4566ca94ed58d6d37c8e779e4959162acd3c25c2406490a3a32e0,
    0x9e1dc186b95735610ef6034866b53e708a8bbd4b1f74dde8c6b4a61c2e2578ba,
    0x16bb54b00f2d99416842e6bf0d89a18cdf2855cee9871e9b948ed9691198f8e1]
def aesSboxInv : Nat :=
  packN 256 [0xcbe9dec444438e3487ff2f9b8239e37cfbd7f3819ea340bf38a53630d56a0952,
    0x25d18b6d49a25b76b224d92866a12e084ec3fa420b954cee3d23c2a632947b54,
    0x849d8da75746155edab9edfd5048706c92b6655dcc5ca4d41698688664f6f872,
    0x6b8a130103bdafc1020f3fca8f1e2cd00645b3b80558e4f70ad3bc8c00abd890,
    0x6edf751ce837f9e28535ade72274ac9673e6b4f0cecff297eadc674f4111913a,
    0xf45acd78fec0db9a2079d2c64b3e56fc1bbe18aa0e62b76f89c5291d711af147,
    0xef9cc9939f7ae52d0d4ab519a97f51605fec8027591012b131c7078833a8dd1f,
    0x7d0c2155631469e126d677ba7e042b17619953833cbbebc8b0f52aae4d3be0a0]

/-- A byte times x in the field of AES. -/
def aesDouble (x : Nat) : Nat := if x < 128 then 2 * x else (2 * x - 256) ^^^ 0x1B
/-- A byte times a 4-bit constant. -/
def aesTimes (k x : Nat) : Nat :=
  let d := aesDouble x
  let q := aesDouble d
  (if k % 2 = 1 then x else 0) ^^^ (if k / 2 % 2 = 1 then d else 0) ^^^ (if k / 4 % 2 = 1 then q else 0)
    ^^^ (if k / 8 % 2 = 1 then aesDouble q else 0)

/-- Every byte of n replaced through a substitution. -/
def aesSub (box n x : Nat) : Nat := packN 8 ((unpackN 8 n x).map fun b => bits box (8 * b) 8)
/-- Byte i of the result is byte f i of the block. -/
def aesPermute (f : Nat → Nat) (x : Nat) : Nat := packN 8 ((List.range 16).map fun i => elemN x 8 (f i))
/-- Each column times the circulant matrix whose first row is the four factors. -/
def aesMix (k0 k1 k2 k3 x : Nat) : Nat :=
  packN 8 ((List.range 16).map fun i =>
    let b (j : Nat) : Nat := elemN x 8 (i / 4 * 4 + (i + j) % 4)
    aesTimes k0 (b 0) ^^^ aesTimes k1 (b 1) ^^^ aesTimes k2 (b 2) ^^^ aesTimes k3 (b 3))

/-- The key schedule: 32-bit words, eight of the key and then n more; i counts words and rcon is the next round constant. -/
def aesWords : Nat → Nat → Nat → List Nat → List Nat
  | 0, _, _, ws => ws
  | n + 1, i, rcon, ws =>
    let t := ws.getD (i - 1) 0
    let u := if i % 8 = 0 then aesSub aesSbox 4 (t / 2 ^ 8 + t % 2 ^ 8 * 2 ^ 24) ^^^ rcon
      else if i % 8 = 4 then aesSub aesSbox 4 t else t
    aesWords n (i + 1) (if i % 8 = 0 then aesDouble rcon else rcon) (ws ++ [ws.getD (i - 8) 0 ^^^ u])
/-- The fifteen round keys of a 256-bit key. -/
def aesKeys (key : Nat) : List Nat :=
  let ws := aesWords 52 8 1 (unpackN 32 8 key)
  (List.range 15).map fun r => packN 32 ((List.range 4).map fun j => ws.getD (4 * r + j) 0)

/-- A round of AES-256 and its inverse; the last has no column step. -/
def aesRound (last : Bool) (x k : Nat) : Nat :=
  let y := aesPermute (fun i => (i / 4 + i % 4) % 4 * 4 + i % 4) (aesSub aesSbox 16 x)
  (if last then y else aesMix 2 3 1 1 y) ^^^ k
def aesUnround (last : Bool) (x k : Nat) : Nat :=
  let y := x ^^^ k
  let y := if last then y else aesMix 14 11 13 9 y
  aesSub aesSboxInv 16 (aesPermute (fun i => (i / 4 + 4 - i % 4) % 4 * 4 + i % 4) y)

/-- AES-256 on one block, and its inverse. -/
def aesEncrypt (key x : Nat) : Nat :=
  let ks := aesKeys key
  aesRound true (((ks.drop 1).take 13).foldl (aesRound false) (x ^^^ ks.getD 0 0)) (ks.getD 14 0)
def aesDecrypt (key x : Nat) : Nat :=
  let ks := aesKeys key
  ((ks.drop 1).take 13).reverse.foldl (aesUnround false) (aesUnround true x (ks.getD 14 0)) ^^^ ks.getD 0 0

/-- A tweak times α: the next block's. -/
def xtsNext (t : Nat) : Nat := (2 * t % 2 ^ 128) ^^^ (if t < 2 ^ 127 then 0 else 0x87)
/-- What XTS makes of a 32-byte unit with a block function: the tweak is the unit's number under the tweak key, bits [511:256] of
the pair (R109, R110). -/
def xtsUnit (f : Nat → Nat → Nat) (pair unit x : Nat) : Nat :=
  let t0 := aesEncrypt (bits pair 256 256) unit
  let t1 := xtsNext t0
  (f (bits pair 0 256) (bits x 0 128 ^^^ t0) ^^^ t0) + 2 ^ 128 * (f (bits pair 0 256) (bits x 128 128 ^^^ t1) ^^^ t1)
def xtsEncrypt (pair unit x : Nat) : Nat := xtsUnit aesEncrypt pair unit x
def xtsDecrypt (pair unit x : Nat) : Nat := xtsUnit aesDecrypt pair unit x

/-- The bytes of a unit written under one key pair as another deciphers them. -/
def xtsRead (old new unit x : Nat) : Nat := if old = new then x else xtsDecrypt new unit (xtsEncrypt old unit x)

end Sys2Proof.Machine
end

