-- ==== Sys2Proof/Machine/Tab.lean ====
section
/-!
DEFINITION. Sparse tables: plain lists of (key, value) pairs in one canonical form. The keys rise strictly, and no
entry holds the value that an unlisted key reads as, so equal tables are equal lists. Every bank of registers, cache
lines, strands and engines of the machine is one of these, and so is memory.
-/
namespace Sys2Proof.Machine

/-- A table with keys in `Nat`. -/
abbrev Tab (α : Type) := List (Nat × α)

namespace Tab

/-- The value at key `k`; an unlisted key reads as `d`. -/
def get {α : Type} (d : α) : Tab α → Nat → α
  | [], _ => d
  | (k', v) :: t, k => if k' = k then v else get d t k

/-- The table without the entries whose key satisfies `p`. -/
def drop {α : Type} (p : Nat → Bool) (t : Tab α) : Tab α := t.filter fun e => !p e.1

/-- An entry put at its place in the order of keys. -/
def insert {α : Type} (k : Nat) (v : α) : Tab α → Tab α
  | [] => [(k, v)]
  | (k', v') :: t => if k < k' then (k, v) :: (k', v') :: t else (k', v') :: insert k v t

/-- The table with `v` at key `k`, in canonical form for the default `d`. -/
def set {α : Type} [DecidableEq α] (d : α) (t : Tab α) (k : Nat) (v : α) : Tab α :=
  if v = d then drop (· == k) t else insert k v (drop (· == k) t)

/-- Every key of the table is above `k`. -/
def above {α : Type} (k : Nat) (t : Tab α) : Bool := t.all fun p => k < p.1

/-- The canonical form: keys strictly rising, no default value. -/
def wf {α : Type} [DecidableEq α] (d : α) : Tab α → Bool
  | [] => true
  | (k, v) :: t => above k t && decide (v ≠ d) && wf d t

end Tab

end Sys2Proof.Machine
end

