-- ==== Sys2Proof/Machine/State.lean ====
section
/-!
DEFINITION. The state of the module: everything the manual names, as plain data, and the state after reset. Banks that
are large and mostly at their reset value are sparse tables in canonical form (Machine/Tab.lean). The fields that are the
model's own say so.
-/
namespace Sys2Proof.Machine

/-! ## Memory, caches and translation -/

/-- The tag of a line of a private cache (R117, at 128-byte granularity: R152): physical or logical address div 128,
KeyID, format, element type, mode. -/
structure Tag where
  line : Nat
  key : Nat
  fmt : Nat
  etype : Nat
  mode : Nat
deriving DecidableEq, Repr

/-- A line of a private cache (R152): data with a valid and a dirty bit for each 4-byte word, the stamp it was filled
under (R153), whether its page has RO = 1 (R155), the temporal class of the instruction that last chose it (R34: 1 stream,
2 keep, otherwise normal), the grain of the mapping that last wrote it (R119, R120), and the TTAG of the task that last wrote it (R140). -/
structure Line where
  tag : Tag
  data : LineData
  valid : BitVec 32
  dirty : BitVec 32
  stamp : BitVec 8
  ro : Bool
  tmp : Nat
  grain : Nat
  ttag : Nat
deriving DecidableEq, Repr

/-- A private cache: its stamp (R153) and its lines, most recently used first (R152). -/
structure PCache where
  stamp : BitVec 8
  lines : List Line
deriving DecidableEq, Repr

/-- An empty cache, as after reset (R433). -/
def PCache.empty : PCache := { stamp := 0, lines := [] }

/-- A sharer pointer of a directory entry (R121). -/
structure Ptr where
  agent : Nat
  inc : Nat
  fmt : Nat
  etype : Nat
  mode : Nat
deriving DecidableEq, Repr

/-- The sharers of a grain: pointers, or a coarse vector with the incarnation of each agent it names (R121, R122). -/
inductive Sharers where
  | ptrs (l : List Ptr)
  | coarse (l : List (Nat × Nat))
deriving DecidableEq, Repr

/-- What the directory holds about one grain (R121, R124): the owner in DE and DO with its incarnation, whether the
owner's copy is dirty, the home's own copy while it is (R137), and the sharers. -/
structure Grain where
  owner : Option (Nat × Nat)
  dirty : Bool
  homeCopy : Option Nat
  sharers : Sharers
  /-- an owner outside the module has supplied its data and keeps it owned: the home has the value (R126) -/
  supplied : Bool := false
deriving DecidableEq, Repr

/-- A grain that no agent but the home die holds: state DI (R124). -/
def Grain.di : Grain := { owner := Option.none, dirty := false, homeCopy := Option.none, sharers := .ptrs [] }

/-- A directory entry of a 512-byte line under one KeyID: the grain in bytes and the state of each grain (R119 to R124). -/
structure DirEntry where
  grain : Nat
  grains : List Grain
deriving DecidableEq, Repr

/-- No entry: every grain in DI. -/
def DirEntry.empty : DirEntry := { grain := 512, grains := [] }

/-- A line that a die cache holds: its agent, its tag (line address div 512) and its 16 sector-valid bits (R116, R117). The
value of a line homed in this module is memory's (log 9); a line homed in another member of the coherence set keeps its
bytes here, and says whether the agent owns it and whether it has written it (R126, R313). -/
structure DieLine where
  agent : Nat
  tag : Tag
  valid : BitVec 16
  data : BitVec 4096 := 0
  own : Bool := false
  dirty : Bool := false
deriving DecidableEq, Repr

/-- The written words of a decoded 512-byte line of an L6 window at its home slice (R105 to R107), with a dirty bit for
each 4-byte word. -/
structure DecLine where
  data : BitVec 4096
  dirty : BitVec 128
deriving DecidableEq, Repr

/-- A decoded line with no written word. -/
def DecLine.clean : DecLine := { data := 0, dirty := 0 }

/-- A translation held by a TLB (R150): the partition and address space it serves, its virtual base and size, the frame,
and the leaf entry it was made from with the A and D bits it carries. -/
structure TlbEntry where
  part : Nat
  asn : Nat
  glob : Bool
  vbase : Nat
  size : Nat
  frame : Nat
  attr : Word
deriving DecidableEq, Repr

/-- An entry of the memory error log (R112). -/
structure MelEntry where
  key : Nat
  part : Nat
  req : Nat
  cause : Nat
  seq : Nat
  addr : Nat
deriving DecidableEq, Repr

/-- An entry of the log that has not been written. -/
def MelEntry.blank : MelEntry := { key := 0, part := 0, req := 0, cause := 0, seq := 0, addr := 0 }

/-- A hint that the migrator keeps for one 2 MiB page (R100): its partition, ASN, virtual address, step and priority, the
page's capacity frame, the pool frame it occupies when promoted, and where its leaf entries lie with the KeyIDs of the table
and of the page. -/
structure PageHint where
  part : Nat
  asn : Nat
  va : Nat
  step : Nat
  prio : Nat
  home : Nat
  pool : Option Nat
  leaf : Nat
  tkey : Nat
  key : Nat
  /-- what the leaf entries hold beside FRAME, A and D: the entry that a move expects (R101) -/
  attr : Word := 0
  /-- the hint is dropped by an abandoned demotion (R101), and the page still occupies its pool frame -/
  dropped : Bool := false
deriving DecidableEq, Repr

/-- A range that `thint` has queued (R102), with the translation registers of its strand. -/
structure HintRange where
  part : Nat
  asn : Nat
  ptbase : Word
  keys : List (Option Nat)
  base : Nat
  len : Nat
  step : Nat
  prio : Nat
deriving DecidableEq, Repr

/-- A migrator move in flight (R101): the page, whether it is a promotion, and the frames it goes between. -/
structure MigMove where
  part : Nat
  asn : Nat
  va : Nat
  up : Bool
  src : Nat
  dst : Nat
deriving DecidableEq, Repr

/-- A disabled interleave region whose channels no other region has used since (R96): GRAN, DMASK, BASE, LIMIT, CHAN, and
what it holds. -/
structure RegionMemo where
  gran : Nat
  dmask : Nat
  base : Nat
  limit : Nat
  chan : Nat
  /-- its bytes and its poisoned sectors while it is disabled -/
  cells : List Host.Cell
  poison : Tab Nat
deriving DecidableEq, Repr

/-! ## Strands -/

/-- What a strand position does: it is free, it runs, it has halted (R377), or it has stopped for good (R371, R407). -/
inductive Run where
  | free | running | halted | stopped
deriving DecidableEq, Repr

/-- One row of a tile or accumulator store that has retired and not yet drained (R267, R268): where it goes, and its
bytes. -/
structure DrainRow where
  va : Nat
  pa : Nat
  n : Nat
  key : Nat
  attr : Word
  data : Nat
  /-- the temporal class of the store (R34) -/
  tmp : Nat := 0
deriving DecidableEq, Repr

/-- A retired tile or accumulator store that is draining (R267): whether it stores an accumulator, the physical tile it
reads, and its rows. -/
structure Drain where
  acc : Bool
  phys : Nat
  rows : List DrainRow
deriving DecidableEq, Repr

/-- An operand-tile or plane register (R257): the identity of its physical tile within the strand's share of the pool,
0 when the register is zero-mapped (R264); the value; the mode tag of a plane (R282); the discardable bit (R265). -/
structure TileReg where
  phys : Nat
  val : Tile
  tag : Nat
  disc : Bool
deriving DecidableEq, Repr

/-- A zero-mapped tile register (R264). -/
def TileReg.zero : TileReg := { phys := 0, val := 0, tag := 0, disc := false }

/-- An accumulator register (R257). -/
structure AccReg where
  phys : Nat
  val : Acc
  disc : Bool
deriving DecidableEq, Repr

/-- A zero-mapped accumulator (R264). -/
def AccReg.zero : AccReg := { phys := 0, val := 0, disc := false }

/-- A `tmul` that waits for its engine (R284, R291): its mode code (R281), destination, activation tile or the first of
its quad, whether it flips first, whether its last-use hint kills the activation, its length in bytes, and whether it is
set aside for credits (R285). -/
structure MulOp where
  mode : Nat
  d : Nat
  a : Nat
  flip : Bool
  kill : Bool
  len : Nat
  aside : Bool
  /-- XINFO of the engine check that it raises once its strand's drains have ended (R270, R280) -/
  bad : Option Nat := none
deriving DecidableEq, Repr

/-- A home-place write that the strand's instruction has performed and whose acknowledgements it awaits (R130): its KeyID,
its first byte and length at the home, and the value that the instruction answers. -/
structure Performed where
  key : Nat
  addr : Nat
  n : Nat
  old : Nat
deriving DecidableEq, Repr

/-- A coherence message that this module has sent to the home of another member (R125, R313). -/
inductive CohKind where
  | rds | rdf | rdo | up | wt | wb | dr | am | ak | rc
deriving DecidableEq, Repr
structure CohSend where
  kind : CohKind
  msg : CohMsg
  mask : Nat
deriving DecidableEq, Repr

/-- What the home answers to a request of an agent outside the module (R125, R126): a shared, exclusive or modified copy,
write-through only, the old value of an atomic, a write that is complete, or an error response. -/
inductive CohGrant where
  | shared | exclusive | modified | throughOnly | old | written | error (cause : Nat)
deriving DecidableEq, Repr
/-- A reply to a request: the request, with the bytes that the reply carries (R125). -/
structure CohReply where
  grant : CohGrant
  msg : CohMsg
deriving DecidableEq, Repr

/-- The reply of the service engine (R387): refused with a subcause of the capability cause, or answered. -/
inductive Reply where
  | refused (sub : Nat)
  | answered (status detail : Nat) (res0 res1 eseq : Word)
deriving DecidableEq, Repr

/-- A call that the service engine has been sent and its reply, once it is made; whether the engine found the same call in
progress when it arrived (R387). -/
structure Call where
  call : SvcCall
  reply : Option Reply
  replayed : Bool := false
deriving DecidableEq, Repr

/-- A strand position with its registers (R41, R48, R55). Registers 1 to 31 (1 to 7) are listed sparsely, unlisted ones
hold 0; `p` holds p1 to p7 in bits 1 to 7. -/
structure Strand where
  run : Run
  pc : Word
  /-- privilege: true at S -/
  sup : Bool
  g : Tab Word
  v : Tab Vec
  p : BitVec 8
  m : Tab Word
  ttag : Word
  tidx : Word
  gidx : Word
  gsz : Word
  castp : Word
  xvec : Word
  xdvec : Word
  xpin : Word
  xpc : Word
  xcause : Word
  xaddr : Word
  xinfo : Word
  xstat : Word
  xscr : Word
  xcause2 : Word
  xpc2 : Word
  xaddr2 : Word
  xlvl : Word
  xmask : Word
  xctl : Word
  xprq : Word
  xpdl : Word
  xsave : Word
  ptbase : Word
  asn : Word
  keyl : Word
  /-- the key list loaded at the last write of KEYL (R149): selector k names the KeyID at key k plus one; 0 is invalid -/
  keys : List (Option Nat)
  ebind : Word
  estat : Word
  rollc : Word
  rolli : Word
  cseq : Word
  /-- a debug stop is pending, with its XINFO (R374, R446) -/
  debugPend : Option Nat
  /-- a bell overrun is pending: TIME of the bell and its XINFO bits (R396) -/
  overrun : Option (Nat × Nat)
  /-- retired stores that are draining, oldest first (R267) -/
  drains : List Drain
  /-- t0 to t7, ws and w under their field values 32 to 39, 44 and 45 (R36, R257) -/
  tiles : Tab TileReg
  /-- a0 to a3 under 40 to 43 -/
  accs : Tab AccReg
  /-- the roll of ROLLI is in force (R298, R300): set by `roll` and by the return that R300 names -/
  rolling : Bool
  /-- a `tmul` that waits for its engine -/
  mul : Option MulOp
  /-- how many leave reservations have been returned: a lent credit goes back only to the reservation it came from (R286) -/
  resv : Nat
  /-- a capability call in progress (R387) -/
  call : Option Call
  /-- a remote atomic or counter read whose value has not come back: its number (R324) -/
  remote : Option Nat
  /-- the gang barrier that the strand has joined and not left (R363) -/
  gonging : Bool
  /-- the peal whose bell a `bellw` waits for (R410) -/
  bellWait : Option Nat
  /-- the ISS that an `rfence` waits for (R323) -/
  fence : Option Nat
  /-- what of the strand is in flight (R375, R396), as XINFO bits: 1 a row load that has begun, which no interrupt squashes; 2
  remote packets that a bell found not yet sent -/
  inFlight : Nat
  /-- a `post` whose message has reached the hub and waits for its fate, which no interrupt ends (R364) -/
  posting : Bool
  /-- the words of the roll in force that have been captured, by their offset in the body (R295) -/
  body : List (Nat × Nat)
  /-- the notice-queue header of the last notice that set the notice PEND bit (R369, R374) -/
  notice : Word
  /-- a home-place write of the instruction at `pc` that awaits its acknowledgements (R130) -/
  performed : Option Performed
  /-- the flush by context tag of the core that its task left is not acknowledged yet (R140): its first acquire stalls; the
  core, and the tag -/
  flushing : Option (Nat × Nat)
  /-- the cores whose other accesses wait for the full flush of this strand's acquire (R156) -/
  flush : List Nat := []
deriving DecidableEq, Repr

/-- A strand position after reset: R55's registers at their reset values, every other register at 0 (log 2). -/
def Strand.reset : Strand :=
  { run := .free, pc := 0, sup := true, g := [], v := [], p := 0, m := [], ttag := 0, tidx := 0, gidx := 0, gsz := 0, castp := 0,
    xvec := 0, xdvec := 0, xpin := 0, xpc := 0, xcause := 0, xaddr := 0, xinfo := 0, xstat := 0, xscr := 0,
    xcause2 := 0, xpc2 := 0, xaddr2 := 0, xlvl := 0, xmask := 0, xctl := 0, xprq := 0, xpdl := 250000, xsave := 0,
    ptbase := 0, asn := 0, keyl := 0, keys := List.replicate 16 (some 0), ebind := 0, estat := 0, rollc := 0,
    rolli := 0, cseq := 0, debugPend := none, overrun := none, drains := [], tiles := [], accs := [], rolling := false,
    mul := none, resv := 0, call := none, remote := none, gonging := false, bellWait := none, fence := none, inFlight := 0, posting := false, body := [],
    notice := 0, performed := none, flushing := none }

/-! ## Engines and leave -/

/-- Credits that an engine has borrowed from a strand's reservation (R286): the strand, its reservation's number, how
many. -/
structure Lent where
  key : Nat
  resv : Nat
  n : Nat
deriving DecidableEq, Repr

/-- A matrix engine (R279 to R285): the identity of the physical tile each array plane holds, as (strand, tile); the index
within the engine of the strand last granted; how often in a row each of its strands has been passed over; the credits it
holds from the leave unit and those it has borrowed; clk at which its array is free; clk at which its last `tmul` ends. -/
structure Engine where
  planes : List (Option (Nat × Nat))
  last : Nat
  passes : List Nat
  held : Nat
  lent : List Lent
  freeAt : Nat
  lastEnd : Nat
deriving DecidableEq, Repr

/-- An engine after reset (R284). -/
def Engine.reset : Engine :=
  { planes := [none, none], last := 3, passes := [0, 0, 0, 0], held := 0, lent := [], freeAt := 0, lastEnd := 0 }

/-- Who asks a leave unit for credits (R399): an engine for the `tmul` of a strand, a strand for its `wld`, a copy
channel, a strand for its `rput` or `rget`, the move phase of a repartition. -/
inductive LeaveOwner where
  | engine (eng key : Nat)
  | strand (key : Nat)
  | channel (ch : Nat)
  | remote (key : Nat)
  | part (coll index : Nat)
deriving DecidableEq, Repr

/-- A waiting request for credits (R401). -/
structure LeaveReq where
  owner : LeaveOwner
  cluster : Nat
  n : Nat
  since : Nat
deriving DecidableEq, Repr

/-! ## The copy engine -/

/-- A transfer (R194): the chain's head, its identifier, and what it runs under: the strand that issued it with its
privilege, address space and key list (R209). -/
structure Xfer where
  head : Nat
  id : Nat
  key : Nat
  part : Nat
  sup : Bool
  ptbase : Word
  asn : Nat
  keys : List (Option Nat)
deriving DecidableEq, Repr

/-- A record in progress (R200): its address, its snapshot once it has been taken, the elements done, whether it holds
credits (R210), whether its acquire has been made (R191), whether its completion flag has been written (R207), and the writes of the
chunk in hand, its sources read, that are still to be performed (R203). -/
structure CopyRec where
  addr : Nat
  snap : Option (BitVec 512)
  done : Nat
  leave : Bool
  xfer : Xfer
  acquired : Bool := false
  flagged : Bool := false
  writes : Option (List DrainRow) := none
deriving DecidableEq, Repr

/-- A channel that a record error has stopped (R208): the status, the failing address, the record's address. -/
structure CopyStop where
  cause : Nat
  addr : Nat
  recAddr : Nat
deriving DecidableEq, Repr

/-- A copy channel (R194, R196). -/
structure Chan where
  dci : Word
  dcc : Word
  queue : List Xfer
  now : Option CopyRec
  stop : Option CopyStop
deriving DecidableEq, Repr

/-- A channel after reset. -/
def Chan.reset : Chan := { dci := 0, dcc := 0, queue := [], now := none, stop := none }

/-! ## The fabric -/

/-- An entry of a source table (R316): the pair of module and window, ISS, DONE, the latched XADDR and XINFO, and when it
was last issued to. -/
structure SrcEntry where
  mod : Nat
  win : Nat
  iss : Nat
  done : Nat
  latch : Option (Word × Word)
  last : Nat
deriving DecidableEq, Repr

/-- A remote operation that this module has issued (R322): its number, the task, the strand, the remote address, the
kind, the byte count, the local address with the address space of a get's destination, whether it counts in a source
table, fabric time at its issue, whether its packets have been sent, whether it holds credits, and how it ended. -/
structure RemoteOp where
  id : Nat
  part : Nat
  ttag : Word
  key : Nat
  addr : Word
  kind : RemoteKind
  n : Nat
  lva : Nat
  ptbase : Word
  asn : Nat
  keys : List (Option Nat)
  sup : Bool
  counted : Bool
  start : Nat
  sent : Bool
  leave : Bool
  result : Option RemoteResult
  /-- the task has ended: no failure is reported (R316) -/
  silent : Bool := false
  /-- a move of a repartition (R333): its operation at the hub -/
  coll : Option Nat := none
deriving DecidableEq, Repr

/-- A packet at the hub (R306, R308): its source and destination modules, its number, the index of its first flit to be sent
(later than 0 where only one flit is sent) and how many are, whether it crosses an intermediate, whose credit is due back, and the remote operation
whose last packet it is. -/
structure Packet where
  src : Nat
  dst : Nat
  num : Nat
  first : Nat
  flits : Nat
  relayed : Bool
  last : Option Nat
deriving DecidableEq, Repr

/-- A flit that has been sent and not acknowledged (R306): its packet's source, number and destination, its index, the fibre
and wavelength it went on. -/
structure SentFlit where
  src : Nat
  packet : Nat
  dst : Nat
  index : Nat
  fibre : Nat
  wave : Nat
  /-- the turn it went in, and the turn at whose end its acknowledgement is due -/
  turn : Nat
  due : Nat
  /-- the intermediate whose credit it holds (R309) -/
  via : Option Nat := none
deriving DecidableEq, Repr

/-! ## Collectives -/

/-- How a collective operation ended (R328): its status, with the detail, NEW and HELD for each participant, and the
splitters (R331 to R333). -/
structure CollEnd where
  status : Nat
  detail : List Nat
  news : List Nat
  helds : List Nat
  los : List Nat
deriving DecidableEq, Repr

/-- A participant of this module in a collective operation: its index in the group, its kind of operation, its partition and tag,
the strand that issued it with its gang index, where its record or descriptor lies, the address space that the hub uses for it,
whether it holds credits for its moves, and whether its part of the operation has ended (R326, R336). -/
structure CollLocal where
  index : Nat
  kind : CollKind
  part : Nat
  ttag : Word
  key : Nat
  gidx : Word
  addr : Nat
  base : Nat
  count : Nat
  rbuf : Word
  rcap : Nat
  ptbase : Word
  asn : Nat
  keys : List (Option Nat)
  sup : Bool
  leave : Bool
  finished : Bool
  /-- `rpart`: the elements as they were at issue, of which the keys and loads are taken (R336, R421); or the R111 cause of the read
  that failed, 0 for another failure -/
  elems : List Nat := []
  failed : Option Nat := none
deriving DecidableEq, Repr

/-- A joined collective operation at the hub (R326): its number, its partition, its group and kind, the operation's place in its
participants' count, the participants that have joined, those of this module, fabric time at the first join, its phase
(R338), and its outcome. Of a repartition also the arrays that this module has read, by participant; whether its moves have been
sent; whether the receivers of other modules have confirmed theirs (R333). And the participants of other modules whose tasks have died. -/
structure Coll where
  id : Nat
  part : Nat
  gid : Nat
  count : Nat
  descriptor : List Nat
  kind : CollKind
  joins : List CollJoin
  locals : List CollLocal
  start : Nat
  phase : Nat
  outcome : Option CollEnd
  arrays : Option (List (Nat × List Nat)) := none
  moved : Bool := false
  confirmed : Bool := false
  dead : List Nat := []
  /-- the flags of the puts that have come from other modules (R318, R333) -/
  flags : Nat := 0
deriving DecidableEq, Repr

/-! ## Tasks -/

/-- A capability (R388). -/
structure Cap where
  kind : Nat
  rights : Nat
  base : Nat
  count : Nat
deriving DecidableEq, Repr

/-- An entry of the reply log (R389). -/
structure LogEntry where
  slot : Nat
  gidx : Nat
  seq : Word
  res0 : Word
  res1 : Word
deriving DecidableEq, Repr

/-- A live cast (R342 to R347): its number in issue order, its partition, the packet's address and the snapshot of its
fields (R344), the address space it captured (R345), the dies of S (R347), for each die of S the next task index to look
at and the position that the next task of the share takes, how many of each share have ended, the dies that have reported,
the task that issued it, and the capability table it hands on (R388). -/
structure Cast where
  id : Nat
  part : Nat
  packet : Nat
  entry : Word
  arg : Word
  stkb : Word
  stksz : Nat
  nslot : Nat
  gsz : Nat
  dmode : Nat
  prio : Nat
  count : Nat
  harg : Nat
  notq : Nat
  ccnt : Nat
  tagb : Nat
  mbox : Nat
  ptbase : Word
  asn : Word
  keyl : Word
  keys : List (Option Nat)
  dies : List Nat
  next : List (Nat × Nat)
  ended : List Nat
  reported : List Nat
  parent : Option Nat
  caps : Tab Cap
deriving DecidableEq, Repr

/-- A notice that the hub has still to write (R354, R355): the partition, the queue's header with the address space it is
reached through, the cast's number, its four words, and the task that issued the cast. -/
structure Notice where
  part : Nat
  notq : Nat
  ptbase : Word
  asn : Word
  keys : List (Option Nat)
  kind : Nat
  cause : Nat
  tag : Word
  status : Word
  packet : Nat
  parent : Option Nat
deriving DecidableEq, Repr

/-- The states of R343; a pending task is not listed. -/
inductive TaskState where
  | queued | resident | swapped | ended
deriving DecidableEq, Repr

/-- The default of a capability table: an empty slot. -/
def Cap.none : Cap := { kind := 0, rights := 0, base := 0, count := 0 }

/-- A task that has been moved out of its share (R342, R343): its number, its cast and partition, its index, die, position
in the share (R349), state, cluster and priority of its queue entry, whether it is to resume (R351), its strands by gang
index, the gang indices that have exited and those that have been saved, the exit status, its message queue (R356), its
save slots (R383), its capabilities and reply log (R388, R389), how often each of its strands has joined `gong` (R363), and
how many channels its strands own. -/
structure Task where
  id : Nat
  cast : Nat
  part : Nat
  ttag : Word
  idx : Nat
  die : Nat
  pos : Nat
  gsz : Nat
  state : TaskState
  cluster : Nat
  prio : Nat
  resume : Bool
  keys : List Nat
  exited : List Nat
  saved : List Nat
  status : Word
  msgs : List Word
  slots : List Nat
  caps : Tab Cap
  log : List LogEntry
  gongs : Tab Nat
  /-- the messages of its mailbox have still to move to the hub (R356, R395) -/
  mailDue : Bool := false
  /-- the channels of its saved strands, by gang index and channel slot: what their save slots have no room for (R209, R211,
  R213) -/
  chans : List (Nat × Nat × Chan) := []
deriving DecidableEq, Repr

/-- The save of a strand that a bell or a home holds (R379, R395): the task and the gang index, the KeyID and address of the
slot, what is still to be written of it (offset, bytes, value), and the header word, which is written last; none where the strand
has exited and only the message queue is to be written. -/
structure HeldSave where
  task : Nat
  gidx : Nat
  kid : Nat
  slot : Nat
  writes : List (Nat × Nat × Nat)
  header : Option Nat
deriving DecidableEq, Repr

/-- A contained event's record on its way to the ring of its partition (R405): MCSTAT, MCADDR, MCSYN and TIME. -/
structure McRecord where
  part : Nat
  stat : Word
  addr : Word
  syn : Word
  time : Nat
deriving DecidableEq, Repr

/-! ## The domain, boot, host and debug -/

/-- The part a module plays in an election (R438): it follows heartbeats, it waits until a round to claim, it has claimed
in a round and holds acknowledgements, or it leads. -/
inductive Role where
  | follower | waiting (round : Nat) | claimant (round : Nat) (acks : List Nat) | leader
deriving DecidableEq, Repr

/-- The SPDM requests that the module answers (R434). -/
inductive SpdmRequest where
  | version | capabilities | algorithms | digests | certificate | challenge | measurements
deriving DecidableEq, Repr

/-- The algorithms of attestation (R434). -/
inductive SpdmAlgorithm where
  | slhDsaShake256s | shake256
deriving DecidableEq, Repr

/-- What an SPDM answer reports (R434): the SPDM version, an algorithm, announced as a vendor-defined one or not, the certificate
chain's digest and device key, a measurement with its index, digest and sequence number, a signature. -/
inductive SpdmItem where
  | version (major minor : Nat)
  | algorithm (a : SpdmAlgorithm) (vendorDefined : Bool)
  | chainDigest (x : Nat)
  | deviceKey (x : Nat)
  | romVersion (x : Nat)
  | measurement (index digest seq : Nat)
  | signature (x : Nat)
deriving DecidableEq, Repr

/-- An SPDM answer that the module has sent (R434). -/
structure SpdmAnswer where
  request : SpdmRequest
  report : List SpdmItem
deriving DecidableEq, Repr

/-- What the debug port or the I3C port has answered (R446): no response, the bit of BYPASS, IDCODE, the boundary scan, a register. -/
inductive DebugAnswer where
  | silent | bypass | idcode (x : Nat) | boundary (x : Nat) | register (x : Word)
deriving DecidableEq, Repr

/-- A completion returned to the CXL host (R440): its data, or an unsupported request. -/
inductive HostAnswer where
  | data (x : Nat) | written | unsupported | error
deriving DecidableEq, Repr

/-! ## The machine -/

/-- What moves next (the model's own; log 4): a strand, or a step of the table that has no encoding with its operands. -/
inductive Move where
  | strand (key : Nat)
  | event (i : Instr) (x : Input)
deriving DecidableEq, Repr

/-- Why the machine stops with a fault: never; the manual gives every fault a trap or a response (the type is empty). -/
inductive Fault where
deriving DecidableEq, Repr

/-- Why an instruction has no meaning here. -/
inductive Refusal where
  /-- raised by an arm of `exec` for an instruction that is not modelled yet; safe -/
  | notModelled (mnemonic : String)
deriving DecidableEq, Repr

structure State where
  /-- the moves that come next (the model's own; log 4) -/
  agenda : List Move
  /-- the strand that moves when the agenda is empty (the model's own; log 4); the instruction of `exec` is this strand's -/
  cur : Nat
  /-- the operands of the step without an encoding that `exec` runs (the model's own) -/
  input : Input
  /-- bits [63:0] of the instruction that is executed (R41's IBits) -/
  ibits : Word
  /-- how many steps the machine has taken: the argument of the free values (the model's own; log 5) -/
  steps : Nat
  /-- clk since the module left reset (R2) -/
  clk : Nat
  /-- what steering and alignment have added to TIME, in 10^-6 ns (R238, R305) -/
  timeOff : Int
  /-- a bell is in progress (R392) -/
  bellIn : Bool
  /-- TIME at which it began, and its length in ns with its extension (R392, R397) -/
  bellStart : Nat
  bellLen : Nat
  /-- BLEN.OVR (R392) -/
  bellOvr : Bool
  /-- the peal whose bell begins next (R391) -/
  bellPeal : Nat
  /-- turns by which the work of the bell in progress overruns, whether this bell's overrun has its record in the bank, and work that is
  deferred to the next bell of its kind (R397), as `Input.bell` numbers it -/
  bellLate : Nat
  bellLogged : Bool
  bellOwed : List Nat
  /-- hub register space (R19), by local address: each register's difference from its reset value -/
  hub : Tab Word
  strands : Tab Strand
  /-- the bank active on each cluster plus one, by DID · 64 + KID; 0 while no partition holds the cluster (R435) -/
  activeBank : Tab Nat
  /-- main memory by KeyID · 2^52 + address (R18, R109; log 1): the difference from `State.keyBase` -/
  mem : List Host.Cell
  /-- written words of decoded lines, by (logical address div 512) · 4,096 + KeyID -/
  decoded : Tab DecLine
  /-- directory entries, by (address div 512) · 4,096 + KeyID -/
  dir : Tab DirEntry
  dieLines : List DieLine
  /-- invalidates and updates sent and not acknowledged (R130) -/
  acks : List CohMsg
  /-- recalls sent to owners outside the module and not answered, and whether the owner of dirty data keeps it owned (R126) -/
  recalls : List (CohMsg × Bool)
  /-- replies sent to requests of agents outside the module, and those that wait for acknowledgements (R125, R130) -/
  cohReplies : List CohReply
  cohOwed : List CohReply
  /-- coherence messages sent to the homes of other members of the set (R313) -/
  cohSent : List CohSend
  /-- bytes of other members' memory as this module last wrote them, by KeyID · 2^52 + physical address, plus one (R313) -/
  farKept : Tab Nat
  /-- steps of the hub that wait for an acknowledgement, the answer to a recall or the end of a bell (the model's own; log 104) -/
  deferred : List Move
  /-- draining tile stores of strand positions that have been taken away, with their tasks' TTAG (R395; log 105) -/
  aside : List (Nat × Nat × Drain)
  /-- status words of copy records that a bell or their home holds: the record, its CTL and the status (R208, R395) -/
  owed : List (CopyRec × Nat × Nat)
  /-- saves of strands that are not complete, oldest first (R379, R395) -/
  saves : List HeldSave
  /-- flushes by context tag of tasks that have died which are not complete (R385): the core and the tag -/
  tagFlushes : List (Nat × Nat)
  /-- L1 data caches, by cluster · 4 + core -/
  l1d : Tab PCache
  /-- L1 instruction caches, by cluster · 4 + core -/
  l1i : Tab PCache
  /-- cluster caches, by DID · 64 + KID -/
  ccache : Tab PCache
  /-- the translations that each TLB holds (R150), by `tlbKey` (log 8) -/
  tlb : Tab (List TlbEntry)
  mel : Tab MelEntry
  melSeq : Nat
  /-- the key material of KEYDATA0 to KEYDATA7 (R110) -/
  keyData : Tab Word
  /-- the key pairs that have been programmed: (KeyID, 512-bit pair) -/
  keyring : List (Nat × Nat)
  /-- the programmed KeyIDs, with the place of their pair in that list plus one (R110) -/
  keySpace : Tab Nat
  /-- the first pair that a KeyID was given, and the last, by their places plus one (R109; log 68) -/
  keyPairs : Tab (Nat × Nat)
  /-- the KeyID that a retire command is sweeping (R110) -/
  retiring : Option Nat
  /-- sectors of 32 bytes that answer 0x08 until rewritten, by memory key, with the words still to be written (R403) -/
  poison : Tab Nat
  regionMemo : Tab (Option RegionMemo)
  hintQueue : List HintRange
  hints : List PageHint
  moves : List MigMove
  /-- dies whose slice-map change has drained and waits for a bell (R139) -/
  sliceDrained : List Nat
  /-- fabric windows that are being released, and accept nothing any more (R315) -/
  releasing : List Nat
  /-- dies that a warm reset has fenced (R442) -/
  fenced : List Nat
  /-- clk at which each die last left reset (R237) -/
  dieClk : Tab Nat
  /-- engines by bank · 512 + module engine number -/
  engines : Tab Engine
  /-- waiting requests for credits, oldest first (R401), and those granted and not yet taken up -/
  leaveQ : List LeaveReq
  leaveGot : List LeaveOwner
  /-- the steps whose operations the drain has refused, in the order of their refusal (R394) -/
  refused : List Move
  /-- what upsets the array of an engine at its next `tmul` (R280; the model's own) -/
  engineCheck : Tab EngineCheck
  /-- copy channels by bank · 2,048 + cluster · 8 + channel -/
  chans : Tab Chan
  /-- source tables by partition · 2^64 + TTAG (R316) -/
  sources : Tab (List SrcEntry)
  remotes : List RemoteOp
  /-- the number of the next remote operation, and how many issues there have been -/
  remoteSeq : Nat
  /-- replies sent to remote operations of other modules: source module, number, result (R315) -/
  replies : List (Nat × Nat × RemoteResult)
  /-- the fabric turn in progress (R304) -/
  turn : Nat
  /-- TIME spent in bells so far, in ns: fabric time is TIME without it (R307) -/
  bellTotal : Nat
  /-- packets that wait at this hub to be sent, and packets of other modules in its relay buffer (R308, R309) -/
  outbox : List Packet
  relay : List Packet
  /-- this module's share in use at intermediates (R309): (module, packet, flits that have not left it); and the credits that this
  hub has returned, for flits that have left its relay buffer: (source, packet) -/
  relayUsed : List (Nat × Nat × Nat)
  creditsSent : List (Nat × Nat)
  sentFlits : List SentFlit
  /-- flits received: source, packet and index, for the discard of duplicates, and acknowledgements sent (R306) -/
  received : List (Nat × Nat × Nat)
  acksSent : List (Nat × Nat × Nat)
  /-- the acknowledgements that go out in a later turn, with that turn (R306) -/
  acksOwed : List (Nat × (Nat × Nat × Nat))
  /-- consecutive failures of a wavelength, by fibre · 32 + wavelength; 16 takes it out of use (R306) -/
  waveFails : Tab Nat
  /-- this module's TIME less that of each rotor's peer, in fs, from the last gap's exchanges (R305) -/
  offsets : List (Nat × Int)
  /-- whether the cabling check of the first turn has been made, and the fibres it took out of use (R437) -/
  cabled : Bool
  fibresOut : List Nat
  packetSeq : Nat
  /-- collective operations at the hub, and how many a task has issued for a GID: (partition, tag, GID, count) (R326) -/
  colls : List Coll
  collCount : List (Nat × Word × Nat × Nat)
  collSeq : Nat
  casts : List Cast
  tasks : List Task
  castSeq : Nat
  taskSeq : Nat
  /-- the KID after the last dealt one, by partition · 4 + die (R348) -/
  dealt : Tab Nat
  /-- save slots held, by partition (R383) -/
  slotsHeld : Tab (List Nat)
  /-- notices that a bell holds, oldest first (R355, R395) -/
  notices : List Notice
  /-- records of contained events that a bell holds (R395, R405) -/
  mcHeld : List McRecord
  /-- calls executed since reset of the hub (R387) -/
  eseq : Word
  /-- clusters whose logic self-test runs (R408) -/
  testing : List Nat
  /-- a fatal event has stopped the module and signalled the management port (R407) -/
  fatal : Bool
  /-- MID given by the domain, once the module is admitted (R439) -/
  mid : Nat
  admitted : Bool
  /-- the module's serial (R431) and the manifest's (serial, MID) entries (R437) -/
  serial : Nat
  manifest : List (Nat × Nat)
  /-- the persistent term and the serial acknowledged for it (R438) -/
  term : Nat
  acked : Option Nat
  role : Role
  /-- the round of the last verified heartbeat (R438) -/
  lastBeat : Option Nat
  /-- elections: claims and acknowledgements sent, as (kind, term, serial): 0 claim, 1 acknowledgement, 2 heartbeat -/
  elections : List (Nat × Nat × Nat)
  /-- the highest table sequence number applied (R439), the sets received, those sent, and the numbers reported to a leader -/
  tableSeq : Nat
  tableSets : List TableSet
  tablesSent : List (Nat × Nat)
  reports : List (Nat × Nat)
  /-- whole sets that wait for the turn boundary at which they are applied, and the numbers that this module has reported (R439) -/
  tablesDue : List TableSet
  tableReports : List Nat
  /-- the fused SHAKE256 digest of the vendor's public key (R431), and the images in the boot flash (R431, R432) -/
  fusedDigest : Nat
  flash : List BootImage
  /-- the module is held in reset (R446; log 90) -/
  heldReset : Bool
  /-- fused minimum image sequence numbers by kind (R431), the images loaded (R432), and the reconfigurations of measurement 5 (R434) -/
  minSeq : Tab Nat
  loaded : List BootImage
  tableRev : Nat
  spdm : List SpdmAnswer
  /-- the host link's width and rate, while it is up (R440), and completions returned to the host -/
  hostLink : Option (Nat × Nat)
  hostOut : List HostAnswer
  /-- the host port's 16 KiB of configuration and mailbox space, bytes that have been written (R440) -/
  hostSpace : List Host.Cell
  /-- partitions that have been enabled and whose start block has still to be read and cast (R436; the model's own, log 104) -/
  starting : List Nat
  /-- the partition of the verified debug token (R446) -/
  debugToken : Option Nat
  /-- what the debug port and the I3C port have answered (R446) -/
  debugOut : List DebugAnswer
deriving DecidableEq, Repr

/-- The module right after reset (R5, R433): every table of registers, caches and queues at the reset values of the
manual, no strand at work, no partition enabled, memory with nothing listed. -/
def State.reset : State :=
  { agenda := [], cur := 0, input := .none, ibits := 0, steps := 0, clk := 0, timeOff := 0, bellIn := false,
    bellStart := 0, bellLen := 0, bellOvr := false, bellPeal := 0, bellLate := 0, bellLogged := false, bellOwed := [], hub := [], strands := [], activeBank := [],
    mem := [], decoded := [], dir := [], dieLines := [], acks := [], recalls := [], cohReplies := [], cohOwed := [], cohSent := [],
    farKept := [],    deferred := [], aside := [], owed := [], saves := [], tagFlushes := [], l1d := [], l1i := [], ccache := [], tlb := [],
    mel := [], melSeq := 0, keyData := [], keyring := [], keySpace := [], keyPairs := [], retiring := none, poison := [],
    regionMemo := [], hintQueue := [], hints := [], moves := [], sliceDrained := [], fenced := [], releasing := [], dieClk := [], engines := [], leaveQ := [],
    leaveGot := [], refused := [], engineCheck := [], chans := [], sources := [], remotes := [], remoteSeq := 0, replies := [],
    turn := 0, bellTotal := 0, outbox := [], relay := [], relayUsed := [], creditsSent := [], sentFlits := [], received := [],
    acksSent := [], acksOwed := [], offsets := [], waveFails := [], cabled := false, fibresOut := [], packetSeq := 0, colls := [], collCount := [], collSeq := 0,
    casts := [], tasks := [], castSeq := 0, taskSeq := 0, dealt := [], slotsHeld := [], notices := [], mcHeld := [], eseq := 0, testing := [],
    fatal := false, mid := 0, admitted := false, serial := 0, manifest := [], term := 0, acked := none,
    role := .follower, lastBeat := none, elections := [], tableSeq := 0, tableSets := [], tablesSent := [],
    reports := [], tablesDue := [], tableReports := [], fusedDigest := 0, flash := [], heldReset := false, minSeq := [], loaded := [], tableRev := 0, spdm := [], hostLink := none, hostOut := [], hostSpace := [], starting := [],
    debugToken := none, debugOut := [] }

end Sys2Proof.Machine
end

