-- ==== Sys2Proof/Machine/Base.lean ====
section
/-!
DEFINITION. Access to the parts of the state: strands and their registers, hub registers, identifiers (R15), partitions
(R435), and the result of a piece of an instruction.
-/
namespace Sys2Proof.Machine

/-! ## Results -/

/-- What a trap is raised with (R41). -/
structure Exc where
  cause : Nat
  addr : Word
  info : Word
deriving DecidableEq, Repr

/-- How a piece of an instruction ends: with a value, with a trap, or with the instruction waiting to be executed again. -/
inductive Res (α : Type) where
  | ok (a : α) (s : State)
  | trap (e : Exc) (s : State)
  /-- held: the strand executes it again at its next turn, from the state given: what it has filled, written through or asked
  for is done -/
  | wait (s : State)

/-- Goes on with the value and the state, if there is one. -/
def Res.andThen {α β : Type} (r : Res α) (f : α → State → Res β) : Res β :=
  match r with
  | .ok a s => f a s
  | .trap e s => .trap e s
  | .wait s => .wait s

/-- A step of a loop over a list, stopping at the first trap or wait. -/
def forEach {α : Type} (f : α → State → Res Unit) : List α → State → Res Unit
  | [], s => .ok () s
  | x :: xs, s => (f x s).andThen fun _ s => forEach f xs s

/-- As `forEach`, collecting values. -/
def mapEach {α β : Type} (f : α → State → Res β) : List α → State → Res (List β)
  | [], s => .ok [] s
  | x :: xs, s => (f x s).andThen fun b s => (mapEach f xs s).andThen fun bs s => .ok (b :: bs) s

/-- Puts a step at the head of the agenda: it comes next (log 4). -/
def pushMove (m : Move) (s : State) : State := { s with agenda := m :: s.agenda }

/-! ## Identifiers (R15) -/

/-- The module strand number of a strand key. -/
def sidOf (key : Nat) : Nat := key % 2048
/-- The register bank of a strand key (R384). -/
def bankOf (key : Nat) : Nat := key / 2048
/-- The key of a strand in a bank. -/
def keyOf (bank sid : Nat) : Nat := bank * 2048 + sid
def didOf (key : Nat) : Nat := sidOf key / 512
def kidOf (key : Nat) : Nat := sidOf key / 8 % 64
def cidOf (key : Nat) : Nat := sidOf key / 2 % 4
/-- The cluster, DID · 64 + KID. -/
def clusterOf (key : Nat) : Nat := sidOf key / 8
/-- The core, cluster · 4 + CID. -/
def coreOf (key : Nat) : Nat := sidOf key / 2
/-- The module engine number: E0 serves cores 0 and 1, E1 cores 2 and 3. -/
def engineOf (key : Nat) : Nat := sidOf key / 4
/-- The strand numbers of a cluster. -/
def sidsOf (cluster : Nat) : List Nat := (List.range 8).map fun i => cluster * 8 + i

/-! ## Strands and their registers -/

def State.strand (s : State) (key : Nat) : Strand := Tab.get Strand.reset s.strands key
def State.setStrand (s : State) (key : Nat) (t : Strand) : State :=
  { s with strands := Tab.set Strand.reset s.strands key t }
def State.modStrand (s : State) (key : Nat) (f : Strand → Strand) : State := s.setStrand key (f (s.strand key))
/-- The strand whose instruction is executed. -/
def State.me (s : State) : Strand := s.strand s.cur
def State.modMe (s : State) (f : Strand → Strand) : State := s.modStrand s.cur f

/-- General register n of a strand: g0 reads 0 (R41, R216). -/
def Strand.gpr (t : Strand) (n : Nat) : Word := if n = 0 then 0 else Tab.get 0 t.g n
/-- A write to g0 is discarded (R37). -/
def Strand.setGpr (t : Strand) (n : Nat) (x : Word) : Strand :=
  if n = 0 then t else { t with g := Tab.set 0 t.g n x }
def Strand.vec (t : Strand) (n : Nat) : Vec := Tab.get 0 t.v n
def Strand.setVec (t : Strand) (n : Nat) (x : Vec) : Strand := { t with v := Tab.set 0 t.v n x }
/-- Predicate n: p0 reads 1 (R41). -/
def Strand.pred (t : Strand) (n : Nat) : Bool := n = 0 || t.p.getLsbD n
/-- A write to p0 is out of class (R37); here it changes nothing. -/
def Strand.setPred (t : Strand) (n : Nat) (x : Bool) : Strand :=
  if n = 0 then t
  else { t with p := if x then t.p ||| BitVec.ofNat 8 (2 ^ n) else t.p &&& ~~~ (BitVec.ofNat 8 (2 ^ n)) }
/-- Mask n: m0 reads all ones (R41). -/
def Strand.mask (t : Strand) (n : Nat) : Word := if n = 0 then BitVec.allOnes 64 else Tab.get 0 t.m n
def Strand.setMask (t : Strand) (n : Nat) (x : Word) : Strand :=
  if n = 0 then t else { t with m := Tab.set 0 t.m n x }

/-- G[n] of the current strand. -/
def State.G (s : State) (n : R32) : Word := s.me.gpr n.val
def State.setG (s : State) (n : R32) (x : Word) : State := s.modMe (·.setGpr n.val x)
/-- V[n] of the current strand. -/
def State.V (s : State) (n : R32) : Vec := s.me.vec n.val
def State.setV (s : State) (n : R32) (x : Vec) : State := s.modMe (·.setVec n.val x)
/-- PR[n] of the current strand. -/
def State.PR (s : State) (n : R8) : Bool := s.me.pred n.val
def State.setPR (s : State) (n : R8) (x : Bool) : State := s.modMe (·.setPred n.val x)
/-- MK[n] of the current strand. -/
def State.MK (s : State) (n : R8) : Word := s.me.mask n.val
def State.setMK (s : State) (n : R8) (x : Word) : State := s.modMe (·.setMask n.val x)

/-- `EA` of R41. -/
def State.EA (s : State) (a b : R32) (sh : Nat) (disp : Int) : Word :=
  s.G a + (s.G b) * BitVec.ofNat 64 (2 ^ sh) + toWord disp

/-! ## Hub registers -/

/-- Base addresses of hub register space. -/
def hubIRD : Nat := 0xF00000100000
def hubFW : Nat := 0xF00000110000
def hubMEL : Nat := 0xF00000120000
def hubKEY : Nat := 0xF00000130000
def hubMIG : Nat := 0xF00000140000
def hubSL : Nat := 0xF00000150000
def hubAGINC : Nat := 0xF00000154000
def hubCP : Nat := 0xF00000160000
def hubFC : Nat := 0xF00000170000
def hubWIN : Nat := 0xF00000180000
def hubSV : Nat := 0xF00000400000
def hubLV : Nat := 0xF00000410000
def hubMC : Nat := 0xF00000420000
def hubMCQ : Nat := 0xF00000421000
def hubTEST : Nat := 0xF00000430000
def hubPT : Nat := 0xF00000440000
def hubBOOT : Nat := 0xF00000450000
def hubHOST : Nat := 0xF00000450100
def hubDRST : Nat := 0xF00000460000
def hubRHL : Nat := 0xF00000470000
def hubSENS : Nat := 0xF00000471000

/-- The eight 8-bit slice numbers of SLNEWj and SLCURj at reset (R138). -/
def slReset (j : Nat) : Nat := packN 8 ((List.range 8).map fun k => 8 * j + k)

/-- The value of a hub register at reset (R5); 0 where its table gives 0. -/
def hubReset (a : Nat) : Word :=
  if hubSL ≤ a ∧ a < hubSL + 4 * 4096 then
    let o := (a - hubSL) % 4096
    if o < 128 then BitVec.ofNat 64 (slReset (o / 8))
    else if o < 256 then BitVec.ofNat 64 (slReset ((o - 128) / 8))
    else if o = 256 then 0xFF
    else 0
  else if hubCP ≤ a ∧ a < hubCP + 2048 then 0x8786858483828180
  else if a = hubFC + 136 then 1000
  else if hubLV ≤ a ∧ a < hubLV + 2048 then 40
  else if hubLV + 0x1000 ≤ a ∧ a < hubLV + 0x1020 then 2560
  else if a = hubLV + 0x1020 then BitVec.ofNat 64 (10240 + 10240 * 2 ^ 16)
  else 0

/-- The word held for the hub register at local address `a`. -/
def State.hubGet (s : State) (a : Nat) : Word := Tab.get 0 s.hub a ^^^ hubReset a
def State.hubSet (s : State) (a : Nat) (v : Word) : State := { s with hub := Tab.set 0 s.hub a (v ^^^ hubReset a) }
/-- One field of a hub register. -/
def State.hubFld (s : State) (a lo n : Nat) : Nat := fld (s.hubGet a) lo n
def State.hubSetFld (s : State) (a lo n x : Nat) : State := s.hubSet a (setFld (s.hubGet a) lo n x)

/-! ## Partitions (R435) -/

def ptAddr (q : Nat) : Nat := hubPT + 256 * q
def State.partEnabled (s : State) (q : Nat) : Bool := bit (s.hubGet (ptAddr q)) 63
def State.partBank (s : State) (q : Nat) : Nat := s.hubFld (ptAddr q) 62 1
/-- Whether the partition's PTCLU names the cluster. -/
def State.partHasCluster (s : State) (q c : Nat) : Bool := bit (s.hubGet (ptAddr q + 8 + 8 * (c / 64))) (c % 64)
/-- The enabled partition of a bank on a cluster. -/
def State.partOn (s : State) (bank c : Nat) : Option Nat :=
  (List.range 16).find? fun q => s.partEnabled q && s.partBank q == bank && s.partHasCluster q c
/-- The partition of a strand. -/
def State.partOf (s : State) (key : Nat) : Option Nat := s.partOn (bankOf key) (clusterOf key)
/-- The bank active on a cluster. -/
def State.bankOn (s : State) (c : Nat) : Option Nat :=
  match Tab.get 0 s.activeBank c with
  | 0 => none
  | b + 1 => some b
/-- The partition whose bank is active on a cluster. -/
def State.partActive (s : State) (c : Nat) : Option Nat :=
  match s.bankOn c with
  | none => none
  | some b => s.partOn b c
/-- The clusters of a partition. -/
def State.clustersOf (s : State) (q : Nat) : List Nat := (List.range 256).filter fun c => s.partHasCluster q c
/-- Whether a local address lies in a range that the partition holds. -/
def State.partHolds (s : State) (q a : Nat) : Bool :=
  (List.range 8).any fun k =>
    let b := s.hubGet (ptAddr q + 48 + 16 * k)
    let l := s.hubGet (ptAddr q + 56 + 16 * k)
    bit b 63 && decide (fld b 0 32 * 65536 ≤ a) && decide (a < fld l 0 32 * 65536)
/-- Whether a KeyID is granted to the partition (R435). -/
def State.partKey (s : State) (q k : Nat) : Bool :=
  let w := s.hubGet (ptAddr q + 40)
  k == 0 || (decide (fld w 0 12 ≤ k) && decide (k < fld w 0 12 + fld w 16 12))

/-- The module's MID as software reads it: 0 until it is admitted (R437, R439). -/
def State.ownMid (s : State) : Nat := if s.admitted then s.mid else 0

/-- The clk of TIME (R2, R238). -/
def State.time (s : State) : Nat := (((s.clk * 400000 : Nat) + s.timeOff) / 1000000).toNat

end Sys2Proof.Machine
end

