-- ==== Sys2Proof/Machine/Float.lean ====
section
/-!
DEFINITION. Number formats and arithmetic rules (spec/04_number_formats.md): exact values, the one rounding of R73, the
specials of R71 to R77, and integer arithmetic.
-/
namespace Sys2Proof.Machine

/-- The floating formats of R70. -/
inductive FF where
  | f32 | bf16 | e4m3 | e5m2
deriving DecidableEq, Repr

/-- Mantissa bits (R70). -/
def FF.man : FF → Nat
  | .f32 => 23 | .bf16 => 7 | .e4m3 => 3 | .e5m2 => 2
/-- Exponent bits (R70). -/
def FF.ebits : FF → Nat
  | .f32 => 8 | .bf16 => 8 | .e4m3 => 4 | .e5m2 => 5
/-- Exponent bias (R70). -/
def FF.bias : FF → Nat
  | .f32 => 127 | .bf16 => 127 | .e4m3 => 7 | .e5m2 => 15
/-- The width of the format. -/
def FF.width (F : FF) : Nat := 1 + F.ebits + F.man
/-- The pattern of the largest finite value, sign clear (R70). -/
def FF.maxFin : FF → Nat
  | .f32 => 0x7F7FFFFF | .bf16 => 0x7F7F | .e4m3 => 0x7E | .e5m2 => 0x7B
/-- The canonical NaN (R70). -/
def FF.canon : FF → Nat
  | .f32 => 0x7FC00000 | .bf16 => 0x7FC0 | .e4m3 => 0x7F | .e5m2 => 0x7E
/-- The pattern of infinity, sign clear; E4M3 has none, and 448 stands for it (R74). -/
def FF.inf : FF → Nat
  | .f32 => 0x7F800000 | .bf16 => 0x7F80 | .e4m3 => 0x7E | .e5m2 => 0x7C

/-- The format of a type code; the word types read as FP32 where no floating format is meant. -/
def ffOf : Ty → FF
  | .bf16 => .bf16 | .e4m3 => .e4m3 | .e5m2 => .e5m2 | _ => .f32

/-- What a pattern denotes: NaN, an infinity, or the exact value (-1)^neg · m · 2^e, zeros signed. -/
inductive FVal where
  | nan
  | inf (neg : Bool)
  | fin (neg : Bool) (m : Nat) (e : Int)
deriving DecidableEq, Repr

/-- `Widen` of R78. -/
def widen (F : FF) (x : Nat) : FVal :=
  let neg := bits x (F.width - 1) 1 = 1
  let ex := bits x F.man F.ebits
  let m := bits x 0 F.man
  let top := 2 ^ F.ebits - 1
  match F with
  | .e4m3 =>
    if ex = top ∧ m = 7 then .nan
    else if ex = 0 then .fin neg m (1 - (F.bias : Int) - F.man)
    else .fin neg (m + 2 ^ F.man) ((ex : Int) - F.bias - F.man)
  | _ =>
    if ex = top then (if m = 0 then .inf neg else .nan)
    else if ex = 0 then .fin neg m (1 - (F.bias : Int) - F.man)
    else .fin neg (m + 2 ^ F.man) ((ex : Int) - F.bias - F.man)

/-- The integer nearest to m · 2^(-sh) in the mode, for a value of the given sign (R73). -/
def roundShift (rm : Rm) (neg : Bool) (m sh : Nat) : Nat :=
  let q := m / 2 ^ sh
  let r := m % 2 ^ sh
  let up : Bool :=
    match rm with
    | .rne => decide (2 * r > 2 ^ sh) || (decide (2 * r = 2 ^ sh) && decide (q % 2 = 1))
    | .rtz => false
    | .rup => !neg && decide (r ≠ 0)
    | .rdn => neg && decide (r ≠ 0)
  if up then q + 1 else q

/-- The sign bit of a format as a pattern. -/
def signBit (F : FF) (neg : Bool) : Nat := if neg then 2 ^ (F.width - 1) else 0

/-- The result of an overflow (R74). -/
def overflow (F : FF) (rm : Rm) (neg : Bool) : Nat :=
  let big : Bool := match F with | .e4m3 => true | _ => false
  let toInf : Bool :=
    match rm with
    | .rne => true
    | .rtz => false
    | .rup => !neg
    | .rdn => neg
  signBit F neg + (if !big && toInf then F.inf else F.maxFin)

/-- `Round` of R73 and R74 on an exact value, the specials of R72 and R74 included. -/
def roundTo (F : FF) (rm : Rm) : FVal → Nat
  | .nan => F.canon
  | .inf neg => signBit F neg + F.inf
  | .fin neg m e =>
    if m = 0 then signBit F neg
    else
      let ex : Int := e + (Nat.log2 m : Int)
      let emin : Int := 1 - (F.bias : Int)
      let q : Int := (if ex < emin then emin else ex) - F.man
      let n : Nat := if q ≤ e then m * 2 ^ (e - q).toNat else roundShift rm neg m (q - e).toNat
      -- n counts units of 2^q; a carry into the next binade adds one to the exponent field
      let mag : Nat := if n < 2 ^ F.man then n else ((q + F.man + F.bias).toNat) * 2 ^ F.man + (n - 2 ^ F.man)
      if mag > F.maxFin then overflow F rm neg else signBit F neg + mag

/-- A signed integer times a power of two, as a value; `zneg` is the sign of a zero. -/
def ofScaled (zneg : Bool) (n : Int) (e : Int) : FVal :=
  if n = 0 then .fin zneg 0 e else .fin (decide (n < 0)) n.natAbs e

def FVal.isNan : FVal → Bool | .nan => true | _ => false
def FVal.isInf (neg : Bool) : FVal → Bool | .inf n => n == neg | _ => false
def FVal.isZero : FVal → Bool | .fin _ 0 _ => true | _ => false
def FVal.isFinite : FVal → Bool | .fin _ _ _ => true | _ => false
def FVal.neg : FVal → Bool | .nan => false | .inf n => n | .fin n _ _ => n
def FVal.negate : FVal → FVal | .nan => .nan | .inf n => .inf (!n) | .fin n m e => .fin (!n) m e
def FVal.abs : FVal → FVal | .nan => .nan | .inf _ => .inf false | .fin _ m e => .fin false m e

/-- The exponent of a finite value; 0 for the others. -/
def FVal.exp : FVal → Int | .fin _ _ e => e | _ => 0
/-- A finite value as an integer count of 2^e0, for e0 no larger than its exponent. -/
def FVal.scaled (e0 : Int) : FVal → Int
  | .fin neg m e => let x : Int := (m : Int) * (2 : Int) ^ (e - e0).toNat; if neg then -x else x
  | _ => 0

/-- The least exponent of a list of finite values. -/
def minExp : List FVal → Int
  | [] => 0
  | [v] => v.exp
  | v :: vs => let r := minExp vs; if v.exp < r then v.exp else r

/-- The exact sum of R75, R78 and R89: NaN with a NaN or with infinities of both signs, an infinity with one of them,
and else the exact sum, whose zero is negative when every term is a negative zero or, for a sum that cancels, in
`.rdn`. -/
def exactSum (rm : Rm) (l : List FVal) : FVal :=
  if l.any FVal.isNan || (l.any (FVal.isInf false) && l.any (FVal.isInf true)) then .nan
  else if l.any (FVal.isInf false) then .inf false
  else if l.any (FVal.isInf true) then .inf true
  else
    let e0 := minExp l
    let n := (l.map (FVal.scaled e0)).foldl (· + ·) 0
    let zneg :=
      if l.all FVal.isZero && l.all (fun v => v.neg) && !l.isEmpty then true
      else if l.all FVal.isZero && l.all (fun v => !v.neg) then false
      else decide (rm = .rdn)
    ofScaled zneg n e0

/-- The exact product (R75). -/
def exactMul (a b : FVal) : FVal :=
  match a, b with
  | .nan, _ => .nan
  | _, .nan => .nan
  | .inf n, .inf n' => .inf (n != n')
  | .inf n, .fin n' m _ => if m = 0 then .nan else .inf (n != n')
  | .fin n m _, .inf n' => if m = 0 then .nan else .inf (n != n')
  | .fin n m e, .fin n' m' e' => .fin (n != n') (m * m') (e + e')

/-- The quotient, exact to 80 bits with a sticky bit below them, so that its one rounding is that of the exact quotient
(R73, R75). -/
def exactDiv (a b : FVal) : FVal :=
  match a, b with
  | .nan, _ => .nan
  | _, .nan => .nan
  | .inf _, .inf _ => .nan
  | .inf n, .fin n' _ _ => .inf (n != n')
  | .fin n _ _, .inf n' => .fin (n != n') 0 0
  | .fin n m e, .fin n' m' e' =>
    if m' = 0 then (if m = 0 then .nan else .inf (n != n'))
    else if m = 0 then .fin (n != n') 0 0
    else
      let k := 80 + Nat.log2 m'
      let q := m * 2 ^ k / m'
      let r := m * 2 ^ k % m'
      .fin (n != n') (2 * q + (if r = 0 then 0 else 1)) (e - e' - k - 1)

/-- Integer square root by bisection from the top bit: `fuel` bits are decided. -/
def isqrtAux : Nat → Nat → Nat → Nat
  | 0, _, r => r
  | k + 1, n, r => let r' := r + 2 ^ k; if r' * r' ≤ n then isqrtAux k n r' else isqrtAux k n r
def isqrt (n : Nat) : Nat := isqrtAux (Nat.log2 n / 2 + 1) n 0

/-- The square root, with a sticky bit (R73, R75). -/
def exactSqrt : FVal → FVal
  | .nan => .nan
  | .inf n => if n then .nan else .inf false
  | .fin n m e =>
    if m = 0 then .fin n 0 0
    else if n then .nan
    else
      let k : Nat := if e % 2 = 0 then 120 else 121
      let n' := m * 2 ^ k
      let r := isqrt n'
      .fin false (2 * r + (if r * r = n' then 0 else 1)) ((e - (k : Int)) / 2 - 1)

/-- Comparison of R77: none when unordered. -/
def fcompare (a b : FVal) : Option Ordering :=
  match a, b with
  | .nan, _ => none
  | _, .nan => none
  | .inf n, .inf n' => some (compare (b2n n') (b2n n))
  | .inf n, .fin _ _ _ => some (if n then .lt else .gt)
  | .fin _ _ _, .inf n => some (if n then .gt else .lt)
  | .fin n m e, .fin n' m' e' =>
    let e0 := if e < e' then e else e'
    some (compare ((FVal.fin n m e).scaled e0) ((FVal.fin n' m' e').scaled e0))

/-- The lesser of two patterns of a format (R77): -0 below +0, a single NaN gives way. -/
def fmin (F : FF) (a b : Nat) : Nat :=
  match widen F a, widen F b with
  | .nan, .nan => F.canon
  | .nan, _ => b
  | _, .nan => a
  | x, y =>
    match fcompare x y with
    | some .lt => a
    | some .gt => b
    | _ => if x.neg then a else b

/-- The greater of two patterns of a format (R77). -/
def fmax (F : FF) (a b : Nat) : Nat :=
  match widen F a, widen F b with
  | .nan, .nan => F.canon
  | .nan, _ => b
  | _, .nan => a
  | x, y =>
    match fcompare x y with
    | some .lt => b
    | some .gt => a
    | _ => if x.neg then b else a

/-- a + b, rounded once (R73, R75). -/
def fadd (F : FF) (rm : Rm) (a b : Nat) : Nat := roundTo F rm (exactSum rm [widen F a, widen F b])
def fsub (F : FF) (rm : Rm) (a b : Nat) : Nat := roundTo F rm (exactSum rm [widen F a, (widen F b).negate])
def fmul (F : FF) (rm : Rm) (a b : Nat) : Nat := roundTo F rm (exactMul (widen F a) (widen F b))
/-- a · b + c, rounded once. -/
def ffma (F : FF) (rm : Rm) (a b c : Nat) : Nat :=
  roundTo F rm (exactSum rm [exactMul (widen F a) (widen F b), widen F c])
def fdiv (F : FF) (rm : Rm) (a b : Nat) : Nat := roundTo F rm (exactDiv (widen F a) (widen F b))
def fsqrt (F : FF) (rm : Rm) (a : Nat) : Nat := roundTo F rm (exactSqrt (widen F a))

/-- A conversion between floating formats (R76). -/
def fconv (src dst : FF) (rm : Rm) (x : Nat) : Nat := roundTo dst rm (widen src x)

/-- An exact integer rounded to a format (R76); zero is +0. -/
def ofInt (F : FF) (rm : Rm) (x : Int) : Nat := roundTo F rm (ofScaled false x 0)

/-! ## Integers -/

/-- The exact value of a `w`-bit pattern read as signed or unsigned (R67). -/
def readInt (signed : Bool) (w x : Nat) : Int := if signed then sextN w x else ((x % 2 ^ w : Nat) : Int)

/-- Bounds of an integer type (R67). -/
def intMin (signed : Bool) (w : Nat) : Int := if signed then -((2 : Int) ^ (w - 1)) else 0
def intMax (signed : Bool) (w : Nat) : Int := if signed then (2 : Int) ^ (w - 1) - 1 else (2 : Int) ^ w - 1

/-- `SatInt` of R68. -/
def satInt (signed : Bool) (w : Nat) (x : Int) : Int :=
  if x < intMin signed w then intMin signed w else if x > intMax signed w then intMax signed w else x

/-- A finite value rounded to an integer in the mode (R76). -/
def roundInt (rm : Rm) (neg : Bool) (m : Nat) (e : Int) : Int :=
  let n : Nat := if 0 ≤ e then m * 2 ^ e.toNat else roundShift rm neg m (-e).toNat
  if neg then -(n : Int) else n

/-- `ToInt` of R76, as a `w`-bit pattern. -/
def toInt (signed : Bool) (w : Nat) (rm : Rm) (sat : Bool) (v : FVal) : Nat :=
  let indef := 2 ^ (w - 1)
  match v with
  | .nan => if sat then 0 else indef
  | .inf neg => if sat then wrapN w (if neg then intMin signed w else intMax signed w) else indef
  | .fin neg m e =>
    let x := roundInt rm neg m e
    if sat then wrapN w (satInt signed w x)
    else if x < intMin signed w ∨ intMax signed w < x then indef
    else wrapN w x

/-- Quotient and remainder of R69 on exact operands of a `w`-bit type, as patterns. -/
def divTrunc (signed : Bool) (w a b : Nat) : Nat :=
  let x := readInt signed w a
  let y := readInt signed w b
  if y = 0 then 2 ^ w - 1 else wrapN w (x.tdiv y)
def remTrunc (signed : Bool) (w a b : Nat) : Nat :=
  let x := readInt signed w a
  let y := readInt signed w b
  if y = 0 then a % 2 ^ w else wrapN w (x.tmod y)

/-- Element `x` of element type `et` (0 FP32, 1 BF16) as a subscription of format `fmt` sees it, before widening
(R127, R128): the pattern of its rounding. -/
def subFormat (fmt : Nat) : FF := if fmt = 1 then .bf16 else if fmt = 2 then .e4m3 else .e5m2
def elemFormat (et : Nat) : FF := if et = 1 then .bf16 else .f32
def narrowPattern (fmt et x : Nat) : Nat := fconv (elemFormat et) (subFormat fmt) .rne x
/-- The value a load through the subscription returns, in the element type (R127). -/
def narrowValue (fmt et x : Nat) : Nat := fconv (subFormat fmt) (elemFormat et) .rne (narrowPattern fmt et x)

end Sys2Proof.Machine
end

