-- ==== Sys2Proof/Machine/Packed.lean ====
section
/-!
DEFINITION. The packed formats: trits (R81), L6 blocks (R82 to R85) and pip blocks (R86, R87).
-/
namespace Sys2Proof.Machine

/-- `Trit` of R81 on two bits. -/
def trit (x : Nat) : Int :=
  match x % 4 with
  | 1 => 1
  | 3 => -1
  | _ => 0

/-- How many of the first `n` trits of a number are the malformed pattern 10 (R81). -/
def malformedTrits : Nat → Nat → Nat
  | 0, _ => 0
  | n + 1, x => (if x % 4 = 2 then 1 else 0) + malformedTrits n (x / 4)

/-- The BF16 mantissa fields of R83. -/
def l6Mantissa (f : Nat) : Nat :=
  match f with
  | 0 => 0x00 | 1 => 0x18 | 2 => 0x35 | _ => 0x57

/-- One element of `L6Decode` (R83): a 6-bit element under the scale `S`. -/
def l6Element (S : Int) (x : Nat) : Nat :=
  let s := bits x 5 1
  let c := bits x 0 5
  if c = 0 then 0
  else
    let e : Int := (c : Int) - 16 + S
    let q := e / 4
    let f := (e % 4).toNat
    s * 2 ^ 15 + (q + 127).toNat * 2 ^ 7 + l6Mantissa f

/-- `L6Decode` (R82, R83): 24 BF16 patterns from a block of 19 bytes given as one little-endian number. -/
def l6Decode (block : Nat) : List Nat :=
  let S := sextN 8 (bits block 144 8)
  (List.range 24).map fun j => l6Element S (bits block (6 * j) 6)

/-- The magnitude of an input of `L6Encode` (R84): an infinity counts as the largest finite BF16 value; none for the
inputs encoded as zero. The magnitude is m · 2^e. -/
def l6Mag (x : Nat) : Option (Nat × Int) :=
  match widen .bf16 x with
  | .nan => none
  | .inf _ => some (0xFF, 120)
  | .fin _ m e => if m = 0 then none else some (m, e)

/-- The least k with (m · 2^e)^4 ≤ 2^k, that is ⌈4 · log2 (m · 2^e)⌉. -/
def ceil4log2 (m : Nat) (e : Int) : Int :=
  let l : Nat := Nat.log2 (m ^ 4)
  4 * e + (if 2 ^ l = m ^ 4 then (l : Int) else (l : Int) + 1)

/-- 4 · log2 (m · 2^e) to the nearest integer: the largest k with 2^(2k) ≤ 2 · (m · 2^e)^8. A tie would need
(m · 2^e)^8 to be an odd power of two, which no value is (R84). -/
def round4log2 (m : Nat) (e : Int) : Int := 4 * e + ((Nat.log2 (2 * m ^ 8) : Int) / 2)

/-- The scale of R84, steps 2 and 3. -/
def l6Scale (xs : List Nat) : Int :=
  match (xs.filterMap l6Mag).map (fun p => ceil4log2 p.1 p.2) with
  | [] => 0
  | k :: ks =>
    let S := ks.foldl (fun a b => if a < b then b else a) k - 15
    if S < -128 then -128 else if 127 < S then 127 else S

/-- One code of R84, step 4: the 6-bit element. -/
def l6Code (S : Int) (x : Nat) : Nat :=
  match l6Mag x with
  | none => 0
  | some (m, e) =>
    let t := round4log2 m e - S + 16
    if t ≤ 0 then 0 else bits x 15 1 * 32 + (if 31 < t then 31 else t.toNat)

/-- `L6Encode` (R84): the 19 bytes as one little-endian number. -/
def l6Encode (xs : List Nat) : Nat :=
  let S := l6Scale xs
  packN 6 (xs.map (l6Code S)) + 2 ^ 144 * wrapN 8 S

/-- How many of 64 bits are set. -/
def popcount : Nat → Nat → Nat
  | 0, _ => 0
  | n + 1, x => x % 2 + popcount n (x / 2)

/-- `PipDecode` over elements `i` onwards: `n` elements left, `slot` the next value slot (R86). -/
def pipElements (block : Nat) : Nat → Nat → Nat → List Nat
  | 0, _, _ => []
  | n + 1, i, slot =>
    if bits block i 1 = 1 then bits block (64 + 16 * slot) 16 :: pipElements block n (i + 1) (slot + 1)
    else 0 :: pipElements block n (i + 1) slot

/-- `PipDecode` (R86): 64 BF16 patterns, or none for a malformed block. -/
def pipDecode (block : Nat) : Option (List Nat) :=
  let n := popcount 64 block
  if n > 28 ∨ bits block (64 + 16 * n) (512 - 64 - 16 * n) ≠ 0 then none
  else some (pipElements block 64 0 0)

/-- `PipEncode` (R87): the 64 bytes, or none when more than 28 elements are stored. -/
def pipEncode (xs : List Nat) : Option Nat :=
  let stored := xs.map fun x => decide (x % 2 ^ 16 ≠ 0 ∧ x % 2 ^ 16 ≠ 0x8000)
  let vals := (xs.filter fun x => decide (x % 2 ^ 16 ≠ 0 ∧ x % 2 ^ 16 ≠ 0x8000))
  if vals.length > 28 then none
  else some (packN 1 (stored.map b2n) + 2 ^ 64 * packN 16 vals)

end Sys2Proof.Machine
end

