-- ==== Sys2Proof/Machine/Space.lean ====
section
/-!
DEFINITION. Physical addresses: the local map (R18, R19), interleave regions (R95 to R97), format windows (R104, R105),
keys (R109, R110), and the causes of an error response in the order of R111, with the log of R112.
-/
namespace Sys2Proof.Machine

def fastEnd : Nat := 0x7735940000
def capBase : Nat := 0x20000000000
def capEnd : Nat := 0x40000000000
def logBase : Nat := 0x400000000000
def logEnd : Nat := 0x800000000000
def hubBase : Nat := 0xF00000000000
def hubEnd : Nat := 0x1000000000000

/-- The tiers of main memory. -/
def inFast (a : Nat) : Bool := decide (a < fastEnd)
def inCap (a : Nat) : Bool := decide (capBase ≤ a) && decide (a < capEnd)
def inTier (a : Nat) : Bool := inFast a || inCap a
def inLogical (a : Nat) : Bool := decide (logBase ≤ a) && decide (a < logEnd)
def inHub (a : Nat) : Bool := decide (hubBase ≤ a) && decide (a < hubEnd)
/-- The populated local addresses (R19). -/
def populated (a : Nat) : Bool := inTier a || inLogical a || inHub a

/-! ## Interleave regions -/

/-- The fields of an interleave region (R95), BASE and LIMIT as byte addresses. -/
structure Region where
  gran : Nat
  dmask : Nat
  base : Nat
  limit : Nat
  chan : Nat
deriving DecidableEq, Repr

def irdA (n : Nat) : Nat := hubIRD + 16 * n
def irdB (n : Nat) : Nat := hubIRD + 16 * n + 8

/-- The region that two register words describe. -/
def regionOfWords (a b : Word) : Region :=
  { gran := fld a 61 2, dmask := fld a 57 4, base := fld a 16 32 * 65536, limit := fld b 16 32 * 65536, chan := fld b 0 6 }

/-- Region n, when it is enabled. -/
def State.region (s : State) (n : Nat) : Option Region :=
  let a := s.hubGet (irdA n)
  if bit a 63 then some (regionOfWords a (s.hubGet (irdB n))) else none

/-- The enabled region that holds a local address. -/
def State.regionOf (s : State) (a : Nat) : Option Region :=
  (List.range 64).findSome? fun n =>
    match s.region n with
    | some r => if r.base ≤ a ∧ a < r.limit then some r else none
    | none => none

/-- The set bits of a 4-bit die mask, in ascending order. -/
def diesOf (dmask : Nat) : List Nat := (List.range 4).filter fun d => bits dmask d 1 = 1
/-- Channels per die of a tier (R94). -/
def channels (a : Nat) : Nat := if inFast a then 64 else 16
/-- Channel capacity of a tier (R94). -/
def chanCapacity (a : Nat) : Nat := if inFast a then 2000000000 else 32 * 2 ^ 30
def Region.granule (r : Region) : Nat := if r.gran = 1 then 65536 else 2097152

/-- Die and channel of an address within a region (R97). -/
def Region.place (r : Region) (a : Nat) : Nat × Nat :=
  let ds := diesOf r.dmask
  if r.gran = 0 then (ds.headD 0, r.chan)
  else
    let u := (a - r.base) / r.granule
    let n := ds.length
    (ds.getD (u % n) 0, u / n % channels r.base)

/-- How many bytes the region places on channel `c` of die `d` (R96, R97): of its granules, those congruent to the
channel's place, the last one counted only as far as LIMIT. -/
def Region.bytesOn (r : Region) (d c : Nat) : Nat :=
  let ds := diesOf r.dmask
  if r.gran = 0 then (if ds.headD 0 = d ∧ r.chan = c then r.limit - r.base else 0)
  else
    match ds.idxOf? d with
    | none => 0
    | some i =>
      let n := ds.length
      let C := channels r.base
      let G := r.granule
      let first := i + n * c
      let whole := (r.limit - r.base) / G
      let count := if whole ≤ first then 0 else (whole - first - 1) / (n * C) + 1
      let rest := (r.limit - r.base) % G
      count * G + (if rest ≠ 0 ∧ first ≤ whole ∧ (whole - first) % (n * C) = 0 then rest else 0)

/-- The home die of a local tier address (R118). -/
def State.homeDie (s : State) (a : Nat) : Nat :=
  match s.regionOf a with
  | some r => (r.place a).1
  | none => 0

/-! ## Format windows -/

/-- A format window (R104), bases and lengths in bytes. -/
structure Window where
  n : Nat
  fmt : Nat
  key : Nat
  part : Nat
  lbase : Nat
  llen : Nat
  back : Nat
  rbase : Nat
deriving DecidableEq, Repr

def fwAddr (n : Nat) : Nat := hubFW + 64 * n

/-- The window that its five registers describe. -/
def State.windowFields (s : State) (n : Nat) : Window :=
  let c := s.hubGet (fwAddr n)
  { n := n, fmt := fld c 56 2, key := fld c 36 12, part := fld c 0 4, lbase := s.hubFld (fwAddr n + 8) 16 32 * 65536,
    llen := s.hubFld (fwAddr n + 16) 16 24 * 65536, back := s.hubFld (fwAddr n + 24) 0 48,
    rbase := s.hubFld (fwAddr n + 32) 16 32 * 65536 }

/-- Window n, when it is enabled. -/
def State.window (s : State) (n : Nat) : Option Window :=
  if bit (s.hubGet (fwAddr n)) 63 then some (s.windowFields n) else none

/-- Bytes of a pip window's raw alias: its backing length (R105). -/
def Window.rawLen (w : Window) : Nat := w.llen / 2
/-- Whether a logical address lies in the window's logical range, or in its raw alias. -/
def Window.hasLog (w : Window) (a : Nat) : Bool := decide (w.lbase ≤ a) && decide (a < w.lbase + w.llen)
def Window.hasRaw (w : Window) (a : Nat) : Bool :=
  w.fmt == 1 && decide (w.rbase ≤ a) && decide (a < w.rbase + w.rawLen)

/-- The enabled window whose logical range or raw alias holds the address. -/
def State.windowOf (s : State) (a : Nat) : Option Window :=
  (List.range 32).findSome? fun n =>
    match s.window n with
    | some w => if w.hasLog a || w.hasRaw a then some w else none
    | none => none

/-- Backing bytes of a window (R105). -/
def Window.backLen (w : Window) : Nat :=
  match w.fmt with
  | 0 => (w.llen + 47) / 48 * 19
  | 1 => w.llen / 2
  | _ => w.llen

/-- First block and number of blocks that a 512-byte line of an L6 window touches, from its logical offset (R105). -/
def l6Blocks (o : Nat) : Nat × Nat :=
  let e := o / 512 * 256
  (e / 24, (e + 255) / 24 - e / 24 + 1)

/-- The backing bytes, as (first, length), that the 512-byte line at a logical offset needs (R106). -/
def Window.backing (w : Window) (o : Nat) : Nat × Nat :=
  if w.fmt = 0 then (w.back + 19 * (l6Blocks o).1, 19 * (l6Blocks o).2) else (w.back + o / 512 * 256, 256)

/-! ## Where an address leads -/

/-- What an address names once windows have been applied (R105): storage of the module's own tiers, memory of another
member of the coherence set, or a decoded line of a window. -/
inductive Target where
  | mem (a : Nat)
  | far (pa : Nat)
  | dec (w : Window) (a : Nat)
deriving DecidableEq, Repr

/-- FCSELF and FCSET (R312): FCSELF.IDX, and whether entry k is valid. -/
def State.selfIdx (s : State) : Nat := s.hubFld (hubFC + 128) 0 3
def State.memberValid (s : State) (k : Nat) : Bool := k == s.selfIdx || bit (s.hubGet (hubFC + 64 + 8 * k)) 63

/-- The address under which this module's caches keep another member's line: above every local address. -/
def farAddr (pa : Nat) : Nat := pa % 2 ^ 51 + 2 ^ 51
/-- The 52-bit physical address of a local address of this module, or of an address kept under `farAddr` (R18, R112). -/
def State.global (s : State) (a : Nat) : Nat := if 2 ^ 51 ≤ a then a - 2 ^ 51 else s.selfIdx * 2 ^ 48 + a

/-- The first bytes of the 64 KiB units that `n` bytes from `b` touch; regions and ranges are whole units (R95, R435). -/
def unitStarts (b n : Nat) : List Nat :=
  if (b + n - 1) / 65536 = b / 65536 then [b] else [b, (b + n - 1) / 65536 * 65536]
/-- The first byte of a backing range that lies in no enabled region. -/
def State.firstUnplaced (s : State) (b n : Nat) : Option Nat := (unitStarts b n).find? fun x => (s.regionOf x).isNone

/-- The first byte of `n` bytes from `a` that the partition does not hold. -/
def State.firstUnheld (s : State) (q a : Nat) : Nat → Option Nat
  | 0 => none
  | n + 1 => if s.partHolds q a then s.firstUnheld q (a + 1) n else some a

/-- The home die of an address of a tier, or of a window's logical range (R118). -/
def State.homeOfLine (s : State) (a : Nat) : Nat :=
  if inTier a then s.homeDie a
  else match s.windowOf a with
    | some w => s.homeDie (w.backing (a - w.lbase)).1
    | none => 0

/-- Whether an agent is outside this module (R121). -/
def State.foreign (s : State) (agent : Nat) : Bool := !(decide (agent < 32) && agent / 4 == s.selfIdx)

def drstAddr (d : Nat) : Nat := hubDRST + 8 * d
/-- Whether a warm reset of the die is in progress (R442). -/
def State.drstBusy (s : State) (d : Nat) : Bool := bit (s.hubGet (drstAddr d)) 62

/-- Whether the die answers with cause 0x09 (R442's fence): step 2 of its warm reset has ended. -/
def State.dieInReset (s : State) (d : Nat) : Bool := s.fenced.contains d

/-- Whether a KeyID may carry a request: programmed and not retiring (R110). -/
def State.keyOk (s : State) (k : Nat) : Bool := k == 0 || (Tab.get 0 s.keySpace k != 0 && s.retiring != some k)

/-- The backing bytes that an access at address `a` of a window needs (R105, R106): the byte itself where the address is
replaced, the block of a pip line, every block of an L6 line. -/
def Window.needs (w : Window) (a : Nat) : Nat × Nat :=
  if w.fmt = 2 then (w.back + (a - w.lbase), 1)
  else if w.hasRaw a then (w.back + (a - w.rbase), 1)
  else if w.fmt = 1 then (w.back + (a - w.lbase) / 128 * 64, 64)
  else w.backing (a - w.lbase)

/-- Whether a window replaces the address by the backing's (R105). -/
def Window.replaces (w : Window) (a : Nat) : Bool := w.fmt == 2 || w.hasRaw a

/-- The causes of R111 that are found from the address, the KeyID and the window registers, in the order R111 gives, with
the address to be logged; or what the address names. `q` is the requester's partition. Two points are the model's: every
access of a strand or an engine to 0xF000_0000_0000 and above answers as hub register space, cause 0x02 (R19 names device
space there and places none; log 107), and another member's range is held by the partition that holds the same local
addresses here (log 106). -/
def State.present (s : State) (q : Option Nat) (pa key : Nat) (write : Bool) : Except (Nat × Nat) Target :=
  let a := pa % 2 ^ 48
  let member := bits pa 48 3
  let held (x : Nat) : Bool := match q with | some q => s.partHolds q x | none => false
  if pa / 2 ^ 51 ≠ 0 ∨ !populated a then .error (1, pa)
  else if !s.memberValid member then .error (3, pa)
  else if inHub a then .error (2, pa)
  else if !held a then .error (2, pa)
  else if member ≠ s.selfIdx then
    if !s.keyOk key then .error (4, pa)
    else
      match Config.farError s.steps pa key with
      | some c => .error (c.val, pa)
      | none => .ok (.far pa)
  else if inTier a then
    if (s.regionOf a).isNone then .error (1, pa)
    else if !s.keyOk key then .error (4, pa)
    else if s.dieInReset (s.homeDie a) then .error (9, pa)
    else .ok (.mem a)
  else
    match s.windowOf a with
    | none => .error (10, pa)
    | some w =>
      let (b, n) := w.needs a
      if w.fmt ≠ 0 ∧ !held b then .error (2, s.global b)
      else
        match s.firstUnplaced b n with
        | some x => .error (1, s.global x)
        | none =>
          if some w.part ≠ q then .error (10, pa)
          else if !s.keyOk key || w.key ≠ key then .error (4, pa)
          else if !w.replaces a ∧ w.fmt = 1 ∧ write then .error (5, pa)
          else
            match (if w.fmt = 0 then s.firstUnheld (q.getD 16) b n else none) with
            | some x => .error (7, s.global x)
            | none =>
              if s.dieInReset (s.homeDie (if w.replaces a then b else (w.backing (a - w.lbase)).1)) then .error (9, pa)
              else .ok (if w.replaces a then .mem b else .dec w a)

/-! ## The memory error log -/

/-- Writes a log entry (R112): the index of the entry, and the state. -/
def State.logError (s : State) (cause addr key part req : Nat) : Nat × State :=
  let h := hubMEL + 1024
  let i := s.hubFld h 0 6
  let unread := s.hubFld h 8 7
  let lost := s.hubFld h 32 32
  let e : MelEntry := { key := key, part := part, req := req, cause := cause, seq := s.melSeq % 65536, addr := addr }
  let s := { s with mel := Tab.set MelEntry.blank s.mel i e, melSeq := s.melSeq + 1 }
  let s := s.hubSetFld h 0 6 (i + 1)
  if unread = 64 then (i, s.hubSetFld h 32 32 (min (lost + 1) 0xFFFFFFFF)) else (i, s.hubSetFld h 8 7 (unread + 1))

/-- The two words of a log entry (R112). -/
def MelEntry.lo (e : MelEntry) : Word := BitVec.ofNat 64 e.addr
def MelEntry.hi (e : MelEntry) : Word :=
  BitVec.ofNat 64 (e.seq + 2 ^ 16 * e.cause + 2 ^ 24 * e.req + 2 ^ 36 * e.part + 2 ^ 52 * e.key)

end Sys2Proof.Machine
end

