-- ==== Sys2Proof/Machine/Home.lean ====
section
/-!
DEFINITION. The home place: main memory and decoded lines (R97, R105 to R107), the directory with its grains and sharer
pointers (R118 to R126), and how writes are resolved against subscriptions (R127 to R133). The value of every byte at the
home place is current at every instant (R129, R176): memory holds it, whichever die cache has the line.
-/
namespace Sys2Proof.Machine

/-! ## Bytes of main memory -/

/-- The `n` bytes at `k` as a little-endian number; an unlisted byte is 0 (log 1). -/
def Memory.read : List Host.Cell → Nat → Nat → Nat
  | [], _, _ => 0
  | (k', b) :: t, k, n =>
    if k' < k then Memory.read t k n
    else if k' < k + n then b.toNat * 256 ^ (k' - k) + Memory.read t k n
    else 0

/-- The entries for the bytes of `x` at `k`, zeros left out. -/
def Memory.cells : Nat → Nat → Nat → List Host.Cell
  | 0, _, _ => []
  | n + 1, k, x =>
    if x % 256 = 0 then Memory.cells n (k + 1) (x / 256)
    else (k, BitVec.ofNat 8 x) :: Memory.cells n (k + 1) (x / 256)

/-- Memory with the `n` low bytes of `x` at `k`, in canonical form. -/
def Memory.write (m : List Host.Cell) (k n x : Nat) : List Host.Cell :=
  m.takeWhile (fun c => c.1 < k) ++ Memory.cells n k x ++ m.dropWhile (fun c => c.1 < k + n)

/-- The canonical form of memory: addresses strictly rising, no byte equal to what an unlisted address reads as. -/
abbrev Memory.wf (m : List Host.Cell) : Bool := Tab.wf (0 : Byte) m

/-- The memory key of address `a` under a KeyID: each KeyID has locations of its own (R109, R188). -/
def State.memKey (_ : State) (key a : Nat) : Nat := key * 2 ^ 52 + a

/-- The key pair at a place of `State.keyring`, counted from 1. -/
def State.pairAt (s : State) (i : Nat) : Nat := ((s.keyring.map Prod.snd)[i - 1]?).getD 0

/-- What a 32-byte unit that nothing has written reads as under a KeyID: 0 under the first pair it was given (log 1), under a later
pair what that makes of the same ciphertext (R109). -/
def State.unitBase (s : State) (key unit : Nat) : Nat :=
  let (first, last) := Tab.get (0, 0) s.keyPairs key
  if first = last then 0 else xtsRead (s.pairAt first) (s.pairAt last) unit 0

/-- What `n` bytes at an address that nothing has written read as under a KeyID. -/
def State.keyBase (s : State) (key a n : Nat) : Nat :=
  let (first, last) := Tab.get (0, 0) s.keyPairs key
  if first = last then 0
  else bits (packN 256 ((List.range ((a % 32 + n + 31) / 32)).map fun i => s.unitBase key (a / 32 + i))) (8 * (a % 32)) (8 * n)

/-- Bytes of storage: `State.mem` holds their difference from `State.keyBase`. -/
def State.readMem (s : State) (key a n : Nat) : Nat := Memory.read s.mem (s.memKey key a) n ^^^ s.keyBase key a n

/-- A poisoned sector with the written words taken off; it is clean when every word has been written (R403). -/
def unpoison (p k n : Nat) : Nat := p &&& ((2 ^ 8 - 1) ^^^ ((2 ^ ((n + 3) / 4) - 1) * 2 ^ (k % 32 / 4)))

/-- The poison after a write of `n` bytes. -/
def State.wrote (s : State) (key a n : Nat) : Tab Nat :=
  let k := s.memKey key a
  if s.poison.isEmpty then [] else
    (List.range n).foldl (fun t i => Tab.set 0 t ((k + i) / 32) (unpoison (Tab.get 0 t ((k + i) / 32)) (k + i) 1)) s.poison

/-- Writes bytes of storage; the words written leave their sector's poison. -/
def State.writeMem (s : State) (key a n x : Nat) : State :=
  { s with mem := Memory.write s.mem (s.memKey key a) n (x ^^^ s.keyBase key a n), poison := s.wrote key a n }

/-- Whether a read of `n` bytes touches a poisoned sector. -/
def State.poisoned (s : State) (key a n : Nat) : Bool :=
  !s.poison.isEmpty && (List.range n).any fun i => Tab.get 0 s.poison ((s.memKey key a + i) / 32) != 0

/-! ## Decoded lines -/

/-- Element `e` of an L6 window from its backing (R105). -/
def State.l6Elem (s : State) (w : Window) (e : Nat) : Nat :=
  let block := s.readMem w.key (w.back + 19 * (e / 24)) 19
  l6Element (sextN 8 (bits block 144 8)) (bits block (6 * (e % 24)) 6)

def decKey (a key : Nat) : Nat := a / 512 * 4096 + key

/-- `n` bytes of a decoded L6 line at logical address `a` (a multiple of 2, n even), the written words taking effect
(R105 to R107). -/
def State.readL6 (s : State) (w : Window) (a n : Nat) : Nat :=
  let e0 := (a - w.lbase) / 2
  let base := packN 16 ((List.range (n / 2)).map fun i => s.l6Elem w (e0 + i))
  let d := Tab.get DecLine.clean s.decoded (decKey a w.key)
  let sh := a % 512
  let m := byteMask n ((List.range n).foldl (fun acc i => acc + (if d.dirty.getLsbD ((sh + i) / 4) then 2 ^ i else 0)) 0)
  let v := bits d.data.toNat (8 * sh) (8 * n)
  (base &&& ((2 ^ (8 * n) - 1) ^^^ m)) ||| (v &&& m)

/-- Bytes of another member's memory: what this module has last written there, unless another agent has written it since; the
rest, and whether one has, is free (R313; log 106). -/
def State.farBytes (s : State) (pa key n : Nat) : Nat :=
  let x := Config.farData s.steps pa key
  packN 8 ((List.range n).map fun i =>
    match Tab.get 0 s.farKept (key * 2 ^ 52 + pa + i) with
    | 0 => elemN x 8 i
    | b + 1 => if Config.farChanged s.steps (pa + i) key then elemN x 8 i else b)

/-- Bytes that this module has written, of the mask `m`: at the home of another member, or in a line that one of its dies owns. -/
def State.farPut (s : State) (pa key n m x : Nat) : State :=
  { s with farKept := (List.range n).foldl (fun t i =>
      if bits m i 1 = 1 then Tab.set 0 t (key * 2 ^ 52 + pa + i) (elemN x 8 i + 1) else t) s.farKept }

/-- `n` bytes at what an address names; an error of R111's last group is found here, a poisoned backing byte before a malformed
pip block. The access stays within one 128-byte line, and a decoded line is read by whole elements. The address logged is
the first byte of the bytes read, for a cached access the start of its 128-byte line (R112 says "physical address at
fault"; log 108). Another member's bytes are free (log 106). -/
def State.readTarget (s : State) (key : Nat) (t : Target) (n : Nat) : Except (Nat × Nat) Nat :=
  match t with
  | .mem a => if s.poisoned key a n then .error (8, s.global a) else .ok (s.readMem key a n)
  | .far pa => .ok (s.farBytes pa key n)
  | .dec w a =>
    if s.poisoned w.key a n then .error (8, s.global a)
    else if w.fmt = 0 then
      let (b, k) := w.backing (a - w.lbase)
      if s.poisoned w.key b k then .error (8, s.global a)
      else
        let a' := a / 2 * 2
        let n' := (a + n + 1) / 2 * 2 - a'
        .ok (bits (s.readL6 w a' n') (8 * (a - a')) (8 * n))
    else
      let o := a - w.lbase
      let b := w.back + o / 128 * 64
      if s.poisoned w.key b 64 then .error (8, s.global a)
      else
        match pipDecode (s.readMem w.key b 64) with
        | none => .error (6, s.global a)
        | some l => .ok (bits (packN 16 l) (8 * (o % 128)) (8 * n))

/-- The bytes of `x` chosen by a byte mask, in the place of `old`'s. -/
def mergeBytes (n m old x : Nat) : Nat :=
  let bm := byteMask n m
  (old &&& ((2 ^ (8 * n) - 1) ^^^ bm)) ||| (x % 2 ^ (8 * n) &&& bm)

/-- Writes the bytes of `x` chosen by the byte mask `m`, of the `n` bytes at what an address names; another member's memory is
not this module's. -/
def State.writeTarget (s : State) (key : Nat) (t : Target) (n m x : Nat) : State :=
  match t with
  | .mem a => s.writeMem key a n (mergeBytes n m (s.readMem key a n) x)
  | .far _ => s
  | .dec w a =>
    -- whole words are kept, as every write to a decoded line is merged into its words first
    let a' := a / 4 * 4
    let n' := (a + n + 3) / 4 * 4 - a'
    let old := s.readL6 w a' n'
    let new := setBytes old (a - a') n (mergeBytes n m (bits old (8 * (a - a')) (8 * n)) x)
    let k := decKey a w.key
    let d := Tab.get DecLine.clean s.decoded k
    let wm := (2 ^ (n' / 4) - 1) * 2 ^ (a' % 512 / 4)
    let d : DecLine :=
      { data := BitVec.ofNat 4096 (setBytes d.data.toNat (a' % 512) n' new), dirty := d.dirty ||| BitVec.ofNat 128 wm }
    { s with decoded := Tab.set DecLine.clean s.decoded k d, poison := s.wrote w.key a n }

/-! ## Machine checks -/

/-- A contained machine check (R402), recorded by the step that comes next. -/
def State.raiseCheck (s : State) (e : McEvent) : State := pushMove (.event .machineCheckEvent (.check e)) s

/-- The partition that holds an address. -/
def State.ownerPart (s : State) (a : Nat) : Option Nat :=
  (List.range 16).find? fun q => s.partEnabled q && s.partHolds q a

/-- The event of a write-back that met an error (R113). -/
def writeBackEvent (bank unit part key addr : Nat) : McEvent :=
  { code := 0x51, bank := bank, cls := 2, part := part, unit := unit, addr := some addr, key := key, syn := none, kills := none }

/-- A write-back of die `die` that meets an error: its data is discarded, the error is logged, and the owning partition gets a
contained machine check (R113). Where no enabled partition holds the address any more, the log and the check name partition
0: the manual does not say which (log 109). -/
def State.lostWrite (s : State) (die cause a key : Nat) : State :=
  let part := (s.ownerPart a).getD 0
  let (_, s) := s.logError cause (s.global a) key part 0
  s.raiseCheck (writeBackEvent (8 * die + 2) 0 part key (s.global a))

/-- Re-encodes every block a written decoded line touches and writes the bytes to the backing (R107); elements beyond the
window's logical length keep their decoded values (R106). Where a backing byte lies in no enabled region any more, the line's
words are lost (R113). -/
def State.encodeLine (s : State) (w : Window) (a : Nat) : State :=
  let (b0, n) := l6Blocks (a - w.lbase)
  let clean (s : State) : State := { s with decoded := Tab.set DecLine.clean s.decoded (decKey a w.key) DecLine.clean }
  match s.firstUnplaced (w.back + 19 * b0) (19 * n) with
  | some _ => (clean s).lostWrite (s.homeDie (w.back + 19 * b0)) 1 a w.key
  | none =>
    let new := (List.range n).map fun i =>
      l6Encode ((List.range 24).map fun j =>
        let e := 24 * (b0 + i) + j
        let ea := w.lbase + 2 * e
        if ea / 512 = a / 512 ∧ 2 * e < w.llen then s.readL6 w ea 2 else s.l6Elem w e)
    clean ((List.range n).foldl (fun s i => s.writeMem w.key (w.back + 19 * (b0 + i)) 19 (new.getD i 0)) s)

/-- What the line of a cache, 512 bytes at `a` under a KeyID, names now; an error where its region, window or key has been
reconfigured beneath it (R113), in the order of R111. -/
def State.targetOfLine (s : State) (a key : Nat) : Except Nat Target :=
  let keyed := s.keyOk key || s.retiring == some key
  if 2 ^ 51 ≤ a then (if keyed then .ok (.far (a - 2 ^ 51)) else .error 4)
  else if inTier a then
    if (s.regionOf a).isNone then .error 1 else if !keyed then .error 4
    else if s.dieInReset (s.homeDie a) then .error 9 else .ok (.mem a)
  else
    match s.windowOf a with
    | none => .error 10
    | some w =>
      let (b, n) := w.backing (a - w.lbase)
      if (s.firstUnplaced b n).isSome then .error 1
      else if w.fmt = 2 ∨ !w.hasLog a then .error 10
      else if !keyed || w.key ≠ key then .error 4
      else if w.fmt = 1 then .error 5
      else if s.dieInReset (s.homeDie b) then .error 9
      else .ok (.dec w a)

/-- The written words of a decoded line leave the caches: back to the backing (R107), or, where its window or key has been
reconfigured beneath it, they are lost (R113). -/
def State.dropDecoded (s : State) (a key : Nat) : State :=
  if (Tab.get DecLine.clean s.decoded (decKey a key)).dirty = 0 then s
  else
    match s.targetOfLine a key with
    | .ok (.dec w _) => s.encodeLine w a
    | .ok _ => s
    | .error c =>
      { s with decoded := Tab.set DecLine.clean s.decoded (decKey a key) DecLine.clean }.lostWrite (s.homeOfLine a) c a key

/-- The decoded lines that `hit` picks, by address and KeyID, leave the caches (R107, R113). -/
def State.encodeLines (s : State) (hit : Nat → Nat → Bool) : State :=
  (s.decoded.filter fun e => hit (e.1 / 4096 * 512) (e.1 % 4096)).foldl (fun s e => s.dropDecoded (e.1 / 4096 * 512) (e.1 % 4096)) s

/-! ## The directory -/

/-- The agent number of a compute die of this module (R121). -/
def State.agentOf (s : State) (die : Nat) : Nat := 4 * s.selfIdx + die
/-- The current incarnation of an agent (R136). -/
def State.incOf (s : State) (agent : Nat) : Nat := s.hubFld (hubAGINC + 8 * agent) 0 8

def Ptr.native (p : Ptr) : Bool := p.fmt == 0 && p.mode == 0
def Sharers.empty : Sharers → Bool | .ptrs l => l.isEmpty | .coarse l => l.isEmpty
def Sharers.agents : Sharers → List Nat | .ptrs l => l.map Ptr.agent | .coarse l => l.map Prod.fst

/-- The states of R124. -/
inductive DirState where
  | di | ds | dw | de | dO
deriving DecidableEq, Repr

def Grain.state (g : Grain) : DirState :=
  match g.owner, g.sharers with
  | some _, sh => if sh.empty then .de else .dO
  | none, .ptrs l => if l.isEmpty then .di else if l.all Ptr.native then .ds else .dw
  | none, .coarse l => if l.isEmpty then .di else .ds

/-- The coarse vector of some pointers (R122): one bit for each agent. -/
def coarsen (l : List Ptr) : List (Nat × Nat) :=
  l.foldr (fun p acc => if acc.any fun x => x.1 == p.agent then acc else (p.agent, p.inc) :: acc) []

/-- Whether a pointer has another's agent and tag. -/
def Ptr.same (x p : Ptr) : Bool := x.agent == p.agent && x.fmt == p.fmt && x.etype == p.etype && x.mode == p.mode

/-- Adds a pointer, replacing the same agent's pointer of the same tag; a ninth pointer makes a coarse vector (R122). -/
def Sharers.add (sh : Sharers) (p : Ptr) : Sharers :=
  match sh with
  | .coarse l =>
    if l.isEmpty then .ptrs [p] else .coarse ((p.agent, p.inc) :: l.filter fun x => x.1 != p.agent)
  | .ptrs l =>
    let l' := (l.filter fun x => !x.same p) ++ [p]
    if l'.length ≤ 8 then .ptrs l' else .coarse (coarsen l')

/-- Removes every pointer of an agent; an empty vector returns to pointers (R122). -/
def Sharers.remove (sh : Sharers) (agent : Nat) : Sharers :=
  match sh with
  | .ptrs l => .ptrs (l.filter fun x => x.agent != agent)
  | .coarse l => let l := l.filter fun x => x.1 != agent; if l.isEmpty then .ptrs [] else .coarse l

/-- Removes the pointer of one copy; in a coarse vector, its agent's bit. -/
def Sharers.removeCopy (sh : Sharers) (p : Ptr) : Sharers :=
  match sh with
  | .ptrs l => .ptrs (l.filter fun x => !x.same p)
  | .coarse _ => sh.remove p.agent

/-- Removes pointers whose incarnation is not the agent's current one (R137). -/
def State.liveSharers (s : State) : Sharers → Sharers
  | .ptrs l => .ptrs (l.filter fun p => p.inc == s.incOf p.agent)
  | .coarse l => let l := l.filter fun p => p.2 == s.incOf p.1; if l.isEmpty then .ptrs [] else .coarse l

/-- An entry with the finer of its own grain and `g` (R120): each new grain inherits the state of the one it lies in. -/
def DirEntry.refine (e : DirEntry) (g : Nat) : DirEntry :=
  if e.grains.isEmpty then { grain := g, grains := List.replicate (512 / g) Grain.di }
  else if e.grain ≤ g then e
  else
    let k := e.grain / g
    { grain := g
      grains := e.grains.flatMap fun x =>
        (List.range k).map fun i => { x with homeCopy := x.homeCopy.map fun b => bits b (8 * g * i) (8 * g) } }

/-- The directory's key of an address, and the entry with grains no coarser than `g`. -/
def dirKey (a key : Nat) : Nat := a / 512 * 4096 + key
def State.dirEntry (s : State) (a key g : Nat) : DirEntry := (Tab.get DirEntry.empty s.dir (dirKey a key)).refine g

/-- The hash of an address that picks its home slice (R118). -/
def sliceHash (a : Nat) : Nat :=
  bits a 9 7 ^^^ bits a 16 7 ^^^ bits a 23 7 ^^^ bits a 30 7 ^^^ bits a 37 7 ^^^ bits a 44 4

def slAddr (d : Nat) : Nat := hubSL + 4096 * d
/-- SLNEW and SLCUR of a hash value (R138). -/
def State.sliceNew (s : State) (d h : Nat) : Nat := s.hubFld (slAddr d + h / 8 * 8) (8 * (h % 8)) 7
def State.sliceCur (s : State) (d h : Nat) : Nat := s.hubFld (slAddr d + 128 + h / 8 * 8) (8 * (h % 8)) 7
/-- Stores an entry; one whose grains are all in DI is freed (R120). -/
def State.setDirEntry (s : State) (a key : Nat) (e : DirEntry) : State :=
  let e := if e.grains.all fun g => g.owner.isNone && g.sharers.empty then DirEntry.empty else e
  { s with dir := Tab.set DirEntry.empty s.dir (dirKey a key) e }

/-- The address a target keeps in the directory; memory of another member is homed elsewhere. -/
def Target.addr : Target → Nat
  | .mem a => a
  | .far pa => farAddr pa
  | .dec _ a => a
/-- The home die of a target (R118). -/
def State.homeOf (s : State) : Target → Option Nat
  | .mem a => some (s.homeDie a)
  | .far _ => none
  | .dec w a => some (s.homeDie (w.backing (a - w.lbase)).1)
/-- The target shifted to another address of the same kind. -/
def Target.at (t : Target) (a : Nat) : Target :=
  match t with
  | .mem _ => .mem a
  | .far pa => .far (pa / 2 ^ 48 * 2 ^ 48 + a % 2 ^ 48)
  | .dec w _ => .dec w a

/-- The event of a stale owner's lost data (R137), in the bank of the home die's directory. -/
def staleEvent (die part key addr : Nat) : McEvent :=
  { code := 0x50, bank := 8 * die + 3, cls := 2, part := part, unit := 0, addr := some addr, key := key, syn := none, kills := none }

/-- One grain with stale pointers removed and a stale owner handled: the home's own copy becomes the value, dirty data of the
old incarnation is lost, and the partition that owns the line gets a contained machine check (R137); partition 0 where none
holds it any more (log 109). -/
def State.scrubGrain (s : State) (key : Nat) (t : Target) (ga gsz : Nat) (g : Grain) : Grain × State :=
  let g := { g with sharers := s.liveSharers g.sharers }
  match g.owner with
  | none => (g, s)
  | some (ag, inc) =>
    if inc = s.incOf ag then (g, s)
    else
      let s := match (if g.dirty then g.homeCopy else none) with
        | some x => s.writeTarget key (t.at ga) gsz (2 ^ gsz - 1) x
        | none => s
      ({ g with owner := none, dirty := false, homeCopy := none, supplied := false },
        s.raiseCheck (staleEvent (s.homeOfLine ga) ((s.ownerPart ga).getD 0) key (s.global ga)))

/-- The owner writes back and keeps a shared copy (R126's Rc). -/
def Grain.recall (g : Grain) : Grain :=
  match g.owner with
  | none => g
  | some (ag, inc) =>
    { g with owner := none, dirty := false, homeCopy := none, supplied := false,
             sharers := g.sharers.add { agent := ag, inc := inc, fmt := 0, etype := 0, mode := 0 } }

/-- RdS of R126 by agent `x`. -/
def Grain.rdS (g : Grain) (x inc : Nat) : Grain :=
  let p : Ptr := { agent := x, inc := inc, fmt := 0, etype := 0, mode := 0 }
  match g.owner with
  | some (y, _) =>
    if y = x then g
    else if g.dirty then { g with sharers := g.sharers.add p }
    else if g.sharers.empty then { g.recall with sharers := g.recall.sharers.add p }
    else { g with sharers := g.sharers.add p }
  | none => if g.sharers.empty then { g with owner := some (x, inc) } else { g with sharers := g.sharers.add p }

/-- RdF of R126: the owner, if any, writes back and keeps S, and a pointer is added. -/
def Grain.rdF (g : Grain) (p : Ptr) : Grain := let g := g.recall; { g with sharers := g.sharers.add p }

/-- Up of R126: the agent's pointers are replaced by one native invalidate pointer; a coarse vector is unchanged. -/
def Grain.up (g : Grain) (x inc : Nat) : Grain :=
  match g.owner, g.sharers with
  | none, .ptrs l =>
    if l.isEmpty then g
    else { g with sharers := ((Sharers.ptrs l).remove x).add { agent := x, inc := inc, fmt := 0, etype := 0, mode := 0 } }
  | _, _ => g

/-- RdS of R126 by an agent outside the module: a copy that it gets exclusive it may write without a message (R124's M), so from
then on the home asks it for its data (R126's Rc). -/
def Grain.rdSFar (g : Grain) (x inc home : Nat) : Grain :=
  let g' := g.rdS x inc
  if g.owner = none ∧ g'.owner ≠ none then { g' with dirty := true, homeCopy := some home } else g'

/-- Dr of R126: the agent's clean copy under the pointer's tag is gone. -/
def Grain.drop (g : Grain) (p : Ptr) : Grain :=
  match g.owner with
  | some (y, _) => if y = p.agent ∧ !g.dirty ∧ p.native then { g with owner := none } else { g with sharers := g.sharers.removeCopy p }
  | none => { g with sharers := g.sharers.removeCopy p }

/-- WB of R126: the owner's copy is gone, its data being at the home. -/
def Grain.writtenBack (g : Grain) : Grain := { g with owner := none, dirty := false, homeCopy := none, supplied := false }

/-- The owner of dirty data has supplied it and keeps it owned (R126's RdS). -/
def Grain.keepOwned (g : Grain) : Grain := { g with supplied := true }

/-- The agents other than `x` that hold a grain. -/
def Grain.others (g : Grain) (x : Nat) : List Nat :=
  ((g.sharers.agents ++ (match g.owner with | some (y, _) => [y] | none => [])).filter fun a => a != x).eraseDups

/-- RdO of R126, once no other agent holds the grain: the requester owns it. -/
def Grain.rdO (g : Grain) (x inc : Nat) : Grain := { g with owner := some (x, inc), sharers := .ptrs [], supplied := false }

/-- The grain without the agents other than `x`, which the home invalidates before it grants a RdO (R126). -/
def Grain.only (g : Grain) (x : Nat) : Grain :=
  { g with
    owner := g.owner.filter fun o => o.1 == x
    dirty := g.dirty && (g.owner.any fun o => o.1 == x)
    homeCopy := if g.owner.any fun o => o.1 == x then g.homeCopy else none
    supplied := g.supplied && (g.owner.any fun o => o.1 == x)
    sharers := match g.sharers with
      | .ptrs l => .ptrs (l.filter fun p => p.agent == x)
      | .coarse l => let l := l.filter fun p => p.1 == x; if l.isEmpty then .ptrs [] else .coarse l }

/-- Whether a write from `old` to `new` changes what a pointer's copy holds (R128): bytes for a native pointer, the
roundings of the grain's elements otherwise. -/
def ptrChanged (p : Ptr) (gsz old new : Nat) : Bool :=
  if p.fmt = 0 then decide (old ≠ new)
  else
    let w := (elemFormat p.etype).width
    (List.range (8 * gsz / w)).any fun i =>
      narrowPattern p.fmt p.etype (elemN old w i) != narrowPattern p.fmt p.etype (elemN new w i)

/-- The messages of one write (R128): agents to invalidate and pointers to update, and the sharers that remain. The
writer's own native pointer is passed over. -/
def resolveWrite (sh : Sharers) (writer : Option Nat) (gsz old new : Nat) : Sharers × List Nat × List Ptr :=
  match sh with
  | .coarse l =>
    if old = new then (sh, [], [])
    else
      let gone := (l.filter fun x => some x.1 != writer).map Prod.fst
      let l := l.filter fun x => some x.1 == writer
      (if l.isEmpty then .ptrs [] else .coarse l, gone, [])
  | .ptrs l =>
    let ch := fun p : Ptr => !(p.native && some p.agent == writer) && ptrChanged p gsz old new
    (.ptrs (l.filter fun p => !(ch p && p.mode == 0)), ((l.filter fun p => ch p && p.mode == 0).map Ptr.agent).eraseDups,
      l.filter fun p => ch p && p.mode == 1)

/-- The bytes of a line as a format and an element type see them: native bytes, or every element rounded and widened (R127). -/
def formatView (fmt etype n x : Nat) : Nat :=
  if fmt = 0 then x
  else
    let w := (elemFormat etype).width
    packN w ((unpackN w (8 * n / w) x).map fun e => narrowValue fmt etype e)

/-- The message to an agent about a grain: an update carries the new value in its pointer's format (R128). -/
def cohMsg (agent a key gsz new : Nat) (p : Option Ptr) : CohMsg :=
  match p with
  | some p => { agent := agent, addr := a, key := key, grain := gsz, fmt := p.fmt, etype := p.etype, mode := p.mode,
                data := formatView p.fmt p.etype gsz new }
  | none => { agent := agent, addr := a, key := key, grain := gsz, fmt := 0, etype := 0, mode := 0 }

/-- Whether a move is a message of a home to an agent. -/
def Move.isMsg : Move → Bool
  | .event .iv _ => true
  | .event .ud _ => true
  | _ => false

/-- Sends invalidates and updates about a grain whose new value is `new`: they come next, after those already sent (R125),
and each awaits its acknowledgement (R130). -/
def State.sendMsgs (s : State) (a key gsz new : Nat) (iv : List Nat) (ud : List Ptr) : State :=
  let ivs := iv.map fun ag => cohMsg ag a key gsz 0 none
  let uds := ud.map fun p => cohMsg p.agent a key gsz new (some p)
  { s with
    agenda := s.agenda.takeWhile Move.isMsg ++ (ivs.map fun m => Move.event .iv (.coh m)) ++ (uds.map fun m => Move.event .ud (.coh m))
      ++ s.agenda.dropWhile Move.isMsg
    acks := s.acks ++ ivs ++ uds }

/-- Whether a write to the range still awaits acknowledgements: the home serves no other request for it before (R125, R130,
R182). -/
def State.homeBusy (s : State) (key : Nat) (t : Target) (n : Nat) : Bool :=
  match t with
  | .far _ => false
  | _ => s.acks.any fun m => m.key == key && decide (m.addr < t.addr + n) && decide (t.addr < m.addr + m.grain)

/-- The grains of a range that an agent outside the module owns dirty, as the recalls that ask it for them (R126); for a RdS
(`share`), those alone whose data it has not supplied yet. -/
def State.recallsFor (s : State) (share : Bool) (key : Nat) (t : Target) (n : Nat) : List CohMsg :=
  match t with
  | .far _ => []
  | _ =>
    let e := Tab.get DirEntry.empty s.dir (dirKey t.addr key)
    (List.range e.grains.length).filterMap fun i =>
      let ga := t.addr / 512 * 512 + i * e.grain
      let g := e.grains.getD i Grain.di
      if ga < t.addr + n ∧ t.addr < ga + e.grain ∧ g.dirty = true ∧ !(share && g.supplied) then
        match g.owner with
        | some (ag, inc) => if s.foreign ag && inc == s.incOf ag then some (cohMsg ag ga key e.grain 0 none) else none
        | none => none
      else none

/-- Whether an agent outside the module holds a grain of the range dirty: what is homed there waits for its reply to the
recall (R126). -/
def State.heldAbroad (s : State) (share : Bool) (key : Nat) (t : Target) (n : Nat) : Bool := !(s.recallsFor share key t n).isEmpty

/-- The recalls of a range are sent, one at a time for a grain. -/
def State.sendRecalls (s : State) (share : Bool) (key : Nat) (t : Target) (n : Nat) : State :=
  { s with recalls := s.recalls ++ ((s.recallsFor share key t n).filter fun m => !(s.recalls.map Prod.fst).contains m).map fun m => (m, share) }

/-- Whether a request to the range, a RdS where `share`, must wait at its home; then, with the recalls it needs sent (R126,
R130). -/
def State.homeWaitsFor (s : State) (share : Bool) (key : Nat) (t : Target) (n : Nat) : Option State :=
  if s.heldAbroad share key t n then some (s.sendRecalls share key t n)
  else if s.homeBusy key t n then some s
  else none

/-- As `homeWaitsFor`, for a request that no owner stays owner beside. -/
def State.homeWaits (s : State) (key : Nat) (t : Target) (n : Nat) : Option State := s.homeWaitsFor false key t n

/-- The home die and the slice of a directory entry (R118, R138). -/
def State.entrySlice (s : State) (k : Nat) : Nat × Nat :=
  let a := k / 4096 * 512
  let d := s.homeOfLine a
  (d, s.sliceCur d (sliceHash a))

/-- The agents that a directory entry names. -/
def DirEntry.agents (e : DirEntry) : List Nat :=
  (e.grains.flatMap fun g => g.sharers.agents ++ (g.owner.toList.map Prod.fst)).eraseDups

/-- Whether an agent outside the module owns dirty data of an entry. -/
def State.dirtyAbroad (s : State) (e : DirEntry) : Bool :=
  e.grains.any fun g => g.dirty && match g.owner with | some (ag, inc) => s.foreign ag && inc == s.incOf ag | none => false

/-- What the line of a directory entry names, where its region or window is still there. -/
def State.entryTarget (s : State) (k : Nat) : Option Target :=
  let a := k / 4096 * 512
  if inTier a then some (.mem a)
  else (s.windowOf a).bind fun w => if w.fmt = 0 ∧ w.hasLog a ∧ w.key = k % 4096 then some (.dec w a) else none

/-- The stale pointers and owners of a directory entry are handled, as they are whenever the entry is touched (R137). -/
def State.scrubEntry (s : State) (k : Nat) : State :=
  let e := Tab.get DirEntry.empty s.dir k
  let base := k / 4096 * 512
  let (gs, s) := (List.range e.grains.length).foldl (fun (acc : List Grain × State) i =>
    let g := e.grains.getD i Grain.di
    let ga := base + i * e.grain
    let (g, s) := match acc.2.entryTarget k with
      | some t => acc.2.scrubGrain (k % 4096) t ga e.grain g
      | none => acc.2.scrubGrain (k % 4096) (.mem base) ga e.grain { g with homeCopy := none }
    (acc.1 ++ [g], s)) ([], s)
  s.setDirEntry base (k % 4096) { e with grains := gs }

/-- Frees a directory entry: what is stale in it is handled (R137), and every copy that it names is invalidated (R123). -/
def State.recallEntry (s : State) (k : Nat) : State :=
  let s := s.scrubEntry k
  let e := Tab.get DirEntry.empty s.dir k
  let s := s.sendMsgs (k / 4096 * 512) (k % 4096) 512 0 e.agents []
  { s with dir := Tab.set DirEntry.empty s.dir k DirEntry.empty,
           dieLines := s.dieLines.filter fun l => !(e.agents.contains l.agent && l.tag.line == k / 4096 && l.tag.key == k % 4096) }

/-- How many lines a slice holds directory entries for (R123). -/
def sliceEntries : Nat := 16384

/-- The entries of the slice that would hold a line's entry, where the line has none and the slice is full. -/
def State.fullSlice (s : State) (k : Nat) : Option (List (Nat × DirEntry)) :=
  if !(Tab.get DirEntry.empty s.dir k).grains.isEmpty then none
  else
    let sl := s.entrySlice k
    let mine := s.dir.filter fun x => s.entrySlice x.1 == sl
    if mine.length < sliceEntries then none else some mine

/-- Room for an entry (R123): where the line has none yet, its grains become other than DI, and its slice is full, the slice
frees an entry, the first whose data no agent outside the module holds dirty (log 101). -/
def State.entryRoom (s : State) (a key : Nat) (gs : List Grain) : State :=
  if gs.all (fun g => g.owner.isNone && g.sharers.empty) then s
  else
    match s.fullSlice (dirKey a key) with
    | none => s
    | some mine =>
      match mine.find? fun x => !s.dirtyAbroad x.2 with
      | some x => s.recallEntry x.1
      | none => s

/-- Where a slice is full of entries whose data agents outside the module own dirty, a request that needs a new one waits, and
the first of them is recalled (R123). -/
def State.entryWaits (s : State) (t : Target) (key : Nat) : Option State :=
  match s.fullSlice (dirKey t.addr key) with
  | none => none
  | some mine =>
    if mine.any fun x => !s.dirtyAbroad x.2 then none
    else mine.head?.map fun x => s.sendRecalls false (x.1 % 4096) (t.at (x.1 / 4096 * 512)) 512

/-- Applies `f` to each grain that a range of one 512-byte line touches: `f` has the grain's address, its size, the grain
and the state. -/
def State.onGrains (s : State) (key : Nat) (t : Target) (n gran : Nat) (f : Nat → Nat → Grain → State → Grain × State) :
    State :=
  match t with
  | .far _ => s
  | _ =>
    let a := t.addr
    let e := s.dirEntry a key gran
    let base := a / 512 * 512
    let (gs, s) := (List.range e.grains.length).foldl (fun (acc : List Grain × State) i =>
      let g := e.grains.getD i Grain.di
      let ga := base + i * e.grain
      if ga < a + n ∧ a < ga + e.grain then
        let (g, s) := acc.2.scrubGrain key t ga e.grain g
        let (g, s) := f ga e.grain g s
        (acc.1 ++ [g], s)
      else (acc.1 ++ [g], acc.2)) ([], s)
    (s.entryRoom a key gs).setDirEntry a key { e with grains := gs }

/-- The bytes of a grain at the home place; a grain of a decoded or poisoned line that cannot be read counts as 0. -/
def State.grainBytes (s : State) (key : Nat) (t : Target) (ga gsz : Nat) : Nat :=
  match t with
  | .dec w _ => if w.fmt = 0 then s.readL6 w ga gsz else 0
  | .mem _ => s.readMem key ga gsz
  | .far _ => 0

/-- Whether a directory entry names a stale agent in a range (R137). -/
def State.staleIn (s : State) (key : Nat) (t : Target) (n : Nat) : Bool :=
  let e := Tab.get DirEntry.empty s.dir (dirKey t.addr key)
  (List.range e.grains.length).any fun i =>
    let ga := t.addr / 512 * 512 + i * e.grain
    let g := e.grains.getD i Grain.di
    decide (ga < t.addr + n) && decide (t.addr < ga + e.grain) &&
      ((g.owner.any fun o => o.2 != s.incOf o.1) || s.liveSharers g.sharers != g.sharers)

/-- The stale pointers and owners of a range are handled before a request touches its entry (R137). -/
def State.scrub (s : State) (key : Nat) (t : Target) (n : Nat) : State :=
  match t with
  | .far _ => s
  | _ => if s.staleIn key t n then s.onGrains key t n 512 fun _ _ g st => (g, st) else s

/-! ## The die caches -/

/-- Sectors of a 512-byte line that a grain covers (R116). -/
def sectorMask (ga gsz : Nat) : BitVec 16 := BitVec.ofNat 16 ((2 ^ (gsz / 32) - 1) * 2 ^ (ga % 512 / 32))
/-- Sectors that `n` bytes at `a` touch. -/
def sectorsAt (a n : Nat) : BitVec 16 := sectorMask (a / 32 * 32) ((a + n + 31) / 32 * 32 - a / 32 * 32)

/-- The die line of an agent under a tag (line address div 512). -/
def State.dieFind (s : State) (ag : Nat) (tag : Tag) : Option DieLine := s.dieLines.find? fun l => l.agent == ag && l.tag == tag
def State.dieLine (s : State) (ag : Nat) (tag : Tag) : BitVec 16 :=
  match s.dieFind ag tag with
  | some l => l.valid
  | none => 0

/-- The native tag of a 512-byte line. -/
def nativeDieTag (a key : Nat) : Tag := { line := a / 512, key := key, fmt := 0, etype := 0, mode := 0 }

/-- A message to the home of another member (R313). -/
def State.sendFar (s : State) (kind : CohKind) (m : CohMsg) (mask : Nat) : State :=
  { s with cohSent := s.cohSent ++ [{ kind := kind, msg := m, mask := mask }] }

/-- A sector mask as a byte mask of a 512-byte line. -/
def bytesOfSectors (v : BitVec 16) : Nat := packN 32 ((List.range 16).map fun i => if v.getLsbD i then 2 ^ 32 - 1 else 0)

/-- The message about a die line of another member. -/
def DieLine.farMsg (l : DieLine) : CohMsg :=
  { agent := l.agent, addr := l.tag.line * 512 - 2 ^ 51, key := l.tag.key, grain := 512, fmt := l.tag.fmt, etype := l.tag.etype,
    mode := l.tag.mode, data := l.data.toNat }

/-- A line of another member leaves a die cache: WB from an owner that has written it, Dr otherwise (R125, R126). -/
def State.farDropped (s : State) (l : DieLine) : State :=
  s.sendFar (if l.dirty then .wb else .dr) l.farMsg l.valid.toNat

/-- The bytes of a disabled region, as it keeps them, with `n` bytes put back to what storage held (R96, R113). -/
def State.revertMemo (s : State) (key a n x : Nat) : State :=
  { s with regionMemo := s.regionMemo.map fun e => (e.1, e.2.map fun m =>
      if m.base ≤ a ∧ a < m.limit then { m with cells := Memory.write m.cells (s.memKey key a) n (x ^^^ s.keyBase key a n) } else m) }

/-- A die line whose region, window or key has been reconfigured beneath it leaves its cache: what its agent has written is lost
(R113). -/
def State.dieLost (s : State) (l : DieLine) (cause : Nat) : State :=
  let a := l.tag.line * 512
  let key := l.tag.key
  let p : Ptr := { agent := l.agent, inc := s.incOf l.agent, fmt := l.tag.fmt, etype := l.tag.etype, mode := l.tag.mode }
  let e := Tab.get DirEntry.empty s.dir (dirKey a key)
  let mine (g : Grain) : Bool := p.native && g.owner.any fun o => o.1 == l.agent
  let lost := (Tab.get DecLine.clean s.decoded (decKey a key)).dirty ≠ 0 || e.grains.any fun g => mine g && g.dirty
  let s := (List.range e.grains.length).foldl (fun s i =>
    let g := e.grains.getD i Grain.di
    match (if mine g && g.dirty && inTier a then g.homeCopy else none) with
    | some x => s.revertMemo key (a + i * e.grain) e.grain x
    | none => s) s
  let s := { s with decoded := Tab.set DecLine.clean s.decoded (decKey a key) DecLine.clean }
  let s := s.setDirEntry a key { e with grains := e.grains.map fun g => if mine g then g.writtenBack else g.drop p }
  if lost then s.lostWrite (s.homeOfLine a) cause a key else s

/-- What the home of a line hears when a die cache drops it (R125, R126): WB from an owner that has written it, Dr otherwise;
the home die's own slice writes a decoded line back to its backing (R107). -/
def State.dieDropped (s : State) (l : DieLine) : State :=
  let a := l.tag.line * 512
  if 2 ^ 51 ≤ a then s.farDropped l
  else
    match (if inTier a && (s.regionOf a).isSome then .ok (.mem a) else s.targetOfLine a l.tag.key) with
    | .error 5 =>
      -- a pip line is never dirty (R107): only what an L6 window has left is lost
      if (Tab.get DecLine.clean s.decoded (decKey a l.tag.key)).dirty = 0 then
        s.onGrains l.tag.key (.mem a) 512 512 fun _ _ g st => (g.drop { agent := l.agent, inc := st.incOf l.agent, fmt := l.tag.fmt, etype := l.tag.etype, mode := l.tag.mode }, st)
      else s.dieLost l 5
    | .error c => s.dieLost l c
    | .ok t =>
      if l.agent = s.agentOf (s.homeOfLine a) then s.dropDecoded a l.tag.key
      else
        s.onGrains l.tag.key t 512 512 fun ga gsz g st =>
          if l.valid &&& sectorMask ga gsz = 0 then (g, st)
          else
            let p : Ptr := { agent := l.agent, inc := st.incOf l.agent, fmt := l.tag.fmt, etype := l.tag.etype, mode := l.tag.mode }
            if (g.owner.any fun o => o.1 == l.agent) && p.native then (g.writtenBack, st) else (g.drop p, st)

/-- The slice and the set of a line in a die's cache (R116): the slice as R118 hashes it, the set by address bits [23:16], which
the manual does not name (log 110). -/
def State.dieSet (s : State) (ag : Nat) (tag : Tag) : Nat × Nat :=
  (s.sliceCur (ag % 4) (sliceHash (tag.line * 512 % 2 ^ 48)), tag.line / 128 % 256)
/-- Ways of a set of a slice (R116). -/
def dieWays : Nat := 16

/-- A die line as the most recently used of its set; a full set drops its least recently used one (R116). -/
def State.putDieLine (s : State) (l : DieLine) : State :=
  let rest := s.dieLines.filter fun x => !(x.agent == l.agent && x.tag == l.tag)
  if l.valid = 0 then { s with dieLines := rest }
  else
    let mates := rest.filter fun x => x.agent == l.agent && s.dieSet x.agent x.tag == s.dieSet l.agent l.tag
    let kept := { s with dieLines := l :: rest }
    if mates.length < dieWays then kept
    else
      match mates.getLast? with
      | some v => { kept with dieLines := kept.dieLines.filter fun x => x != v }.dieDropped v
      | none => kept

def State.setDieLine (s : State) (ag : Nat) (tag : Tag) (v : BitVec 16) : State :=
  match s.dieFind ag tag with
  | some l => s.putDieLine { l with valid := v }
  | none => s.putDieLine { agent := ag, tag := tag, valid := v }

/-- The sectors of a range become valid in a die's line. -/
def State.gainSectors (s : State) (ag : Nat) (tag : Tag) (m : BitVec 16) : State :=
  if m = 0 then s else s.setDieLine ag tag (s.dieLine ag tag ||| m)

/-- Whether the agent's die cache holds narrow copies only of a sector set of the line (R133): copies whose format is not
native (R117). -/
def State.holdsNarrow (s : State) (ag line key : Nat) (m : BitVec 16) : Bool :=
  let held := s.dieLines.filter fun l => l.agent == ag && l.tag.line == line && l.tag.key == key
  (held.any fun l => l.tag.fmt != 0 && l.valid &&& m == m) && held.all fun l => l.tag.fmt != 0 || l.valid &&& m == 0

/-- Whether the home slice of an address is being moved: no request for it is recorded (R139). -/
def State.sliceMoving (s : State) (d a : Nat) : Bool :=
  bit (s.hubGet (slAddr d + 256)) 63 && s.sliceNew d (sliceHash a) != s.sliceCur d (sliceHash a)

/-! ## Writes -/

/-- The lines of this module's die caches, but agent `ag`'s, that own bytes of another member's memory which its home is asked for:
the home recalls them first (R126, R313), and they stay shared. -/
def State.recallOwn (s : State) (ag : Option Nat) (pa key : Nat) : State :=
  (s.dieLines.filter fun l => l.tag == nativeDieTag (farAddr pa) key && l.own && some l.agent != ag).foldl (fun s l =>
    let s := s.sendFar .rc l.farMsg (if l.dirty then l.valid.toNat else 0)
    { s with dieLines := s.dieLines.map fun x => if x = l then { x with own := false, dirty := false } else x }) s

/-- The copies of bytes of another member's memory that this module's die caches hold are discarded, as the write that its home
performs makes them (R128), but for those that `p` keeps. -/
def State.dropFar (s : State) (pa key n : Nat) (p : DieLine → Bool) : State :=
  let m := sectorsAt (farAddr pa) n
  let cut (l : DieLine) : DieLine :=
    if l.tag.line = farAddr pa / 512 ∧ l.tag.key = key ∧ p l = false then { l with valid := l.valid &&& ~~~ m } else l
  { s with dieLines := (s.dieLines.map cut).filter fun l => l.valid != 0 }

/-- A write of this module that is performed at the home of another member (R126's WT and Am, R135). -/
def State.farHomeWrite (s : State) (kind : CohKind) (ag pa key n m x : Nat) : State :=
  let s := (s.recallOwn none pa key).sendFar kind (cohMsg ag pa key n x none) m
  (s.farPut pa key n m x).dropFar pa key n fun _ => false

/-- A write that reaches the home from the home die's own units, from an atomic, or as a write-through (R126's WT, Am and
WB, R128): the owner writes back, the bytes are applied, and every sharer whose copy changes is told. -/
def State.homeWrite (s : State) (writer : Option Nat) (key : Nat) (t : Target) (gran n m x : Nat) : State :=
  match t with
  | .far pa => s.farHomeWrite .wt (writer.getD (s.agentOf 0)) pa key n m x
  | _ =>
    let s := s.scrub key t n
    let s' := s.writeTarget key t n m x
    let s' := s'.onGrains key t n gran fun ga gsz g st =>
      let g := g.recall
      let new := s'.grainBytes key t ga gsz
      let (sh, iv, ud) := resolveWrite g.sharers writer gsz (s.grainBytes key t ga gsz) new
      ({ g with sharers := sh }, st.sendMsgs ga key gsz new iv ud)
    match s'.homeOf t with
    | some h => s'.gainSectors (s'.agentOf h) (nativeDieTag t.addr key) (sectorsAt t.addr n)
    | none => s'

/-- Whether a grain of the range answers a request for ownership with write-through only: it is home-written (R126), or its
slice is being moved (R139). -/
def State.throughOnly (s : State) (h key : Nat) (t : Target) (gran n : Nat) : Bool :=
  s.sliceMoving h t.addr ||
    (let e := s.dirEntry t.addr key gran
     (List.range e.grains.length).any fun i =>
      let ga := t.addr / 512 * 512 + i * e.grain
      decide (ga < t.addr + n ∧ t.addr < ga + e.grain) &&
        ({ e.grains.getD i Grain.di with sharers := s.liveSharers (e.grains.getD i Grain.di).sharers } : Grain).state == .dw)

/-- Whether an agent other than `ag` holds a grain of the range. -/
def State.othersHold (s : State) (ag key : Nat) (t : Target) (n : Nat) : Bool :=
  let e := Tab.get DirEntry.empty s.dir (dirKey t.addr key)
  (List.range e.grains.length).any fun i =>
    let ga := t.addr / 512 * 512 + i * e.grain
    decide (ga < t.addr + n ∧ t.addr < ga + e.grain) && !((e.grains.getD i Grain.di).others ag).isEmpty

/-- The agents other than `ag` that hold the range are invalidated, as a request for ownership makes them (R126). -/
def State.invalidateOthers (s : State) (ag key : Nat) (t : Target) (gran n : Nat) : State :=
  (s.scrub key t n).onGrains key t n gran fun ga gsz g st =>
    (g.only ag, st.sendMsgs ga key gsz 0 (g.others ag) [])

/-- Why a write-through of die `d` cannot be performed now, as the state in which it waits: a bell holds it, unless it hits
in the slice of its own die (R164); its home waits for a recall or an acknowledgement (R126, R130); or the other holders of
its grains have to be invalidated first (R126). -/
def State.writeWaits (s : State) (d key : Nat) (t : Target) (gran n : Nat) : Option State :=
  let ag := s.agentOf d
  match s.homeOf t with
  | none => if s.bellIn then some s else none
  | some h =>
    if s.bellIn && !(h == d && s.dieLine ag (nativeDieTag t.addr key) &&& sectorsAt t.addr n == sectorsAt t.addr n) then some s
    else
      match s.homeWaits key t n with
      | some s => some s
      | none =>
        if h = d ∨ s.throughOnly h key t gran n then none
        else
          match s.entryWaits t key with
          | some s => some s
          | none => if s.othersHold ag key t n then some (s.invalidateOthers ag key t gran n) else none

/-- The words of a write applied to a die's line of another member, and the requests that go to its home (R126, R313): an
owner keeps them dirty; another asks for ownership, and where it is refused the words go through. -/
def State.farWrite (s : State) (ag pa key n m x : Nat) : State :=
  let a := farAddr pa
  let tag := nativeDieTag a key
  let l := (s.dieFind ag tag).getD { agent := ag, tag := tag, valid := 0 }
  let sm := sectorsAt a n
  let msg := cohMsg ag pa key n 0 none
  let mine (x : DieLine) : Bool := x.agent == ag && x.tag == tag
  let put (l : DieLine) : DieLine :=
    { l with data := BitVec.ofNat 4096 (setBytes l.data.toNat (a % 512) n (mergeBytes n m (bits l.data.toNat (8 * (a % 512)) (8 * n)) x)) }
  if l.own ∧ l.valid &&& sm = sm then (s.putDieLine { put l with dirty := true }).farPut pa key n m x
  else
    let s := (s.sendFar .rdo msg m).recallOwn (some ag) pa key
    if Config.farGrant s.steps pa key then
      let old := byteMask 512 (bytesOfSectors l.valid)
      let home := s.farBytes (pa / 512 * 512) key 512
      let filled := { l with data := BitVec.ofNat 4096 ((home &&& ((2 ^ 4096 - 1) ^^^ old)) ||| (l.data.toNat &&& old)) }
      ((s.dropFar pa key n mine).putDieLine { put filled with valid := l.valid ||| sm, own := true, dirty := true }).farPut pa key n m x
    else
      let s := ((s.sendFar .wt { msg with data := x } m).farPut pa key n m x).dropFar pa key n mine
      if l.valid &&& sm = sm then s.putDieLine (put l) else s

/-- A write-through from the private caches of die `d` that need not wait (R126): on the home die it is a write at the home;
elsewhere the die cache takes ownership, or, where the home answers write-through only, the words go to the home. -/
def State.dieWrite (s : State) (d key : Nat) (t : Target) (gran n m x : Nat) : State :=
  let ag := s.agentOf d
  match t, s.homeOf t with
  | .far pa, _ => s.farWrite ag pa key n m x
  | _, none => s
  | _, some h =>
    if h = d then s.homeWrite none key t gran n m x
    else if s.throughOnly h key t gran n then s.homeWrite (some ag) key t gran n m x
    else
      let s := s.scrub key t n
      let s' := s.writeTarget key t n m x
      let s' := s'.onGrains key t n gran fun ga gsz g st =>
        ({ g.rdO ag (st.incOf ag) with
            dirty := true, homeCopy := if g.dirty then g.homeCopy else some (s.grainBytes key t ga gsz) }, st)
      s'.gainSectors ag (nativeDieTag t.addr key) (sectorsAt t.addr n)

/-! ## Reads -/

/-- The sectors of the grains that a range touches. -/
def State.grainSectors (s : State) (key : Nat) (t : Target) (n gran : Nat) : BitVec 16 :=
  let g := (s.dirEntry t.addr key gran).grain
  sectorMask (t.addr / g * g) ((t.addr + n + g - 1) / g * g - t.addr / g * g)

/-- The request that a load of die `d` makes for what its die cache does not hold (R126, R127, R133): RdS, RdF, or Up
where it holds only narrow copies. The home die makes none; its slice recalls an owner (R132). -/
def State.dieRead (s : State) (d : Nat) (tag : Tag) (t : Target) (n gran : Nat) : State :=
  let ag := s.agentOf d
  match s.homeOf t with
  | none => s
  | some h =>
    if h = d then
      let s := if (Tab.get DirEntry.empty s.dir (dirKey t.addr tag.key)).grains.isEmpty then s
        else s.onGrains tag.key t n gran fun _ _ g st => (g.recall, st)
      s.gainSectors ag (nativeDieTag t.addr tag.key) (s.grainSectors tag.key t n gran)
    else if s.sliceMoving h t.addr then s
    else
      let tag := { tag with line := t.addr / 512 }
      let have' := s.dieLine ag tag
      let want := s.grainSectors tag.key t n gran
      if have' &&& want = want then s.gainSectors ag tag want
      else
        let s := s.onGrains tag.key t n gran fun ga gsz g st =>
          let m := sectorMask ga gsz
          if have' &&& m = m then (g, st)
          else if tag.fmt = 0 ∧ tag.mode = 0 then
            if st.holdsNarrow ag tag.line tag.key m && (g.state == .ds || g.state == .dw) then (g.up ag (st.incOf ag), st)
            else (g.rdS ag (st.incOf ag), st)
          else
            (g.rdF { agent := ag, inc := st.incOf ag, fmt := tag.fmt, etype := tag.etype, mode := tag.mode }, st)
        s.gainSectors ag tag want

/-- The request that a read of `n` bytes of another member's memory sends: RdS, RdF, or Up where the die holds only narrow copies
of them (R126, R127, R133). -/
def State.askFar (s : State) (d : Nat) (tag : Tag) (pa n : Nat) : State :=
  let kind : CohKind :=
    if tag.fmt = 0 ∧ tag.mode = 0 then
      (if s.holdsNarrow (s.agentOf d) (farAddr pa / 512) tag.key (sectorsAt (farAddr pa) n) then .up else .rds)
    else .rdf
  s.sendFar kind
    { agent := s.agentOf d, addr := pa, key := tag.key, grain := n, fmt := tag.fmt, etype := tag.etype, mode := tag.mode } 0

/-- The grains of another member's memory that a read touches, as the home answers a die under a tag, in its die cache: the sectors
that it held stay as they are (R116, R313). -/
def State.farFetch (s : State) (d : Nat) (tag : Tag) (pa n : Nat) : DieLine × State :=
  let ag := s.agentOf d
  let tag := { tag with line := farAddr pa / 512 }
  let l := (s.dieFind ag tag).getD { agent := ag, tag := tag, valid := 0 }
  let o := pa % 512
  let x := formatView tag.fmt tag.etype n (s.farBytes pa tag.key n)
  let old := byteMask 512 (bytesOfSectors l.valid)
  let new := setBytes 0 o n x
  let l := { l with data := BitVec.ofNat 4096 ((new &&& ((2 ^ 4096 - 1) ^^^ old)) ||| (l.data.toNat &&& old)),
                    valid := l.valid ||| sectorsAt o n }
  (l, s.putDieLine l)

/-- A read of another member's memory by a die under a tag (R313): what its die cache holds, or else the home's answer, of the whole
coherence grain (R116). -/
def State.farRead (s : State) (d : Nat) (tag : Tag) (pa n gran : Nat) : Nat × State :=
  let a := farAddr pa
  let sm := sectorsAt a n
  let ask : Nat × State :=
    let p0 := pa / gran * gran
    let k := (pa + n + gran - 1) / gran * gran - p0
    let (l, s) := ((s.askFar d tag p0 k).recallOwn (some (s.agentOf d)) p0 tag.key).farFetch d tag p0 k
    (bits l.data.toNat (8 * (a % 512)) (8 * n), s)
  match s.dieFind (s.agentOf d) { tag with line := a / 512 } with
  | some l => if l.valid &&& sm = sm then (bits l.data.toNat (8 * (a % 512)) (8 * n), s) else ask
  | none => ask

/-- An uncached or device read of another member's memory, performed at its home and held in no die cache (R135). -/
def State.farUncached (s : State) (d : Nat) (pa key n : Nat) : Nat × State :=
  let s := (s.recallOwn none pa key).askFar d (nativeDieTag (farAddr pa) key) pa n
  (s.farBytes pa key n, s)

/-- The bytes of a 128-byte line as its tag sees them (R127). -/
def tagView (tag : Tag) (n x : Nat) : Nat := formatView tag.fmt tag.etype n x

/-- A read at the home place by die `d` under a tag: `n` bytes of whole elements within one 128-byte line. -/
def State.homeRead (s : State) (d : Nat) (tag : Tag) (t : Target) (n gran : Nat) : Except (Nat × Nat) Nat × State :=
  match t with
  | .far pa => let (x, s) := s.farRead d tag pa n gran; (.ok x, s)
  | _ =>
    let s := s.scrub tag.key t n
    match s.readTarget tag.key t n with
    | .error e => (.error e, s)
    | .ok x => (.ok (tagView tag n x), s.dieRead d tag t n gran)

/-- A read that is performed at the home place itself, by die `d`'s slice where it is homed here (R135, R177). -/
def State.placeRead (s : State) (d key : Nat) (t : Target) (n gran : Nat) : Except (Nat × Nat) Nat × State :=
  match t with
  | .far pa => let (x, s) := s.farUncached d pa key n; (.ok x, s)
  | _ => s.homeRead d (nativeDieTag t.addr key) t n gran

end Sys2Proof.Machine
end

