-- ==== Sys2Proof/Machine/Places.lean ====
section
/-!
DEFINITION. The private caches and the places where accesses are performed (R152 to R163, R176 to R182): lines with word
masks and stamps, fills, write-throughs, evictions, acquires and releases.
-/
namespace Sys2Proof.Machine

/-- One part of an access: `n` bytes within one 64-byte piece of one line, with what its translation says (R143). -/
structure Piece where
  va : Nat
  n : Nat
  t : Target
  key : Nat
  attr : Word
deriving DecidableEq, Repr

/-- Fields of a leaf entry (R143). -/
def leafSfmt (w : Word) : Nat := fld w 13 2
def leafSmode (w : Word) : Nat := fld w 15 1
def leafEtype (w : Word) : Nat := fld w 52 1
def leafClass (w : Word) : Nat := fld w 11 2
def leafGrain (w : Word) : Nat := match fld w 9 2 with | 0 => 32 | 1 => 128 | _ => 512
def leafRO (w : Word) : Bool := bit w 53
/-- Whether a page is subscribed (R127). -/
def leafSub (w : Word) : Bool := leafSfmt w != 0 || leafSmode w != 0

/-- The tag under which a piece's line is cached (R117). -/
def Piece.tag (p : Piece) : Tag :=
  { line := p.t.addr / 128, key := p.key, fmt := leafSfmt p.attr,
    etype := if leafSfmt p.attr = 0 then 0 else leafEtype p.attr, mode := leafSmode p.attr }
def Piece.off (p : Piece) : Nat := p.t.addr % 128
/-- The native tag of the piece's line: the one that stores use. -/
def Piece.nativeTag (p : Piece) : Tag := { line := p.t.addr / 128, key := p.key, fmt := 0, etype := 0, mode := 0 }

/-- The words of a 128-byte line that bytes [o, o + n) touch. -/
def wordsOf (o n : Nat) : BitVec 32 :=
  if n = 0 then 0 else BitVec.ofNat 32 ((2 ^ ((o + n - 1) / 4 - o / 4 + 1) - 1) * 2 ^ (o / 4))
/-- A word mask as a byte mask. -/
def bytesOfWords (m : BitVec 32) : Nat := (List.range 128).foldl (fun a i => a + (if m.getLsbD (i / 4) then 2 ^ i else 0)) 0
/-- Of two lines' data, the second's words where the mask is set. -/
def mergeWords (m : BitVec 32) (a b : Nat) : Nat :=
  let bm := byteMask 128 (bytesOfWords m)
  (a &&& ((2 ^ 1024 - 1) ^^^ bm)) ||| (b &&& bm)

/-! ## The cache lists -/

def State.coreCache (s : State) (core : Nat) : PCache := Tab.get PCache.empty s.l1d core
def State.setCoreCache (s : State) (core : Nat) (c : PCache) : State :=
  { s with l1d := Tab.set PCache.empty s.l1d core c }
def State.clusterCache (s : State) (cl : Nat) : PCache := Tab.get PCache.empty s.ccache cl
def State.setClusterCache (s : State) (cl : Nat) (c : PCache) : State :=
  { s with ccache := Tab.set PCache.empty s.ccache cl c }

def PCache.find (c : PCache) (tag : Tag) : Option Line := c.lines.find? fun l => l.tag == tag
def PCache.without (c : PCache) (tag : Tag) : PCache := { c with lines := c.lines.filter fun l => l.tag != tag }
/-- The line as the most recently used one. -/
def PCache.put (c : PCache) (l : Line) : PCache :=
  { c with lines := l :: c.lines.filter fun x => x.tag != l.tag }

/-- The words of a line that a read may use (R153, R155). -/
def PCache.usable (c : PCache) (l : Line) : BitVec 32 := if l.ro || l.stamp == c.stamp then l.valid else l.dirty

/-- The line of a full set that leaves next: the least recently used one, those of the temporal class keep last of all (R34,
R152); none while the set holds fewer lines than it has ways. -/
def PCache.lru (c : PCache) (sets ways line : Nat) : Option Line :=
  let inSet := c.lines.filter fun l => l.tag.line % sets == line % sets
  if inSet.length < ways then none
  else
    match inSet.reverse.find? fun l => l.tmp != 2 with
    | some l => some l
    | none => inSet.getLast?

/-- The line that must leave to make room for `tag`. -/
def PCache.victim (c : PCache) (sets ways : Nat) (tag : Tag) : Option Line :=
  if (c.find tag).isSome then none else c.lru sets ways tag.line

/-- The words of the lines that hold the same bytes under another format or mode are missing from now on: a store to the native
line makes them old (R188, R189). The lines stay (R152). -/
def PCache.staleAliases (c : PCache) (tag : Tag) : PCache :=
  { c with lines := c.lines.map fun l =>
      if l.tag.line = tag.line ∧ l.tag.key = tag.key ∧ l.tag ≠ tag then { l with valid := l.dirty } else l }

/-! ## Writing through -/

/-- A change that may have to wait: `ok` with the state after it, `error` with the state in which it waits. -/
abbrev Try := Except State State
/-- The state of an attempt, whether or not it has to be made again. -/
def Try.anyway : Try → State | .ok s => s | .error s => s
def Try.andThen (r : Try) (f : State → Try) : Try := match r with | .ok s => f s | .error s => .error s

/-- Why the dirty words of a line cannot be written through from the caches of a die now, as the state in which they wait. -/
def State.lineWaits (s : State) (die : Nat) (l : Line) : Option State :=
  match s.targetOfLine (l.tag.line * 128) l.tag.key with
  | .error _ => none
  | .ok t =>
    let step := min 128 (s.dirEntry t.addr l.tag.key l.grain).grain
    let at' (i : Nat) : Target := match t with | .far pa => .far (pa + step * i) | _ => t.at (t.addr + step * i)
    ((List.range (128 / step)).filter fun i => bits (bytesOfWords l.dirty) (step * i) step != 0).findSome? fun i =>
      s.writeWaits die l.tag.key (at' i) l.grain step

/-- The dirty words of a line, written through from the caches of a die to the home place, a grain at a time (R128, R154,
R157); an error discards them (R113). Where the home has one of its grains wait, the line stays as it is. -/
def State.lineHome (s : State) (die : Nat) (l : Line) : Try :=
  if l.dirty = 0 then .ok s
  else
    match s.targetOfLine (l.tag.line * 128) l.tag.key with
    | .error c => .ok (s.lostWrite die c (l.tag.line * 128) l.tag.key)
    | .ok t =>
      let step := min 128 (s.dirEntry t.addr l.tag.key l.grain).grain
      let bm := bytesOfWords l.dirty
      let at' (i : Nat) : Target := match t with | .far pa => .far (pa + step * i) | _ => t.at (t.addr + step * i)
      let ks := (List.range (128 / step)).filter fun i => bits bm (step * i) step != 0
      match s.lineWaits die l with
      | some u => .error u
      | none =>
        .ok (ks.foldl (fun s i => s.dieWrite die l.tag.key (at' i) l.grain step (bits bm (step * i) step)
          (bits l.data.toNat (8 * step * i) (8 * step))) s)

/-- A cluster-cache line without its dirty marks, its words written through. -/
def State.clusterLineOut (s : State) (cl : Nat) (l : Line) : Try :=
  if l.dirty = 0 then .ok s
  else
    (s.lineHome (cl / 64) l).andThen fun s =>
      let c := (s.clusterCache cl).staleAliases l.tag
      .ok (s.setClusterCache cl { c with lines := c.lines.map fun x => if x.tag == l.tag then { x with dirty := 0 } else x })

/-- Makes room in a cluster cache (R152). -/
def State.clusterRoom (s : State) (cl : Nat) (tag : Tag) : Try :=
  match (s.clusterCache cl).victim 2048 16 tag with
  | none => .ok s
  | some l => (s.lineHome (cl / 64) l).andThen fun s => .ok (s.setClusterCache cl ((s.clusterCache cl).without l.tag))

/-- The temporal class of a line after an access of class `tmp`: keep lasts (R34). -/
def tmpAfter (old tmp : Nat) : Nat := if old = 2 then 2 else tmp

/-- Words written into a cluster cache from above, or by an engine: they become dirty words there. A line that another
task left dirty is written through first (R140). A stream that misses does not allocate: its words go on to the home, and wait where
they must wait there (R34). A bell holds what misses (R164). -/
def State.clusterPut (s : State) (cl : Nat) (tag : Tag) (words : BitVec 32) (data grain ttag : Nat) (ro : Bool) (tmp : Nat) : Try :=
  let found := (s.clusterCache cl).find tag
  let put (s : State) : Try :=
    (s.clusterRoom cl tag).andThen fun s =>
      let c := (s.clusterCache cl).staleAliases tag
      let l : Line := (c.find tag).getD
        { tag := tag, data := 0, valid := 0, dirty := 0, stamp := c.stamp, ro := ro, tmp := 0, grain := grain, ttag := ttag }
      .ok (s.setClusterCache cl (c.put
        { l with data := BitVec.ofNat 1024 (mergeWords words l.data.toNat data), valid := l.valid ||| words,
                 dirty := l.dirty ||| words, grain := if l.dirty = 0 then grain else min grain l.grain, ttag := ttag,
                 tmp := tmpAfter l.tmp tmp }))
  match found with
  | some l => if l.dirty ≠ 0 ∧ l.ttag ≠ ttag then (s.clusterLineOut cl l).andThen put else put s
  | none =>
    if tmp = 1 then
      (s.lineHome (cl / 64) { tag := tag, data := BitVec.ofNat 1024 data, valid := words, dirty := words, stamp := 0, ro := ro,
                              tmp := 1, grain := grain, ttag := ttag }).andThen fun s =>
        .ok (s.setClusterCache cl ((s.clusterCache cl).staleAliases tag))
    else if s.bellIn then .error s
    else put s

/-- The dirty words of a core's line, written through to the cluster cache (R154). -/
def State.coreLineOut (s : State) (core : Nat) (l : Line) : Try :=
  if l.dirty = 0 then .ok s
  else
    (s.clusterPut (core / 4) l.tag l.dirty l.data.toNat l.grain l.ttag l.ro l.tmp).andThen fun s =>
      .ok (s.setCoreCache core { s.coreCache core with
        lines := (s.coreCache core).lines.map fun x => if x.tag == l.tag then { x with dirty := 0 } else x })

/-- Makes room in a core's L1 (R152). -/
def State.coreRoom (s : State) (core : Nat) (tag : Tag) : Try :=
  match (s.coreCache core).victim 128 8 tag with
  | none => .ok s
  | some l => (s.coreLineOut core l).andThen fun s => .ok (s.setCoreCache core ((s.coreCache core).without l.tag))

/-! ## Fills -/

/-- The error an access meets at a read (R111), or the state in which it waits: for the end of a bell (R164), or for what
its home, or a line that must leave for it, waits for. -/
inductive Miss where
  | err (cause addr : Nat)
  | held (s : State)
deriving DecidableEq, Repr

/-- An attempt as a part of an access. -/
def Try.then {α : Type} (r : Try) (f : State → Except Miss α) : Except Miss α :=
  match r with | .ok s => f s | .error s => .error (.held s)

/-- A read of a whole line at the home place; held during a bell (R164), and while its home makes it wait: a native read of another
die is RdS, beside which an owner may stay owner (R126). -/
def State.lineFromHome (s : State) (die : Nat) (p : Piece) (tag : Tag) : Except Miss (Nat × State) :=
  if s.bellIn then .error (.held s)
  else
    let t := match p.t with | .far pa => .far (pa / 128 * 128) | t => t.at (t.addr / 128 * 128)
    match s.homeWaitsFor (tag.fmt == 0 && tag.mode == 0 && s.homeOf t != some die) tag.key t 128 with
    | some s => .error (.held s)
    | none =>
      match (if s.homeOf t = some die then none else s.entryWaits t tag.key) with
      | some s => .error (.held s)
      | none =>
        match s.homeRead die tag t 128 (leafGrain p.attr) with
        | (.error e, _) => .error (.err e.1 e.2)
        | (.ok x, s) => .ok (x, s)

/-- The data of a piece's line at the cluster place, filled from the home place where the wanted words are missing or
stale (R153, R177); `tmp` is the temporal class (R34). -/
def State.clusterLine (s : State) (cl : Nat) (p : Piece) (tag : Tag) (want : BitVec 32) (tmp ttag : Nat) :
    Except Miss (Nat × State) :=
  let c := s.clusterCache cl
  match c.find tag with
  | some l =>
    let fresh := l.ro || l.stamp == c.stamp
    if fresh ∧ l.valid &&& want = want then
      .ok (l.data.toNat, s.setClusterCache cl (c.put { l with tmp := tmpAfter l.tmp tmp }))
    else
      match s.lineFromHome (cl / 64) p tag with
      | .error e => .error e
      | .ok (x, s) =>
        let x := mergeWords l.dirty x l.data.toNat
        let c := s.clusterCache cl
        .ok (x, s.setClusterCache cl (c.put
          { l with data := BitVec.ofNat 1024 x, valid := BitVec.allOnes 32, stamp := c.stamp, ro := leafRO p.attr,
                   tmp := tmpAfter l.tmp tmp }))
  | none =>
    match s.lineFromHome (cl / 64) p tag with
    | .error e => .error e
    | .ok (x, s) =>
      if tmp = 1 then .ok (x, s)
      else
        (s.clusterRoom cl tag).then fun s =>
          let c := s.clusterCache cl
          .ok (x, s.setClusterCache cl (c.put
            { tag := tag, data := BitVec.ofNat 1024 x, valid := BitVec.allOnes 32, dirty := 0, stamp := c.stamp,
              ro := leafRO p.attr, tmp := tmp, grain := leafGrain p.attr, ttag := ttag }))

/-- The data of a piece's line at the core place, filled from the cluster place (R177). -/
def State.coreLine (s : State) (core : Nat) (p : Piece) (tag : Tag) (want : BitVec 32) (tmp ttag : Nat) :
    Except Miss (Nat × State) :=
  let c := s.coreCache core
  match c.find tag with
  | some l =>
    if (l.ro || l.stamp == c.stamp) ∧ l.valid &&& want = want then .ok (l.data.toNat, s.setCoreCache core (c.put l))
    else
      match s.clusterLine (core / 4) p tag (BitVec.allOnes 32) tmp ttag with
      | .error e => .error e
      | .ok (x, s) =>
        let x := mergeWords l.dirty x l.data.toNat
        let c := s.coreCache core
        .ok (x, s.setCoreCache core (c.put
          { l with data := BitVec.ofNat 1024 x, valid := BitVec.allOnes 32, stamp := c.stamp, ro := leafRO p.attr }))
  | none =>
    match s.clusterLine (core / 4) p tag (BitVec.allOnes 32) tmp ttag with
    | .error e => .error e
    | .ok (x, s) =>
      (s.coreRoom core tag).then fun s =>
        let c := s.coreCache core
        .ok (x, s.setCoreCache core (c.put
          { tag := tag, data := BitVec.ofNat 1024 x, valid := BitVec.allOnes 32, dirty := 0, stamp := c.stamp,
            ro := leafRO p.attr, tmp := tmp, grain := leafGrain p.attr, ttag := ttag }))

/-! ## Whole lines on their way down -/

/-- The issuing core's dirty words of a line, written through to the cluster place (R160, R166). -/
def State.toCluster (s : State) (core : Nat) (tag : Tag) : Try :=
  match (s.coreCache core).find tag with
  | some l => s.coreLineOut core l
  | none => .ok s

/-- The dirty words of a line above the home place, written through to it (R162, R166, R174). -/
def State.toHome (s : State) (core : Nat) (tag : Tag) : Try :=
  (s.toCluster core tag).andThen fun s =>
    match (s.clusterCache (core / 4)).find tag with
    | some l => s.clusterLineOut (core / 4) l
    | none => .ok s

/-- Whether a core or its cluster holds dirty words of a line. -/
def State.dirtyAbove (s : State) (core : Nat) (tag : Tag) : Bool :=
  (match (s.coreCache core).find tag with | some l => l.dirty != 0 | none => false) ||
    (match (s.clusterCache (core / 4)).find tag with | some l => l.dirty != 0 | none => false)

/-- A line removed from a core's L1, or from both caches. -/
def State.dropCoreLine (s : State) (core : Nat) (tag : Tag) : State :=
  s.setCoreCache core ((s.coreCache core).without tag)
def State.dropBoth (s : State) (core : Nat) (tag : Tag) : State :=
  let s := s.dropCoreLine core tag
  s.setClusterCache (core / 4) ((s.clusterCache (core / 4)).without tag)

/-! ## Reads and writes of a piece -/

/-- The places of R176. -/
inductive Level where
  | core | cluster | home
deriving DecidableEq, Repr

/-- The place that a scope names (R176). -/
def levelOf : Scope → Level
  | .core => .core
  | .clu => .cluster
  | _ => .home

/-- The copies of a line in other formats are missing from a core's L1 and its cluster cache: the line has been written (R188,
R189). -/
def State.staleAbove (s : State) (core : Nat) (tag : Tag) : State :=
  (s.setCoreCache core ((s.coreCache core).staleAliases tag)).setClusterCache (core / 4)
    ((s.clusterCache (core / 4)).staleAliases tag)

/-- A read of another format sees the strand's own words of the native line (R188, R189): they go to the home first, and the
copies in that format are read again. -/
def State.settleAlias (s : State) (core : Nat) (p : Piece) : Try :=
  if p.tag = p.nativeTag ∨ !s.dirtyAbove core p.nativeTag then .ok s
  else (s.toHome core p.nativeTag).andThen fun s => .ok (s.staleAbove core p.nativeTag)

/-- The die at whose slice an uncached or device access is performed: the home's (R135, R158). -/
def State.uncachedDie (s : State) (core : Nat) (t : Target) : Nat := (s.homeOf t).getD (core / 256)

/-- A read of one piece by a core at a place (R166, R177): the dirty words above the place go to it first. -/
def State.readPiece (s : State) (core : Nat) (lv : Level) (p : Piece) (tmp ttag : Nat) : Except Miss (Nat × State) :=
  let take (x : Nat) : Nat := bits x (8 * p.off) (8 * p.n)
  let want := wordsOf p.off p.n
  if leafClass p.attr ≠ 0 then
    if s.bellIn then .error (.held s)
    else
      (s.toHome core p.nativeTag).then fun s =>
        match s.homeWaits p.key p.t p.n with
        | some s => .error (.held s)
        | none =>
          match s.placeRead (s.uncachedDie core p.t) p.key p.t p.n (leafGrain p.attr) with
          | (.error e, _) => .error (.err e.1 e.2)
          | (.ok x, s) => .ok (x, s)
  else
    (s.settleAlias core p).then fun s =>
      match lv with
      | .core =>
        match s.coreLine core p p.tag want tmp ttag with
        | .error e => .error e
        | .ok (x, s) => .ok (take x, s)
      | .cluster =>
        (s.toCluster core p.tag).then fun s =>
          match s.clusterLine (core / 4) p p.tag want tmp ttag with
          | .error e => .error e
          | .ok (x, s) => .ok (take x, s)
      | .home =>
        if s.bellIn then .error (.held s)
        else
          (s.toHome core p.nativeTag).then fun s =>
            match s.lineFromHome (core / 256) p p.tag with
            | .error e => .error e
            | .ok (x, s) => .ok (take x, s)

/-- The words of a piece that a store covers only in part. -/
def partialWords (o n : Nat) : BitVec 32 :=
  (if o % 4 = 0 then 0 else wordsOf o 1) ||| (if (o + n) % 4 = 0 then 0 else wordsOf (o + n - 1) 1)

/-- The line with the bytes of a piece stored into it: its words become dirty (R157). -/
def Line.store (l : Line) (p : Piece) (x tmp ttag : Nat) : Line :=
  let w := wordsOf p.off p.n
  { l with data := BitVec.ofNat 1024 (setBytes l.data.toNat p.off p.n x), valid := l.valid ||| w, dirty := l.dirty ||| w,
           grain := if l.dirty = 0 then leafGrain p.attr else min l.grain (leafGrain p.attr), ttag := ttag,
           tmp := tmpAfter l.tmp tmp }

/-- A fresh line of a cache, nothing valid in it. -/
def blankLine (tag : Tag) (stamp : BitVec 8) (p : Piece) (ttag : Nat) : Line :=
  { tag := tag, data := 0, valid := 0, dirty := 0, stamp := stamp, ro := leafRO p.attr, tmp := 0,
    grain := leafGrain p.attr, ttag := ttag }

/-- A core's L1 made ready for a store of one piece (R157, R177): a line that another task left dirty is written through first
(R140), a word stored in part is filled, and the line has its place. Every error that the store can meet is met here (R115). -/
def State.readyCore (s : State) (core : Nat) (p : Piece) (tmp ttag : Nat) : Except Miss State :=
  let tag := p.nativeTag
  let clean : Try :=
    match (s.coreCache core).find tag with
    | some l => if l.dirty ≠ 0 ∧ l.ttag ≠ ttag then s.toHome core tag else .ok s
    | none => .ok s
  clean.then fun s =>
    let part := partialWords p.off p.n
    if part = 0 then
      if s.bellIn && ((s.coreCache core).find tag).isNone && ((s.clusterCache (core / 4)).find tag).isNone then .error (.held s)
      else
      (s.coreRoom core tag).then fun s =>
        let c := s.coreCache core
        .ok (s.setCoreCache core (c.put ((c.find tag).getD (blankLine tag c.stamp p ttag))))
    else
      match s.coreLine core p tag part tmp ttag with
      | .error e => .error e
      | .ok (_, s) => .ok s

/-- A store of one piece into a core's L1 (R157, R177); the copies of the line in other formats are gone (R188). -/
def State.storeCore (s : State) (core : Nat) (p : Piece) (x tmp ttag : Nat) : Except Miss State :=
  match s.readyCore core p tmp ttag with
  | .error e => .error e
  | .ok s =>
    let tag := p.nativeTag
    let c := s.coreCache core
    let l := (c.find tag).getD (blankLine tag c.stamp p ttag)
    .ok ((s.setCoreCache core (c.put (l.store p x tmp ttag))).staleAbove core tag)

/-- The line that a streaming store to a cluster cache which misses sends on to the home, and the state after the word that it stores
in part has been read (R34). -/
def State.streamLine (s : State) (cl : Nat) (p : Piece) (x ttag : Nat) : Except Miss (Line × State) :=
  let l := blankLine p.nativeTag 0 p ttag
  if partialWords p.off p.n = 0 then .ok (l.store p x 1 ttag, s)
  else
    match s.lineFromHome (cl / 64) p p.nativeTag with
    | .error e => .error e
    | .ok (y, s) => .ok ({ l with data := BitVec.ofNat 1024 y }.store p x 1 ttag, s)

/-- A cluster cache made ready for a store of one piece that goes through no L1 (R157, R160): a line that another task left dirty is
written through first (R140), a word stored in part is filled, and the line has its place; a stream that misses takes none (R34),
and a bell holds what misses (R164). -/
def State.readyEngine (s : State) (cl : Nat) (p : Piece) (tmp ttag : Nat) : Except Miss State :=
  let tag := p.nativeTag
  match (s.clusterCache cl).find tag with
  | none =>
    if s.bellIn then .error (.held s)
    else if tmp = 1 then
      match s.streamLine cl p 0 ttag with
      | .error e => .error e
      | .ok (l, s) => match s.lineWaits (cl / 64) l with | some u => .error (.held u) | none => .ok s
    else if partialWords p.off p.n = 0 then
      (s.clusterRoom cl tag).then fun s =>
        let c := s.clusterCache cl
        .ok (s.setClusterCache cl (c.put (blankLine tag c.stamp p ttag)))
    else
      match s.clusterLine cl p tag (partialWords p.off p.n) tmp ttag with
      | .error e => .error e
      | .ok (_, s) => .ok s
  | some l =>
    (if l.dirty ≠ 0 ∧ l.ttag ≠ ttag then s.clusterLineOut cl l else .ok s).then fun s =>
      if partialWords p.off p.n = 0 then
        .ok (s.setClusterCache cl ((s.clusterCache cl).put (((s.clusterCache cl).find tag).getD l)))
      else
        match s.clusterLine cl p tag (partialWords p.off p.n) tmp ttag with
        | .error e => .error e
        | .ok (_, s) => .ok s

/-- A store of one piece into a cluster cache that is ready for it, through no L1. A stream that misses goes on to the home (R34). -/
def State.storeEngine (s : State) (cl : Nat) (p : Piece) (x tmp ttag : Nat) : Except Miss State :=
  let tag := p.nativeTag
  let c := (s.clusterCache cl).staleAliases tag
  match c.find tag with
  | some l => .ok (s.setClusterCache cl (c.put (l.store p x tmp ttag)))
  | none =>
    if tmp = 1 then
      match s.streamLine cl p x ttag with
      | .error e => .error e
      | .ok (l, s) => (s.lineHome (cl / 64) l).then fun s => .ok (s.setClusterCache cl ((s.clusterCache cl).staleAliases tag))
    else .ok (s.setClusterCache cl (c.put ((blankLine tag c.stamp p ttag).store p x tmp ttag)))

/-- A cluster cache made ready for a store of one piece by an engine or a .clu atomic (R160, R177, R181): the issuing core's copy of
the line is written through and removed. -/
def State.readyCluster (s : State) (core : Nat) (p : Piece) (tmp ttag : Nat) : Except Miss State :=
  (s.toCluster core p.nativeTag).then fun s => (s.dropCoreLine core p.nativeTag).readyEngine (core / 4) p tmp ttag

/-- A store of one piece into a cluster cache. -/
def State.storeCluster (s : State) (core : Nat) (p : Piece) (x tmp ttag : Nat) : Except Miss State :=
  match s.readyCluster core p tmp ttag with
  | .error e => .error e
  | .ok s =>
    match s.storeEngine (core / 4) p x tmp ttag with
    | .error e => .error e
    | .ok s => .ok (s.setCoreCache core ((s.coreCache core).staleAliases p.nativeTag))

/-- The home place made ready for a store of one piece (R166, R177): the line's dirty words above go first; a bell holds the
store unless it hits in the slice of its own die (R164), and its home may make it wait. -/
def State.readyHome (s : State) (core : Nat) (p : Piece) : Except Miss State :=
  (s.toHome core p.nativeTag).then fun s =>
    let d := if leafClass p.attr ≠ 0 ∧ !s.bellIn then s.uncachedDie core p.t else core / 256
    match s.writeWaits d p.key p.t (leafGrain p.attr) p.n with
    | some s => .error (.held s)
    | none => .ok s

/-- A cache's copies of a piece's words are missing: they have been stored at the home place. -/
def PCache.clear (c : PCache) (p : Piece) : PCache :=
  let c := c.staleAliases p.nativeTag
  { c with lines := c.lines.map fun l => if l.tag == p.nativeTag then { l with valid := l.valid &&& ~~~ wordsOf p.off p.n } else l }

/-- A store of one piece performed at the home place, which is ready for it, by a unit of a cluster: the cluster cache's copies lose
the words. -/
def State.storeBelow (s : State) (cl : Nat) (p : Piece) (x : Nat) : State :=
  let s := s.setClusterCache cl ((s.clusterCache cl).clear p)
  if leafClass p.attr ≠ 0 then s.homeWrite none p.key p.t (leafGrain p.attr) p.n (2 ^ p.n - 1) x
  else s.dieWrite (cl / 64) p.key p.t (leafGrain p.attr) p.n (2 ^ p.n - 1) x

/-- A store of one piece performed at the home place, which is ready for it: the copies above lose the words. -/
def State.storeHome (s : State) (core : Nat) (p : Piece) (x : Nat) : State :=
  (s.setCoreCache core ((s.coreCache core).clear p)).storeBelow (core / 4) p x

/-- The place of a store (R177). -/
def Piece.level (p : Piece) (lv : Level) : Level := if leafClass p.attr ≠ 0 then .home else lv

/-- The dirty words that a cluster cache holds of a line under its native tag, written through to the home place. -/
def State.clusterDown (s : State) (cl : Nat) (tag : Tag) : Try :=
  match (s.clusterCache cl).find tag with
  | some l => s.clusterLineOut cl l
  | none => .ok s

/-- A read of one piece by a copy engine, at the cluster place and through no L1 (R160, R177). -/
def State.readByEngine (s : State) (cl : Nat) (p : Piece) (ttag : Nat) : Except Miss (Nat × State) :=
  if leafClass p.attr ≠ 0 then
    if s.bellIn then .error (.held s)
    else
      (s.clusterDown cl p.nativeTag).then fun s =>
        match s.homeWaits p.key p.t p.n with
        | some s => .error (.held s)
        | none =>
          match s.placeRead ((s.homeOf p.t).getD (cl / 64)) p.key p.t p.n (leafGrain p.attr) with
          | (.error e, _) => .error (.err e.1 e.2)
          | (.ok x, s) => .ok (x, s)
  else
    let dirty : Bool := ((s.clusterCache cl).find p.nativeTag).any fun l => l.dirty != 0
    (if p.tag ≠ p.nativeTag ∧ dirty then
      (s.clusterDown cl p.nativeTag).andThen fun s => .ok (s.setClusterCache cl ((s.clusterCache cl).staleAliases p.nativeTag))
    else .ok s).then fun s =>
      match s.clusterLine cl p p.tag (wordsOf p.off p.n) 0 ttag with
      | .error e => .error e
      | .ok (x, s) => .ok (bits x (8 * p.off) (8 * p.n), s)

/-- A place made ready for a store of one piece by a copy engine. -/
def State.readyByEngine (s : State) (cl : Nat) (lv : Level) (p : Piece) (ttag : Nat) : Except Miss State :=
  match p.level lv with
  | .home =>
    (s.clusterDown cl p.nativeTag).then fun s =>
      let d := if leafClass p.attr ≠ 0 ∧ !s.bellIn then (s.homeOf p.t).getD (cl / 64) else cl / 64
      match s.writeWaits d p.key p.t (leafGrain p.attr) p.n with
      | some s => .error (.held s)
      | none => .ok s
  | _ => s.readyEngine cl p 0 ttag

/-- A store of one piece by a copy engine at a place that is ready for it. -/
def State.storeByEngine (s : State) (cl : Nat) (lv : Level) (p : Piece) (x ttag : Nat) : Except Miss State :=
  match p.level lv with
  | .home => .ok (s.storeBelow cl p x)
  | _ => s.storeEngine cl p x 0 ttag

/-- A place made ready for a store of one piece: whatever the store can meet is met here, before any byte is written (R115,
R169). -/
def State.readyPiece (s : State) (core : Nat) (lv : Level) (p : Piece) (tmp ttag : Nat) : Except Miss State :=
  match p.level lv with
  | .core => s.readyCore core p tmp ttag
  | .cluster => s.readyCluster core p tmp ttag
  | .home => s.readyHome core p

/-- A store of one piece. -/
def State.storePiece (s : State) (core : Nat) (lv : Level) (p : Piece) (x tmp ttag : Nat) : Except Miss State :=
  match p.level lv with
  | .core => s.storeCore core p x tmp ttag
  | .cluster => s.storeCluster core p x tmp ttag
  | .home => .ok (s.storeHome core p x)

/-! ## Release and acquire -/

/-- Every dirty word of a core's L1, written through to the cluster cache, but for those that must wait. -/
def State.flushCore (s : State) (core : Nat) : State :=
  ((s.coreCache core).lines.reverse).foldl (fun s l => (s.coreLineOut core l).anyway) s
/-- Every dirty word of a cluster cache, written through to the home place, but for those that must wait. -/
def State.flushCluster (s : State) (cl : Nat) : State :=
  ((s.clusterCache cl).lines.reverse).foldl (fun s l => (s.clusterLineOut cl l).anyway) s

/-- Whether a cache holds a dirty word. -/
def PCache.anyDirty (c : PCache) : Bool := c.lines.any fun l => l.dirty != 0

/-- The write-throughs of a release (R154). -/
def State.releaseAt (s : State) (core : Nat) : Level → State
  | .core => s
  | .cluster => s.flushCore core
  | .home => (s.flushCore core).flushCluster (core / 4)

/-- Whether everything that a release of a level writes through has been performed, and every invalidate and update that
results has been acknowledged (R130, R154, R179). -/
def State.released (s : State) (core : Nat) : Level → Bool
  | .core => true
  | .cluster => !(s.coreCache core).anyDirty
  | .home => !(s.coreCache core).anyDirty && !(s.clusterCache (core / 4)).anyDirty && s.acks.isEmpty

/-- The instruction cache loses every line but those of RO pages (R153), or every line (R156). -/
def State.clearICache (s : State) (core : Nat) (all : Bool) : State :=
  let c := Tab.get PCache.empty s.l1i core
  { s with l1i := Tab.set PCache.empty s.l1i core { c with lines := if all then [] else c.lines.filter (·.ro) } }

/-- A cache without its clean words (R156). -/
def PCache.onlyDirty (c : PCache) : PCache :=
  { c with lines := (c.lines.filter fun l => l.dirty != 0).map fun l => { l with valid := l.dirty } }

/-- One core's stamp advances; at the wrap from 255 to 0 every line of the core's caches is invalidated (R153, R156). -/
def State.bumpCore (s : State) (core : Nat) : State :=
  let c := s.coreCache core
  if c.stamp = 255 then (s.setCoreCache core { c.onlyDirty with stamp := 0 }).clearICache core true
  else (s.setCoreCache core { c with stamp := c.stamp + 1 }).clearICache core false

/-- The cores of a core's cluster. -/
def mateCores (core : Nat) : List Nat := (List.range 4).map fun i => core / 4 * 4 + i

/-- The stamp of a core's cluster advances; at the wrap from 255 to 0 every line of the cluster cache and of the cluster's L1s is
invalidated (R153, R155, R156). -/
def State.bumpCluster (s : State) (core : Nat) : State :=
  let cl := core / 4
  let c := s.clusterCache cl
  if c.stamp = 255 then
    (mateCores core).foldl (fun s k => (s.setCoreCache k (s.coreCache k).onlyDirty).clearICache k true)
      (s.setClusterCache cl { c.onlyDirty with stamp := 0 })
  else s.setClusterCache cl { c with stamp := c.stamp + 1 }

/-- What an acquire of a level flushes in full, where a stamp that it advances wraps (R156): the L1s of the cores, and the cluster
cache or not. -/
def State.fullFlush (s : State) (core : Nat) : Level → List Nat × Bool
  | .core => ([], false)
  | .cluster => if (s.coreCache core).stamp = 255 then ([core], false) else ([], false)
  | .home =>
    if (s.clusterCache (core / 4)).stamp = 255 then (mateCores core, true)
    else if (s.coreCache core).stamp = 255 then ([core], false) else ([], false)

/-- Every dirty word of a core's L1, written through to the home place, but for those that must wait (R156). -/
def State.flushThrough (s : State) (core : Nat) : State :=
  ((s.coreCache core).lines.reverse).foldl (fun s l => if l.dirty = 0 then s else (s.toHome core l.tag).anyway) s

/-- The write-throughs of a full flush (R156). -/
def State.flushCores (s : State) (f : List Nat × Bool) : State :=
  let s := f.1.foldl (fun s k => s.flushThrough k) s
  if f.2 then s.flushCluster (f.1.headD 0 / 4) else s

/-- The state in which an acquire of a level waits: a full flush that is not complete under R130 (R156). -/
def State.acquireWaits (s : State) (core : Nat) (lv : Level) : Option State :=
  let f := s.fullFlush core lv
  if f.1.isEmpty then none
  else
    let s := s.flushCores f
    if f.1.all (fun k => !(s.coreCache k).anyDirty) && !(f.2 && (s.clusterCache (core / 4)).anyDirty) && s.acks.isEmpty then none
    else some s

/-- The effect of an acquire, a full flush included (R153, R156). -/
def State.acquireAt (s : State) (core : Nat) (lv : Level) : State :=
  let s := if (s.fullFlush core lv).1.isEmpty then s else s.flushCores (s.fullFlush core lv)
  match lv with
  | .core => s
  | .cluster => s.bumpCore core
  | .home => (s.bumpCore core).bumpCluster core

/-- The flush by context tag (R140): every dirty word whose line carries the task's tag is written through to the home, but for
those that must wait. -/
def State.flushTag (s : State) (core ttag : Nat) : State :=
  let s := ((s.coreCache core).lines.reverse).foldl
    (fun s l => if l.ttag == ttag then (s.coreLineOut core l).anyway else s) s
  ((s.clusterCache (core / 4)).lines.reverse).foldl
    (fun s l => if l.ttag == ttag then (s.clusterLineOut (core / 4) l).anyway else s) s

/-- Whether the flush by context tag is acknowledged (R140). -/
def State.tagFlushed (s : State) (core ttag : Nat) : Bool :=
  (s.coreCache core).lines.all (fun l => l.ttag != ttag || l.dirty == 0)
    && (s.clusterCache (core / 4)).lines.all (fun l => l.ttag != ttag || l.dirty == 0) && s.acks.isEmpty
    && s.aside.all fun x => !(coreOf x.1 == core && x.2.1 == ttag)

end Sys2Proof.Machine
end

