-- ==== Sys2Proof/Machine/Walk.lean ====
section
/-!
DEFINITION. Translation: the page-table walk (R142 to R145), permissions and their faults in the order of R146, the A and
D updates (R147), the TLBs (R150, R151), and the trap information of R148 and R113.
-/
namespace Sys2Proof.Machine

/-- The kinds of access (R146). -/
inductive Kind where
  | fetch | load | store | atomic | prefetch | maintain
deriving DecidableEq, Repr

/-- The translation fault of a kind (R146). -/
def Kind.fault : Kind → Nat
  | .fetch => 0x01
  | .store | .atomic => 0x05
  | _ => 0x04
/-- Whether the kind may write. -/
def Kind.writes : Kind → Bool
  | .store | .atomic => true
  | _ => false

/-- Through which TLBs a requester translates (R150): a core's, an engine's, or the die's last-level TLB alone. -/
inductive TlbUnit where
  | core | engine (e : Nat) | die
deriving DecidableEq, Repr

/-- Who translates, and what marks its trap information: bits added to XINFO under R148 and under R113 (a lane, R148 and
R113; a tile row, R269), and its number in the memory error log (R112). -/
structure Who where
  key : Nat
  part : Option Nat
  sup : Bool
  ptbase : Word
  asn : Nat
  keys : List (Option Nat)
  req : Nat
  mark : Nat
  abortMark : Nat
  unit : TlbUnit := .core
deriving DecidableEq, Repr

/-- The translating strand, without marks. -/
def State.who (s : State) (key : Nat) : Who :=
  let t := s.strand key
  { key := key, part := s.partOf key, sup := t.sup, ptbase := t.ptbase, asn := fld t.asn 0 16, keys := t.keys, req := sidOf key,
    mark := 0, abortMark := 0 }
/-- Marks a vector lane (R148, R113). -/
def Who.lane (w : Who) (i : Nat) : Who := { w with mark := 2 ^ 15 + 2 ^ 8 * i, abortMark := 2 ^ 23 + 2 ^ 16 * i }
/-- Marks a tile row (R269), translated by an engine (R112). -/
def Who.row (w : Who) (i eng : Nat) : Who :=
  { w with mark := 2 ^ 23 + 2 ^ 16 * i, abortMark := 2 ^ 23 + 2 ^ 16 * i, req := 0x800 + eng, unit := .engine eng }

/-- Why an access cannot go on: its fault with LEVEL and REASON (R148); an error response, with what is logged (R113);
subscribed store; or that it is held, by a bell or by its home, and in which state it waits. -/
inductive Bad where
  | fault (cause level reason : Nat)
  | abort (cause addr key : Nat)
  | held (s : State)
deriving DecidableEq, Repr

/-- The trap of a bad access at virtual address `va`; an error response is logged (R112, R113, R148). -/
def raiseBad {α : Type} (w : Who) (va : Nat) (b : Bad) (s : State) : Res α :=
  match b with
  | .fault cause level reason =>
    .trap { cause := cause, addr := BitVec.ofNat 64 va, info := BitVec.ofNat 64 (w.mark + 2 ^ 4 * level + reason) } s
  | .abort cause addr key =>
    let (i, s) := s.logError cause addr key (w.part.getD 0) w.req
    .trap { cause := 0x08, addr := BitVec.ofNat 64 va, info := BitVec.ofNat 64 (w.abortMark + cause + 2 ^ 8 * i) } s
  | .held s => .wait s

/-! ## The walk -/

/-- A leaf translation found by a walk: the entry with the A and D of its whole group, what it maps, and the physical
addresses of the entries to be updated (R145, R147). -/
structure Leaf where
  attr : Word
  vbase : Nat
  size : Nat
  frame : Nat
  entries : List Nat
deriving DecidableEq, Repr

/-- Fields of an entry (R143). -/
def entryType (w : Word) : Nat := fld w 1 2
def entryFrame (w : Word) : Nat := fld w 16 36 * 65536
def entryCont (w : Word) : Nat := fld w 7 2
/-- The bits of a table entry that must be zero: all but V, TYPE, A and FRAME (R143). -/
def tableZero (w : Word) : Bool := w &&& ~~~ 0x040FFFFFFFFF0007 == 0
/-- Fields a group shares: everything but FRAME, A and D (R145). -/
def sharedFields (w : Word) : Word := w &&& ~~~ 0x0C0FFFFFFFFF0000

/-- Whether a valid leaf entry at a level is malformed by its own fields (R144). -/
def leafMalformed (level : Nat) (w : Word) : Bool :=
  let ty := entryType w
  let block := ty == 3
  fld w 61 3 != 0 || bit w 51 || fld w 11 2 == 3 || fld w 9 2 == 3 || fld w 7 2 == 3
    || !((level == 1 && block) || (level == 2 && ty == 2))
    || (block && (entryFrame w % 2 ^ 29 != 0 || entryCont w != 0))
    || (leafSub w && leafClass w != 0)
    || (leafEtype w == 1 && !leafSub w)
    || (leafRO w && bit w 5)

/-- Why a read at the home place by a walker, or by a strand under a physical address, waits: a bell holds it, stale agents of
its entry are removed first (R137), or its home makes it wait; then the state in which it waits. -/
def State.readWaits (s : State) (key : Nat) (t : Target) (n : Nat) : Option State :=
  if s.bellIn then some s
  else if s.staleIn key t n then some (s.scrub key t n)
  else s.homeWaits key t n

/-- A walker's read of an entry at the home place (R150), so that it sees the entry's latest value. -/
def State.readEntry (s : State) (w : Who) (tkey pa : Nat) : Except Bad Word :=
  if s.bellIn then .error (.held s)
  else
    match s.present w.part pa tkey false with
    | .error (c, a) => .error (.abort c a tkey)
    | .ok t =>
      match s.readWaits tkey t 8 with
      | some u => .error (.held u)
      | none =>
        match s.readTarget tkey t 8 with
        | .error (c, a) => .error (.abort c a tkey)
        | .ok x => .ok (BitVec.ofNat 64 x)

/-- The entries of a contiguous group, in order. -/
def State.readGroup (s : State) (w : Who) (tkey : Nat) : List Nat → Except Bad (List Word)
  | [] => .ok []
  | a :: as =>
    match s.readEntry w tkey a with
    | .error e => .error e
    | .ok x =>
      match s.readGroup w tkey as with
      | .error e => .error e
      | .ok xs => .ok (x :: xs)

/-- Whether a group is consistent (R145). -/
def groupOk (xs : List Word) (n : Nat) : Bool :=
  let first := xs.headD 0
  xs.all (fun x => bit x 0 && sharedFields x == sharedFields first) && entryFrame first % (n * 65536) == 0
    && (List.range n).all fun i => entryFrame (xs.getD i 0) == entryFrame first + i * 65536

/-- The translation that a leaf entry at `pa` gives for `va` (R142, R144, R145). -/
def State.leafOf (s : State) (w : Who) (k : Kind) (tkey level va pa : Nat) (x : Word) : Except Bad Leaf :=
  let bad : Except Bad Leaf := .error (.fault k.fault level 3)
  if leafMalformed level x then bad
  else if level = 1 then
    .ok { attr := x, vbase := va / 2 ^ 29 * 2 ^ 29, size := 2 ^ 29, frame := entryFrame x, entries := [pa] }
  else if entryCont x = 0 then
    .ok { attr := x, vbase := va / 65536 * 65536, size := 65536, frame := entryFrame x, entries := [pa] }
  else
    let n := if entryCont x = 1 then 32 else 512
    let base := pa / (8 * n) * (8 * n)
    let addrs := (List.range n).map fun i => base + 8 * i
    match s.readGroup w tkey addrs with
    | .error e => .error e
    | .ok xs =>
      if !groupOk xs n then bad
      else
        let all (b : Nat) : Bool := xs.all fun e => bit e b
        let attr := (sharedFields x ||| (x &&& 0x000FFFFFFFFF0000)) ||| (if all 58 then 0x0400000000000000 else 0)
          ||| (if all 59 then 0x0800000000000000 else 0)
        .ok { attr := attr, vbase := va / (n * 65536) * (n * 65536), size := n * 65536,
              frame := entryFrame (xs.headD 0), entries := addrs }

/-- The walk from a table at `base`: `fuel` levels are left (R142). -/
def State.walkFrom (s : State) (w : Who) (k : Kind) (tkey va : Nat) : Nat → Nat → Except Bad Leaf
  | 0, _ => .error (.fault k.fault 2 3)
  | fuel + 1, base =>
    let level := 2 - fuel
    let idx := va / 2 ^ (42 - 13 * level) % 2 ^ 13
    let pa := base + 8 * idx
    match s.readEntry w tkey pa with
    | .error e => .error e
    | .ok x =>
      if !bit x 0 then .error (.fault k.fault level 2)
      else if entryType x = 1 ∧ level < 2 then
        (if tableZero x && !bit x 51 then s.walkFrom w k tkey va fuel (entryFrame x) else .error (.fault k.fault level 3))
      else s.leafOf w k tkey level va pa x

/-- A whole walk (R142). -/
def State.walk (s : State) (w : Who) (k : Kind) (va : Nat) : Except Bad Leaf :=
  s.walkFrom w k (fld w.ptbase 0 12) va 3 (fld w.ptbase 16 36 * 65536)

/-! ## TLBs -/

/-- Whether a TLB entry serves a translator's address (R150). -/
def TlbEntry.serves (e : TlbEntry) (w : Who) (va : Nat) : Bool :=
  some e.part == w.part && (e.glob || e.asn == w.asn) && decide (e.vbase ≤ va) && decide (va < e.vbase + e.size)

/-- The numbers of the TLBs of R150 in `State.tlb`: the last-level TLB of a die, an L1 ITLB, an L1 DTLB and an L2 TLB of a core,
an engine's TLB. -/
def tlbLast (die : Nat) : Nat := die
def tlbFetch (core : Nat) : Nat := 4096 + core
def tlbData (core : Nat) : Nat := 8192 + core
def tlbL2 (core : Nat) : Nat := 12288 + core
def tlbEngine (e : Nat) : Nat := 16384 + e

/-- The TLBs that a request goes through, the nearest first, with their entries (R150). -/
def Who.tlbs (w : Who) (k : Kind) : List (Nat × Nat) :=
  (match w.unit with
    | .core => [if k = .fetch then (tlbFetch (coreOf w.key), 64) else (tlbData (coreOf w.key), 128), (tlbL2 (coreOf w.key), 4096)]
    | .engine e => [(tlbEngine e, 64)]
    | .die => []) ++ [(tlbLast (didOf w.key), 12288)]

/-- Whether two TLB entries translate the same addresses. -/
def TlbEntry.covers (x e : TlbEntry) : Bool :=
  x.part == e.part && x.asn == e.asn && x.glob == e.glob && x.vbase == e.vbase && x.size == e.size

/-- Puts a translation into TLBs, in place of the one it covers; a full TLB gives up its oldest (log 8). -/
def State.tlbFill (s : State) (l : List (Nat × Nat)) (e : TlbEntry) : State :=
  { s with tlb := l.foldl (fun t x => Tab.set [] t x.1 ((e :: (Tab.get [] t x.1).filter fun y => !y.covers e).take x.2)) s.tlb }

/-- A translation that a request's TLBs hold, with the TLBs nearer than the one that answers. -/
def State.tlbFind (s : State) (w : Who) (va : Nat) : List (Nat × Nat) → List (Nat × Nat) → Option (TlbEntry × List (Nat × Nat))
  | _, [] => none
  | near, x :: far =>
    match (Tab.get [] s.tlb x.1).find? fun e => e.serves w va with
    | some e => some (e, near)
    | none => s.tlbFind w va (near ++ [x]) far

/-- The TLB entry of a leaf. -/
def Leaf.entry (l : Leaf) (w : Who) : TlbEntry :=
  { part := w.part.getD 16, asn := w.asn, glob := bit l.attr 60, vbase := l.vbase, size := l.size, frame := l.frame,
    attr := l.attr }

/-- A translation in use: the attributes, the physical address, and the entry it came from. -/
structure Trans where
  attr : Word
  pa : Nat
  pinned : Option Nat
  entry : TlbEntry
deriving DecidableEq, Repr

/-- The attributes of the pinned page (R372): cached, native, 128-byte grain, RO clear, with every permission. -/
def pinnedAttr : Word := 0x0C00000000000275

/-- Whether the pinned page serves the address (R372). A copy transfer issued at S goes on at S while its strand may run at U again; it
uses the pinned page as the strand's XPIN and XDVEC are at each access: the model's choice (log 140). -/
def State.pinned (s : State) (w : Who) (va : Nat) : Option (Nat × Nat) :=
  let t := s.strand w.key
  if w.sup && bit t.xpin 63 && va / 65536 == fld t.xdvec 2 53 * 4 / 65536 then
    some (fld t.xpin 16 36 * 65536 + va % 65536, fld t.xpin 0 12)
  else none

/-- The translation of an address, from the pinned page, a TLB or a walk; a walk's translation is kept (R150). -/
def State.lookup (s : State) (w : Who) (k : Kind) (va : Nat) : Except Bad (Trans × State) :=
  if va / 2 ^ 55 ≠ 0 then .error (.fault k.fault 0 1)
  else
    match s.pinned w va with
    | some (pa, key) =>
      .ok ({ attr := pinnedAttr, pa := pa, pinned := some key,
             entry := { part := 0, asn := 0, glob := false, vbase := 0, size := 0, frame := 0, attr := 0 } }, s)
    | none =>
      match s.tlbFind w va [] (w.tlbs k) with
      | some (e, near) => .ok ({ attr := e.attr, pa := e.frame + (va - e.vbase), pinned := none, entry := e }, s.tlbFill near e)
      | none =>
        match s.walk w k va with
        | .error e => .error e
        | .ok l =>
          let e := l.entry w
          .ok ({ attr := l.attr, pa := e.frame + (va - e.vbase), pinned := none, entry := e }, s.tlbFill (w.tlbs k) e)

/-- The KeyID of a translation: the pinned page's own, or the one its selector names (R149). -/
def Who.transKey (w : Who) (t : Trans) : Option Nat :=
  match t.pinned with
  | some k => some k
  | none => w.keys.getD (fld t.attr 54 4) none

/-- What alignment an access must have (R159): of `n` bytes at `va`, natural everywhere or on uncached and device pages
only; n = 0 asks for none. -/
structure Align where
  va : Nat
  n : Nat
  nat : Bool
deriving DecidableEq, Repr

/-- The base-2 logarithm of the alignment that an access misses on a page of the given class, or none. -/
def Align.missed (al : Align) (cls : Nat) : Option Nat :=
  if al.n ≠ 0 ∧ (al.nat = true ∨ cls ≠ 0) ∧ al.va % al.n ≠ 0 then some (Nat.log2 al.n) else none

/-- No alignment is asked for. -/
def Align.any : Align := { va := 0, n := 0, nat := false }

/-- The checks of R146 after the walk: US, permission, key selector, class, alignment, subscription. -/
def State.permit (_ : State) (w : Who) (k : Kind) (t : Trans) (al : Align) : Option Bad :=
  let pinned := t.pinned.isSome
  let us := bit t.attr 3
  if !pinned && !w.sup && !us then some (.fault 0x06 0 7)
  else if !pinned && w.sup && us && k == .fetch then some (.fault 0x06 0 8)
  else if (k == .load || k == .atomic || k == .prefetch) && !bit t.attr 4 then some (.fault 0x06 0 4)
  else if k.writes && !bit t.attr 5 then some (.fault 0x06 0 5)
  else if k == .fetch && !bit t.attr 6 then some (.fault 0x06 0 6)
  else if (w.transKey t).isNone then some (.fault 0x06 0 9)
  else if k == .atomic && leafClass t.attr == 2 then some (.fault 0x06 0 10)
  else
    match al.missed (leafClass t.attr) with
    | some r => some (.fault 0x07 0 r)
    | none => if k.writes && leafSub t.attr then some (.fault 0x09 0 0) else none

/-- The walker's update of A, and of D for a write (R147): an atomic OR at each entry that lacks the bit. An error response to it is
one during a walk (R148). -/
def State.setBits (s : State) (w : Who) (tkey : Nat) (mask : Word) : List Nat → Except Bad State
  | [] => .ok s
  | a :: as =>
    match s.present w.part a tkey true with
    | .error (c, x) => .error (.abort c x tkey)
    | .ok t =>
      match s.readWaits tkey t 8 with
      | some u => .error (.held u)
      | none =>
        match s.readTarget tkey t 8 with
        | .error (c, x) => .error (.abort c x tkey)
        | .ok x =>
          let y := BitVec.ofNat 64 x ||| mask
          if y = BitVec.ofNat 64 x then s.setBits w tkey mask as
          else (s.homeWrite none tkey t 32 8 255 y.toNat).setBits w tkey mask as

/-- Whether a translation already carries the bits that an access sets. -/
def Trans.marked (t : Trans) (write : Bool) : Bool := t.pinned.isSome || (bit t.attr 58 && (!write || bit t.attr 59))

/-- A and D for an access that has passed its checks: the entries are updated at their home, and the TLB entry is refilled
(R147). When the entries have changed in another field, the answer is none and the access starts again with the new
translation. -/
def State.updateAD (s : State) (w : Who) (k : Kind) (t : Trans) (va : Nat) (write : Bool) : Except Bad (Option State) :=
  if t.marked write then .ok (some s)
  else
    match s.walk w k va with
    | .error (.held u) => .error (.held u)
    | .error _ => .ok none
    | .ok l =>
      if sharedFields l.attr ≠ sharedFields t.attr ∨ l.frame ≠ t.entry.frame ∨ l.vbase ≠ t.entry.vbase then .ok none
      else
        let mask : Word := if write then 0x0C00000000000000 else 0x0400000000000000
        match s.setBits w (fld w.ptbase 0 12) mask l.entries with
        | .error e => .error e
        | .ok s => .ok (some (s.tlbFill (w.tlbs k) { l.entry w with attr := l.attr ||| mask }))

/-- Drops the translations of an address from a request's TLBs, for a walk that restarts. -/
def State.tlbDrop (s : State) (w : Who) (k : Kind) (va : Nat) : State :=
  { s with tlb := (w.tlbs k).foldl (fun t x => Tab.set [] t x.1 ((Tab.get [] t x.1).filter fun e => !e.serves w va)) s.tlb }

/-! ## Pieces of an access -/

/-- The parts of `n` bytes at `va`, as (address, length), split at every 64-byte boundary: every boundary of R115 and R159
is one. -/
def splitRange : Nat → Nat → Nat → List (Nat × Nat)
  | 0, _, _ => []
  | fuel + 1, va, n =>
    if n = 0 then []
    else
      let k := min n (64 - va % 64)
      (va, k) :: splitRange fuel (va + k) (n - k)
def parts (va n : Nat) : List (Nat × Nat) := splitRange (n / 64 + 2) va n

/-- One part translated, checked and presented (R146, R111): a piece, or what is wrong with it. -/
def State.pieceOf (s : State) (w : Who) (k : Kind) (al : Align) (va n : Nat) :
    Except Bad (Piece × Trans × State) :=
  match s.lookup w k va with
  | .error e => .error e
  | .ok (t, s) =>
    match s.permit w k t al with
    | some e => .error e
    | none =>
      let key := (w.transKey t).getD 0
      match s.present w.part t.pa key k.writes with
      | .error (c, a) => .error (.abort c a key)
      | .ok tg => .ok ({ va := va, n := n, t := tg, key := key, attr := t.attr }, t, s)

/-- A part with its A bit set, and its D bit when `write`; a walk that restarts is done once more (R147). -/
def State.pieceAD (s : State) (w : Who) (k : Kind) (al : Align) (va n : Nat) (write : Bool) :
    Except (Bad × State) (Piece × State) :=
  match s.pieceOf w k al va n with
  | .error e => .error (e, s)
  | .ok (p, t, s1) =>
    match s1.updateAD w k t va write with
    | .error e => .error (e, s1)
    | .ok (some s2) => .ok (p, s2)
    | .ok none =>
      let s1 := s1.tlbDrop w k va
      match s1.pieceOf w k al va n with
      | .error e => .error (e, s1)
      | .ok (p, t, s2) =>
        match s2.updateAD w k t va write with
        | .error e => .error (e, s2)
        | .ok (some s3) => .ok (p, s3)
        | .ok none => .ok (p, s2)

/-- The address `i` bytes after `va`, in 64 bits (R41). -/
def addrPlus (va : Word) (i : Nat) : Nat := (va + BitVec.ofNat 64 i).toNat

/-- Every part of `n` bytes at `va` checked before anything is performed (R111, R115): the lowest bad part decides. The
alignment is the whole access's. -/
def checkParts (w : Who) (k : Kind) (al : Align) : List (Nat × Nat) → State → Res Unit
  | [], s => .ok () s
  | (va, n) :: rest, s =>
    match s.pieceOf w k al va n with
    | .error e => raiseBad w va e s
    | .ok (_, _, s) => checkParts w k al rest s

/-- The parts with their A and D bits set. -/
def markParts (w : Who) (k : Kind) (al : Align) (write : Bool) : List (Nat × Nat) → State → Res (List Piece)
  | [], s => .ok [] s
  | (va, n) :: rest, s =>
    match s.pieceAD w k al va n write with
    | .error (e, s) => raiseBad w va e s
    | .ok (p, s) => (markParts w k al write rest s).andThen fun ps s => .ok (p :: ps) s

/-- A miss as a bad access. -/
def Miss.bad (m : Miss) (key : Nat) : Bad := match m with | .err c a => .abort c a key | .held s => .held s

/-- Reads pieces at a place, lowest first: the little-endian number of their bytes. `first` is the first byte of the part that
a piece lies in: the parts of R159 end at 128-byte lines. -/
def readPieces (w : Who) (core : Nat) (lv : Level) (tmp ttag : Nat) : Nat → List Piece → State → Res Nat
  | _, [], s => .ok 0 s
  | first, p :: ps, s =>
    let first := if p.va % 128 = 0 then p.va else first
    match s.readPiece core lv p tmp ttag with
    | .error m => raiseBad w first (m.bad p.key) s
    | .ok (x, s) => (readPieces w core lv tmp ttag first ps s).andThen fun y s => .ok (x + 2 ^ (8 * p.n) * y) s

/-- A place made ready for every piece of a store before any byte is written (R115). -/
def readyPieces (w : Who) (core : Nat) (lv : Level) (tmp ttag : Nat) : List Piece → State → Res Unit
  | [], s => .ok () s
  | p :: ps, s =>
    match s.readyPiece core lv p tmp ttag with
    | .error m => raiseBad w p.va (m.bad p.key) s
    | .ok s => readyPieces w core lv tmp ttag ps s

/-- Stores pieces at a place, lowest first. -/
def storePieces (w : Who) (core : Nat) (lv : Level) (tmp ttag : Nat) : List Piece → Nat → State → Res Unit
  | [], _, s => .ok () s
  | p :: ps, x, s =>
    match s.storePiece core lv p x tmp ttag with
    | .error m => raiseBad w p.va (m.bad p.key) s
    | .ok s => storePieces w core lv tmp ttag ps (x / 2 ^ (8 * p.n)) s

/-- The context tag a strand's stores leave on a line (R140). -/
def State.tagOf (s : State) (key : Nat) : Nat := (s.strand key).ttag.toNat

/-! ## Drains -/

/-- A part of a draining row whose region, window or key has been reconfigured since its store retired: it is discarded as a
write-back is (R113). -/
def State.lostRow (s : State) (key c a rkey : Nat) : State :=
  let part := (s.partOf key).getD 0
  let (_, s) := s.logError c a rkey part (0x800 + engineOf key)
  s.raiseCheck (writeBackEvent (8 * didOf key + 1) (engineOf key) part rkey a)

/-- A part of a row that the cluster cache cannot take, because the word that it stores in part cannot be read, is written at the home
place: a row whose store has retired is lost for no error of a read (R111, R268; log 126). -/
def State.drainHome (s : State) (die : Nat) (p : Piece) (x : Nat) : Try :=
  match s.writeWaits die p.key p.t (leafGrain p.attr) p.n with
  | some u => .error u
  | none => .ok (s.dieWrite die p.key p.t (leafGrain p.attr) p.n (2 ^ p.n - 1) x)

/-- One part of a draining row, written at the cluster place (R160, R268). -/
def State.drainPart (s : State) (key ttag : Nat) (r : DrainRow) (o n : Nat) : Try :=
  match s.present (s.partOf key) (r.pa + o) r.key true with
  | .error (c, a) => .ok (s.lostRow key c a r.key)
  | .ok t =>
    let p : Piece := { va := r.va + o, n := n, t := t, key := r.key, attr := r.attr }
    let x := bits r.data (8 * o) (8 * n)
    match s.readyPiece (coreOf key) .cluster p r.tmp ttag with
    | .error (.err _ _) => s.drainHome (didOf key) p x
    | .error (.held u) => .error u
    | .ok s =>
      match s.storePiece (coreOf key) .cluster p x r.tmp ttag with
      | .error (.err _ _) => s.drainHome (didOf key) p x
      | .error (.held u) => .error u
      | .ok s => .ok s

/-- The part of a row of `n` bytes from offset `o` on. -/
def DrainRow.part (r : DrainRow) (o n : Nat) : DrainRow :=
  { r with va := r.va + o, pa := r.pa + o, n := n, data := bits r.data (8 * o) (8 * n) }

/-- Whether two rows have bytes in common. -/
def DrainRow.meets (r q : DrainRow) : Bool := r.key == q.key && decide (r.pa < q.pa + q.n) && decide (q.pa < r.pa + r.n)

/-- Parts of rows, each within one line, written in order by `f`: those that must wait are left, and so is what stores to the same
bytes after them; the others are performed (R164, R268, R270). -/
def drainEach (f : DrainRow → State → Try) : List DrainRow → List DrainRow → State → List DrainRow × State
  | left, [], s => (left, s)
  | left, r :: rs, s =>
    if left.any fun q => r.meets q then drainEach f (left ++ [r]) rs s
    else
      match f r s with
      | .ok s => drainEach f left rs s
      | .error s => drainEach f (left ++ [r]) rs s

/-- The parts of a row. -/
def DrainRow.split (r : DrainRow) : List DrainRow := (parts r.pa r.n).map fun x => r.part (x.1 - r.pa) x.2

/-- Draining stores, oldest first; those that are left where parts must wait (R268). -/
def State.drainFrom (key ttag : Nat) : List DrainRow → List Drain → State → List Drain × State
  | _, [], s => ([], s)
  | held, d :: ds, s =>
    let (left, s) := drainEach (fun r s => s.drainPart key ttag r 0 r.n) held (d.rows.flatMap DrainRow.split) s
    let mine := left.drop held.length
    let (rest, s) := State.drainFrom key ttag left ds s
    (if mine.isEmpty then rest else { d with rows := mine } :: rest, s)

/-- The draining stores of a strand's task that were set aside (R193, R395): they are earlier in its program order. -/
def State.asideOf (s : State) (key : Nat) : List (Nat × Nat × Drain) :=
  s.aside.filter fun x => s.partOf x.1 == s.partOf key && x.2.1 == s.tagOf key

/-- The oldest draining store of a strand ends, unless it must wait (R268). -/
def State.drainOne (s : State) (key : Nat) : State :=
  match (s.strand key).drains with
  | [] => s
  | d :: ds =>
    let held := (s.asideOf key).flatMap fun x => x.2.2.rows
    let (left, s) := State.drainFrom key (s.tagOf key) held [d] s
    s.modStrand key fun t => { t with drains := left ++ ds }

/-- Every draining store of a strand ends, as a release waits for (R179), but for those that must wait. -/
def State.drainAll (s : State) (key : Nat) : State :=
  match (s.strand key).drains with
  | [] => s
  | ds =>
    let held := (s.asideOf key).flatMap fun x => x.2.2.rows
    let (left, s) := State.drainFrom key (s.tagOf key) held ds s
    s.modStrand key fun t => { t with drains := left }

/-- A strand's draining stores are set aside when its position is taken away, and go on (R395; log 105). -/
def State.setAside (s : State) (key : Nat) : State :=
  let s := s.drainAll key
  { s.modStrand key fun t => { t with drains := [] } with aside := s.aside ++ (s.strand key).drains.map fun d => (key, s.tagOf key, d) }

/-- The draining stores that were set aside go on. -/
def State.drainAside (s : State) : State :=
  s.aside.foldl (fun s x =>
    let held := (s.aside.filter fun y => y.1 == x.1 && y.2.1 == x.2.1).flatMap fun y => y.2.2.rows
    let (left, s) := State.drainFrom x.1 x.2.1 held [x.2.2] s
    { s with aside := s.aside ++ left.map fun d => (x.1, x.2.1, d) }) { s with aside := [] }

/-- The draining rows that an access touches (R181): the same bytes under the same key. -/
def State.drainHits (s : State) (key : Nat) (ps : List Piece) : Bool :=
  ((s.strand key).drains ++ (s.asideOf key).map fun x => x.2.2).any fun d => d.rows.any fun r =>
    match s.present (s.partOf key) r.pa r.key true with
    | .error _ => false
    | .ok t => ps.any fun p => p.key == r.key && decide (p.t.addr < t.addr + r.n) && decide (t.addr < p.t.addr + p.n)

/-- An access of a strand observes its own earlier tile stores: those that touch its bytes are performed first (R181). -/
def settle (key : Nat) (ps : List Piece) (s : State) : Res Unit :=
  if s.drainHits key ps then
    let s := s.drainAside.drainAll key
    if s.drainHits key ps then .wait s else .ok () s
  else .ok () s

/-! ## Whole accesses -/

/-- Where each 64-bit address of a range lies: the ranges of `n` bytes at `va`, wrapping at 2^64 as R41's EA does. -/
def rangeParts (va : Word) (n : Nat) : List (Nat × Nat) :=
  if va.toNat + n ≤ 2 ^ 64 then parts va.toNat n
  else parts va.toNat (2 ^ 64 - va.toNat) ++ parts 0 (va.toNat + n - 2 ^ 64)

/-- A read of R165 at a place, under an alignment. -/
def memReadAs (w : Who) (lv : Level) (al : Align) (va : Word) (n : Nat) (tmp : Nat) (s : State) : Res Nat :=
  let ps := rangeParts va n
  (checkParts w .load al ps s).andThen fun _ s =>
    (markParts w .load al false ps s).andThen fun ps s =>
      (settle w.key ps s).andThen fun _ s =>
        readPieces w (coreOf w.key) lv tmp (s.tagOf w.key) va.toNat ps s

/-- `MemRead` of R165 at a place, `nat` when natural alignment is required. -/
def memReadAt (w : Who) (lv : Level) (va : Word) (n : Nat) (nat : Bool) (tmp : Nat) (s : State) : Res Nat :=
  memReadAs w lv { va := va.toNat, n := n, nat := nat } va n tmp s

/-- `MemWrite` of R165 at a place. -/
def memWriteAt (w : Who) (lv : Level) (va : Word) (n x : Nat) (nat : Bool) (tmp : Nat) (s : State) : Res Unit :=
  let ps := rangeParts va n
  let al : Align := { va := va.toNat, n := n, nat := nat }
  (checkParts w .store al ps s).andThen fun _ s =>
    (markParts w .store al true ps s).andThen fun ps s =>
      (settle w.key ps s).andThen fun _ s =>
        (readyPieces w (coreOf w.key) lv tmp (s.tagOf w.key) ps s).andThen fun _ s =>
          storePieces w (coreOf w.key) lv tmp (s.tagOf w.key) ps x s

/-- `MemRead(va, n, load)` and `MemWrite(va, n, x, store)` of the current strand. -/
def memRead (va : Word) (n tmp : Nat) (s : State) : Res Nat := memReadAt (s.who s.cur) .core va n false tmp s
def memWrite (va : Word) (n x tmp : Nat) (s : State) : Res Unit := memWriteAt (s.who s.cur) .core va n x false tmp s

/-- The place where an atomic executes (R162). -/
def atomicLevel (sc : Scope) (attr : Word) : Level := if leafClass attr ≠ 0 then .home else levelOf sc

/-- The line is brought to the place of an atomic: dirty words above it go there and the copies above are invalidated
(R162). -/
def State.bringDown (s : State) (core : Nat) (p : Piece) : Level → Try
  | .core => .ok s
  | .cluster => (s.toCluster core p.nativeTag).andThen fun s => .ok (s.dropCoreLine core p.nativeTag)
  | .home => (s.toHome core p.nativeTag).andThen fun s => .ok ((s.dropBoth core p.nativeTag).staleAbove core p.nativeTag)

/-- The new value of an atomic at the home place (R126's Am), or at the home of another member (R313). -/
def State.atomicHome (s : State) (p : Piece) (n new : Nat) (agent : Nat) : State :=
  match p.t with
  | .far pa => s.farHomeWrite .am agent pa p.key n (2 ^ n - 1) new
  | _ => s.homeWrite none p.key p.t (leafGrain p.attr) n (2 ^ n - 1) new

/-- The value that an atomic finds at its place. -/
def State.atomicRead (s : State) (core : Nat) (lv : Level) (p : Piece) (n tmp ttag : Nat) : Except Miss (Nat × State) :=
  if lv = .home then
    match s.readWaits p.key p.t n with
    | some u => .error (.held u)
    | none =>
      match s.readTarget p.key p.t n with
      | .error e => .error (.err e.1 e.2)
      | .ok x => .ok (x, s)
  else
    match s.readPiece core lv p tmp ttag with
    | .error m => .error m
    | .ok (x, s) =>
      match s.readyPiece core lv p tmp ttag with
      | .error m => .error m
      | .ok s => .ok (x, s)

/-- `MemAtomic` of R165: reads the location at the place of R162 and writes what `f` gives, in one step. `f` answers none
for a `cas` whose comparison fails, which writes nothing and leaves D unchanged (R147, R172). A walk that restarts begins
again; `fuel` bounds how often. -/
def atomicGo (w : Who) (va : Word) (n : Nat) (sc : Scope) (f : Nat → Option Nat) (tmp : Nat) : Nat → State → Res Nat
  | 0, s => .wait s
  | fuel + 1, s =>
    let core := coreOf w.key
    let ttag := s.tagOf w.key
    match s.pieceOf w .atomic { va := va.toNat, n := n, nat := true } va.toNat n with
    | .error e => raiseBad w va.toNat e s
    | .ok (p, t, s) =>
      let lv := atomicLevel sc p.attr
      (settle w.key [p] s).andThen fun _ s =>
        match s.bringDown core p lv with
        | .error s => .wait s
        | .ok s =>
          match s.atomicRead core lv p n tmp ttag with
          | .error m => raiseBad w va.toNat (m.bad p.key) s
          | .ok (old, s) =>
            match s.updateAD w .atomic t va.toNat (f old).isSome with
            | .error e => raiseBad w va.toNat e s
            | .ok none => atomicGo w va n sc f tmp fuel (s.tlbDrop w .atomic va.toNat)
            | .ok (some s) =>
              match f old with
              | none => .ok old s
              | some new =>
                if lv = .home then .ok old (s.atomicHome p n new (s.agentOf (didOf w.key)))
                else
                  match s.storePiece core lv p new tmp ttag with
                  | .error m => raiseBad w va.toNat (m.bad p.key) s
                  | .ok s => .ok old s

def memAtomic (w : Who) (va : Word) (n : Nat) (sc : Scope) (f : Nat → Option Nat) (tmp : Nat) (s : State) : Res Nat :=
  atomicGo w va n sc f tmp 3 s

/-! ## Instruction fetch -/

/-- The line of a fetch in the core's L1 instruction cache, filled from the cluster place (R152, R177). -/
def State.fetchLine (s : State) (core : Nat) (p : Piece) (ttag : Nat) : Except Miss (Nat × State) :=
  let c := Tab.get PCache.empty s.l1i core
  match c.find p.tag with
  | some l => .ok (l.data.toNat, { s with l1i := Tab.set PCache.empty s.l1i core (c.put l) })
  | none =>
    match s.clusterLine (core / 4) p p.tag (BitVec.allOnes 32) 0 ttag with
    | .error e => .error e
    | .ok (x, s) =>
      let c := match c.victim 128 4 p.tag with | some v => c.without v.tag | none => c
      let l : Line := { tag := p.tag, data := BitVec.ofNat 1024 x, valid := BitVec.allOnes 32, dirty := 0, stamp := 0,
                        ro := leafRO p.attr, tmp := 0, grain := leafGrain p.attr, ttag := ttag }
      .ok (x, { s with l1i := Tab.set PCache.empty s.l1i core (c.put l) })

/-- One word of an instruction (R24, R26): a fetch through an uncached or device page bypasses the caches. An address that is not
a multiple of 4, which only a `tret` to a misaligned XPC can give, is fetched as it stands: the manual states neither a
fault nor a rounding (R24, R377; log 111). -/
def fetchWordAt (w : Who) (va : Nat) (s : State) : Res Nat :=
  match s.pieceAD w .fetch Align.any va 4 false with
  | .error (e, s) => raiseBad w va e s
  | .ok (p, s) =>
    if leafClass p.attr ≠ 0 then
      match s.readPiece (coreOf w.key) .core p 0 (s.tagOf w.key) with
      | .error m => raiseBad w va (m.bad p.key) s
      | .ok (x, s) => .ok x s
    else
      match s.fetchLine (coreOf w.key) p (s.tagOf w.key) with
      | .error m => raiseBad w va (m.bad p.key) s
      | .ok (x, s) => .ok (bits x (8 * p.off) 32) s

/-- `k` words from `va` on, lowest first. -/
def fetchWords (w : Who) : Nat → Nat → State → Res Nat
  | 0, _, s => .ok 0 s
  | k + 1, va, s =>
    (fetchWordAt w va s).andThen fun x s =>
      (fetchWords w k ((va + 4) % 2 ^ 64) s).andThen fun y s => .ok (x + 2 ^ 32 * y) s

/-- The instruction at an address: its length in bytes and its bits (R24, R26). -/
def fetchInstr (key : Nat) (pc : Word) (s : State) : Res (Nat × Nat) :=
  let w := s.who key
  (fetchWordAt w pc.toNat s).andThen fun x s =>
    let n := lengthOf x
    (fetchWords w (n / 4 - 1) ((pc + 4).toNat) s).andThen fun y s => .ok (n, x + 2 ^ 32 * y) s

end Sys2Proof.Machine
end

