-- ==== Sys2Proof/Machine/Ops.lean ====
section
/-!
DEFINITION. The shared operations of the machine: drains of retired tile stores (R267, R268), release and acquire (R179),
taking an exception and returning from one (R371, R377), guards and privilege in the order of R40, and how an instruction
ends.
-/
namespace Sys2Proof.Machine

/-! ## Release and acquire (R165, R179) -/

/-- The effect of a release of a scope by a strand, as far as it goes at once: every drain ends, and the words of R154 are
written through, but for those that must wait. -/
def State.releaseBy (s : State) (key : Nat) (sc : Scope) : State := (s.drainAll key).releaseAt (coreOf key) (levelOf sc)

/-- Whether a release of a scope by a strand is complete (R179): no store of the strand is draining, and what it writes through
has been performed and acknowledged (R130). -/
def State.releaseDone (s : State) (key : Nat) (sc : Scope) : Bool :=
  (s.strand key).drains.isEmpty && (s.asideOf key).isEmpty && s.released (coreOf key) (levelOf sc)

/-- The effect of an acquire of a scope by a strand (R153, R156). -/
def State.acquireBy (s : State) (key : Nat) (sc : Scope) : State := s.acquireAt (coreOf key) (levelOf sc)

/-- `Release(scope)` of a strand; it waits until it is complete (R164, R179). -/
def releaseOf (key : Nat) (sc : Scope) (s : State) : Res Unit :=
  let s := s.releaseBy key sc
  if s.releaseDone key sc then .ok () s else .wait s

/-- `Release(scope)` of the current strand. -/
def release (sc : Scope) (s : State) : Res Unit := releaseOf s.cur sc s

/-- A task's first acquire on a core stalls until the flush by context tag of the core it left is acknowledged (R140). -/
def flushed (key : Nat) (s : State) : Res Unit :=
  match (s.strand key).flushing with
  | none => .ok () s
  | some (core, ttag) =>
    let s := s.flushTag core ttag
    if s.tagFlushed core ttag then .ok () (s.modStrand key fun t => { t with flushing := none }) else .wait s

/-- The steps that wait take place again (log 104); in a bell they wait for its end (R395). -/
def State.goOn (s : State) : State := if s.bellIn then s else { s with agenda := s.agenda ++ s.deferred, deferred := [] }

/-- `Acquire(scope)` of a strand; it waits for a full flush that it makes, which the other accesses of its core, or of its cluster,
wait for too (R156), and for the flush of R140. -/
def acquireOf (key : Nat) (sc : Scope) (s : State) : Res Unit :=
  (if levelOf sc = .core then .ok () s else flushed key s).andThen fun _ s =>
    match s.acquireWaits (coreOf key) (levelOf sc) with
    | some u => .wait (u.modStrand key fun t => { t with flush := (s.fullFlush (coreOf key) (levelOf sc)).1 })
    | none =>
      let t := s.acquireBy key sc
      .ok () (if (t.strand key).flush.isEmpty then t else (t.modStrand key fun t => { t with flush := [] }).goOn)

/-- Whether the full flush that the acquire of a strand other than `key` makes holds the accesses of a core, or, where `all`, of its
whole cluster (R156). -/
def State.flushHolds (s : State) (key : Option Nat) (core : Nat) (all : Bool) : Bool :=
  s.strands.any fun e => some e.1 != key && e.2.run == .running && s.bankOn (clusterOf e.1) == some (bankOf e.1) &&
    (if all then mateCores core else [core]).all e.2.flush.contains

/-- `Acquire(scope)` of the current strand. -/
def acquire (sc : Scope) (s : State) : Res Unit := acquireOf s.cur sc s

/-! ## Exceptions -/

/-- The task of a strand dies (R385): the part's next step, with the notice's CAUSE and STATUS. -/
def State.raiseDeath (s : State) (key cause status : Nat) : State :=
  pushMove (.event .xctlKill (.num3 key cause status)) s

/-- The event of a third fault (R371, R402). -/
def thirdFaultEvent (part sid : Nat) : McEvent :=
  { code := 0x53, bank := 8 * (sid / 512), cls := 2, part := part, unit := sid, addr := none, key := 0, syn := none,
    kills := none }

/-- The vector address of a cause (R370). -/
def vectorOf (t : Strand) (c : Nat) : Word := BitVec.ofNat 64 (fld t.xvec 11 44 * 2 ^ 11 + 0x40 * c)
/-- The double-fault entry (R370). -/
def doubleVector (t : Strand) : Word := BitVec.ofNat 64 (fld t.xdvec 2 53 * 4)

/-- What a trap ends: a roll in force (R300), a `tmul` that its engine has not chosen (R375), a wait whose instruction
executes again (R375). -/
def Strand.interrupted (t : Strand) : Strand :=
  { t with rolling := false, mul := none, call := none, bellWait := none, fence := none, inFlight := 0, body := [], performed := none,
           flush := [] }

/-- The trap registers of a first trap (R371). -/
def Strand.enterFirst (t : Strand) (pc : Word) (e : Exc) : Strand :=
  { t with xpc := pc, xcause := BitVec.ofNat 64 e.cause, xaddr := e.addr, xinfo := e.info, xstat := boolWord t.sup,
           xlvl := 1, sup := true, pc := vectorOf t e.cause, run := .running }

/-- The registers of a double fault (R371). -/
def Strand.enterDouble (t : Strand) (pc : Word) (e : Exc) : Strand :=
  { t with xcause2 := BitVec.ofNat 64 (e.cause * 2 ^ 8 + 0x1F), xpc2 := pc, xaddr2 := e.addr, xlvl := 2, sup := true,
           pc := doubleVector t, run := .running }

/-- TAKING AN EXCEPTION (R371): trap entry of a strand with cause, address and information, `pc` being the PC of R369.
Each entry releases and acquires at scope .core, which ends the strand's drains (R180, R270). A third fault stops the
strand, raises a contained machine check and kills the task. -/
def State.trapEnter (s : State) (key : Nat) (pc : Word) (e : Exc) : State :=
  let s := (s.releaseBy key .core).acquireBy key .core
  let t := (s.strand key).interrupted
  if t.xlvl = 2 then
    let s := s.setStrand key { t with run := .stopped }
    (s.raiseDeath key e.cause e.addr.toNat).raiseCheck (thirdFaultEvent ((s.partOf key).getD 0) (sidOf key))
  else if t.xlvl = 1 then s.setStrand key (t.enterDouble pc e)
  else s.setStrand key (t.enterFirst pc e)

/-- RETURNING FROM AN EXCEPTION (R377): privilege and PC from XSTAT.PPRIV and XPC, with the release and the acquire of
scope .core; a strand whose ROLLI.ACT is 1 resumes inside the roll (R300), whose body is captured again as it is reached. -/
def State.trapReturn (s : State) (key : Nat) : State :=
  let s := (s.releaseBy key .core).acquireBy key .core
  s.modStrand key fun t => { t with sup := bit t.xstat 0, pc := t.xpc, rolling := bit t.rolli 63, body := [] }

/-- `Illegal()` of R41: cause 0x02 with the instruction's address and bits. -/
def illegalExc (s : State) : Exc := { cause := 0x02, addr := s.me.pc, info := s.ibits }
/-- The privileged trap (R40, R369). -/
def privilegedExc (s : State) : Exc := { cause := 0x03, addr := s.me.pc, info := s.ibits }

/-- Raises a trap. -/
def raise {α : Type} (cause : Nat) (addr : Word) (info : Nat) (s : State) : Res α :=
  .trap { cause := cause, addr := addr, info := BitVec.ofNat 64 info } s

/-! ## How an instruction ends -/

/-- What a step answers. -/
abbrev Out := Host.Outcome State Fault Refusal

/-- ROLLI with the fields of R298. -/
def rolliWord (act len k boff n j : Nat) : Word :=
  BitVec.ofNat 64 (act % 2 * 2 ^ 63 + len % 16 * 2 ^ 59 + k % 16 * 2 ^ 55 + boff % 256 * 2 ^ 47 + n % 2 ^ 23 * 2 ^ 24 + j % 2 ^ 23)

/-- The strand after an instruction of `len` bytes has retired: the next instruction, which inside a roll may be the body's
first in the next instance (R299); no row load is in flight any more. -/
def Strand.advance (t : Strand) (len : Nat) : Strand :=
  if !t.rolling then { t with pc := t.pc + BitVec.ofNat 64 len, inFlight := 0 }
  else
    let L := fld t.rolli 59 4
    let K := fld t.rolli 55 4
    let B := fld t.rolli 47 8
    let N := fld t.rolli 24 23
    let J := fld t.rolli 0 23
    if K < L then { t with pc := t.pc + BitVec.ofNat 64 len, rolli := rolliWord 1 L (K + 1) (B + len) N J, inFlight := 0 }
    else if J + 1 < N then { t with pc := t.pc - BitVec.ofNat 64 B, rolli := rolliWord 1 L 0 0 N (J + 1), inFlight := 0 }
    else { t with pc := t.pc + BitVec.ofNat 64 len, rolli := rolliWord 0 L 0 0 N N, rolling := false, body := [], inFlight := 0 }

/-- The trap of the current strand's instruction, `s0` being the state it began in; trap entry releases at scope .core, and
where a drain of the strand must wait, in a bell say, the instruction waits with it (R180, R270). -/
def State.takeTrap (s0 s : State) (e : Exc) : State :=
  let s := s.drainAll s0.cur
  if s.releaseDone s0.cur .core then s.trapEnter s0.cur s0.me.pc e else s0.drainAll s0.cur

/-- The end of an instruction of the current strand that names the next PC: retired, trapped at its own address, or held. -/
def conclude (s : State) (r : Res Word) : Out :=
  match r with
  | .ok pc s' => .next (s'.modMe fun t => { t with pc := pc })
  | .trap e s' => .next (s.takeTrap s' e)
  | .wait s' => .next s'

/-- The end of an instruction of `len` bytes after which execution continues in order. -/
def done (len : Nat) (s : State) (r : Res Unit) : Out :=
  match r with
  | .ok _ s' => .next (s'.modMe fun t => t.advance len)
  | .trap e s' => .next (s.takeTrap s' e)
  | .wait s' => .next s'

/-- Whether the guard of a format-M or format-L instruction holds (R32). -/
def State.guard (s : State) (h : Hdr) : Bool := s.PR h.gp != h.gn

/-- A guarded instruction: under a false guard it retires with no effect beyond advancing the PC (R33). -/
def guarded (h : Hdr) (len : Nat) (s : State) (f : State → Res Unit) : Out :=
  if s.guard h then done len s (f s) else done len s (.ok () s)

/-- An instruction that needs privilege S (R40). -/
def privileged (s : State) (o : Out) : Out :=
  if s.me.sup then o else .next (s.takeTrap s (privilegedExc s))

end Sys2Proof.Machine
end

