-- ==== Sys2Proof/Machine/Operands.lean ====
section
/-!
DEFINITION. Operand forms: immediates, literals and displacements (R28, R29, R221, R222), register values of a type
(R166, R171), lanes (R239, R240) and tile shapes (R63, R266).
-/
namespace Sys2Proof.Machine

/-! ## Immediates and literals -/

/-- Sext(imm15, 64) (R28). -/
def imm15 (i : BitVec 15) : Word := i.signExtend 64
/-- Sext(lit32, 64) (R29). -/
def lit64 (l : BitVec 32) : Word := l.signExtend 64
/-- The signed value of lit32. -/
def litInt (l : BitVec 32) : Int := l.toInt
/-- The displacement of an S memory form: an element offset in units of `size` bytes (R28). -/
def off11 (o : BitVec 11) (size : Nat) : Int := o.toInt * size
/-- The displacement of a vector memory form (R168). -/
def off14 (i : BitVec 14) (size : Nat) : Int := i.toInt * size
/-- The target of a PC-relative transfer: a word offset from the instruction's own address (R229). -/
def pcRel (pc : Word) (o : Int) : Word := pc + toWord (4 * o)
/-- A width field of which 0 encodes 64 (R224), and a row count of which 0 encodes 64 (R266). -/
def of64 (n : Nat) : Nat := if n = 0 then 64 else n

/-! ## Values of a type -/

/-- A loaded value in a general register: sign-extended for the `.i` types, else zero-extended (R166, R171). -/
def extendTy (ty : Ty) (x : Nat) : Word :=
  if ty.isSigned then toWord (sextN ty.bits x) else BitVec.ofNat 64 (x % 2 ^ ty.bits)

/-- Reads a `w`-bit element as the type says: signed for `.i`, else unsigned. -/
def tyInt (ty : Ty) (x : Nat) : Int := readInt ty.isSigned ty.bits x

/-! ## Lanes -/

/-- How many lanes a type divides a vector register into (R239). -/
def lanes (ty : Ty) : Nat := 512 / ty.bits

/-- Lane `i` of width `w` of a vector register (R41). -/
def lane (x : Vec) (w i : Nat) : Nat := elemN x.toNat w i

/-- A vector register from its lanes, lane 0 first. -/
def ofLanes (w : Nat) (l : List Nat) : Vec := BitVec.ofNat 512 (packN w l)

/-- A lane-wise result under a mask (R31): active lanes take `f i`, inactive lanes keep the old lane or become zero. -/
def maskedLanes (s : State) (k : Mask) (w : Nat) (old : Vec) (f : Nat → Nat) : Vec :=
  let m := s.MK k.m
  ofLanes w ((List.range (512 / w)).map fun i =>
    if m.getLsbD i then f i else if k.z then 0 else lane old w i)

/-- Writes the lanes of V[d] under the mask. -/
def State.setLanes (s : State) (k : Mask) (ty : Ty) (d : R32) (f : Nat → Nat) : State :=
  s.setV d (maskedLanes s k ty.bits (s.V d) f)

/-! ## Tile shapes -/

/-- Rows and row bytes of a shape field (R63, R266). -/
def shapeRows (rows : BitVec 6) : Nat := of64 rows.toNat
def shapeBytes (rb : BitVec 4) : Nat := 8 * (rb.toNat + 1)
/-- The shape field itself, as tile shape reports it (R266). -/
def shapeField (rows : BitVec 6) (rb : BitVec 4) : Nat := rb.toNat * 64 + rows.toNat

/-- The address of row i: (base + i · stride) mod 2^64 (R267). -/
def rowAddr (base stride : Word) (i : Nat) : Word := base + BitVec.ofNat 64 i * stride

end Sys2Proof.Machine
end

