-- ==== Sys2Proof/Machine/Flags.lean ====
section
/-!
DEFINITION. Conditions. The part has no condition flags (R216): a compare writes the truth of one condition of R52 to a
predicate, or to the bits of a mask.
-/
namespace Sys2Proof.Machine

/-- A condition of a scalar compare (R225). -/
def condWord (c : Cond) (x y : Word) : Bool :=
  match c with
  | .eq => x == y
  | .ne => x != y
  | .lt => x.slt y
  | .le => x.sle y
  | .gt => y.slt x
  | .ge => y.sle x
  | .ltu => x.ult y
  | .leu => x.ule y
  | .gtu => y.ult x
  | .geu => y.ule x
  | .un => false

/-- A condition on exact integers, for the lanes of an integer type (R245). -/
def condInt (c : Cond) (x y : Int) : Bool :=
  match c with
  | .eq => x == y
  | .ne => x != y
  | .lt | .ltu => decide (x < y)
  | .le | .leu => decide (x ≤ y)
  | .gt | .gtu => decide (y < x)
  | .ge | .geu => decide (y ≤ x)
  | .un => false

/-- A condition on floating values (R77, R245): every ordered comparison with a NaN is false, `ne` and `un` are true. -/
def condFloat (c : Cond) (x y : FVal) : Bool :=
  match fcompare x y with
  | none => match c with | .ne | .un => true | _ => false
  | some o =>
    match c with
    | .eq => o == .eq
    | .ne => o != .eq
    | .lt | .ltu => o == .lt
    | .le | .leu => o != .gt
    | .gt | .gtu => o == .gt
    | .ge | .geu => o != .lt
    | .un => false

/-- A condition on lanes of a type: patterns of `.b` types are compared as unsigned. -/
def condLane (c : Cond) (ty : Ty) (x y : Nat) : Bool :=
  if ty.isFloat then condFloat c (widen (ffOf ty) x) (widen (ffOf ty) y)
  else
    match c with
    | .lt | .le | .gt | .ge => condInt c (sextN ty.bits x) (sextN ty.bits y)
    | _ => condInt c (readInt false ty.bits x) (readInt false ty.bits y)

end Sys2Proof.Machine
end

