-- ==== Sys2Proof/Machine/Convert.lean ====
section
/-!
DEFINITION. Conversions between element types (R76, R79), shared by the copy engine and the vector unit.
-/
namespace Sys2Proof.Machine

/-- One element converted between two types (R76). -/
def convertElem (sty dty : Ty) (rm : Rm) (sat : Bool) (x : Nat) : Nat :=
  if sty.isAnyFloat then
    if dty.isAnyFloat then roundTo (ffOf dty) rm (widen (ffOf sty) x)
    else toInt dty.isSigned dty.bits rm sat (widen (ffOf sty) x)
  else if dty.isAnyFloat then ofInt (ffOf dty) rm (tyInt sty x)
  else if sat then wrapN dty.bits (satInt dty.isSigned dty.bits (tyInt sty x))
  else wrapN dty.bits (tyInt sty x)

/-- The hi, mid and lo of R79 for an FP32 pattern. -/
def split3 (x : Nat) : Nat × Nat × Nat :=
  match widen .f32 x with
  | .nan => (FF.canon .bf16, FF.canon .bf16, FF.canon .bf16)
  | .inf _ => (bits x 16 16, 0, 0)
  | v =>
    let h := roundTo .bf16 .rne v
    let hi := if bits h 0 15 = FF.inf .bf16 then bits h 15 1 * 2 ^ 15 + 0x7F7F else h
    let m := roundTo .bf16 .rne (exactSum .rne [v, (widen .bf16 hi).negate])
    let l := roundTo .bf16 .rne (exactSum .rne [v, (widen .bf16 hi).negate, (widen .bf16 m).negate])
    (hi, m, l)

end Sys2Proof.Machine
end

