-- ==== Sys2Proof/Machine/Hub.lean ====
section
/-!
DEFINITION. Accesses that the hub makes for a task or a window through a captured address space, performed at the home
place (R345, R388); the machine checks and the deferred steps it raises.
-/
namespace Sys2Proof.Machine

/-- Queues a step behind everything on the agenda (log 4). -/
def State.later (s : State) (i : Instr) (x : Input) : State := { s with agenda := s.agenda ++ [.event i x] }

/-- The hub as a translator of a captured address space, at privilege U (R345; log 12). -/
def hubWho (part : Nat) (ptbase asn : Word) (keys : List (Option Nat)) : Who :=
  { key := 0, part := some part, sup := false, ptbase := ptbase, asn := fld asn 0 16, keys := keys, req := 0, mark := 0,
    abortMark := 0, unit := .die }

/-- The bytes of pieces at the home place, lowest first; a bell holds the read (R164), and its home may make it wait. -/
def homePieces (w : Who) : List Piece → State → Res Nat
  | [], s => .ok 0 s
  | p :: ps, s =>
    match s.readWaits p.key p.t p.n with
    | some u => .wait u
    | none =>
      let d := (s.homeOf p.t).getD 0
      let r : Except Miss (Nat × State) :=
        if leafSub p.attr then
          match s.lineFromHome d p p.tag with
          | .error m => .error m
          | .ok (x, s) => .ok (bits x (8 * p.off) (8 * p.n), s)
        else
          match s.placeRead d p.key p.t p.n (leafGrain p.attr) with
          | (.error e, _) => .error (.err e.1 e.2)
          | (.ok x, s) => .ok (x, s)
      match r with
      | .error m => raiseBad w p.va (m.bad p.key) s
      | .ok (x, s) => (homePieces w ps s).andThen fun y s => .ok (x + 2 ^ (8 * p.n) * y) s

/-- The home place made ready for every piece of a write, before any byte is written (R115). -/
def homeReady (ps : List Piece) (s : State) : Res Unit :=
  match ps.findSome? fun p => s.readWaits p.key p.t p.n with
  | some u => .wait u
  | none => .ok () s

/-- Stores pieces at the home place, lowest first. -/
def homeStores : List Piece → Nat → State → State
  | [], _, s => s
  | p :: ps, x, s =>
    homeStores ps (x / 2 ^ (8 * p.n)) (s.homeWrite none p.key p.t (leafGrain p.attr) p.n (2 ^ p.n - 1) (x % 2 ^ (8 * p.n)))

/-- A read by the hub. -/
def hubRead (w : Who) (va : Word) (n : Nat) (s : State) : Res Nat :=
  let ps := rangeParts va n
  (checkParts w .load Align.any ps s).andThen fun _ s =>
    (markParts w .load Align.any false ps s).andThen fun ps s => homePieces w ps s

/-- A write by the hub. -/
def hubWrite (w : Who) (va : Word) (n x : Nat) (s : State) : Res Unit :=
  let ps := rangeParts va n
  (checkParts w .store Align.any ps s).andThen fun _ s =>
    (markParts w .store Align.any true ps s).andThen fun ps s =>
      (homeReady ps s).andThen fun _ s => .ok () (homeStores ps x s)

/-- An atomic by the hub, at the home place: the old value. `f` answers none where nothing is written, which leaves D unchanged
(R147). -/
def hubAtomic (w : Who) (va : Word) (n : Nat) (f : Nat → Option Nat) (s : State) : Res Nat :=
  match s.pieceOf w .atomic { va := va.toNat, n := n, nat := true } va.toNat n with
  | .error e => raiseBad w va.toNat e s
  | .ok (p, t, s) =>
    match s.readWaits p.key p.t n with
    | some u => .wait u
    | none =>
      match s.readTarget p.key p.t n with
      | .error e => raiseBad w va.toNat (.abort e.1 e.2 p.key) s
      | .ok old =>
        match s.updateAD w .atomic t va.toNat (f old).isSome with
        | .error e => raiseBad w va.toNat e s
        | .ok none => .wait (s.tlbDrop w .atomic va.toNat)
        | .ok (some s) =>
          match f old with
          | none => .ok old s
          | some new => .ok old (s.atomicHome p n new (s.agentOf 0))

/-! ## Steps that wait -/

/-- A step of the hub that must wait takes place again once an acknowledgement, the answer to a recall or the end of a bell has
come (R114, R126, R130; log 104). -/
def State.defer (s : State) (i : Instr) (x : Input) : State := { s with deferred := s.deferred ++ [.event i x] }

/-- A step of the hub: what it makes of the state, or its waiting. -/
def deferring (i : Instr) (s : State) (r : Res Unit) : State :=
  match r with
  | .ok _ s => s
  | .trap _ s => s
  | .wait u => u.defer i s.input

/-- A release write of the hub follows the acknowledgements of what it has written before (R130, R179). -/
def hubReleased (s : State) : Res Unit := if s.acks.isEmpty then .ok () s else .wait s

/-- The contained machine check of a hub write that failed, or of a malformed mailbox (R355, R356, R402); the service
engine's bank (log 13). -/
def hubFailEvent (part : Nat) : McEvent :=
  { code := 0x52, bank := 34, cls := 2, part := part, unit := 0, addr := none, key := 0, syn := none, kills := none }

/-- One line's worth of a strand's access under a physical address and KeyID 0 (R149, R199). -/
def physPiece (pa n : Nat) (t : Target) : Piece := { va := pa, n := n, t := t, key := 0, attr := pinnedAttr }

/-! ## Notices (R354, R355) -/

/-- A notice that has been written makes the notice cause pending for the strands of the issuing task that are still resident
(R374). -/
def State.noticePending (s : State) (n : Notice) : State :=
  match n.parent.bind fun id => s.tasks.find? fun t => t.id == id && t.state == .resident with
  | none => s
  | some t =>
    ((List.range t.keys.length).filter fun g => !t.exited.contains g && !t.saved.contains g).foldl (fun s g =>
      s.modStrand (t.keys.getD g 0) fun st => { st with xmask := st.xmask ||| 0x200, notice := BitVec.ofNat 64 n.notq }) s

/-- Writes a notice into its queue. A fault drops it and raises a machine check; a full or malformed queue counts it as
lost. -/
def State.writeNotice (s : State) (n : Notice) : State :=
  let w := hubWho n.part n.ptbase n.asn n.keys
  let at' (o : Nat) : Word := BitVec.ofNat 64 (n.notq + o)
  let r : Res Bool :=
    (hubRead w (at' 0) 64 s).andThen fun x s =>
      let ring := elemN x 64 0
      let size := elemN x 64 1
      let wr := elemN x 64 2
      let rd := elemN x 64 3
      let lost := elemN x 64 4
      let malformed := ring % 64 != 0 || size == 0 || decide (size > 2 ^ 20)
        || decide (2 ^ Nat.log2 size ≠ size) || bits x 320 192 != 0
      if malformed || decide ((wr + 2 ^ 64 - rd) % 2 ^ 64 ≥ size) then
        (hubWrite w (at' 32) 8 ((lost + 1) % 2 ^ 64) s).andThen fun _ s => .ok false s
      else
        let entry := packN 64 [n.cause * 2 ^ 8 + n.kind, n.tag.toNat, n.status.toNat, n.packet]
        (hubWrite w (BitVec.ofNat 64 (ring + 32 * (wr % size))) 32 entry s).andThen fun _ s =>
          (hubReleased s).andThen fun _ s => (hubWrite w (at' 16) 8 ((wr + 1) % 2 ^ 64) s).andThen fun _ s => .ok true s
  match r with
  | .ok true s => s.noticePending n
  | .ok false s => s
  | .trap _ s => s.raiseCheck (hubFailEvent n.part)
  | .wait s => { s with notices := s.notices ++ [n] }

/-- A notice: written at once, or after those that wait for the end of a bell (R395) or for their home (log 104). -/
def State.sendNotice (s : State) (n : Notice) : State :=
  if n.notq = 0 then s
  else if s.bellIn || !s.notices.isEmpty then { s with notices := s.notices ++ [n] }
  else s.writeNotice n

/-- The notices that wait are written, in order. -/
def State.flushNotices (s : State) : State :=
  s.notices.foldl (fun s n => s.sendNotice n) { s with notices := [] }

end Sys2Proof.Machine
end

