-- ==== Sys2Proof/Machine/Leave.lean ====
section
/-!
DEFINITION. Leave: budgets and credits (R399 to R401), the drain window around a bell (R394), and the calendar that it
follows (R391, R392).
-/
namespace Sys2Proof.Machine

/-! ## The calendar -/

/-- The length of a peal in ns (R391). -/
def pealLen : Nat := 24000
/-- The length of a turn in ns (R304). -/
def turnLen : Nat := 1600
/-- TIME at which the next bell that has not begun begins (R392). -/
def State.nextBell (s : State) : Nat := pealLen * s.bellPeal
/-- The published length of the bell of a peal (R391). -/
def bellLength (peal : Nat) : Nat := if peal % 1024 = 0 then 40000 else turnLen
/-- The peal whose bell follows the bell of `peal`: a great bell takes the place of the next peal's (R391). -/
def bellAfter (peal : Nat) : Nat := if peal % 1024 = 0 then peal + 2 else peal + 1

/-- Whether the drain admits an operation of estimate `e` now (R394). -/
def State.drainAdmits (s : State) (e : Nat) : Bool :=
  !s.bellIn && (decide (s.time + 400 < s.nextBell) || decide (s.time + e ≤ s.nextBell))

/-! ## Credits -/

def lvcAddr (c : Nat) : Nat := hubLV + 8 * c
def lvdAddr (d : Nat) : Nat := hubLV + 0x1000 + 8 * d
def lvmAddr : Nat := hubLV + 0x1020

/-- USED of a leave register (R400). -/
def State.leaveUsed (s : State) (a : Nat) : Nat := s.hubFld a 32 16
/-- The budgets of a cluster, a die and the module (R400, R401). -/
def State.clusterBudget (s : State) (c : Nat) : Nat := s.hubFld (lvcAddr c) 0 8
def State.dieBudget (s : State) (d : Nat) : Nat := s.hubFld (lvdAddr d) 0 16
def State.moduleBudget (s : State) : Nat := min (s.hubFld lvmAddr 0 16) (s.hubFld lvmAddr 16 16)

/-- The three conditions of R401. -/
def State.fitsCluster (s : State) (c n : Nat) : Bool := decide (s.leaveUsed (lvcAddr c) + n ≤ s.clusterBudget c)
def State.fitsDie (s : State) (d n : Nat) : Bool := decide (s.leaveUsed (lvdAddr d) + n ≤ s.dieBudget d)
def State.fitsModule (s : State) (n : Nat) : Bool := decide (s.leaveUsed lvmAddr + n ≤ s.moduleBudget)

/-- Adds to one USED field. -/
def State.addUsed (s : State) (a : Nat) (n : Int) : State := s.hubSetFld a 32 16 ((s.leaveUsed a : Int) + n).toNat
/-- A grant adds to all three USED fields, a return (n negative) subtracts. -/
def State.moveCredits (s : State) (c : Nat) (n : Int) : State :=
  ((s.addUsed (lvcAddr c) n).addUsed (lvdAddr (c / 64)) n).addUsed lvmAddr n

/-- Whether waiting requests stand in the way of a younger one of cluster `c`: its cluster's own, and those that have
waited 4,096 clk at its die or at the module (R401). -/
def State.leaveBlocked (s : State) (older : List LeaveReq) (c : Nat) : Bool :=
  older.any fun r =>
    r.cluster == c ||
      (decide (r.since + 4096 ≤ s.clk) &&
        ((r.cluster / 64 == c / 64 && !s.fitsDie (r.cluster / 64) r.n) || !s.fitsModule r.n))

/-- Whether a request for `n` credits from cluster `c`, younger than `older`, is granted now (R401). -/
def State.leaveGrants (s : State) (older : List LeaveReq) (c n : Nat) : Bool :=
  s.fitsCluster c n && s.fitsDie (c / 64) n && s.fitsModule n && !s.leaveBlocked older c

/-- The oldest waiting request that is granted now, with those before it (R401). -/
def State.leaveNext (s : State) : List LeaveReq → List LeaveReq → Option LeaveReq
  | _, [] => none
  | older, r :: rest => if s.leaveGrants older r.cluster r.n then some r else s.leaveNext (older ++ [r]) rest

/-- Whether a request that comes now is granted at once: none that waits could be granted instead, as the oldest that fits goes first
(R401). -/
def State.leaveNow (s : State) (c n : Nat) : Bool := (s.leaveNext [] s.leaveQ).isNone && s.leaveGrants s.leaveQ c n

/-- Credits of an owner: held after this, or waited for in the queue (R401). A request that was granted while it waited
takes its credits up here. -/
def State.askLeave (s : State) (o : LeaveOwner) (c n : Nat) : Bool × State :=
  if s.leaveGot.contains o then (true, { s with leaveGot := s.leaveGot.erase o })
  else if s.leaveQ.any (fun r => r.owner == o) then (false, s)
  else if s.leaveNow c n then (true, s.moveCredits c n)
  else (false, { s with leaveQ := s.leaveQ ++ [{ owner := o, cluster := c, n := n, since := s.clk }] })

/-- The leave unit looks at its queue again at the part's next steps. -/
def State.leaveLook (s : State) : State := if s.leaveQ.isEmpty then s else s.later .leaveGrant .none

/-- Credits go back to the leave unit. -/
def State.returnLeave (s : State) (c n : Nat) : State :=
  if n = 0 then s else (s.moveCredits c (-(n : Int))).leaveLook

/-- A request and a grant not taken up are withdrawn; what a grant had given goes back. -/
def State.dropLeave (s : State) (o : LeaveOwner) (c n : Nat) : State :=
  let s := { s with leaveQ := s.leaveQ.filter fun r => r.owner != o }
  if s.leaveGot.contains o then { s with leaveGot := s.leaveGot.erase o }.returnLeave c n else s

/-- Whether the drain lets an owner's operation begin now, by the estimate of R394; a `tmul` accesses no memory. -/
def State.leaveAdmits (s : State) : LeaveOwner → Bool
  | .engine _ _ => true
  | .strand _ => s.drainAdmits 160
  | .channel _ => s.drainAdmits 80
  | .remote _ | .part _ _ => s.drainAdmits 40

/-- The step in which an owner's operation begins. -/
def LeaveOwner.move : LeaveOwner → Move
  | .engine k _ => .event .engineChoice (.engine k .pass)
  | .strand key | .remote key => .strand key
  | .channel k => .event .copyChunk (.num k)
  | .part c _ => .event .rpartCommit (.num c)

/-- A step whose operation the drain refuses is taken again at the end of the bell, in the order of the refusals (R394). -/
def State.refuseStep (s : State) (m : Move) : State := if s.refused.contains m then s else { s with refused := s.refused ++ [m] }

/-- The drain refuses an owner's operation: it holds no credits, and its request leaves the queues (R394, R401). -/
def State.refuseOp (s : State) (o : LeaveOwner) (c : Nat) : State := (s.dropLeave o c 4).refuseStep o.move

end Sys2Proof.Machine
end

