-- ==== Sys2Proof/Machine/Roll.lean ====
section
/-!
DEFINITION. The roll buffer (R295 to R300): what an instruction of a body becomes in an instance, and `roll`.
-/
namespace Sys2Proof.Machine

/-- The steps of the fields in one instance (R297). -/
structure RollStep where
  vs : Nat
  ts : Nat
  as : Nat
deriving DecidableEq, Repr

def RollStep.v (r : RollStep) (n : R32) : R32 := Fin.ofNat 32 (n.val + r.vs)
def RollStep.t (r : RollStep) (n : R8) : R8 := Fin.ofNat 8 (n.val + r.ts)
def RollStep.a (r : RollStep) (n : R4) : R4 := Fin.ofNat 4 (n.val + r.as)
/-- The quad field of `tmul.t2i8`: t0 or t4, or none. -/
def RollStep.quad (r : RollStep) (hi : Bool) : Option Bool :=
  match ((if hi then 4 else 0) + r.ts) % 8 with
  | 0 => some false
  | 4 => some true
  | _ => none

/-- The step of the instance in progress of a strand's roll (R295, R297). -/
def Strand.rollStep (t : Strand) : RollStep :=
  let j := fld t.rolli 0 23
  { vs := j * fld t.rollc 11 5, ts := j * fld t.rollc 8 3, as := j * fld t.rollc 6 2 }

/-- G[a] as the base of a memory access: stepped when the register is one of the roll's two (R297). -/
def State.base (s : State) (a : R32) : Word :=
  let t := s.me
  let by' (lo : Nat) : Word := toWord (sextN 19 (fld t.rollc lo 19) * 8 * (fld t.rolli 0 23 : Nat))
  if !t.rolling || a.val = 0 then s.G a
  else if a.val = fld t.rollc 59 5 then s.G a + by' 40
  else if a.val = fld t.rollc 35 5 then s.G a + by' 16
  else s.G a

/-- An instruction of a body with its fields rewritten for an instance; none where the instruction does not accept a
stepped field (R297). What no body holds is unchanged. -/
def rollInstr (r : RollStep) : Instr → Option Instr
  | .vadd h k ty d a b => some (.vadd h k ty (r.v d) (r.v a) (r.v b))
  | .vsub h k ty d a b => some (.vsub h k ty (r.v d) (r.v a) (r.v b))
  | .vmul h k ty d a b => some (.vmul h k ty (r.v d) (r.v a) (r.v b))
  | .vaddSat h k ty d a b => some (.vaddSat h k ty (r.v d) (r.v a) (r.v b))
  | .vsubSat h k ty d a b => some (.vsubSat h k ty (r.v d) (r.v a) (r.v b))
  | .vmin h k ty d a b => some (.vmin h k ty (r.v d) (r.v a) (r.v b))
  | .vmax h k ty d a b => some (.vmax h k ty (r.v d) (r.v a) (r.v b))
  | .vabs h k ty d a => some (.vabs h k ty (r.v d) (r.v a))
  | .vneg h k ty d a => some (.vneg h k ty (r.v d) (r.v a))
  | .vand h k ty d a b => some (.vand h k ty (r.v d) (r.v a) (r.v b))
  | .vor h k ty d a b => some (.vor h k ty (r.v d) (r.v a) (r.v b))
  | .vxor h k ty d a b => some (.vxor h k ty (r.v d) (r.v a) (r.v b))
  | .vandn h k ty d a b => some (.vandn h k ty (r.v d) (r.v a) (r.v b))
  | .vshl h k ty d a b => some (.vshl h k ty (r.v d) (r.v a) (r.v b))
  | .vshr h k ty d a b => some (.vshr h k ty (r.v d) (r.v a) (r.v b))
  | .vsar h k ty d a b => some (.vsar h k ty (r.v d) (r.v a) (r.v b))
  | .vshlImmediate h k ty d a n => some (.vshlImmediate h k ty (r.v d) (r.v a) n)
  | .vshrImmediate h k ty d a n => some (.vshrImmediate h k ty (r.v d) (r.v a) n)
  | .vsarImmediate h k ty d a n => some (.vsarImmediate h k ty (r.v d) (r.v a) n)
  | .vmov h k ty d a => some (.vmov h k ty (r.v d) (r.v a))
  | .vectorBroadcastLiteral h k op ty d a lit => some (.vectorBroadcastLiteral h k op ty (r.v d) (r.v a) lit)
  | .vaddFloat h k ty rm d a b => some (.vaddFloat h k ty rm (r.v d) (r.v a) (r.v b))
  | .vsubFloat h k ty rm d a b => some (.vsubFloat h k ty rm (r.v d) (r.v a) (r.v b))
  | .vmulFloat h k ty rm d a b => some (.vmulFloat h k ty rm (r.v d) (r.v a) (r.v b))
  | .vfma h k ty rm d a b => some (.vfma h k ty rm (r.v d) (r.v a) (r.v b))
  | .vfms h k ty rm d a b => some (.vfms h k ty rm (r.v d) (r.v a) (r.v b))
  | .vminFloat h k ty d a b => some (.vminFloat h k ty (r.v d) (r.v a) (r.v b))
  | .vmaxFloat h k ty d a b => some (.vmaxFloat h k ty (r.v d) (r.v a) (r.v b))
  | .vabsFloat h k ty d a => some (.vabsFloat h k ty (r.v d) (r.v a))
  | .vnegFloat h k ty d a => some (.vnegFloat h k ty (r.v d) (r.v a))
  | .vdiv h k ty rm d a b => some (.vdiv h k ty rm (r.v d) (r.v a) (r.v b))
  | .vsqrt h k ty rm d a => some (.vsqrt h k ty rm (r.v d) (r.v a))
  | .vcmp h m c ty d a b => some (.vcmp h m c ty d (r.v a) (r.v b))
  | .vsel h m ty d a b => some (.vsel h m ty (r.v d) (r.v a) (r.v b))
  | .mand h d a b => some (.mand h d a b)
  | .mor h d a b => some (.mor h d a b)
  | .mxor h d a b => some (.mxor h d a b)
  | .mnot h d a => some (.mnot h d a)
  | .vcvt h k dt sty rm sat d a => some (.vcvt h k dt sty rm sat (r.v d) (r.v a))
  | .vsplit3 h k d a => if (r.v d).val ≤ 29 then some (.vsplit3 h k (r.v d) (r.v a)) else none
  | .vperm h k ty d a b => some (.vperm h k ty (r.v d) (r.v a) (r.v b))
  | .vzip h k ty d a b hi => some (.vzip h k ty (r.v d) (r.v a) (r.v b) hi)
  | .vuzp h k ty d a b odd => some (.vuzp h k ty (r.v d) (r.v a) (r.v b) odd)
  | .vbcast h k ty d a => some (.vbcast h k ty (r.v d) a)
  | .vins h ty d a b => some (.vins h ty (r.v d) a b)
  | .vredAdd h m ty d a => some (.vredAdd h m ty (r.v d) (r.v a))
  | .vredMin h m ty d a => some (.vredMin h m ty (r.v d) (r.v a))
  | .vredMax h m ty d a => some (.vredMax h m ty (r.v d) (r.v a))
  | .vredAnd h m ty d a => some (.vredAnd h m ty (r.v d) (r.v a))
  | .vredOr h m ty d a => some (.vredOr h m ty (r.v d) (r.v a))
  | .vredXor h m ty d a => some (.vredXor h m ty (r.v d) (r.v a))
  | .vscanAdd h k ty d a => some (.vscanAdd h k ty (r.v d) (r.v a))
  | .vscanMin h k ty d a => some (.vscanMin h k ty (r.v d) (r.v a))
  | .vscanMax h k ty d a => some (.vscanMax h k ty (r.v d) (r.v a))
  | .vscanAnd h k ty d a => some (.vscanAnd h k ty (r.v d) (r.v a))
  | .vscanOr h k ty d a => some (.vscanOr h k ty (r.v d) (r.v a))
  | .vscanXor h k ty d a => some (.vscanXor h k ty (r.v d) (r.v a))
  | .vexp2 h k ty d a => some (.vexp2 h k ty (r.v d) (r.v a))
  | .vlog2 h k ty d a => some (.vlog2 h k ty (r.v d) (r.v a))
  | .vrcp h k ty d a => some (.vrcp h k ty (r.v d) (r.v a))
  | .vrsqrt h k ty d a => some (.vrsqrt h k ty (r.v d) (r.v a))
  | .vsinpi h k ty d a => some (.vsinpi h k ty (r.v d) (r.v a))
  | .vcospi h k ty d a => some (.vcospi h k ty (r.v d) (r.v a))
  | .vtanh h k ty d a => some (.vtanh h k ty (r.v d) (r.v a))
  | .vdot h k ty d a b => some (.vdot h k ty (r.v d) (r.v a) (r.v b))
  | .vkeyMort h k ty d a n => if (r.v a).val ≤ 29 then some (.vkeyMort h k ty (r.v d) (r.v a) n) else none
  | .vkeyHilb h k ty d a n => if (r.v a).val ≤ 29 then some (.vkeyHilb h k ty (r.v d) (r.v a) n) else none
  | .vclass h k ty d a => some (.vclass h k ty (r.v d) (r.v a))
  | .viota h k ty d => some (.viota h k ty (r.v d))
  | .vld h k ty d a i => some (.vld h k ty (r.v d) a i)
  | .vlds h k ty d a b i => some (.vlds h k ty (r.v d) a b i)
  | .vldsLiteral h k ty d a lit => some (.vldsLiteral h k ty (r.v d) a lit)
  | .vgat h k ty d a b sc => some (.vgat h k ty (r.v d) a (r.v b) sc)
  | .vldb h k ty d a i => some (.vldb h k ty (r.v d) a i)
  | .vst h m ty d a i => some (.vst h m ty (r.v d) a i)
  | .vsts h m ty d a b i => some (.vsts h m ty (r.v d) a b i)
  | .vstsLiteral h m ty d a lit => some (.vstsLiteral h m ty (r.v d) a lit)
  | .vsct h m ty d a b sc => some (.vsct h m ty (r.v d) a (r.v b) sc)
  | .tld h d a b rows rb => some (.tld h (r.t d) a b rows rb)
  | .tldLiteral h d a rows rb lit => some (.tldLiteral h (r.t d) a rows rb lit)
  | .tldT2 h d a b rows rb => some (.tldT2 h (r.t d) a b rows rb)
  | .tldT2Literal h d a rows rb lit => some (.tldT2Literal h (r.t d) a rows rb lit)
  | .tst h d a b rows rb => some (.tst h (r.t d) a b rows rb)
  | .tstLiteral h d a rows rb lit => some (.tstLiteral h (r.t d) a rows rb lit)
  | .tstT2 h d a b rows rb => some (.tstT2 h (r.t d) a b rows rb)
  | .tstT2Literal h d a rows rb lit => some (.tstT2Literal h (r.t d) a rows rb lit)
  | .tzero h d => some (.tzero h (r.t d))
  | .tmov h d a => some (.tmov h (r.t d) (r.t a))
  | .tr2v h d a row hi => some (.tr2v h (r.v d) (r.t a) row hi)
  | .v2tr h d a row hi => some (.v2tr h (r.t d) (r.v a) row hi)
  | .tdisc h list => some (.tdisc h list)
  | .wld h ty a => some (.wld h ty (r.t a))
  | .wldT2 h a => some (.wldT2 h (r.t a))
  | .wldT2Memory h a lit => some (.wldT2Memory h a lit)
  | .wldPip h a lit => some (.wldPip h a lit)
  | .wflip h => some (.wflip h)
  | .tmul h ty d a => some (.tmul h ty (r.a d) (r.t a))
  | .tmulT2i8 h d hi => (r.quad hi).map fun q => .tmulT2i8 h (r.a d) q
  | .tmulFlip h ty d a => some (.tmulFlip h ty (r.a d) (r.t a))
  | .tmulFlipT2i8 h d hi => (r.quad hi).map fun q => .tmulFlipT2i8 h (r.a d) q
  | .azero h d => some (.azero h (r.a d))
  | .aaddF32 h d a b => some (.aaddF32 h (r.a d) (r.a a) (r.a b))
  | .aaddI32 h d a b => some (.aaddI32 h (r.a d) (r.a a) (r.a b))
  | .ascale h d a b => some (.ascale h (r.a d) (r.a a) b)
  | .ald h ty d a b => some (.ald h ty (r.a d) a b)
  | .ast h ty clamp d a b => some (.ast h ty clamp (r.a d) a b)
  | .a2t h ty clamp d a => some (.a2t h ty clamp (r.t d) (r.a a))
  | i => some i

/-- Whether a word may stand in a body, by its format, major opcode and fn (R296). -/
def rollAllowed (w : Nat) : Bool :=
  let long := w % 4 == 3
  let op := bits w 2 6
  let fn := bits w 34 8
  if w % 2 = 0 then false
  else if long then [0x08, 0x0C, 0x14, 0x16].contains op
  else if op = 0x03 then fn != 0x24 && fn != 0x25
  else if op = 0x05 then fn != 0x04
  else if op = 0x15 then fn != 0x05
  else [0x01, 0x02, 0x04, 0x06, 0x07, 0x08, 0x0C, 0x0D, 0x14, 0x16, 0x17, 0x18].contains op

/-- Fetches `n` instructions from an address on, `o` bytes into the body: the address after the last, and their words by their
offsets (R296). -/
def rollFetch (key : Nat) : Nat → Nat → Word → State → Res (Word × List (Nat × Nat))
  | 0, _, pc, s => .ok (pc, []) s
  | n + 1, o, pc, s =>
    (fetchInstr key pc s).andThen fun (len, w) s =>
      (rollFetch key n (o + len) (pc + BitVec.ofNat 64 len) s).andThen fun (e, ws) s => .ok (e, (o, w) :: ws) s

/-- The next instruction of a strand: its length in bytes and its bits. Inside a roll it is a captured word of the body (R295);
after a return into a roll the body is captured again, each word where it is first reached. -/
def nextInstr (key : Nat) (s : State) : Res (Nat × Nat) :=
  let t := s.strand key
  if !t.rolling then fetchInstr key t.pc s
  else
    let o := fld t.rolli 47 8
    match t.body.find? fun e => e.1 == o with
    | some e => .ok (lengthOf (bits e.2 0 32), e.2) s
    | none =>
      (fetchInstr key t.pc s).andThen fun r s => .ok r (s.modStrand key fun t => { t with body := t.body ++ [(o, r.2)] })

/-- The guard of an instruction that does not accept every stepped field (R297). -/
def rollHdr : Instr → Option Hdr
  | .vsplit3 h _ _ _ | .vkeyMort h _ _ _ _ _ | .vkeyHilb h _ _ _ _ _ | .tmulT2i8 h _ _ | .tmulFlipT2i8 h _ _ => some h
  | _ => none

/-- An instruction whose stepped field it does not accept raises roll body, unless its guard is false (R33, R40, R297). -/
def rollRefused (i : Instr) (s : State) : Out :=
  let f (s : State) : Res Unit := raise 0x0C 0 (4 + 16 * fld s.me.rolli 55 4) s
  match rollHdr i with
  | some h => guarded h 8 s f
  | none => done 8 s (f s)

/-- The first body instruction that fails the check, with its index. -/
def rollBad : Nat → List Nat → Option Nat
  | _, [] => none
  | i, w :: ws => if rollAllowed w then rollBad (i + 1) ws else some i

/-- `roll` (R295 to R299). -/
def execRoll (h : Hdr) (a b : R32) (len : BitVec 4) (s : State) : Out :=
  if !s.guard h then done 8 s (.ok () s)
  else
    let n := (s.G a).toNat
    let c := s.G b
    let pc := s.me.pc
    conclude s <| (rollFetch s.cur (len.toNat + 1) 0 (pc + 8) s).andThen fun (e, ws) s =>
      if n ≥ 2 ^ 23 then raise 0x0C 0 1 s
      else if fld c 0 6 ≠ 0 ∨ (fld c 59 5 = fld c 35 5 ∧ fld c 59 5 ≠ 0) then raise 0x0C 0 2 s
      else
        match rollBad 0 (ws.map Prod.snd) with
        | some i => raise 0x0C 0 (3 + 16 * i) s
        | none =>
          .ok (if n = 0 then e else pc + 8) (s.modMe fun t =>
            { t with rollc := c, rolli := rolliWord (if n = 0 then 0 else 1) len.toNat 0 0 n 0, rolling := n != 0,
                     body := if n = 0 then [] else ws, inFlight := 0 })

end Sys2Proof.Machine
end

