-- ==== Sys2Proof/Machine/Copy.lean ====
section
/-!
DEFINITION. The copy engine (R194 to R215): channels and their binding, domino records, chunks and conversions, the
instructions `dcp`, `dcpw`, `dcps` and `dcpx`, and the engine's own steps.
-/
namespace Sys2Proof.Machine

/-! ## Channels -/

def cpAddr (c : Nat) : Nat := hubCP + 8 * c
/-- The key of a channel in a bank. -/
def chanKey (bank cluster ch : Nat) : Nat := bank * 2048 + cluster * 8 + ch
def State.chan (s : State) (k : Nat) : Chan := Tab.get Chan.reset s.chans k
def State.setChan (s : State) (k : Nat) (c : Chan) : State := { s with chans := Tab.set Chan.reset s.chans k c }
def State.modChan (s : State) (k : Nat) (f : Chan → Chan) : State := s.setChan k (f (s.chan k))
/-- The cluster of a channel key. -/
def chanCluster (k : Nat) : Nat := k % 2048 / 8

/-- Whether channel `ch` is bound to a strand (R195). -/
def State.chanBound (s : State) (key ch : Nat) : Bool :=
  let w := s.hubGet (cpAddr (clusterOf key))
  bit w (8 * ch + 7) && fld w (8 * ch) 3 == sidOf key % 8
/-- The channel of that number on a strand's cluster and bank. -/
def chanOf (key ch : Nat) : Nat := chanKey (bankOf key) (clusterOf key) ch
/-- The channels bound to a strand, in ascending number. -/
def State.boundChans (s : State) (key : Nat) : List Nat :=
  ((List.range 8).filter fun ch => s.chanBound key ch).map fun ch => chanOf key ch

/-- An idle channel (R194). -/
def Chan.idle (c : Chan) : Bool := c.queue.isEmpty && c.now.isNone

/-- DCIn or DCCn as a strand reads it: 0 where the channel is not bound to it (R196). -/
def State.readDci (s : State) (key ch : Nat) : Word := if s.chanBound key ch then (s.chan (chanOf key ch)).dci else 0
def State.readDcc (s : State) (key ch : Nat) : Word := if s.chanBound key ch then (s.chan (chanOf key ch)).dcc else 0

/-- The channel's next step. -/
def State.chanNext (s : State) (k : Nat) : Option Instr :=
  match (s.chan k).stop, (s.chan k).now with
  | some _, _ => none
  | none, some r => some (if r.snap.isSome then .copyChunk else .recordSnapshot)
  | none, none => if (s.chan k).queue.isEmpty then none else some .recordSnapshot
/-- The channel's next step is to come. -/
def State.chanLater (s : State) (k : Nat) : State :=
  match s.chanNext k with
  | some i => s.later i (.num k)
  | none => s

/-! ## Records -/

/-- The fields of a record (R198, R199), with its element types and counts. -/
structure Domino where
  ctl : Nat
  src : Nat
  dst : Nat
  cnt : Nat
  str1 : Nat
  str2 : Nat
  str3 : Nat
  next : Nat
deriving DecidableEq, Repr

def dominoOf (x : Nat) : Domino :=
  { ctl := elemN x 64 0, src := elemN x 64 1, dst := elemN x 64 2, cnt := elemN x 64 3, str1 := elemN x 64 4,
    str2 := elemN x 64 5, str3 := elemN x 64 6, next := elemN x 64 7 }

def Domino.own (r : Domino) : Bool := bits r.ctl 63 1 == 1
def Domino.acq (r : Domino) : Bool := bits r.ctl 62 1 == 1
def Domino.rel (r : Domino) : Bool := bits r.ctl 61 1 == 1
def Domino.flag (r : Domino) : Bool := bits r.ctl 60 1 == 1
def Domino.phys (r : Domino) : Bool := bits r.ctl 59 1 == 1
def Domino.scopeCode (r : Domino) : Nat := bits r.ctl 56 3
def Domino.sty (r : Domino) : Ty := tyOf (bits r.ctl 52 4)
def Domino.dty (r : Domino) : Ty := tyOf (bits r.ctl 48 4)
def Domino.conv (r : Domino) : Nat := bits r.ctl 44 4
def Domino.rm (r : Domino) : Nat := bits r.ctl 42 2
def Domino.sat (r : Domino) : Bool := bits r.ctl 41 1 == 1
def Domino.c0 (r : Domino) : Nat := bits r.cnt 0 24
def Domino.c1 (r : Domino) : Nat := bits r.cnt 24 16
def Domino.c2 (r : Domino) : Nat := bits r.cnt 40 12
def Domino.c3 (r : Domino) : Nat := bits r.cnt 52 12
/-- Signed strides of dimensions 1 to 3, source and destination; dimension 3 has none under FLAG (R202). -/
def Domino.strides (r : Domino) (dst : Bool) : List Int :=
  let h (x : Nat) : Int := sextN 32 (bits x (if dst then 32 else 0) 32)
  [h r.str1, h r.str2, if r.flag then 0 else h r.str3]
/-- E of R202. -/
def Domino.elements (r : Domino) : Nat := r.c0 * r.c1 * r.c2 * r.c3
/-- The wider element's size in bytes. -/
def Domino.wide (r : Domino) : Nat := max (r.sty.bits / 8) (r.dty.bits / 8)
/-- Elements of a chunk (R203). -/
def Domino.chunk (r : Domino) : Nat :=
  if r.conv ≤ 1 then 512 / r.wide else if r.conv ≤ 3 then 768 else 256

/-- The scope of a record. -/
def Domino.scope (r : Domino) : Scope := match scopeOf r.scopeCode with | .ok c => c | .error _ => .core

/-- Whether CONV, STY, DTY, RM, SAT and SCOPE are a combination that R199 and R205 give. -/
def Domino.legal (r : Domino) : Bool :=
  let st := bits r.ctl 52 4
  let dt := bits r.ctl 48 4
  let conv := match r.conv with
    | 0 => st == dt
    | 1 => decide (4 ≤ st) && decide (4 ≤ dt)
    | 2 => st == 0 && (dt == 13 || dt == 12)
    | 3 => (st == 13 || st == 12) && dt == 0
    | 4 => st == 0 && dt == 13
    | 5 => st == 13 && dt == 0
    | _ => false
  conv && (!r.sat || (r.conv == 1 && !r.dty.isAnyFloat)) && (r.rm == 0 || r.conv == 1 || r.conv == 3)
    && decide (r.scopeCode ≤ 5) && (r.acq || r.rel || r.scopeCode == 0)

/-- What the base and the strides of a side must be multiples of (R202); an L6 side asks for nothing. -/
def Domino.unit (r : Domino) (dst : Bool) : Nat :=
  match r.conv, dst with
  | 2, false => 1
  | 3, true => 1
  | 4, false => 64
  | 5, true => 64
  | _, false => r.sty.bits / 8
  | _, true => r.dty.bits / 8

/-- Whether a side is aligned (R202). -/
def Domino.aligned (r : Domino) (dst : Bool) : Bool :=
  let u := r.unit dst
  (if dst then r.dst else r.src) % u == 0 && (r.strides dst).all fun x => x % (u : Int) == 0

/-- The checks of a snapshot, codes 0x10 to 0x16 (R201, R209); a record that is not owned is not looked at further
(log 14). Of several codes that apply, the least is reported: the manual does not say which (log 14). -/
def Domino.check (r : Domino) (sup : Bool) : Option Nat :=
  if !r.own then some 0x16
  else if bits r.ctl 6 35 ≠ 0 ∨ bits r.src 55 9 ≠ 0 ∨ bits r.dst 55 9 ≠ 0 ∨ (r.flag ∧ bits r.str3 55 9 ≠ 0) ∨ bits r.next 55 9 ≠ 0
      ∨ bits r.next 0 6 ≠ 0 then some 0x10
  else if !r.legal then some 0x11
  else if (r.conv = 3 ∧ r.c0 % 24 ≠ 0) ∨ (4 ≤ r.conv ∧ r.c0 % 64 ≠ 0) then some 0x12
  else if !r.aligned false || !r.aligned true || (r.flag && r.str3 % 8 != 0) then some 0x13
  else if r.flag ∧ r.c3 ≠ 1 then some 0x14
  else if r.phys && !sup then some 0x15
  else none

/-! ## Accesses of the engine -/

/-- The translator of a transfer (R209, R112). -/
def Xfer.who (x : Xfer) : Who :=
  { key := x.key, part := some x.part, sup := x.sup, ptbase := x.ptbase, asn := x.asn, keys := x.keys,
    req := 0xC00 + clusterOf x.key, mark := 0, abortMark := 0, unit := .die }

/-- One part of a chunk's bytes checked and marked; PHYS names local physical addresses under KeyID 0 (R199). -/
def copyPiece (x : Xfer) (phys : Bool) (k : Kind) (va n : Nat) (s : State) : Except (Bad × State) (Piece × State) :=
  if phys then
    match s.present (some x.part) va 0 k.writes with
    | .error (c, a) => .error (.abort c a 0, s)
    | .ok t => .ok (physPiece va n t, s)
  else s.pieceAD x.who k Align.any va n k.writes

/-- The pieces of one range. -/
def copyPieces (x : Xfer) (phys : Bool) (k : Kind) : List (Nat × Nat) → State → Except (Bad × Nat × State) (List Piece × State)
  | [], s => .ok ([], s)
  | (va, n) :: rest, s =>
    match copyPiece x phys k va n s with
    | .error (b, s) => .error (b, va, s)
    | .ok (p, s) =>
      match copyPieces x phys k rest s with
      | .error e => .error e
      | .ok (ps, s) => .ok (p :: ps, s)

/-- A bad access of a record: the state with the error response logged (R208), the status of R209 for a read or a write,
or that a bell holds the access. -/
def copyBad (x : Xfer) (write : Bool) (b : Bad) (s : State) : Option Nat × State :=
  match b with
  | .held u => (none, u)
  | .abort c a key => (some (if write then 0x26 else 0x25), (s.logError c a key x.part (0xC00 + clusterOf x.key)).2)
  | .fault c _ _ =>
    let code := if c = 0x09 then 0x24 else if c = 0x06 ∨ c = 0x07 then 0x22 else 0x20
    (some (if write ∧ code ≠ 0x24 then code + 1 else code), s)

/-- Reads a list of ranges at the cluster place (R160, R203): the values, or the first bad address with its status. The
whole list has been checked before. -/
def copyReadPieces (x : Xfer) : List Piece → State → Except (Option Nat × Nat × State) (Nat × State)
  | [], s => .ok (0, s)
  | p :: ps, s =>
    match s.readByEngine (clusterOf x.key) p (s.tagOf x.key) with
    | .error m =>
      let (c, s) := copyBad x false (m.bad p.key) s
      .error (c, p.va, s)
    | .ok (v, s) =>
      match copyReadPieces x ps s with
      | .error e => .error e
      | .ok (w, s) => .ok (v + 2 ^ (8 * p.n) * w, s)

/-- The failure of a piece. -/
def copyMiss (x : Xfer) (write : Bool) (p : Piece) (m : Miss) (s : State) : Option Nat × Nat × State :=
  let (c, s) := copyBad x write (m.bad p.key) s
  (c, p.va, s)

/-- A place made ready for every piece of a write, so that a failing chunk writes nothing (R208). -/
def copyReady (x : Xfer) (lv : Level) : List Piece → State → Except (Option Nat × Nat × State) State
  | [], s => .ok s
  | p :: ps, s =>
    match s.readyByEngine (clusterOf x.key) lv p (s.tagOf x.key) with
    | .error m => .error (copyMiss x true p m s)
    | .ok s => copyReady x lv ps s

/-- Writes pieces at a place. -/
def copyWritePieces (x : Xfer) (lv : Level) : List Piece → Nat → State → Except (Option Nat × Nat × State) State
  | [], _, s => .ok s
  | p :: ps, v, s =>
    match s.storeByEngine (clusterOf x.key) lv p v (s.tagOf x.key) with
    | .error m => .error (copyMiss x true p m s)
    | .ok s => copyWritePieces x lv ps (v / 2 ^ (8 * p.n)) s

/-- A whole range read, as the engine reads records and checks them. -/
def copyRead (x : Xfer) (phys : Bool) (va n : Nat) (s : State) : Except (Option Nat × Nat × State) (Nat × State) :=
  match copyPieces x phys .load (rangeParts (BitVec.ofNat 64 va) n) s with
  | .error (b, a, s) =>
    let (c, s) := copyBad x false b s
    .error (c, a, s)
  | .ok (ps, s) => copyReadPieces x ps s

/-- A whole range written at a place. -/
def copyWrite (x : Xfer) (phys : Bool) (lv : Level) (va n v : Nat) (s : State) : Except (Option Nat × Nat × State) State :=
  match copyPieces x phys .store (rangeParts (BitVec.ofNat 64 va) n) s with
  | .error (b, a, s) =>
    let (c, s) := copyBad x true b s
    .error (c, a, s)
  | .ok (ps, s) =>
    match copyReady x lv ps s with
    | .error e => .error e
    | .ok s => copyWritePieces x lv ps v s

/-! ## Elements (R202 to R205) -/

/-- The run bases and i0 of element `k`: source base, destination base, i0 (R202). -/
def Domino.place (r : Domino) (k : Nat) : Nat × Nat × Nat :=
  let i0 := k % r.c0
  let i1 := k / r.c0 % r.c1
  let i2 := k / (r.c0 * r.c1) % r.c2
  let i3 := k / (r.c0 * r.c1 * r.c2)
  let base (b : Nat) (st : List Int) : Nat :=
    wrapN 64 ((b : Int) + i1 * st.getD 0 0 + i2 * st.getD 1 0 + i3 * st.getD 2 0)
  (base r.src (r.strides false), base r.dst (r.strides true), i0)

/-- The range that element `k` reads, as (address, bytes): a packed block is read once, at its first element in the
chunk. -/
def Domino.readsAt (r : Domino) (k : Nat) : Nat × Nat :=
  let (sb, _, i0) := r.place k
  match r.conv with
  | 2 => ((sb + 19 * (i0 / 24)) % 2 ^ 64, 19)
  | 4 => ((sb + 64 * (i0 / 64)) % 2 ^ 64, 64)
  | _ => let es := r.sty.bits / 8; ((sb + i0 * es) % 2 ^ 64, es)

/-- The range that element `k` writes; a packed block is written with its last element. -/
def Domino.writesAt (r : Domino) (k : Nat) : Nat × Nat :=
  let (_, db, i0) := r.place k
  match r.conv with
  | 3 => ((db + 19 * (i0 / 24)) % 2 ^ 64, 19)
  | 5 => ((db + 64 * (i0 / 64)) % 2 ^ 64, 64)
  | _ => let ed := r.dty.bits / 8; ((db + i0 * ed) % 2 ^ 64, ed)

/-- The distinct ranges of a list, each at its first place. -/
def dedupRanges (l : List (Nat × Nat)) : List (Nat × Nat) :=
  (l.foldl (fun acc x => match acc with | y :: _ => if x = y then acc else x :: acc | [] => [x]) []).reverse

/-- All pieces of a list of ranges, checked (R203). -/
def copyCheck (x : Xfer) (phys : Bool) (k : Kind) : List (Nat × Nat) → State →
    Except (Bad × Nat × State) (List (List Piece) × State)
  | [], s => .ok ([], s)
  | (va, n) :: rest, s =>
    match copyPieces x phys k (rangeParts (BitVec.ofNat 64 va) n) s with
    | .error e => .error e
    | .ok (ps, s) =>
      match copyCheck x phys k rest s with
      | .error e => .error e
      | .ok (pss, s) => .ok (ps :: pss, s)

/-- Reads the ranges of a chunk. -/
def copyReadAll (x : Xfer) : List (List Piece) → State → Except (Option Nat × Nat × State) (List Nat × State)
  | [], s => .ok ([], s)
  | ps :: rest, s =>
    match copyReadPieces x ps s with
    | .error e => .error e
    | .ok (v, s) =>
      match copyReadAll x rest s with
      | .error e => .error e
      | .ok (vs, s) => .ok (v :: vs, s)

/-- The writes of a range's pieces as rows. -/
def copyRows (s : State) : List Piece → Nat → List DrainRow
  | [], _ => []
  | p :: ps, v =>
    { va := p.va, pa := s.global p.t.addr, n := p.n, key := p.key, attr := p.attr, data := v % 2 ^ (8 * p.n) } ::
      copyRows s ps (v / 2 ^ (8 * p.n))

/-- The writes of a chunk, in order: a later element wins (R204). -/
def copyRowsAll (s : State) : List (List Piece) → List Nat → List DrainRow
  | ps :: rest, v :: vs => copyRows s ps v ++ copyRowsAll s rest vs
  | _, _ => []

/-- One write of a chunk, whose pieces have been checked and whose sources have been read. What has been reconfigured beneath it since
is lost as a write-back is (R113). -/
def copyPut (x : Xfer) (r : DrainRow) (s : State) : Try :=
  match s.present (some x.part) r.pa r.key true with
  | .error (c, a) =>
    .ok ((s.logError c a r.key x.part (0xC00 + clusterOf x.key)).2.raiseCheck (writeBackEvent (8 * didOf x.key + 1) 0 x.part r.key a))
  | .ok t =>
    let p : Piece := { va := r.va, n := r.n, t := t, key := r.key, attr := r.attr }
    match s.readyByEngine (clusterOf x.key) .cluster p (s.tagOf x.key) with
    | .error (.err _ _) => s.drainHome (didOf x.key) p r.data
    | .error (.held u) => .error u
    | .ok s =>
      match s.storeByEngine (clusterOf x.key) .cluster p r.data (s.tagOf x.key) with
      | .error (.err _ _) => s.drainHome (didOf x.key) p r.data
      | .error (.held u) => .error u
      | .ok s => .ok s

/-- The elements of a chunk from the ranges read (R205): the source elements, or the status of what is malformed. -/
def Domino.gather (r : Domino) (ks : List Nat) (ranges : List (Nat × Nat)) (vals : List Nat) : Except (Nat × Nat) (List Nat) :=
  let at' (k : Nat) : Nat × Nat := (((ranges.zip vals).find? fun p => p.1 == r.readsAt k).getD ((0, 0), 0)).2 |> fun v => (v, (r.place k).2.2)
  match r.conv with
  | 2 => .ok (ks.map fun k => let (v, i0) := at' k; (l6Decode v).getD (i0 % 24) 0)
  | 4 =>
    match (ranges.zip vals).find? fun p => (pipDecode p.2).isNone with
    | some p => .error (0x28, p.1.1)
    | none => .ok (ks.map fun k => let (v, i0) := at' k; ((pipDecode v).getD []).getD (i0 % 64) 0)
  | _ => .ok (ks.map fun k => (at' k).1)

/-- One element converted for an unpacked destination (R205). -/
def Domino.convElem (r : Domino) (x : Nat) : Nat :=
  match r.conv with
  | 0 => x
  | 1 => convertElem r.sty r.dty (rmOf r.rm) r.sat x
  | 2 => if r.dty = .f32 then x * 2 ^ 16 else x
  | _ => x

/-- The values written to the destination ranges of a chunk (R205); or the status of a pip line with more than 28
stored elements, with its address. -/
def Domino.scatter (r : Domino) (ks xs : List Nat) : Except (Nat × Nat) (List (Nat × Nat) × List Nat) :=
  match r.conv with
  | 3 =>
    let bf := xs.map fun x => if r.sty = .f32 then fconv .f32 .bf16 .rne x else x
    let ranges := (List.range (ks.length / 24)).map fun i => r.writesAt (ks.getD (24 * i) 0)
    .ok (ranges, (List.range ranges.length).map fun i => l6Encode ((bf.drop (24 * i)).take 24))
  | 5 =>
    let ranges := (List.range (ks.length / 64)).map fun i => r.writesAt (ks.getD (64 * i) 0)
    let blocks := (List.range ranges.length).map fun i => pipEncode ((xs.drop (64 * i)).take 64)
    match (ranges.zip blocks).find? fun p => p.2.isNone with
    | some p => .error (0x27, p.1.1)
    | none => .ok (ranges, blocks.map fun b => b.getD 0)
  | _ => .ok (ks.map r.writesAt, xs.map r.convElem)

/-! ## Running a record -/

/-- How a piece of the engine's work ends: done, held by a bell or by a home, with the state in which it waits, or a record error with its failing address;
or held among its writes, with those that are left. -/
inductive CopyEnd where
  | done (s : State)
  | held (s : State)
  | writing (rows : List DrainRow) (s : State)
  | failed (code addr : Nat) (s : State)

/-- The writes of a chunk that are still to be performed. -/
def copyWrites (x : Xfer) (rows : List DrainRow) (s : State) : CopyEnd :=
  match drainEach (copyPut x) [] rows s with
  | ([], s) => .done s
  | (left, s) => .writing left s

def copyFail (e : Option Nat × Nat × State) : CopyEnd :=
  match e.1 with
  | none => .held e.2.2
  | some c => .failed c e.2.1 e.2.2

/-- One chunk (R203): every byte checked, all source bytes read, then the destination bytes written; where writes must wait, those
that are left are performed later, and nothing is read again (R204). Where several bytes fail,
the source's failure is reported before the destination's, and of one side the first in element order: the manual does not
say which (log 112). -/
def copyChunk (c : CopyRec) (r : Domino) (s : State) : CopyEnd :=
  let ks := (List.range (min r.chunk (r.elements - c.done))).map fun i => c.done + i
  let x := c.xfer
  let reads := dedupRanges (ks.map r.readsAt)
  let writes := dedupRanges (ks.map r.writesAt)
  let fail (write : Bool) (e : Bad × Nat × State) : CopyEnd :=
    let (code, s) := copyBad x write e.1 e.2.2
    copyFail (code, e.2.1, s)
  match copyCheck x r.phys .load reads s with
  | .error e => fail false e
  | .ok (rp, s) =>
    match copyCheck x r.phys .store writes s with
    | .error e => fail true e
    | .ok (_, s) =>
      match copyReadAll x rp s with
      | .error e => copyFail e
      | .ok (vals, s) =>
        match r.gather ks reads vals with
        | .error (c, a) => .failed c a s
        | .ok xs =>
          match r.scatter ks xs with
          | .error (c, a) => .failed c a s
          | .ok (ranges, vs) =>
            match copyCheck x r.phys .store ranges s with
            | .error e => fail true e
            | .ok (wp, s) =>
              match copyReady x .cluster wp.flatten s with
              | .error e => copyFail e
              | .ok s => copyWrites x (copyRowsAll s wp vs) s

/-- CTL rewritten with OWN = 0 and a status (R207, R208). -/
def copyStatus (c : CopyRec) (ctl status : Nat) (s : State) : Except (Option Nat × Nat × State) State :=
  copyWrite c.xfer false .cluster c.addr 8 (ctl % 2 ^ 63 / 64 * 64 + status) s

/-- The credits of a large copy go back (R210). -/
def State.chanCredits (s : State) (k : Nat) (c : CopyRec) : State :=
  if c.leave then s.returnLeave (chanCluster k) 4 else s.dropLeave (.channel k) (chanCluster k) 4

/-- A record error stops the channel (R208). A status write that a bell or its home holds is owed. -/
def State.copyStop (s : State) (k : Nat) (c : CopyRec) (r : Option Domino) (code addr : Nat) : State :=
  let s :=
    match r with
    | none => s
    | some r =>
      match copyStatus c r.ctl code s with
      | .ok s => s
      | .error (none, _, s) => { s with owed := s.owed ++ [(c, r.ctl, code)] }
      | .error (some _, _, s) => s
  (s.modChan k fun ch => { ch with now := none, stop := some { cause := code, addr := addr, recAddr := c.addr } }).chanCredits k c

/-- The status words that are owed are written, as far as they can be. -/
def State.payOwed (s : State) : State :=
  s.owed.foldl (fun s x =>
    match copyStatus x.1 x.2.1 x.2.2 s with
    | .ok s => s
    | .error (none, _, s) => { s with owed := s.owed ++ [x] }
    | .error (some _, _, s) => s) { s with owed := [] }

/-- Step 1 of a record's completion (R207): with REL, its writes are released to the place of its scope; the dirty words of the
strand's core are not carried. -/
def copyRelease (c : CopyRec) (r : Domino) (s : State) : Res Unit :=
  if r.rel && levelOf r.scope == .home then
    let cl := coreOf c.xfer.key / 4
    let s := s.flushCluster cl
    if !(s.clusterCache cl).anyDirty && s.acks.isEmpty then .ok () s else .wait s
  else .ok () s

/-- The place of the completion flag (R207, R160): the home for a release write of a scope that names it, else the cluster. -/
def Domino.flagLevel (r : Domino) : Level := if r.rel && levelOf r.scope == .home then .home else .cluster

/-- The end of a record after its last chunk (R207), each step performed before the next. -/
def copyFinish (k : Nat) (c : CopyRec) (r : Domino) (s : State) : CopyEnd :=
  let x := c.xfer
  match (if c.flagged then .ok () s else copyRelease c r s) with
  | .wait s => .held s
  | .trap _ s => .held s
  | .ok _ s =>
    let flagged : Except (Option Nat × Nat × State) State :=
      if r.flag && !c.flagged then copyWrite x r.phys r.flagLevel r.str3 8 x.id s else .ok s
    match flagged with
    | .error (none, _, s) => .held s
    | .error (some _, a, s) => .failed 0x29 a s
    | .ok s =>
      let s := s.modChan k fun ch => { ch with now := some { c with flagged := true } }
      if r.flag && r.flagLevel == .home && !s.acks.isEmpty then .held s
      else
        match copyStatus c r.ctl 1 s with
        | .error (none, _, s) => .held s
        | .error (some _, _, s) => .failed 0x2A c.addr s
        | .ok s =>
          let s := s.chanCredits k c
          .done (s.modChan k fun ch =>
            if r.next = 0 then { ch with now := none, dcc := BitVec.ofNat 64 x.id }
            else { ch with now := some { addr := r.next, snap := none, done := 0, leave := false, xfer := x } })

/-- Whether a channel may work: its bank is active, no fatal event has stopped the module, it is not stopped, and its
strand's state has not been taken away. -/
def State.chanRuns (s : State) (k : Nat) : Bool :=
  !s.fatal && s.bankOn (chanCluster k) == some (k / 2048) && (s.chan k).stop.isNone

/-- The acquire of a record, at the cluster, before its first source read (R191); it waits for a full flush (R156). -/
def copyAcquire (r : Domino) (core : Nat) (s : State) : Res Unit :=
  if r.acq && levelOf r.scope == .home then
    if (s.clusterCache (core / 4)).stamp = 255 then
      let s := s.flushCores (mateCores core, true)
      if (mateCores core).all (fun k => !(s.coreCache k).anyDirty) && s.released core .home then .ok () (s.bumpCluster core) else .wait s
    else .ok () (s.bumpCluster core)
  else .ok () s

/-- A step of a channel that is held takes place again after the bell, or once its home answers. -/
def State.chanWaits (s : State) (i : Instr) (k : Nat) : State := s.defer i (.num k)

/-- RECORD_SNAPSHOT: the engine takes the snapshot of the next record of a channel (R200, R201, R208). -/
def State.snapshot (s : State) (k : Nat) : State :=
  if !s.chanRuns k then s
  else
    let ch := s.chan k
    let cur : Option (CopyRec × Chan) :=
      match ch.now, ch.queue with
      | some c, _ => if c.snap.isNone then some (c, ch) else none
      | none, x :: rest => some ({ addr := x.head, snap := none, done := 0, leave := false, xfer := x }, { ch with queue := rest })
      | none, [] => none
    match cur with
    | none => s
    | some (c, ch) =>
      match copyRead c.xfer false c.addr 64 s with
      | .error (none, _, s) => s.chanWaits .recordSnapshot k
      | .error (some _, _, s) => (s.setChan k ch).copyStop k c none 0x2A c.addr
      | .ok (x, s) =>
        let r := dominoOf x
        let s := s.setChan k { ch with now := some { c with snap := some (BitVec.ofNat 512 x) } }
        match r.check c.xfer.sup with
        | some 0x16 => s.copyStop k c none 0x16 c.addr
        | some code => s.copyStop k c (some r) code c.addr
        | none => s.chanLater k

/-- COPY_CHUNK: the next chunk of a record in progress, or its end (R203, R207, R210). -/
def State.runChunk (s : State) (k : Nat) : State :=
  if !s.chanRuns k then s
  else
    match (s.chan k).now with
    | none => s
    | some c =>
      match c.snap with
      | none => s
      | some x =>
        let r := dominoOf x.toNat
        let ended (e : CopyEnd) (c : CopyRec) : State :=
          match e with
          | .held s' | .writing _ s' => s'.chanWaits .copyChunk k
          | .failed code a s' => s'.copyStop k c (if code = 0x2A then none else some r) code a
          | .done s' => s'.chanLater k
        let chunkEnd (c : CopyRec) (e : CopyEnd) : State :=
          match e with
          | .held u => u.chanWaits .copyChunk k
          | .writing rows u => (u.modChan k fun ch => { ch with now := some { c with writes := some rows } }).chanWaits .copyChunk k
          | .failed code a s' => s'.copyStop k c (some r) code a
          | .done s' =>
            let c := { c with done := min (c.done + r.chunk) r.elements, writes := none }
            (s'.modChan k fun ch => { ch with now := some c }).chanLater k
        if s.flushHolds none (coreOf c.xfer.key) true then s.defer .copyChunk (.num k)
        else
        let s := if (s.asideOf c.xfer.key).isEmpty then s else s.drainAside
        if !(s.asideOf c.xfer.key).isEmpty then s.chanWaits .copyChunk k
        else if let some rows := c.writes then chunkEnd c (copyWrites c.xfer rows s)
        else if r.elements ≤ c.done then ended (copyFinish k c r s) c
        else if !s.drainAdmits 80 then s.refuseOp (.channel k) (chanCluster k)
        else
          let large := decide (r.elements * r.wide > 256 * 1024) && !c.leave
          let (got, s1) := if large then s.askLeave (.channel k) (chanCluster k) 4 else (true, s)
          if !got then s1
          else
            let c := { c with leave := c.leave || large }
            let s1 := s1.modChan k fun ch => { ch with now := some c }
            match (if c.acquired then .ok () s1 else copyAcquire r (coreOf c.xfer.key) s1) with
            | .wait u => u.chanWaits .copyChunk k
            | .trap _ u => u
            | .ok _ s1 =>
              let c := { c with acquired := true }
              let s1 := s1.modChan k fun ch => { ch with now := some c }
              chunkEnd c (copyChunk c r s1)

/-- The writes of the chunk that a channel has in hand are set aside, and go on as draining stores of its strand do (log 105); the
channel stands at the chunk's end (R211, R215). -/
def State.parkWrites (s : State) (k : Nat) : State :=
  match (s.chan k).now with
  | none => s
  | some c =>
    match c.writes, c.snap with
    | some rows, some x =>
      let r := dominoOf x.toNat
      let s := s.modChan k fun ch => { ch with now := some { c with done := min (c.done + r.chunk) r.elements, writes := none } }
      { s with aside := s.aside ++ [(c.xfer.key, s.tagOf c.xfer.key, { acc := false, phys := 0, rows := rows })] }
    | _, _ => s

/-- Cancels everything on a channel (R215), at the chunk's end: done, or the state in which a write waits. -/
def State.chanCancel (s : State) (k : Nat) : Try :=
  let ch := s.chan k
  let clear (s : State) : State := s.modChan k fun ch => { ch with queue := [], now := none, stop := none, dcc := ch.dci }
  match ch.now with
  | none => .ok (clear s)
  | some c =>
    let (left, s) := match c.writes with | some rows => drainEach (copyPut c.xfer) [] rows s | none => ([], s)
    if !left.isEmpty then .error (s.modChan k fun ch => { ch with now := some { c with writes := some left } })
    else
    match c.snap with
    | none => .ok (clear (s.chanCredits k c))
    | some x =>
      match copyStatus c (bits x.toNat 0 64) 0x30 s with
      | .ok s => .ok (clear (s.chanCredits k c))
      | .error (none, _, s) => .error s
      | .error (some _, _, s) => .ok (clear (s.chanCredits k c))

/-- Cancels a channel of a task that dies (R197): a status write that is held is owed, and the channel is idle at once. -/
def State.chanKill (s0 : State) (k : Nat) : State :=
  let s := s0.parkWrites k
  match s.chanCancel k with
  | .ok s => s
  | .error s =>
    match (s.chan k).now with
    | none => s
    | some c =>
      let s := { s with owed := s.owed ++ [(c, bits ((c.snap.map BitVec.toNat).getD 0) 0 64, 0x30)] }
      (s.modChan k fun ch => { ch with queue := [], now := none, stop := none, dcc := ch.dci }).chanCredits k c

/-! ## Instructions -/

/-- The trap of a copy instruction (R212). -/
def copyTrap {α : Type} (ch sub : Nat) (s : State) : Res α := raise 0x0D 0 (ch * 2 ^ 8 + sub) s

/-- `dcp` with the head at an address (R212). -/
def dcpAt (d : R32) (ch : R8) (head : Word) (s : State) : Res Unit :=
  let k := chanOf s.cur ch.val
  let c := s.chan k
  if !s.chanBound s.cur ch.val then copyTrap ch.val 0x38 s
  else if c.stop.isSome then copyTrap ch.val 0x39 s
  else if fld head 55 9 ≠ 0 then raise 0x04 head 1 s
  else if fld head 0 6 ≠ 0 then raise 0x07 head 6 s
  else
    let s := (s.drainAll s.cur).flushCore (coreOf s.cur)
    if 16 ≤ c.queue.length ∨ !s.me.drains.isEmpty ∨ (s.coreCache (coreOf s.cur)).anyDirty then .wait s
    else
      let id := c.dci + 1
      let t := s.me
      let x : Xfer := { head := head.toNat, id := id.toNat, key := s.cur, part := (s.partOf s.cur).getD 0, sup := t.sup,
                        ptbase := t.ptbase, asn := fld t.asn 0 16, keys := t.keys }
      let idle := c.idle
      let s := s.setChan k { c with dci := id, queue := c.queue ++ [x] }
      .ok () ((if idle then s.chanLater k else s).setG d id)

/-- `dcp` (R212). -/
def execDcp (h : Hdr) (d a : R32) (ch : R8) (s : State) : Out := guarded h 8 s fun s => dcpAt d ch (s.G a) s
/-- `dcp` with a literal offset (R212). -/
def execDcpLiteral (h : Hdr) (d a : R32) (ch : R8) (lit : BitVec 32) (s : State) : Out :=
  guarded h 12 s fun s => dcpAt d ch (s.G a + lit64 lit) s

/-- `dcpw` (R213). -/
def execDcpw (h : Hdr) (a : R32) (ch : R8) (s : State) : Out :=
  guarded h 8 s fun s =>
    let c := s.chan (chanOf s.cur ch.val)
    let t := s.G a
    if !s.chanBound s.cur ch.val then copyTrap ch.val 0x38 s
    else if c.dci.ult t then copyTrap ch.val 0x3A s
    else if t.ule c.dcc then acquire .clu s
    else
      match c.stop with
      | some st => raise 0x0D (BitVec.ofNat 64 st.addr) (fld (c.dcc + 1) 0 32 * 2 ^ 32 + ch.val * 2 ^ 8 + st.cause) s
      | none => .wait s

/-- The status word of a channel (R214). -/
def Chan.status (c : Chan) : Word :=
  let stop := match c.stop with | some st => 2 ^ 62 + st.cause * 2 ^ 56 + st.recAddr / 64 % 2 ^ 49 * 64 | none => 0
  let busy := match c.now with | some r => 2 ^ 63 + r.addr / 64 % 2 ^ 49 * 64 | none => 0
  BitVec.ofNat 64 (busy + stop + c.queue.length)

/-- `dcps` (R214). -/
def execDcps (h : Hdr) (d : R32) (ch : R8) (s : State) : Out :=
  guarded h 8 s fun s =>
    if !s.chanBound s.cur ch.val then copyTrap ch.val 0x38 s
    else .ok () (s.setG d (s.chan (chanOf s.cur ch.val)).status)

/-- `dcpx` (R215). -/
def execDcpx (h : Hdr) (ch : R8) (s : State) : Out :=
  guarded h 8 s fun s =>
    if !s.chanBound s.cur ch.val then copyTrap ch.val 0x38 s
    else
      match s.chanCancel (chanOf s.cur ch.val) with
      | .ok s => .ok () s
      | .error u => .wait u

/-! ## Steps of the engine -/

/-- RECORD_SNAPSHOT (R200): the input names the channel. -/
def execRecordSnapshot (s : State) : Out := .next (match s.input with | .num k => s.snapshot k | _ => s)

/-- COPY_CHUNK (R203): the input names the channel. -/
def execCopyChunk (s : State) : Out := .next (match s.input with | .num k => s.runChunk k | _ => s)

/-- A write of CPBIND (R195): the field of a channel that is not idle, in either bank, keeps its value; reserved bits
read zero. -/
def State.writeCpbind (s : State) (a : Nat) (v : Word) : State :=
  if hubCP ≤ a ∧ a < hubCP + 2048 ∧ a % 8 = 0 then
    let c := (a - hubCP) / 8
    (List.range 8).foldl (fun s ch =>
      if (s.chan (chanKey 0 c ch)).idle && (s.chan (chanKey 1 c ch)).idle then
        s.hubSetFld a (8 * ch) 8 (fld (v &&& 0x8787878787878787) (8 * ch) 8)
      else s) s
  else s

/-- CPBIND_WRITE (R195): an address and a value. -/
def execCpbindWrite (s : State) : Out := .next (match s.input with | .word a v => s.writeCpbind a v | _ => s)

end Sys2Proof.Machine
end

