-- ==== Sys2Proof/Machine/Save.lean ====
section
/-!
DEFINITION. A strand's context in memory: the save slot (R379 to R381), its restoring (R382), and the physical accesses
they are made of.
-/
namespace Sys2Proof.Machine

/-! ## Physical accesses of the hub -/

/-- What a physical address names for the hub's own accesses: storage of the module's tiers in an enabled region, under a
programmed key, in the order of R111, or another member's. The cause and the failing address otherwise. -/
def State.presentPhys (s : State) (pa key : Nat) : Except (Nat × Nat) Target :=
  let a := pa % 2 ^ 48
  if pa / 2 ^ 51 ≠ 0 ∨ !populated a then .error (1, pa)
  else if !s.memberValid (bits pa 48 3) then .error (3, pa)
  else if inHub a then .error (2, pa)
  else if !inTier a then .error (10, pa)
  else if bits pa 48 3 ≠ s.selfIdx then (if s.keyOk key then .ok (.far pa) else .error (4, pa))
  else if (s.regionOf a).isNone then .error (1, pa)
  else if !s.keyOk key then .error (4, pa)
  else if s.dieInReset (s.homeDie a) then .error (9, pa)
  else .ok (.mem a)

/-- Reads physical bytes at the home place (R382), or answers the failing cause and address. -/
def State.physReadParts (s : State) (key : Nat) : List (Nat × Nat) → Except (Nat × Nat) Nat
  | [] => .ok 0
  | (a, n) :: rest =>
    match s.presentPhys a key with
    | .error e => .error e
    | .ok t =>
      match s.readTarget key t n with
      | .error e => .error e
      | .ok x =>
        match s.physReadParts key rest with
        | .error e => .error e
        | .ok y => .ok (x + 2 ^ (8 * n) * y)
def State.physRead (s : State) (key a n : Nat) : Except (Nat × Nat) Nat := s.physReadParts key (parts a n)

/-- Why an access of the hub to physical bytes waits: a bell, or the home of one of its parts. -/
def State.physWaits (s : State) (key : Nat) (ps : List (Nat × Nat)) : Option State :=
  if s.bellIn then some s
  else
    ps.findSome? fun p =>
      match s.presentPhys p.1 key with
      | .error _ => none
      | .ok t => s.readWaits key t p.2

/-- An error response to the hub, logged for a partition (R112): a trap that carries the failing address. -/
def physFail {α : Type} (part key : Nat) (e : Nat × Nat) (s : State) : Res α :=
  .trap { cause := e.1, addr := BitVec.ofNat 64 e.2, info := 0 } (s.logError e.1 e.2 key part 0).2

/-- A read of physical bytes by the hub. -/
def physGet (part key a n : Nat) (s : State) : Res Nat :=
  match s.physWaits key (parts a n) with
  | some u => .wait u
  | none =>
    match s.physRead key a n with
    | .error e => physFail part key e s
    | .ok x => .ok x s

/-- Writes physical bytes at the home place. -/
def physWriteParts (part key : Nat) : List (Nat × Nat) → Nat → State → Res Unit
  | [], _, s => .ok () s
  | (a, n) :: rest, x, s =>
    match s.presentPhys a key with
    | .error e => physFail part key e s
    | .ok t => physWriteParts part key rest (x / 2 ^ (8 * n)) (s.homeWrite none key t 128 n (2 ^ n - 1) (x % 2 ^ (8 * n)))
def physPut (part key a n x : Nat) (s : State) : Res Unit :=
  match s.physWaits key (parts a n) with
  | some u => .wait u
  | none => physWriteParts part key (parts a n) x s

/-- Writes a list of (offset, bytes, value) from an address on. -/
def physWrites (part key base : Nat) (l : List (Nat × Nat × Nat)) (s : State) : Res Unit :=
  forEach (fun w s => physPut part key (base + w.1) w.2.1 w.2.2 s) l s

/-! ## Slots -/

/-- The length of a save slot (R380). -/
def slotLen : Nat := 0x26000
def svPool (q : Nat) : Nat := hubSV + 16 * q
/-- XSAVE of slot `j` of a partition's pool (R370, R383). -/
def State.slotWord (s : State) (q j : Nat) : Word :=
  let base := s.hubFld (svPool q) 16 36 * 65536
  let key := s.hubFld (svPool q + 8) 0 12
  BitVec.ofNat 64 (key * 2 ^ 52 + (base + slotLen * j) % 2 ^ 52)
/-- The first `n` free slots of a pool, or none while too few are free (R383). -/
def State.freeSlots (s : State) (q n : Nat) : Option (List Nat) :=
  if !bit (s.hubGet (svPool q)) 63 then none
  else
    let held := Tab.get [] s.slotsHeld q
    let free := (List.range (s.hubFld (svPool q) 0 16)).filter fun j => !held.contains j
    if free.length < n then none else some (free.take n)

/-- Bits [45:32] of SVCTL: registers that are written (R265, R380). -/
def Strand.savedMask (t : Strand) : Nat :=
  (List.range 14).foldl (fun acc i =>
    let live : Bool :=
      if 8 ≤ i ∧ i < 12 then
        let r := Tab.get AccReg.zero t.accs (32 + i)
        r.phys != 0 && !r.disc
      else
        -- bit 12 is w (45), bit 13 is ws (44)
        let r := Tab.get TileReg.zero t.tiles (if i = 12 then 45 else if i = 13 then 44 else 32 + i)
        r.phys != 0 && !r.disc
    acc + (if live then 2 ^ i else 0)) 0

def Strand.tile (t : Strand) (k : Nat) : TileReg := Tab.get TileReg.zero t.tiles k
def Strand.acc (t : Strand) (k : Nat) : AccReg := Tab.get AccReg.zero t.accs k

/-- The bytes of a channel slot (R381). -/
def Chan.slot (c : Chan) : List (Nat × Nat × Nat) :=
  let (snap, addr, off) := match c.now with
    | some r =>
      let x := match r.snap with | some x => x.toNat | none => 0
      let d := dominoOf x
      (x, r.addr, if r.snap.isSome then (r.done * d.wide + 511) / 512 else 0)
    | none => (0, (match c.stop with | some st => st.recAddr | none => 0), 0)
  let stop := match c.stop with | some st => 2 ^ 62 + st.cause * 2 ^ 56 | none => 0
  let word := (if c.now.isSome then 2 ^ 63 else 0) + stop + c.queue.length * 2 ^ 32 + off % 2 ^ 32
  [(0, 64, snap), (64, 8, addr), (72, 8, word), (80, 8, c.dci.toNat), (88, 8, c.dcc.toNat),
   (96, 128, packN 64 (c.queue.map Xfer.head)), (224, 32, 0)]

/-- The writes of a save but the header (R380, R381): offset, bytes, value. -/
def State.saveWrites (s : State) (key : Nat) (pc : Word) : List (Nat × Nat × Nat) :=
  let t := s.strand key
  let chans := (s.boundChans key).map s.chan
  let mask := t.savedMask
  let has (i : Nat) : Bool := bits mask i 1 == 1
  [(8, 8, pc.toNat), (16, 8, t.p.toNat / 2 * 2), (24, 8, t.ttag.toNat), (32, 8, t.rollc.toNat), (40, 8, t.rolli.toNat),
   (48, 8, (setFld t.estat 0 8 0).toNat), (56, 8, t.cseq.toNat),
   (0x40, 56, packN 64 ((List.range 7).map fun k => (t.mask (k + 1)).toNat)),
   (0x78, 8, chans.length), (0x80, 128, 0),
   (0x100, 256, packN 64 ((List.range 32).map fun n => (t.gpr n).toNat)),
   (0x200, 2048, packN 512 ((List.range 32).map fun n => (t.vec n).toNat))]
  ++ ((List.range chans.length).flatMap fun k =>
      ((chans.getD k Chan.reset).slot).map fun w => (0x0A00 + 256 * k + w.1, w.2.1, w.2.2))
  ++ [(0x1248, 3512, 0)]
  ++ ((List.range 8).filterMap fun i => if has i then some (0x2000 + 0x2000 * i, 8192, (t.tile (32 + i)).val.toNat) else none)
  ++ (if has 12 then [(0x12000, 8192, (t.tile 45).val.toNat)] else [])
  ++ (if has 13 then [(0x14000, 8192, (t.tile 44).val.toNat)] else [])
  ++ ((List.range 4).filterMap fun i => if has (8 + i) then some (0x16000 + 0x4000 * i, 16384, (t.acc (40 + i)).val.toNat) else none)

/-- The header word (R380). -/
def Strand.saveHeader (t : Strand) (cause : Nat) : Nat :=
  2 ^ 63 + t.savedMask * 2 ^ 32 + (t.tile 44).tag % 8 * 2 ^ 12 + (t.tile 45).tag % 8 * 2 ^ 8 + cause

/-- The message queue in the saved context of gang index 0 (R356, R380). -/
def queueWords (msgs : List Word) : Nat := packN 64 (BitVec.ofNat 64 msgs.length :: msgs |>.map BitVec.toNat)
/-- The write of a message queue into a save slot: offset, bytes, value. -/
def queueWrite (msgs : List Word) : Nat × Nat × Nat := (0x1200, 72, queueWords msgs)
/-- The messages of a saved queue. -/
def queueOf (x : Nat) : List Word := (List.range (min 8 (bits x 0 4))).map fun i => BitVec.ofNat 64 (elemN x 64 (i + 1))
def loadQueue (part : Nat) (slot : Word) (s : State) : Res (List Word) :=
  (physGet part (fld slot 52 12) (fld slot 0 52 + 0x1200) 72 s).andThen fun x s => .ok (queueOf x) s

/-! ## Restoring -/

/-- A transfer of a restored channel: what it runs under is what its `dcp` captured (R209), which goes with the task's context
beside the slot (log 53). -/
def Chan.xferFor (was : Chan) (t : Strand) (key part head id : Nat) : Xfer :=
  let held := was.queue ++ (was.now.map CopyRec.xfer).toList
  match held.find? fun x => x.id == id with
  | some x => { x with head := head, key := key }
  | none => { head := head, id := id, key := key, part := part, sup := false, ptbase := t.ptbase, asn := fld t.asn 0 16, keys := t.keys }

/-- A channel from its slot (R382): the identifiers, the queue and the record in progress; `was` is the channel as it was
saved. The slot has no field for the faulting address of a stopped channel (R213, R381), nor for whether a record's flag has been
written: they too go with the task's context (log 117). -/
def Chan.ofSlot (x : Nat) (was : Chan) (t : Strand) (key part : Nat) : Chan :=
  let word := elemN x 64 9
  let dci := elemN x 64 10
  let q := bits word 32 5
  let heads := (List.range q).map fun i => elemN x 64 (12 + i)
  let queue := (List.range q).map fun i => was.xferFor t key part (heads.getD i 0) (dci - q + 1 + i)
  let snap := bits x 0 512
  let addr := elemN x 64 8
  let d := dominoOf snap
  let busy := bits word 63 1 == 1
  let same (r : CopyRec) : Bool := r.addr == addr && r.snap.isSome == decide (snap ≠ 0)
  let now : Option CopyRec :=
    if busy then
      let old := was.now.filter same
      some { addr := addr, snap := if snap = 0 then none else some (BitVec.ofNat 512 snap),
             done := if d.wide = 0 then 0 else min d.elements (bits word 0 32 * 512 / d.wide), leave := false,
             xfer := was.xferFor t key part 0 (dci - q), acquired := false,
             flagged := (old.map CopyRec.flagged).getD false }
    else none
  let stopAddr := match was.stop with | some st => st.addr | none => addr
  { dci := BitVec.ofNat 64 dci, dcc := BitVec.ofNat 64 (elemN x 64 11), queue := queue, now := now,
    stop := if bits word 62 1 = 1 then some { cause := bits word 56 6, addr := stopAddr, recAddr := addr } else none }

/-- A strand's registers from its slot of `slotLen` bytes read as one number (R382): saved tiles receive physical tiles of
their own, numbered from 1; the others are zero-mapped. Reserved bits of ROLLI and ESTAT read zero (R6, R287, R298), and CRED is
zero (R286). -/
def Strand.restore (t : Strand) (x : Nat) : Strand :=
  let w (o : Nat) : Word := BitVec.ofNat 64 (bits x (8 * o) 64)
  let hdr := bits x 0 64
  let has (i : Nat) : Bool := bits hdr (32 + i) 1 == 1
  let tile (i o tag : Nat) : TileReg :=
    if has i then { phys := i + 1, val := BitVec.ofNat 65536 (bits x (8 * o) 65536), tag := tag, disc := false } else TileReg.zero
  let tiles := (List.range 8).foldl (fun tb i => Tab.set TileReg.zero tb (32 + i) (tile i (0x2000 + 0x2000 * i) 0)) ([] : Tab TileReg)
  let tiles := Tab.set TileReg.zero tiles 45 (tile 12 0x12000 (bits hdr 8 3))
  let tiles := Tab.set TileReg.zero tiles 44 (tile 13 0x14000 (bits hdr 12 3))
  let accs := (List.range 4).foldl (fun tb i =>
    Tab.set AccReg.zero tb (40 + i)
      (if has (8 + i) then { phys := i + 1, val := BitVec.ofNat 131072 (bits x (8 * (0x16000 + 0x4000 * i)) 131072), disc := false }
       else AccReg.zero)) ([] : Tab AccReg)
  { t with
    pc := w 8
    p := BitVec.ofNat 8 (bits x 128 8 / 2 * 2)
    rollc := w 0x20, rolli := w 0x28 &&& ~~~ 0x800000, estat := w 0x30 &&& ~~~ 0xFFFFFFFF, cseq := w 0x38
    m := (List.range 7).foldl (fun tb k => Tab.set 0 tb (k + 1) (w (0x40 + 8 * k))) []
    g := (List.range 31).foldl (fun tb n => Tab.set 0 tb (n + 1) (w (0x108 + 8 * n))) []
    v := (List.range 32).foldl (fun tb n => Tab.set 0 tb n (BitVec.ofNat 512 (bits x (8 * (0x200 + 64 * n)) 512))) []
    tiles := tiles, accs := accs, rolling := bits x (8 * 0x28 + 63) 1 == 1, body := [] }

/-! ## Records of contained events (R405) -/

def mcqAddr (q : Nat) : Nat := hubMCQ + 16 * q

/-- One record written to its partition's ring, and the interrupt; a ring that cannot be reached loses it. A bell, or a home, holds
it, and those after it (R395). -/
def State.writeRecord (s : State) (r : McRecord) : State :=
  let b := mcqAddr r.part
  let lose (s : State) : State := s.hubSetFld (b + 8) 12 8 (min 255 (s.hubFld (b + 8) 12 8 + 1))
  if !bit (s.hubGet b) 63 then s
  else
    let n := s.hubFld (b + 8) 32 32
    let a := s.hubFld b 6 46 * 64 + 32 * (n % 2 ^ s.hubFld (b + 8) 20 4)
    let written : Res Bool :=
      (physGet r.part 0 a 8 s).andThen fun w s =>
        if bits w 63 1 = 1 then .ok false s
        else
          (physWrites r.part 0 a [(8, 8, r.addr.toNat), (16, 8, r.syn.toNat), (24, 8, r.time)] s).andThen fun _ s =>
            (hubReleased s).andThen fun _ s => (physPut r.part 0 a 8 r.stat.toNat s).andThen fun _ s => .ok true s
    match written with
    | .wait s => { s with mcHeld := s.mcHeld ++ [r] }
    | .trap _ s => lose s
    | .ok false s => lose s
    | .ok true s =>
      let s := s.hubSetFld (b + 8) 32 32 (n + 1)
      let sid := s.hubFld (b + 8) 0 11
      if s.hubFld (b + 8) 11 1 = 1 ∧ s.partHasCluster r.part (sid / 8) then
        s.modStrand (keyOf (s.partBank r.part) sid) fun t => { t with xmask := t.xmask ||| (1 <<< 10) }
      else s

/-- A record on its way: written at once, or after those that wait. -/
def State.sendRecord (s : State) (r : McRecord) : State :=
  if s.mcHeld.isEmpty then s.writeRecord r else { s with mcHeld := s.mcHeld ++ [r] }

/-- The records that wait are written, in order. -/
def State.flushRecords (s : State) : State := s.mcHeld.foldl (fun s r => s.sendRecord r) { s with mcHeld := [] }

end Sys2Proof.Machine
end

