-- ==== Sys2Proof/Machine/Tasks.lean ====
section
/-!
DEFINITION. Tasks and their strands (R342 to R367, R378 to R385): looking a task up, leave reservations (R286), freeing a
strand, the end of a task by exit or death, the save of a strand, and what `exit` does (R362).
-/
namespace Sys2Proof.Machine

/-! ## Looking up -/

/-- The gang index of the strand that a task holds at a position (R342). -/
def Task.gangOf (t : Task) (key : Nat) : Option Nat :=
  (List.range t.keys.length).find? fun i => t.keys.getD i 0 == key && !t.exited.contains i && !t.saved.contains i
/-- The resident task that runs on a strand position. -/
def State.taskAt (s : State) (key : Nat) : Option Task :=
  s.tasks.find? fun t => t.state == .resident && (t.gangOf key).isSome
def State.task (s : State) (id : Nat) : Option Task := s.tasks.find? fun t => t.id == id
def State.modTask (s : State) (id : Nat) (f : Task → Task) : State :=
  { s with tasks := s.tasks.map fun t => if t.id = id then f t else t }
def State.castNo (s : State) (id : Nat) : Option Cast := s.casts.find? fun c => c.id == id
def State.modCast (s : State) (id : Nat) (f : Cast → Cast) : State :=
  { s with casts := s.casts.map fun c => if c.id = id then f c else c }
/-- The position of a die in S (R347). -/
def Cast.rank (c : Cast) (die : Nat) : Option Nat := c.dies.idxOf? die
/-- The hub as it reaches a cast's addresses (R345). -/
def Cast.who (c : Cast) : Who := hubWho c.part c.ptbase c.asn c.keys
/-- The live strands of a resident task: gang index and key. -/
def Task.live (t : Task) : List (Nat × Nat) :=
  (List.range t.keys.length).filterMap fun i =>
    if t.exited.contains i || t.saved.contains i then none else some (i, t.keys.getD i 0)

/-! ## Engines and reservations -/

/-- The engine of a strand, by its bank. -/
def engineKey (key : Nat) : Nat := bankOf key * 512 + engineOf key
def State.engine (s : State) (k : Nat) : Engine := Tab.get Engine.reset s.engines k
def State.setEngine (s : State) (k : Nat) (e : Engine) : State := { s with engines := Tab.set Engine.reset s.engines k e }
def State.modEngine (s : State) (k : Nat) (f : Engine → Engine) : State := s.setEngine k (f (s.engine k))

/-- What an engine has borrowed from the present reservation of a strand (R286). -/
def State.lentBy (s : State) (key : Nat) : Nat :=
  ((s.engine (engineKey key)).lent.filter fun l => l.key == key && l.resv == (s.strand key).resv).foldl (fun n l => n + l.n) 0

/-- The return of a whole reservation: what the engine has not borrowed goes back at once (R286). -/
def State.returnReservation (s : State) (key : Nat) : State :=
  let t := s.strand key
  let n := fld t.estat 0 8 - s.lentBy key
  (s.modStrand key fun t => { t with estat := setFld t.estat 0 8 0, resv := t.resv + 1 }).returnLeave (clusterOf key) n

/-! ## Strands -/

/-- A strand position that runs no task: the task's registers read 0 (R237), its tiles are given up, no request is pending,
and no trap is unacknowledged (log 16). -/
def Strand.freed (t : Strand) : Strand :=
  { t with run := .free, ttag := 0, tidx := 0, gidx := 0, gsz := 0, castp := 0, xsave := 0, xlvl := 0, xprq := 0,
           overrun := none, drains := [], tiles := [], accs := [], rolling := false, mul := none, call := none, remote := none,
           gonging := false, bellWait := none, fence := none, inFlight := 0, posting := false, body := [], performed := none, flushing := none }

/-- A strand leaves its position: its reservation goes back, and its engine forgets the copies of its tiles. A self-test that is
pending on the cluster runs at once where no resident is left (R408). -/
def State.freeStrand (s : State) (key : Nat) : State :=
  let c := clusterOf key
  let s := ((s.returnReservation key).dropLeave (.strand key) c 4).dropLeave (.remote key) c 4
  let s := s.modEngine (engineKey key) fun e =>
    { e with planes := e.planes.map fun p => match p with | some (k, i) => if k = key then none else some (k, i) | none => none }
  let s := s.modStrand key Strand.freed
  if s.hubFld (hubTEST + 8 * c) 63 1 = 1 then s.later .selfTestRun (.num c) else s

/-! ## Ending -/

/-- The notice of an event of a cast (R354). -/
def Cast.noticeOf (c : Cast) (kind cause : Nat) (tag status : Word) : Notice :=
  { part := c.part, notq := c.notq, ptbase := c.ptbase, asn := c.asn, keys := c.keys, kind := kind, cause := cause, tag := tag,
    status := status, packet := c.packet, parent := c.parent }
def State.castNotice (s : State) (cast kind cause : Nat) (tag status : Word) : State :=
  match s.castNo cast with
  | some c => s.sendNotice (c.noticeOf kind cause tag status)
  | none => s

/-- Distribution on a die goes on: for a partition, and for every enabled one where the die has just come below the 2,048 queued tasks
that held them all (R348). -/
def State.distributeLater (s : State) (part die : Nat) : State :=
  let s := s.later .taskDistribution (.num2 part die)
  if 2047 ≤ (s.tasks.filter fun t => t.die == die && t.state == .queued).length then
    ((List.range 16).filter fun q => q != part && s.partEnabled q).foldl (fun s q => s.later .taskDistribution (.num2 q die)) s
  else s

/-- The next steps of a die's dispatcher. -/
def State.dispatchLater (s : State) (part die : Nat) : State :=
  let s := s.distributeLater part die
  (s.clustersOf part).foldl (fun s c => if c / 64 = die then s.later .taskPlacement (.num2 part c) else s) s

/-- The source table of a task that has ended is discarded once every operation of its tag has ended (R316); while a live task
has the tag it stays (log 118). -/
def State.dropSources (s : State) (part : Nat) (ttag : Word) : State :=
  if s.tasks.any (fun t => t.part == part && t.ttag == ttag && t.state != .ended)
      || s.remotes.any (fun r => r.part == part && r.ttag == ttag && r.counted && r.result.isNone) then s
  else { s with sources := Tab.set [] s.sources (part * 2 ^ 64 + ttag.toNat) [] }

/-! ## Collective operations at the hub (R326, R335) -/

/-- The participants in the order of their indices: module and tag. -/
def participants : List Nat → List (Nat × Nat)
  | a :: b :: rest => (a % 512, b) :: participants rest
  | _ => []
def groupMembers (g : List Nat) : List (Nat × Nat) := participants (g.drop 2)

/-- Whether a participant of this module belongs to a task. -/
def CollLocal.ofTask (l : CollLocal) (part : Nat) (ttag : Word) : Bool := l.part == part && l.ttag == ttag && !l.finished

/-- Whether a participant's part of an operation is in progress: of a repartition until its STAT is written (R336, R338), of another
until the operation has ended, whether or not its strand has come back to it (R326). -/
def Coll.going (c : Coll) (l : CollLocal) : Bool := !l.finished && (l.kind.isPart || c.outcome.isNone)

def State.modColl (s : State) (id : Nat) (f : Coll → Coll) : State :=
  { s with colls := s.colls.map fun c => if c.id = id then f c else c }

/-- Whether a participant may still join: it has not, and its task lives, or is another module's that has not died. -/
def State.mayJoin (s : State) (c : Coll) (i : Nat) : Bool :=
  let m := (groupMembers c.descriptor).getD i (0, 0)
  !(c.joins.any fun j => j.mid == m.1 && j.ttag.toNat == m.2) &&
    (if m.1 = s.ownMid then s.tasks.any fun t => t.part == c.part && t.ttag.toNat == m.2 && t.state != .ended else !c.dead.contains i)

/-- Operations that have ended, that no participant of this module waits in, and that no participant may still join, whose STATUS it
would receive (R335), are forgotten. -/
def State.dropColls (s : State) : State :=
  { s with colls := s.colls.filter fun c =>
      c.outcome.isNone || !c.locals.all CollLocal.finished || (List.range (groupMembers c.descriptor).length).any (s.mayJoin c) }

/-- A collective operation ends: the credits of its moves go back, its requests for credits are withdrawn, and its repartitions have
their end to write (R335, R336). -/
def State.endColl (s : State) (c : Coll) (e : CollEnd) : State :=
  let s := c.locals.foldl (fun s l =>
    if l.leave then s.returnLeave (clusterOf l.key) 4 else s.dropLeave (.part c.id l.index) (clusterOf l.key) 4) s
  let s := s.modColl c.id fun x => { x with outcome := some e, locals := x.locals.map fun l => { l with leave := false } }
  if c.locals.any fun l => l.kind.isPart then s.later .rpartEnd (.num c.id) else s

/-- An outcome that is an error: NEW, HELD, KLO and KHI are 0 (R335). -/
def CollEnd.error (status : Nat) (detail : List Nat) : CollEnd := { status := status, detail := detail, news := [], helds := [], los := [] }

/-- Collectives in which a task takes part, whether or not it has joined, end with STATUS 0x23, unless they have reached the commit
(R335, R385); no strand of the task waits any more. -/
def State.failColls (s : State) (part : Nat) (ttag : Word) : State :=
  let hit (c : Coll) : Bool :=
    c.part == part && (groupMembers c.descriptor).contains (s.ownMid, ttag.toNat) && c.outcome.isNone && decide (c.phase < 5)
  let s := (s.colls.filter hit).foldl (fun s c => s.endColl c (.error 0x23 [])) s
  let gone (l : CollLocal) : CollLocal := if l.ofTask part ttag ∧ l.kind.isPart = false then { l with finished := true } else l
  { s with colls := s.colls.map fun c => { c with locals := c.locals.map gone } }

/-- The task counts as ended: its slots and its stack slot are free, its queue and its reply log are gone (R353, R385,
R389). -/
def State.endTask (s : State) (id : Nat) : State :=
  match s.task id with
  | none => s
  | some t =>
    let s := s.modTask id fun t => { t with state := .ended, msgs := [], log := [], slots := [], keys := [], chans := [] }
    let held := (Tab.get [] s.slotsHeld t.part).filter fun j => !t.slots.contains j
    let s := { s with slotsHeld := Tab.set [] s.slotsHeld t.part held,
                      collCount := s.collCount.filter fun e => !(e.1 == t.part && e.2.1 == t.ttag),
                      remotes := s.remotes.map fun (r : RemoteOp) =>
                        if r.part = t.part ∧ r.ttag = t.ttag then { r with silent := true } else r }
    let s := (s.dropSources t.part t.ttag).dropColls
    let s := s.modCast t.cast fun c =>
      match c.rank t.die with
      | some r => { c with ended := c.ended.set r (c.ended.getD r 0 + 1) }
      | none => c
    (List.range 4).foldl (fun s d => s.dispatchLater t.part d) (s.later .shareEnd (.num2 t.cast t.die))

/-- The flush by context tag of a task that has died (R140, R385); what must wait is written through later. -/
def State.flushDead (s : State) (core ttag : Nat) : State :=
  let s := s.flushTag core ttag
  if s.tagFlushed core ttag then s else { s with tagFlushes := s.tagFlushes ++ [(core, ttag)] }

/-- A strand of a dying task stops: its retired stores are performed, its copy channels are cancelled (R385), and its position
is free. -/
def State.killStrand (s : State) (key : Nat) : State :=
  let s := s.setAside key
  let s := (s.boundChans key).foldl (fun s k => s.chanKill k) s
  s.freeStrand key

/-- A task dies (R385): with the CAUSE and STATUS of its notice. Every dirty word under its tag goes to the home, from every core
where it has run, and saves that are held are given up. -/
def State.killTask (s : State) (id cause : Nat) (status : Word) : State :=
  match s.task id with
  | none => s
  | some t =>
    if t.state = .ended then s
    else
      let s := if t.state = .resident then t.live.foldl (fun s p => s.killStrand p.2) s else s
      let s := { s with saves := s.saves.filter fun h => h.task != id }
      let s := t.keys.foldl (fun s k => s.flushDead (coreOf k) t.ttag.toNat) s
      let s := s.failColls t.part t.ttag
      let s := s.castNotice t.cast 3 cause t.ttag status
      s.endTask id

/-- The task of a strand dies; a strand that runs no task only stops (R371). -/
def State.killAt (s : State) (key cause : Nat) (status : Word) : State :=
  match s.taskAt key with
  | some t => s.killTask t.id cause status
  | none => s.modStrand key fun t => { t with run := .stopped }

/-! ## The save of a strand (R378, R379) -/

/-- The strands of a task with a pending request, or without (R378). -/
def State.requestSave (s : State) (t : Task) (on : Bool) : State :=
  t.live.foldl (fun s p => s.modStrand p.2 fun st =>
    if on then (if bit st.xprq 0 then st else { st with xprq := st.xprq ||| 1, xpdl := setFld st.xpdl 32 32 (fld st.xpdl 0 32) })
    else { st with xprq := st.xprq &&& ~~~ 1 }) s

/-- The save of gang index 0 that is not complete; where that strand has exited, the write of the message queue alone. -/
def State.queueSave (s : State) (t : Task) : HeldSave :=
  let slot := s.slotWord t.part (t.slots.getD 0 0)
  (s.saves.find? fun h => h.task == t.id && h.gidx == 0).getD
    { task := t.id, gidx := 0, kid := fld slot 52 12, slot := fld slot 0 52, writes := [], header := none }

/-- Whether every strand of a resident task has been saved or has exited, and every save but that of gang index 0 is complete. -/
def State.leaving (s : State) (t : Task) : Bool :=
  t.state == .resident && t.live.isEmpty && !t.saved.isEmpty && !s.saves.any fun h => h.task == t.id && h.gidx != 0

/-- When every strand of a task has been saved or has exited, its message queue goes with its context, the header of gang index
0 is written, and the task is swapped (R356, R378, R379). A mailbox that a bell still holds moves to the queue first. -/
def State.settleTask (s : State) (id : Nat) : State :=
  match s.task id with
  | none => s
  | some t =>
    let h := s.queueSave t
    if !s.leaving t || t.mailDue || !h.writes.isEmpty then s
    else
      let rest := s.saves.filter fun x => !(x.task == id && x.gidx == 0)
      match physWrites t.part h.kid h.slot (queueWrite t.msgs :: (h.header.map fun x => (0, 8, x)).toList) s with
      | .wait u => { u with saves := rest ++ [h] }
      | .trap e s => s.killTask id 0x13 e.addr
      | .ok _ s =>
        ({ s with saves := rest }.modTask id fun t =>
          { t with state := .swapped, cluster := clusterOf (t.keys.getD 0 0) }).dispatchLater t.part t.die

/-- The writes of a save that is held, as far as they can be made, the header last; an error response kills the task (R379). -/
def State.paySave (s : State) (h : HeldSave) : State :=
  let part := match s.task h.task with | some t => t.part | none => 0
  let rest := s.saves.filter fun x => !(x.task == h.task && x.gidx == h.gidx)
  let last : List (Nat × Nat × Nat) := if h.gidx = 0 then [] else (h.header.map fun x => (0, 8, x)).toList
  match physWrites part h.kid h.slot (h.writes ++ last) s with
  | .wait u => u
  | .trap e s => s.killTask h.task 0x13 e.addr
  | .ok _ s => { s with saves := if h.gidx = 0 then { h with writes := [] } :: rest else rest }.settleTask h.task

/-- Saves that are held go on, oldest first. -/
def State.flushSaves (s : State) : State := s.saves.foldl (fun s h => if s.saves.contains h then s.paySave h else s) s

/-- A strand of a task is saved with its resume PC and the cause of its header (R379): its stores drain, its channels stop, its
reservation is returned, its position is free, and its slot is written, which a bell holds; a `gong` that it waits in is joined
again at its resume (R363). A strand that runs no task is not saved. -/
def State.saveAt (s : State) (key : Nat) (pc : Word) (cause : Nat) : State :=
  match s.taskAt key with
  | none => s
  | some t =>
    match t.gangOf key with
    | none => s
    | some gi =>
      let s := (s.boundChans key).foldl (fun s k => s.parkWrites k) (s.setAside key)
      let st := s.strand key
      let h : HeldSave :=
        { task := t.id, gidx := gi, kid := fld st.xsave 52 12, slot := fld st.xsave 0 52, writes := s.saveWrites key pc,
          header := some (st.saveHeader cause) }
      let ks := s.boundChans key
      let kept := (List.range ks.length).map fun k => (gi, k, s.chan (ks.getD k 0))
      let s := ks.foldl (fun s k =>
        let s := match (s.chan k).now with | some c => s.chanCredits k c | none => s
        s.modChan k fun c => { c with queue := [], now := none, stop := none }) s
      let wait := st.gonging
      let s := s.freeStrand key
      let s := s.modTask t.id fun t =>
        { t with saved := gi :: t.saved, chans := t.chans ++ kept,
                 gongs := if wait then Tab.set 0 t.gongs gi (Tab.get 0 t.gongs gi - 1) else t.gongs }
      { s with saves := s.saves ++ [h] }.paySave h

/-! ## Going on -/

/-- The flushes by context tag that are not complete go on (R385). -/
def State.flushTags (s : State) : State :=
  s.tagFlushes.foldl (fun s x => s.flushDead x.1 x.2) { s with tagFlushes := [] }

/-! ## `exit` -/

/-- `exit` of the current strand with a status, in the order of R362; the PC it answers is that of a freed position. -/
def exitStrand (status : Word) (s : State) : Res Word :=
  let key := s.cur
  let chans := s.boundChans key
  if chans.any fun k => !(s.chan k).idle && (s.chan k).stop.isNone then .wait s
  else
    match chans.foldl (fun (r : Try) k => r.andThen fun s => s.chanCancel k) (.ok s) with
    | .error u => .wait u
    | .ok s =>
      let part := (s.partOf key).getD 0
      let tag := s.me.ttag
      if tag ≠ 0 ∧ s.colls.any (fun c => c.locals.any fun l => l.ofTask part tag && c.going l) then .wait s
      else
        (release .dom (s.returnReservation key)).andThen fun _ s =>
          let pc := s.me.pc
          match s.taskAt key with
          | none => .ok pc (s.freeStrand key)
          | some t =>
            let gi := (t.gangOf key).getD 0
            let s := s.freeStrand key
            let t' := { t with exited := gi :: t.exited, status := if gi = 0 then status else t.status }
            let s := s.modTask t.id fun _ => t'
            if (List.range t.keys.length).all fun i => t'.exited.contains i then
              let s := if t'.status = 0 then s else s.castNotice t.cast 2 0 t.ttag t'.status
              .ok pc (s.endTask t.id)
            else .ok pc ((s.dispatchLater t.part t.die).settleTask t.id)

/-- The address that a task's `lk` holds at entry: a transfer to it performs `exit` (R25, R48). -/
def exitAddr : Word := 0xFFFFFFFFFFFFFFFC

/-- A control transfer to `t` (R231): the exit address, the alignment check, and `lk` where the transfer links. An `exit` frees the
position with its `lk`, so that one which waits is executed again with the `lk` it began with (R217). -/
def transfer (t : Word) (link : Option Word) (s : State) : Res Word :=
  let linked (s : State) : State := match link with | some l => s.setG 31 l | none => s
  if t = exitAddr then exitStrand (s.G 1) s
  else if fld t 0 2 ≠ 0 then raise 0x07 t 2 s
  else .ok t (linked s)

end Sys2Proof.Machine
end

