-- ==== Sys2Proof/Machine/SysRegs.lean ====
section
/-!
DEFINITION. The system registers (R55, R235 to R238): what each reads as, which fields a write changes, and what the
writes do that have an action of their own (R149, R370, R378).
-/
namespace Sys2Proof


/-- What a strand at U may do (R55). -/
def SysReg.uRead : SysReg → Bool
  | .sid | .cid | .kid | .did | .mid | .ttag | .tidx | .gidx | .gsz | .castp => true
  | .cyc | .time | .bpeal | .blen | .bnext | .estat | .dci _ | .dcc _ | .rollc | .rolli | .cseq => true
  | _ => false
def SysReg.uWrite : SysReg → Bool
  | .rollc | .rolli | .cseq => true
  | _ => false

/-- The fields that a write of a register changes (R5, R149, R284, R287, R298, R370). -/
def SysReg.writable : SysReg → Word
  | .xvec => 0x007FFFFFFFFFF800
  | .xdvec => 0x007FFFFFFFFFFFFC
  | .xpin => 0x800FFFFFFFFF0FFF
  | .xpc | .xaddr | .xinfo | .xscr | .xpc2 | .xaddr2 | .cseq => 0xFFFFFFFFFFFFFFFF
  | .xcause => 0xFF
  | .xstat => 1
  | .xcause2 => 0xFFFF
  | .xmask => 0xF
  | .xctl => 0xFFFFFFFF00000003
  | .xprq => 1
  | .xpdl => 0xFFFFFFFF
  | .ptbase => 0x000FFFFFFFFF0FFF
  | .asn => 0xFFFF
  | .keyl => 0x000FFFFFFFFFFFE0
  | .ebind => 3
  | .estat => 0xFFFFFFFF00000000
  | .rollc => 0xFFFFFFFFFFFFFFFF
  | .rolli => 0xFFFFFFFFFF7FFFFF
  | _ => 0

end Sys2Proof

namespace Sys2Proof.Machine

/-- BPEAL, BLEN and BNEXT (R392). -/
def State.bpeal (s : State) : Word := BitVec.ofNat 64 (s.time / pealLen % 2 ^ 44 * 2 ^ 20 + pealLen)
def State.blen (s : State) : Word :=
  let len := if s.bellIn then s.bellLen else bellLength s.bellPeal
  let great := if s.bellIn then decide (40000 ≤ s.bellLen) else s.bellPeal % 1024 == 0
  BitVec.ofNat 64 (b2n s.bellIn * 2 ^ 63 + b2n great * 2 ^ 62 + b2n s.bellOvr * 2 ^ 61 + len % 2 ^ 32)

/-- SR(name) as the current strand reads it (R41, R237). -/
def State.SR (s : State) (n : SysReg) : Word :=
  let t := s.me
  let key := s.cur
  match n with
  | .sid => BitVec.ofNat 64 (sidOf key)
  | .cid => BitVec.ofNat 64 (cidOf key)
  | .kid => BitVec.ofNat 64 (kidOf key)
  | .did => BitVec.ofNat 64 (didOf key)
  | .mid => BitVec.ofNat 64 s.ownMid
  | .ttag => t.ttag
  | .tidx => t.tidx
  | .gidx => t.gidx
  | .gsz => t.gsz
  | .castp => t.castp
  | .xvec => t.xvec
  | .xdvec => t.xdvec
  | .xpin => t.xpin
  | .xpc => t.xpc
  | .xcause => t.xcause
  | .xaddr => t.xaddr
  | .xinfo => t.xinfo
  | .xstat => t.xstat
  | .xscr => t.xscr
  | .xcause2 => t.xcause2
  | .xpc2 => t.xpc2
  | .xaddr2 => t.xaddr2
  | .xlvl => t.xlvl
  | .xmask => t.xmask
  | .xctl => t.xctl
  | .xprq => t.xprq
  | .xpdl => t.xpdl
  | .xsave => t.xsave
  | .cyc => BitVec.ofNat 64 (s.clk - Tab.get 0 s.dieClk (didOf key))
  | .time => BitVec.ofNat 64 s.time
  | .bpeal => s.bpeal
  | .blen => s.blen
  | .bnext => BitVec.ofNat 64 s.nextBell
  | .ptbase => t.ptbase
  | .asn => t.asn
  | .keyl => t.keyl
  | .ebind => setFld t.ebind 2 1 (cidOf key / 2)
  | .estat => t.estat
  | .dci c => s.readDci key c.val
  | .dcc c => s.readDcc key c.val
  | .rollc => t.rollc
  | .rolli => t.rolli
  | .cseq => t.cseq

/-- A register whose write only stores its writable fields. -/
def Strand.setSR (t : Strand) (n : SysReg) (x : Word) : Strand :=
  let m (old : Word) : Word := mergeMask n.writable old x
  match n with
  | .xvec => { t with xvec := m t.xvec }
  | .xdvec => { t with xdvec := m t.xdvec }
  | .xpin => { t with xpin := m t.xpin }
  | .xpc => { t with xpc := m t.xpc }
  | .xcause => { t with xcause := m t.xcause }
  | .xaddr => { t with xaddr := m t.xaddr }
  | .xinfo => { t with xinfo := m t.xinfo }
  | .xstat => { t with xstat := m t.xstat }
  | .xscr => { t with xscr := m t.xscr }
  | .xcause2 => { t with xcause2 := m t.xcause2 }
  | .xpc2 => { t with xpc2 := m t.xpc2 }
  | .xaddr2 => { t with xaddr2 := m t.xaddr2 }
  | .xmask => { t with xmask := m t.xmask }
  | .xctl => { t with xctl := m t.xctl }
  | .xpdl => { t with xpdl := m t.xpdl }
  | .ptbase => { t with ptbase := m t.ptbase }
  | .asn => { t with asn := m t.asn }
  | .ebind => { t with ebind := m t.ebind }
  | .estat => { t with estat := m t.estat }
  | .rollc => { t with rollc := m t.rollc }
  | .rolli => { t with rolli := m t.rolli }
  | .cseq => { t with cseq := m t.cseq }
  | _ => t

/-- The 16 selectors of a key list for a partition (R149): valid with V set, the reserved bits zero, and KeyID 0 or one granted
to the partition. -/
def State.keysFor (s : State) (part : Option Nat) (x : Nat) : List (Option Nat) :=
  (List.range 16).map fun k =>
    let e := elemN x 16 k
    let id := bits e 0 12
    let granted : Bool := match part with | some q => s.partKey q id | none => id == 0
    if bits e 15 1 = 1 ∧ bits e 12 3 = 0 ∧ granted = true then some id else none

/-- A write of KEYL (R149): the list is read once under KeyID 0, as an acquire of scope .die; an error response leaves the
register and its list as they were. -/
def setKeyl (x : Word) (s : State) : Res Unit :=
  let x := x &&& SysReg.writable .keyl
  let w := { s.who s.cur with sup := true }
  match s.present w.part x.toNat 0 false with
  | .error (c, a) => raiseBad w x.toNat (.abort c a 0) s
  | .ok t =>
    match s.readPiece (coreOf s.cur) .home (physPiece x.toNat 32 t) 0 (s.tagOf s.cur) with
    | .error m => raiseBad w x.toNat (m.bad 0) s
    | .ok (v, s) =>
      (acquire .die s).andThen fun _ s =>
        .ok () (s.modMe fun t => { t with keyl := x, keys := s.keysFor (s.partOf s.cur) v })

/-- SR(name) := x, by the current strand, with the action of the register (R235): KEYL reads its list; XPRQ raises or
withdraws the request on every strand of the task (R378); KILL makes the task die (R370); OVR is cleared by 1 (R392); the
registers of the roll take effect at the next `tret` (R300). -/
def setSR (n : SysReg) (x : Word) (s : State) : Res Unit :=
  match n with
  | .keyl => setKeyl x s
  | .xprq =>
    match s.taskAt s.cur with
    | some t => .ok () (s.requestSave t (bit x 0))
    | none => .ok () (s.modMe fun t => { t with xprq := mergeMask 1 t.xprq x })
  | .xctl =>
    let s := s.modMe fun t => t.setSR .xctl x
    .ok () (if bit x 2 then pushMove (.event .xctlKill (.num3 s.cur (fld s.me.xcause 0 8) s.me.xaddr.toNat)) s else s)
  | .blen => .ok () (if bit x 61 then { s with bellOvr := false } else s)
  | n => .ok () (s.modMe fun t => t.setSR n x)

/-- The order of R235's checks: a U access that R55 does not grant raises privileged. -/
def srGuard (n : SysReg) (read write : Bool) (s : State) (o : Out) : Out :=
  if s.me.sup || ((!read || n.uRead) && (!write || n.uWrite)) then o else .next (s.takeTrap s (privilegedExc s))

/-- `sr.get` (R235). -/
def execSrGet (n : SysReg) (d : R32) (s : State) : Out :=
  srGuard n true false s (done 4 s (.ok () (s.setG d (s.SR n))))

/-- `sr.set` (R235, R236). -/
def execSrSet (n : SysReg) (a : R32) (s : State) : Out :=
  srGuard n false true s (done 4 s (setSR n (s.G a) s))

/-- `sr.swap` (R235): the old value goes to g[d], and g[a] is read before. -/
def execSrSwap (n : SysReg) (d a : R32) (s : State) : Out :=
  let old := s.SR n
  srGuard n true true s (done 4 s ((setSR n (s.G a) s).andThen fun _ s => .ok () (s.setG d old)))

end Sys2Proof.Machine
end

