-- ==== Sys2Proof/Machine/Tiles.lean ====
section
/-!
DEFINITION. Tile registers and tile memory instructions (R257 to R278): physical tiles (R258, R259), rows (R267 to R269),
and the instructions of format M ops 0x14 and 0x15.
-/
namespace Sys2Proof.Machine

/-! ## Registers and physical tiles -/

/-- The field value of a tile operand (R36). -/
def TileName.field : TileName → Nat
  | .t n => 32 + n.val
  | .a n => 40 + n.val
  | .ws => 44
  | .w => 45
/-- The field values of t0 to t7 and of a0 to a3. -/
def tField (n : R8) : Nat := 32 + n.val
def aField (n : R4) : Nat := 40 + n.val
def wsField : Nat := 44
def wField : Nat := 45

def Strand.setTile (t : Strand) (k : Nat) (r : TileReg) : Strand := { t with tiles := Tab.set TileReg.zero t.tiles k r }
def Strand.setAcc (t : Strand) (k : Nat) (r : AccReg) : Strand := { t with accs := Tab.set AccReg.zero t.accs k r }

/-- The identities of a strand's physical operand tiles or accumulators: those its registers occupy, and with `all` those
that only a drain still reads. -/
def Strand.physIds (t : Strand) (acc all : Bool) : List Nat :=
  let regs := if acc then t.accs.map fun e => e.2.phys else t.tiles.map fun e => e.2.phys
  let drains := if all then (t.drains.filter fun d => d.acc == acc).map Drain.phys else []
  ((regs ++ drains).filter fun i => i != 0).eraseDups

/-- The least identity that no physical tile of the strand has. -/
def Strand.freshId (t : Strand) (acc : Bool) : Nat :=
  let used := t.physIds acc true
  ((List.range (used.length + 1)).find? fun i => !used.contains (i + 1)).getD 0 + 1

/-- The strands of a strand's engine in its bank (R284). -/
def engineKeys (key : Nat) : List Nat := (List.range 4).map fun i => keyOf (bankOf key) (engineOf key * 4 + i)

/-- What a strand takes of the pool as the others see it, its reserve of two included (R258). -/
def Strand.committed (t : Strand) (acc : Bool) : Nat := max (t.physIds acc true).length ((t.physIds acc false).length + 2)

/-- Whether a strand gets one more physical tile now, its own reserve being there for it: its engine has 48 operand tiles and 24
accumulators (R258). -/
def State.poolAdmits (s : State) (key : Nat) (acc : Bool) : Bool :=
  decide (((engineKeys key).map fun k =>
      if k = key then ((s.strand k).physIds acc true).length + 1 else (s.strand k).committed acc).foldl (· + ·) 0 ≤
    if acc then 24 else 48)

/-- A rename waits while the pool has no tile for it, until the drains of the engine's strands end (R258). -/
def poolRoom (acc : Bool) (s : State) : Res Unit :=
  if s.poolAdmits s.cur acc then .ok () s
  else
    let s := (engineKeys s.cur).foldl (fun s k => s.drainAll k) s
    if s.poolAdmits s.cur acc then .ok () s else .wait s

/-- Whether a source register's physical tile is draining (R260). -/
def Strand.draining (t : Strand) (k : Nat) : Bool :=
  let acc := decide (40 ≤ k ∧ k < 44)
  let id := if acc then (t.acc k).phys else (t.tile k).phys
  id != 0 && t.drains.any fun d => d.acc == acc && d.phys == id

/-- An instruction waits until its sources are ready (R261): the drains that read them end. -/
def sources (ks : List Nat) (s : State) : Res Unit :=
  if ks.any s.me.draining then
    let s := s.drainAll s.cur
    if ks.any s.me.draining then .wait s else .ok () s
  else .ok () s

/-- An engine forgets its copy of a physical tile whose identity is used again. -/
def Engine.forget (e : Engine) (key id : Nat) : Engine :=
  { e with planes := e.planes.map fun p => if p = some (key, id) then none else p }

/-- A tile or plane register of a strand receives a fresh physical tile (R259); its discardable bit is cleared (R265). -/
def State.freshTile (s : State) (key k : Nat) (v : Tile) (tag : Nat) : State :=
  let id := (s.strand key).freshId false
  (s.modEngine (engineKey key) fun e => e.forget key id).modStrand key fun t =>
    t.setTile k { phys := id, val := v, tag := tag, disc := false }
/-- An accumulator of a strand receives a fresh physical accumulator. -/
def State.freshAcc (s : State) (key k : Nat) (v : Acc) : State :=
  s.modStrand key fun t => t.setAcc k { phys := t.freshId true, val := v, disc := false }

/-- The current strand writes t, w or ws under its field value. -/
def putTile (k : Nat) (v : Tile) (tag : Nat) (s : State) : Res Unit :=
  (poolRoom false s).andThen fun _ s => .ok () (s.freshTile s.cur k v tag)
/-- The current strand writes an accumulator. -/
def putAcc (k : Nat) (v : Acc) (s : State) : Res Unit :=
  (poolRoom true s).andThen fun _ s => .ok () (s.freshAcc s.cur k v)

/-- A register that dies is zero-mapped, its discardable bit clear (R263 to R265). -/
def Strand.killReg (t : Strand) (k : Nat) : Strand :=
  if 40 ≤ k ∧ k < 44 then t.setAcc k AccReg.zero else t.setTile k TileReg.zero

/-- The last-use hints (R35): a and b where they name tile operands; a register that is the destination lives on. -/
def lastUse (h : Hdr) (a b dest : Option Nat) (s : State) : State :=
  let kill (on : Bool) (r : Option Nat) (s : State) : State :=
    match r with
    | some k => if on && dest != some k then s.modMe fun t => t.killReg k else s
    | none => s
  kill (h.lu.getLsbD 1) b (kill (h.lu.getLsbD 0) a s)

/-! ## Rows and trits -/

/-- Row `r` of a tile, and of an accumulator. -/
def tileRow (v : Tile) (r : Nat) : Nat := bits v.toNat (1024 * r) 1024
def accRow (v : Acc) (r : Nat) : Nat := bits v.toNat (2048 * r) 2048
def tileRows (v : Tile) : List Nat := unpackN 1024 64 v.toNat
def accRows (v : Acc) : List Nat := unpackN 2048 64 v.toNat
def ofTileRows (l : List Nat) : Tile := BitVec.ofNat 65536 (packN 1024 l)
def ofAccRows (l : List Nat) : Acc := BitVec.ofNat 131072 (packN 2048 l)

/-- The high bits of the trits 10 of an `n`-bit row, in place (R81). -/
def badTrits (n x : Nat) : Nat :=
  let hi := x &&& ((2 ^ n - 1) / 3 * 2)
  hi &&& ((2 ^ n - 1) ^^^ (2 * (x &&& ((2 ^ n - 1) / 3))))
/-- A row of 1,024 bits with each trit 10 written as 00. -/
def cleanRow (x : Nat) : Nat := x ^^^ badTrits 1024 x
/-- How many trits 10 a row holds. -/
def countRow (x : Nat) : Nat := if badTrits 1024 x = 0 then 0 else malformedTrits 512 x
def countRows (l : List Nat) : Nat := (l.map countRow).foldl (· + ·) 0

/-- ESTAT.MTRIT grows, saturating (R287). -/
def State.addTrits (s : State) (n : Nat) : State :=
  if n = 0 then s else s.modMe fun t => { t with estat := setFld t.estat 48 16 (min 65535 (fld t.estat 48 16 + n)) }

/-! ## Row accesses -/

/-- Who translates row `i` of the current strand's instruction (R267, R269). -/
def rowWho (s : State) (i : Nat) : Who := (s.who s.cur).row i (engineOf s.cur)

/-- The alignment of a row: 8 bytes on uncached and device pages (R267). -/
def rowAlign (va : Word) : Align := { va := va.toNat, n := 8, nat := false }
/-- The alignment of a pip row: 64 bytes everywhere (R289). -/
def pipAlign (va : Word) : Align := { va := va.toNat, n := 64, nat := true }

/-- Row `i` of `n` bytes read at the cluster place (R272). -/
def readRow (al : Word → Align) (n tmp i : Nat) (va : Word) (s : State) : Res Nat :=
  let w := rowWho s i
  let ps := rangeParts va n
  (checkParts w .load (al va) ps s).andThen fun _ s =>
    (markParts w .load (al va) false ps s).andThen fun ps s =>
      (settle w.key ps s).andThen fun _ s => readPieces w (coreOf w.key) .cluster tmp (s.tagOf w.key) va.toNat ps s

/-- A row load of the strand has read a row (R375), or has read its last. -/
def State.begun (s : State) (on : Bool) : State := s.modMe fun t => { t with inFlight := t.inFlight / 2 * 2 + b2n on }

/-- The values of a row load's rows, each with the state after it; the load has begun once a row has been read (R375). -/
def eachRow (f : Nat → State → Res Nat) (rows : Nat) (s : State) : Res (List Nat) :=
  (mapEach (fun i s => (f i s).andThen fun x s => .ok x (s.begun true)) (List.range rows) s).andThen fun xs s => .ok xs (s.begun false)

/-- The rows of a tile load, in ascending order: the lowest faulting row decides (R268). -/
def readRows (n tmp rows : Nat) (base stride : Word) (s : State) : Res (List Nat) :=
  eachRow (fun i s => readRow rowAlign n tmp i (rowAddr base stride i) s) rows s

/-- Row `i` checked as a store (R273). -/
def checkRow (n i : Nat) (va : Word) (s : State) : Res Unit := checkParts (rowWho s i) .store (rowAlign va) (rangeParts va n) s

/-- The physical address of a piece that has passed its checks. -/
def State.physOf (s : State) (w : Who) (k : Kind) (va : Nat) : Nat :=
  match s.lookup w k va with
  | .ok (t, _) => t.pa
  | .error _ => 0

/-- The parts of row `i` of a store as they will drain, its pages marked accessed and dirty. -/
def markRow (n x tmp i : Nat) (va : Word) (s : State) : Res (List DrainRow) :=
  let w := rowWho s i
  (markParts w .store (rowAlign va) true (rangeParts va n) s).andThen fun ps s =>
    .ok (ps.map fun p =>
      let o := (p.va + 2 ^ 64 - va.toNat) % 2 ^ 64
      { va := p.va, pa := s.physOf w .store p.va, n := p.n, key := p.key, attr := p.attr, data := bits x (8 * o) (8 * p.n),
        tmp := tmp }) s

/-- A tile or accumulator store (R268, R273): every row is checked, then the store retires and drains; `acc` and `phys` name
the physical tile that it reads, `xs` are the bytes of its rows, `tmp` is its temporal class (R34). -/
def storeRows (acc : Bool) (phys n tmp : Nat) (base stride : Word) (xs : List Nat) (s : State) : Res Unit :=
  (forEach (fun i s => checkRow n i (rowAddr base stride i) s) (List.range xs.length) s).andThen fun _ s =>
    (mapEach (fun i s => markRow n (xs.getD i 0) tmp i (rowAddr base stride i) s) (List.range xs.length) s).andThen fun rs s =>
      .ok () ((s.modMe fun t => { t with drains := t.drains ++ [{ acc := acc, phys := phys, rows := rs.flatten }] }).later
        .tileDrain (.num s.cur))

/-! ## tld and tst -/

/-- The stride of a literal form. -/
def litStride (lit : BitVec 32) : Word := lit64 lit

/-- The shape check of the t2 forms (R266). -/
def shapeCheck (t2 : Bool) (rows : BitVec 6) (rb : BitVec 4) (s : State) : Res Unit :=
  if t2 && shapeBytes rb % 16 != 0 then raise 0x0A 0 (shapeField rows rb) s else .ok () s

/-- `tld` (R272). -/
def tldOp (h : Hdr) (t2 : Bool) (d : R8) (a : R32) (stride : Word) (rows : BitVec 6) (rb : BitVec 4) (s : State) : Res Unit :=
  (shapeCheck t2 rows rb s).andThen fun _ s =>
    (poolRoom false s).andThen fun _ s =>
      (readRows (shapeBytes rb) h.tmp.toNat (shapeRows rows) (s.base a) stride s).andThen fun xs s =>
        .ok () (if t2 then (s.addTrits (countRows xs)).freshTile s.cur (tField d) (ofTileRows (xs.map cleanRow)) 0
                else s.freshTile s.cur (tField d) (ofTileRows xs) 0)

/-- `tst` (R273). -/
def tstOp (h : Hdr) (t2 : Bool) (d : R8) (a : R32) (stride : Word) (rows : BitVec 6) (rb : BitVec 4) (s : State) : Res Unit :=
  (shapeCheck t2 rows rb s).andThen fun _ s =>
    (sources [tField d] s).andThen fun _ s =>
      let n := shapeBytes rb
      let r := s.me.tile (tField d)
      let xs := (List.range (shapeRows rows)).map fun i => tileRow r.val i % 2 ^ (8 * n)
      storeRows false r.phys n h.tmp.toNat (s.base a) stride (if t2 then xs.map cleanRow else xs) s

/-- `tld` with a stride register (R271). -/
def execTld (h : Hdr) (d : R8) (a b : R32) (rows : BitVec 6) (rb : BitVec 4) (s : State) : Out :=
  guarded h 8 s fun s => tldOp h false d a (s.G b) rows rb s
/-- `tld` with a literal stride. -/
def execTldLiteral (h : Hdr) (d : R8) (a : R32) (rows : BitVec 6) (rb : BitVec 4) (lit : BitVec 32) (s : State) : Out :=
  guarded h 12 s fun s => tldOp h false d a (litStride lit) rows rb s
/-- `tld.t2` with a stride register. -/
def execTldT2 (h : Hdr) (d : R8) (a b : R32) (rows : BitVec 6) (rb : BitVec 4) (s : State) : Out :=
  guarded h 8 s fun s => tldOp h true d a (s.G b) rows rb s
/-- `tld.t2` with a literal stride. -/
def execTldT2Literal (h : Hdr) (d : R8) (a : R32) (rows : BitVec 6) (rb : BitVec 4) (lit : BitVec 32) (s : State) : Out :=
  guarded h 12 s fun s => tldOp h true d a (litStride lit) rows rb s
/-- `tst` with a stride register. -/
def execTst (h : Hdr) (d : R8) (a b : R32) (rows : BitVec 6) (rb : BitVec 4) (s : State) : Out :=
  guarded h 8 s fun s => tstOp h false d a (s.G b) rows rb s
/-- `tst` with a literal stride. -/
def execTstLiteral (h : Hdr) (d : R8) (a : R32) (rows : BitVec 6) (rb : BitVec 4) (lit : BitVec 32) (s : State) : Out :=
  guarded h 12 s fun s => tstOp h false d a (litStride lit) rows rb s
/-- `tst.t2` with a stride register. -/
def execTstT2 (h : Hdr) (d : R8) (a b : R32) (rows : BitVec 6) (rb : BitVec 4) (s : State) : Out :=
  guarded h 8 s fun s => tstOp h true d a (s.G b) rows rb s
/-- `tst.t2` with a literal stride. -/
def execTstT2Literal (h : Hdr) (d : R8) (a : R32) (rows : BitVec 6) (rb : BitVec 4) (lit : BitVec 32) (s : State) : Out :=
  guarded h 12 s fun s => tstOp h true d a (litStride lit) rows rb s

/-! ## Moves -/

/-- `tzero` (R274). -/
def execTzero (h : Hdr) (d : R8) (s : State) : Out :=
  guarded h 8 s fun s => .ok () (s.modMe fun t => t.setTile (tField d) TileReg.zero)

/-- `tmov` (R275): the two registers share a physical tile. -/
def execTmov (h : Hdr) (d a : R8) (s : State) : Out :=
  guarded h 8 s fun s => (sources [tField a] s).andThen fun _ s =>
    .ok () (lastUse h (some (tField a)) none (some (tField d))
      (s.modMe fun t => t.setTile (tField d) { t.tile (tField a) with disc := false }))

/-- `tr2v` (R276). -/
def execTr2v (h : Hdr) (d : R32) (a : R8) (row : BitVec 6) (hi : Bool) (s : State) : Out :=
  guarded h 8 s fun s => (sources [tField a] s).andThen fun _ s =>
    .ok () (lastUse h (some (tField a)) none none
      (s.setV d (BitVec.ofNat 512 (bits (s.me.tile (tField a)).val.toNat (1024 * row.toNat + 512 * b2n hi) 512))))

/-- `v2tr` (R276). -/
def execV2tr (h : Hdr) (d : R8) (a : R32) (row : BitVec 6) (hi : Bool) (s : State) : Out :=
  guarded h 8 s fun s => (sources [tField d] s).andThen fun _ s =>
    putTile (tField d) (BitVec.ofNat 65536
      (setBytes (s.me.tile (tField d)).val.toNat (128 * row.toNat + 64 * b2n hi) 64 (s.V a).toNat)) 0 s

/-- The registers that a `tdisc` list names (R277). -/
def discList (list : BitVec 14) : List Nat :=
  (List.range 14).filterMap fun i =>
    if list.getLsbD i then some (if i < 12 then 32 + i else if i = 12 then wField else wsField) else none

/-- The discardable bit of a register is set (R265). -/
def Strand.markDisc (t : Strand) (k : Nat) : Strand :=
  if 40 ≤ k ∧ k < 44 then t.setAcc k { t.acc k with disc := true } else t.setTile k { t.tile k with disc := true }

/-- `tdisc` (R277). -/
def execTdisc (h : Hdr) (list : BitVec 14) (s : State) : Out :=
  guarded h 8 s fun s => .ok () (s.modMe fun t => (discList list).foldl Strand.markDisc t)

/-- The word of `tstat` (R278). -/
def Strand.tstatWord (t : Strand) (k : Nat) : Word :=
  let acc := decide (40 ≤ k ∧ k < 44)
  let id := if acc then (t.acc k).phys else (t.tile k).phys
  let disc := if acc then (t.acc k).disc else (t.tile k).disc
  let shared := !acc && id != 0 && (t.tiles.filter fun e => e.1 != k).any fun e => e.2.phys == id
  let kind := if k < 40 then 0 else if acc then 1 else 2
  BitVec.ofNat 64 (kind * 2 ^ 5 + b2n shared * 2 ^ 4 + b2n disc * 2 ^ 3 + b2n (id == 0) * 2 ^ 2 + if t.draining k then 3 else 2)

/-- `tstat` (R278). -/
def execTstat (h : Hdr) (d : R32) (x : TileName) (s : State) : Out :=
  guarded h 8 s fun s =>
    .ok () (lastUse h (some (TileName.field x)) none none (s.setG d (s.me.tstatWord (TileName.field x))))

/-- The end of a drain (R260, R273): of the strand's oldest draining store, as far as a bell and its home let it go. -/
def execTileDrain (s : State) : Out := .next (match s.input with | .num key => s.drainOne key | _ => s)

end Sys2Proof.Machine
end

