-- ==== Sys2Proof/Machine/Engine.lean ====
section
/-!
DEFINITION. The matrix engine (R279 to R294): planes, products (R88 to R90), the choice among an engine's strands (R284), its
credits (R285), `leave` (R286), and the accumulator instructions.
-/
namespace Sys2Proof.Machine

/-! ## Products -/

/-- The mode code of a `tmul` or `wld` type (R281). -/
def engineMode : Ty → Nat
  | .e4m3 => 1
  | .e5m2 => 2
  | .i8 => 3
  | _ => 0

/-- The element width of a mode's plane. -/
def planeWidth (mode : Nat) : Nat := if mode = 0 then 16 else if mode = 4 then 2 else 8
/-- The rows W[k] of a plane image (R281): they follow one another in every mode. -/
def planeRows (mode : Nat) (v : Tile) : List (List Nat) :=
  let w := planeWidth mode
  (unpackN (64 * w) (1024 / w) v.toNat).map (unpackN w 64)
/-- The columns W[·][j]. -/
def columnsOf (rows : List (List Nat)) : List (List Nat) := (List.range 64).map fun j => rows.map fun r => r.getD j 0
/-- The activation rows A[i][·] from one tile, or the quad's four (R281). -/
def actRows (mode : Nat) (ts : List Tile) : List (List Nat) :=
  let w := if mode = 0 then 16 else 8
  (List.range 64).map fun i => ts.flatMap fun t => unpackN w (1024 / w) (tileRow t i)

/-- The floating format of a mode. -/
def modeFormat (mode : Nat) : FF := if mode = 0 then .bf16 else if mode = 1 then .e4m3 else .e5m2

/-- The eight block sums of R88 over `B` products each. -/
def blockSums (B : Nat) (a w : List FVal) : List Nat :=
  let ps := List.zipWith exactMul a w
  (List.range 8).map fun b => roundTo .f32 .rne (exactSum .rne ((ps.drop (B * b)).take B))

/-- The contribution y of R88. -/
def contribution (B : Nat) (a w : List FVal) : Nat :=
  match blockSums B a w with
  | [] => 0
  | y :: ys => ys.foldl (fadd .f32 .rne) y

/-- The contributions y of a `tmul`, by row (R88, R90). -/
def contributions (mode : Nat) (acts : List Tile) (plane : Tile) : List (List Nat) :=
  let A := actRows mode acts
  let W := columnsOf (planeRows mode plane)
  if mode < 3 then
    let F := modeFormat mode
    let W := W.map fun c => c.map (widen F)
    A.map fun a => let a := a.map (widen F); W.map (contribution (if mode = 0 then 8 else 16) a)
  else
    let W := W.map fun c => c.map (if mode = 4 then trit else sextN 8)
    A.map fun a => let a := a.map (sextN 8); W.map fun w => wrapN 32 ((List.zipWith (fun x y => x * y) a w).foldl (· + ·) 0)

/-- Contributions added into an accumulator (R88, R90). -/
def accumulate (mode : Nat) (ys : List (List Nat)) (old : Acc) : Acc :=
  let add (o y : Nat) : Nat := if mode < 3 then fadd .f32 .rne o y else (o + y) % 2 ^ 32
  ofAccRows (List.zipWith (fun y o => packN 32 (List.zipWith add (unpackN 32 64 o) y)) ys (accRows old))

/-- The accumulator after a `tmul` whose array nothing has upset (R291). -/
def product (mode : Nat) (acts : List Tile) (plane : Tile) (old : Acc) : Acc := accumulate mode (contributions mode acts plane) old

/-! ## Checksums (R92, R93) -/

/-- A value rounded to binary64, to nearest even (R92). -/
def round64 : FVal → FVal
  | .fin neg m e =>
    if m = 0 then .fin neg 0 0
    else
      let ex : Int := e + (Nat.log2 m : Int)
      let q : Int := (if ex < -1022 then -1022 else ex) - 52
      if q ≤ e then .fin neg m e else .fin neg (roundShift .rne neg m (q - e).toNat) q
  | v => v

/-- A sum in binary64, in ascending order of the index: the manual names no order (log 19). -/
def sum64 : List FVal → FVal
  | [] => .fin false 0 0
  | x :: xs => xs.foldl (fun s y => round64 (exactSum .rne [s, y])) x
/-- A sum of products in binary64. -/
def dot64 (xs ys : List FVal) : FVal := sum64 (List.zipWith (fun x y => round64 (exactMul x y)) xs ys)

/-- Whether a sum of contributions misses its check value by more than the tolerance of R93. -/
def beyond (sum check magnitude : FVal) : Bool :=
  fcompare (exactSum .rne [exactMul magnitude (.fin false 1 (-16)), .fin false 1 (-140)])
    (exactSum .rne [sum, check.negate]).abs == some .lt

/-- The check of one row or column: `xs` are its own operands, `ws` their partners' sums, `ms` the sums of the partners'
magnitudes, `ys` its contributions. -/
def lineBad (xs ws ms ys : List FVal) : Bool := beyond (sum64 ys) (dot64 xs ws) (dot64 (xs.map FVal.abs) ms)

/-- The first of 64 lines that is bad. -/
def firstBad (bad : Nat → Bool) : Option Nat := (List.range 64).find? bad

/-- The lowest-numbered row that mismatches, else the lowest-numbered column, which is marked (R92, R93, R280), of rows `A` and
`W` of operands and rows `Y` of contributions in a floating mode. -/
def floatMismatch (A W Y : List (List FVal)) : Option (Nat × Bool) :=
  let finite (l : List FVal) : Bool := l.all FVal.isFinite
  let cols (n : Nat) (l : List (List FVal)) : List (List FVal) := (List.range n).map fun j => l.map fun r => r.getD j (.fin false 0 0)
  let WC := cols 64 W
  let YC := cols 64 Y
  let AC := cols W.length A
  let at' (l : List (List FVal)) (i : Nat) : List FVal := l.getD i []
  let sums (l : List (List FVal)) : List FVal := l.map sum64
  let mags (l : List (List FVal)) : List FVal := l.map fun r => sum64 (r.map FVal.abs)
  let wOk := W.all finite
  let aOk := A.all finite
  let ws := sums W
  let wm := mags W
  match firstBad fun i => wOk && finite (at' A i) && finite (at' Y i) && lineBad (at' A i) ws wm (at' Y i) with
  | some i => some (i, false)
  | none =>
    let as := sums AC
    let am := mags AC
    (firstBad fun j => aOk && finite (at' WC j) && finite (at' YC j) && lineBad (at' WC j) as am (at' YC j)).map fun j => (j, true)

/-- The same in an integer mode, where every sum is taken modulo 2^32. -/
def intMismatch (A W : List (List Int)) (Y : List (List Nat)) : Option (Nat × Bool) :=
  let sum (l : List Int) : Int := l.foldl (· + ·) 0
  let dot (x y : List Int) : Nat := wrapN 32 (sum (List.zipWith (fun a b => a * b) x y))
  let cols (n : Nat) (l : List (List Int)) : List (List Int) := (List.range n).map fun j => l.map fun r => r.getD j 0
  let ws := W.map sum
  let as := (cols W.length A).map sum
  let WC := cols 64 W
  match firstBad fun i => wrapN 32 (sum ((Y.getD i []).map Int.ofNat)) != dot (A.getD i []) ws with
  | some i => some (i, false)
  | none => (firstBad fun j => wrapN 32 (sum (Y.map fun r => (r.getD j 0 : Int))) != dot (WC.getD j []) as).map fun j => (j, true)

/-- What the check row and the check column of a `tmul` find (R92, R93). -/
def mismatch (mode : Nat) (acts : List Tile) (plane : Tile) (ys : List (List Nat)) : Option (Nat × Bool) :=
  let A := actRows mode acts
  let W := planeRows mode plane
  if mode < 3 then
    let F := modeFormat mode
    floatMismatch (A.map fun r => r.map (widen F)) (W.map fun r => r.map (widen F)) (ys.map fun r => r.map (widen .f32))
  else intMismatch (A.map fun r => r.map (sextN 8)) (W.map fun r => r.map (if mode = 4 then trit else sextN 8)) ys

/-- Contributions of an array that is upset. -/
def upset (l : List (Nat × Nat × Nat)) (ys : List (List Nat)) : List (List Nat) :=
  l.foldl (fun ys e => ys.set e.1 ((ys.getD e.1 []).set e.2.1 (((ys.getD e.1 []).getD e.2.1 0) ^^^ (e.2.2 % 2 ^ 32)))) ys

/-! ## wld and wflip (R289, R290) -/

/-- `wflip` of a strand: w receives a fresh tile with ws's bytes and tag, and an array plane that holds ws's image is
retagged (R290). -/
def State.flipPlane (s : State) (key : Nat) : State :=
  let r := (s.strand key).tile wsField
  if r.phys = 0 then s.modStrand key fun t => t.setTile wField TileReg.zero
  else
    let id := (s.strand key).freshId false
    let s := s.freshTile key wField r.val r.tag
    s.modEngine (engineKey key) fun e =>
      { e with planes := e.planes.map fun p => if p = some (key, r.phys) then some (key, id) else p }

/-- A flip takes a physical tile unless ws is zero-mapped (R290). -/
def flipRoom (s : State) : Res Unit := if (s.me.tile wsField).phys = 0 then .ok () s else poolRoom false s

/-- `wld` from a tile (R289). -/
def wldTile (h : Hdr) (t2 : Bool) (tag : Nat) (a : R8) (s : State) : Res Unit :=
  (sources [tField a] s).andThen fun _ s =>
    let v := (s.me.tile (tField a)).val
    let rows := tileRows v
    (putTile wsField (if t2 then ofTileRows (rows.map cleanRow) else v) tag s).andThen fun _ s =>
      .ok () (lastUse h (some (tField a)) none (some wsField) (if t2 then s.addTrits (countRows rows) else s))

/-- `wld` from a tile in the type's mode (R289). -/
def execWld (h : Hdr) (ty : Ty) (a : R8) (s : State) : Out := guarded h 8 s fun s => wldTile h false (engineMode ty) a s
/-- `wld.t2` from a tile (R289). -/
def execWldT2 (h : Hdr) (a : R8) (s : State) : Out := guarded h 8 s fun s => wldTile h true 4 a s

/-- A `wld` from memory takes 4 credits before its first row and returns them after its last (R285); the drain admits it with
an estimate of 160 ns (R394), once: a row that a bell holds does not ask again. While it has no credits it waits with its request
in the queue. -/
def withLoadCredits (h : Hdr) (s : State) (f : State → Res Unit) : Out :=
  let c := clusterOf s.cur
  if !s.guard h then done 12 s (.ok () s)
  else if !s.drainAdmits 160 && s.me.inFlight % 2 == 0 then .next (s.refuseOp (.strand s.cur) c)
  else
    match s.askLeave (.strand s.cur) c 4 with
    | (false, s') => .next s'
    | (true, s') =>
      match f s' with
      | .ok _ s'' => .next ((s''.returnLeave c 4).modMe fun t => t.advance 12)
      | .trap e s'' => .next (s.takeTrap (s''.returnLeave c 4) e)
      | .wait s'' => .next { s'' with leaveGot := .strand s.cur :: s''.leaveGot }

/-- `wld.t2` from memory (R289). -/
def execWldT2Memory (h : Hdr) (a : R32) (lit : BitVec 32) (s : State) : Out :=
  withLoadCredits h s fun s =>
    (poolRoom false s).andThen fun _ s =>
      (readRows 128 h.tmp.toNat 64 (s.base a) (litStride lit) s).andThen fun xs s =>
        .ok () ((s.addTrits (countRows xs)).freshTile s.cur wsField (ofTileRows (xs.map cleanRow)) 4)

/-- One pip block read and decoded; a malformed block is an external abort of its row, with cause 0x06 and the block's
physical address (R86, R289). -/
def readPip (tmp i : Nat) (va : Word) (s : State) : Res Nat :=
  (readRow pipAlign 64 tmp i va s).andThen fun x s =>
    match pipDecode x with
    | some l => .ok (packN 16 l) s
    | none =>
      let w := rowWho s i
      match s.lookup w .load va.toNat with
      | .ok (t, _) => raiseBad w va.toNat (.abort 6 t.pa ((w.transKey t).getD 0)) s
      | .error b => raiseBad w va.toNat b s

/-- `wld.pip` (R289). -/
def execWldPip (h : Hdr) (a : R32) (lit : BitVec 32) (s : State) : Out :=
  withLoadCredits h s fun s =>
    (poolRoom false s).andThen fun _ s =>
      (eachRow (fun k s => readPip h.tmp.toNat k (rowAddr (s.base a) (litStride lit) k) s) 64 s).andThen fun xs s =>
        .ok () (s.freshTile s.cur wsField (ofTileRows xs) 0)

/-- `wflip` (R290). -/
def execWflip (h : Hdr) (s : State) : Out :=
  guarded h 8 s fun s => (sources [wsField] s).andThen fun _ s =>
    (flipRoom s).andThen fun _ s => .ok () (s.flipPlane s.cur)

/-! ## tmul (R284, R285, R291) -/

/-- The plane that a `tmul` multiplies by: w, or ws where it flips first. -/
def MulOp.plane (o : MulOp) (t : Strand) : TileReg := t.tile (if o.flip then wsField else wField)
/-- The activation tiles' field values. -/
def MulOp.acts (o : MulOp) : List Nat := if o.mode = 4 then (List.range 4).map fun i => o.a + i else [o.a]
/-- The credits of a mode (R285). -/
def modeCredits (mode : Nat) : Nat := if mode = 0 then 16 else if mode = 4 then 24 else 20
/-- The credits that an engine holds, borrowed ones included. -/
def Engine.credits (e : Engine) : Nat := e.held + (e.lent.map Lent.n).foldl (· + ·) 0

/-- The strand of index `i` (0 to 3) of an engine. -/
def engineStrand (k i : Nat) : Nat := keyOf (k / 512) (k % 512 * 4 + i)
/-- The waiting `tmul` of a strand that is eligible to the choice (R284, R285). -/
def State.eligible (s : State) (k i : Nat) : Option MulOp :=
  let key := engineStrand k i
  match (s.strand key).mul with
  | none => none
  | some o =>
    if (s.strand key).run == .running && o.bad.isNone && s.bankOn (clusterOf key) == some (bankOf key)
        && (!o.aside || decide (modeCredits o.mode ≤ (s.engine k).credits)) then some o
    else none

/-- The first strand after the one last granted, in cyclic order, among those of `l`. -/
def afterLast (last : Nat) (l : List Nat) : Option Nat :=
  ((List.range 4).map fun j => (last + 1 + j) % 4).find? fun i => l.contains i

/-- The pick of R284 among the eligible strands of `l`. -/
def State.pick (s : State) (k : Nat) (l : List Nat) : Option Nat :=
  let e := s.engine k
  match l.find? fun i => decide (16 ≤ e.passes.getD i 0) with
  | some i => some i
  | none =>
    let cls (i : Nat) : Nat := fld (s.strand (engineStrand k i)).ebind 0 2
    let top := (l.map cls).foldl max 0
    afterLast e.last (l.filter fun i => cls i == top)

/-- The counts of passes after a grant to strand `i`, `l` being the strands that had an eligible operation (R284): one that had none
begins anew (log 135). -/
def passesAfter (passes : List Nat) (i : Nat) (l : List Nat) : List Nat :=
  (List.range 4).map fun j => if j = i then 0 else if l.contains j then passes.getD j 0 + 1 else 0

/-- The credits that a `tmul` lacks (R285). -/
def State.lacking (s : State) (k : Nat) (o : MulOp) : Nat := modeCredits o.mode - (s.engine k).credits

/-- Credits for the `tmul` of a strand that lacks them (R285, R286): borrowed from its reservation as far as that reaches, the rest
asked of the leave unit. It stays set aside until the engine holds them. -/
def State.takeCredits (s : State) (k key : Nat) (o : MulOp) : State :=
  let need := s.lacking k o
  let t := s.strand key
  let b := min need (fld t.estat 0 8 - s.lentBy key)
  let s := if b = 0 then s else s.modEngine k fun e => { e with lent := e.lent ++ [{ key := key, resv := t.resv, n := b }] }
  if b = need then s
  else
    match s.askLeave (.engine k key) (clusterOf key) (need - b) with
    | (true, s) => s.modEngine k fun e => { e with held := e.held + (need - b) }
    | (false, s) => s.modStrand key fun t => { t with mul := some { o with aside := true } }

/-- The time that a `tmul` takes in its engine, and the array planes after it (R279, R283): a plane image that neither array
plane holds is loaded into the one not in use. -/
def State.engineTime (s : State) (k key : Nat) (id extra : Nat) : State :=
  let e := s.engine k
  let held := id == 0 || e.planes.contains (some (key, id))
  let planes := if id = 0 then e.planes
    else some (key, id) :: ((if held then e.planes.filter fun p => p != some (key, id) else e.planes).take 1)
  let t := max s.clk e.freeAt + (if held then 64 else 128) + extra
  s.setEngine k { e with planes := planes, freeAt := t, lastEnd := t }

/-- ESTAT.RERUN grows, saturating (R280, R287). -/
def State.addRerun (s : State) (key : Nat) : State :=
  s.modStrand key fun t => { t with estat := setFld t.estat 32 16 (min 65535 (fld t.estat 32 16 + 1)) }

/-- XINFO of R280. -/
def checkInfo (index : Nat) (column : Bool) (mode : Nat) : Nat := mode % 8 * 2 ^ 8 + b2n column * 2 ^ 6 + index % 64

/-- The record of a checksum mismatch (R280, R402). UNIT of the engines' bank holds the engine (R404): the registers of a bank have
no field for the strand (log 119). -/
def mismatchEvent (s : State) (key code cls info : Nat) : McEvent :=
  { code := code, bank := 8 * didOf key + 1, cls := cls, part := (s.partOf key).getD 0, unit := engineOf key, addr := none, key := 0,
    syn := some (BitVec.ofNat 64 info), kills := none }

/-- The activation tiles of a waiting `tmul`, and the plane image that it multiplies by: a flip from a zero-mapped ws makes w
zero-mapped. -/
def MulOp.tiles (o : MulOp) (t : Strand) : List Tile := o.acts.map fun k => (t.tile k).val
def MulOp.image (o : MulOp) (t : Strand) : Tile := let p := o.plane t; if o.flip && p.phys == 0 then 0 else p.val

/-- The effect of a `tmul` with the contributions that have passed its check (R291): the flip, the product, the last use, and the
next instruction. -/
def State.mulDone (s : State) (key : Nat) (o : MulOp) (ys : List (List Nat)) : State :=
  let s := if o.flip then s.flipPlane key else s
  let s := s.freshAcc key o.d (accumulate o.mode ys ((s.strand key).acc o.d).val)
  s.modStrand key fun t =>
    let t := if o.kill then t.killReg o.a else t
    { t with mul := none }.advance o.len

/-- The engine check of a `tmul` whose rerun has mismatched too: it is raised with a contained record once the strand's drains have
ended, and the `tmul` waits with them (R270, R280); the engine goes on with the others. -/
def State.mulTrap (s : State) (key : Nat) (o : MulOp) (info : Nat) : State :=
  let w := s.drainAll key
  if !w.releaseDone key .core then w.modStrand key fun t => { t with mul := some { o with bad := some info } }
  else (w.raiseCheck (mismatchEvent w key 0x21 2 info)).trapEnter key (w.strand key).pc { cause := 0x0B, addr := 0, info := BitVec.ofNat 64 info }

/-- The chosen `tmul` executes (R280, R284): on a mismatch it runs once more, which is logged as corrected; on a second one it
raises engine check. -/
def State.runMul (s : State) (k i : Nat) (o : MulOp) (l : List Nat) : State :=
  let key := engineStrand k i
  let t := s.strand key
  let chk := Tab.get EngineCheck.pass s.engineCheck k
  let s := s.modEngine k fun e => { e with last := i, passes := passesAfter e.passes i l }
  let s := { s with engineCheck := Tab.set EngineCheck.pass s.engineCheck k .pass }
  let ys := contributions o.mode (o.tiles t) (o.image t)
  let check (ys : List (List Nat)) : Option (Nat × Bool) := mismatch o.mode (o.tiles t) (o.image t) ys
  let phys := (o.plane t).phys
  match check (upset chk.first ys) with
  | none => (s.engineTime k key phys 0).mulDone key o (upset chk.first ys)
  | some (i1, c1) =>
    let s := (s.engineTime k key phys 64).addRerun key
    let s := s.raiseCheck (mismatchEvent s key 0x20 1 (checkInfo i1 c1 o.mode))
    match check (upset chk.rerun ys) with
    | none => s.mulDone key o (upset chk.rerun ys)
    | some (i2, c2) => s.mulTrap key o (checkInfo i2 c2 o.mode)

/-- The choice of R284 among the operations eligible, but for those of `out`: a pick that lacks credits is no grant; it is set aside,
and the choice goes on among the rest. One that has its credits by then rejoins the choice after it. -/
def engineChoose (k : Nat) : Nat → List Nat → State → State
  | 0, _, s => s
  | fuel + 1, out, s =>
    let all := (List.range 4).filter fun i => (s.eligible k i).isSome
    let l := all.filter fun i => !out.contains i
    match s.pick k l with
    | none => if all.isEmpty then s else engineChoose k fuel [] s
    | some i =>
      match s.eligible k i with
      | none => s
      | some o =>
        let key := engineStrand k i
        if s.lacking k o = 0 then (s.dropLeave (.engine k key) (clusterOf key) 0).runMul k i o l
        else engineChoose k fuel (i :: out) (s.takeCredits k key o)

/-- An engine chooses its next operation, once its array is free (R284). Each strand is set aside at most once in a choice. -/
def engineTurn (k : Nat) (s : State) : State := if (s.engine k).freeAt ≤ s.clk then engineChoose k 6 [] s else s

/-- A `tmul` of the current strand: its checks, and its place among the engine's operations; it stays there until the engine
chooses it (R291). -/
def queueMul (h : Hdr) (mode d a : Nat) (flip : Bool) (s : State) : Res Unit :=
  if s.me.mul.isSome then .ok () s
  else
    let o : MulOp := { mode := mode, d := d, a := a, flip := flip, kill := h.lu.getLsbD 0, len := 8, aside := false }
    let p := o.plane s.me
    if p.phys ≠ 0 ∧ p.tag ≠ mode then raise 0x0A 0 (p.tag + 16 * mode) s
    else
      (sources (d :: (if flip then [wsField] else []) ++ wField :: o.acts) s).andThen fun _ s =>
        (poolRoom true s).andThen fun _ s =>
          (if flip then flipRoom s else .ok () s).andThen fun _ s => .ok () (s.modMe fun t => { t with mul := some o })

/-- A `tmul` and the choice of its engine (R284, R291). -/
def tmulOp (h : Hdr) (mode d a : Nat) (flip : Bool) (s : State) : Out :=
  if !s.guard h then done 8 s (.ok () s)
  else
    match queueMul h mode d a flip s with
    | .ok _ s' =>
      .next (match s'.me.mul.bind fun o => o.bad.map fun info => (o, info) with
        | some (o, info) => s'.mulTrap s'.cur o info
        | none => engineTurn (engineKey s'.cur) s')
    | .trap e s' => .next (s.takeTrap s' e)
    | .wait s' => .next s'

/-- The first tile of a quad (R291). -/
def quadField (hi : Bool) : Nat := if hi then 36 else 32

/-- `tmul` in a type's mode (R291). -/
def execTmul (h : Hdr) (ty : Ty) (d : R4) (a : R8) (s : State) : Out := tmulOp h (engineMode ty) (aField d) (tField a) false s
/-- `tmul.t2i8` (R291). -/
def execTmulT2i8 (h : Hdr) (d : R4) (hi : Bool) (s : State) : Out := tmulOp h 4 (aField d) (quadField hi) false s
/-- `tmul.flip` in a type's mode (R291). -/
def execTmulFlip (h : Hdr) (ty : Ty) (d : R4) (a : R8) (s : State) : Out := tmulOp h (engineMode ty) (aField d) (tField a) true s
/-- `tmul.flip.t2i8` (R291). -/
def execTmulFlipT2i8 (h : Hdr) (d : R4) (hi : Bool) (s : State) : Out := tmulOp h 4 (aField d) (quadField hi) true s

/-- `ENGINE_CHOICE` (R284): an engine, by its bank, chooses; what upsets its array is the step's operand (R280). -/
def execEngineChoice (s : State) : Out :=
  .next (match s.input with
    | .engine k chk => engineTurn k { s with engineCheck := Tab.set EngineCheck.pass s.engineCheck k chk }
    | _ => s)

/-- Whether a stream has ended (R285): no strand has an unexecuted `tmul`, and 256 clk have passed since the last. -/
def State.streamOver (s : State) (k : Nat) : Bool :=
  decide ((s.engine k).lastEnd + 256 ≤ s.clk) && (List.range 4).all fun i => (s.strand (engineStrand k i)).mul.isNone

/-- A stream closes (R286): borrowed credits go back to the reservations that still stand, the rest to the leave unit. -/
def State.closeStream (s : State) (k : Nat) : State :=
  let e := s.engine k
  let gone := (e.lent.filter fun l => l.resv != (s.strand l.key).resv).map Lent.n
  (s.setEngine k { e with held := 0, lent := [] }).returnLeave (k % 512 / 2) (e.held + gone.foldl (· + ·) 0)

/-- `ENGINE_STREAM_END` (R285, R286). -/
def execEngineStreamEnd (s : State) : Out :=
  .next (match s.input with
    | .num k => if !s.streamOver k then s else s.closeStream k
    | _ => s)

/-- What a granted owner does: an engine holds its credits and its `tmul` rejoins the choice; the others take them up at
their next step (R285, R401). -/
def State.granted (s : State) (r : LeaveReq) : State :=
  match r.owner with
  | .engine k key => (s.modEngine k fun e => { e with held := e.held + r.n }).modStrand key fun t =>
      { t with mul := t.mul.map fun o => { o with aside := false } }
  | .channel ch => { s with leaveGot := s.leaveGot ++ [r.owner] }.chanLater ch
  | .part c _ => { s with leaveGot := s.leaveGot ++ [r.owner] }.later .rpartCommit (.num c)
  | _ => { s with leaveGot := s.leaveGot ++ [r.owner] }

/-- A request of an engine whose `tmul` has been withdrawn waits for nothing (R262). -/
def State.withdrawn (s : State) (r : LeaveReq) : Bool :=
  match r.owner with
  | .engine _ key => (s.strand key).mul.isNone
  | _ => false

/-- The requests of operations that the drain does not let begin leave the queue (R401). -/
def State.drainQueue (s : State) : State :=
  (s.leaveQ.filter fun r => !s.leaveAdmits r.owner).foldl (fun s r => s.refuseOp r.owner r.cluster) s

/-- `LEAVE_GRANT` (R401): the oldest request that can be granted is granted. -/
def execLeaveGrant (s : State) : Out :=
  let s := ({ s with leaveQ := s.leaveQ.filter fun r => !s.withdrawn r }).drainQueue
  .next (match s.leaveNext [] s.leaveQ with
    | none => s
    | some r => ((({ s with leaveQ := s.leaveQ.erase r }).moveCredits r.cluster r.n).granted r).leaveLook)

/-! ## leave (R286) -/

/-- `leave` (R286). -/
def execLeave (h : Hdr) (d : R32) (n : BitVec 6) (s : State) : Out :=
  guarded h 8 s fun s =>
    let c := clusterOf s.cur
    let cred := fld s.me.estat 0 8
    .ok () (
      if n.toNat = 0 then s.setG d 0
      else if s.clusterBudget c < cred + n.toNat then s.setG d 2
      else if s.leaveNow c n.toNat then
        ((s.moveCredits c n.toNat).modMe fun t => { t with estat := setFld t.estat 0 8 (cred + n.toNat) }).setG d 0
      else s.setG d 1)

/-- `leave.ret` (R286). -/
def execLeaveRet (h : Hdr) (s : State) : Out := guarded h 8 s fun s => .ok () (s.returnReservation s.cur)

/-! ## Accumulator instructions (R292 to R294) -/

/-- An accumulator from the elements of one or two others. -/
def mapAcc (f : Nat → Nat) (v : Acc) : Acc := BitVec.ofNat 131072 (packN 32 ((unpackN 32 4096 v.toNat).map f))
def zipAcc (f : Nat → Nat → Nat) (v w : Acc) : Acc :=
  BitVec.ofNat 131072 (packN 32 (List.zipWith f (unpackN 32 4096 v.toNat) (unpackN 32 4096 w.toNat)))

/-- `azero` (R292). -/
def execAzero (h : Hdr) (d : R4) (s : State) : Out := guarded h 8 s fun s => putAcc (aField d) 0 s

/-- `aadd` over an element operation. -/
def aaddOp (h : Hdr) (d a b : R4) (f : Nat → Nat → Nat) (s : State) : Res Unit :=
  (sources [aField a, aField b] s).andThen fun _ s =>
    (putAcc (aField d) (zipAcc f (s.me.acc (aField a)).val (s.me.acc (aField b)).val) s).andThen fun _ s =>
      .ok () (lastUse h (some (aField a)) (some (aField b)) (some (aField d)) s)

/-- `aadd.f32` (R292). -/
def execAaddF32 (h : Hdr) (d a b : R4) (s : State) : Out := guarded h 8 s fun s => aaddOp h d a b (fadd .f32 .rne) s
/-- `aadd.i32` (R292). -/
def execAaddI32 (h : Hdr) (d a b : R4) (s : State) : Out :=
  guarded h 8 s fun s => aaddOp h d a b (fun x y => (x + y) % 2 ^ 32) s

/-- `ascale.f32` (R292). -/
def execAscale (h : Hdr) (d a : R4) (b : R32) (s : State) : Out :=
  guarded h 8 s fun s => (sources [aField a] s).andThen fun _ s =>
    let y := (s.G b).toNat % 2 ^ 32
    (putAcc (aField d) (mapAcc (fun x => fmul .f32 .rne x y) (s.me.acc (aField a)).val) s).andThen fun _ s =>
      .ok () (lastUse h (some (aField a)) none (some (aField d)) s)

/-- `ald` (R293): both types load the same bits. -/
def execAld (h : Hdr) (_ty : Ty) (d : R4) (a b : R32) (s : State) : Out :=
  guarded h 8 s fun s => (poolRoom true s).andThen fun _ s =>
    (readRows 256 h.tmp.toNat 64 (s.base a) (s.G b) s).andThen fun xs s => .ok () (s.freshAcc s.cur (aField d) (ofAccRows xs))

/-- One element of an accumulator converted (R294). -/
def accConvert (ty : Ty) (clamp : Bool) (x : Nat) : Nat :=
  match ty with
  | .i8 => wrapN 8 (satInt true 8 (if clamp && decide (sextN 32 x < 0) then 0 else sextN 32 x))
  | .n8 => wrapN 8 (satInt false 8 (if clamp && decide (sextN 32 x < 0) then 0 else sextN 32 x))
  | ty =>
    let v := widen .f32 x
    let x := if clamp && !v.isNan && v.neg then 0 else x
    match ty with
    | .bf16 | .e4m3 | .e5m2 =>
      let F := ffOf ty
      let v := widen .f32 x
      let r := roundTo F .rne v
      if v.isFinite && bits r 0 (F.width - 1) == F.inf then signBit F v.neg + F.maxFin else r
    | _ => x

/-- The width of a converted element. -/
def accWidth (ty : Ty) : Nat := match ty with | .bf16 => 16 | .i8 | .n8 | .e4m3 | .e5m2 => 8 | _ => 32
/-- The converted rows of an accumulator. -/
def accConverted (ty : Ty) (clamp : Bool) (v : Acc) : List Nat :=
  (accRows v).map fun r => packN (accWidth ty) ((unpackN 32 64 r).map (accConvert ty clamp))

/-- `ast` (R294). -/
def execAst (h : Hdr) (ty : Ty) (clamp : Bool) (d : R4) (a b : R32) (s : State) : Out :=
  guarded h 8 s fun s => (sources [aField d] s).andThen fun _ s =>
    let r := s.me.acc (aField d)
    storeRows true r.phys (8 * accWidth ty) h.tmp.toNat (s.base a) (s.G b) (accConverted ty clamp r.val) s

/-- `a2t` (R294). -/
def execA2t (h : Hdr) (ty : Ty) (clamp : Bool) (d : R8) (a : R4) (s : State) : Out :=
  guarded h 8 s fun s => (sources [aField a] s).andThen fun _ s =>
    (putTile (tField d) (ofTileRows (accConverted ty clamp (s.me.acc (aField a)).val)) 0 s).andThen fun _ s =>
      .ok () (lastUse h (some (aField a)) none none s)

end Sys2Proof.Machine
end

