-- ==== Sys2Proof/Machine/Traps.lean ====
section
/-!
DEFINITION. The control instructions (R376, R377), asynchronous causes (R374, R375), pre-emption (R378), the partition swap
(R384) and the death of a task (R385).
-/
namespace Sys2Proof.Machine

/-! ## Control instructions (R377) -/

/-- `trap` (R377): it retires, and then the strand enters cause 0x10. -/
def execTrap (n : BitVec 5) (s : State) : Out :=
  let s := s.drainAll s.cur
  .next (if s.releaseDone s.cur .core then
      s.trapEnter s.cur (s.me.pc + 4) { cause := 0x10, addr := 0, info := BitVec.ofNat 64 n.toNat }
    else s)

/-- `tret` (R377): an illegal instruction while a trap is unacknowledged. -/
def execTret (s : State) : Out :=
  privileged s (.next (
    if s.me.xlvl ≠ 0 then s.takeTrap s (illegalExc s)
    else
      let s := s.drainAll s.cur
      if s.releaseDone s.cur .core then s.trapReturn s.cur else s))

/-- `tack` (R373). -/
def execTack (s : State) : Out := privileged s (done 4 s (.ok () (s.modMe fun t => { t with xlvl := 0 })))

/-- `halt` (R377): it retires and stops issue. -/
def execHalt (s : State) : Out :=
  privileged s (done 4 s (.ok () (s.modMe fun t => { t with run := .halted })))

/-- Whether a `yield` saves its strand (R377). -/
def Strand.yields (t : Strand) : Bool := bit t.xprq 0 && !t.sup && t.xlvl == 0

/-- `yield` (R377): a `nop`, or the save of the strand with the next instruction's address. -/
def execYield (s : State) : Out :=
  if s.me.yields && (s.taskAt s.cur).isSome then .next (s.saveAt s.cur (s.me.pc + 4) 0) else done 4 s (.ok () s)

/-! ## Asynchronous causes (R374, R375) -/

/-- The cause that is taken first, with the strand in which it is no longer pending (R370, R374). -/
def Strand.asyncCause (t : Strand) : Option (Exc × Strand) :=
  let clear (b : Nat) : Strand := { t with xmask := setFld t.xmask b 1 0 }
  match t.debugPend with
  | some i => some ({ cause := 0x16, addr := 0, info := BitVec.ofNat 64 i }, { t with debugPend := none })
  | none =>
    match t.overrun with
    | some (time, i) => some ({ cause := 0x12, addr := BitVec.ofNat 64 time, info := BitVec.ofNat 64 i }, { t with overrun := none })
    | none =>
      if bit t.xmask 10 && bit t.xmask 2 then some ({ cause := 0x14, addr := 0, info := 2 }, clear 10)
      else if bit t.xmask 8 && bit t.xmask 0 then some ({ cause := 0x14, addr := 0, info := 0 }, clear 8)
      else if bit t.xmask 9 && bit t.xmask 1 then some ({ cause := 0x15, addr := t.notice, info := 0 }, clear 9)
      else none

/-- Whether a strand may take an asynchronous cause (R374). -/
def Strand.interruptible (t : Strand) : Bool := t.xlvl == 0 && (!t.sup || bit t.xmask 3)

/-- Whether a strand is at an interrupt point (R375): it runs or has halted, its bank is active, no fatal event has stopped
it, it waits for no remote value and for no fate of a message (R364), no row load of it has begun (R270), and its instruction
awaits no acknowledgement of a write that it has performed (R130). -/
def State.atPoint (s : State) (key : Nat) : Bool :=
  let t := s.strand key
  !s.fatal && (t.run == .running || t.run == .halted) && s.bankOn (clusterOf key) == some (bankOf key) && t.remote.isNone
    && !t.posting && t.inFlight % 2 == 0 && t.performed.isNone

/-- The cause that a strand takes at its interrupt point, if there is one. -/
def State.interruptFor (s : State) (key : Nat) : Option (Exc × Strand) :=
  if s.atPoint key && (s.strand key).interruptible then (s.strand key).asyncCause else none

/-- A strand takes its asynchronous cause: XPC holds the next instruction (R369). Trap entry is a release, so the handler begins
once the strand's stores have drained (R270). -/
def State.takeInterrupt (s : State) (key : Nat) : State :=
  match s.interruptFor key with
  | none => s
  | some _ =>
    let s := s.drainAll key
    if !s.releaseDone key .core then s
    else
      match s.interruptFor key with
      | some (e, t) => (s.setStrand key t).trapEnter key t.pc e
      | none => s

/-- `INTERRUPT` of a strand (R375). -/
def execInterrupt (s : State) : Out := .next (match s.input with | .num key => s.takeInterrupt key | _ => s)

/-- `TIMER_EXPIRY` of a strand (R370). -/
def execTimerExpiry (s : State) : Out :=
  .next (match s.input with
    | .num key => s.modStrand key fun t =>
        if bit t.xctl 1 && s.time / 2 ^ 10 % 2 ^ 32 == fld t.xctl 32 32 then
          { t with xmask := t.xmask ||| 0x100, xctl := setFld t.xctl 1 1 0 }
        else t
    | _ => s)

/-! ## Pre-emption (R378) -/

/-- Raises (1) or withdraws (0) the request of the task that runs on a strand. -/
def State.writeXprq (s : State) (key on : Nat) : State :=
  match s.taskAt key with
  | some t => s.requestSave t (on == 1)
  | none => s

/-- `XPRQ_WRITE`: a strand, and 1 or 0. -/
def execXprqWrite (s : State) : Out := .next (match s.input with | .num2 key on => s.writeXprq key on | _ => s)

/-- Whether the deadline of a strand has expired. -/
def Strand.expired (t : Strand) : Bool := bit t.xprq 0 && fld t.xpdl 32 32 == 0 && !t.sup && t.xlvl == 0

/-- `FORCED_PREEMPTION` of a strand: an asynchronous cause that is pending at the same point is taken first. -/
def execForcedPreemption (s : State) : Out :=
  .next (match s.input with
    | .num key =>
      if !(s.strand key).expired || !s.atPoint key then s
      else if (s.interruptFor key).isSome then s.takeInterrupt key
      else s.saveAt key (s.strand key).pc 0x13
    | _ => s)

/-! ## Partition swap (R384) -/

/-- The strands of a bank on a cluster stop at their interrupt points: their stores drain, past a bell where one holds them, a
`tmul` that has not been chosen executes again later, and a pending bell overrun is discarded (R396). -/
def State.stopBank (s : State) (bank c : Nat) : State :=
  (sidsOf c).foldl (fun s sid =>
    let key := keyOf bank sid
    (s.setAside key).modStrand key fun t => { t with mul := none, overrun := none, inFlight := 0 }) s

/-- The channels of a bank on a cluster go on. -/
def State.wakeChans (s : State) (bank c : Nat) : State :=
  (List.range 8).foldl (fun s ch => s.chanLater (chanKey bank c ch)) s

/-- The strands of a bank on a cluster that are in the middle of an instruction which has begun: outside a bell they complete it before
the bank changes (R375, R384); a bell, which delays no swap, leaves them where they are. -/
def State.midway (s : State) (c : Nat) : List Nat :=
  match s.bankOn c with
  | none => []
  | some b =>
    if s.bellIn then []
    else
      ((sidsOf c).map (keyOf b)).filter fun key =>
        let t := s.strand key
        t.run == .running && (t.inFlight % 2 == 1 || t.posting || t.performed.isSome || t.remote.isSome)

/-- One cluster changes to the bank of partition `q`, where `q` holds it. -/
def State.swapCluster (s : State) (q c : Nat) : State :=
  if !(s.partEnabled q && s.partHasCluster q c) then s
  else
    let s := match s.bankOn c with | some b => s.stopBank b c | none => s
    (({ s with activeBank := Tab.set 0 s.activeBank c (s.partBank q + 1) }).wakeChans (s.partBank q) c).later .taskPlacement (.num2 q c)

/-- ACT of every partition: its bank is the active one on every one of its clusters (R435). -/
def State.setActs (s : State) : State :=
  (List.range 16).foldl (fun s q =>
    let on := s.partEnabled q && (s.clustersOf q).all fun c => s.bankOn c == some (s.partBank q)
    s.hubSetFld (ptAddr q) 60 1 (b2n on)) s

/-- `PARTITION_SWAP`: a partition and the clusters that it takes. A cluster with a strand in the middle of an instruction follows once
that strand has had its turns. -/
def execPartitionSwap (s : State) : Out :=
  .next (match s.input with
    | .list (q :: cs) =>
      let rest := cs.filter fun c => !(s.midway c).isEmpty
      let t := ((cs.filter fun c => (s.midway c).isEmpty).foldl (fun s c => s.swapCluster q c) s).setActs
      if rest.isEmpty then t
      else ({ t with agenda := t.agenda ++ (rest.flatMap s.midway).map Move.strand }).later .partitionSwap (.list (q :: rest))
    | _ => s)

/-- `XCTL_KILL` (R385): the task of a strand dies, with the CAUSE and STATUS of its notice. -/
def execXctlKill (s : State) : Out :=
  .next (match s.input with | .num3 key cause status => s.killAt key cause (BitVec.ofNat 64 status) | _ => s)

end Sys2Proof.Machine
end

