-- ==== Sys2Proof/Machine/Execution.lean ====
section
/-!
DEFINITION. Execution (R342 to R366): the cast packet and `cast`, and `exit`, `gong`, `post`, `take` and `prio`.
-/
namespace Sys2Proof.Machine

/-! ## The cast packet (R344) -/

/-- Word `i` of a packet. -/
def pkWord (x i : Nat) : Nat := elemN x 64 i

/-- Whether a packet keeps R344 (R361's status 3 otherwise). -/
def packetOk (x : Nat) : Bool :=
  let shape := pkWord x 4
  let gsz := bits shape 0 7
  let mode := bits shape 8 2
  let stksz := bits (pkWord x 3) 0 32
  pkWord x 0 % 4 == 0 && pkWord x 0 / 2 ^ 55 == 0 && pkWord x 2 % 64 == 0
    && stksz != 0 && stksz % 64 == 0 && bits (pkWord x 3) 32 32 != 0
    && decide (1 ≤ gsz) && decide (gsz ≤ 64) && bits shape 7 1 == 0 && mode != 3 && bits shape 10 2 == 0 && bits shape 15 49 == 0
    && decide (pkWord x 5 ≤ 2 ^ 32) && (if mode = 2 then pkWord x 6 % 8 == 0 else pkWord x 6 == 0)
    && pkWord x 7 % 64 == 0 && pkWord x 8 % 8 == 0 && pkWord x 9 != 0 && pkWord x 10 % 128 == 0 && bits x 704 320 == 0

/-- The dies of S (R347). -/
def State.castDies (s : State) (part gsz : Nat) : List Nat :=
  (List.range 4).filter fun d =>
    let n := ((s.clustersOf part).filter fun c => c / 64 == d).length
    decide ((gsz + 7) / 8 ≤ n) && n != 0

/-- The first task index of a die's share, by its rank, that the dispatcher looks at, and the index after the last (R347). -/
def shareStart (mode n D k : Nat) : Nat :=
  if mode = 0 then k * (n / D) + min k (n % D) else if mode = 1 then k else 0
def shareLimit (mode n D k : Nat) : Nat :=
  if mode = 0 then shareStart 0 n D k + n / D + (if k < n % D then 1 else 0) else n
/-- How far the dispatcher goes to the next index. -/
def shareStep (mode D : Nat) : Nat := if mode = 1 then D else 1

/-- Whether a tag range breaks R346: it passes 2^64, or overlaps the range of a live cast; an empty range overlaps nothing. -/
def State.tagsClash (s : State) (part tagb n : Nat) : Bool :=
  decide (tagb + n > 2 ^ 64) || s.casts.any fun c =>
    c.part == part && n != 0 && c.count != 0 && decide (tagb < c.tagb + c.count) && decide (c.tagb < tagb + n)

/-- Who casts: the partition, the address space that the cast captures (R345), the task, and the capability table it hands
on (R388). -/
structure Caster where
  part : Nat
  ptbase : Word
  asn : Word
  keyl : Word
  keys : List (Option Nat)
  parent : Option Nat
  caps : Tab Cap

/-- The fate of a packet that has been read (R361): its status, and the machine with the cast begun. -/
def castPacket (k : Caster) (pk x : Nat) (s : State) : Nat × State :=
  let shape := pkWord x 4
  let gsz := bits shape 0 7
  let n := pkWord x 5
  let dies := s.castDies k.part gsz
  if !packetOk x then (3, s)
  else if dies.isEmpty then (4, s)
  else if decide (64 ≤ (s.casts.filter fun c => c.part == k.part).length) then (1, s)
  else if s.tagsClash k.part (pkWord x 9) n then (2, s)
  else
    let mode := bits shape 8 2
    let c : Cast :=
      { id := s.castSeq, part := k.part, packet := pk, entry := BitVec.ofNat 64 (pkWord x 0), arg := BitVec.ofNat 64 (pkWord x 1),
        stkb := BitVec.ofNat 64 (pkWord x 2), stksz := bits (pkWord x 3) 0 32, nslot := bits (pkWord x 3) 32 32, gsz := gsz,
        dmode := mode, prio := bits shape 12 3, count := n, harg := pkWord x 6, notq := pkWord x 7, ccnt := pkWord x 8,
        tagb := pkWord x 9, mbox := pkWord x 10, ptbase := k.ptbase, asn := k.asn, keyl := k.keyl, keys := k.keys, dies := dies,
        next := (List.range dies.length).map fun r => (shareStart mode n dies.length r, 0), ended := dies.map fun _ => 0,
        reported := [], parent := k.parent, caps := k.caps }
    let s := { s with casts := s.casts ++ [c], castSeq := s.castSeq + 1 }
    (0, dies.foldl (fun s d => (s.later .taskDistribution (.num2 k.part d)).later .shareEnd (.num2 c.id d)) s)

/-- The checks of a packet address (R361). -/
def packetAddr (pk : Word) (s : State) : Res Unit :=
  if fld pk 55 9 ≠ 0 then raise 0x04 pk 1 s
  else if fld pk 0 7 ≠ 0 then raise 0x07 pk 7 s
  else .ok () s

/-- The current strand as it casts. -/
def State.caster (s : State) : Caster :=
  let t := s.me
  let task := s.taskAt s.cur
  { part := (s.partOf s.cur).getD 0, ptbase := t.ptbase, asn := t.asn, keyl := t.keyl, keys := t.keys,
    parent := task.map Task.id, caps := match task with | some x => x.caps | none => [] }

/-- `cast` (R361). -/
def execCast (h : Hdr) (d a : R32) (s : State) : Out :=
  guarded h 8 s fun s =>
    let pk := s.G a
    (packetAddr pk s).andThen fun _ s =>
      (release .dom s).andThen fun _ s =>
        (memReadAt (s.who s.cur) .home pk 128 false 0 s).andThen fun x s =>
          let (st, s) := castPacket s.caster pk.toNat x s
          .ok () (s.setG d (BitVec.ofNat 64 st))

/-- `exit` (R362). -/
def execExit (h : Hdr) (a : R32) (s : State) : Out :=
  if s.guard h then conclude s (exitStrand (s.G a) s) else done 8 s (.ok () s)

/-! ## gong (R363) -/

/-- How often a strand of a task has joined `gong`; one that has exited has joined every later one. -/
def Task.joined (t : Task) (n gi : Nat) : Bool := t.exited.contains gi || decide (n ≤ Tab.get 0 t.gongs gi)

/-- `gong` of a strand that runs no task is a barrier of itself alone. -/
def execGong (h : Hdr) (s : State) : Out :=
  if !s.guard h then done 8 s (.ok () s)
  else
    match release .die s with
    | .trap e s' => .next (s.takeTrap s' e)
    | .wait s' => .next s'
    | .ok _ s =>
      match s.taskAt s.cur with
      | none => done 8 s (acquire .die s)
      | some t =>
        let gi := (t.gangOf s.cur).getD 0
        let n := Tab.get 0 t.gongs gi + (if s.me.gonging then 0 else 1)
        let t := { t with gongs := Tab.set 0 t.gongs gi n }
        let s := (s.modTask t.id fun _ => t).modMe fun st => { st with gonging := true }
        if (List.range t.gsz).all fun j => t.joined n j then
          done 8 s ((acquire .die s).andThen fun _ s => .ok () (s.modMe fun st => { st with gonging := false }))
        else .next s

/-! ## post and take (R364, R365) -/

/-- The live cast of a partition that a tag belongs to, and the task's index (R346). -/
def State.tagged (s : State) (part tag : Nat) : Option (Cast × Nat) :=
  (s.casts.find? fun c => c.part == part && decide (c.tagb ≤ tag) && decide (tag < c.tagb + c.count)).map fun c => (c, tag - c.tagb)
/-- The task of a cast with an index, once it has left its share's pending tasks. -/
def State.taskOf (s : State) (c : Cast) (i : Nat) : Option Task := s.tasks.find? fun t => t.cast == c.id && t.idx == i

/-- Whether a mailbox is malformed, by its count or by a reserved field (R7, R356). -/
def mailboxBad (x : Nat) : Bool := bits x 4 60 != 0 || decide (8 < bits x 0 4) || bits x 576 448 != 0

/-- The end of a write of a message: its status, or 3 with a machine check where it failed (R364). -/
def postEnd (part status : Nat) (r : Res Unit) : Res Nat :=
  match r with
  | .wait u => .wait u
  | .trap _ s => .ok 3 (s.raiseCheck (hubFailEvent part))
  | .ok _ s => .ok status s

/-- The fate of a message for a task that is not placed (R357): appended to its mailbox. -/
def postMailbox (c : Cast) (i : Nat) (x : Word) (s : State) : Res Nat :=
  if c.mbox = 0 then .ok 3 s
  else
    let at' (o : Nat) : Word := BitVec.ofNat 64 (c.mbox + 128 * i + o)
    match hubRead c.who (at' 0) 128 s with
    | .wait u => .wait u
    | .trap _ s => postEnd c.part 3 (.trap (illegalExc s) s)
    | .ok m s =>
      let n := bits m 0 4
      if mailboxBad m then .ok 3 (s.raiseCheck (hubFailEvent c.part))
      else if n = 8 then .ok 3 s
      else
        postEnd c.part 1 ((hubWrite c.who (at' (8 * (n + 1))) 8 x.toNat s).andThen fun _ s => hubWrite c.who (at' 0) 8 (n + 1) s)

/-- The fate of a message for a swapped task: appended to its saved queue. -/
def postSaved (t : Task) (x : Word) (s : State) : Res Nat :=
  let slot := s.slotWord t.part (t.slots.getD 0 0)
  match loadQueue t.part slot s with
  | .wait u => .wait u
  | .trap _ s => .ok 3 (s.raiseCheck (hubFailEvent t.part))
  | .ok q s =>
    if 8 ≤ q.length then .ok 3 s
    else postEnd t.part 1 (physWrites t.part (fld slot 52 12) (fld slot 0 52) [queueWrite (q ++ [x])] s)

/-- The fate of a message (R357); while a move of the task is in progress it is taken after that move (R364). -/
def postFate (part : Nat) (tag x : Word) (s : State) : Res Nat :=
  match s.tagged part tag.toNat with
  | none => .ok 2 s
  | some (c, i) =>
    match s.taskOf c i with
    | none => postMailbox c i x s
    | some t =>
      match t.state with
      | .ended => .ok 2 s
      | .resident =>
        if t.mailDue || t.live.isEmpty then .wait s
        else if 8 ≤ t.msgs.length then .ok 3 s
        else .ok 0 (s.modTask t.id fun t => { t with msgs := t.msgs ++ [x] })
      | .queued => postMailbox c i x s
      | .swapped => postSaved t x s

/-- The wait of a `post` at the hub, which no interrupt ends (R364). -/
def posted (on : Bool) (s : State) : State := s.modMe fun t => { t with posting := on }

/-- `post` (R364): the release, and then the fate. -/
def execPost (h : Hdr) (d a b : R32) (s : State) : Out :=
  guarded h 8 s fun s =>
    let tag := s.G a
    let x := s.G b
    (if s.me.posting then .ok () s else release .dom s).andThen fun _ s =>
      match postFate ((s.partOf s.cur).getD 0) tag x s with
      | .wait u => .wait (posted true u)
      | .trap e s => .trap e s
      | .ok f s => .ok () (posted false (s.setG d (BitVec.ofNat 64 f)))

/-- `take` (R365): it waits while the queue is empty; a strand that runs no task has no queue. -/
def execTake (h : Hdr) (d : R32) (s : State) : Out :=
  guarded h 8 s fun s =>
    match s.taskAt s.cur with
    | none => .wait s
    | some t =>
      match t.msgs with
      | [] => .wait s
      | x :: rest => (acquire .dom s).andThen fun _ s => .ok () ((s.modTask t.id fun t => { t with msgs := rest }).setG d x)

/-- `prio` (R359, R366): the packet's field is written, then every live cast of that packet takes the priority. -/
def execPrio (h : Hdr) (a b : R32) (s : State) : Out :=
  guarded h 8 s fun s =>
    let pk := s.G a
    let p := s.G b
    if fld p 3 61 ≠ 0 then .trap (illegalExc s) s
    else
      (packetAddr pk s).andThen fun _ s =>
        let w := s.who s.cur
        (memReadAt w .home (pk + 33) 1 false 0 s).andThen fun x s =>
          let y := bits x 0 4 + fld p 0 3 * 16 + bits x 7 1 * 128
          (memWriteAt w .home (pk + 33) 1 y false 0 s).andThen fun _ s =>
            let part := (s.partOf s.cur).getD 0
            .ok () { s with casts := s.casts.map fun c =>
              if c.part = part ∧ c.packet = pk.toNat then { c with prio := fld p 0 3 } else c }

end Sys2Proof.Machine
end

