-- ==== Sys2Proof/Machine/Dispatcher.lean ====
section
/-!
DEFINITION. The dispatcher of each die (R347 to R353): distribution, placement, levelling, resuming (R382) and the end of a
share.
-/
namespace Sys2Proof.Machine

/-! ## Distribution (R347 to R349) -/

/-- The index of the next task of a die's share, the position it takes, and whether the share has been gone through. -/
def Cast.cursor (c : Cast) (r : Nat) : Nat × Nat := c.next.getD r (0, 0)
def Cast.over (c : Cast) (r : Nat) : Bool := decide (shareLimit c.dmode c.count c.dies.length r ≤ (c.cursor r).1)

/-- Whether the next task of a share is held back by an earlier one that uses its stack slot (R349). -/
def State.heldBack (s : State) (c : Cast) (die r : Nat) : Bool :=
  s.tasks.any fun t => t.cast == c.id && t.die == die && t.state != .ended && t.pos % c.nslot == (c.cursor r).2 % c.nslot

/-- The cast whose task is moved next on a die: the highest PRIO, then issue order (R348). -/
def State.nextCast (s : State) (part die : Nat) : Option (Cast × Nat) :=
  s.casts.foldl (fun best c =>
    match c.rank die with
    | none => best
    | some r =>
      if c.part ≠ part || c.over r || s.heldBack c die r then best
      else match best with
        | some b => if b.1.prio < c.prio then some (c, r) else best
        | none => some (c, r)) none

/-- Whether tasks may be placed on a cluster: it is in service, no test is pending on it or runs (R390, R408), and its die is not in
warm reset (R442). -/
def State.clusterOpen (s : State) (c : Nat) : Bool :=
  s.hubFld (hubTEST + 8 * c) 61 1 == 0 && s.hubFld (hubTEST + 8 * c) 63 1 == 0 && !s.testing.contains c && !s.drstBusy (c / 64)

/-- The cluster to which the next task of a partition on a die is dealt (R348). -/
def State.dealTo (s : State) (part die : Nat) : Option Nat :=
  let cs := (s.clustersOf part).filter fun c => c / 64 == die && s.clusterOpen c
  match cs.find? fun c => decide (Tab.get 0 s.dealt (part * 4 + die) ≤ c % 64) with
  | some c => some c
  | none => cs.head?

/-- The cursor of a share moves on: past an index that is not in it, or past its next task. -/
def State.moveCursor (s : State) (c : Cast) (r : Nat) (mine : Bool) : State :=
  let (i, j) := c.cursor r
  let c' : Cast := { c with next := c.next.set r (i + shareStep c.dmode c.dies.length, if mine then j + 1 else j) }
  let s := s.modCast c.id fun _ => c'
  if c'.over r then s.later .shareEnd (.num2 c.id (c.dies.getD r 0)) else s

/-- The task that a share's cursor stands at. -/
def Cast.taskAt (c : Cast) (r die id cluster : Nat) (st : TaskState) : Task :=
  let (i, j) := c.cursor r
  { id := id, cast := c.id, part := c.part, ttag := BitVec.ofNat 64 (c.tagb + i), idx := i, die := die, pos := j, gsz := c.gsz,
    state := st, cluster := cluster, prio := c.prio, resume := false, keys := [], exited := [], saved := [], status := 0, msgs := [],
    slots := [], caps := c.caps, log := [], gongs := [] }

/-- The next task of a share enters a cluster's queue. -/
def State.enqueue (s : State) (c : Cast) (r die cluster : Nat) : State :=
  let s := { s with tasks := s.tasks ++ [c.taskAt r die s.taskSeq cluster .queued], taskSeq := s.taskSeq + 1,
                    dealt := Tab.set 0 s.dealt (c.part * 4 + die) (cluster % 64 + 1) }
  (s.moveCursor c r true).later .taskPlacement (.num2 c.part cluster)

/-- The task of a hash key that cannot be read dies without running (R347, R385). -/
def State.stillborn (s : State) (c : Cast) (r die cause : Nat) : State :=
  let t := c.taskAt r die s.taskSeq 0 .ended
  let s := { s with tasks := s.tasks ++ [t], taskSeq := s.taskSeq + 1 }
  let s := s.castNotice c.id 3 cause t.ttag 0
  let s := s.moveCursor c r true
  s.modCast c.id fun c => { c with ended := c.ended.set r (c.ended.getD r 0 + 1) }

/-- The next task of a share leaves the pending tasks: into a queue, or past it when it has died while it was pending. -/
def State.admitTask (s : State) (c : Cast) (r die cluster : Nat) : State :=
  match s.taskOf c (c.cursor r).1 with
  | some _ => (s.moveCursor c r true).modCast c.id fun c => { c with ended := c.ended.set r (c.ended.getD r 0 + 1) }
  | none => s.enqueue c r die cluster

/-- One move of a die's dispatcher: none where nothing can be moved. A hash key is read at the home place, which may make the
dispatcher wait. -/
def State.distribute (s : State) (part die : Nat) : Option (Res Unit) :=
  if 2048 ≤ (s.tasks.filter fun t => t.die == die && t.state == .queued).length then none
  else
    match s.nextCast part die, s.dealTo part die with
    | some (c, r), some cluster =>
      if c.dmode ≠ 2 then some (.ok () (s.admitTask c r die cluster))
      else
        some (match hubRead c.who (BitVec.ofNat 64 (c.harg + 8 * (c.cursor r).1)) 8 s with
          | .wait u => .wait u
          | .trap e s => .ok () (if r = 0 then s.stillborn c r die e.cause else s.moveCursor c r false)
          | .ok x s =>
            .ok () (if (bits x 0 32 ^^^ bits x 32 32) % c.dies.length = r then s.admitTask c r die cluster
              else s.moveCursor c r false))
    | _, _ => none

/-- `TASK_DISTRIBUTION`: a partition and a die. -/
def execTaskDistribution (s : State) : Out :=
  .next (match s.input with
    | .num2 part die =>
      match s.distribute part die with
      | none => s
      | some (.ok _ s) => s.later .taskDistribution (.num2 part die)
      | some r => deferring .taskDistribution s r
    | _ => s)

/-! ## Placement (R348, R349) -/

/-- Whether a task stands in a queue. -/
def Task.inQueue (t : Task) : Bool := t.state == .queued || (t.state == .swapped && t.resume)
/-- Queue order (R348, R351). -/
def Task.before (t u : Task) : Bool :=
  if t.prio ≠ u.prio then decide (u.prio < t.prio)
  else if t.resume ≠ u.resume then t.resume
  else if t.cast ≠ u.cast then decide (t.cast < u.cast)
  else decide (t.idx < u.idx)
/-- The entries of a cluster's queue. -/
def State.queueOf (s : State) (part cluster : Nat) : List Task :=
  s.tasks.filter fun t => t.part == part && t.cluster == cluster && t.inQueue
/-- The head of a queue. -/
def headOf (q : List Task) : Option Task :=
  q.foldl (fun best t => match best with | some b => if t.before b then some t else best | none => some t) none

/-- Whether a gang of more than 8 strands is resident on a cluster: it occupies its clusters whole (R342). -/
def State.wholeOn (s : State) (cluster : Nat) (bank : Nat) : Bool :=
  s.tasks.any fun t => t.state == .resident && decide (8 < t.gsz) && t.keys.any fun k => clusterOf k == cluster && bankOf k == bank

/-- A partition's free strands on a cluster whose bank is active, in order. -/
def State.freeOn (s : State) (part cluster : Nat) : List Nat :=
  if s.bankOn cluster == some (s.partBank part) && s.clusterOpen cluster && !s.wholeOn cluster (s.partBank part) then
    ((sidsOf cluster).map fun sid => keyOf (s.partBank part) sid).filter fun k => (s.strand k).run == .free
  else []

/-- The run of clusters of a gang of more than 8 strands (R348). -/
def State.runOf (s : State) (part cluster n : Nat) : List Nat :=
  let cs := (s.clustersOf part).filter fun c => c / 64 == cluster / 64
  let at' := (cs.idxOf? cluster).getD 0
  (List.range n).map fun i => cs.getD ((at' + i) % cs.length) cluster

/-- The strands that the head of a queue would take: none while they are not free. -/
def State.positions (s : State) (t : Task) : Option (List Nat) :=
  if t.gsz ≤ 8 then
    let f := s.freeOn t.part t.cluster
    if f.length < t.gsz then none else some (f.take t.gsz)
  else
    let n := (t.gsz + 7) / 8
    let cs := s.runOf t.part t.cluster n
    if cs.eraseDups.length = n ∧ cs.all (fun c => (s.freeOn t.part c).length == 8) then
      some ((cs.flatMap fun c => s.freeOn t.part c).take t.gsz)
    else none

/-- The stack base of a strand of a task (R349). -/
def Cast.stackBase (c : Cast) (t : Task) (k : Nat) : Word :=
  c.stkb + BitVec.ofNat 64 (((t.die * c.nslot + t.pos % c.nslot) * c.gsz + k) * c.stksz)

/-- The registers that belong to a task on any position (R237, R345, R382). -/
def Strand.ofTask (st : Strand) (c : Cast) (t : Task) (k : Nat) (slot : Word) : Strand :=
  { st with run := .running, sup := false, xlvl := 0, ttag := t.ttag, tidx := BitVec.ofNat 64 t.idx, gidx := BitVec.ofNat 64 k,
            gsz := BitVec.ofNat 64 t.gsz, castp := BitVec.ofNat 64 c.packet, xsave := slot, ptbase := c.ptbase, asn := c.asn,
            keyl := c.keyl, keys := c.keys }

/-- The entry state of R48. -/
def Strand.entry (st : Strand) (c : Cast) (t : Task) (k : Nat) (slot : Word) : Strand :=
  let st := st.ofTask c t k slot
  let base := c.stackBase t k
  let regs : List (Nat × Word) :=
    [(1, c.arg), (2, BitVec.ofNat 64 t.idx), (3, BitVec.ofNat 64 c.packet), (4, BitVec.ofNat 64 k), (5, BitVec.ofNat 64 t.gsz),
     (29, base), (30, base + BitVec.ofNat 64 c.stksz), (31, exitAddr)]
  { st with pc := c.entry, g := regs.foldl (fun g r => Tab.set 0 g r.1 r.2) [], v := [], p := 0, m := [], tiles := [], accs := [],
            drains := [], rollc := 0, rolli := 0, rolling := false, estat := 0, cseq := 0 }

/-- A strand placed at a task's entry (R48): its channels idle, its acquire of scope .die performed (R345). -/
def State.placeStrand (s : State) (c : Cast) (t : Task) (k key : Nat) (slot : Word) : State :=
  let s := s.modStrand key fun st => st.entry c t k slot
  let s := (s.boundChans key).foldl (fun s ch => s.modChan ch fun x => { Chan.reset with dci := x.dci, dcc := x.dci }) s
  s.acquireBy key .die

/-- The messages of a mailbox move to the hub's queue, and none is held there any more (R356); none from a malformed mailbox,
which is a machine check. -/
def mailboxMove (c : Cast) (t : Task) (s : State) : Res (List Word) :=
  if c.mbox = 0 then .ok [] s
  else
    let va : Word := BitVec.ofNat 64 (c.mbox + 128 * t.idx)
    match hubRead c.who va 128 s with
    | .wait u => .wait u
    | .trap _ s => .ok [] (s.raiseCheck (hubFailEvent c.part))
    | .ok m s =>
      let n := bits m 0 4
      let msgs := (List.range n).map fun i => BitVec.ofNat 64 (elemN m 64 (i + 1))
      if mailboxBad m then .ok [] (s.raiseCheck (hubFailEvent c.part))
      else if n = 0 then .ok [] s
      else
        match hubWrite c.who va 8 0 s with
        | .wait u => .wait u
        | .trap _ s => .ok msgs (s.raiseCheck (hubFailEvent c.part))
        | .ok _ s => .ok msgs s

/-- The mailbox of a task that has been placed moves, once no bell holds it and its home lets it (R348, R356); a save of the task that
has waited for it is complete then. -/
def State.moveMail (s : State) (id : Nat) : State :=
  match s.task id with
  | none => s
  | some t =>
    if !t.mailDue then s
    else
      match s.castNo t.cast with
      | none => s
      | some c =>
        match mailboxMove c t s with
        | .ok msgs s => (s.modTask id fun t => { t with msgs := msgs, mailDue := false }).settleTask id
        | .wait u => u
        | .trap _ s => s

/-- Every mailbox that has still to move. -/
def State.moveMails (s : State) : State := (s.tasks.filter Task.mailDue).foldl (fun s t => s.moveMail t.id) s

/-- A task's slots: those that it holds, or fresh ones (R383). -/
def State.slotsFor (s : State) (t : Task) : Option (List Nat) :=
  if t.slots.isEmpty then s.freeSlots t.part t.gsz else some t.slots

/-- A queued task is placed (R348, R356), through bells; the move of its mailbox follows. -/
def State.placeNew (s : State) (c : Cast) (t : Task) (keys slots : List Nat) : State :=
  let s := { s with slotsHeld := Tab.set [] s.slotsHeld t.part (Tab.get [] s.slotsHeld t.part ++ slots) }
  let s := s.modTask t.id fun t => { t with state := .resident, keys := keys, slots := slots, msgs := [], mailDue := true }
  ((List.range t.gsz).foldl (fun s k =>
    s.placeStrand c t k (keys.getD k 0) (s.slotWord t.part (slots.getD k 0))) s).moveMail t.id

/-! ## Resuming (R351, R382) -/

/-- A channel of a strand as its task's context holds it beside the save slot. -/
def Task.keptChan (t : Task) (gi k : Nat) : Chan :=
  match t.chans.find? fun e => e.1 == gi && e.2.1 == k with
  | some e => e.2.2
  | none => Chan.reset

/-- Channel slot `k` of a save slot read as a number goes onto the strand's k-th bound channel (R382). -/
def State.restoreChans (s : State) (t : Task) (gi key x : Nat) : State :=
  let n := bits x (8 * 0x78) 4
  let chans := s.boundChans key
  (List.range chans.length).foldl (fun s k =>
    let ch := chans.getD k 0
    if k < n then
      (s.setChan ch (Chan.ofSlot (bits x (8 * (0x0A00 + 256 * k)) 2048) (t.keptChan gi k) (s.strand key) key t.part)).chanLater ch
    else s.modChan ch fun c => { Chan.reset with dci := c.dci, dcc := c.dci }) s

/-- The reserved bits of SVCTL (R380). -/
def svctlReserved (x : Nat) : Bool := bits x 46 17 != 0 || bits x 15 17 != 0 || bits x 11 1 != 0

/-- One strand of a swapped task restored from its slot (R382). An error response, and a header with a nonzero reserved bit, answer
the failing address (R7; log 118). -/
def restoreStrand (c : Cast) (t : Task) (k key : Nat) (s : State) : Res Unit :=
  let slot := s.slotWord t.part (t.slots.getD k 0)
  let core := coreOf (t.keys.getD k 0)
  (physGet t.part (fld slot 52 12) (fld slot 0 52) slotLen s).andThen fun x s =>
    if svctlReserved (bits x 0 64) then raise 0x13 (BitVec.ofNat 64 (fld slot 0 52)) 0 s
    else
      let s := s.modStrand key fun st => { (st.ofTask c t k slot).restore x with flushing := some (core, t.ttag.toNat) }
      .ok () ((s.restoreChans t k key x).acquireBy key .die)

/-- The channels that a strand saved, from its slot (R380). -/
def State.savedChans (s : State) (t : Task) (k : Nat) : Nat :=
  let slot := s.slotWord t.part (t.slots.getD k 0)
  match s.physRead (fld slot 52 12) (fld slot 0 52 + 0x78) 8 with
  | .ok x => bits x 0 4
  | .error _ => 0

/-- A swapped task is placed and restored (R382), after the flushes by context tag of the cores that it left (R140): only on strands
that own enough channels; the gang members that have exited stay ended. None where they do not. An error response kills the task,
whose strands that have been restored stop (R385). -/
def State.placeSaved (s0 : State) (c : Cast) (t : Task) (keys : List Nat) : Option (Res Unit) :=
  let live := (List.range t.gsz).filter fun k => !t.exited.contains k
  if !live.all fun k => decide (s0.savedChans t k ≤ (s0.boundChans (keys.getD k 0)).length) then none
  else
    let s := t.keys.foldl (fun s k => s.flushTag (coreOf k) t.ttag.toNat) s0
    let ready (k : Nat) : Option State :=
      let slot := s.slotWord t.part (t.slots.getD k 0)
      s.physWaits (fld slot 52 12) (parts (fld slot 0 52) slotLen)
    if t.keys.any fun k => !s.tagFlushed (coreOf k) t.ttag.toNat then some (.wait s)
    else if let some u := (List.range t.gsz).findSome? ready then some (.wait u)
    else
      let r := (loadQueue t.part (s.slotWord t.part (t.slots.getD 0 0)) s).andThen fun msgs s =>
        (forEach (fun k s => restoreStrand c t k (keys.getD k 0) s) live s).andThen fun _ s =>
          .ok () (s.modTask t.id fun t =>
            { t with state := .resident, resume := false, keys := keys, saved := [], msgs := msgs, chans := [] })
      some (match r with
        | .ok _ s => .ok () s
        | .wait u => .wait u
        | .trap e s =>
          .ok () ((s.modTask t.id fun t => { t with state := .resident, keys := keys, saved := [] }).killTask t.id 0x13 e.addr))

/-- The head of a queue is placed, when its strands and its save slots are free; none where it cannot be. -/
def State.placeHead (s : State) (part cluster : Nat) : Option (Res Unit) :=
  match headOf (s.queueOf part cluster) with
  | none => none
  | some t =>
    match s.castNo t.cast, s.positions t, s.slotsFor t with
    | some c, some keys, some slots =>
      if t.state = .swapped then s.placeSaved c t keys else some (.ok () (s.placeNew c t keys slots))
    | _, _, _ => none

/-- `TASK_PLACEMENT`: a partition and the cluster of a queue. -/
def execTaskPlacement (s : State) : Out :=
  .next (match s.input with
    | .num2 part cluster =>
      match s.placeHead part cluster with
      | none => s
      | some (.ok _ s) => (s.later .taskPlacement (.num2 part cluster)).distributeLater part (cluster / 64)
      | some r => deferring .taskPlacement s r
    | _ => s)

/-- `TASK_RESUME`: a swapped task that is to resume enters the queue of the cluster where it last ran (R351), where it is placed
and restored when it is the head and its strands are free; so does a task that is being saved, once it is swapped. -/
def execTaskResume (s : State) : Out :=
  .next (match s.input with
    | .num id =>
      match s.task id with
      | none => s
      | some t =>
        if t.state = .swapped ∨ (t.state = .resident ∧ t.live.isEmpty ∧ !t.saved.isEmpty) then
          (s.modTask id fun t => { t with resume := true }).later .taskPlacement (.num2 t.part t.cluster)
        else s
    | _ => s)

/-! ## Levelling (R16, R350) -/

/-- Whether two clusters are adjacent (R16). -/
def adjacent (a b : Nat) : Bool :=
  let d (x y : Nat) : Nat := if x < y then y - x else x - y
  a / 64 == b / 64 && d (a % 8) (b % 8) + d (a % 64 / 8) (b % 64 / 8) == 1

/-- The cluster that a cluster sends to, and how many entries, from the sampled lengths. -/
def levelMove (cs : List Nat) (len : Nat → Nat) (c : Nat) : Option (Nat × Nat) :=
  let best := (cs.filter fun m => adjacent c m).foldl (fun (b : Option Nat) m =>
    match b with | some x => if len m < len x then some m else b | none => some m) none
  match best with
  | some m => if 2 ≤ len c - len m then some (m, (len c - len m) / 2) else none
  | none => none

/-- A queue in its order. -/
def insertTask (t : Task) : List Task → List Task
  | [] => [t]
  | u :: q => if t.before u then t :: u :: q else u :: insertTask t q
def sortQueue (q : List Task) : List Task := q.foldr insertTask []

/-- The last entries of a cluster's queue that move (R350): only queued tasks do. -/
def State.tailOf (s : State) (part c n : Nat) : List Nat :=
  let q := sortQueue (s.queueOf part c)
  ((q.drop (q.length - n)).filter fun t => t.state == .queued).map Task.id

/-- The tasks of a list of numbers move to a cluster's queue. -/
def State.sendTasks (s : State) (ids : List Nat) (m : Nat) : State :=
  ids.foldl (fun s id => s.modTask id fun t => { t with cluster := m }) s

/-- `LEVELLING` of a partition's queues on a die: every decision uses the lengths sampled at one instant. -/
def execLevelling (s : State) : Out :=
  .next (match s.input with
    | .num2 part die =>
      let cs := (s.clustersOf part).filter fun c => c / 64 == die
      let len (c : Nat) : Nat := (s.queueOf part c).length
      let moves := cs.filterMap fun c => (levelMove cs len c).map fun (m, n) => (m, s.tailOf part c n)
      let s := moves.foldl (fun s (m, ids) => s.sendTasks ids m) s
      moves.foldl (fun s (m, _) => s.later .taskPlacement (.num2 part m)) s
    | _ => s)

/-! ## Going on -/

/-- The retired stores of every strand drain, as far as they can (R268). -/
def State.drainEvery (s : State) : State :=
  (s.strands.filter fun e => !e.2.drains.isEmpty).foldl (fun s e => s.drainAll e.1) s

/-- What the hub holds goes on (R114, R126, R130, R395). -/
def State.resumeHub (s : State) : State := s.drainAside.payOwed.flushNotices.flushRecords.moveMails.flushSaves.flushTags.goOn

/-- What waits for a home goes on (R114, R126, R130). -/
def State.resume (s : State) : State := s.drainEvery.resumeHub

/-! ## The end of a share (R353) -/

/-- Whether every task of a die's share has ended. -/
def Cast.shareOver (c : Cast) (r : Nat) : Bool := c.over r && c.ended.getD r 0 == (c.cursor r).2

/-- The counter add of a share (R353, R355): a release write, which a bell or its home holds; a fault is a machine check. -/
def counterAdd (c : Cast) (n : Nat) (s : State) : Res Unit :=
  if c.ccnt = 0 then .ok () s
  else
    (hubReleased s).andThen fun _ s =>
      match hubAtomic c.who (BitVec.ofNat 64 c.ccnt) 8 (fun x => some ((x + n) % 2 ^ 64)) s with
      | .ok _ s => .ok () s
      | .trap _ s => .ok () (s.raiseCheck (hubFailEvent c.part))
      | .wait u => .wait u

/-- A die reports the end of its share; when every die has, the cast stops being live. -/
def State.reportShare (s : State) (c : Cast) (die : Nat) : State :=
  let c' : Cast := { c with reported := die :: c.reported }
  if c'.dies.all fun d => c'.reported.contains d then
    let s := s.sendNotice (c.noticeOf 1 0 0 (BitVec.ofNat 64 c.count))
    { s with casts := s.casts.filter fun x => x.id != c.id, tasks := s.tasks.filter fun t => t.cast != c.id }
  else s.modCast c.id fun _ => c'

/-- `SHARE_END`: a cast and a die. -/
def execShareEnd (s : State) : Out :=
  .next (match s.input with
    | .num2 id die =>
      match s.castNo id with
      | none => s
      | some c =>
        match c.rank die with
        | none => s
        | some r =>
          if !c.shareOver r || c.reported.contains die then s
          else
            deferring .shareEnd s ((counterAdd c (c.cursor r).2 s).andThen fun _ s => .ok () (s.reportShare c die))
    | _ => s)

end Sys2Proof.Machine
end

