-- ==== Sys2Proof/Machine/Service.lean ====
section
/-!
DEFINITION. Service calls (R386 to R389): `cinv` and its gate, the service engine's operations, the reply log, and the
engine's restart.
-/
namespace Sys2Proof.Machine

/-! ## The log and replies (R389) -/

/-- How a call stands against the log: replayed with its results, expired, or to be executed. -/
inductive LogFind where
  | replay (e : LogEntry)
  | expired
  | fresh

/-- The log of one slot, newest first. -/
def Task.logOf (t : Task) (slot : Nat) : List LogEntry := t.log.filter fun e => e.slot == slot
def Task.findCall (t : Task) (c : SvcCall) : LogFind :=
  match (t.logOf c.slot).find? fun e => e.gidx == c.gidx && e.seq == c.seq with
  | some e => .replay e
  | none => if (t.logOf c.slot).any fun e => e.gidx == c.gidx && decide (c.seq.toNat < e.seq.toNat) then .expired else .fresh
/-- The log with one more entry: the last four of each slot stay. -/
def Task.logged (t : Task) (e : LogEntry) : Task :=
  { t with log := (e :: t.logOf e.slot).take 4 ++ t.log.filter fun x => x.slot != e.slot }

/-- The resident task that a call comes from. -/
def State.callTask (s : State) (c : SvcCall) : Option Task :=
  s.tasks.find? fun t => t.part == c.part && t.ttag == c.ttag && t.state != .ended

/-- Whether two calls are one call of a task (R389): the same slot, gang index and sequence number. -/
def sameCall (c d : SvcCall) : Bool :=
  c.part == d.part && c.ttag == d.ttag && c.slot == d.slot && c.gidx == d.gidx && c.seq == d.seq

/-- The reply as it reaches a strand: one whose call was found in progress is answered as replayed (R387). -/
def Call.answer (x : Call) (r : Reply) : Reply :=
  match r with
  | .answered 0 d r0 r1 q => if x.replayed then .answered 1 d r0 r1 q else .answered 0 d r0 r1 q
  | r => r

/-- The reply reaches the strands that wait for it. -/
def State.reply (s : State) (c : SvcCall) (r : Reply) : State :=
  { s with strands := s.strands.map fun e =>
      match e.2.call with
      | some x => if sameCall x.call c ∧ x.reply = none then (e.1, { e.2 with call := some { x with reply := some (x.answer r) } }) else e
      | none => e }
/-- A reply with a status and a detail and no results. -/
def State.refuse (s : State) (c : SvcCall) (status detail : Nat) : State := s.reply c (.answered status detail 0 0 s.eseq)

/-- What an operation of the engine answers: refused with a detail, or executed with its results. -/
inductive Served where
  | no (detail : Nat)
  | yes (res0 res1 : Word) (s : State)

/-- A call executed once (R389): from the log, expired, or by `f`, which commits with its log entry. -/
def serve (c : SvcCall) (f : Task → Cap → State → Served) (s : State) : State :=
  match s.callTask c with
  | none => s
  | some t =>
    match t.findCall c with
    | .replay e => s.reply c (.answered 1 0 e.res0 e.res1 s.eseq)
    | .expired => s.refuse c 3 0
    | .fresh =>
      match f t (Tab.get Cap.none t.caps c.slot) s with
      | .no d => s.refuse c 2 d
      | .yes r0 r1 s =>
        let s := { s with eseq := s.eseq + 1 }
        (s.modTask t.id fun t => t.logged { slot := c.slot, gidx := c.gidx, seq := c.seq, res0 := r0, res1 := r1 }).reply c
          (.answered 0 0 r0 r1 s.eseq)

/-- A step of the engine on the call that is its operand. -/
def serviceStep (f : SvcCall → Task → Cap → State → Served) (s : State) : Out :=
  .next (match s.input with | .call c => serve c (f c) s | _ => s)

/-- Whether an object number lies in a capability's range. -/
def Cap.covers (c : Cap) (n : Nat) : Bool := decide (c.base ≤ n) && decide (n < c.base + c.count)

/-! ## Windows (R314, R388) -/

def winAddr (n : Nat) : Nat := hubWIN + 64 * n

/-- Registration: the window entry is filled from the caller's address space. -/
def registerWindow (c : SvcCall) (_t : Task) (cap : Cap) (s : State) : Served :=
  let n := fld c.arg0 0 15
  let len := c.arg2.toNat
  if !cap.covers n then .no 1
  else if bit (s.hubGet (winAddr n)) 63 then .no 2
  else if fld c.arg0 18 46 ≠ 0 ∨ fld c.arg1 0 3 ≠ 0 ∨ fld c.arg1 55 9 ≠ 0 ∨ len % 8 ≠ 0 ∨ len < 8 ∨ 2 ^ 40 < len then .no 3
  else
    let rights := fld c.arg0 15 1 * 2 ^ 62 + fld c.arg0 16 1 * 2 ^ 61 + fld c.arg0 17 1 * 2 ^ 60
    let s := s.hubSet (winAddr n) (BitVec.ofNat 64 (2 ^ 63 + rights + c.part * 2 ^ 56 + fld c.asn 0 16))
    let s := s.hubSet (winAddr n + 8) c.arg1
    let s := s.hubSet (winAddr n + 16) c.arg2
    let s := s.hubSet (winAddr n + 24) c.ptbase
    let s := s.hubSet (winAddr n + 32) c.keyl
    let s := s.hubSet (winAddr n + 40) 0
    .yes (BitVec.ofNat 64 (s.ownMid * 2 ^ 55 + n * 2 ^ 40)) 0 s

/-- `WINDOW_REGISTER`. -/
def execWindowRegister (s : State) : Out := serviceStep registerWindow s

/-- Release: every operation that has been accepted on the window has been performed. -/
def releaseWindow (c : SvcCall) (_t : Task) (cap : Cap) (s : State) : Served :=
  let n := fld c.arg0 0 15
  let w := s.hubGet (winAddr n)
  if !cap.covers n then .no 1
  else if !bit w 63 || fld w 56 4 != c.part then .no 2
  else if fld c.arg0 15 49 ≠ 0 then .no 3
  else .yes 0 0 (s.hubSet (winAddr n) (setFld w 63 1 0))

/-- A window holds an operation that it has accepted (R114, R315). -/
def State.windowBusy (s : State) (n : Nat) : Bool :=
  (s.deferred ++ s.agenda).any fun m =>
    match m with | .event .remoteOperationArrival (.remote r) => r.accepted && r.window == n | _ => false

/-- `WINDOW_RELEASE`: one that is due waits for the operations that the window has accepted, and meanwhile it accepts no other
(R315). -/
def execWindowRelease (s : State) : Out :=
  match s.input with
  | .call c =>
    let n := fld c.arg0 0 15
    if s.windowBusy n then
      .next ({ s with releasing := if s.releasing.contains n then s.releasing else s.releasing ++ [n] }.defer .windowRelease s.input)
    else serviceStep releaseWindow { s with releasing := s.releasing.filter fun x => x != n }
  | _ => .next s

/-! ## Tasks (R388) -/

/-- The state code of R343. -/
def stateCode : Option TaskState → Nat
  | none => 0
  | some .queued => 1
  | some .resident => 2
  | some .swapped => 3
  | some .ended => 4

/-- An operation on a task named by its tag: `f` acts on the cast, the index and the task. -/
def onTask (c : SvcCall) (cap : Cap) (f : Cast → Nat → Option Task → State → State) (s : State) : Served :=
  if !cap.covers c.arg0.toNat then .no 1
  else
    match s.tagged c.part c.arg0.toNat with
    | none => .no 4
    | some (k, i) =>
      let t := s.taskOf k i
      .yes (BitVec.ofNat 64 (stateCode (t.map Task.state))) 0 (f k i t s)

/-- `TASK_QUERY`. -/
def execTaskQuery (s : State) : Out := serviceStep (fun c _ cap s => onTask c cap (fun _ _ _ s => s) s) s

/-- `TASK_PREEMPT`: a resident task's strands are requested to save (R378). -/
def execTaskPreempt (s : State) : Out :=
  serviceStep (fun c _ cap s => onTask c cap (fun _ _ t s =>
    match t with
    | some t => if t.state = .resident then s.requestSave t true else s
    | none => s) s) s

/-- A task that is still pending dies: it never enters a queue (R385). -/
def State.killPending (s : State) (k : Cast) (i : Nat) : State :=
  let t : Task :=
    { id := s.taskSeq, cast := k.id, part := k.part, ttag := BitVec.ofNat 64 (k.tagb + i), idx := i, die := 0, pos := 0, gsz := k.gsz,
      state := .ended, cluster := 0, prio := k.prio, resume := false, keys := [], exited := [], saved := [], status := 0, msgs := [],
      slots := [], caps := [], log := [], gongs := [] }
  ({ s with tasks := s.tasks ++ [t], taskSeq := s.taskSeq + 1 }).castNotice k.id 3 0x11 t.ttag 0

/-- `TASK_KILL`. -/
def execTaskKill (s : State) : Out :=
  serviceStep (fun c _ cap s => onTask c cap (fun k i t s =>
    match t with
    | some t => s.killTask t.id 0x11 0
    | none => s.killPending k i) s) s

/-! ## derive (R388) -/

/-- A slot receives a reduced copy of the called capability. -/
def deriveCap (c : SvcCall) (t : Task) (cap : Cap) (s : State) : Served :=
  let off := fld c.arg2 0 32
  let n := fld c.arg2 32 32
  if cap.count < off + n then .no 1
  else if 255 < c.arg0.toNat ∨ fld c.arg1 16 48 ≠ 0 then .no 3
  else if Tab.get Cap.none t.caps c.arg0.toNat ≠ Cap.none then .no 5
  else
    let cap' : Cap := { kind := cap.kind, rights := cap.rights &&& fld c.arg1 0 16, base := cap.base + off, count := n }
    .yes 0 0 (s.modTask t.id fun t => { t with caps := Tab.set Cap.none t.caps c.arg0.toNat cap' })

/-- `DERIVE`. -/
def execDerive (s : State) : Out := serviceStep deriveCap s

/-- `SERVICE_RESTART` (R389): every call that has not committed replies with status 4. -/
def execServiceRestart (s : State) : Out :=
  let pending (m : Move) : Bool := match m with | .event _ (.call _) => true | _ => false
  .next { s with
    releasing := []
    agenda := s.agenda.filter fun m => !pending m
    deferred := s.deferred.filter fun m => !pending m
    strands := s.strands.map fun e =>
      match e.2.call with
      | some x => if x.reply = none then (e.1, { e.2 with call := some { x with reply := some (.answered 4 0 0 0 s.eseq) } }) else e
      | none => e }

/-! ## cinv (R386, R387) -/

/-- The operation that a KIND defines for an OPC. -/
def opOf (kind opc : Nat) : Option Instr :=
  if opc = 15 then some .derive
  else if kind = 1 then (if opc = 1 then some .windowRegister else if opc = 2 then some .windowRelease else none)
  else if kind = 2 then
    (if opc = 1 then some .taskPreempt else if opc = 2 then some .taskKill else if opc = 3 then some .taskQuery else none)
  else none

/-- Whether the engine is still to execute a call (R387). -/
def State.inProgress (s : State) (c : SvcCall) : Bool :=
  (s.agenda ++ s.deferred).any fun m => match m with | .event _ (.call d) => sameCall d c | _ => false

/-- The engine's answer to a call as it arrives: a refusal of the capability, in the order of R388, the step that executes it, or,
where the call is in progress already, the reply to that (R387). -/
def State.gateCall (s : State) (c : SvcCall) : State :=
  let cap := match s.callTask c with | some t => Tab.get Cap.none t.caps c.slot | none => Cap.none
  if s.inProgress c then s.modMe fun t => { t with call := t.call.map fun x => { x with replayed := true } }
  else if cap = Cap.none then s.reply c (.refused 2)
  else
    match opOf cap.kind c.opc with
    | none => s.reply c (.refused 4)
    | some i => if bits cap.rights c.opc 1 = 0 then s.reply c (.refused 3) else s.later i (.call c)

/-- The argument block's checks (R387). -/
def blockCheck (slot blk : Word) (s : State) : Res Unit :=
  if 255 < slot.toNat then raise 0x11 blk 1 s
  else if fld blk 55 9 ≠ 0 then raise 0x04 blk 1 s
  else if fld blk 0 6 ≠ 0 then raise 0x07 blk 6 s
  else
    let w := s.who s.cur
    (checkParts w .load Align.any (rangeParts blk 32) s).andThen fun _ s =>
      checkParts w .store Align.any (rangeParts (blk + 32) 32) s

/-- The call is sent: released, read at the home place, and passed through the gate. -/
def sendCall (slot blk q : Word) (s : State) : Res Unit :=
  (blockCheck slot blk s).andThen fun _ s =>
    (release .dom s).andThen fun _ s =>
      (memReadAt (s.who s.cur) .home blk 32 false 0 s).andThen fun x s =>
        let w (i : Nat) : Word := BitVec.ofNat 64 (elemN x 64 i)
        let t := s.me
        let c : SvcCall :=
          { part := (s.partOf s.cur).getD 0, ttag := t.ttag, gidx := t.gidx.toNat, slot := slot.toNat, seq := q, opc := (w 0).toNat,
            arg0 := w 1, arg1 := w 2, arg2 := w 3, ptbase := t.ptbase, asn := t.asn, keyl := t.keyl }
        .ok () ((s.modMe fun t => { t with call := some { call := c, reply := none } }).gateCall c)

/-- The reply is written and the call retires. -/
def finishCall (d : R32) (blk : Word) (again : Bool) (c : SvcCall) (r : Reply) (s : State) : Res Unit :=
  match r with
  | .refused sub => raise 0x11 blk sub s
  | .answered st detail r0 r1 eseq =>
    let x := packN 64 [r0.toNat, r1.toNat, c.seq.toNat, eseq.toNat]
    (memWriteAt (s.who s.cur) .home (blk + 32) 32 x false 0 s).andThen fun _ s =>
      (acquire .dom s).andThen fun _ s =>
        .ok () ((s.modMe fun t => { t with call := none, cseq := if again then t.cseq else c.seq + 1 }).setG d
          (BitVec.ofNat 64 (detail * 2 ^ 8 + st)))

/-- `cinv` and `cinv.re`: the call goes out at the first execution, and the instruction waits for its reply. -/
def cinvOp (h : Hdr) (again : Bool) (d a b : R32) (s : State) : Out :=
  if !s.guard h then done 8 s (.ok () s)
  else
    match s.me.call with
    | none =>
      match sendCall (s.G a) (s.G b) (if again then s.me.cseq - 1 else s.me.cseq) s with
      | .ok _ s' => .next s'
      | .trap e s' => .next (s.takeTrap s' e)
      | .wait s' => .next s'
    | some c =>
      match c.reply with
      | none => .next s
      | some r => done 8 s (finishCall d (s.G b) again c.call r s)

/-- `cinv` (R387). -/
def execCinv (h : Hdr) (d a b : R32) (s : State) : Out := cinvOp h false d a b s
/-- `cinv.re` (R387). -/
def execCinvRe (h : Hdr) (d a b : R32) (s : State) : Out := cinvOp h true d a b s

end Sys2Proof.Machine
end

