-- ==== Sys2Proof/Machine/Migrator.lean ====
section
/-!
DEFINITION. The migrator (R98 to R103): hints, its decisions, moves of 2 MiB pages between the tiers, `thint` and `step`.
-/
namespace Sys2Proof.Machine

def migAddr (q : Nat) : Nat := hubMIG + 32 * q
def migPage : Nat := 2 ^ 21

/-- PBASE, FRAMES, CUR and USED of a partition (R98). -/
def State.poolBase (s : State) (q : Nat) : Nat := s.hubFld (migAddr q) 21 27 * migPage
def State.poolFrames (s : State) (q : Nat) : Nat := s.hubFld (migAddr q + 8) 0 16
def State.migCur (s : State) (q : Nat) : Nat := s.hubFld (migAddr q + 16) 0 32
/-- The pages that occupy a pool frame. -/
def State.promoted (s : State) (q : Nat) : List PageHint := s.hints.filter fun h => h.part == q && h.pool.isSome
/-- MIGSTAT.USED follows the promoted pages. -/
def State.countUsed (s : State) (q : Nat) : State := s.hubSetFld (migAddr q + 24) 0 16 (s.promoted q).length

/-! ## Eligibility (R99, R102) -/

/-- The local address that a frame of a leaf entry names on this module (R18). -/
def State.localFrame (s : State) (pa : Nat) : Option Nat :=
  if pa / 2 ^ 51 = 0 ∧ bits pa 48 3 = s.selfIdx then some (pa % 2 ^ 48) else none
/-- Whether a partition can reach every byte of a 2 MiB frame: it holds it, and enabled regions place it (R8, R111). -/
def State.frameHeld (s : State) (q f : Nat) : Bool :=
  (List.range 32).all fun i => s.partHolds q (f + 65536 * i) && (s.regionOf (f + 65536 * i)).isSome
/-- Whether a 2 MiB frame backs an enabled format window. -/
def State.backsFormat (s : State) (f : Nat) : Bool :=
  (List.range 32).any fun n =>
    match s.window n with
    | some w => decide (w.back < f + migPage) && decide (f < w.back + w.backLen)
    | none => false
/-- Whether a page of an address space lies in a registered fabric window. -/
def State.backsFabric (s : State) (part asn va : Nat) : Bool :=
  s.hub.any fun e =>
    if hubWIN ≤ e.1 ∧ e.1 < hubWIN + 0x200000 ∧ (e.1 - hubWIN) % 64 = 0 then
      let w := s.hubGet e.1
      let base := fld (s.hubGet (e.1 + 8)) 3 52 * 8
      let len := s.hubFld (e.1 + 16) 0 41
      bit w 63 && fld w 56 4 == part && fld w 0 16 == asn && decide (base < va + migPage) && decide (va < base + len)
    else false

/-- The migrator as a translator of a hint's address space. -/
def HintRange.who (r : HintRange) : Who := hubWho r.part r.ptbase (BitVec.ofNat 64 r.asn) r.keys

/-- What the migrator learns of one page: nothing where the hint is dropped (R99, R102), an error response being logged (R111), or,
where an entry must be waited for, the state in which it waits. The page is eligible when its translation has R, its 32 entries are one group of the class cached,
and they map a frame of the capacity tier that the partition holds, or the pool frame to which the migrator has moved it. -/
def State.pageHint (s : State) (r : HintRange) (va : Nat) : Except State (Option PageHint × State) :=
  let w := r.who
  match s.walk w .prefetch va with
  | .error (.held u) => .error u
  | .error (.abort c a key) => .ok (none, (s.logError c a key r.part w.req).2)
  | .error (.fault _ _ _) => .ok (none, s)
  | .ok l =>
    match s.localFrame l.frame with
    | none => .ok (none, s)
    | some f =>
      let old := s.hints.find? fun h => h.part == r.part && h.asn == r.asn && h.va == va && h.pool == some f
      match w.keys.getD (fld l.attr 54 4) none with
      | none => .ok (none, s)
      | some key =>
        if bit l.attr 4 && l.size == migPage && f % migPage == 0 && leafClass l.attr == 0 && (inCap f || old.isSome)
            && s.frameHeld r.part f && !s.backsFormat f && !s.backsFabric r.part r.asn va then
          .ok (some { part := r.part, asn := r.asn, va := va, step := r.step, prio := r.prio,
                      home := (old.map PageHint.home).getD f, pool := old.map fun _ => f, leaf := l.entries.headD 0,
                      tkey := fld r.ptbase 0 12, key := key, attr := sharedFields l.attr }, s)
        else .ok (none, s)

/-- A hint replaces the page's earlier one. -/
def State.putHint (s : State) (h : PageHint) : State :=
  { s with hints := s.hints.filter (fun x => !(x.part == h.part && x.asn == h.asn && x.va == h.va)) ++ [h] }

/-! ## Decisions (R100) -/

/-- The distance of a page. -/
def State.hintDist (s : State) (h : PageHint) : Nat := (h.step + 2 ^ 32 - s.migCur h.part) % 2 ^ 32
/-- Whether `x` comes before `y` as the candidate: nearer, higher priority, lower address, lower ASN. -/
def State.nearer (s : State) (x y : PageHint) : Bool :=
  if s.hintDist x ≠ s.hintDist y then decide (s.hintDist x < s.hintDist y)
  else if x.prio ≠ y.prio then decide (y.prio < x.prio)
  else if x.va ≠ y.va then decide (x.va < y.va)
  else decide (x.asn < y.asn)
/-- The first page of a list in an order. -/
def firstBy (before : PageHint → PageHint → Bool) (l : List PageHint) : Option PageHint :=
  l.foldl (fun b h => match b with | some x => if before h x then some h else b | none => some h) none

/-- The pool frame that a promoted page takes: the lowest free one (the manual does not say which; log 114) that lies in the fast
tier and that the partition holds (R98). -/
def State.freeFrame (s : State) (q : Nat) : Option Nat :=
  ((List.range (s.poolFrames q)).map fun i => s.poolBase q + migPage * i).find? fun f =>
    ((s.promoted q).all fun h => h.pool != some f) && inFast f && s.frameHeld q f

def PageHint.move (h : PageHint) (up : Bool) (src dst : Nat) : MigMove :=
  { part := h.part, asn := h.asn, va := h.va, up := up, src := src, dst := dst }

/-- What the migrator decides for a partition: the move that begins. -/
def State.migChoice (s : State) (q : Nat) : Option MigMove :=
  if !bit (s.hubGet (migAddr q)) 63 || s.moves.any (fun m => m.part == q) then none
  else
    match firstBy s.nearer (s.hints.filter fun h => h.part == q && h.pool.isNone) with
    | none => none
    | some c =>
      if (s.promoted q).length < s.poolFrames q then (s.freeFrame q).map fun f => c.move true c.home f
      else
        match firstBy (fun x y => s.nearer y x) ((s.promoted q).filter fun h => !h.dropped) with
        | some v => if s.hintDist c < s.hintDist v then some (v.move false (v.pool.getD 0) v.home) else none
        | none => none

/-- A decision, and the end of the move that it begins as a later step. -/
def State.migDecide (s : State) (q : Nat) : State :=
  match s.migChoice q with
  | some m => { s with moves := s.moves ++ [m] }.later .migrationMoveEnd (.num q)
  | none => s

/-! ## Moves (R101) -/

/-- Memory with `n` bytes from `src` copied to `dst`, in canonical form. -/
def Memory.copy (m : List Host.Cell) (src dst n : Nat) : List Host.Cell :=
  m.takeWhile (fun c => c.1 < dst)
    ++ ((m.filter fun c => decide (src ≤ c.1) && decide (c.1 < src + n)).map fun c => (c.1 - src + dst, c.2))
    ++ m.dropWhile (fun c => c.1 < dst + n)

/-- A table of sectors with those of `n` bytes from `src` at `dst`. -/
def Tab.copy (t : Tab Nat) (src dst n : Nat) : Tab Nat :=
  ((t.filter fun e => decide (src ≤ e.1) && decide (e.1 < src + n)).map fun e => (e.1 - src + dst, e.2)).foldl
    (fun t e => Tab.set 0 t e.1 e.2) (Tab.drop (fun k => decide (dst ≤ k) && decide (k < dst + n)) t)

/-- A frame copied, with its poisoned sectors (R101, R403); under a KeyID whose pair has been replaced every 32-byte unit is
read and written (R109). -/
def State.copyFrame (s : State) (key src dst : Nat) : State :=
  let (first, last) := Tab.get (0, 0) s.keyPairs key
  let s := if first = last then { s with mem := Memory.copy s.mem (s.memKey key src) (s.memKey key dst) migPage }
    else (List.range (migPage / 32)).foldl (fun s i => s.writeMem key (dst + 32 * i) 32 (s.readMem key (src + 32 * i) 32)) s
  { s with poison := Tab.copy s.poison (s.memKey key src / 32) (s.memKey key dst / 32) (migPage / 32) }

/-- The 32 leaf entries as the migrator finds them: the error response of one that cannot be read; or the state in which it waits
for them. -/
def State.readLeaves (s : State) (h : PageHint) : List Nat → Except State (Except (Nat × Nat) (List Word))
  | [] => .ok (.ok [])
  | i :: is =>
    match s.present (some h.part) (h.leaf + 8 * i) h.tkey true with
    | .error e => .ok (.error e)
    | .ok t =>
      match s.readWaits h.tkey t 8 with
      | some u => .error u
      | none =>
        match s.readTarget h.tkey t 8, s.readLeaves h is with
        | .ok x, .ok (.ok xs) => .ok (.ok (BitVec.ofNat 64 x :: xs))
        | .error e, _ => .ok (.error e)
        | _, r => r

/-- Whether the 32 entries are what the migrator expects: those of its hint, over the frame. A and D are not compared (log 128). -/
def State.leafHolds (s : State) (attr : Word) (xs : List Word) (frame : Nat) : Bool :=
  (List.range 32).all fun i =>
    let e := xs.getD i 0
    sharedFields e == attr && entryFrame e == s.global frame + 65536 * i

/-- The 32 leaf entries take another frame. -/
def State.setLeaves (s : State) (h : PageHint) (xs : List Word) (frame : Nat) : State :=
  (List.range 32).foldl (fun s i =>
    match s.present (some h.part) (h.leaf + 8 * i) h.tkey true with
    | .error _ => s
    | .ok t => s.homeWrite none h.tkey t 32 8 255
        (setFld (xs.getD i 0) 16 36 ((s.global frame + 65536 * i) / 65536)).toNat) s

/-- Lines leave every private cache, their dirty words written through, and every die cache, each home being told (R125): those
whose address and KeyID `hit` picks; or the state in which a word that must wait waits. -/
def State.purgeLines (s : State) (hit : Nat → Nat → Bool) : Try :=
  let hits (l : Line) : Bool := hit (l.tag.line * 128) l.tag.key
  let kept (c : PCache) : PCache := { c with lines := c.lines.filter fun l => !hits l || l.dirty != 0 }
  let s := s.l1d.foldl (fun s e =>
    let s := ((s.coreCache e.1).lines.filter hits).foldl (fun s l => (s.coreLineOut e.1 l).anyway) s
    s.setCoreCache e.1 (kept (s.coreCache e.1))) s
  let s := s.ccache.foldl (fun s e =>
    let s := ((s.clusterCache e.1).lines.filter hits).foldl (fun s l => (s.clusterLineOut e.1 l).anyway) s
    s.setClusterCache e.1 (kept (s.clusterCache e.1))) s
  if (s.l1d.any fun e => e.2.lines.any hits) || (s.ccache.any fun e => e.2.lines.any hits) then .error s
  else
    let s : State := { s with
      l1i := s.l1i.foldl (fun t e => Tab.set PCache.empty t e.1 { e.2 with lines := e.2.lines.filter fun l => !hits l }) s.l1i }
    .ok ((s.dieLines.filter fun l : DieLine => hit (l.tag.line * 512) l.tag.key).foldl
      (fun s l => { s with dieLines := s.dieLines.filter fun x => x != l }.dieDropped l) s)

/-- The directory entries of the lines that `hit` picks. -/
def State.entriesHit (s : State) (hit : Nat → Nat → Bool) : List (Nat × DirEntry) :=
  s.dir.filter fun e => hit (e.1 / 4096 * 512) (e.1 % 4096)

/-- Why the directory entries of the lines that `hit` picks cannot be freed now: an agent outside the module owns one dirty, and
is asked for it, or a write to one is not acknowledged (R126, R130); the state in which they wait. -/
def State.linesWait (s : State) (hit : Nat → Nat → Bool) : Option State :=
  let mine := s.entriesHit hit
  if mine.any fun e => (s.homeWaits (e.1 % 4096) (.mem (e.1 / 4096 * 512)) 512).isSome then
    some (mine.foldl (fun s e => s.sendRecalls false (e.1 % 4096) (.mem (e.1 / 4096 * 512)) 512) s)
  else none

/-- Whether a message about a line that `hit` picks is still to be acknowledged (R130). -/
def State.ackOwed (s : State) (hit : Nat → Nat → Bool) : Bool := s.acks.any fun m => hit (m.addr / 512 * 512) m.key

/-- The directory entries of the lines that `hit` picks are freed, and every agent outside the module that they name is told. -/
def State.freeLines (s : State) (hit : Nat → Nat → Bool) : State :=
  (s.entriesHit hit).foldl (fun s (e : Nat × DirEntry) =>
    { s.sendMsgs (e.1 / 4096 * 512) (e.1 % 4096) 512 0 (e.2.agents.filter s.foreign) [] with
      dir := Tab.set DirEntry.empty s.dir e.1 DirEntry.empty }) s

/-- What the homes of the lines that `hit` picks do to have them back: stale owners are handled (R137), other agents' copies are
recalled and the entries freed, and the acknowledgements come in (R126, R130); or the state in which one is awaited. -/
def State.recallLines (s : State) (hit : Nat → Nat → Bool) : Try :=
  let s := (s.entriesHit hit).foldl (fun s e => s.scrubEntry e.1) s
  match s.linesWait hit with
  | some u => .error u
  | none =>
    let s := s.freeLines hit
    if s.ackOwed hit then .error s else .ok s

/-- Lines are gone from every cache and directory, or the state in which they wait. -/
def State.purgeAll (s : State) (hit : Nat → Nat → Bool) : Try := (s.purgeLines hit).andThen fun s => s.recallLines hit

/-- Whether an address and a KeyID lie in a frame. -/
def inFrame (f key a k : Nat) : Bool := k == key && decide (f ≤ a) && decide (a < f + migPage)

/-- Whether a retired store, or a write of a chunk that a copy engine has in hand, still drains into a frame (R101: its words join
the held writes). -/
def State.drainsInto (s : State) (f key : Nat) : Bool :=
  let rows (l : List DrainRow) : Bool := l.any fun r =>
    r.key == key && decide (r.pa < s.global f + migPage) && decide (s.global f < r.pa + r.n)
  (s.strands.any fun e => e.2.drains.any fun d => rows d.rows) || (s.aside.any fun x => rows x.2.2.rows)
    || s.chans.any fun e => e.2.now.any fun c => rows (c.writes.getD [])

/-- The translations of a page leave every TLB of the partition. -/
def State.purgeTlb (s : State) (h : PageHint) : State :=
  { s with tlb := s.tlb.foldl (fun t e => Tab.set [] t e.1 (e.2.filter fun x =>
      !(x.part == h.part && (x.glob || x.asn == h.asn) && decide (x.vbase < h.va + migPage) && decide (h.va < x.vbase + x.size)))) s.tlb }

/-- A move is abandoned (R101): it is counted, and its hint is dropped; a page that was to be demoted keeps its pool frame. -/
def State.abandonMove (s : State) (h : PageHint) : State :=
  let st := s.hubFld (migAddr h.part + 24) 16 16
  let rest := s.hints.filter fun x => x != h
  (({ s with hints := if h.pool.isSome then rest ++ [{ h with dropped := true }] else rest }).hubSetFld (migAddr h.part + 24) 16 16
    (min 65535 (st + 1))).countUsed h.part

/-- A move performed (R101): the stores that drain into the old frame end and its lines are gone with every held write, it is
copied, and its entries are changed; or the move is abandoned; or the state in which it waits. -/
def State.performMove (s : State) (h : PageHint) (m : MigMove) : Try :=
  let s := s.drainEvery.drainAside
  if s.drainsInto m.src h.key then .error s
  else
    (s.purgeAll (inFrame m.src h.key)).andThen fun s =>
      match s.readLeaves h (List.range 32) with
      | .error u => .error u
      | .ok (.error e) => .ok ((s.logError e.1 e.2 h.tkey h.part 0).2.abandonMove h)
      | .ok (.ok xs) =>
        if !s.leafHolds h.attr xs m.src then .ok (s.abandonMove h)
        else
          let rest := s.hints.filter fun x => x != h
          let s := ((s.copyFrame h.key m.src m.dst).setLeaves h xs m.dst).purgeTlb h
          let s := { s with hints := rest ++ [{ h with pool := if m.up then some m.dst else none, dropped := false }] }
          .ok ((s.hubSetFld (migAddr m.part + 24) 32 32 (s.hubFld (migAddr m.part + 24) 32 32 + 1)).countUsed m.part)

/-- The hint that a move belongs to. -/
def State.hintOf (s : State) (m : MigMove) : Option PageHint :=
  s.hints.find? fun h => h.part == m.part && h.asn == m.asn && h.va == m.va

/-- `MIGRATION_MOVE_END` of a partition: a bell suspends the move (R100), and the end of a move is a decision. -/
def execMigrationMoveEnd (s : State) : Out :=
  .next (match s.input with
    | .num q =>
      if s.bellIn then s.defer .migrationMoveEnd (.num q)
      else
        match s.moves.find? fun m => m.part == q with
        | none => s
        | some m =>
          let ended (s : State) : State := ({ s with moves := s.moves.filter fun x => x.part != q }).migDecide q
          match s.hintOf m with
          | none => ended s
          | some h =>
            match s.performMove h m with
            | .ok s => ended s
            | .error u => u.defer .migrationMoveEnd (.num q)
    | _ => s)

/-- `MIGRATOR_HINT` of a partition (R102): the next page of its oldest range; a bell holds the walk. -/
def execMigratorHint (s : State) : Out :=
  .next (match s.input with
    | .num q =>
      match s.hintQueue.find? fun r => r.part == q with
      | none => s
      | some r =>
        match s.pageHint r r.base with
        | .error u => u.defer .migratorHint (.num q)
        | .ok (found, s) =>
          let rest := s.hintQueue.erase r
          let s := { s with hintQueue := if r.len ≤ migPage then rest
            else s.hintQueue.map fun x => if x = r then { r with base := r.base + migPage, len := r.len - migPage } else x }
          (match found with | some h => s.putHint h | none => s).later .migratorHint (.num q)
    | _ => s)

/-- The promoted pages of a partition go back, in order, but where one must wait. -/
def State.demoteAll : List PageHint → State → Try
  | [], s => .ok s
  | h :: hs, s =>
    if s.bellIn then .error s
    else (s.performMove h (h.move false (h.pool.getD 0) h.home)).andThen (State.demoteAll hs)

/-- A write of MIGPOOL (R98). Clearing EN demotes every promoted page and drops every hint, and EN reads 0 after that; a move in
flight is dropped and counted nowhere, as the manual does not say what becomes of it (log 113). PBASE changes only while EN = 0. -/
def State.writeMigpool (s : State) (q : Nat) (v : Word) : Try :=
  let old := s.hubGet (migAddr q)
  if !bit old 63 then .ok (s.hubSet (migAddr q) (v &&& 0x8000FFFFFFE00000))
  else if bit v 63 then .ok s
  else
    let s := { s with moves := s.moves.filter fun m => m.part != q }
    (State.demoteAll ((s.promoted q).filter fun h => !h.dropped) s).andThen fun s =>
      let s := { s with hints := s.hints.filter (fun h => h.part != q), hintQueue := s.hintQueue.filter (fun r => r.part != q) }
      .ok ((s.hubSet (migAddr q) (setFld old 63 1 0)).countUsed q)

/-- A write of MIGSTEP (R98): a changed CUR is a decision (R100). -/
def State.writeMigstep (s : State) (q n : Nat) : State :=
  if s.migCur q = n then s else (s.hubSetFld (migAddr q + 16) 0 32 n).migDecide q

/-- A write of MIGPOOL that comes from outside; where a demotion must wait, the write takes place when it can. -/
def State.migpoolStep (s : State) (q : Nat) (v : Word) : State :=
  match s.writeMigpool q v with
  | .ok s => s
  | .error u => u.defer .migpoolWrite (.word q v)

/-- `MIGPOOL_WRITE` (R98): a partition and a value. -/
def execMigpoolWrite (s : State) : Out := .next (match s.input with | .word q v => if q < 16 then s.migpoolStep q v else s | _ => s)

/-! ## thint and step (R102, R103) -/

/-- `thint` (R102). -/
def execThint (h : Hdr) (d a b : R32) (pr : R8) (s : State) : Out :=
  guarded h 8 s fun s =>
    let base := s.G a
    let len := s.G b
    let q := (s.partOf s.cur).getD 0
    if fld base 0 21 ≠ 0 ∨ fld len 0 21 ≠ 0 then raise 0x07 base 15 s
    else if len ≠ 0 ∧ 2 ^ 55 < base.toNat + len.toNat then raise 0x04 (BitVec.ofNat 64 (2 ^ 55)) 1 s
    else if len = 0 then .ok () s
    else if 256 ≤ (s.hintQueue.filter fun r => r.part == q).length then .wait s
    else
      let t := s.me
      let r : HintRange := { part := q, asn := fld t.asn 0 16, ptbase := t.ptbase, keys := t.keys, base := base.toNat, len := len.toNat,
                             step := fld (s.G d) 0 32, prio := pr.val }
      .ok () ({ s with hintQueue := s.hintQueue ++ [r] }.later .migratorHint (.num q))

/-- `step` (R103). -/
def execStep (h : Hdr) (d a : R32) (s : State) : Out :=
  guarded h 8 s fun s =>
    let q := (s.partOf s.cur).getD 0
    let n := (s.migCur q + fld (s.G a) 0 32) % 2 ^ 32
    .ok () ((s.writeMigstep q n).setG d (BitVec.ofNat 64 n))

end Sys2Proof.Machine
end

