-- ==== Sys2Proof/Machine/Registers.lean ====
section
/-!
DEFINITION. The registers of main memory and of the die cache as the hub writes them: interleave regions (R95, R96), format
windows (R104, R108), keys (R110), the memory error log's head (R112) and the slice map (R138, R139).
-/
namespace Sys2Proof.Machine

/-- A write of a register whose RW fields are `mask` (R5, R6). -/
def State.writeMasked (s : State) (a : Nat) (mask v : Word) : State := s.hubSet a (mergeMask mask (s.hubGet a) v)

/-! ## Interleave regions -/

/-- The tier of a range: 1 fast, 2 capacity, 0 neither (R96). -/
def tierOf (base limit : Nat) : Nat := if limit ≤ fastEnd then 1 else if capBase ≤ base ∧ limit ≤ capEnd then 2 else 0

def Region.tier (r : Region) : Nat := tierOf r.base r.limit
def RegionMemo.region (m : RegionMemo) : Region := { gran := m.gran, dmask := m.dmask, base := m.base, limit := m.limit, chan := m.chan }
/-- Whether a byte of storage, or of another KeyID's storage, lies in the region. -/
def Region.holds (r : Region) (k : Nat) : Bool := decide (r.base ≤ k % 2 ^ 52) && decide (k % 2 ^ 52 < r.limit)

/-- Every (die, channel) of a tier. -/
def allChannels (r : Region) : List (Nat × Nat) :=
  (List.range 4).flatMap fun d => (List.range (channels r.base)).map fun c => (d, c)

/-- Whether two regions use a channel in common. -/
def Region.meets (r q : Region) : Bool :=
  r.tier == q.tier && (allChannels r).any fun p => decide (r.bytesOn p.1 p.2 ≠ 0 ∧ q.bytesOn p.1 p.2 ≠ 0)

/-- Enabled regions other than n. -/
def State.otherRegions (s : State) (n : Nat) : List Region :=
  (List.range 64).filterMap fun k => if k = n then none else s.region k

/-- The conditions of R96 on region n with the fields `r`. The reserved granule GRAN = 3, which R96's list of conditions does not name, is
refused too: the model's choice (log 138). -/
def State.regionOk (s : State) (n : Nat) (r : Region) : Bool :=
  let others := s.otherRegions n
  decide (r.base < r.limit) && r.tier != 0 && r.gran != 3 && r.dmask != 0 &&
    (others.all fun q => decide (r.limit ≤ q.base ∨ q.limit ≤ r.base)) &&
    (r.gran != 2 || (r.base % migPage == 0 && (r.limit % migPage == 0 || r.limit == fastEnd))) &&
    (r.gran != 0 || ((diesOf r.dmask).length == 1 && decide (r.chan < channels r.base))) &&
    (allChannels r).all fun p =>
      decide (((others.filter fun q => q.tier == r.tier).foldl (fun a q => a + q.bytesOn p.1 p.2) (r.bytesOn p.1 p.2))
        ≤ chanCapacity r.base)

/-- What a table keeps of a region's storage: entries are 2^`sh` bytes wide. -/
def Region.part {α : Type} (r : Region) (sh : Nat) (t : Tab α) : Tab α := t.filter fun e => r.holds (e.1 * 2 ^ sh)
def Region.rest {α : Type} (r : Region) (sh : Nat) (t : Tab α) : Tab α := t.filter fun e => !r.holds (e.1 * 2 ^ sh)
/-- A table with the entries of another put into it. -/
def Tab.putAll {α : Type} [DecidableEq α] (d : α) (t u : Tab α) : Tab α := u.foldl (fun t e => Tab.set d t e.1 e.2) t

/-- What is left of the bytes of disabled regions when a region is enabled: those on its channels are lost (R96). -/
def Region.spoils (r : Region) (memos : Tab (Option RegionMemo)) : Tab (Option RegionMemo) :=
  memos.foldl (fun t e =>
    match e.2 with
    | some m => if m.region.meets r then Tab.set none t e.1 none else t
    | none => t) memos

/-- A region is enabled: with the fields it last had, its bytes and its poisoned sectors are as they were; else they are bytes
that nothing has written (R96; log 1). No other region keeps bytes on its channels. -/
def State.enableRegion (s : State) (n : Nat) : State :=
  let r := regionOfWords (s.hubGet (irdA n)) (s.hubGet (irdB n))
  if !s.regionOk n r then s.hubSetFld (irdB n) 63 1 1
  else
    let (cells, poison) := match Tab.get none s.regionMemo n with
      | some m => if m.region = r then (m.cells, m.poison) else ([], [])
      | none => ([], [])
    let s := (s.hubSetFld (irdB n) 63 1 0).hubSetFld (irdA n) 63 1 1
    { s with
      mem := Tab.putAll (0 : Byte) (r.rest 0 s.mem) cells
      poison := Tab.putAll 0 (r.rest 5 s.poison) poison
      regionMemo := r.spoils (Tab.set none s.regionMemo n none) }

/-- EN is cleared: the region's data stays with its fields (R96). -/
def State.disableRegion (s : State) (n : Nat) : State :=
  let r := regionOfWords (s.hubGet (irdA n)) (s.hubGet (irdB n))
  let m : RegionMemo := { gran := r.gran, dmask := r.dmask, base := r.base, limit := r.limit, chan := r.chan,
                          cells := r.part 0 s.mem, poison := r.part 5 s.poison }
  { s.hubSetFld (irdA n) 63 1 0 with
    mem := r.rest 0 s.mem, poison := r.rest 5 s.poison, regionMemo := Tab.set none s.regionMemo n (some m) }

/-- A write of IRDnA (R95, R96). -/
def State.writeIrdA (s : State) (n : Nat) (v : Word) : State :=
  if bit (s.hubGet (irdA n)) 63 then (if bit v 63 then s else s.disableRegion n)
  else
    let s := s.writeMasked (irdA n) 0x7E00FFFFFFFF0000 v
    if bit v 63 then s.enableRegion n else s
/-- A write of IRDnB. -/
def State.writeIrdB (s : State) (n : Nat) (v : Word) : State :=
  if bit (s.hubGet (irdA n)) 63 then s else s.writeMasked (irdB n) 0x0000FFFFFFFF003F v

/-- `IRD_ENABLE` (R96): a region's number and the value written to IRDnA. -/
def execIrdEnable (s : State) : Out :=
  .next (match s.input with | .word n v => if n < 64 ∧ bit v 63 then s.writeIrdA n v else s | _ => s)
/-- `IRD_DISABLE` (R96): a region's number. -/
def execIrdDisable (s : State) : Out :=
  .next (match s.input with | .num n => if n < 64 ∧ bit (s.hubGet (irdA n)) 63 then s.writeIrdA n 0 else s | _ => s)

/-! ## Format windows -/

/-- The ranges of logical space that a window takes. -/
def Window.ranges (w : Window) : List (Nat × Nat) := (w.lbase, w.llen) :: if w.fmt = 1 then [(w.rbase, w.rawLen)] else []

/-- The conditions of R104 on window n. They compare its ranges with other windows' only: a pip window whose raw alias overlaps its own
logical range is enabled, and there the raw alias wins: the model's choice (log 139). -/
def State.windowOk (s : State) (n : Nat) : Bool :=
  let w := s.windowFields n
  let apart (x y : Nat × Nat) : Bool := decide (x.1 + x.2 ≤ y.1 ∨ y.1 + y.2 ≤ x.1)
  w.fmt != 3 && w.llen != 0 && (w.ranges.all fun x => decide (logBase ≤ x.1 ∧ x.1 + x.2 ≤ logEnd)) &&
    tierOf w.back (w.back + w.backLen) != 0 && (w.fmt != 1 || w.back % 64 == 0) && (w.fmt != 2 || w.back % 65536 == 0) &&
    (List.range 32).all fun k =>
      if k = n then true
      else match s.window k with
        | some q => w.ranges.all fun x => q.ranges.all fun y => apart x y
        | none => true

/-- INV: an invalidation begins (R104, R108). -/
def State.beginInvalidate (s : State) (n : Nat) : State :=
  if s.hubFld (fwAddr n) 61 1 = 1 then s else (s.hubSetFld (fwAddr n) 61 1 1).later .fwInvalidateEnd (.num n)

/-- A write of FWnCTL (R104). -/
def State.writeFwCtl (s : State) (n : Nat) (v : Word) : State :=
  let s := if bit v 62 then s.beginInvalidate n else s
  if bit (s.hubGet (fwAddr n)) 63 then (if bit v 63 then s else s.hubSetFld (fwAddr n) 63 1 0)
  else
    let s := s.writeMasked (fwAddr n) 0x0300FFF00000000F v
    if bit v 63 && s.windowOk n then s.hubSetFld (fwAddr n) 63 1 1 else s
/-- A write of another register of window n, at offset `o`. -/
def State.writeFw (s : State) (n o : Nat) (v : Word) : State :=
  if o = 0 then s.writeFwCtl n v
  else if bit (s.hubGet (fwAddr n)) 63 then s
  else
    let mask : Word := match o with
      | 8 | 32 => 0x0000FFFFFFFF0000
      | 16 => 0x000000FFFFFF0000
      | 24 => 0x0000FFFFFFFFFFFF
      | _ => 0
    s.writeMasked (fwAddr n + o) mask v

/-- `FW_ENABLE` (R104): a window's number and the value written to FWnCTL. -/
def execFwEnable (s : State) : Out :=
  .next (match s.input with | .word n v => if n < 32 ∧ bit v 63 then s.writeFwCtl n v else s | _ => s)
/-- `FW_INVALIDATE` (R108). -/
def execFwInvalidate (s : State) : Out :=
  .next (match s.input with | .num n => if n < 32 then s.beginInvalidate n else s | _ => s)

/-- Every die of this module no longer holds the grains of the lines that `hit` picks. -/
def State.dropPointers (s : State) (hit : Nat → Nat → Bool) : State :=
  let own (g : Grain) : Grain :=
    { g with owner := g.owner.filter fun o => s.foreign o.1,
             sharers := (List.range 4).foldl (fun sh d => sh.remove (s.agentOf d)) g.sharers }
  s.dir.foldl (fun s e =>
    if hit (e.1 / 4096 * 512) (e.1 % 4096) then
      s.setDirEntry (e.1 / 4096 * 512) (e.1 % 4096) { e.2 with grains := e.2.grains.map own }
    else s) s

/-- The sweep of an invalidation (R108), window n having been written EN = 1: the decoded lines leave every cache of the module, their
dirty words written back. A bell holds the write-backs, and with them the lines that have one to make (R114). -/
def State.sweepWindow (s : State) (n : Nat) : Try :=
  let w := s.windowFields n
  let hit (a k : Nat) : Bool := w.fmt != 2 && k == w.key && w.hasLog a
  let held (s : State) (a k : Nat) : Bool := s.bellIn && (Tab.get DecLine.clean s.decoded (decKey a k)).dirty != 0
  let now (a k : Nat) : Bool := hit a k && !held s a k
  (s.purgeLines now).andThen fun s =>
    let s := s.dropPointers now
    if s.decoded.any fun e => hit (e.1 / 4096 * 512) (e.1 % 4096) && held s (e.1 / 4096 * 512) (e.1 % 4096) then .error s
    else .ok (s.encodeLines hit)

/-- `FW_INVALIDATE_END` (R108): the sweep of a window; a line that must wait holds its end. A window that has been disabled is swept
under the registers it has, where it could be enabled with them (log 129). -/
def execFwInvalidateEnd (s : State) : Out :=
  .next (match s.input with
    | .num n =>
      if 32 ≤ n ∨ s.hubFld (fwAddr n) 61 1 = 0 then s
      else
        let en := s.hubFld (fwAddr n) 63 1
        let back (s : State) : State := s.hubSetFld (fwAddr n) 63 1 en
        match (if en = 0 ∧ s.windowOk n then s.hubSetFld (fwAddr n) 63 1 1 else s).sweepWindow n with
        | .error u => (back u).defer .fwInvalidateEnd (.num n)
        | .ok u => (back u).hubSetFld (fwAddr n) 61 1 0
    | _ => s)

/-! ## Keys -/

def keyCmd : Nat := hubKEY + 64
/-- FAIL of the last command. -/
def State.keyFail (s : State) (b : Bool) : State := s.hubSetFld keyCmd 62 1 (b2n b)

/-- The key pair in KEYDATA. -/
def State.keyPair (s : State) : Nat := packN 64 ((List.range 8).map fun j => (Tab.get 0 s.keyData j).toNat)

/-- Bytes of storage under a KeyID whose pair `last` gives way to `new`, `first` being its first: the ciphertext stays, so that every
32-byte unit reads as what the new pair makes of it (R109). -/
def recipher (key first last new : Nat) (m : List Host.Cell) : List Host.Cell :=
  let base (p u : Nat) : Nat := if p = first then 0 else xtsRead first p u 0
  ((m.filter fun c => c.1 / 2 ^ 52 == key).map fun c => c.1 / 32).eraseDups.foldl (fun m k =>
    let u := k % 2 ^ 47
    Memory.write m (32 * k) 32 (xtsRead last new u (Memory.read m (32 * k) 32 ^^^ base last u) ^^^ base new u)) m

/-- A KeyID takes the pair at a place of `State.keyring`, counted from 1 (R109). -/
def State.takePair (s : State) (k i : Nat) : State :=
  let (first, last) := Tab.get (0, 0) s.keyPairs k
  if last = 0 then { s with keyPairs := Tab.set (0, 0) s.keyPairs k (i, i) }
  else if last = i then s
  else
    let turn := recipher k (s.pairAt first) (s.pairAt last) (s.pairAt i)
    { s with
      keyPairs := Tab.set (0, 0) s.keyPairs k (first, i)
      mem := turn s.mem
      regionMemo := s.regionMemo.map fun e => (e.1, e.2.map fun m => { m with cells := turn m.cells }) }

/-- *Program* (R110): a KeyID takes the pair of KEYDATA. -/
def State.programKey (s : State) (k : Nat) : State :=
  if k = 0 ∨ Tab.get 0 s.keySpace k ≠ 0 then s.keyFail true
  else
    let p := (k, s.keyPair)
    let ring := if s.keyring.contains p then s.keyring else s.keyring ++ [p]
    let i := ring.idxOf p + 1
    { s.keyFail false with keyring := ring, keySpace := Tab.set 0 s.keySpace k i }.takePair k i

/-- *Retire* (R110): the sweep begins. -/
def State.retireKey (s : State) (k : Nat) : State :=
  if k = 0 ∨ Tab.get 0 s.keySpace k = 0 then s.keyFail true
  else { (s.keyFail false).hubSetFld keyCmd 63 1 1 with retiring := some k }.later .keyRetireEnd .none

/-- A write of KEYCMD. -/
def State.writeKeyCmd (s : State) (v : Word) : State :=
  if s.retiring.isSome then s
  else if fld v 12 2 = 1 then s.programKey (fld v 0 12)
  else if fld v 12 2 = 2 then s.retireKey (fld v 0 12)
  else s

/-- `KEY_PROGRAM` (R110): a KeyID. -/
def execKeyProgram (s : State) : Out :=
  .next (match s.input with | .num k => if s.retiring.isSome ∨ 4096 ≤ k then s else s.programKey k | _ => s)
/-- `KEY_RETIRE` (R110): a KeyID. -/
def execKeyRetire (s : State) : Out :=
  .next (match s.input with | .num k => if s.retiring.isSome ∨ 4096 ≤ k then s else s.retireKey k | _ => s)

/-- `KEY_RETIRE_END` (R110, R132): the sweep ends: dirty lines, those of other agents too, are written back under the old key, its
lines and directory entries are gone, and the KeyID is unprogrammed; a bell, or a line that must wait, holds it. -/
def execKeyRetireEnd (s : State) : Out :=
  .next (match s.retiring with
    | none => s
    | some k =>
      if s.bellIn then s.defer .keyRetireEnd .none
      else
        let under (_ x : Nat) : Bool := x == k
        match s.purgeAll under with
        | .error u => u.defer .keyRetireEnd .none
        | .ok s =>
          let s := s.encodeLines under
          { (s.hubSetFld keyCmd 63 1 0) with keySpace := Tab.set 0 s.keySpace k 0, retiring := none })

/-! ## The memory error log (R112) -/

def melHead : Nat := hubMEL + 1024
/-- CONS: the n oldest unread entries are read. -/
def State.consume (s : State) (n : Nat) : State := s.hubSetFld melHead 8 7 (s.hubFld melHead 8 7 - n)
/-- A write of MELHEAD: LOST is W1C. -/
def State.writeMelHead (s : State) (v : Word) : State :=
  (s.consume (fld v 24 8)).hubSet melHead ((s.consume (fld v 24 8)).hubGet melHead &&& ~~~ (v &&& 0xFFFFFFFF00000000))

/-- `MELHEAD_CONS` (R112): a count. -/
def execMelheadCons (s : State) : Out := .next (match s.input with | .num n => s.consume (n % 256) | _ => s)

/-! ## The slice map (R138, R139) -/

def slCtl (d : Nat) : Nat := slAddr d + 256
def State.slBusy (s : State) (d : Nat) : Bool := bit (s.hubGet (slCtl d)) 63

/-- APPLY is refused for PWR = 0 or an SLNEW entry of a group that loses power. -/
def State.sliceRefused (s : State) (d : Nat) : Bool :=
  let pwr := s.hubFld (slCtl d) 0 8
  pwr == 0 || (List.range 128).any fun h => bits pwr (s.sliceNew d h / 16) 1 == 0

/-- A write of SLCTL of die d: while BUSY is set none of it has an effect. The manual says so of PWR and does not say it of APPLY
(R138; log 116). -/
def State.writeSlctl (s : State) (d : Nat) (v : Word) : State :=
  if s.slBusy d then s
  else
    let s := s.writeMasked (slCtl d) 0xFF v
    if !bit v 61 then s
    else if s.sliceRefused d then s.hubSetFld (slCtl d) 62 1 1
    else ((s.hubSetFld (slCtl d) 62 1 0).hubSetFld (slCtl d) 63 1 1).later .sliceDrainEnd (.num d)
/-- A write of SLNEWj. -/
def State.writeSlnew (s : State) (d j : Nat) (v : Word) : State :=
  if s.slBusy d then s else s.writeMasked (slAddr d + 8 * j) 0x7F7F7F7F7F7F7F7F v

/-- `SLCTL_APPLY` (R138): a die and the value written to its SLCTL. -/
def execSlctlApply (s : State) : Out :=
  .next (match s.input with | .word d v => if d < 4 ∧ bit v 61 then s.writeSlctl d v else s | _ => s)

/-- The lines that the dark slices of a die hold for other homes are written back and dropped, and their homes are told (R139). -/
def State.darken (s : State) (d : Nat) : State :=
  let dark (l : DieLine) : Bool :=
    l.agent == s.agentOf d && bits (s.hubFld (slCtl d) 0 8) (s.sliceCur d (sliceHash (l.tag.line * 512 % 2 ^ 48)) / 16) 1 == 0
  (s.dieLines.filter dark).foldl (fun t l => t.dieDropped l) { s with dieLines := s.dieLines.filter fun l => !dark l }

/-- `SLICE_DRAIN_END` (R139): the slices that move have recalled every remote copy, and written their lines back, and the slices
that lose power have dropped what they cached for other homes; the change waits for a bell. -/
def execSliceDrainEnd (s : State) : Out :=
  .next (match s.input with
    | .num d =>
      if 4 ≤ d ∨ !s.slBusy d ∨ s.sliceDrained.contains d then s
      else if s.bellIn then s.defer .sliceDrainEnd (.num d)
      else
        let moved (a _ : Nat) : Bool := decide (a < 2 ^ 51) && s.homeOfLine a == d && s.sliceMoving d a
        match s.recallLines moved with
        | .error u => u.defer .sliceDrainEnd (.num d)
        | .ok s =>
          let s := s.encodeLines moved
          let s := { s with dieLines := s.dieLines.filter fun l => !moved (l.tag.line * 512) l.tag.key }
          { s.darken d with sliceDrained := s.sliceDrained ++ [d] }
    | _ => s)

end Sys2Proof.Machine
end

