-- ==== Sys2Proof/Machine/System.lean ====
section
/-!
DEFINITION. The other system instructions of format M op 0x2C: `stest` (R390), `subup` (R134), `bellq` and `bellw` (R409,
R410).
-/
namespace Sys2Proof.Machine

/-! ## stest (R390) -/

def testAddr (c : Nat) : Nat := hubTEST + 8 * c

/-- The partition's cluster next to `c` with the shortest queue. -/
def State.shortestNear (s : State) (q c : Nat) : Option Nat :=
  ((s.clustersOf q).filter fun m => adjacent c m).foldl (fun (b : Option Nat) m =>
    match b with
    | some x => if (s.queueOf q m).length < (s.queueOf q x).length then some m else b
    | none => some m) none

/-- A partition's queue on a cluster moves to its adjacent clusters: each entry, in queue order, to the one whose queue is shortest
then (R350, R390; log 27). -/
def State.emptyQueue (s : State) (q c : Nat) : State :=
  let ids := (sortQueue ((s.queueOf q c).filter fun t => t.state == .queued)).map Task.id
  ids.foldl (fun s id =>
    match s.shortestNear q c with
    | some m => (s.sendTasks [id] m).later .taskPlacement (.num2 q m)
    | none => s) s

/-- An accepted test: the queues of the partitions that hold the cluster move, and every task that is resident there is asked to
save. -/
def State.beginTest (s : State) (c : Nat) : State :=
  let s := s.hubSetFld (testAddr c) 63 1 1
  let s := ((List.range 16).filter fun q => s.partEnabled q && s.partHasCluster q c).foldl (fun s q => s.emptyQueue q c) s
  let here (t : Task) : Bool := t.state == .resident && t.keys.any fun k => clusterOf k == c
  ((s.tasks.filter here).foldl (fun s t => s.requestSave t true) s).later .selfTestRun (.num c)

/-- `stest` (R390). -/
def execStest (h : Hdr) (d a : R32) (s : State) : Out :=
  privileged s (guarded h 8 s fun s =>
    let n := (s.G a).toNat
    let die := didOf s.cur
    let c := die * 64 + n
    let q := (s.partOf s.cur).getD 0
    .ok () (
      if 64 ≤ n ∨ s.partHasCluster q c = false then s.setG d 1
      else if s.hubFld (testAddr c) 63 1 = 1 then s.setG d 2
      else if (s.clustersOf q).filter (fun x => x / 64 == die) = [c] then s.setG d 3
      else (s.beginTest c).setG d 0))

/-! ## subup (R134) -/

/-- Whether a die holds a pointer of native format for a grain (R134), in whichever mode, or owns it. -/
def Grain.nativeOf (g : Grain) (ag inc : Nat) : Bool :=
  (match g.owner with | some (a, i) => a == ag && i == inc | none => false) ||
    (match g.sharers with | .ptrs l => l.any fun p => p.agent == ag && p.inc == inc && p.fmt == 0 | .coarse _ => false)

/-- The grain of a byte as the directory holds it. -/
def State.grainAt (s : State) (key : Nat) (t : Target) (gran : Nat) : Grain :=
  let e := s.dirEntry t.addr key gran
  e.grains.getD (t.addr % 512 / e.grain) Grain.di

/-- The upgrade of a grain by a die (R126's Up). In DI, DE and DO the manual's table has a dash: the entry stays as it is, and
the die keeps no copy that the entry would not name (log 115). While the home slice is being moved nothing is recorded (R139). -/
def State.upgrade (s : State) (die h : Nat) (p : Piece) : State :=
  let ag := s.agentOf die
  if s.sliceMoving h p.t.addr then s
  else
    let s' := s.onGrains p.key p.t 1 (leafGrain p.attr) fun _ _ g st => (g.up ag (st.incOf ag), st)
    let g := s'.grainAt p.key p.t (leafGrain p.attr)
    if (g.owner.any fun o => o.1 == ag) || g.sharers.agents.contains ag then
      s'.gainSectors ag (nativeDieTag p.t.addr p.key) (s'.grainSectors p.key p.t 1 (leafGrain p.attr))
    else s'

/-- The error that a read of a whole grain at the home meets (R111), if any. -/
def State.grainError (s : State) (key : Nat) (t : Target) (ga gsz : Nat) : Option (Nat × Nat) :=
  (List.range (max 1 (gsz / 128))).findSome? fun i =>
    match s.readTarget key (t.at (ga + 128 * i)) (min gsz 128) with
    | .error e => some e
    | .ok _ => none

/-- `subup` of a grain of this module that another die holds or may hold. -/
def upHere (w : Who) (die h : Nat) (p : Piece) (s : State) : Res Unit :=
  let s := s.scrub p.key p.t 1
  let ag := s.agentOf die
  if (s.grainAt p.key p.t (leafGrain p.attr)).nativeOf ag (s.incOf ag) then .ok () s
  else if s.bellIn then .wait s
  else
    match s.homeWaits p.key p.t 1 with
    | some u => .wait u
    | none =>
      let g := (s.dirEntry p.t.addr p.key (leafGrain p.attr)).grain
      match s.grainError p.key p.t (p.t.addr / g * g) g with
      | some e => raiseBad w p.va (.abort e.1 e.2 p.key) s
      | none => .ok () (s.upgrade die h p)

/-- `subup` of a grain homed in another member of the set (R313): the die's own copy of native format stands for its pointer. -/
def upFar (die pa : Nat) (p : Piece) (s : State) : Res Unit :=
  let g := leafGrain p.attr
  let base := pa / g * g
  let tag := nativeDieTag (farAddr pa) p.key
  let m := sectorsAt (farAddr base) g
  if s.dieLine (s.agentOf die) tag &&& m = m ∨ s.dieLine (s.agentOf die) { tag with mode := 1 } &&& m = m then .ok () s
  else if s.bellIn then .wait s
  else .ok () ((s.sendFar .up (cohMsg (s.agentOf die) base p.key g 0 none) 0).farFetch die tag base g).2

/-- `subup` (R134). -/
def execSubup (h : Hdr) (a : R32) (s : State) : Out :=
  guarded h 8 s fun s =>
    let va := (s.G a).toNat
    let w := s.who s.cur
    let die := didOf s.cur
    match s.pieceAD w .load Align.any va 1 false with
    | .error (e, s) => raiseBad w va e s
    | .ok (p, s) =>
      match p.t, s.homeOf p.t with
      | .far pa, _ => upFar die pa p s
      | _, none => .ok () s
      | _, some k => if k = die then .ok () s else upHere w die k p s

/-! ## bellq and bellw (R409, R410) -/

/-- `bellq.peal` (R409). -/
def execBellqPeal (h : Hdr) (d : R32) (s : State) : Out := guarded h 8 s fun s => .ok () (s.setG d (s.SR .bpeal))
/-- `bellq.len` (R409). -/
def execBellqLen (h : Hdr) (d : R32) (s : State) : Out := guarded h 8 s fun s => .ok () (s.setG d (s.SR .blen))
/-- `bellq.next` (R409). -/
def execBellqNext (h : Hdr) (d : R32) (s : State) : Out := guarded h 8 s fun s => .ok () (s.setG d (s.SR .bnext))

/-- The peal of the bell that a `bellw` waits for (R410). -/
def State.bellToWait (s : State) : Nat := if s.bellIn then s.bellStart / pealLen else s.bellPeal

/-- `bellw` (R410): it retires when the bell that it chose at its first execution has ended. -/
def execBellw (h : Hdr) (s : State) : Out :=
  if !s.guard h then done 8 s (.ok () s)
  else
    match s.me.bellWait with
    | none => .next (s.modMe fun t => { t with bellWait := some s.bellToWait })
    | some p =>
      if !s.bellIn && decide (p < s.bellPeal) then done 8 s (.ok () (s.modMe fun t => { t with bellWait := none }))
      else .next s

end Sys2Proof.Machine
end

