-- ==== Sys2Proof/Machine/Bells.lean ====
section
/-!
DEFINITION. Bells (R391 to R398), machine-check events with their banks and rings (R402 to R407), self-test (R408), sensors,
the power controller and the ring heaters (R400, R444, R445).
-/
namespace Sys2Proof.Machine

/-! ## Recording (R404) -/

def mcAddr (b : Nat) : Nat := hubMC + 64 * b

/-- The class that R402 gives an event; 0x0011 and the records that a threshold raises bring their own. -/
def classOf402 (e : McEvent) : Nat :=
  match e.code with
  | 0x01 | 0x02 | 0x03 | 0x20 | 0x31 | 0x40 => 1
  | 0x04 | 0x05 | 0x21 | 0x41 | 0x50 | 0x51 | 0x52 | 0x53 | 0x60 => 2
  | 0x32 => 3
  | 0x10 | 0x30 => if e.cls = 2 then 2 else 1
  | 0x11 => if e.cls = 3 then 3 else if e.cls = 2 then 2 else 1
  | _ => 0

/-- The image of MCSTAT. -/
def statImage (e : McEvent) (cls : Nat) : Word :=
  BitVec.ofNat 64 (2 ^ 63 + cls * 2 ^ 60 + b2n e.addr.isSome * 2 ^ 59 + b2n e.syn.isSome * 2 ^ 58 +
    (if cls = 2 then e.part % 16 else 0) * 2 ^ 54 + e.unit % 4096 * 2 ^ 40 + e.code % 65536 * 2 ^ 16)
/-- The image of MCADDR. -/
def addrImage (e : McEvent) : Word := BitVec.ofNat 64 (e.key % 4096 * 2 ^ 52 + e.addr.getD 0 % 2 ^ 52)

/-- A record in its bank: written when V = 0 or its class is higher, else OVER is set. -/
def State.bankRecord (s : State) (e : McEvent) (cls : Nat) : State :=
  let a := mcAddr e.bank
  let old := s.hubGet a
  if !bit old 63 || decide (fld old 60 2 < cls) then
    let s := s.hubSet a (statImage e cls ||| (old &&& (1 <<< 62)))
    let s := if e.addr.isSome then s.hubSet (a + 8) (addrImage e) else s
    match e.syn with
    | some x => s.hubSet (a + 16) x
    | none => s
  else s.hubSetFld a 62 1 1

/-- COUNT of a bank. -/
def State.mcCount (s : State) (b : Nat) : Nat := s.hubFld (mcAddr b + 24) 0 32
/-- A corrected event adds to COUNT; when COUNT reaches THRESH, a contained record is raised (R404). -/
def State.countCorrected (s : State) (e : McEvent) : State :=
  let n := min (s.mcCount e.bank + 1) 0xFFFFFFFF
  let s' := s.hubSetFld (mcAddr e.bank + 24) 0 32 n
  let thr := s.hubFld (mcAddr e.bank + 24) 32 16
  if thr ≠ 0 ∧ n = thr ∧ s.mcCount e.bank < thr then
    s'.raiseCheck { e with code := if e.code = 0x30 then 0x30 else 0x10, cls := 2, kills := none }
  else s'

/-! ## Delivery (R405) -/

/-- A contained event's delivery; a bell holds it. -/
def State.deliver (s : State) (e : McEvent) : State :=
  s.sendRecord { part := e.part % 16, stat := statImage e 2, addr := addrImage e, syn := e.syn.getD 0, time := s.time }

/-! ## Responses (R402, R403) -/

/-- Whether a line of a private cache holds a line address under a KeyID. -/
def Line.holds (l : Line) (a key : Nat) : Bool := l.tag.line == a / 128 && l.tag.key == key

/-- The copy of a line that an error of the private caches of a strand's cluster hits: the strand's core's, or else the cluster
cache's; it is gone (R403). -/
def State.loseLine (s : State) (sid a key : Nat) : List Line × State :=
  let core := sid / 2
  let without (c : PCache) : PCache := { c with lines := c.lines.filter fun l => !l.holds a key }
  let own := (s.coreCache core).lines.filter fun l => l.holds a key
  let code := Tab.get PCache.empty s.l1i core
  if own.isEmpty && !(code.lines.any fun l => l.holds a key) then
    let c := s.clusterCache (sid / 8)
    (c.lines.filter fun l => l.holds a key, s.setClusterCache (sid / 8) (without c))
  else (own, { s.setCoreCache core (without (s.coreCache core)) with l1i := Tab.set PCache.empty s.l1i core (without code) })

/-- Where an uncorrectable SECDED error lies, by its bank (R403, R404). -/
def inPrivate (e : McEvent) : Bool := decide (e.bank < 32) && e.bank % 8 == 2
def inTiles (e : McEvent) : Bool := decide (e.bank < 32) && e.bank % 8 == 1
def inDieCache (e : McEvent) : Bool := decide (e.bank < 32) && e.bank % 8 == 3

/-- The lines of private caches with dirty words that an uncorrectable error loses. -/
def State.linesLost (s : State) (e : McEvent) : List Line :=
  match e.addr with
  | some a => if inPrivate e then (s.loseLine (e.unit % 2048) a e.key).1.filter fun l => l.dirty != 0 else []
  | none => []

/-- The class of an event (R402); that of an uncorrectable SECDED error follows from where it lies (R403): a directory entry and a
table are given as fatal, a clean copy is corrected, and dirty words, a home line and a tile are contained. -/
def State.checkClass (s : State) (e : McEvent) : Nat :=
  if e.code ≠ 0x11 ∨ e.cls = 3 then classOf402 e
  else if inPrivate e then (if (s.linesLost e).isEmpty then 1 else 2)
  else if inDieCache e then (if s.homeOfLine (e.addr.getD 0) == e.bank / 8 then 2 else 1)
  else if inTiles e then 2
  else classOf402 e

/-- The sectors of an event's line that it poisons (R403). -/
def State.poisonOf (s : State) (e : McEvent) (a : Nat) : Tab Nat :=
  let m := if e.sectors = 0 then 2 ^ (a % 512 / 32) else e.sectors
  ((List.range 16).filter fun i => bits m i 1 = 1).foldl (fun t i => Tab.set 0 t (s.memKey e.key (a / 512 * 512) / 32 + i) 255) s.poison

/-- The task that a line's dirty words are of (R403). -/
def State.taskTagged (s : State) (ttag : Nat) : Option Task := s.tasks.find? fun t => t.state != .ended && t.ttag.toNat == ttag && ttag != 0

/-- The partition that an event is about: that of the task whose words or registers are lost, so that no other partition's state
changes (R406); else the one that the event names. -/
def State.checkPart (s : State) (e : McEvent) : Nat :=
  if e.code = 0x11 ∧ inPrivate e then
    (((s.linesLost e).findSome? fun l => s.taskTagged l.ttag).map Task.part).getD e.part
  else if e.code = 0x04 ∨ e.code = 0x05 ∨ (e.code = 0x11 ∧ inTiles e) then ((e.kills.bind s.partOf).getD e.part)
  else e.part

/-- What an uncorrectable error does by where it lies (R403): a copy of the private caches is gone, and the tasks that had dirty words
in it die; the sectors of a home line, or of memory, are poisoned. -/
def State.uncorrectable (s : State) (e : McEvent) (cls : Nat) : State :=
  match e.addr with
  | none => s
  | some a =>
    if e.code = 0x11 ∧ inPrivate e then
      let tags := (s.linesLost e).map Line.ttag
      let s := (s.loseLine (e.unit % 2048) a e.key).2
      let dead (t : Task) : Bool := t.state != .ended && tags.contains t.ttag.toNat && t.part == e.part
      (s.tasks.filter dead).foldl (fun s t => s.killTask t.id 0x14 0) s
    else if (inDieCache e ∨ e.code = 0x60) ∧ cls = 2 then { s with poison := s.poisonOf e a }
    else s

/-- The strand whose task an error kills (R402, R403): that of UNIT for a second residue mismatch or a lost register, the one whose
registers map the tile, accumulator or plane for a lost one. None is of another partition than the event's (R406). -/
def State.victim (s : State) (e : McEvent) : Option Nat :=
  let at' :=
    if e.code = 0x04 ∨ e.code = 0x05 then
      e.kills.or ((s.bankOn (e.unit % 2048 / 8)).map fun b => keyOf b (e.unit % 2048))
    else if e.code = 0x11 ∧ inTiles e then
      match e.tile with
      | some (acc, id) => e.kills.filter fun key => ((s.strand key).physIds acc false).contains id
      | none => e.kills
    else none
  at'.filter fun key => s.partOf key == some e.part

/-- A fatal event (R407): the module stops and signals the management port. -/
def State.stopModule (s : State) : State := { s with fatal := true }

/-- `MACHINE_CHECK_EVENT` (R402): an event, recorded, answered and delivered. -/
def execMachineCheckEvent (s : State) : Out :=
  .next (match s.input with
    | .check e =>
      let cls := s.checkClass e
      let e := { e with part := s.checkPart e }
      if cls = 0 ∨ 37 ≤ e.bank then s
      else
        let s := s.bankRecord e cls
        if cls = 3 then s.stopModule
        else
          let s := if cls = 1 then s.countCorrected e else s.deliver e
          let s := if e.code = 0x11 ∨ e.code = 0x60 then s.uncorrectable e cls else s
          match s.victim e with
          | some key => s.killAt key 0x14 0
          | none => s
    | _ => s)

/-- Steps that a module stopped by a fatal event still takes: its reset, and what the management port may ask (R407, R442,
R446). -/
def fatalAllows : Instr → Bool
  | .powerOnReset | .moduleResetCommand | .getVersion | .getCapabilities | .negotiateAlgorithms | .getDigests | .getCertificate
  | .challenge | .getMeasurements | .debugToken => true
  | _ => false

/-! ## Sensors and ring heaters (R444, R445) -/

def sensAddr (i : Nat) : Nat := hubSENS + 8 * i
def rhlAddr (f : Nat) : Nat := hubRHL + 8 * f

/-- A TMAX in units of 1/16 °C, two's complement. -/
def tmaxOf (w : Word) : Int := sextN 16 (fld w 32 16)

/-- A refreshed sensor: V, HOT by its TMAX, and a fatal event at 115 °C (R444). -/
def State.senseOne (s : State) (i : Nat) (w : Word) : State :=
  let x := BitVec.ofNat 64 (2 ^ 63 + b2n (decide (1680 ≤ tmaxOf w)) * 2 ^ 62 + fld w 32 16 * 2 ^ 32 + fld w 0 16)
  let s := s.hubSet (sensAddr i) x
  if 1840 ≤ tmaxOf w then
    s.raiseCheck { code := 0x32, bank := 36, cls := 3, part := 0, unit := i, addr := none, key := 0, syn := none, kills := none }
  else s

/-- The readings of the sensors that a bell samples, in their order; one that its step does not name is free. -/
def State.sense (s : State) (which : List Nat) (ws : List Word) : State :=
  (List.range which.length).foldl (fun s j => s.senseOne (which.getD j 0) (ws.getD j (Config.sensor s.steps (which.getD j 0)))) s

/-- `POWER_CONTROLLER_UPDATE` (R400, R444): PLIM as the controller sets it, lowered while a die is hot. -/
def execPowerControllerUpdate (s : State) : Out :=
  .next (match s.input with
    | .num p =>
      let plim := s.hubFld lvmAddr 16 16
      let hot := (List.range 5).any fun i => bit (s.hubGet (sensAddr i)) 62
      let new := if hot then (if 4096 < plim then max 4096 (plim - 1024) else plim) else p % 65536
      (s.hubSetFld lvmAddr 16 16 new).leaveLook
    | _ => s)

/-- HOLD of a loop. -/
def State.ringHeld (s : State) (f : Nat) : Bool := bit (s.hubGet (rhlAddr f)) 61

/-- `RING_HEATER_TRACK` (R445): a loop, the code it moves towards, and its temperature; at most one code a µs, between bells. -/
def execRingHeaterTrack (s : State) : Out :=
  .next (match s.input with
    | .num3 f code temp =>
      if 256 ≤ f ∨ s.bellIn then s
      else
        let old := s.hubFld (rhlAddr f) 16 16
        let new := if s.ringHeld f then old else if old < code then old + 1 else if code < old then old - 1 else old
        (s.hubSetFld (rhlAddr f) 32 16 temp).hubSetFld (rhlAddr f) 16 16 new
    | _ => s)

/-- A corrected event of the fabric's bank. -/
def fabricEvent (code unit syn : Nat) : McEvent :=
  { code := code, bank := 32, cls := 1, part := 0, unit := unit, addr := none, key := 0, syn := some (BitVec.ofNat 64 syn), kills := none }

/-- The retune of a great bell (R306, R393, R445): a loop with HOLD is deferred; each other loop has its wavelengths back, but
those of rings that cannot lock, which set FAULT and are taken out of use, which is logged (R402). A fibre that the cabling check
took out is remapped: it is in use again, and its cabling is checked again (R402, R437; log 136). `done` says which loops are
reached. -/
def State.retune (s : State) (rings : List (Nat × Nat × Nat)) (lost : List Nat) (done : Nat → Bool) : State :=
  let s := { s with cabled := s.cabled && s.fibresOut.isEmpty, fibresOut := [] }
  (List.range 256).foldl (fun s f =>
    if s.ringHeld f || !done f then s
    else
      let bad := lost.filter fun x => x / 32 == f
      let s := (s.hubSetFld (rhlAddr f) 63 1 (b2n bad.isEmpty)).hubSetFld (rhlAddr f) 62 1 (b2n !bad.isEmpty)
      let s := match rings.find? fun r => r.1 == f with
        | some (_, temp, code) => (s.hubSetFld (rhlAddr f) 32 16 temp).hubSetFld (rhlAddr f) 16 16 code
        | none => s
      let kept := Tab.drop (fun k => k / 32 == f) s.waveFails
      bad.foldl (fun s k => { s with waveFails := Tab.set 0 s.waveFails k 16 }.raiseCheck (fabricEvent 0x31 f (k % 32)))
        { s with waveFails := kept }) s

/-! ## Self-test (R390, R408) -/

/-- Whether a task's strands are resident on a cluster. -/
def State.residentOn (s : State) (c : Nat) : List Task :=
  s.tasks.filter fun t => t.state == .resident && t.live.any fun p => clusterOf p.2 == c

/-- A test starts: it ends by `SELF_TEST_END`. -/
def State.startTest (s : State) (c : Nat) : State := { s with testing := if s.testing.contains c then s.testing else s.testing ++ [c] }

/-- `SELF_TEST_RUN`: a pending test with no residents, outside bells. -/
def execSelfTestRun (s : State) : Out :=
  .next (match s.input with
    | .num c =>
      if s.bellIn ∨ 256 ≤ c ∨ s.hubFld (testAddr c) 63 1 = 0 ∨ !(s.residentOn c).isEmpty then s else s.startTest c
    | _ => s)

/-- `SELF_TEST_END`: a cluster and whether it has passed; the event of one that no enabled partition has names partition 0 (log
109). -/
def execSelfTestEnd (s : State) : Out :=
  .next (match s.input with
    | .outcome c ok =>
      if !s.testing.contains c then s
      else
        let a := testAddr c
        let s := { s with testing := s.testing.filter fun x => x != c }
        let s := ((s.hubSetFld a 63 1 0).hubSetFld a 62 1 (b2n !ok)).hubSetFld a 0 32 (s.time / pealLen)
        let parts := (List.range 16).filter fun q => s.partEnabled q && s.partHasCluster q c
        if ok then parts.foldl (fun s q => s.later .taskPlacement (.num2 q c)) s
        else
          let s := s.hubSetFld a 61 1 1
          (if parts.isEmpty then [0] else parts).foldl (fun s q => s.raiseCheck
            { code := 0x41, bank := 8 * (c / 64), cls := 2, part := q, unit := c * 8, addr := none, key := 0, syn := none, kills := none }) s
    | _ => s)

/-- The cluster that a great bell tests (R408). -/
def State.bellCluster (s : State) : Nat :=
  match (List.range 256).find? fun c => s.hubFld (testAddr c) 63 1 == 1 with
  | some c => c
  | none => s.bellPeal / 1024 % 256

/-- The great bell's test: a pending one forces the saves of the cluster's strands that are at their interrupt points (R375,
R390). -/
def State.bellTest (s : State) (c : Nat) : State :=
  let s := if s.hubFld (testAddr c) 63 1 = 1 then
      (s.residentOn c).foldl (fun s t => (t.live.filter fun p => clusterOf p.2 == c && s.atPoint p.2).foldl (fun s p =>
        s.saveAt p.2 (s.strand p.2).pc 0x13) s) s
    else s
  s.startTest c

/-! ## Bells -/

/-- Whether the next bell's time has come (R391). -/
def State.bellDue (s : State) : Bool := !s.bellIn && decide (s.nextBell ≤ s.time)

/-- Whether an instruction loads rows (R396). -/
def rowLoad : Instr → Bool
  | .tld _ _ _ _ _ _ | .tldLiteral _ _ _ _ _ _ | .tldT2 _ _ _ _ _ _ | .tldT2Literal _ _ _ _ _ _ | .wldT2Memory _ _ _ | .wldPip _ _ _
  | .ald _ _ _ _ _ => true
  | _ => false

/-- Whether a strand can have the rows of its next instruction in flight: it executes, a row load under a true guard is next, and
neither the drain nor the leave unit holds it back. -/
def State.loadsRows (s : State) (key : Nat) : Bool :=
  (s.strand key).run == .running && s.bankOn (clusterOf key) == some (bankOf key) && !s.testing.contains (clusterOf key) &&
    !s.refused.contains (.strand key) && !(s.leaveQ.any fun r => r.owner == .strand key) &&
    match nextInstr key s with
    | .ok (_, w) _ =>
      match decodeKind w with
      | .ok (.inl i) => rowLoad i && (s.strand key).pred (bits w 8 3) != (bits w 11 1 == 1)
      | _ => false
    | _ => false

/-- An operation overrun at the start of the bell (R396): row loads that have begun and have a row still to be read, among those
that the input names, and remote packets not yet sent; with BOF it becomes a pending cause. -/
def State.markOverruns (s : State) (flight : List Nat) : State :=
  let rows := (s.strands.filter fun e => e.2.inFlight % 2 == 1).map Prod.fst ++ flight.filter s.loadsRows
  let unsent (o : RemoteOp) : Bool := !o.sent && o.coll.isNone && o.ttag == (s.strand o.key).ttag &&
    (match o.kind with | .put _ _ | .get => true | _ => false)
  let packets := (s.remotes.filter unsent).map RemoteOp.key
  (rows ++ packets).eraseDups.foldl (fun s key =>
    let x := b2n (rows.contains key) + 2 * b2n (packets.contains key)
    s.modStrand key fun t => { t with inFlight := x, overrun := if bit t.xctl 0 then some (s.bellStart, x) else t.overrun }) s

/-- The switch of drained slice maps (R139). -/
def State.switchSlices (s : State) : State :=
  s.sliceDrained.foldl (fun s d => (List.range 16).foldl (fun s j =>
    s.hubSet (slAddr d + 128 + 8 * j) (s.hubGet (slAddr d + 8 * j))) s) s

/-- A bell begins: traffic is held from here on. Its work overruns by `late` turns; `left` is left even then (R397). -/
def State.ring (s : State) (flight : List Nat) (late : Nat) (left : List Nat) : State :=
  let s := { s with bellStart := s.nextBell, bellLen := bellLength s.bellPeal, bellPeal := bellAfter s.bellPeal, bellLogged := false,
                    bellLate := if left.isEmpty then min 4 late else 4 }
  { (s.markOverruns flight).switchSlices with bellIn := true }

/-- What a bell's step names: the strands with rows in flight, the readings, the retune's findings, and its overrun. -/
def State.bellInput (s : State) : List Nat × List Word × List (Nat × Nat × Nat) × List Nat × Nat × List Nat :=
  match s.input with
  | .bell flight sensors rings lost late left => (flight, sensors, rings, lost, late, left)
  | _ => ([], [], [], [], 0, [])

/-- The work of a kind that is deferred from here on. -/
def State.bellDefer (s : State) (l : List Nat) (kind : Nat → Bool) : State :=
  { s with bellOwed := (s.bellOwed.filter fun i => !kind i) ++ l }

/-- The sensor reads of a bell: those of `which`, but for what is left, which waits for the next bell with what had waited (R397). -/
def State.bellSense (s : State) (which : List Nat) (ws : List Word) (left : List Nat) : State :=
  let owed := s.bellOwed.filter fun i => decide (i < 5) && !which.contains i
  let all := which ++ owed
  ((s.sense (all.filter fun i => !left.contains i) ws)).bellDefer (all.filter left.contains) fun i => decide (i < 5)

/-- `BELL_BEGIN` (R391, R393): one sensor in rotation. -/
def execBellBegin (s : State) : Out :=
  .next (if !s.bellDue || s.bellPeal % 1024 == 0 then s
    else
      let (flight, sensors, _, _, late, left) := s.bellInput
      (s.ring flight late left).bellSense [s.bellPeal % 5] sensors left)

/-- `GREAT_BELL_BEGIN` (R393): retune, full sensor sweep, and one cluster's self-test besides; what an earlier great bell has left is
among them (R397). -/
def execGreatBellBegin (s : State) : Out :=
  .next (if !s.bellDue || s.bellPeal % 1024 != 0 then s
    else
      let c := s.bellCluster
      let (flight, sensors, rings, lost, late, left) := s.bellInput
      let s := (s.ring flight late left).bellSense (List.range 5) sensors left
      let s := (s.retune rings lost fun f => !left.contains (8 + f)).bellDefer (left.filter fun i => decide (5 ≤ i)) fun i => decide (5 ≤ i)
      if left.contains 5 then s else s.bellTest c)

/-- Turns by which the bell in progress has been extended (R397). -/
def State.bellTurns (s : State) : Nat := (s.bellLen - bellLength (s.bellStart / pealLen)) / turnLen

/-- `BELL_EXTENSION` (R397): one more turn, up to four; the first sets OVR and is logged, and that record keeps count. -/
def execBellExtension (s : State) : Out :=
  .next (if !s.bellIn || decide (s.time < s.bellStart + s.bellLen) || decide (4 ≤ s.bellTurns) then s
    else
      let n := s.bellTurns + 1
      let s := { s with bellLen := s.bellLen + turnLen }
      if n = 1 then
        { s with bellOvr := true, bellLogged := s.hubFld (mcAddr 36) 63 1 == 0 }.raiseCheck
          { code := 0x40, bank := 36, cls := 1, part := 0, unit := 0, addr := none, key := 0, syn := some 1, kills := none }
      else if s.bellLogged ∧ s.hubFld (mcAddr 36) 16 16 = 0x40 ∧ s.hubFld (mcAddr 36) 63 1 = 1 then s.hubSetFld (mcAddr 36 + 16) 0 4 n
      else s)

/-- The calendar follows TIME alone (R391): a bell whose time has come begins, and one that has lasted its length ends, or is extended
while its work overruns (R397), in the very next step, unless the agenda holds that step already. -/
def State.calendar (s : State) : State :=
  let first (i : Instr) : State :=
    if s.agenda.any fun m => match m with | .event j _ => j == i | .strand _ => false then s
    else { s with agenda := .event i .none :: s.agenda }
  if s.bellDue then first (if s.bellPeal % 1024 = 0 then .greatBellBegin else .bellBegin)
  else if s.bellIn ∧ s.bellStart + s.bellLen ≤ s.time then first (if s.bellTurns < s.bellLate then .bellExtension else .bellEnd)
  else s

/-- A step behind everything on the agenda, unless it stands there. -/
def State.laterOnce (s : State) (i : Instr) (x : Input) : State :=
  if s.agenda.contains (.event i x) then s else s.later i x

/-- What a bell or its drain has held goes on, each by its own step: what the drain has refused first, in the order in which it was
refused (R394); the stores that were draining when the bell began; and then what the bell has held, in the order of arrival (R395). The
hub's own writes that wait are made at once (log 15). -/
def State.afterBell (s : State) : State :=
  let older := ((s.strands.filter fun e => !e.2.drains.isEmpty).map fun e => Move.event .tileDrain (.num e.1)).filter fun m => !s.deferred.contains m
  let s := { s with agenda := s.refused ++ older ++ s.deferred ++ s.agenda, refused := [], deferred := [] }.resumeHub
  let s := s.chans.foldl (fun s e =>
    match s.chanNext e.1 with
    | some i => s.laterOnce i (.num e.1)
    | none => s) s
  let s := s.strands.foldl (fun s e => if e.2.drains.isEmpty then s else s.laterOnce .tileDrain (.num e.1)) s
  let s := s.colls.foldl (fun s c =>
    match c.outcome with
    | none => if c.phase = 0 then s else s.laterOnce .rpartCommit (.num c.id)
    | some _ => s.laterOnce .rpartEnd (.num c.id)) s
  let s := s.outbox.foldl (fun s p => s.laterOnce .packetSend (.num p.num)) s
  let s := (List.range 256).foldl (fun s c => if s.hubFld (testAddr c) 63 1 = 1 then s.laterOnce .selfTestRun (.num c) else s) s
  s.leaveLook

/-- `BELL_END` (R395): BUSY of a switched slice map clears (R139), and what was held goes on; a row load that has begun still
completes before an interrupt (R270, R375). -/
def execBellEnd (s : State) : Out :=
  .next (if !s.bellIn || decide (s.time < s.bellStart + s.bellLen) then s
    else
      let s := { s with bellIn := false, bellTotal := s.bellTotal + s.bellLen }
      let s := s.sliceDrained.foldl (fun s d => s.hubSetFld (slCtl d) 63 1 0) s
      let s := { s with sliceDrained := [], strands := s.strands.foldl (fun t (e : Nat × Strand) =>
        Tab.set Strand.reset t e.1 { e.2 with inFlight := e.2.inFlight % 2 }) s.strands }
      s.afterBell)

/-- `DRAIN_WINDOW_BEGIN` (R394): from 400 ns before a bell the leave units refuse what would reach into it. The refusal follows
from TIME and the calendar (`drainAdmits`); the step itself holds nothing. -/
def execDrainWindowBegin (s : State) : Out := .next s

end Sys2Proof.Machine
end

