-- ==== Sys2Proof/Machine/Scalar.lean ====
section
/-!
DEFINITION. Scalar integer arithmetic, logic, compares, predicates, bit fields and control transfers (R216 to R234). One
function on words for each operation; the register, immediate and literal forms share it.
-/
namespace Sys2Proof.Machine

/-! ## The operations (R218 to R220) -/

def aluShl (x y : Word) : Word := x <<< fld y 0 6
def aluShr (x y : Word) : Word := x >>> fld y 0 6
def aluSar (x y : Word) : Word := x.sshiftRight (fld y 0 6)
def aluRot (x y : Word) : Word := x.rotateRight (fld y 0 6)
def aluMin (x y : Word) : Word := if x.slt y then x else y
def aluMax (x y : Word) : Word := if x.slt y then y else x
def aluMinU (x y : Word) : Word := if x.ult y then x else y
def aluMaxU (x y : Word) : Word := if x.ult y then y else x
/-- Bits [127:64] of the exact signed product (R219). -/
def aluMulh (x y : Word) : Word := toWord (x.toInt * y.toInt / (2 : Int) ^ 64)
/-- Bits [127:64] of the exact unsigned product (R219). -/
def aluMulhU (x y : Word) : Word := BitVec.ofNat 64 (x.toNat * y.toNat / 2 ^ 64)
def aluDiv (x y : Word) : Word := BitVec.ofNat 64 (divTrunc true 64 x.toNat y.toNat)
def aluDivU (x y : Word) : Word := BitVec.ofNat 64 (divTrunc false 64 x.toNat y.toNat)
def aluRem (x y : Word) : Word := BitVec.ofNat 64 (remTrunc true 64 x.toNat y.toNat)
def aluRemU (x y : Word) : Word := BitVec.ofNat 64 (remTrunc false 64 x.toNat y.toNat)

/-- Zero bits above the highest set bit; 64 when there is none (R220). -/
def aluClz (x : Word) : Word := if x = 0 then 64 else BitVec.ofNat 64 (63 - Nat.log2 x.toNat)
/-- Zero bits below the lowest set bit of `n` bits. -/
def lowZeros : Nat → Nat → Nat
  | 0, _ => 0
  | n + 1, x => if x % 2 = 1 then 0 else 1 + lowZeros n (x / 2)
def aluCtz (x : Word) : Word := BitVec.ofNat 64 (lowZeros 64 x.toNat)
def aluPopc (x : Word) : Word := BitVec.ofNat 64 (popcount 64 x.toNat)
def aluBswap (x : Word) : Word := BitVec.ofNat 64 (packN 8 (unpackN 8 8 x.toNat).reverse)
def aluSext (w : Nat) (x : Word) : Word := toWord (sextN w x.toNat)
def aluZext (w : Nat) (x : Word) : Word := BitVec.ofNat 64 (x.toNat % 2 ^ w)

/-! ## How the forms read and write -/

/-- g[d] := f(g[a], g[b]), format S (R218). -/
def regReg (f : Word → Word → Word) (d a b : R32) (s : State) : Out := done 4 s (.ok () (s.setG d (f (s.G a) (s.G b))))
/-- g[d] := f(g[a]), format S (R220). -/
def regUn (f : Word → Word) (d a : R32) (s : State) : Out := done 4 s (.ok () (s.setG d (f (s.G a))))
/-- g[d] := f(g[a], y), format S with an immediate (R221). -/
def regImm (f : Word → Word → Word) (d a : R32) (y : Word) (s : State) : Out := done 4 s (.ok () (s.setG d (f (s.G a) y)))
/-- g[d] := f(g[a], Sext(lit32)) under a guard, format L (R222). -/
def regLit (f : Word → Word → Word) (h : Hdr) (d a : R32) (lit : BitVec 32) (s : State) : Out :=
  guarded h 12 s fun s => .ok () (s.setG d (f (s.G a) (lit64 lit)))

/-! ## Register and register (R218, R219) -/

/-- `add` (R218). -/
def execAdd (d a b : R32) (s : State) : Out := regReg (fun x y => x + y) d a b s
/-- `sub` (R218). -/
def execSub (d a b : R32) (s : State) : Out := regReg (fun x y => x - y) d a b s
/-- `and` (R218). -/
def execAnd (d a b : R32) (s : State) : Out := regReg (fun x y => x &&& y) d a b s
/-- `or` (R218). -/
def execOr (d a b : R32) (s : State) : Out := regReg (fun x y => x ||| y) d a b s
/-- `xor` (R218). -/
def execXor (d a b : R32) (s : State) : Out := regReg (fun x y => x ^^^ y) d a b s
/-- `andn` (R218). -/
def execAndn (d a b : R32) (s : State) : Out := regReg (fun x y => x &&& ~~~ y) d a b s
/-- `orn` (R218). -/
def execOrn (d a b : R32) (s : State) : Out := regReg (fun x y => x ||| ~~~ y) d a b s
/-- `shl` (R218). -/
def execShl (d a b : R32) (s : State) : Out := regReg aluShl d a b s
/-- `shr` (R218). -/
def execShr (d a b : R32) (s : State) : Out := regReg aluShr d a b s
/-- `sar` (R218). -/
def execSar (d a b : R32) (s : State) : Out := regReg aluSar d a b s
/-- `rot` (R218). -/
def execRot (d a b : R32) (s : State) : Out := regReg aluRot d a b s
/-- `minI64` (R218). -/
def execMinI64 (d a b : R32) (s : State) : Out := regReg aluMin d a b s
/-- `maxI64` (R218). -/
def execMaxI64 (d a b : R32) (s : State) : Out := regReg aluMax d a b s
/-- `minN64` (R218). -/
def execMinN64 (d a b : R32) (s : State) : Out := regReg aluMinU d a b s
/-- `maxN64` (R218). -/
def execMaxN64 (d a b : R32) (s : State) : Out := regReg aluMaxU d a b s
/-- `mov` (R218). -/
def execMov (d a : R32) (s : State) : Out := regUn id d a s
/-- `mul` (R219). -/
def execMul (d a b : R32) (s : State) : Out := regReg (fun x y => x * y) d a b s
/-- `mulhI64` (R219). -/
def execMulhI64 (d a b : R32) (s : State) : Out := regReg aluMulh d a b s
/-- `mulhN64` (R219). -/
def execMulhN64 (d a b : R32) (s : State) : Out := regReg aluMulhU d a b s
/-- `divI64` (R219). -/
def execDivI64 (d a b : R32) (s : State) : Out := regReg aluDiv d a b s
/-- `divN64` (R219). -/
def execDivN64 (d a b : R32) (s : State) : Out := regReg aluDivU d a b s
/-- `remI64` (R219). -/
def execRemI64 (d a b : R32) (s : State) : Out := regReg aluRem d a b s
/-- `remN64` (R219). -/
def execRemN64 (d a b : R32) (s : State) : Out := regReg aluRemU d a b s

/-! ## Single operands (R220) -/

/-- `clz` (R220). -/
def execClz (d a : R32) (s : State) : Out := regUn aluClz d a s
/-- `ctz` (R220). -/
def execCtz (d a : R32) (s : State) : Out := regUn aluCtz d a s
/-- `popc` (R220). -/
def execPopc (d a : R32) (s : State) : Out := regUn aluPopc d a s
/-- `bswap` (R220). -/
def execBswap (d a : R32) (s : State) : Out := regUn aluBswap d a s
/-- `extI8` (R220). -/
def execExtI8 (d a : R32) (s : State) : Out := regUn (aluSext 8) d a s
/-- `extI16` (R220). -/
def execExtI16 (d a : R32) (s : State) : Out := regUn (aluSext 16) d a s
/-- `extI32` (R220). -/
def execExtI32 (d a : R32) (s : State) : Out := regUn (aluSext 32) d a s
/-- `extN8` (R220). -/
def execExtN8 (d a : R32) (s : State) : Out := regUn (aluZext 8) d a s
/-- `extN16` (R220). -/
def execExtN16 (d a : R32) (s : State) : Out := regUn (aluZext 16) d a s
/-- `extN32` (R220). -/
def execExtN32 (d a : R32) (s : State) : Out := regUn (aluZext 32) d a s

/-! ## Immediates and literals (R221 to R223) -/

/-- `add` with an immediate (R221). -/
def execAddImmediate (i : BitVec 15) (d a : R32) (s : State) : Out := regImm (fun x y => x + y) d a (imm15 i) s
/-- `and` with an immediate (R221). -/
def execAndImmediate (i : BitVec 15) (d a : R32) (s : State) : Out := regImm (fun x y => x &&& y) d a (imm15 i) s
/-- `or` with an immediate (R221). -/
def execOrImmediate (i : BitVec 15) (d a : R32) (s : State) : Out := regImm (fun x y => x ||| y) d a (imm15 i) s
/-- `xor` with an immediate (R221). -/
def execXorImmediate (i : BitVec 15) (d a : R32) (s : State) : Out := regImm (fun x y => x ^^^ y) d a (imm15 i) s
/-- `mul` with an immediate (R221). -/
def execMulImmediate (i : BitVec 15) (d a : R32) (s : State) : Out := regImm (fun x y => x * y) d a (imm15 i) s
/-- `shl` by a constant (R221). -/
def execShlImmediate (n : BitVec 6) (d a : R32) (s : State) : Out := regImm aluShl d a (n.zeroExtend 64) s
/-- `shr` by a constant (R221). -/
def execShrImmediate (n : BitVec 6) (d a : R32) (s : State) : Out := regImm aluShr d a (n.zeroExtend 64) s
/-- `sar` by a constant (R221). -/
def execSarImmediate (n : BitVec 6) (d a : R32) (s : State) : Out := regImm aluSar d a (n.zeroExtend 64) s
/-- `rot` by a constant (R221). -/
def execRotImmediate (n : BitVec 6) (d a : R32) (s : State) : Out := regImm aluRot d a (n.zeroExtend 64) s
/-- `movi` (R221). -/
def execMovi (i : BitVec 15) (d : R32) (s : State) : Out := done 4 s (.ok () (s.setG d (imm15 i)))
/-- `add` with a literal (R222). -/
def execAddLiteral (h : Hdr) (d a : R32) (lit : BitVec 32) (s : State) : Out := regLit (fun x y => x + y) h d a lit s
/-- `sub` with a literal (R222). -/
def execSubLiteral (h : Hdr) (d a : R32) (lit : BitVec 32) (s : State) : Out := regLit (fun x y => x - y) h d a lit s
/-- `and` with a literal (R222). -/
def execAndLiteral (h : Hdr) (d a : R32) (lit : BitVec 32) (s : State) : Out := regLit (fun x y => x &&& y) h d a lit s
/-- `or` with a literal (R222). -/
def execOrLiteral (h : Hdr) (d a : R32) (lit : BitVec 32) (s : State) : Out := regLit (fun x y => x ||| y) h d a lit s
/-- `xor` with a literal (R222). -/
def execXorLiteral (h : Hdr) (d a : R32) (lit : BitVec 32) (s : State) : Out := regLit (fun x y => x ^^^ y) h d a lit s
/-- `andn` with a literal (R222). -/
def execAndnLiteral (h : Hdr) (d a : R32) (lit : BitVec 32) (s : State) : Out := regLit (fun x y => x &&& ~~~ y) h d a lit s
/-- `orn` with a literal (R222). -/
def execOrnLiteral (h : Hdr) (d a : R32) (lit : BitVec 32) (s : State) : Out := regLit (fun x y => x ||| ~~~ y) h d a lit s
/-- `shl` with a literal (R222). -/
def execShlLiteral (h : Hdr) (d a : R32) (lit : BitVec 32) (s : State) : Out := regLit aluShl h d a lit s
/-- `shr` with a literal (R222). -/
def execShrLiteral (h : Hdr) (d a : R32) (lit : BitVec 32) (s : State) : Out := regLit aluShr h d a lit s
/-- `sar` with a literal (R222). -/
def execSarLiteral (h : Hdr) (d a : R32) (lit : BitVec 32) (s : State) : Out := regLit aluSar h d a lit s
/-- `rot` with a literal (R222). -/
def execRotLiteral (h : Hdr) (d a : R32) (lit : BitVec 32) (s : State) : Out := regLit aluRot h d a lit s
/-- `minI64` with a literal (R222). -/
def execMinI64Literal (h : Hdr) (d a : R32) (lit : BitVec 32) (s : State) : Out := regLit aluMin h d a lit s
/-- `maxI64` with a literal (R222). -/
def execMaxI64Literal (h : Hdr) (d a : R32) (lit : BitVec 32) (s : State) : Out := regLit aluMax h d a lit s
/-- `minN64` with a literal (R222). -/
def execMinN64Literal (h : Hdr) (d a : R32) (lit : BitVec 32) (s : State) : Out := regLit aluMinU h d a lit s
/-- `maxN64` with a literal (R222). -/
def execMaxN64Literal (h : Hdr) (d a : R32) (lit : BitVec 32) (s : State) : Out := regLit aluMaxU h d a lit s
/-- `mul` with a literal (R222). -/
def execMulLiteral (h : Hdr) (d a : R32) (lit : BitVec 32) (s : State) : Out := regLit (fun x y => x * y) h d a lit s
/-- `mulhI64` with a literal (R222). -/
def execMulhI64Literal (h : Hdr) (d a : R32) (lit : BitVec 32) (s : State) : Out := regLit aluMulh h d a lit s
/-- `mulhN64` with a literal (R222). -/
def execMulhN64Literal (h : Hdr) (d a : R32) (lit : BitVec 32) (s : State) : Out := regLit aluMulhU h d a lit s
/-- `divI64` with a literal (R222). -/
def execDivI64Literal (h : Hdr) (d a : R32) (lit : BitVec 32) (s : State) : Out := regLit aluDiv h d a lit s
/-- `divN64` with a literal (R222). -/
def execDivN64Literal (h : Hdr) (d a : R32) (lit : BitVec 32) (s : State) : Out := regLit aluDivU h d a lit s
/-- `remI64` with a literal (R222). -/
def execRemI64Literal (h : Hdr) (d a : R32) (lit : BitVec 32) (s : State) : Out := regLit aluRem h d a lit s
/-- `remN64` with a literal (R222). -/
def execRemN64Literal (h : Hdr) (d a : R32) (lit : BitVec 32) (s : State) : Out := regLit aluRemU h d a lit s
/-- `mov` with a literal (R222). -/
def execMovLiteral (h : Hdr) (d : R32) (lit : BitVec 32) (s : State) : Out := guarded h 12 s fun s => .ok () (s.setG d (lit64 lit))
/-- `li` (R223). -/
def execLi (h : Hdr) (d : R32) (lit : BitVec 32) (s : State) : Out := guarded h 12 s fun s => .ok () (s.setG d (lit64 lit))
/-- `lihi` (R223): the destination is a source too. -/
def execLihi (h : Hdr) (d : R32) (lit : BitVec 32) (s : State) : Out :=
  guarded h 12 s fun s => .ok () (s.setG d (setFld (s.G d) 32 32 lit.toNat))

/-! ## Bit fields (R224) -/

/-- The field of R224, or none for the reserved combination. -/
def bitField (pos w : BitVec 6) : Option (Nat × Nat) :=
  if pos.toNat + of64 w.toNat > 64 then none else some (pos.toNat, of64 w.toNat)

/-- A bit-field instruction: the reserved combination raises illegal instruction, before the guard (R39, R40, R224). -/
def fieldOp (h : Hdr) (pos w : BitVec 6) (s : State) (f : Nat → Nat → State → State) : Out :=
  match bitField pos w with
  | none => .next (s.takeTrap s (illegalExc s))
  | some (p, n) => guarded h 8 s fun s => .ok () (f p n s)

/-- `bfx.i64` (R224). -/
def execBfxI64 (h : Hdr) (d a : R32) (pos w : BitVec 6) (s : State) : Out :=
  fieldOp h pos w s fun p n s => s.setG d (toWord (sextN n (fld (s.G a) p n)))
/-- `bfx.n64` (R224). -/
def execBfxN64 (h : Hdr) (d a : R32) (pos w : BitVec 6) (s : State) : Out :=
  fieldOp h pos w s fun p n s => s.setG d (BitVec.ofNat 64 (fld (s.G a) p n))
/-- `bfi` (R224). -/
def execBfi (h : Hdr) (d a : R32) (pos w : BitVec 6) (s : State) : Out :=
  fieldOp h pos w s fun p n s => s.setG d (setFld (s.G d) p n (s.G a).toNat)

/-! ## Compares, predicates, selection (R225 to R228) -/

/-- `cmp` of two registers (R225). -/
def execCmp (c : Cond) (d : R8) (a b : R32) (s : State) : Out := done 4 s (.ok () (s.setPR d (condWord c (s.G a) (s.G b))))
/-- `cmpi` (R225). -/
def execCmpi (c : Cond) (i : BitVec 11) (d : R8) (a : R32) (s : State) : Out :=
  done 4 s (.ok () (s.setPR d (condWord c (s.G a) (i.signExtend 64))))
/-- `cmp` with a literal (R225). -/
def execCmpLiteral (h : Hdr) (c : Cond) (d : R8) (a : R32) (lit : BitVec 32) (s : State) : Out :=
  guarded h 12 s fun s => .ok () (s.setPR d (condWord c (s.G a) (lit64 lit)))

/-- `pand` (R226). -/
def execPand (d a b : R8) (s : State) : Out := done 4 s (.ok () (s.setPR d (s.PR a && s.PR b)))
/-- `por` (R226). -/
def execPor (d a b : R8) (s : State) : Out := done 4 s (.ok () (s.setPR d (s.PR a || s.PR b)))
/-- `pxor` (R226). -/
def execPxor (d a b : R8) (s : State) : Out := done 4 s (.ok () (s.setPR d (s.PR a != s.PR b)))
/-- `pnot` (R226). -/
def execPnot (d a : R8) (s : State) : Out := done 4 s (.ok () (s.setPR d (!s.PR a)))
/-- `pmov` (R226). -/
def execPmov (d a : R8) (s : State) : Out := done 4 s (.ok () (s.setPR d (s.PR a)))
/-- `sel` (R227). -/
def execSel (q : R8) (d a b : R32) (s : State) : Out := done 4 s (.ok () (s.setG d (if s.PR q then s.G a else s.G b)))
/-- `lea` (R228): an address, without an access. -/
def execLea (sc : R4) (d a b : R32) (s : State) : Out := done 4 s (.ok () (s.setG d (s.EA a b sc.val 0)))

/-! ## Control transfers (R229 to R231) -/

/-- `br` (R229). -/
def execBr (o : BitVec 21) (n : Bool) (p : R8) (s : State) : Out :=
  if s.PR p != n then conclude s (transfer (pcRel s.me.pc o.toInt) none s) else done 4 s (.ok () s)
/-- `jmp` (R229). -/
def execJmp (o : BitVec 25) (s : State) : Out := conclude s (transfer (pcRel s.me.pc o.toInt) none s)
/-- `call` (R229). -/
def execCall (o : BitVec 25) (s : State) : Out := conclude s (transfer (pcRel s.me.pc o.toInt) (some (s.me.pc + 4)) s)
/-- `jmpr` (R231). -/
def execJmpr (a : R32) (s : State) : Out := conclude s (transfer (s.G a) none s)
/-- `callr` (R231): the target is read before `lk` is written. -/
def execCallr (a : R32) (s : State) : Out := conclude s (transfer (s.G a) (some (s.me.pc + 4)) s)
/-- `ret` (R231). -/
def execRet (s : State) : Out := conclude s (transfer (s.G 31) none s)
/-- Long `br` (R230). -/
def execBrLong (h : Hdr) (lit : BitVec 32) (s : State) : Out :=
  if s.guard h then conclude s (transfer (pcRel s.me.pc (litInt lit)) none s) else done 12 s (.ok () s)
/-- Long `call` (R230). -/
def execCallLong (h : Hdr) (lit : BitVec 32) (s : State) : Out :=
  if s.guard h then conclude s (transfer (pcRel s.me.pc (litInt lit)) (some (s.me.pc + 12)) s) else done 12 s (.ok () s)

/-- `nop` (R234). -/
def execNop (s : State) : Out := done 4 s (.ok () s)

end Sys2Proof.Machine
end

