-- ==== Sys2Proof/Machine/Memory.lean ====
section
/-!
DEFINITION. The memory instructions of the general registers (R166 to R175, R367): loads and stores with their orderings,
prefetch, atomics, fences, cache and TLB maintenance, and `wait`.
-/
namespace Sys2Proof.Machine

/-! ## Home-place writes (R130) -/

/-- A home-place write of the strand's instruction that has been performed: it waits while acknowledgements are outstanding. -/
def awaited (f : Performed) (s : State) : Res Unit :=
  if s.acks.any fun m => m.key == f.key && decide (m.addr < f.addr + f.n) && decide (f.addr < m.addr + m.grain) then .wait s
  else .ok () (s.modMe fun t => { t with performed := none })

/-- A home-place write has just been performed: the instruction completes once its messages are acknowledged. -/
def perform (p : Piece) (n old : Nat) (s : State) : Res Unit :=
  if s.homeBusy p.key p.t n then .wait (s.modMe fun t => { t with performed := some { key := p.key, addr := p.t.addr, n := n, old := old } })
  else .ok () s

/-! ## ld and st (R166) -/

/-- A load of a type into g[d]; with an acquire the read is made at the place of the scope, and the acquire follows. -/
def loadAt (ty : Ty) (acq : Option Scope) (tmp : Nat) (d : R32) (va : Word) (s : State) : Res Unit :=
  let lv := match acq with | some c => levelOf c | none => .core
  (memReadAt (s.who s.cur) lv va (ty.bits / 8) acq.isSome tmp s).andThen fun x s =>
    match acq with
    | some c => (acquire c s).andThen fun _ s => .ok () (s.setG d (extendTy ty x))
    | none => .ok () (s.setG d (extendTy ty x))

/-- A store of the low bytes of g[d]; with a release the store is performed at the place of the scope, after the release. -/
def storeAt (ty : Ty) (rel : Option Scope) (tmp : Nat) (d : R32) (va : Word) (s : State) : Res Unit :=
  let n := ty.bits / 8
  let x := (s.G d).toNat % 2 ^ ty.bits
  match rel with
  | none => memWriteAt (s.who s.cur) .core va n x false tmp s
  | some c =>
    match s.me.performed with
    | some f => awaited f s
    | none =>
      (release c s).andThen fun _ s =>
        let w := s.who s.cur
        let lv := levelOf c
        let ps := rangeParts va n
        (memWriteAt w lv va n x true tmp s).andThen fun _ s =>
          match s.pieceOf w .store Align.any va.toNat n with
          | .ok (p, _, _) => if p.level lv = .home ∧ ps.length = 1 then perform p n 0 s else .ok () s
          | .error _ => .ok () s

/-- `ld`, format S (R166). -/
def execLd (ty : Ty) (o : BitVec 11) (d a : R32) (s : State) : Out :=
  done 4 s (loadAt ty none 0 d (s.EA a 0 0 (off11 o (ty.bits / 8))) s)
/-- `st`, format S (R166). -/
def execSt (ty : Ty) (o : BitVec 11) (d a : R32) (s : State) : Out :=
  done 4 s (storeAt ty none 0 d (s.EA a 0 0 (off11 o (ty.bits / 8))) s)
/-- `ld`, format L (R166). -/
def execLdLong (h : Hdr) (ty : Ty) (acq : Option Scope) (sc : R4) (d a b : R32) (lit : BitVec 32) (s : State) : Out :=
  guarded h 12 s fun s => loadAt ty acq h.tmp.toNat d (s.EA a b sc.val (litInt lit)) s
/-- `st`, format L (R166). -/
def execStLong (h : Hdr) (ty : Ty) (rel : Option Scope) (sc : R4) (d a b : R32) (lit : BitVec 32) (s : State) : Out :=
  guarded h 12 s fun s => storeAt ty rel h.tmp.toNat d (s.EA a b sc.val (litInt lit)) s

/-! ## pf (R167) -/

/-- A prefetch: it is dropped where its translation fails or meets an error response, which is logged (R111), where the page is
uncached or device, where the line is present already, and where a bell would hold it; what else holds it, it waits for (R167). -/
def prefetch (a : R32) (o : BitVec 11) (present : Nat → Piece → State → Bool) (fetch : Nat → Piece → State → Except Miss State) (s : State) : Out :=
  let va := (s.EA a 0 0 (off11 o 128)).toNat / 128 * 128
  let core := coreOf s.cur
  let drop (w : Who) (e : Bad) (s : State) : Res Unit :=
    match e with
    | .fault _ _ _ => .ok () s
    | .abort c x k => .ok () (s.logError c x k (w.part.getD 0) w.req).2
    | .held u => if s.bellIn then .ok () s else .wait u
  done 4 s (
    match s.pieceAD (s.who s.cur) .prefetch Align.any va 128 false with
    | .error (e, s') => drop (s.who s.cur) e s'
    | .ok (p, s') =>
      if leafClass p.attr ≠ 0 || present core p s' then .ok () s'
      else
        match s'.settleAlias core p with
        | .error u => if s.bellIn then .ok () s' else .wait u
        | .ok s' =>
          match fetch core p s' with
          | .ok s' => .ok () s'
          | .error m => drop (s'.who s'.cur) (m.bad p.key) s')

/-- Whether a cache holds words of a line, under whatever stamp (log 127). -/
def PCache.has (c : PCache) (tag : Tag) : Bool := (c.find tag).any fun l => l.valid != 0

/-- Into the L1 and the cluster cache. -/
def fetchL1 (core : Nat) (p : Piece) (s : State) : Except Miss State := (s.coreLine core p p.tag (BitVec.allOnes 32) 0 0).map Prod.snd
/-- Into the cluster cache. -/
def fetchCc (core : Nat) (p : Piece) (s : State) : Except Miss State :=
  (s.clusterLine (core / 4) p p.tag (BitVec.allOnes 32) 0 0).map Prod.snd
/-- Into the die cache. -/
def fetchL2 (core : Nat) (p : Piece) (s : State) : Except Miss State := (s.lineFromHome (core / 256) p p.tag).map Prod.snd
/-- Whether the die cache holds the line's sectors, at its home die in native form. -/
def heldL2 (core : Nat) (p : Piece) (s : State) : Bool :=
  let t := p.t.addr / 128 * 128
  let d := core / 256
  let tag : Tag := if s.homeOf p.t = some d then nativeDieTag t p.key else { p.tag with line := t / 512 }
  s.dieLine (s.agentOf d) tag &&& sectorsAt t 128 == sectorsAt t 128

/-- `pf.l1` (R167). -/
def execPfL1 (o : BitVec 11) (a : R32) (s : State) : Out := prefetch a o (fun core p s => (s.coreCache core).has p.tag) fetchL1 s
/-- `pf.cc` (R167). -/
def execPfCc (o : BitVec 11) (a : R32) (s : State) : Out := prefetch a o (fun core p s => (s.clusterCache (core / 4)).has p.tag) fetchCc s
/-- `pf.l2` (R167). -/
def execPfL2 (o : BitVec 11) (a : R32) (s : State) : Out := prefetch a o heldL2 fetchL2 s

/-! ## amo and cas (R171, R172) -/

/-- The new value of an atomic operation of R171. -/
def amoValue (op : AmoOp) (ty : Ty) (old x : Nat) : Nat :=
  let w := ty.bits
  match op with
  | .add => (old + x) % 2 ^ w
  | .and => old &&& x
  | .or => old ||| x
  | .xor => old ^^^ x
  | .min => if tyInt ty x < tyInt ty old then x else old
  | .max => if tyInt ty old < tyInt ty x then x else old
  | .swap => x
  | .fadd => fadd .f32 .rne old x

/-- Whether an ordering releases, and whether it acquires (R61). -/
def Order.releases (o : Order) : Bool := o == .rel || o == .ar
def Order.acquires (o : Order) : Bool := o == .acq || o == .ar

/-- The end of an atomic that has been performed: its acknowledgements, its acquire, and what g[d] receives. -/
def atomicEnd (o : Order) (c : Scope) (d : R32) (put : Nat → Word) (f : Performed) (s : State) : Res Unit :=
  (awaited f s).andThen fun _ s =>
    match (if Order.acquires o then acquire c s else .ok () s) with
    | .wait u => .wait (u.modMe fun t => { t with performed := some f })
    | .trap e u => .trap e u
    | .ok _ s => .ok () (s.setG d (put f.old))

/-- The location of an atomic at its place, for the acknowledgements that it awaits (R130). -/
def State.performedAt (s : State) (va : Word) (n : Nat) (old : Nat) : Performed :=
  match s.pieceOf (s.who s.cur) .atomic Align.any va.toNat n with
  | .ok (p, _, _) => { key := p.key, addr := p.t.addr, n := n, old := old }
  | .error _ => { key := 0, addr := 0, n := 0, old := old }

/-- An atomic of the current strand with its ordering: `f` gives the new value, or none where nothing is written, and
`put` what g[d] receives. An atomic that has been performed is not performed again while it waits for acknowledgements
(R130) or for its acquire. -/
def atomicOp (h : Hdr) (o : Order) (c : Scope) (n : Nat) (d a : R32) (f : Nat → Option Nat) (put : Nat → Word) (s : State) : Res Unit :=
  match s.me.performed with
  | some x => atomicEnd o c d put x s
  | none =>
    (if Order.releases o then release c s else .ok () s).andThen fun _ s =>
      (memAtomic (s.who s.cur) (s.G a) n c f h.tmp.toNat s).andThen fun old s =>
        let x := s.performedAt (s.G a) n old
        atomicEnd o c d put x (s.modMe fun t => { t with performed := some x })

/-- An `amo` (R171). -/
def amoOp (op : AmoOp) (h : Hdr) (ty : Ty) (o : Order) (c : Scope) (d a b : R32) (s : State) : Out :=
  let x := (s.G b).toNat % 2 ^ ty.bits
  guarded h 8 s fun s => atomicOp h o c (ty.bits / 8) d a (fun old => some (amoValue op ty old x)) (extendTy ty) s

/-- `amo.add` (R171). -/
def execAmoAdd (h : Hdr) (ty : Ty) (o : Order) (c : Scope) (d a b : R32) (s : State) : Out := amoOp .add h ty o c d a b s
/-- `amo.and` (R171). -/
def execAmoAnd (h : Hdr) (ty : Ty) (o : Order) (c : Scope) (d a b : R32) (s : State) : Out := amoOp .and h ty o c d a b s
/-- `amo.or` (R171). -/
def execAmoOr (h : Hdr) (ty : Ty) (o : Order) (c : Scope) (d a b : R32) (s : State) : Out := amoOp .or h ty o c d a b s
/-- `amo.xor` (R171). -/
def execAmoXor (h : Hdr) (ty : Ty) (o : Order) (c : Scope) (d a b : R32) (s : State) : Out := amoOp .xor h ty o c d a b s
/-- `amo.min` (R171). -/
def execAmoMin (h : Hdr) (ty : Ty) (o : Order) (c : Scope) (d a b : R32) (s : State) : Out := amoOp .min h ty o c d a b s
/-- `amo.max` (R171). -/
def execAmoMax (h : Hdr) (ty : Ty) (o : Order) (c : Scope) (d a b : R32) (s : State) : Out := amoOp .max h ty o c d a b s
/-- `amo.swap` (R171). -/
def execAmoSwap (h : Hdr) (ty : Ty) (o : Order) (c : Scope) (d a b : R32) (s : State) : Out := amoOp .swap h ty o c d a b s
/-- `amo.fadd` (R171). -/
def execAmoFadd (h : Hdr) (ty : Ty) (o : Order) (c : Scope) (d a b : R32) (s : State) : Out := amoOp .fadd h ty o c d a b s

/-- `cas` (R172). -/
def execCas (h : Hdr) (ty : Ty) (o : Order) (c : Scope) (d a b : R32) (s : State) : Out :=
  let expected := (s.G d).toNat % 2 ^ ty.bits
  let new := (s.G b).toNat % 2 ^ ty.bits
  guarded h 8 s fun s =>
    atomicOp h o c (ty.bits / 8) d a (fun old => if old = expected then some new else none) (BitVec.ofNat 64) s

/-! ## fence (R173) -/

/-- `fence.acq` (R173). -/
def execFenceAcq (c : Scope) (s : State) : Out := done 4 s (acquire c s)
/-- `fence.rel` (R173). -/
def execFenceRel (c : Scope) (s : State) : Out := done 4 s (release c s)
/-- `fence.ar` (R173). -/
def execFenceAr (c : Scope) (s : State) : Out := done 4 s ((release c s).andThen fun _ s => acquire c s)

/-! ## cfl (R174) -/

/-- The line that `cfl` names, translated as kind maintain; no effect on uncached, device and subscribed pages. It follows the
strand's earlier stores to the line, those that drain too. -/
def cflLine (a : R32) (f : Nat → Tag → State → Res Unit) (s : State) : Res Unit :=
  let va := (s.G a).toNat
  match s.pieceAD (s.who s.cur) .maintain Align.any va 1 false with
  | .error (e, s) => raiseBad (s.who s.cur) va e s
  | .ok (p, s) =>
    if leafClass p.attr ≠ 0 || leafSub p.attr then .ok () s
    else
      let line : Piece := { p with va := va / 128 * 128, n := 128, t := match p.t with | .far pa => .far (pa / 128 * 128) | t => t.at (t.addr / 128 * 128) }
      (settle s.cur [line] s).andThen fun _ s => f (coreOf s.cur) p.nativeTag s

/-- The line's dirty words go to the home; it waits until they have been performed and acknowledged (R130, R164). -/
def cflThrough (core : Nat) (tag : Tag) (s : State) : Res Unit :=
  match s.toHome core tag with
  | .error u => .wait u
  | .ok s =>
    if s.acks.any fun m => m.key == tag.key && decide (m.addr < tag.line * 128 + 128) && decide (tag.line * 128 < m.addr + m.grain) then .wait s
    else .ok () s

/-- The clean words of a line are discarded. -/
def PCache.discardClean (c : PCache) (tag : Tag) : PCache :=
  { c with lines := (c.lines.map fun l => if l.tag == tag then { l with valid := l.dirty } else l).filter fun l =>
      !(l.tag == tag && l.dirty == 0) }

/-- The line leaves the core's L1 instruction cache too, so that changed code on an RO page is fetched again (R233; log
17). -/
def State.dropCode (s : State) (core : Nat) (tag : Tag) : State :=
  { s with l1i := Tab.set PCache.empty s.l1i core ((Tab.get PCache.empty s.l1i core).without tag) }

def cflDiscard (core : Nat) (tag : Tag) (s : State) : Res Unit :=
  let s := s.setCoreCache core ((s.coreCache core).discardClean tag)
  let s := s.setClusterCache (core / 4) ((s.clusterCache (core / 4)).discardClean tag)
  .ok () (s.dropCode core tag)

/-- `cfl.wt` (R174). -/
def execCflWt (a : R32) (s : State) : Out := done 4 s (cflLine a cflThrough s)
/-- `cfl.inv` (R174). -/
def execCflInv (a : R32) (s : State) : Out := done 4 s (cflLine a cflDiscard s)
/-- `cfl.wi` (R174). -/
def execCflWi (a : R32) (s : State) : Out :=
  done 4 s (cflLine a (fun core tag s => (cflThrough core tag s).andThen fun _ s => .ok () ((s.dropBoth core tag).dropCode core tag)) s)

/-! ## tlbi (R175) -/

/-- Removes the translations of the strand's partition that `p` picks from every TLB; the accesses under them that are
still to be performed are the partition's draining stores, which a bell holds, those that were set aside included,
and the writes of a chunk that a copy engine has in hand. -/
def tlbiOp (p : TlbEntry → Bool) (s : State) : Res Unit :=
  match s.partOf s.cur with
  | none => .ok () s
  | some q =>
    let draining := s.strands.filter fun e => s.partOf e.1 == some q && !e.2.drains.isEmpty
    let s := draining.foldl (fun s e => s.drainAll e.1) s.drainAside
    if (s.strands.any fun e => s.partOf e.1 == some q && !e.2.drains.isEmpty) || s.aside.any (fun x => s.partOf x.1 == some q)
        || s.chans.any (fun e => e.2.now.any fun c => c.xfer.part == q && c.writes.isSome) then .wait s
    else .ok () { s with tlb := (s.tlb.map fun e => (e.1, e.2.filter fun t => !(t.part == q && p t))).filter fun e => !e.2.isEmpty }

/-- `tlbi.page` (R175). -/
def execTlbiPage (a : R32) (s : State) : Out :=
  let va := (s.G a).toNat
  let asn := fld s.me.asn 0 16
  privileged s (done 4 s (tlbiOp (fun t => (t.glob || t.asn == asn) && decide (t.vbase ≤ va) && decide (va < t.vbase + t.size)) s))
/-- `tlbi.asn` (R175). -/
def execTlbiAsn (a : R32) (s : State) : Out :=
  let asn := fld (s.G a) 0 16
  privileged s (done 4 s (tlbiOp (fun t => !t.glob && t.asn == asn) s))
/-- `tlbi.all` (R175). -/
def execTlbiAll (s : State) : Out := privileged s (done 4 s (tlbiOp (fun _ => true) s))

/-! ## wait (R367) -/

/-- `wait`: the word is read at the home place; while the condition does not hold the strand stays, and what the read has
written through remains so. -/
def waitOp (cond : Word → Word → Bool) (d a b : R32) (s : State) : Out :=
  let va := s.G a
  if fld va 0 3 ≠ 0 then done 4 s (raise 0x07 va 3 s)
  else
    match memReadAt (s.who s.cur) .home va 8 true 0 s with
    | .ok x s' =>
      let x := BitVec.ofNat 64 x
      if cond x (s.G b) then done 4 s ((acquire .die s').andThen fun _ s => .ok () (s.setG d x)) else .next s'
    | .trap e s' => done 4 s (.trap e s')
    | .wait s' => .next s'

/-- `wait.ne` (R367). -/
def execWaitNe (d a b : R32) (s : State) : Out := waitOp (fun x y => x != y) d a b s
/-- `wait.eq` (R367). -/
def execWaitEq (d a b : R32) (s : State) : Out := waitOp (fun x y => x == y) d a b s
/-- `wait.ge` (R367). -/
def execWaitGe (d a b : R32) (s : State) : Out := waitOp (fun x y => y.ule x) d a b s

end Sys2Proof.Machine
end

