-- ==== Sys2Proof/Machine/Coherence.lean ====
section
/-!
DEFINITION. Coherence requests as they arrive at their home, and the home's messages as they arrive at an agent (R125 to
R137): the steps of the table. What the units of this module ask of one another happens within their own steps (log 9).
-/
namespace Sys2Proof.Machine

/-- The tag of a message's line in a die cache (R117). -/
def dieTag (m : CohMsg) : Tag := { line := m.addr / 512, key := m.key, fmt := m.fmt, etype := m.etype, mode := m.mode }

/-- The sectors of a message's grain. -/
def sectorsOf (m : CohMsg) : BitVec 16 := sectorMask m.addr m.grain

/-- The pointer a request asks for. -/
def ptrOf (m : CohMsg) (inc : Nat) : Ptr := { agent := m.agent, inc := inc, fmt := m.fmt, etype := m.etype, mode := m.mode }

/-- What an address names at its home, whose requester's module has checked its partition (R111): storage of a tier, or a
decoded line of an L6 window, or, for a read, of a pip window; or the cause of an error response, in the order of R111. A key
that is being retired is good for what the sweep itself needs (`sweep`, R110). -/
def State.presentHome (s : State) (a key : Nat) (write sweep : Bool) : Except Nat Target :=
  let keyed := s.keyOk key || (sweep && s.retiring == some key)
  if inTier a then
    if (s.regionOf a).isNone then .error 1 else if !keyed then .error 4 else if s.dieInReset (s.homeDie a) then .error 9 else .ok (.mem a)
  else if !inLogical a then .error (if inHub a then 2 else 1)
  else
    match s.windowOf a with
    | none => .error 10
    | some w =>
      let (b, n) := w.backing (a - w.lbase)
      if (s.firstUnplaced b n).isSome then .error 1
      else if w.fmt = 2 ∨ !w.hasLog a then .error 10
      else if !keyed || w.key ≠ key then .error 4
      else if w.fmt = 1 ∧ write then .error 5
      else if s.dieInReset (s.homeDie b) then .error 9
      else .ok (.dec w a)

/-- Whether a message is one that an agent the manual numbers can send about a grain. -/
def cohFormed (m : CohMsg) : Bool :=
  decide (m.agent < 40) && (m.grain == 32 || m.grain == 128 || m.grain == 512) && m.addr % m.grain == 0

/-! ## Replies (R125, R126) -/

/-- A reply to a request of an agent outside the module: it goes out once every acknowledgement of what the request has written has
come (R130). An error response is logged (R111). -/
def State.cohReply (s : State) (m : CohMsg) (g : CohGrant) (data : Nat) : State :=
  if !s.foreign m.agent then s
  else
    let r : CohReply := { grant := g, msg := { m with data := data } }
    if s.acks.any fun x => x.key == m.key && decide (x.addr < m.addr + m.grain ∧ m.addr < x.addr + x.grain) then
      { s with cohOwed := s.cohOwed ++ [r] }
    else { s with cohReplies := s.cohReplies ++ [r] }

/-- The replies that wait for no acknowledgement any more go out. -/
def State.payReplies (s : State) : State := s.cohOwed.foldl (fun s r => s.cohReply r.msg r.grant r.msg.data) { s with cohOwed := [] }

/-- An agent that has left, or recovers without what it held, acknowledges and answers nothing any more (R136, R441). -/
def State.forgetAgent (s : State) (ag : Nat) : State :=
  { s with acks := s.acks.filter fun m => m.agent != ag, recalls := s.recalls.filter fun m => m.1.agent != ag,
           cohOwed := s.cohOwed.filter fun r => r.msg.agent != ag }.payReplies

/-- A request that meets an error response: it is logged, and the response is the reply. -/
def State.refuseRequest (s : State) (m : CohMsg) (cause : Nat) : State :=
  ((s.logError cause (s.global m.addr) m.key ((s.ownerPart m.addr).getD 0) 0).2).cohReply m (.error cause) 0

/-- The bytes of a message's grain at the home, as the copy that it asks for holds them (R127). -/
def State.replyData (s : State) (m : CohMsg) (t : Target) : Nat := formatView m.fmt m.etype m.grain (s.grainBytes m.key t m.addr m.grain)

/-- What a request needs of an owner outside the module before it is served (R126): nothing, its data, beside which it stays owner, or
its data and its ownership. -/
inductive OwnerNeed where
  | nothing | data | all
deriving DecidableEq, Repr

/-- A request of the step `i` at its home: what `f` makes of it. A bell holds it (R164), and so does a write to its grain that is
not acknowledged, a full slice of the directory, and, where it needs the owner's data, an owner outside the module (R125, R126,
R130). -/
def State.arrive (s : State) (i : Instr) (m : CohMsg) (write : Bool) (needs : OwnerNeed) (f : Target → State → State) : State :=
  if !cohFormed m then s
  else
    match s.presentHome m.addr m.key write false with
    | .error c => s.refuseRequest m c
    | .ok t =>
      if s.bellIn then s.defer i s.input
      else
        let s := s.scrub m.key t m.grain
        if needs ≠ .nothing ∧ s.heldAbroad (needs == .data) m.key t m.grain then
          (s.sendRecalls (needs == .data) m.key t m.grain).defer i s.input
        else if s.homeBusy m.key t m.grain then s.defer i s.input
        else
          match s.entryWaits t m.key with
          | some u => u.defer i s.input
          | none => f t s

/-- Whether the home slice of what a request names is being moved: its answer is recorded nowhere (R139). -/
def State.unrecorded (s : State) (t : Target) : Bool := (s.homeOf t).any fun h => s.sliceMoving h t.addr

/-- A request for a copy: what `f` makes of each grain; an agent of this module then has the sectors. -/
def State.copyTo (s : State) (m : CohMsg) (t : Target) (f : Nat → Nat → Grain → State → Grain × State) : State :=
  if s.unrecorded t then s
  else
    let s := s.onGrains m.key t m.grain m.grain f
    if s.foreign m.agent then s else s.gainSectors m.agent (dieTag m) (sectorsOf m)

/-- Whether an agent, under its current incarnation, owns a grain that the range begins in. -/
def State.owns (s : State) (m : CohMsg) : Bool :=
  let e := s.dirEntry m.addr m.key m.grain
  (e.grains.getD (m.addr % 512 / e.grain) Grain.di).owner == some (m.agent, s.incOf m.agent)

/-- What a read-shared request is answered with: an exclusive copy where the agent now owns the grain. -/
def State.readGrant (s : State) (m : CohMsg) : CohGrant := if s.owns m then .exclusive else .shared

/-- `RDS` (R126). Where another agent outside the module owns the grain it is recalled first: with dirty data it supplies it and keeps
the grain owned, and a clean one's answer makes it a sharer. -/
def execRds (s : State) : Out :=
  .next (match s.input with
    | .coh m =>
      let m := { m with fmt := 0, etype := 0, mode := 0 }
      s.arrive .rds m false (if s.owns m then .nothing else .data) fun t s =>
        let s := s.copyTo m t fun ga gsz g st =>
          (if st.foreign m.agent then g.rdSFar m.agent (st.incOf m.agent) (st.grainBytes m.key t ga gsz)
            else g.rdS m.agent (st.incOf m.agent), st)
        s.cohReply m (s.readGrant m) (s.replyData m t)
    | _ => s)

/-- `RDF` (R126, R127): it waits where the owner is to write back first. A host takes no narrow copy and cannot subscribe
(R141). -/
def execRdf (s : State) : Out :=
  .next (match s.input with
    | .coh m =>
      if 32 ≤ m.agent then s
      else s.arrive .rdf m false .all fun t s =>
        let s := s.copyTo m t fun _ _ g st => (g.rdF (ptrOf m (st.incOf m.agent)), st)
        s.cohReply m .shared (s.replyData m t)
    | _ => s)

/-- `RDO` (R126): in DW, and while the slice is being moved, it is answered write-through only, a host's too (R141); else the other
agents are invalidated, and once they have acknowledged that it is granted, with the data of the owner that it follows. A pip line
is refused (R107). -/
def execRdo (s : State) : Out :=
  .next (match s.input with
    | .coh m =>
      let m := { m with fmt := 0, etype := 0, mode := 0 }
      s.arrive .rdo m true (if s.owns m then .nothing else .all) fun t s =>
        if s.throughOnly ((s.homeOf t).getD 0) m.key t m.grain m.grain then s.cohReply m .throughOnly 0
        else if s.othersHold m.agent m.key t m.grain then
          (s.invalidateOthers m.agent m.key t m.grain m.grain).defer .rdo s.input
        else
          let s := s.onGrains m.key t m.grain m.grain fun ga gsz g st =>
            ({ g.rdO m.agent (st.incOf m.agent) with
                dirty := true, homeCopy := if g.dirty then g.homeCopy else some (st.grainBytes m.key t ga gsz) }, st)
          s.cohReply m .modified (s.replyData m t)
    | _ => s)

/-- Whether an entry names an agent for the grain that a range begins in. -/
def State.namedFor (s : State) (m : CohMsg) : Bool :=
  let e := s.dirEntry m.addr m.key m.grain
  let g := e.grains.getD (m.addr % 512 / e.grain) Grain.di
  (g.owner.any fun o => o.1 == m.agent) || g.sharers.agents.contains m.agent

/-- `UP` (R126, R133). -/
def execUp (s : State) : Out :=
  .next (match s.input with
    | .coh m =>
      let m := { m with fmt := 0, etype := 0, mode := 0 }
      s.arrive .up m false .nothing fun t s =>
        if s.unrecorded t then s.cohReply m .shared (s.replyData m t)
        else
          let s := s.onGrains m.key t m.grain m.grain fun _ _ g st => (g.up m.agent (st.incOf m.agent), st)
          let s := s.cohReply m .shared (s.replyData m t)
          if s.foreign m.agent || !s.namedFor m then s else s.gainSectors m.agent (dieTag m) (sectorsOf m)
    | _ => s)

/-- `DR` (R125, R126): a clean copy has been dropped. -/
def execDr (s : State) : Out :=
  .next (match s.input with
    | .coh m =>
      if !cohFormed m then s
      else
      match s.presentHome m.addr m.key false true with
      | .error c => s.refuseRequest m c
      | .ok t =>
        if s.bellIn then s.defer .dr s.input
        else
          let s := s.onGrains m.key t m.grain m.grain fun _ _ g st =>
            (if st.foreign m.agent && (g.owner.any fun o => o.1 == m.agent) && (ptrOf m 0).native then g.writtenBack
              else g.drop (ptrOf m (st.incOf m.agent)), st)
          if s.foreign m.agent then s else s.setDieLine m.agent (dieTag m) (s.dieLine m.agent (dieTag m) &&& ~~~ (sectorsOf m))
    | _ => s)

/-- A word mask as a byte mask. -/
def wordBytes (grain mask : Nat) : Nat := packN 4 ((List.range (grain / 4)).map fun i => if bits mask i 1 = 1 then 15 else 0)

/-- `WT` (R126, R128): the words of the mask are applied; it waits for an owner outside the module. -/
def execWt (s : State) : Out :=
  .next (match s.input with
    | .cohWrite m mask data => s.arrive .wt m true .all fun t s =>
        (s.homeWrite (some m.agent) m.key t m.grain m.grain (wordBytes m.grain mask) data).cohReply m .written 0
    | _ => s)

/-- A recall is answered. -/
def State.answered (s : State) (m : CohMsg) : State :=
  { s with recalls := s.recalls.filter fun x =>
      !(x.1.agent == m.agent && x.1.key == m.key && decide (x.1.addr < m.addr + m.grain ∧ m.addr < x.1.addr + x.1.grain)) }

/-- Whether the recall that an owner answers leaves it owner of dirty data: a RdS made it (R126). -/
def State.staysOwner (s : State) (m : CohMsg) : Bool :=
  s.recalls.any fun x => x.2 && x.1.agent == m.agent && x.1.key == m.key && decide (x.1.addr < m.addr + m.grain ∧ m.addr < x.1.addr + x.1.grain)

/-- The owner's dirty words at the home, once `f` has been made of each grain. -/
def State.ownerData (s : State) (m : CohMsg) (t : Target) (mask data : Nat) (f : Grain → Grain) : State :=
  let s := s.onGrains m.key t m.grain m.grain fun _ _ g st => (f g, st)
  s.homeWrite (some m.agent) m.key t m.grain m.grain (wordBytes m.grain mask) data

/-- The data that an owner supplies while it stays owner: the home has the value, no pointer changes (R126's RdS). -/
def State.suppliedData (s : State) (m : CohMsg) (t : Target) (mask data : Nat) : State :=
  (s.writeTarget m.key t m.grain (wordBytes m.grain mask) data).onGrains m.key t m.grain m.grain fun _ _ g st => (g.keepOwned, st)

/-- What the owner of a grain sends: accepted from the owner alone; a bell holds it (R164), and what waited for it goes on. -/
def State.fromOwner (s : State) (i : Instr) (m : CohMsg) (write : Bool) (f : Target → State → State) : State :=
  if !cohFormed m then s
  else
    match s.presentHome m.addr m.key write true with
    | .error c => s.refuseRequest m c
    | .ok t =>
      if s.bellIn then s.defer i s.input
      else
        let s := s.scrub m.key t m.grain
        if s.owns m then ((f t s).answered m).resume else s

/-- `WB` (R126): the owner's write-back; anyone else's is not one. -/
def execWb (s : State) : Out :=
  .next (match s.input with
    | .cohWrite m mask data => s.fromOwner .wb m true fun t s =>
        let s := (s.ownerData m t mask data Grain.writtenBack).cohReply m .written 0
        if s.foreign m.agent then s else s.setDieLine m.agent (dieTag m) (s.dieLine m.agent (dieTag m) &&& ~~~ (sectorsOf m))
    | _ => s)

/-- A recall by the home of another member (R126, R313): the agent of this module writes back what it has written and keeps the
line shared. -/
def State.recalledFar (s : State) (m : CohMsg) : State :=
  match s.dieFind m.agent (nativeDieTag m.addr m.key) with
  | none => s
  | some l =>
    let s := s.sendFar .rc l.farMsg (if l.dirty then l.valid.toNat else 0)
    s.putDieLine { l with own := false, dirty := false }

/-- `RC` (R126): a recall. An owner's answer arrives, with the words it has written or, clean, without; it keeps a shared copy, or, with
dirty data for a RdS, the grain owned. Or the home of another member recalls a line from an agent of this module. -/
def execRc (s : State) : Out :=
  .next (match s.input with
    | .cohWrite m mask data => s.fromOwner .rc m true fun t s =>
        if s.staysOwner m then s.suppliedData m t mask data else s.ownerData m t mask data Grain.recall
    | .coh m =>
      if 2 ^ 51 ≤ m.addr then s.recalledFar m
      else s.fromOwner .rc m false fun t s => s.onGrains m.key t m.grain m.grain fun _ _ g st => (g.recall, st)
    | _ => s)

/-- `AM` (R126, R186): an atomic at its home slice. -/
def execAm (s : State) : Out :=
  .next (match s.input with
    | .cohAtom m op ty x =>
      let n := ty.bits / 8
      if m.addr % n ≠ 0 then s
      else s.arrive .am { m with addr := m.addr / m.grain * m.grain } true .all fun t s =>
        let t := t.at m.addr
        match s.readTarget m.key t n with
        | .error (c, _) => s.refuseRequest m c
        | .ok old =>
          (s.homeWrite none m.key t m.grain n (2 ^ n - 1) (amoValue op ty old (x.toNat % 2 ^ ty.bits))).cohReply
            { m with addr := m.addr / m.grain * m.grain } .old old
    | _ => s)

/-- Whether a die line is a copy of the line a message names, under its KeyID. -/
def DieLine.about (l : DieLine) (m : CohMsg) : Bool := l.agent == m.agent && l.tag.line == m.addr / 512 && l.tag.key == m.key

/-- The acknowledgement of a message to an agent of this module: to this module's home, or to another member's (R130); what is
for another agent goes out, and its acknowledgement arrives later. -/
def State.acknowledge (s : State) (m : CohMsg) : State :=
  if 2 ^ 51 ≤ m.addr then s.sendFar .ak m 0
  else if s.foreign m.agent then s
  else pushMove (.event .ak (.coh m)) s

/-- Every copy that the agent holds of the message's grain is discarded, but those under tags that `p` keeps. -/
def State.discardCopies (s : State) (m : CohMsg) (p : Tag → Bool) : State :=
  let cut (l : DieLine) : DieLine := if l.about m && !p l.tag then { l with valid := l.valid &&& ~~~ (sectorsOf m) } else l
  { s with dieLines := (s.dieLines.map cut).filter fun l => l.valid != 0 }

/-- The copy of an update's format takes its value; the value of a line homed here is memory's (R129). -/
def State.updateCopy (s : State) (m : CohMsg) : State :=
  { s with dieLines := s.dieLines.map fun l =>
      if l.agent == m.agent && l.tag == dieTag m then
        { l with data := if 2 ^ 51 ≤ m.addr then BitVec.ofNat 4096 (setBytes l.data.toNat (m.addr % 512) m.grain m.data) else l.data }
      else l }

/-- `IV` (R128): every copy of the grain under the KeyID, in every format. -/
def execIv (s : State) : Out :=
  .next (match s.input with | .coh m => (s.discardCopies m fun _ => false).acknowledge m | _ => s)

/-- `UD` (R128): the copy of the update's format takes the new value, its other copies are discarded. -/
def execUd (s : State) : Out :=
  .next (match s.input with | .coh m => ((s.updateCopy m).discardCopies m fun t => t == dieTag m).acknowledge m | _ => s)

/-- `AK` (R130): what waited for it goes on. -/
def execAk (s : State) : Out :=
  .next (match s.input with
    | .coh m => if s.acks.contains m then { s with acks := s.acks.erase m }.payReplies.resume else s
    | _ => s)

/-- `EVICTION` (R152, R178): a line leaves a private cache to make room in its own full set, the least recently used one; its dirty
words go down first, and it stays where they must wait. -/
def execEviction (s : State) : Out :=
  .next (match s.input with
    | .evict cl none i =>
      (match (s.clusterCache cl).lines[i]? with
      | some l =>
        if (s.clusterCache cl).lru 2048 16 l.tag.line ≠ some l then s
        else
          ((s.lineHome (cl / 64) l).andThen fun s =>
            .ok (s.setClusterCache cl ((s.clusterCache cl).without l.tag))).anyway
      | none => s)
    | .evict cl (some core) i =>
      let c := 4 * cl + core % 4
      (match (s.coreCache c).lines[i]? with
      | some l =>
        if (s.coreCache c).lru 128 8 l.tag.line ≠ some l then s
        else ((s.coreLineOut c l).andThen fun s => .ok (s.setCoreCache c ((s.coreCache c).without l.tag))).anyway
      | none => s)
    | _ => s)

/-- `STALE_POINTER_SCRUB` (R137): the entry of a line under a KeyID. -/
def execStalePointerScrub (s : State) : Out :=
  .next (match s.input with
    | .num2 line key => s.scrubEntry (dirKey (line * 512) key)
    | _ => s)

end Sys2Proof.Machine
end

