-- ==== Sys2Proof/Machine/Shake.lean ====
section
/-!
DEFINITION. SHAKE256 of FIPS 202, which the root of trust computes (R431, R432): the permutation of 24 rounds over 25 lanes of 64
bits, lane (x, y) at index x + 5·y, a rate of 136 bytes, and 64 bytes of output.
-/
namespace Sys2Proof.Machine

/-- The rotations of the lanes. -/
def shakeRotations : List Nat :=
  [0, 1, 62, 28, 27, 36, 44, 6, 55, 20, 3, 10, 43, 25, 39, 41, 45, 15, 21, 8, 18, 2, 61, 56, 14]

/-- The constants of the rounds. -/
def shakeConstants : List Word :=
  [0x1, 0x8082, 0x800000000000808A, 0x8000000080008000, 0x808B, 0x80000001, 0x8000000080008081, 0x8000000000008009,
   0x8A, 0x88, 0x80008009, 0x8000000A] ++
  [0x8000808B, 0x800000000000008B, 0x8000000000008089, 0x8000000000008003, 0x8000000000008002, 0x8000000000000080,
   0x800A, 0x800000008000000A, 0x8000000080008081, 0x8000000000008080, 0x80000001, 0x8000000080008008]

/-- One round. -/
def shakeRound (a : List Word) (rc : Word) : List Word :=
  let g (l : List Word) (i : Nat) : Word := l.getD i 0
  let c := (List.range 5).map fun x => g a x ^^^ g a (x + 5) ^^^ g a (x + 10) ^^^ g a (x + 15) ^^^ g a (x + 20)
  let d := (List.range 5).map fun x => g c ((x + 4) % 5) ^^^ (g c ((x + 1) % 5)).rotateLeft 1
  let r := (List.range 25).map fun i => (g a i ^^^ g d (i % 5)).rotateLeft (shakeRotations.getD i 0)
  let b := (List.range 25).map fun i => g r ((i % 5 + 3 * (i / 5)) % 5 + 5 * (i % 5))
  let e := (List.range 25).map fun i => g b i ^^^ (~~~ g b ((i + 1) % 5 + 5 * (i / 5)) &&& g b ((i + 2) % 5 + 5 * (i / 5)))
  (g e 0 ^^^ rc) :: e.drop 1

/-- The permutation. -/
def shakePermute (a : List Word) : List Word := shakeConstants.foldl shakeRound a

/-- Eight bytes as a lane, the first lowest. -/
def shakeLane (l : List (BitVec 8)) : Word := l.foldr (fun b w => w <<< 8 ||| b.zeroExtend 64) 0

/-- A message with its domain bits and its padding, to whole blocks of 136 bytes. -/
def shakePad (m : List (BitVec 8)) : List (BitVec 8) :=
  let q := 136 - m.length % 136
  m ++ (if q = 1 then [0x9F] else 0x1F :: List.replicate (q - 2) 0 ++ [0x80])

/-- Absorbs whole blocks. -/
def shakeAbsorb : Nat → List (BitVec 8) → List Word → List Word
  | 0, _, a => a
  | n + 1, m, a =>
    let a := (List.range 25).map fun i => a.getD i 0 ^^^ (if i < 17 then shakeLane ((m.drop (8 * i)).take 8) else 0)
    shakeAbsorb n (m.drop 136) (shakePermute a)

/-- The 64 bytes of SHAKE256 output of a message, as a number whose lowest byte is the first. -/
def shake256 (m : List (BitVec 8)) : Nat :=
  let p := shakePad m
  ((shakeAbsorb (p.length / 136) p (List.replicate 25 0)).take 8).foldr (fun w x => x * 2 ^ 64 + w.toNat) 0

/-- The low `n` bytes of a number, lowest first. -/
def bytesLow (n x : Nat) : List (BitVec 8) := (List.range n).map fun i => BitVec.ofNat 8 (x / 2 ^ (8 * i))

end Sys2Proof.Machine
end

