-- ==== Sys2Proof/Machine/Boot.lean ====
section
/-!
DEFINITION. Boot (R431 to R433), partitions (R435, R436) and the warm reset of one die (R442).
-/
namespace Sys2Proof.Machine

/-! ## Deaths of whole shares (R385, R435, R442) -/

/-- The next task of a share dies while it is pending; one that is not in the share is passed over. -/
def State.killNext (s : State) (c : Cast) (r die cause : Nat) : Try :=
  let dies (s : State) : State :=
    match s.taskOf c (c.cursor r).1 with
    | some _ => (s.moveCursor c r true).modCast c.id fun c => { c with ended := c.ended.set r (c.ended.getD r 0 + 1) }
    | none => s.stillborn c r die cause
  if c.dmode ≠ 2 then .ok (dies s)
  else
    match hubRead c.who (BitVec.ofNat 64 (c.harg + 8 * (c.cursor r).1)) 8 s with
    | .wait u => .error u
    | .trap e s => .ok (if r = 0 then s.stillborn c r die e.cause else s.moveCursor c r false)
    | .ok x s => .ok (if (bits x 0 32 ^^^ bits x 32 32) % c.dies.length = r then dies s else s.moveCursor c r false)

/-- Every pending task of a share dies: at most `n` indices are looked at. -/
def State.killShare (id r die cause : Nat) : Nat → State → Try
  | 0, s => .ok s
  | n + 1, s =>
    match s.castNo id with
    | none => .ok s
    | some c => if c.over r then .ok s else (s.killNext c r die cause).andThen (State.killShare id r die cause n)

/-- The pending tasks that a cast has on a die. -/
def State.killOnDie (s : State) (c : Cast) (die cause : Nat) : Try :=
  match c.rank die with
  | some r => State.killShare c.id r die cause (c.count + 1) s
  | none => .ok s

/-- The pending tasks that some casts have on some dies. -/
def killShares (cause : Nat) : List (Cast × Nat) → State → Try
  | [], s => .ok s
  | (c, d) :: rest, s => (s.killOnDie c d cause).andThen (killShares cause rest)

/-! ## Partitions (R435) -/

/-- The memory ranges of a partition, in 64 KiB units, and its own KeyIDs, each as (first, first after). -/
def State.partRanges (s : State) (q : Nat) : List (Nat × Nat) :=
  (List.range 8).filterMap fun k =>
    let b := s.hubGet (ptAddr q + 48 + 16 * k)
    if bit b 63 then some (fld b 0 32, s.hubFld (ptAddr q + 56 + 16 * k) 0 32) else none
def State.partKeys (s : State) (q : Nat) : Nat × Nat :=
  let w := s.hubGet (ptAddr q + 40)
  (fld w 0 12, fld w 0 12 + fld w 16 12)
/-- Whether two ranges have something in common. -/
def spansMeet (x y : Nat × Nat) : Bool := decide (max x.1 y.1 < min x.2 y.2)

/-- The conditions of R435 on a partition that is to be enabled. -/
def State.partOk (s : State) (q : Nat) : Bool :=
  !(s.clustersOf q).isEmpty && decide ((s.partKeys q).2 ≤ 4096) &&
    ((List.range 16).filter fun p => p != q && s.partEnabled p).all fun p =>
      !spansMeet (s.partKeys q) (s.partKeys p)
        && ((s.partRanges q).all fun x => (s.partRanges p).all fun y => !spansMeet x y)
        && (s.partBank p != s.partBank q || (s.clustersOf q).all fun c => !s.partHasCluster p c)

/-- EN is cleared: the other bank's partition takes over each cluster on which this one was active. -/
def State.clearEn (s : State) (q : Nat) : State :=
  let bank := s.partBank q
  let mine := (s.clustersOf q).filter fun c => s.bankOn c == some bank
  let s := s.hubSetFld (ptAddr q) 63 1 0
  let s := mine.foldl (fun s c =>
    match s.partOn (1 - bank) c with
    | some p => ({ s with activeBank := Tab.set 0 s.activeBank c (2 - bank) }.wakeChans (1 - bank) c).later .taskPlacement (.num2 p c)
    | none => { s with activeBank := Tab.set 0 s.activeBank c 0 }) s
  { s.setActs with tableRev := s.tableRev + 1 }

/-- Every task of a partition dies, and nothing of it runs or copies any more. -/
def State.endPartition (s : State) (q : Nat) : Try :=
  let cause := (Config.disableCause s.steps).toNat
  let status := Config.disableStatus s.steps
  let s := (s.tasks.filter fun t => t.part == q && t.state != .ended).foldl (fun s t => s.killTask t.id cause status) s
  (killShares cause ((s.casts.filter fun c => c.part == q).flatMap fun c => c.dies.map fun d => (c, d)) s).andThen fun s =>
    let bank := s.partBank q
    let s := (s.chans.filter fun e => e.1 / 2048 == bank && s.partHasCluster q (chanCluster e.1)).foldl (fun s e => s.chanKill e.1) s
    let mine := s.strands.filter fun e => bankOf e.1 == bank && s.partHasCluster q (clusterOf e.1) && e.2.run != .free
    .ok (mine.foldl (fun s e => (s.setAside e.1).freeStrand e.1) s)

/-- EN goes from 1 to 0 (R435): the tasks die, the stores that have retired complete (R268), and the lines under the partition's
KeyIDs are flushed from every cache and directory. -/
def State.disablePart (s : State) (q : Nat) : Try :=
  (s.endPartition q).andThen fun s =>
    let s := s.drainAside
    if s.aside.any fun x => s.partOf x.1 == some q then .error s
    else
      let under (_ k : Nat) : Bool := s.partKey q k
      (s.purgeAll under).andThen fun s =>
        .ok ({ s.encodeLines under with starting := s.starting.filter fun p => p != q }.clearEn q)

/-- A step that disables a partition; where a read or a write-through must wait, it takes place again (log 104). -/
def State.disableStep (s : State) (q : Nat) : State :=
  match s.disablePart q with
  | .ok s => s
  | .error u => u.defer .partitionDisable (.num q)

/-- A write of EN = 1 is refused or undone. -/
def State.partError (s : State) (q : Nat) : State := s.hubSetFld (ptAddr q) 61 1 1

/-! ## The first cast (R436) -/

/-- A strand position with the values of a start block. -/
def Strand.enabled (t : Strand) (x : Nat) (keys : List (Option Nat)) : Strand :=
  let w (i : Nat) : Word := BitVec.ofNat 64 (elemN x 64 i)
  let t := ((((t.setSR .ptbase (w 0)).setSR .asn (w 1)).setSR .xvec (w 3)).setSR .xdvec (w 4)).setSR .xpin (w 5)
  { t with keyl := mergeMask (SysReg.writable .keyl) t.keyl (w 2), keys := keys }

/-- The capability table of the first cast. -/
def firstCaps : Tab Cap :=
  [(0, { kind := 2, rights := 0x800E, base := 0, count := 2 ^ 64 }), (1, { kind := 1, rights := 0x8006, base := 0, count := 32768 })]

/-- The key list of a start block, read under KeyID 0 at LADDR (R149); an error response is logged. -/
def readKeyList (q : Nat) (keyl : Nat) (s : State) : Res Nat :=
  let a := (BitVec.ofNat 64 keyl &&& SysReg.writable .keyl).toNat
  match s.present (some q) a 0 false with
  | .error e => physFail q 0 e s
  | .ok t =>
    match s.readWaits 0 t 32 with
    | some u => .wait u
    | none =>
      match s.readTarget 0 t 32 with
      | .error e => physFail q 0 e s
      | .ok x => .ok x s

/-- The cast of a start block's PACKET, as a strand of the partition would make it at U: whether its status is 0. -/
def firstCast (q x : Nat) (keys : List (Option Nat)) (s : State) : Res Bool :=
  let pk := BitVec.ofNat 64 (elemN x 64 6)
  let t := Strand.reset.enabled x keys
  let k : Caster := { part := q, ptbase := t.ptbase, asn := t.asn, keyl := t.keyl, keys := keys, parent := none, caps := firstCaps }
  (packetAddr pk s).andThen fun _ s =>
    (hubRead (hubWho q t.ptbase t.asn keys) pk 128 s).andThen fun y s =>
      let (st, s) := castPacket k pk.toNat y s
      .ok (st == 0) s

/-- The start block of an enabled partition is taken, and its first packet is cast (R436): whether that has succeeded. A start block
whose reserved word is not zero is not acted on (R7; log 83). -/
def startPart (q : Nat) (s : State) : Res Bool :=
  (physGet q 0 (s.hubFld (ptAddr q) 6 46 * 64) 64 s).andThen fun x s =>
    if elemN x 64 7 ≠ 0 then .ok false s
    else
      (readKeyList q (elemN x 64 2) s).andThen fun l s =>
        let keys := s.keysFor (some q) l
        let sids := (s.clustersOf q).flatMap sidsOf
        let s := sids.foldl (fun s sid => s.modStrand (keyOf (s.partBank q) sid) fun t => t.enabled x keys) s
        firstCast q x keys s

/-- A partition that has been enabled starts; where that fails ERR is set and EN cleared, and where a bell or a home holds it, it
starts later. -/
def State.startStep (s : State) (q : Nat) : State :=
  let ended (s : State) : State := { s with starting := s.starting.filter fun p => p != q }
  let undo (s : State) : State := ((ended s).clearEn q).partError q
  match startPart q s with
  | .wait u => u.defer .partitionEnable (.word q 0)
  | .trap _ s => undo s
  | .ok started s => if started then ended s else undo s

/-- EN is set (R435): refused, or the partition's bank becomes active where no other is, and the partition starts. -/
def State.enablePart (s : State) (q : Nat) : State :=
  if !s.partOk q then s.partError q
  else
    let s := (s.hubSetFld (ptAddr q) 61 1 0).hubSetFld (ptAddr q) 63 1 1
    let s := (s.clustersOf q).foldl (fun s c =>
      if Tab.get 0 s.activeBank c = 0 then { s with activeBank := Tab.set 0 s.activeBank c (s.partBank q + 1) } else s) s
    { s.setActs with
      dealt := (List.range 4).foldl (fun t d => Tab.set 0 t (4 * q + d) 0) s.dealt, tableRev := s.tableRev + 1
      starting := s.starting ++ [q] }.startStep q

/-- A write of PTCTL (R435). -/
def State.writePtctl (s : State) (q : Nat) (v : Word) : State :=
  if s.partEnabled q then (if bit v 63 then s else s.disableStep q)
  else
    let s := s.writeMasked (ptAddr q) 0x400FFFFFFFFFFFC0 v
    if bit v 63 then s.enablePart q else s

/-- `PARTITION_ENABLE` (R435, R436): a partition and the value written to its PTCTL; or the start that was held goes on. -/
def execPartitionEnable (s : State) : Out :=
  .next (match s.input with
    | .word q v =>
      if s.starting.contains q then s.startStep q
      else if q < 16 ∧ bit v 63 then s.writePtctl q v else s
    | _ => s)

/-- `PARTITION_DISABLE` (R435): a partition. -/
def execPartitionDisable (s : State) : Out :=
  .next (match s.input with | .num q => if q < 16 ∧ s.partEnabled q then s.disableStep q else s | _ => s)

/-! ## Warm reset of one die (R442) -/

/-- Whether a move touches memory of a die. -/
def State.moveTouches (s : State) (d : Nat) (m : MigMove) : Bool :=
  (List.range 32).any fun i => s.homeDie (m.src + 65536 * i) == d || s.homeDie (m.dst + 65536 * i) == d

/-- Quiesce: the die's tasks die, its channels are cancelled, moves that touch it are abandoned. -/
def State.quiesce (s : State) (d : Nat) : Try :=
  let doomed := s.tasks.filter fun t => t.die == d && (t.state == .queued || t.state == .resident)
  let s := doomed.foldl (fun s t => s.killTask t.id 0x14 0) s
  (killShares 0x14 (s.casts.map fun c => (c, d)) s).andThen fun s =>
    let s := (s.chans.filter fun e => chanCluster e.1 / 64 == d).foldl (fun s e => s.chanKill e.1) s
    let hit := s.moves.filter fun m => s.moveTouches d m
    let s := { s with moves := s.moves.filter fun m => !s.moveTouches d m }
    .ok (hit.foldl (fun s m => match s.hintOf m with | some h => s.abandonMove h | none => s) s)

/-- Whether an address of a line is homed on a die of this module. -/
def State.homedOn (s : State) (d a : Nat) : Bool := decide (a < 2 ^ 51) && s.homeOfLine a == d

/-- Write back: what the die's cache held dirty is at its home, as after a recall (R126), and nothing of it is dirty any more. -/
def State.cleanAgent (s : State) (ag : Nat) : State :=
  let clean (g : Grain) : Grain := if g.dirty && g.owner.any fun o => o.1 == ag then g.recall else g
  let far := s.dieLines.filter fun l => l.agent == ag && l.dirty
  let s := far.foldl (fun s l => s.sendFar .wb l.farMsg l.valid.toNat) s
  { s with dir := s.dir.foldl (fun t e => Tab.set DirEntry.empty t e.1 { e.2 with grains := e.2.grains.map clean }) s.dir
           dieLines := s.dieLines.map fun l => if l.agent = ag ∧ l.dirty then { l with dirty := false, own := false } else l }

/-- Step 2: the die writes back, its home slices have recalled every copy, and its decoded lines are written back, so that no entry
is left; or the state in which an answer is awaited. -/
def State.writeBackDie (s : State) (d : Nat) : Try :=
  let home (a _ : Nat) : Bool := s.homedOn d a
  ((s.cleanAgent (s.agentOf d)).recallLines home).andThen fun s =>
    let s := s.encodeLines home
    .ok { s with dieLines := s.dieLines.filter fun l => !s.homedOn d (l.tag.line * 512) }

/-- A write of GO: the tasks die, and the die is to write back; where a read must wait, the write takes place again. -/
def State.warmReset (s : State) (d : Nat) : State :=
  if s.drstBusy d then s
  else
    match s.quiesce d with
    | .error u => u.defer .drstGo (.num d)
    | .ok s =>
      (s.hubSetFld (drstAddr d) 62 1 1).later .warmResetRetrain (.num d)

/-- `DRST_GO` (R442): a die. -/
def execDrstGo (s : State) : Out := .next (match s.input with | .num d => if d < 4 then s.warmReset d else s | _ => s)

/-- The die that a TLB belongs to (R150). -/
def tlbDie (k : Nat) : Nat := if k < 4096 then k else if k < 16384 then k % 4096 / 256 else (k - 16384) / 128

/-- The die's logic is reset: its caches and translations are empty, its strands, engines and channels at their reset values, its
clusters in service, its machine-check banks clear (R5, R136, R404, R408). Registers of hub space keep what they hold: SLNEW,
SLCUR and SLCTL of the die and CPBIND of its clusters among them, as the manual does not say which die holds them (log 130). -/
def State.resetDie (s : State) (d : Nat) : State :=
  let onDie (c : Nat) : Bool := c / 64 == d
  let s := (s.strands.filter fun e => onDie (clusterOf e.1)).foldl (fun s e => s.freeStrand e.1) s
  let s := (s.engines.filter fun e => onDie (e.1 % 512 / 2)).foldl (fun s e => s.closeStream e.1) s
  let s := (s.chans.filter fun e => onDie (chanCluster e.1)).foldl (fun s e => s.dropLeave (.channel e.1) (chanCluster e.1) 4) s
  let logic (o : LeaveOwner) : Bool := match o with | .engine _ _ | .strand _ | .remote _ | .channel _ => true | _ => false
  let s := (List.range 64).foldl (fun s k => s.hubSet (testAddr (64 * d + k)) 0) s
  let s := (List.range 32).foldl (fun s k => s.hubSet (hubMC + 64 * (8 * d) + 64 * (k / 4) + 8 * (k % 4)) 0) s
  { s with
    strands := Tab.drop (fun k => onDie (clusterOf k)) s.strands
    engines := Tab.drop (fun k => onDie (k % 512 / 2)) s.engines
    chans := Tab.drop (fun k => onDie (chanCluster k)) s.chans
    leaveQ := s.leaveQ.filter fun r => !(logic r.owner && onDie r.cluster)
    engineCheck := Tab.drop (fun k => onDie (k % 512 / 2)) s.engineCheck
    l1d := Tab.drop (fun k => onDie (k / 4)) s.l1d
    l1i := Tab.drop (fun k => onDie (k / 4)) s.l1i
    ccache := Tab.drop onDie s.ccache
    tlb := Tab.drop (fun k => tlbDie k == d) s.tlb
    dieLines := s.dieLines.filter fun l => l.agent != s.agentOf d
    testing := s.testing.filter fun c => !onDie c
    dieClk := Tab.set 0 s.dieClk d s.clk }

/-- Whether an entry names an incarnation of an agent (R136). -/
def State.incNamed (s : State) (ag inc : Nat) : Bool :=
  s.dir.any fun e => e.2.grains.any fun g =>
    g.owner == some (ag, inc) ||
      match g.sharers with
      | .ptrs l => l.any fun p => p.agent == ag && p.inc == inc
      | .coarse l => l.contains (ag, inc)

/-- The incarnation that an agent takes next. -/
def State.nextInc (s : State) (ag : Nat) : Nat := (s.incOf ag + 1) % 256

/-- The die rejoins under its new incarnation, its fence falls, and its dispatcher goes on. -/
def State.rejoin (s : State) (d : Nat) : State :=
  let ag := s.agentOf d
  let inc := s.nextInc ag
  let s := ((s.hubSetFld (hubAGINC + 8 * ag) 0 8 inc).hubSetFld (drstAddr d) 0 8 inc).hubSetFld (drstAddr d) 62 1 0
  let s := { s with fenced := s.fenced.filter fun x => x != d }
  ((List.range 16).filter s.partEnabled).foldl (fun s q => s.dispatchLater q d) s

/-- An agent of another member, the die or host `d` of member `m`, rejoins under its next incarnation (R136), which waits while an
entry names it. -/
def State.rejoinFar (s : State) (m d : Nat) : State :=
  let ag := if d = 4 then 32 + m else 4 * m + d
  if s.incNamed ag (s.nextInc ag) then s.defer .warmResetRetrain (.num2 m d)
  else ((s.forgetAgent ag).hubSetFld (hubAGINC + 8 * ag) 0 8 (s.nextInc ag)).resume

/-- `WARM_RESET_RETRAIN` (R442): a die writes back and is fenced, and then, in a step of its own, it is reset and rejoins, once no entry
names the incarnation it is to take; a bell pauses both. Or a member and a die of it, or 4 for its host: that agent has recovered
(R136). -/
def execWarmResetRetrain (s : State) : Out :=
  .next (match s.input with
    | .num d =>
      if 4 ≤ d ∨ !s.drstBusy d then s
      else if s.bellIn then s.defer .warmResetRetrain (.num d)
      else if !s.dieInReset d then
        (match s.writeBackDie d with
        | .error u => u.defer .warmResetRetrain (.num d)
        | .ok u => { u with fenced := u.fenced ++ [d] }.later .warmResetRetrain (.num d))
      else if s.incNamed (s.agentOf d) (s.nextInc (s.agentOf d)) then s.defer .warmResetRetrain (.num d)
      else (s.resetDie d).rejoin d
    | .num2 m d => if m < 8 ∧ d < 5 ∧ m ≠ s.selfIdx then s.rejoinFar m d else s
    | _ => s)

/-! ## Boot (R431 to R433) -/

/-- The slot of an image: slot A begins at flash offset 0, slot B at 64 MiB (R431). -/
def imageSlot (i : BootImage) : Nat := i.offset / 2 ^ 26

/-- The bytes 0 to 127 of an image's header, which its signature covers (R432). -/
def imageHeader (i : BootImage) : Nat :=
  i.kind + i.seq * 2 ^ 64 + i.len * 2 ^ 128 + i.pk * 2 ^ 192 + i.digest % 2 ^ 320 * 2 ^ 704

/-- Whether an image is valid (R432): its key has the fused digest, its signature verifies over the header, its DIGEST is that of its
body, and its sequence number is not below the minimum of its kind. A body of more than 48 MiB, or a sequence number with a bit
above bit 31, is no image's. -/
def State.imageValid (s : State) (i : BootImage) : Bool :=
  shake256 (bytesLow 64 i.pk) == s.fusedDigest && Config.slhDsaVerifies i.pk 128 (imageHeader i) i.sig
    && shake256 i.body == i.digest && decide (Tab.get 0 s.minSeq i.kind ≤ i.seq)
    && decide (i.len ≤ 48 * 2 ^ 20) && i.body.length == i.len && decide (i.seq < 2 ^ 32)

/-- The image of a kind that boot loads: the valid one of the higher sequence number. -/
def State.imageOf (s : State) (l : List BootImage) (kind : Nat) : Option BootImage :=
  let at' (slot : Nat) : Option BootImage := l.find? fun i => i.kind == kind && imageSlot i == slot && s.imageValid i
  match at' 0, at' 1 with
  | some x, some y => if x.seq < y.seq then some y else if y.seq < x.seq then some x else if Config.equalSlot kind x.seq then some y else some x
  | some x, none => some x
  | none, y => y

/-- The kind of image that a stage of boot loads: the last, after stage 4, is the manifest, under which the domain admits the module.
The memory interfaces are trained in stage 3, with no image. -/
def stageKind : Nat → Option Nat
  | 1 => some 1
  | 2 => some 2
  | 4 => some 4
  | 5 => some 3
  | _ => none

/-- A stage has been reached; the next follows in a step of its own. -/
def State.stageDone (s : State) (k : Nat) : State :=
  if k = 5 then s else (s.hubSetFld hubBOOT 0 3 k).later .powerOnReset (.num (k + 1))

/-- An image is loaded: the hub firmware's SEQ and slot are reported, the domain manifest is taken up. -/
def State.load (s : State) (i : BootImage) : State :=
  let s := { s with loaded := s.loaded ++ [i] }
  let s := if i.kind = 1 then (s.hubSetFld hubBOOT 32 32 i.seq).hubSetFld hubBOOT 7 1 (imageSlot i) else s
  if i.kind = 3 then { s with manifest := i.entries } else s

/-- Register writes that follow one another. -/
def State.writesLater (s : State) (l : List (Nat × Word)) : State := l.foldl (fun s w => s.later .registerWrite (.word w.1 w.2)) s

/-- One stage of boot (R432, R433): its image is loaded, or boot stops there with the image's bit of FAIL. The partition table's
register writes start the partitions, and stage 4 is reached once each of them has been started. -/
def State.bootStage (s : State) (k : Nat) : State :=
  let s := { s with heldReset := false }
  if s.hubFld hubBOOT 0 3 + 1 ≠ k ∨ 5 < k ∨ s.hubFld hubBOOT 8 4 ≠ 0 then s
  else
    match stageKind k with
    | none => s.stageDone k
    | some kind =>
      if s.loaded.any fun i => i.kind == kind then
        if k ≠ 4 then s
        else if s.starting.isEmpty && !(s.agenda.any fun m => match m with | .event i _ => i == .registerWrite | .strand _ => false) then
          s.stageDone 4
        else s.later .powerOnReset (.num 4)
      else
        match s.imageOf s.flash kind with
        | none => s.hubSetFld hubBOOT (7 + kind) 1 1
        | some i =>
          if k = 4 then ((s.load i).writesLater i.writes).later .powerOnReset (.num 4) else (s.load i).stageDone k

/-- The module as boot finds it, held in reset: fuses, the boot flash, the persistent term of elections, and the count of steps stay;
all else is at reset. -/
def State.cleared (s : State) : State :=
  { State.reset with steps := s.steps, serial := s.serial, minSeq := s.minSeq, fusedDigest := s.fusedDigest, flash := s.flash,
                     term := s.term, acked := s.acked, heldReset := true }

/-- `POWER_ON_RESET` (R433): boot from the boot flash, or from a flash that holds these images; or the stage of boot that follows. -/
def execPowerOnReset (s : State) : Out :=
  .next (match s.input with
    | .num k => s.bootStage k
    | .images l => { s.cleared with flash := l }.later .powerOnReset (.num 1)
    | _ => s.cleared.later .powerOnReset (.num 1))

/-- Every region disabled, its contents kept with its fields: main memory is not cleared by a module reset (R96, R433). -/
def State.regionsOff (s : State) : State :=
  (List.range 64).foldl (fun s n => if (s.region n).isSome then s.disableRegion n else s) s

/-- `MODULE_RESET_COMMAND` (R442): boot from stage 0; main memory is not cleared. -/
def execModuleResetCommand (s : State) : Out :=
  let off := s.regionsOff
  .next ({ s.cleared with mem := off.mem, poison := off.poison, keyring := s.keyring, keyPairs := s.keyPairs,
                          regionMemo := off.regionMemo }.later .powerOnReset (.num 1))

end Sys2Proof.Machine
end

