-- ==== Sys2Proof/Machine/Host.lean ====
section
/-!
DEFINITION. Attestation (R434), the CXL host (R440, R441) and the debug port (R446).
-/
namespace Sys2Proof.Machine

/-! ## Attestation (R434) -/

/-- The image of a kind that boot has loaded. -/
def State.image (s : State) (kind : Nat) : Option BootImage := s.loaded.find? fun i => i.kind == kind
/-- The device key, derived at boot from the digest of the hub firmware. -/
def State.deviceKey (s : State) : Nat := Config.deviceKey (match s.image 1 with | some i => i.digest | none => 0)
/-- The digest of measurement 5 after `n` reconfigurations of partitions: another one after each. -/
def tableMeasure (digest : Nat) : Nat → Nat
  | 0 => digest
  | n + 1 =>
    let x := Config.tableDigest digest (n + 1)
    if x = tableMeasure digest n then x + 1 else x
/-- Measurements 2 to 5, of the images that are loaded; the fifth changes with each reconfiguration of partitions. -/
def State.imageMeasurements (s : State) : List SpdmItem :=
  [(2, 1), (3, 2), (4, 3), (5, 4)].filterMap fun (m, kind) =>
    (s.image kind).map fun i => .measurement m (if m = 5 then tableMeasure i.digest s.tableRev else i.digest) i.seq
/-- The five measurements. -/
def State.measurements (s : State) : List SpdmItem := .romVersion Config.romVersion :: s.imageMeasurements

/-- An answer is sent. -/
def State.answer (s : State) (r : SpdmRequest) (report : List SpdmItem) : State :=
  { s with spdm := s.spdm ++ [{ request := r, report := report }] }

/-- The algorithms that the module offers; SLH-DSA-SHAKE-256s is announced as a vendor-defined one. -/
def spdmAlgorithms : List SpdmItem := [.algorithm .slhDsaShake256s true, .algorithm .shake256 false]

/-- `GET_VERSION`. -/
def execGetVersion (s : State) : Out := .next (s.answer .version [.version 1 2])
/-- `GET_CAPABILITIES`. -/
def execGetCapabilities (s : State) : Out := .next (s.answer .capabilities [])
/-- `NEGOTIATE_ALGORITHMS`. -/
def execNegotiateAlgorithms (s : State) : Out := .next (s.answer .algorithms spdmAlgorithms)
/-- `GET_DIGESTS`. -/
def execGetDigests (s : State) : Out := .next (s.answer .digests [.chainDigest (Config.chainDigest s.deviceKey)])
/-- `GET_CERTIFICATE`: a chain that ends in the device key. -/
def execGetCertificate (s : State) : Out := .next (s.answer .certificate [.deviceKey s.deviceKey])
/-- `CHALLENGE`: a nonce. -/
def execChallenge (s : State) : Out :=
  .next (match s.input with
    | .num n => s.answer .challenge [.chainDigest (Config.chainDigest s.deviceKey), .signature (Config.attest s.deviceKey n)]
    | _ => s)
/-- `GET_MEASUREMENTS`. -/
def execGetMeasurements (s : State) : Out := .next (s.answer .measurements s.measurements)

/-! ## The host (R440, R441) -/

def hostAddr (k : Nat) : Nat := hubHOST + 16 * k
/-- The agent number of the host at this module's port (R121). -/
def State.hostAgent (s : State) : Nat := 32 + s.selfIdx

/-- The exposed range that holds a local address: its partition and KeyID. -/
def State.hostRange (s : State) (a : Nat) : Option (Nat × Nat) :=
  (List.range 8).findSome? fun k =>
    let r := s.hubGet (hostAddr k)
    let first := fld r 16 36 * 65536
    if bit r 63 && decide (first ≤ a) && decide (a < first + s.hubFld (hostAddr k + 8) 0 36 * 65536) then
      some (fld r 52 4, fld r 0 12)
    else none

/-- What a host request names, under its range's partition and KeyID (R111); a KeyID that the partition does not have is answered as
one that is not programmed. An address beyond the 48 bits of a local one is none that the module has (R18). -/
def State.hostPresent (s : State) (part key a : Nat) (write : Bool) : Except (Nat × Nat) Target :=
  if 2 ^ 48 ≤ a then .error (1, a)
  else if !s.partEnabled part then .error (2, s.global a)
  else match s.present (some part) (s.global a) key write with
    | .error e => .error e
    | .ok t => if s.partKey part key then .ok t else .error (4, s.global a)

/-- A completion. -/
def State.complete (s : State) (x : HostAnswer) : State := { s with hostOut := s.hostOut ++ [x] }

/-- The grain of a host's request: no leaf entry gives it one, and the model takes a whole line (log 131). -/
def hostGrain : Nat := 512

/-- A host's read of `n` bytes: its copy is recorded (R126, R141), but not while the slice is being moved (R139). -/
def State.hostRead (s : State) (key part n : Nat) (t : Target) : State :=
  match s.readTarget key t n with
  | .error e => ((s.logError e.1 e.2 key part 0).2).complete .error
  | .ok x =>
    let ag := s.hostAgent
    let s := if s.unrecorded t then s
      else s.onGrains key t n hostGrain fun ga gsz g st => (g.rdSFar ag (st.incOf ag) (st.grainBytes key t ga gsz), st)
    s.complete (.data x)

/-- Whether the host itself owns the grain of a byte. -/
def State.hostOwns (s : State) (key : Nat) (t : Target) : Bool := s.owns (cohMsg s.hostAgent t.addr key hostGrain 0 none)

/-- Why a host's request of `n` bytes, a read where `share`, waits at its home, as the state in which it does. -/
def State.hostWaits (s : State) (share : Bool) (key n : Nat) (t : Target) : Option State :=
  if s.heldAbroad share key t n && !s.hostOwns key t then some (s.sendRecalls share key t n)
  else if s.homeBusy key t n then some s
  else s.entryWaits t key

/-- A request to the configuration and mailbox space, of which the manual gives the size alone: it holds what is written (log 141). -/
def State.hostBox (s : State) (o n : Nat) (w : Option Nat) : State :=
  if 16384 < o + n then s.complete .unsupported
  else
    match w with
    | none => s.complete (.data (Memory.read s.hostSpace o n))
    | some x => { s with hostSpace := Memory.write s.hostSpace o n (x % 2 ^ (8 * n)) }.complete .written

/-- `HOST_REQUEST` (R440): a read or a write of bytes of one 64-byte line at a local address; it waits for an owner outside the
module, for a write that is not acknowledged, and for the end of a bell (R114, R395). Or a request to the configuration space. -/
def execHostRequest (s : State) : Out :=
  .next (match s.input with
    | .hostSpace o n w => if s.hostLink.isNone then s else s.hostBox o n w
    | .host a n w =>
      if s.hostLink.isNone ∨ n = 0 ∨ 64 < a % 64 + n then s
      else
        match s.hostRange a with
        | none => s.complete .unsupported
        | some (part, key) =>
          if s.bellIn then s.defer .hostRequest s.input
          else
            match s.hostPresent part key a w.isSome with
            | .error e => ((s.logError e.1 e.2 key part 0).2).complete .error
            | .ok t =>
              let s := s.scrub key t n
              match s.hostWaits w.isNone key n t with
              | some u => u.defer .hostRequest s.input
              | none =>
                match w with
                | none => s.hostRead key part n t
                | some x => (s.homeWrite (some s.hostAgent) key t hostGrain n (2 ^ n - 1) x).complete .written
    | _ => s)

/-- The widths and the rates in GT/s at which the link trains. -/
def hostModes : List (Nat × Nat) := [16, 8, 4].flatMap fun w => [32, 64, 128].map fun r => (w, r)

/-- `HOST_LINK_UP` (R440): a width and a rate. -/
def execHostLinkUp (s : State) : Out :=
  .next (match s.input with
    | .num2 w r => if s.hostLink.isNone ∧ hostModes.contains (w, r) then { s with hostLink := some (w, r) } else s
    | _ => s)

/-- The entries that name an agent are looked at, and what is stale in them goes (R137). -/
def State.scrubAgent (s : State) (ag : Nat) : State :=
  s.dir.foldl (fun s e => if e.2.agents.contains ag then s.scrubEntry e.1 else s) s

/-- `HOST_LINK_DOWN` (R441): the host is a stale owner of what it held, and nothing waits for its acknowledgements or its answers
any more. What is stale of it already goes first, so that no entry names the incarnation that it takes next (R136). -/
def execHostLinkDown (s : State) : Out :=
  .next (if s.hostLink.isNone then s
    else
      let ag := s.hostAgent
      let s := (({ s with hostLink := none }).scrubAgent ag).forgetAgent ag
      ((s.hubSetFld (hubAGINC + 8 * ag) 0 8 ((s.incOf ag + 1) % 256)).scrubAgent ag).resume)

/-! ## The debug port (R446) -/

/-- What a read of the word at a local address of hub register space gives (R5): the memory error log's entries, WO fields as zero,
and every other register as it is held. -/
def State.readHub (s : State) (a : Nat) : Word :=
  if hubMEL ≤ a ∧ a < hubMEL + 1024 then
    let e := Tab.get MelEntry.blank s.mel ((a - hubMEL) / 16)
    if a % 16 = 0 then e.lo else e.hi
  else s.hubGet a

/-- The registers that the I3C port reads: BOOTST, the SENS and RHL registers, the machine-check banks and the memory error log. -/
def i3cReads (a : Nat) : Bool :=
  a == hubBOOT || (hubRHL + 0x1000 ≤ a && a < hubRHL + 0x1000 + 8 * 5) || (hubRHL ≤ a && a < hubRHL + 8 * 256)
    || (hubMC ≤ a && a < hubMC + 64 * 37 && a % 64 < 32) || (hubMEL ≤ a && a < hubMEL + 1032)

/-- What the debug port and the I3C port answer: IDCODE and BYPASS at all times, boundary scan while the module is held in reset, and
the registers of the I3C port. -/
def State.debugAnswer (s : State) : DebugRead → DebugAnswer
  | .bypass => .bypass
  | .idcode => .idcode 0x0A4C6E35
  | .boundary => if s.heldReset then .boundary (Config.boundary s.steps) else .silent
  | .register a => if i3cReads a && a % 8 == 0 then .register (s.readHub a) else .silent

/-- `DEBUG_TOKEN`: a partition, and whether the token's signature verifies; or a read on the debug port, which needs no token, or on the
I3C port. -/
def execDebugToken (s : State) : Out :=
  .next (match s.input with
    | .outcome q ok => if ok ∧ q < 16 then { s with debugToken := some q } else s
    | .debug r => { s with debugOut := s.debugOut ++ [s.debugAnswer r] }
    | _ => s)

/-- `DEBUG_STOP`: a strand and XINFO: 1 halt request, 2 address match, 3 single step. -/
def execDebugStop (s : State) : Out :=
  .next (match s.input with
    | .num2 key info =>
      if s.debugToken.isSome && s.partOf key == s.debugToken && decide (1 ≤ info ∧ info ≤ 3) then
        s.modStrand key fun t => { t with debugPend := some info }
      else s
    | _ => s)

end Sys2Proof.Machine
end

