-- ==== Sys2Proof/Machine/Access.lean ====
section
/-!
DEFINITION. A write to hub register space by the partition monitor (R5, R6): the register that an address names, the fields that
the write sets, and the actions of the registers that have one.
-/
namespace Sys2Proof.Machine

/-- What a part of hub register space does with a write: the offset within its block, and the value. -/
structure HubBlock where
  base : Nat
  size : Nat
  write : State → Nat → Word → State

/-- A register of plain fields, at a place of its block, with its RW fields. -/
def State.plain (s : State) (a : Nat) (mask v : Word) : State := if mask = 0 then s else s.writeMasked a mask v

/-- Interleave regions (R95). -/
def writeIRD (s : State) (o : Nat) (v : Word) : State :=
  if o % 16 = 0 then s.writeIrdA (o / 16) v else s.writeIrdB (o / 16) v
/-- Format windows (R104). -/
def writeFW (s : State) (o : Nat) (v : Word) : State := s.writeFw (o / 64) (o % 64) v
/-- The memory error log (R112). -/
def writeMEL (s : State) (o : Nat) (v : Word) : State := if o = 1024 then s.writeMelHead v else s
/-- Keys (R110). -/
def writeKEY (s : State) (o : Nat) (v : Word) : State :=
  if o < 64 then { s with keyData := Tab.set 0 s.keyData (o / 8) v } else s.writeKeyCmd v
/-- The migrator (R98): a new step is looked at by the migrator (R100). -/
def writeMIG (s : State) (o : Nat) (v : Word) : State :=
  let q := o / 32
  match o % 32 / 8 with
  | 0 => s.migpoolStep q v
  | 1 => if bit (s.hubGet (migAddr q)) 63 then s else s.plain (migAddr q + 8) 0xFFFF v
  | 2 => s.writeMigstep q (fld v 0 32)
  | _ => s
/-- Slice maps (R138). -/
def writeSL (s : State) (o : Nat) (v : Word) : State :=
  let d := o / 4096
  if o % 4096 < 128 then s.writeSlnew d (o % 4096 / 8) v else if o % 4096 = 256 then s.writeSlctl d v else s
/-- The bindings of copy channels (R195). -/
def writeCP (s : State) (o : Nat) (v : Word) : State := s.writeCpbind (hubCP + o) v
/-- The domain's tables (R312). -/
def writeFC (s : State) (o : Nat) (v : Word) : State :=
  let mask : Word := if o < 64 then 0xFFFFFFFFFFFFFFFF else if o < 128 then 0x80000000000001FF else if o = 128 then 7
    else if o = 136 then 0xFFFFFFFF else 0
  s.plain (hubFC + o) mask v
/-- Save pools (R383): fields change only while EN = 0 and no slot is held. -/
def writeSV (s : State) (o : Nat) (v : Word) : State :=
  let q := o / 16
  let free := !bit (s.hubGet (svPool q)) 63 && (Tab.get [] s.slotsHeld q).isEmpty
  if o % 16 = 0 then (if free then s.plain (svPool q) 0x800FFFFFFFFFFFFF v else s.plain (svPool q) 0x8000000000000000 v)
  else if free then s.plain (svPool q + 8) 0xFFF v else s
/-- Leave budgets (R400): the leave unit looks at its queue again. -/
def writeLV (s : State) (o : Nat) (v : Word) : State :=
  let mask : Word := if o < 2048 then 0xFF else if 4096 ≤ o ∧ o ≤ 4096 + 32 then 0xFFFF else 0
  (s.plain (hubLV + o) mask v).leaveLook
/-- Machine-check banks (R404): V and OVER are cleared by 1. -/
def writeMC (s : State) (o : Nat) (v : Word) : State :=
  match o % 64 / 8 with
  | 0 => s.hubSet (hubMC + o) (s.hubGet (hubMC + o) &&& ~~~ (v &&& 0xC000000000000000))
  | 3 => s.plain (hubMC + o) 0x0000FFFFFFFFFFFF v
  | _ => s
/-- Machine-check rings (R405). -/
def writeMCQ (s : State) (o : Nat) (v : Word) : State :=
  s.plain (hubMCQ + o) (if o % 16 = 0 then 0x800FFFFFFFFFFFC0 else 0xF00FFF) v
/-- Partitions (R435): fields change only while EN = 0. -/
def writePT (s : State) (o : Nat) (v : Word) : State :=
  let q := o / 256
  let f := o % 256
  if f = 0 then s.writePtctl q v
  else if s.partEnabled q then s
  else
    let mask : Word :=
      if f < 40 then 0xFFFFFFFFFFFFFFFF else if f = 40 then 0x0FFF0FFF
      else if f < 176 then (if f % 16 = 0 then 0x80000000FFFFFFFF else 0xFFFFFFFF) else 0
    s.plain (hubPT + o) mask v
/-- Host ranges (R440). -/
def writeHOST (s : State) (o : Nat) (v : Word) : State :=
  s.plain (hubHOST + o) (if o % 16 = 0 then 0x80FFFFFFFFFF0FFF else 0xFFFFFFFFF) v
/-- Warm reset (R442). -/
def writeDRST (s : State) (o : Nat) (v : Word) : State := if bit v 63 then s.warmReset (o / 8) else s
/-- Ring-heater loops (R445). -/
def writeRHL (s : State) (o : Nat) (v : Word) : State := s.plain (hubRHL + o) 0x200000000000FFFF v

/-- The blocks of hub register space that a write can change; the other registers are RO, or, the window table, the service
engine's (R314). -/
def hubBlocks : List HubBlock :=
  [{ base := hubIRD, size := 1024, write := writeIRD }, { base := hubFW, size := 2048, write := writeFW },
   { base := hubMEL, size := 1032, write := writeMEL }, { base := hubKEY, size := 72, write := writeKEY },
   { base := hubMIG, size := 512, write := writeMIG }, { base := hubSL, size := 16384, write := writeSL },
   { base := hubCP, size := 2048, write := writeCP }, { base := hubFC, size := 144, write := writeFC },
   { base := hubSV, size := 256, write := writeSV }, { base := hubLV, size := 4136, write := writeLV },
   { base := hubMC, size := 2368, write := writeMC }, { base := hubMCQ, size := 256, write := writeMCQ },
   { base := hubPT, size := 4096, write := writePT }, { base := hubHOST, size := 128, write := writeHOST },
   { base := hubDRST, size := 32, write := writeDRST }, { base := hubRHL, size := 2048, write := writeRHL }]

/-- A write of the word at a local address of hub register space. -/
def State.writeHub (s : State) (a : Nat) (v : Word) : State :=
  match hubBlocks.find? fun b => decide (b.base ≤ a ∧ a < b.base + b.size) with
  | some b => if a % 8 = 0 then b.write s (a - b.base) v else s
  | none => s

/-- `REGISTER_WRITE` (R5, R6): a local address and a value; or an image kind and the minimum sequence number that the loaded hub
firmware writes into its fuses, which never falls (R431, R432). -/
def execRegisterWrite (s : State) : Out :=
  .next (match s.input with
    | .word a v => s.writeHub a v
    | .num2 kind n =>
      if 1 ≤ kind ∧ kind ≤ 4 ∧ s.loaded.any (fun i => i.kind == 1) then
        { s with minSeq := Tab.set 0 s.minSeq kind (max (Tab.get 0 s.minSeq kind) (n % 2 ^ 32)) }
      else s
    | _ => s)

end Sys2Proof.Machine
end

