-- ==== Sys2Proof/Machine/Remote.lean ====
section
/-!
DEFINITION. Remote operations (R314 to R324): what the target does, the source tables, and the instructions of op 0x20.
-/
namespace Sys2Proof.Machine

/-! ## Remote addresses (R20) -/

def remMod (r : Word) : Nat := fld r 55 9
def remWin (r : Word) : Nat := fld r 40 15
def remOff (r : Word) : Nat := fld r 0 40

/-- Whether a module belongs to the domain (R312). -/
def State.inDomain (s : State) (m : Nat) : Bool := bit (s.hubGet (hubFC + 8 * (m / 64))) (m % 64)

/-- XINFO of R321. -/
def remoteInfo (r : Word) (sub ecause : Nat) : Word :=
  BitVec.ofNat 64 (remWin r * 2 ^ 25 + remMod r * 2 ^ 16 + ecause % 256 * 2 ^ 8 + sub)
/-- The remote-operation trap (R321). -/
def remoteTrap {α : Type} (r : Word) (sub ecause : Nat) (s : State) : Res α :=
  .trap { cause := 0x0E, addr := r, info := remoteInfo r sub ecause } s
/-- The check of the module at issue (R321's subcause 0x02). -/
def moduleCheck (r : Word) (s : State) : Res Unit :=
  if !s.inDomain (remMod r) && remMod r != s.ownMid then remoteTrap r 2 0 s else .ok () s

/-! ## The target (R315, R317, R318, R320) -/

/-- A failed access as the result of a remote operation (R321). -/
def failedBy (e : Exc) : RemoteResult :=
  if e.cause = 0x08 then .failed 7 (fld e.info 0 8) else if e.cause = 0x09 then .failed 8 0 else .failed 6 0

/-- The address space of a registered window, its key list read under KeyID 0 (R149, R315). The manual names no privilege for a window's
accesses; the model translates them at U (log 12). -/
def windowWho (n : Nat) (s : State) : Res Who :=
  let ctl := s.hubGet (winAddr n)
  let part := fld ctl 56 4
  match s.present (some part) (s.hubGet (winAddr n + 32)).toNat 0 false with
  | .error e => physFail part 0 e s
  | .ok t =>
    match s.readWaits 0 t 32 with
    | some u => .wait u
    | none =>
      match s.readTarget 0 t 32 with
      | .error e => physFail part 0 e s
      | .ok x => .ok (hubWho part (s.hubGet (winAddr n + 24)) ctl (s.keysFor (some part) x)) s

/-- One part of a put, checked and written at the home place: the parts are not written as one (R321). -/
def putPart (w : Who) (base data : Nat) (p : Nat × Nat) (s : State) : Res Unit :=
  match s.pieceAD w .store Align.any p.1 p.2 true with
  | .error (e, s) => raiseBad w p.1 e s
  | .ok (q, s) => (homeReady [q] s).andThen fun _ s => .ok () (homeStores [q] (bits data (8 * (p.1 - base)) (8 * p.2)) s)

/-- The flag increment of a put: an 8-byte atomic add at the home place (R318). -/
def putFlag (w : Who) (va : Nat) (s : State) : Res Unit :=
  match s.pieceAD w .store { va := va, n := 8, nat := true } va 8 true with
  | .error (e, s) => raiseBad w va e s
  | .ok (p, s) =>
    match s.readWaits p.key p.t 8 with
    | some u => .wait u
    | none =>
      match s.readTarget p.key p.t 8 with
      | .error e => raiseBad w va (.abort e.1 e.2 p.key) s
      | .ok x => .ok () (s.homeWrite none p.key p.t (leafGrain p.attr) 8 255 ((x + 1) % 2 ^ 64))

/-- Whether the window grants an operation its right (R314). -/
def rightOf : RemoteKind → Word → Bool
  | .put _ _, c | .move _ _ _, c => bit c 61
  | .get, c => bit c 62
  | .atom _ _ _, c | .cas _ _ _, c => bit c 60
  | .count, _ => true

/-- The value that a `cas` on 4 or 8 bytes writes; none where the comparison fails (R172). -/
def casValue (ty : Ty) (expected new : Word) (old : Nat) : Option Nat :=
  if old = expected.toNat % 2 ^ ty.bits then some (new.toNat % 2 ^ ty.bits) else none

/-- The flag of a repartition's put: the operation counts it, and one whose own moves are made looks whether it can commit (R333). -/
def State.moveCame (s : State) (part gid count : Nat) : State :=
  let its (c : Coll) : Bool := c.part == part && c.gid == gid && c.count == count
  let s : State := { s with colls := s.colls.map fun c => if its c then { c with flags := c.flags + 1 } else c }
  (s.colls.filter fun c => its c && c.moved).foldl (fun s c => s.later .rpartCommit (.num c.id)) s

/-- The access of an accepted operation in the window's address space. A put's data is visible, its messages acknowledged, before
its flag and WARR grow (R317, R318). -/
def remoteAccess (r : RemoteReq) (w : Who) (va : Nat) (s : State) : Res Nat :=
  match r.kind with
  | .put data flag =>
    (forEach (putPart w va data) (parts va r.length) s).andThen fun _ s =>
      (hubReleased s).andThen fun _ s =>
        let warr := winAddr r.window + 40
        (match flag with | some f => putFlag w (va - r.offset + f) s | none => .ok () s).andThen fun _ s =>
          .ok 0 (s.hubSet warr (s.hubGet warr + 1))
  | .get => hubRead w (BitVec.ofNat 64 va) r.length s
  | .atom op ty x =>
    hubAtomic w (BitVec.ofNat 64 va) (ty.bits / 8) (fun old => some (amoValue op ty old (x.toNat % 2 ^ ty.bits))) s
  | .cas ty e x => hubAtomic w (BitVec.ofNat 64 va) (ty.bits / 8) (casValue ty e x) s
  | .count => .ok (s.hubGet (winAddr r.window + 40)).toNat s
  | .move data gid count =>
    (forEach (putPart w va data) (parts va r.length) s).andThen fun _ s =>
      (hubReleased s).andThen fun _ s =>
        let warr := winAddr r.window + 40
        let s := s.moveCame (fld (s.hubGet (winAddr r.window)) 56 4) gid count
        .ok 0 (s.hubSet warr (s.hubGet warr + 1))

/-- The flag of a put lies in its window. -/
def flagFits (k : RemoteKind) (len : Nat) : Bool :=
  match k with
  | .put _ (some f) => decide (f < len)
  | _ => true

/-- A remote operation performed at its target (R315): its result, which for one that is not accepted is its failure; a bell holds
what is accepted, and a home may. A window that is being released accepts nothing (R321). -/
def performRemote (r : RemoteReq) (s : State) : Res RemoteResult :=
  let ctl := s.hubGet (winAddr r.window)
  let len := s.hubFld (winAddr r.window + 16) 0 41
  if !bit ctl 63 || (s.releasing.contains r.window && !r.accepted) then .ok (.failed 3 0) s
  else if r.kind = .count then
    (if fld ctl 56 4 = r.part then .ok (.done (s.hubGet (winAddr r.window + 40)).toNat) s else .ok (.failed 5 0) s)
  else if !rightOf r.kind ctl then .ok (.failed 5 0) s
  else if len < r.offset + r.length then .ok (.failed 4 0) s
  else if !flagFits r.kind len then .ok (.failed 10 0) s
  else if s.bellIn then .wait s
  else
    match windowWho r.window s with
    | .wait u => .wait u
    | .trap e s => .ok (.failed 7 e.cause) s
    | .ok w s =>
      let va := fld (s.hubGet (winAddr r.window + 8)) 3 52 * 8 + r.offset
      match remoteAccess r w va s with
      | .ok v s => .ok (.done v) s
      | .trap e s => .ok (failedBy e) s
      | .wait u => .wait u

/-! ## Source tables (R316) -/

def srcKey (part : Nat) (ttag : Word) : Nat := part * 2 ^ 64 + ttag.toNat
def State.srcTab (s : State) (k : Nat) : List SrcEntry := Tab.get [] s.sources k
def State.setSrc (s : State) (k : Nat) (l : List SrcEntry) : State := { s with sources := Tab.set [] s.sources k l }
def State.srcEntry (s : State) (k mod win : Nat) : Option SrcEntry := (s.srcTab k).find? fun e => e.mod == mod && e.win == win

/-- The entry that is reused when the table is full: ended, without a latched failure, least recently issued to. -/
def reusable (l : List SrcEntry) : Option SrcEntry :=
  (l.filter fun e => e.iss == e.done && e.latch.isNone).foldl (fun (b : Option SrcEntry) e =>
    match b with | some x => if e.last < x.last then some e else b | none => some e) none

/-- An issue to a pair: its entry is found, created or reused, and ISS grows; none while no entry can be had. -/
def State.openEntry (s : State) (k mod win : Nat) : Option State :=
  let l := s.srcTab k
  let fresh : SrcEntry := { mod := mod, win := win, iss := 1, done := 0, latch := none, last := s.remoteSeq }
  let s' := { s with remoteSeq := s.remoteSeq + 1 }
  if (s.srcEntry k mod win).isSome then
    some (s'.setSrc k (l.map fun e => if e.mod = mod ∧ e.win = win then { e with iss := e.iss + 1, last := s.remoteSeq } else e))
  else if l.length < 64 then some (s'.setSrc k (l ++ [fresh]))
  else match reusable l with
    | some x => some (s'.setSrc k (l.map fun e => if e = x then fresh else e))
    | none => none

/-- An operation of a pair has ended: DONE grows, and a first failure is latched. -/
def State.closeEntry (s : State) (k mod win : Nat) (fail : Option (Word × Word)) : State :=
  s.setSrc k ((s.srcTab k).map fun e =>
    if e.mod = mod ∧ e.win = win then
      { e with done := e.done + 1, latch := match e.latch with | some x => some x | none => fail }
    else e)

/-- What a result latches. -/
def latchOf (r : Word) : RemoteResult → Option (Word × Word)
  | .done _ => none
  | .failed sub ecause => some (r, remoteInfo r sub ecause)

/-! ## Issue (R322, R323) -/

/-- The packets of `n` payload bytes: one header flit and up to 8 payload flits each (R306); the last carries the operation's
number. -/
def State.sendPackets (s : State) (dst n : Nat) (last : Option Nat) : State :=
  let k := max 1 ((n + 511) / 512)
  let ps := (List.range k).map fun i =>
    ({ src := s.ownMid, dst := dst, num := s.packetSeq + i, first := 0, flits := 1 + (min 512 (n - 512 * i) + 63) / 64, relayed := false,
       last := if i + 1 = k then last else none } : Packet)
  ps.foldl (fun s p => s.later .packetSend (.num p.num)) { s with outbox := s.outbox ++ ps, packetSeq := s.packetSeq + k }

/-- Fabric time outside bells, in ns (R307). -/
def State.fabricTime (s : State) : Nat := s.time - s.bellTotal - (if s.bellIn then s.time - s.bellStart else 0)

/-- The record at the hub of an operation of the current strand. -/
def State.newOp (s : State) (r : Word) (k : RemoteKind) (n lva : Nat) (counted leave : Bool) : RemoteOp :=
  let t := s.me
  { id := s.remoteSeq, part := (s.partOf s.cur).getD 0, ttag := t.ttag, key := s.cur, addr := r, kind := k, n := n, lva := lva,
    ptbase := t.ptbase, asn := fld t.asn 0 16, keys := t.keys, sup := t.sup, counted := counted, start := s.fabricTime,
    sent := false, leave := leave, result := none }

/-- An operation to another module: its record at the hub and its packets. -/
def State.launch (s : State) (r : Word) (k : RemoteKind) (n lva payload : Nat) (counted leave : Bool) : State :=
  let op := s.newOp r k n lva counted leave
  ({ s with remotes := s.remotes ++ [op], remoteSeq := s.remoteSeq + 1 }).sendPackets (remMod r) payload (some op.id)

/-- The current strand's request to its own module's window. -/
def State.ownReq (s : State) (r : Word) (n : Nat) (k : RemoteKind) : RemoteReq :=
  { source := s.ownMid, window := remWin r, offset := remOff r, length := n, kind := k, part := (s.partOf s.cur).getD 0 }

/-- Counts above 2^30 and the module, at issue. -/
def countCheck (n r : Word) (s : State) : Res Unit := if 2 ^ 30 < n.toNat then remoteTrap r 1 0 s else moduleCheck r s

/-- An `rput` or `rget` after its checks: where it accesses local memory at once, the drain's admission (R394); 4 credits above 256
KiB (R311); and then `go`, which is told whether it holds credits. -/
def bulkIssue (len n : Nat) (reads : Bool) (s : State) (checks : State → Res Unit) (go : Bool → State → Res Unit) : Out :=
  let c := clusterOf s.cur
  let big := decide (2 ^ 18 < n)
  match checks s with
  | .trap e s' => .next (s.takeTrap s' e)
  | .wait u => .next u
  | .ok _ s1 =>
    if reads && !s1.drainAdmits 40 then .next (s.refuseOp (.remote s.cur) c)
    else
      match if big then s1.askLeave (.remote s.cur) c 4 else (true, s1) with
      | (false, s2) => .next s2
      | (true, s2) =>
        match go big s2 with
        | .ok _ s3 => .next (s3.modMe fun t => t.advance len)
        | .trap e s3 => .next (s.takeTrap (if big then s3.returnLeave c 4 else s3) e)
        | .wait u => .next (if big then u.returnLeave c 4 else u)

/-- An operation on the module's own window has ended: its entry, which it needed before, counts it. -/
def State.ownEnded (s : State) (k : Nat) (r : Word) (res : RemoteResult) (big : Bool) : State :=
  let s := (s.openEntry k (remMod r) (remWin r)).getD s
  let s := s.closeEntry k (remMod r) (remWin r) (latchOf r res)
  if big then s.returnLeave (clusterOf s.cur) 4 else s

/-- The transfer of a put (R318, R323). -/
def putGo (tmp : Nat) (r src : Word) (n : Nat) (flag : Option Nat) (big : Bool) (s : State) : Res Unit :=
  (memReadAt (s.who s.cur) .cluster src n false tmp s).andThen fun data s =>
    let k := srcKey ((s.partOf s.cur).getD 0) s.me.ttag
    let kind : RemoteKind := .put data flag
    match s.openEntry k (remMod r) (remWin r) with
    | none => .wait s
    | some opened =>
      if remMod r = s.ownMid then
        (performRemote (s.ownReq r n kind) s).andThen fun res s => .ok () (s.ownEnded k r res big)
      else .ok () (opened.launch r kind n 0 n true big)

/-- A put (R323). -/
def putOp (h : Hdr) (len : Nat) (d a b : R32) (flag : Option Nat) (s : State) : Out :=
  if !s.guard h then done len s (.ok () s)
  else
    let n := s.G d
    let r := s.G a
    let src := s.G b
    bulkIssue len n.toNat true s
      (fun s => (countCheck n r s).andThen fun _ s => checkParts (s.who s.cur) .load Align.any (rangeParts src n.toNat) s)
      (putGo h.tmp.toNat r src n.toNat flag)

/-- `rput`, format M (R322, R323). -/
def execRput (h : Hdr) (d a b : R32) (f : BitVec 14) (s : State) : Out :=
  putOp h 8 d a b (if f.toNat = 0x2000 then none else some (8 * f.toNat)) s
/-- `rput`, format L: a literal of all ones is no flag. -/
def execRputLong (h : Hdr) (d a b : R32) (lit : BitVec 32) (s : State) : Out :=
  putOp h 12 d a b (if lit = BitVec.allOnes 32 then none else some (8 * lit.toNat)) s

/-- The transfer of a get: its destination is written at the local home place, past the private caches (R323). -/
def getGo (r dst : Word) (n : Nat) (big : Bool) (s : State) : Res Unit :=
  let k := srcKey ((s.partOf s.cur).getD 0) s.me.ttag
  match s.openEntry k (remMod r) (remWin r) with
  | none => .wait s
  | some opened =>
    if remMod r = s.ownMid then
      (performRemote (s.ownReq r n .get) s).andThen fun res s =>
        (match res with | .done v => hubWrite (s.who s.cur) dst n v s | .failed _ _ => .ok () s).andThen fun _ s =>
          .ok () (s.ownEnded k r res big)
    else .ok () (opened.launch r .get n dst.toNat 0 true big)

/-- `rget` (R323). -/
def execRget (h : Hdr) (d a b : R32) (s : State) : Out :=
  if !s.guard h then done 8 s (.ok () s)
  else
    let n := s.G b
    let r := s.G a
    let dst := s.G d
    bulkIssue 8 n.toNat (remMod r == s.ownMid) s
      (fun s => (countCheck n r s).andThen fun _ s => checkParts (s.who s.cur) .store Align.any (rangeParts dst n.toNat) s)
      (getGo r dst n.toNat)

/-! ## ratom, rcas and wcnt (R324) -/

/-- A remote operation whose value the strand waits for: performed at once on its own module's window, else sent and waited
for. On its own module too its value comes once its messages are acknowledged (R130). `put` makes g[d] of the value. -/
def remoteValue (h : Hdr) (d : R32) (r : Word) (n : Nat) (kind : RemoteKind) (check : State → Res Unit) (put : Nat → Word) (s : State) :
    Out :=
  let finish (res : RemoteResult) (s : State) : Res Unit :=
    match res with
    | .done v => .ok () (s.setG d (put v))
    | .failed sub ecause => remoteTrap r sub ecause s
  if !s.guard h then done 8 s (.ok () s)
  else
    match s.me.remote with
    | some id =>
      (match (s.remotes.find? fun o => o.id == id).bind RemoteOp.result with
      | none => .next s
      | some res =>
        if remMod r = s.ownMid ∧ !s.acks.isEmpty then .next s
        else
          let s' := { s with remotes := s.remotes.filter fun o => o.id != id }.modMe fun t => { t with remote := none }
          done 8 s (finish res s'))
    | none =>
      match check s with
      | .trap e s' => .next (s.takeTrap s' e)
      | .wait u => .next u
      | .ok _ s1 =>
        let id := s1.remoteSeq
        if remMod r = s1.ownMid then
          match performRemote (s1.ownReq r n kind) s1 with
          | .wait u => .next u
          | .trap e s2 => .next (s.takeTrap s2 e)
          | .ok res s2 =>
            if s2.acks.isEmpty then done 8 s (finish res s2)
            else
              let op := { s2.newOp r kind n 0 false false with sent := true, result := some res }
              .next ({ s2 with remotes := s2.remotes ++ [op], remoteSeq := s2.remoteSeq + 1 }.modMe fun t => { t with remote := some op.id })
        else .next ((s1.launch r kind n 0 64 false false).modMe fun t => { t with remote := some id })

/-- Natural alignment of a remote address, then the module (R324). -/
def atomCheck (r : Word) (n : Nat) (s : State) : Res Unit :=
  if r.toNat % n ≠ 0 then raise 0x07 r (Nat.log2 n) s else moduleCheck r s

/-- A `ratom` (R324). -/
def ratomOp (op : AmoOp) (h : Hdr) (ty : Ty) (d a b : R32) (s : State) : Out :=
  let r := s.G a
  remoteValue h d r (ty.bits / 8) (.atom op ty (s.G b)) (atomCheck r (ty.bits / 8)) (extendTy ty) s

/-- `ratom.add` (R324). -/
def execRatomAdd (h : Hdr) (ty : Ty) (d a b : R32) (s : State) : Out := ratomOp .add h ty d a b s
/-- `ratom.and` (R324). -/
def execRatomAnd (h : Hdr) (ty : Ty) (d a b : R32) (s : State) : Out := ratomOp .and h ty d a b s
/-- `ratom.or` (R324). -/
def execRatomOr (h : Hdr) (ty : Ty) (d a b : R32) (s : State) : Out := ratomOp .or h ty d a b s
/-- `ratom.xor` (R324). -/
def execRatomXor (h : Hdr) (ty : Ty) (d a b : R32) (s : State) : Out := ratomOp .xor h ty d a b s
/-- `ratom.min` (R324). -/
def execRatomMin (h : Hdr) (ty : Ty) (d a b : R32) (s : State) : Out := ratomOp .min h ty d a b s
/-- `ratom.max` (R324). -/
def execRatomMax (h : Hdr) (ty : Ty) (d a b : R32) (s : State) : Out := ratomOp .max h ty d a b s
/-- `ratom.swap` (R324). -/
def execRatomSwap (h : Hdr) (ty : Ty) (d a b : R32) (s : State) : Out := ratomOp .swap h ty d a b s
/-- `ratom.fadd` (R324). -/
def execRatomFadd (h : Hdr) (ty : Ty) (d a b : R32) (s : State) : Out := ratomOp .fadd h ty d a b s

/-- `rcas` (R324): g[d] holds the expected value and receives the old one. -/
def execRcas (h : Hdr) (ty : Ty) (d a b : R32) (s : State) : Out :=
  let r := s.G a
  remoteValue h d r (ty.bits / 8) (.cas ty (s.G d) (s.G b)) (atomCheck r (ty.bits / 8)) (extendTy ty) s

/-- `wcnt.arr` (R324): WARR of a window of this module, or fetched from another. -/
def execWcntArr (h : Hdr) (d a : R32) (s : State) : Out :=
  let r := s.G a
  if s.guard h && remMod r == s.ownMid then done 8 s (.ok () (s.setG d (s.hubGet (winAddr (remWin r) + 40))))
  else remoteValue h d r 8 .count (moduleCheck r) (BitVec.ofNat 64) s

/-- ISS or DONE of the current task's entry for a pair. -/
def State.wcnt (s : State) (r : Word) (f : SrcEntry → Nat) : Word :=
  match s.srcEntry (srcKey ((s.partOf s.cur).getD 0) s.me.ttag) (remMod r) (remWin r) with
  | some e => BitVec.ofNat 64 (f e)
  | none => 0

/-- `wcnt.iss` (R324). -/
def execWcntIss (h : Hdr) (d a : R32) (s : State) : Out := guarded h 8 s fun s => .ok () (s.setG d (s.wcnt (s.G a) SrcEntry.iss))
/-- `wcnt.done` (R324). -/
def execWcntDone (h : Hdr) (d a : R32) (s : State) : Out := guarded h 8 s fun s => .ok () (s.setG d (s.wcnt (s.G a) SrcEntry.done))

/-! ## rfence (R323) -/

/-- `rfence`: it waits for the operations issued before it, then reports a latched failure or acquires. -/
def execRfence (h : Hdr) (a : R32) (s : State) : Out :=
  if !s.guard h then done 8 s (.ok () s)
  else
    let r := s.G a
    let k := srcKey ((s.partOf s.cur).getD 0) s.me.ttag
    match s.srcEntry k (remMod r) (remWin r) with
    | none => done 8 s (acquire .die (s.modMe fun t => { t with fence := none }))
    | some e =>
      let target := s.me.fence.getD e.iss
      if e.done < target then .next (s.modMe fun t => { t with fence := some target })
      else
        let s' := s.modMe fun t => { t with fence := none }
        match e.latch with
        | some (addr, info) =>
          let l := (s.srcTab k).map fun x => if x.mod = remMod r ∧ x.win = remWin r then { x with latch := none } else x
          .next (s.takeTrap (s'.setSrc k l) { cause := 0x0E, addr := addr, info := info })
        | none => done 8 s (acquire .die s')

/-! ## The steps of remote operations -/

/-- The reply to another module's operation, once the messages of what it has written are acknowledged (R130). -/
def State.replyTo (s : State) (source n : Nat) (res : RemoteResult) : State :=
  if s.acks.isEmpty then { s with replies := s.replies ++ [(source, s.packetSeq, res)] }.sendPackets source n none
  else s.defer .remoteOperationArrival (.remoteReply source n res)

/-- `REMOTE_OPERATION_ARRIVAL` (R315): an operation of another module is performed, and its reply is sent. -/
def execRemoteOperationArrival (s : State) : Out :=
  .next (match s.input with
    | .remote r =>
      match performRemote r s with
      | .wait u => u.defer .remoteOperationArrival (.remote { r with accepted := true })
      | .trap _ s => s
      | .ok res s => s.replyTo r.source (match res, r.kind with | .done _, .get => r.length | _, _ => 64) res
    | .remoteReply source n res => s.replyTo source n res
    | _ => s)

/-- Who writes what a get has brought. -/
def RemoteOp.who (o : RemoteOp) : Who :=
  { key := o.key, part := some o.part, sup := o.sup, ptbase := o.ptbase, asn := o.asn, keys := o.keys, req := sidOf o.key, mark := 0,
    abortMark := 0 }

/-- A move of a repartition has ended (R333, R335): the operation fails with it, with its subcause at every participant, or looks
whether it can commit. -/
def State.moveEnded (s : State) (id : Nat) (res : RemoteResult) : State :=
  match s.colls.find? fun c => c.id == id && c.outcome.isNone, res with
  | some c, .failed sub _ => s.endColl c (.error 0x22 ((groupMembers c.descriptor).map fun _ => sub))
  | some c, .done _ => s.later .rpartCommit (.num c.id)
  | none, _ => s

/-- An operation ends at its source (R316, R321): a counted one leaves the hub and closes in its table, where a task that has ended
latches nothing; a blocking one keeps its value for the strand. -/
def State.endRemote (s : State) (o : RemoteOp) (res : RemoteResult) : State :=
  let gone := { s with remotes := s.remotes.filter fun x => x.id != o.id }
  let gone := if o.leave then gone.returnLeave (clusterOf o.key) 4 else gone
  match o.coll with
  | some id => gone.moveEnded id res
  | none =>
  if o.counted then
    let closed := gone.closeEntry (srcKey o.part o.ttag) (remMod o.addr) (remWin o.addr) (if o.silent then none else latchOf o.addr res)
    if o.silent then closed.dropSources o.part o.ttag else closed
  else if (s.strand o.key).remote = some o.id then
    { s with remotes := s.remotes.map fun x => if x.id = o.id then { x with result := some res } else x }
  else gone

/-- `REMOTE_OPERATION_END`: the reply of the other module; the bytes of a get are written first, as the drain admits it (R394). -/
def execRemoteOperationEnd (s : State) : Out :=
  .next (match s.input with
    | .remoteEnd id res =>
      match s.remotes.find? fun o => o.id == id && o.sent && o.result.isNone with
      | none => s
      | some o =>
        match o.kind, res with
        | .get, .done v =>
          if !s.drainAdmits 40 then s.refuseStep (.event .remoteOperationEnd s.input)
          else
            match hubWrite o.who (BitVec.ofNat 64 o.lva) o.n v s with
            | .ok _ s => s.endRemote o res
            | .trap e s => s.endRemote o (failedBy e)
            | .wait u => u.defer .remoteOperationEnd (.remoteEnd id res)
        | _, _ => if s.bellIn then s.defer .remoteOperationEnd s.input else s.endRemote o res
    | _ => s)

/-- FTMO in ns (R312); a US of 0, which the manual gives no meaning, counts as 1 (log 134). -/
def State.remoteLimit (s : State) : Nat := 1000 * max 1 (s.hubFld (hubFC + 136) 0 32)

/-- `REMOTE_OPERATION_TIMEOUT` (R307). -/
def execRemoteOperationTimeout (s : State) : Out :=
  .next (match s.input with
    | .num id =>
      match s.remotes.find? fun o => o.id == id && o.result.isNone with
      | some o =>
        if o.start + s.remoteLimit ≤ s.fabricTime then
          { s with outbox := s.outbox.filter fun p => p.last != some id }.endRemote o (.failed 9 0)
        else s
      | none => s
    | _ => s)

end Sys2Proof.Machine
end

