-- ==== Sys2Proof/Machine/Special.lean ====
section
/-!
DEFINITION. The special functions of R254: the exact value rounded once in .rne. A value that is no dyadic number is enclosed
between two fixed-point bounds; when both round alike, that is the correctly rounded result. No such value lies on a rounding
boundary, so a finer enclosure always decides (log 18).
-/
namespace Sys2Proof.Machine

/-! ## Series in units of 2^-P -/

/-- The sum of `t`, `t·y/(k+1)`, `t·y²/((k+1)(k+2))`, ...: e^y for k = 0 and t = 1. -/
def expSum (P y : Nat) : Nat → Nat → Nat → Nat
  | 0, _, _ => 0
  | n + 1, k, t => t + expSum P y n (k + 1) (t * y / 2 ^ P / (k + 1))
/-- e^y for y below 1. -/
def expFix (P y : Nat) : Nat := expSum P y (P / 4 + 16) 0 (2 ^ P)

/-- The sum of t/(2k+1), t·z²/(2k+3), ...: the inverse hyperbolic tangent. -/
def atanhSum (P z2 : Nat) : Nat → Nat → Nat → Nat
  | 0, _, _ => 0
  | n + 1, k, t => t / (2 * k + 1) + atanhSum P z2 n (k + 1) (t * z2 / 2 ^ P)
/-- The natural logarithm of a value from 1 to 2. -/
def lnFix (P m : Nat) : Nat :=
  let z := (m - 2 ^ P) * 2 ^ P / (m + 2 ^ P)
  2 * atanhSum P (z * z / 2 ^ P) (P / 3 + 8) 0 z
def ln2Fix (P : Nat) : Nat := lnFix P (2 ^ (P + 1))

/-- The alternating sum for the arc tangent of 1/n. -/
def atanSum (n2 : Nat) : Nat → Nat → Nat → Int
  | 0, _, _ => 0
  | f + 1, k, t => ((t / (2 * k + 1) : Nat) : Int) - atanSum n2 f (k + 1) (t / n2)
def atanInv (P n : Nat) : Int := atanSum (n * n) (P / 4 + 8) 0 (2 ^ P / n)
/-- π by Machin's formula. -/
def piFix (P : Nat) : Nat := (16 * atanInv P 5 - 4 * atanInv P 239).toNat

/-- The alternating sum for the sine. -/
def sinSum (P y2 : Nat) : Nat → Nat → Nat → Int
  | 0, _, _ => 0
  | f + 1, k, t => (t : Int) - sinSum P y2 f (k + 1) (t * y2 / 2 ^ P / ((2 * k + 2) * (2 * k + 3)))
/-- sin(π·r) for r from 0 to 1/2. -/
def sinPiFix (P r : Nat) : Nat :=
  let y := piFix P * r / 2 ^ P
  (sinSum P (y * y / 2 ^ P) (P / 6 + 16) 0 y).toNat

/-! ## Enclosures -/

/-- How far a fixed-point result may lie from the exact value, in units of 2^-P: far more than the roundings of the
series add up to. -/
def slack : Nat := 2 ^ 20

/-- The rounding of (-1)^neg · r · 2^(e - P), where both bounds round alike. -/
def roundBoth (F : FF) (neg : Bool) (P r : Nat) (e : Int) : Option Nat :=
  let lo := roundTo F .rne (.fin neg (r - slack) (e - P))
  let hi := roundTo F .rne (.fin neg (r + slack) (e - P))
  if lo = hi then some lo else none

/-- The first of two precisions that decides. -/
def decided (F : FF) (neg : Bool) (f : Nat → Nat × Int) : Nat :=
  match roundBoth F neg 448 (f 448).1 (f 448).2 with
  | some x => x
  | none => roundTo F .rne (.fin neg (f 1280).1 ((f 1280).2 - 1280))

/-- m · 2^e in units of 2^-P, exact for every input of a format. -/
def fixOf (P m : Nat) (e : Int) : Nat := m * 2 ^ (e + P).toNat

/-! ## The functions -/

/-- 2^x. -/
def fexp2 (F : FF) (v : FVal) : Nat :=
  match v with
  | .nan => F.canon
  | .inf n => if n then 0 else F.inf
  | .fin n m e =>
    if m = 0 then roundTo F .rne (.fin false 1 0)
    else if fixOf 448 m e ≥ 2 ^ (448 + 12) then roundTo F .rne (.fin false 1 (if n then -4096 else 4096))
    else
      let parts (P : Nat) : Int × Nat :=
        let x : Int := if n then -(fixOf P m e : Int) else fixOf P m e
        (x / (2 : Int) ^ P, (x % (2 : Int) ^ P).toNat)
      if (parts 448).2 = 0 then roundTo F .rne (.fin false 1 (parts 448).1)
      else decided F false fun P => (expFix P ((parts P).2 * ln2Fix P / 2 ^ P), (parts P).1)

/-- log2 x. -/
def flog2 (F : FF) (v : FVal) : Nat :=
  match v with
  | .nan => F.canon
  | .inf n => if n then F.canon else F.inf
  | .fin n m e =>
    if m = 0 then signBit F true + F.inf
    else if n then F.canon
    else
      let k := Nat.log2 m
      let ex : Int := e + k
      if m = 2 ^ k then ofInt F .rne ex
      else
        let val (P : Nat) : Int := ex * (2 : Int) ^ P + ((lnFix P (m * 2 ^ (P - k)) * 2 ^ P / ln2Fix P : Nat) : Int)
        decided F (decide (val 448 < 0)) fun P => ((val P).natAbs, 0)

/-- 1/x. -/
def frcp (F : FF) (v : FVal) : Nat := roundTo F .rne (exactDiv (.fin false 1 0) v)

/-- 1/√x: exact to 100 bits with a sticky bit. -/
def frsqrt (F : FF) (v : FVal) : Nat :=
  match v with
  | .nan => F.canon
  | .inf n => if n then F.canon else 0
  | .fin n m e =>
    if m = 0 then signBit F n + F.inf
    else if n then F.canon
    else
      let (m, e) : Nat × Int := if e % 2 = 0 then (m, e) else (2 * m, e - 1)
      let r := isqrt (2 ^ 240 / m)
      roundTo F .rne (.fin false (2 * r + (if r * r * m = 2 ^ 240 then 0 else 1)) (-121 - e / 2))

/-- sin(πx). -/
def fsinpi (F : FF) (v : FVal) : Nat :=
  match v with
  | .nan => F.canon
  | .inf _ => F.canon
  | .fin n m e =>
    let half (P : Nat) : Bool × Nat :=
      let u := fixOf P m e % 2 ^ (P + 1)
      let (flip, u) := if 2 ^ P ≤ u then (true, u - 2 ^ P) else (false, u)
      (n != flip, min u (2 ^ P - u))
    let (neg, r) := half 448
    if r = 0 then signBit F n
    else if r = 2 ^ 447 then roundTo F .rne (.fin neg 1 0)
    else decided F neg fun P => (sinPiFix P (half P).2, 0)

/-- cos(πx). -/
def fcospi (F : FF) (v : FVal) : Nat :=
  match v with
  | .nan => F.canon
  | .inf _ => F.canon
  | .fin _ m e =>
    let fold (P : Nat) : Bool × Nat :=
      let u := fixOf P m e % 2 ^ (P + 1)
      let u := if 2 ^ P < u then 2 ^ (P + 1) - u else u
      if 2 ^ (P - 1) < u then (true, u - 2 ^ (P - 1)) else (false, 2 ^ (P - 1) - u)
    let (neg, r) := fold 448
    if r = 0 then 0
    else if r = 2 ^ 447 then roundTo F .rne (.fin neg 1 0)
    else decided F neg fun P => (sinPiFix P (fold P).2, 0)

/-- tanh x: (1 - t) / (1 + t) with t = e^(-2|x|). -/
def ftanh (F : FF) (v : FVal) : Nat :=
  match v with
  | .nan => F.canon
  | .inf n => roundTo F .rne (.fin n 1 0)
  | .fin n m e =>
    if m = 0 then signBit F n
    else if fixOf 448 m e ≥ 2 ^ (448 + 6) then roundTo F .rne (.fin n (2 ^ 90 - 1) (-90))
    else decided F n fun P =>
      let y := 2 * fixOf P m e
      let l := ln2Fix P
      let k := y / l
      let t := 2 ^ (2 * P) / expFix P (y % l) / 2 ^ k
      ((2 ^ P - t) * 2 ^ P / (2 ^ P + t), 0)

end Sys2Proof.Machine
end

