-- ==== Sys2Proof/Machine/VectorMemory.lean ====
section
/-!
DEFINITION. Vector loads and stores (R168 to R170).
-/
namespace Sys2Proof.Machine

/-- The active lanes of a mask for lanes of `sz` bytes, ascending (R169). -/
def activeLanes (m : Word) (sz : Nat) : List Nat := (List.range (64 / sz)).filter fun i => m.getLsbD i

/-- The checks of every active lane, before any of them is performed (R169). -/
def checkLanes (k : Kind) (sz : Nat) (addr : Nat → Word) (l : List Nat) (s : State) : Res Unit :=
  forEach (fun i s =>
    checkParts ((s.who s.cur).lane i) k { va := (addr i).toNat, n := sz, nat := false } (rangeParts (addr i) sz) s) l s

/-- The value of one lane. -/
def readLane (sz tmp : Nat) (addr : Nat → Word) (i : Nat) (s : State) : Res Nat :=
  memReadAt ((s.who s.cur).lane i) .core (addr i) sz false tmp s

/-- A vector load: the lanes of V[d] under the mask (R31, R169). `one` reads a single location for every lane. -/
def vloadOp (h : Hdr) (k : Mask) (ty : Ty) (d : R32) (one : Bool) (addr : Nat → Word) (s : State) : Res Unit :=
  let sz := ty.bits / 8
  let act := activeLanes (s.MK k.m) sz
  let put (f : Nat → Nat) (s : State) : Res Unit := .ok () (s.setLanes k ty d f)
  if one then
    match act with
    | [] => put (fun _ => 0) s
    | i :: _ => (readLane sz h.tmp.toNat addr i s).andThen fun x s => put (fun _ => x) s
  else
    (checkLanes .load sz addr act s).andThen fun _ s =>
      (mapEach (readLane sz h.tmp.toNat addr) act s).andThen fun xs s =>
        put (fun i => ((act.zip xs).find? fun p => p.1 == i).elim 0 Prod.snd) s

/-- The place of a lane's store made ready: every cause that the store can meet is met here (R111, R169). -/
def readyLane (sz tmp : Nat) (addr : Nat → Word) (i : Nat) (s : State) : Res Unit :=
  let w := (s.who s.cur).lane i
  (markParts w .store { va := (addr i).toNat, n := sz, nat := false } true (rangeParts (addr i) sz) s).andThen fun ps s =>
    (settle w.key ps s).andThen fun _ s => readyPieces w (coreOf w.key) .core tmp (s.tagOf w.key) ps s

/-- A vector store: every active lane checked and made ready, then stored in ascending order (R169). -/
def vstoreOp (h : Hdr) (m : R8) (ty : Ty) (d : R32) (addr : Nat → Word) (s : State) : Res Unit :=
  let sz := ty.bits / 8
  let act := activeLanes (s.MK m) sz
  let v := s.V d
  (checkLanes .store sz addr act s).andThen fun _ s =>
    (forEach (readyLane sz h.tmp.toNat addr) act s).andThen fun _ s =>
      forEach (fun i s => memWriteAt ((s.who s.cur).lane i) .core (addr i) sz (lane v ty.bits i) false h.tmp.toNat s) act s

/-- Lane addresses of the contiguous, strided and gathered forms (R168). -/
def contigAddr (base : Word) (d : Int) (sz : Nat) (i : Nat) : Word := base + toWord d + BitVec.ofNat 64 (i * sz)
def strideAddr (base : Word) (d : Int) (stride : Word) (i : Nat) : Word := base + toWord d + BitVec.ofNat 64 i * stride
def gatherAddr (base : Word) (v : Vec) (w sh : Nat) (i : Nat) : Word := base + toWord (sextN w (lane v w i) * 2 ^ sh)

/-- `vld` (R168). -/
def execVld (h : Hdr) (k : Mask) (ty : Ty) (d a : R32) (i : BitVec 14) (s : State) : Out :=
  guarded h 8 s fun s => vloadOp h k ty d false (contigAddr (s.base a) (off14 i 64) (ty.bits / 8)) s
/-- `vlds` (R168). -/
def execVlds (h : Hdr) (k : Mask) (ty : Ty) (d a b : R32) (i : BitVec 14) (s : State) : Out :=
  guarded h 8 s fun s => vloadOp h k ty d false (strideAddr (s.base a) (off14 i (ty.bits / 8)) (s.G b)) s
/-- `vlds` with a literal stride (R168). -/
def execVldsLiteral (h : Hdr) (k : Mask) (ty : Ty) (d a : R32) (lit : BitVec 32) (s : State) : Out :=
  guarded h 12 s fun s => vloadOp h k ty d false (strideAddr (s.base a) 0 (lit64 lit)) s
/-- `vgat` (R168). -/
def execVgat (h : Hdr) (k : Mask) (ty : Ty) (d a b : R32) (sc : R4) (s : State) : Out :=
  guarded h 8 s fun s => vloadOp h k ty d false (gatherAddr (s.base a) (s.V b) ty.bits sc.val) s
/-- `vldb` (R168): one read for every lane. -/
def execVldb (h : Hdr) (k : Mask) (ty : Ty) (d a : R32) (i : BitVec 14) (s : State) : Out :=
  guarded h 8 s fun s => vloadOp h k ty d true (fun _ => s.base a + toWord (off14 i (ty.bits / 8))) s
/-- `vst` (R168). -/
def execVst (h : Hdr) (m : R8) (ty : Ty) (d a : R32) (i : BitVec 14) (s : State) : Out :=
  guarded h 8 s fun s => vstoreOp h m ty d (contigAddr (s.base a) (off14 i 64) (ty.bits / 8)) s
/-- `vsts` (R168). -/
def execVsts (h : Hdr) (m : R8) (ty : Ty) (d a b : R32) (i : BitVec 14) (s : State) : Out :=
  guarded h 8 s fun s => vstoreOp h m ty d (strideAddr (s.base a) (off14 i (ty.bits / 8)) (s.G b)) s
/-- `vsts` with a literal stride (R168). -/
def execVstsLiteral (h : Hdr) (m : R8) (ty : Ty) (d a : R32) (lit : BitVec 32) (s : State) : Out :=
  guarded h 12 s fun s => vstoreOp h m ty d (strideAddr (s.base a) 0 (lit64 lit)) s
/-- `vsct` (R168). -/
def execVsct (h : Hdr) (m : R8) (ty : Ty) (d a b : R32) (sc : R4) (s : State) : Out :=
  guarded h 8 s fun s => vstoreOp h m ty d (gatherAddr (s.base a) (s.V b) ty.bits sc.val) s

end Sys2Proof.Machine
end

