-- ==== Sys2Proof/Machine/Vector.lean ====
section
/-!
DEFINITION. The vector arithmetic (R239 to R256) and the mask operations: one lane function for each operation, applied
under a mask.
-/
namespace Sys2Proof.Machine

/-! ## Integer lanes (R242) -/

/-- The count of a vector shift: the low log2 w bits of the count lane. -/
def laneCount (w y : Nat) : Nat := y % w

def laneAdd (ty : Ty) (x y : Nat) : Nat := (x + y) % 2 ^ ty.bits
def laneSub (ty : Ty) (x y : Nat) : Nat := wrapN ty.bits ((x : Int) - y)
def laneMul (ty : Ty) (x y : Nat) : Nat := x * y % 2 ^ ty.bits
def laneAddSat (ty : Ty) (x y : Nat) : Nat := wrapN ty.bits (satInt ty.isSigned ty.bits (tyInt ty x + tyInt ty y))
def laneSubSat (ty : Ty) (x y : Nat) : Nat := wrapN ty.bits (satInt ty.isSigned ty.bits (tyInt ty x - tyInt ty y))
def laneMin (ty : Ty) (x y : Nat) : Nat := if tyInt ty y < tyInt ty x then y else x
def laneMax (ty : Ty) (x y : Nat) : Nat := if tyInt ty x < tyInt ty y then y else x
def laneAbs (ty : Ty) (x : Nat) : Nat := wrapN ty.bits ((sextN ty.bits x).natAbs : Int)
def laneNeg (ty : Ty) (x : Nat) : Nat := wrapN ty.bits (-(x : Int))
def laneAnd (_ : Ty) (x y : Nat) : Nat := x &&& y
def laneOr (_ : Ty) (x y : Nat) : Nat := x ||| y
def laneXor (_ : Ty) (x y : Nat) : Nat := x ^^^ y
def laneAndn (ty : Ty) (x y : Nat) : Nat := x &&& (2 ^ ty.bits - 1 - y)
def laneShl (ty : Ty) (x y : Nat) : Nat := x * 2 ^ laneCount ty.bits y % 2 ^ ty.bits
def laneShr (ty : Ty) (x y : Nat) : Nat := x / 2 ^ laneCount ty.bits y
def laneSar (ty : Ty) (x y : Nat) : Nat := wrapN ty.bits (sextN ty.bits x / (2 : Int) ^ laneCount ty.bits y)

/-- V[d] := f of the lanes of V[a] and V[b], under the mask. -/
def vbin (f : Ty → Nat → Nat → Nat) (h : Hdr) (k : Mask) (ty : Ty) (d a b : R32) (s : State) : Out :=
  let x := s.V a
  let y := s.V b
  guarded h 8 s fun s => .ok () (s.setLanes k ty d fun i => f ty (lane x ty.bits i) (lane y ty.bits i))
/-- V[d] := f of the lanes of V[a], under the mask. -/
def vun (f : Ty → Nat → Nat) (h : Hdr) (k : Mask) (ty : Ty) (d a : R32) (s : State) : Out :=
  let x := s.V a
  guarded h 8 s fun s => .ok () (s.setLanes k ty d fun i => f ty (lane x ty.bits i))

/-- `vadd` (R242). -/
def execVadd (h : Hdr) (k : Mask) (ty : Ty) (d a b : R32) (s : State) : Out := vbin laneAdd h k ty d a b s
/-- `vsub` (R242). -/
def execVsub (h : Hdr) (k : Mask) (ty : Ty) (d a b : R32) (s : State) : Out := vbin laneSub h k ty d a b s
/-- `vmul` (R242). -/
def execVmul (h : Hdr) (k : Mask) (ty : Ty) (d a b : R32) (s : State) : Out := vbin laneMul h k ty d a b s
/-- `vaddSat` (R242). -/
def execVaddSat (h : Hdr) (k : Mask) (ty : Ty) (d a b : R32) (s : State) : Out := vbin laneAddSat h k ty d a b s
/-- `vsubSat` (R242). -/
def execVsubSat (h : Hdr) (k : Mask) (ty : Ty) (d a b : R32) (s : State) : Out := vbin laneSubSat h k ty d a b s
/-- `vmin` (R242). -/
def execVmin (h : Hdr) (k : Mask) (ty : Ty) (d a b : R32) (s : State) : Out := vbin laneMin h k ty d a b s
/-- `vmax` (R242). -/
def execVmax (h : Hdr) (k : Mask) (ty : Ty) (d a b : R32) (s : State) : Out := vbin laneMax h k ty d a b s
/-- `vand` (R242). -/
def execVand (h : Hdr) (k : Mask) (ty : Ty) (d a b : R32) (s : State) : Out := vbin laneAnd h k ty d a b s
/-- `vor` (R242). -/
def execVor (h : Hdr) (k : Mask) (ty : Ty) (d a b : R32) (s : State) : Out := vbin laneOr h k ty d a b s
/-- `vxor` (R242). -/
def execVxor (h : Hdr) (k : Mask) (ty : Ty) (d a b : R32) (s : State) : Out := vbin laneXor h k ty d a b s
/-- `vandn` (R242). -/
def execVandn (h : Hdr) (k : Mask) (ty : Ty) (d a b : R32) (s : State) : Out := vbin laneAndn h k ty d a b s
/-- `vshl` (R242). -/
def execVshl (h : Hdr) (k : Mask) (ty : Ty) (d a b : R32) (s : State) : Out := vbin laneShl h k ty d a b s
/-- `vshr` (R242). -/
def execVshr (h : Hdr) (k : Mask) (ty : Ty) (d a b : R32) (s : State) : Out := vbin laneShr h k ty d a b s
/-- `vsar` (R242). -/
def execVsar (h : Hdr) (k : Mask) (ty : Ty) (d a b : R32) (s : State) : Out := vbin laneSar h k ty d a b s
/-- `vabs` (R242). -/
def execVabs (h : Hdr) (k : Mask) (ty : Ty) (d a : R32) (s : State) : Out := vun laneAbs h k ty d a s
/-- `vneg` (R242). -/
def execVneg (h : Hdr) (k : Mask) (ty : Ty) (d a : R32) (s : State) : Out := vun laneNeg h k ty d a s
/-- `vmov` (R242). -/
def execVmov (h : Hdr) (k : Mask) (ty : Ty) (d a : R32) (s : State) : Out := vun (fun _ x => x) h k ty d a s
/-- `vshl` by a constant (R242). -/
def execVshlImmediate (h : Hdr) (k : Mask) (ty : Ty) (d a : R32) (n : BitVec 6) (s : State) : Out :=
  vun (fun ty x => laneShl ty x n.toNat) h k ty d a s
/-- `vshr` by a constant (R242). -/
def execVshrImmediate (h : Hdr) (k : Mask) (ty : Ty) (d a : R32) (n : BitVec 6) (s : State) : Out :=
  vun (fun ty x => laneShr ty x n.toNat) h k ty d a s
/-- `vsar` by a constant (R242). -/
def execVsarImmediate (h : Hdr) (k : Mask) (ty : Ty) (d a : R32) (n : BitVec 6) (s : State) : Out :=
  vun (fun ty x => laneSar ty x n.toNat) h k ty d a s

/-! ## Floating lanes (R244) -/

/-- The sign bit of a lane cleared, or inverted. -/
def laneFabs (ty : Ty) (x : Nat) : Nat := x % 2 ^ (ty.bits - 1)
def laneFneg (ty : Ty) (x : Nat) : Nat := x ^^^ 2 ^ (ty.bits - 1)
/-- X · Y + D and D - X · Y, with one rounding. -/
def laneFma (rm : Rm) (ty : Ty) (x y d : Nat) : Nat := ffma (ffOf ty) rm x y d
def laneFms (rm : Rm) (ty : Ty) (x y d : Nat) : Nat :=
  let F := ffOf ty
  roundTo F rm (exactSum rm [widen F d, (exactMul (widen F x) (widen F y)).negate])

/-- As `vbin`, with the old lane of V[d] as a third operand. -/
def vter (f : Ty → Nat → Nat → Nat → Nat) (h : Hdr) (k : Mask) (ty : Ty) (d a b : R32) (s : State) : Out :=
  let x := s.V a
  let y := s.V b
  let z := s.V d
  guarded h 8 s fun s => .ok () (s.setLanes k ty d fun i => f ty (lane x ty.bits i) (lane y ty.bits i) (lane z ty.bits i))

/-- `vadd` on floating lanes (R244). -/
def execVaddFloat (h : Hdr) (k : Mask) (ty : Ty) (rm : Rm) (d a b : R32) (s : State) : Out := vbin (fun ty x y => fadd (ffOf ty) rm x y) h k ty d a b s
/-- `vsub` on floating lanes (R244). -/
def execVsubFloat (h : Hdr) (k : Mask) (ty : Ty) (rm : Rm) (d a b : R32) (s : State) : Out := vbin (fun ty x y => fsub (ffOf ty) rm x y) h k ty d a b s
/-- `vmul` on floating lanes (R244). -/
def execVmulFloat (h : Hdr) (k : Mask) (ty : Ty) (rm : Rm) (d a b : R32) (s : State) : Out := vbin (fun ty x y => fmul (ffOf ty) rm x y) h k ty d a b s
/-- `vdiv` on floating lanes (R244). -/
def execVdiv (h : Hdr) (k : Mask) (ty : Ty) (rm : Rm) (d a b : R32) (s : State) : Out := vbin (fun ty x y => fdiv (ffOf ty) rm x y) h k ty d a b s
/-- `vfma` (R244). -/
def execVfma (h : Hdr) (k : Mask) (ty : Ty) (rm : Rm) (d a b : R32) (s : State) : Out := vter (laneFma rm) h k ty d a b s
/-- `vfms` (R244). -/
def execVfms (h : Hdr) (k : Mask) (ty : Ty) (rm : Rm) (d a b : R32) (s : State) : Out := vter (laneFms rm) h k ty d a b s
/-- `vmin` on floating lanes (R77). -/
def execVminFloat (h : Hdr) (k : Mask) (ty : Ty) (d a b : R32) (s : State) : Out := vbin (fun ty x y => fmin (ffOf ty) x y) h k ty d a b s
/-- `vmax` on floating lanes (R77). -/
def execVmaxFloat (h : Hdr) (k : Mask) (ty : Ty) (d a b : R32) (s : State) : Out := vbin (fun ty x y => fmax (ffOf ty) x y) h k ty d a b s
/-- `vabs` on floating lanes (R244). -/
def execVabsFloat (h : Hdr) (k : Mask) (ty : Ty) (d a : R32) (s : State) : Out := vun laneFabs h k ty d a s
/-- `vneg` on floating lanes (R244). -/
def execVnegFloat (h : Hdr) (k : Mask) (ty : Ty) (d a : R32) (s : State) : Out := vun laneFneg h k ty d a s
/-- `vsqrt` (R244). -/
def execVsqrt (h : Hdr) (k : Mask) (ty : Ty) (rm : Rm) (d a : R32) (s : State) : Out := vun (fun ty x => fsqrt (ffOf ty) rm x) h k ty d a s

/-! ## The broadcast literal (R243) -/

/-- The value of the literal in every lane: sign-extended and cut for integer lanes, the low bits as a pattern for floating
lanes. -/
def literalLane (ty : Ty) (lit : BitVec 32) : Nat :=
  if ty.isFloat then lit.toNat % 2 ^ ty.bits else (lit64 lit).toNat % 2 ^ ty.bits

/-- The lane function of a broadcast operation, on x, y and the old lane. -/
def bcastLane (op : BcastOp) (ty : Ty) (x y d : Nat) : Nat :=
  let F := ffOf ty
  match op with
  | .add => laneAdd ty x y
  | .sub => laneSub ty x y
  | .mul => laneMul ty x y
  | .addSat => laneAddSat ty x y
  | .subSat => laneSubSat ty x y
  | .min => laneMin ty x y
  | .max => laneMax ty x y
  | .and => laneAnd ty x y
  | .or => laneOr ty x y
  | .xor => laneXor ty x y
  | .andn => laneAndn ty x y
  | .shl => laneShl ty x y
  | .shr => laneShr ty x y
  | .sar => laneSar ty x y
  | .fadd rm => fadd F rm x y
  | .fsub rm => fsub F rm x y
  | .fmul rm => fmul F rm x y
  | .ffma rm => laneFma rm ty x y d
  | .ffms rm => laneFms rm ty x y d
  | .fmin => fmin F x y
  | .fmax => fmax F x y
  | .fdiv rm => fdiv F rm x y

/-- A vector operation with a broadcast literal (R243). -/
def execVectorBroadcastLiteral (h : Hdr) (k : Mask) (op : BcastOp) (ty : Ty) (d a : R32) (lit : BitVec 32) (s : State) : Out :=
  let x := s.V a
  let z := s.V d
  let y := literalLane ty lit
  guarded h 12 s fun s => .ok () (s.setLanes k ty d fun i => bcastLane op ty (lane x ty.bits i) y (lane z ty.bits i))

/-! ## Compares, selection, masks (R245 to R247) -/

/-- A mask from its bits. -/
def ofMaskBits (n : Nat) (f : Nat → Bool) : Word := BitVec.ofNat 64 (packN 1 ((List.range n).map fun i => b2n (f i)))

/-- `vcmp` (R245): inactive bits keep their old value, bits beyond the lanes become zero. -/
def execVcmp (h : Hdr) (m : R8) (c : Cond) (ty : Ty) (d : R8) (a b : R32) (s : State) : Out :=
  guarded h 8 s fun s =>
    let x := s.V a
    let y := s.V b
    let g := s.MK m
    let old := s.MK d
    .ok () (s.setMK d (ofMaskBits (lanes ty) fun i =>
      if g.getLsbD i then condLane c ty (lane x ty.bits i) (lane y ty.bits i) else old.getLsbD i))

/-- `vsel` (R246): the mask selects, and every lane is written. -/
def execVsel (h : Hdr) (m : R8) (ty : Ty) (d a b : R32) (s : State) : Out :=
  guarded h 8 s fun s =>
    let x := s.V a
    let y := s.V b
    let g := s.MK m
    .ok () (s.setV d (ofLanes ty.bits ((List.range (lanes ty)).map fun i =>
      if g.getLsbD i then lane x ty.bits i else lane y ty.bits i)))

/-- `mand` (R247). -/
def execMand (h : Hdr) (d a b : R8) (s : State) : Out := guarded h 8 s fun s => .ok () (s.setMK d (s.MK a &&& s.MK b))
/-- `mor` (R247). -/
def execMor (h : Hdr) (d a b : R8) (s : State) : Out := guarded h 8 s fun s => .ok () (s.setMK d (s.MK a ||| s.MK b))
/-- `mxor` (R247). -/
def execMxor (h : Hdr) (d a b : R8) (s : State) : Out := guarded h 8 s fun s => .ok () (s.setMK d (s.MK a ^^^ s.MK b))
/-- `mnot` (R247). -/
def execMnot (h : Hdr) (d a : R8) (s : State) : Out := guarded h 8 s fun s => .ok () (s.setMK d (~~~ (s.MK a)))
/-- `mcnt` (R247). -/
def execMcnt (h : Hdr) (d : R32) (a : R8) (s : State) : Out := guarded h 8 s fun s => .ok () (s.setG d (aluPopc (s.MK a)))
/-- `mfirst` (R247). -/
def execMfirst (h : Hdr) (d : R32) (a : R8) (s : State) : Out := guarded h 8 s fun s => .ok () (s.setG d (aluCtz (s.MK a)))

/-! ## Conversion (R248, R249) -/

/-- `vcvt` (R248): elements below N under the mask, destination lanes from N on zero. -/
def execVcvt (h : Hdr) (k : Mask) (dt sty : Ty) (rm : Rm) (sat : Bool) (d a : R32) (s : State) : Out :=
  guarded h 8 s fun s =>
    let x := s.V a
    let old := s.V d
    let g := s.MK k.m
    let n := 512 / max sty.bits dt.bits
    .ok () (s.setV d (ofLanes dt.bits ((List.range n).map fun i =>
      if g.getLsbD i then convertElem sty dt rm sat (lane x sty.bits i) else if k.z then 0 else lane old dt.bits i)))

/-- The register `n` places after another, as the multi-register forms number them. -/
def after (r : R32) (n : Nat) : R32 := Fin.ofNat 32 (r.val + n)

/-- `vsplit3` (R249). -/
def execVsplit3 (h : Hdr) (k : Mask) (d a : R32) (s : State) : Out :=
  guarded h 8 s fun s =>
    let x := s.V a
    let g := s.MK k.m
    let out (old : Vec) (f : Nat × Nat × Nat → Nat) : Vec :=
      ofLanes 16 ((List.range 16).map fun i =>
        if g.getLsbD i then f (split3 (lane x 32 i)) else if k.z then 0 else lane old 16 i)
    let s0 := s
    let s := s.setV d (out (s0.V d) fun p => p.1)
    let s := s.setV (after d 1) (out (s0.V (after d 1)) fun p => p.2.1)
    .ok () (s.setV (after d 2) (out (s0.V (after d 2)) fun p => p.2.2))

/-! ## Permutes and lane access (R250, R251) -/

/-- `vperm` (R250). -/
def execVperm (h : Hdr) (k : Mask) (ty : Ty) (d a b : R32) (s : State) : Out :=
  let x := s.V a
  let y := s.V b
  guarded h 8 s fun s => .ok () (s.setLanes k ty d fun i => lane x ty.bits (lane y ty.bits i % lanes ty))
/-- `vzip` (R250). -/
def execVzip (h : Hdr) (k : Mask) (ty : Ty) (d a b : R32) (hi : Bool) (s : State) : Out :=
  let x := s.V a
  let y := s.V b
  guarded h 8 s fun s => .ok () (s.setLanes k ty d fun i =>
    lane (if i % 2 = 0 then x else y) ty.bits (b2n hi * (lanes ty / 2) + i / 2))
/-- `vuzp` (R250). -/
def execVuzp (h : Hdr) (k : Mask) (ty : Ty) (d a b : R32) (odd : Bool) (s : State) : Out :=
  let x := s.V a
  let y := s.V b
  guarded h 8 s fun s => .ok () (s.setLanes k ty d fun i =>
    if i < lanes ty / 2 then lane x ty.bits (2 * i + b2n odd) else lane y ty.bits (2 * (i - lanes ty / 2) + b2n odd))
/-- `vbcast` (R250). -/
def execVbcast (h : Hdr) (k : Mask) (ty : Ty) (d a : R32) (s : State) : Out :=
  let x := (s.G a).toNat % 2 ^ ty.bits
  guarded h 8 s fun s => .ok () (s.setLanes k ty d fun _ => x)
/-- `vext` (R250). -/
def execVext (h : Hdr) (ty : Ty) (d a b : R32) (s : State) : Out :=
  guarded h 8 s fun s => .ok () (s.setG d (BitVec.ofNat 64 (lane (s.V a) ty.bits ((s.G b).toNat % lanes ty))))
/-- `vins` (R250). -/
def execVins (h : Hdr) (ty : Ty) (d a b : R32) (s : State) : Out :=
  guarded h 8 s fun s =>
    let old := s.V d
    let j := (s.G b).toNat % lanes ty
    .ok () (s.setV d (ofLanes ty.bits ((List.range (lanes ty)).map fun i =>
      if i = j then (s.G a).toNat % 2 ^ ty.bits else lane old ty.bits i)))
/-- `viota` (R251). -/
def execViota (h : Hdr) (k : Mask) (ty : Ty) (d : R32) (s : State) : Out :=
  guarded h 8 s fun s => .ok () (s.setLanes k ty d fun i => i)

/-! ## Reductions and scans (R91, R252) -/

/-- The operations of R252. -/
inductive RedOp where
  | add | min | max | and | or | xor
deriving DecidableEq, Repr

/-- One combination. -/
def redLane (op : RedOp) (ty : Ty) (x y : Nat) : Nat :=
  match op with
  | .add => if ty.isFloat then fadd (ffOf ty) .rne x y else laneAdd ty x y
  | .min => if ty.isFloat then fmin (ffOf ty) x y else laneMin ty x y
  | .max => if ty.isFloat then fmax (ffOf ty) x y else laneMax ty x y
  | .and => laneAnd ty x y
  | .or => laneOr ty x y
  | .xor => laneXor ty x y

/-- The result with no lane present (R252). -/
def redIdentity (op : RedOp) (ty : Ty) : Nat :=
  match op with
  | .add | .or | .xor => 0
  | .and => 2 ^ ty.bits - 1
  | .min => if ty.isFloat then FF.inf (ffOf ty) else wrapN ty.bits (intMax ty.isSigned ty.bits)
  | .max => if ty.isFloat then signBit (ffOf ty) true + FF.inf (ffOf ty) else wrapN ty.bits (intMin ty.isSigned ty.bits)

/-- A combination of two nodes: a single present child passes on unchanged. -/
def node (op : RedOp) (ty : Ty) (x y : Option Nat) : Option Nat :=
  match x, y with
  | some x, some y => some (redLane op ty x y)
  | some x, none => some x
  | none, y => y

/-- One level of the tree of R91: node i combines nodes 2i and 2i + 1. -/
def treeLevel (op : RedOp) (ty : Ty) : List (Option Nat) → List (Option Nat)
  | x :: y :: rest => node op ty x y :: treeLevel op ty rest
  | l => l
/-- `n` levels of the tree. -/
def tree (op : RedOp) (ty : Ty) : Nat → List (Option Nat) → List (Option Nat)
  | 0, l => l
  | n + 1, l => tree op ty n (treeLevel op ty l)

/-- The lanes of V[a] that the mask leaves present. -/
def presentLanes (m : Word) (ty : Ty) (x : Vec) : List (Option Nat) :=
  (List.range (lanes ty)).map fun i => if m.getLsbD i then some (lane x ty.bits i) else none

/-- The result of a reduction; the order of R91's tree serves every operation. -/
def reduce (op : RedOp) (ty : Ty) (l : List (Option Nat)) : Nat := ((tree op ty 6 l).headD none).getD (redIdentity op ty)

/-- The outputs of a scan in ascending order. -/
def scan (op : RedOp) (ty : Ty) : Option Nat → List (Option Nat) → List Nat
  | _, [] => []
  | acc, x :: xs => let acc := node op ty acc x; acc.getD 0 :: scan op ty acc xs

/-- `vred` (R252): lane 0 of V[d], every other lane zero. -/
def vredOp (op : RedOp) (h : Hdr) (m : R8) (ty : Ty) (d a : R32) (s : State) : Out :=
  guarded h 8 s fun s => .ok () (s.setV d (BitVec.ofNat 512 (reduce op ty (presentLanes (s.MK m) ty (s.V a)))))
/-- `vscan` (R252). -/
def vscanOp (op : RedOp) (h : Hdr) (k : Mask) (ty : Ty) (d a : R32) (s : State) : Out :=
  let out := scan op ty none (presentLanes (s.MK k.m) ty (s.V a))
  guarded h 8 s fun s => .ok () (s.setLanes k ty d fun i => out.getD i 0)

/-- `vred.add` (R252). -/
def execVredAdd (h : Hdr) (m : R8) (ty : Ty) (d a : R32) (s : State) : Out := vredOp .add h m ty d a s
/-- `vred.min` (R252). -/
def execVredMin (h : Hdr) (m : R8) (ty : Ty) (d a : R32) (s : State) : Out := vredOp .min h m ty d a s
/-- `vred.max` (R252). -/
def execVredMax (h : Hdr) (m : R8) (ty : Ty) (d a : R32) (s : State) : Out := vredOp .max h m ty d a s
/-- `vred.and` (R252). -/
def execVredAnd (h : Hdr) (m : R8) (ty : Ty) (d a : R32) (s : State) : Out := vredOp .and h m ty d a s
/-- `vred.or` (R252). -/
def execVredOr (h : Hdr) (m : R8) (ty : Ty) (d a : R32) (s : State) : Out := vredOp .or h m ty d a s
/-- `vred.xor` (R252). -/
def execVredXor (h : Hdr) (m : R8) (ty : Ty) (d a : R32) (s : State) : Out := vredOp .xor h m ty d a s
/-- `vscan.add` (R252). -/
def execVscanAdd (h : Hdr) (k : Mask) (ty : Ty) (d a : R32) (s : State) : Out := vscanOp .add h k ty d a s
/-- `vscan.min` (R252). -/
def execVscanMin (h : Hdr) (k : Mask) (ty : Ty) (d a : R32) (s : State) : Out := vscanOp .min h k ty d a s
/-- `vscan.max` (R252). -/
def execVscanMax (h : Hdr) (k : Mask) (ty : Ty) (d a : R32) (s : State) : Out := vscanOp .max h k ty d a s
/-- `vscan.and` (R252). -/
def execVscanAnd (h : Hdr) (k : Mask) (ty : Ty) (d a : R32) (s : State) : Out := vscanOp .and h k ty d a s
/-- `vscan.or` (R252). -/
def execVscanOr (h : Hdr) (k : Mask) (ty : Ty) (d a : R32) (s : State) : Out := vscanOp .or h k ty d a s
/-- `vscan.xor` (R252). -/
def execVscanXor (h : Hdr) (k : Mask) (ty : Ty) (d a : R32) (s : State) : Out := vscanOp .xor h k ty d a s

/-! ## Dot products (R253) -/

/-- One destination lane of `vdot`: `old` is the lane's value, `x` and `y` the source lanes of its group. -/
def dotLane (ty : Ty) (old : Nat) (x y : List Nat) : Nat :=
  if ty.isAnyFloat then
    let F := ffOf ty
    let ps := (x.zip y).map fun p => exactMul (widen F p.1) (widen F p.2)
    roundTo .f32 .rne (exactSum .rne (ps ++ [widen .f32 old]))
  else wrapN 32 (((x.zip y).map fun p => tyInt ty p.1 * tyInt ty p.2).foldl (· + ·) 0 + old)

/-- `vdot` (R253): 16 destination lanes of 32 bits. -/
def execVdot (h : Hdr) (k : Mask) (ty : Ty) (d a b : R32) (s : State) : Out :=
  let x := s.V a
  let y := s.V b
  let z := s.V d
  let n := 32 / ty.bits
  let group (v : Vec) (i : Nat) : List Nat := (List.range n).map fun j => lane v ty.bits (n * i + j)
  guarded h 8 s fun s => .ok () (s.setLanes k .b32 d fun i => dotLane ty (lane z 32 i) (group x i) (group y i))

/-! ## Special functions and classes (R254, R255) -/

/-- A special function on the lanes. -/
def vspecial (f : FF → FVal → Nat) (h : Hdr) (k : Mask) (ty : Ty) (d a : R32) (s : State) : Out :=
  vun (fun ty x => f (ffOf ty) (widen (ffOf ty) x)) h k ty d a s

/-- `vexp2` (R254). -/
def execVexp2 (h : Hdr) (k : Mask) (ty : Ty) (d a : R32) (s : State) : Out := vspecial fexp2 h k ty d a s
/-- `vlog2` (R254). -/
def execVlog2 (h : Hdr) (k : Mask) (ty : Ty) (d a : R32) (s : State) : Out := vspecial flog2 h k ty d a s
/-- `vrcp` (R254). -/
def execVrcp (h : Hdr) (k : Mask) (ty : Ty) (d a : R32) (s : State) : Out := vspecial frcp h k ty d a s
/-- `vrsqrt` (R254). -/
def execVrsqrt (h : Hdr) (k : Mask) (ty : Ty) (d a : R32) (s : State) : Out := vspecial frsqrt h k ty d a s
/-- `vsinpi` (R254). -/
def execVsinpi (h : Hdr) (k : Mask) (ty : Ty) (d a : R32) (s : State) : Out := vspecial fsinpi h k ty d a s
/-- `vcospi` (R254). -/
def execVcospi (h : Hdr) (k : Mask) (ty : Ty) (d a : R32) (s : State) : Out := vspecial fcospi h k ty d a s
/-- `vtanh` (R254). -/
def execVtanh (h : Hdr) (k : Mask) (ty : Ty) (d a : R32) (s : State) : Out := vspecial ftanh h k ty d a s

/-- The class bit of a pattern (R255). -/
def classOf (ty : Ty) (x : Nat) : Nat :=
  let F := ffOf ty
  let neg := bits x (F.width - 1) 1 == 1
  let sub := bits x F.man F.ebits == 0
  match widen F x with
  | .nan => 8
  | .inf n => if n then 0 else 7
  | .fin _ m _ => if m = 0 then (if neg then 3 else 4) else if sub then (if neg then 2 else 5) else (if neg then 1 else 6)

/-- `vclass` (R255). -/
def execVclass (h : Hdr) (k : Mask) (ty : Ty) (d a : R32) (s : State) : Out := vun (fun ty x => 2 ^ classOf ty x) h k ty d a s

/-! ## Space-filling keys (R256) -/

/-- A coordinate of `n` bits from a lane. -/
def keyCoord (ty : Ty) (n v : Nat) : Nat :=
  let top := 2 ^ n - 1
  if ty.isFloat then
    match widen .f32 v with
    | .nan => 0
    | .inf neg => if neg then 0 else top
    | .fin neg m e =>
      if neg then 0
      else min top (if 0 ≤ e + n then m * 2 ^ (e + n).toNat else m / 2 ^ (-(e + n)).toNat)
  else min v top

/-- One step of the Hilbert passes at bit Q for coordinate c, on (X[0], X[1], X[2]). -/
def hilbertStep (q : Nat) (x : Nat × Nat × Nat) (c : Nat) : Nat × Nat × Nat :=
  let (x0, x1, x2) := x
  let p := q - 1
  let xc := if c = 0 then x0 else if c = 1 then x1 else x2
  if xc &&& q ≠ 0 then (x0 ^^^ p, x1, x2)
  else
    let t := (x0 ^^^ xc) &&& p
    if c = 0 then (x0 ^^^ t ^^^ t, x1, x2)
    else if c = 1 then (x0 ^^^ t, x1 ^^^ t, x2)
    else (x0 ^^^ t, x1, x2 ^^^ t)

/-- The Hilbert transform of three coordinates of `n` bits. -/
def hilbert (n : Nat) (x : Nat × Nat × Nat) : Nat × Nat × Nat :=
  let qs := (List.range (n - 1)).map fun j => 2 ^ (n - 1 - j)
  let (x0, x1, x2) := qs.foldl (fun x q => [0, 1, 2].foldl (hilbertStep q) x) x
  let x1 := x1 ^^^ x0
  let x2 := x2 ^^^ x1
  let t := qs.foldl (fun t q => if x2 &&& q ≠ 0 then t ^^^ (q - 1) else t) 0
  (x0 ^^^ t, x1 ^^^ t, x2 ^^^ t)

/-- The bits of the coordinates, x highest in each group of three. -/
def interleave (n : Nat) (x : Nat × Nat × Nat) : Nat :=
  packN 3 ((List.range n).map fun k => bits x.1 k 1 * 4 + bits x.2.1 k 1 * 2 + bits x.2.2 k 1)

/-- The key of a position (R256). -/
def spaceKey (hil : Bool) (n : Nat) (x : Nat × Nat × Nat) : Nat := interleave n (if hil then hilbert n x else x)

/-- `vkey` (R256): eight keys of 64 bits. -/
def vkeyOp (hil : Bool) (h : Hdr) (k : Mask) (ty : Ty) (d a : R32) (n : BitVec 5) (s : State) : Out :=
  let c (j i : Nat) : Nat := keyCoord ty n.toNat (lane (s.V (after a j)) 32 i)
  let keys := (List.range 8).map fun i => spaceKey hil n.toNat (c 0 i, c 1 i, c 2 i)
  guarded h 8 s fun s => .ok () (s.setLanes k .b64 d fun i => keys.getD i 0)
/-- `vkey.mort` (R256). -/
def execVkeyMort (h : Hdr) (k : Mask) (ty : Ty) (d a : R32) (n : BitVec 5) (s : State) : Out := vkeyOp false h k ty d a n s
/-- `vkey.hilb` (R256). -/
def execVkeyHilb (h : Hdr) (k : Mask) (ty : Ty) (d a : R32) (n : BitVec 5) (s : State) : Out := vkeyOp true h k ty d a n s

end Sys2Proof.Machine
end

