-- ==== Sys2Proof/Machine/Collectives.lean ====
section
/-!
DEFINITION. Collectives (R325 to R341): groups, the joining of operations at the hub, `cbar`, `cred` and the repartition
`rpart`, with its keys, its splitters, its moves and its end.
-/
namespace Sys2Proof.Machine

/-! ## Groups (R325, R326) -/

/-- The words of a descriptor, read under a temporal class (R34): GCTL, GTMO and, for a P of R325, two for each participant. Its
alignment is a condition of R341, no fault of R159. -/
def readGroup (w : Who) (tmp : Nat) (va : Word) (s : State) : Res (List Nat) :=
  (memReadAs w .core Align.any va 16 tmp s).andThen fun h s =>
    let P := bits h 32 11
    if P = 0 ∨ 1024 < P then .ok (unpackN 64 2 h) s
    else (memReadAs w .core Align.any va (16 + 16 * P) tmp s).andThen fun x s => .ok (unpackN 64 (2 + 2 * P) x) s

def groupGid (g : List Nat) : Nat := bits (g.getD 0 0) 0 32
def groupSize (g : List Nat) : Nat := bits (g.getD 0 0) 32 11
/-- Reserved bits of the entries are zero. -/
def entriesOk : List Nat → Bool
  | a :: _ :: rest => decide (a < 512) && entriesOk rest
  | _ => true

/-- The conditions of R341 that a descriptor of the current task breaks. -/
def groupFaults (va : Word) (g : List Nat) (s : State) : List Nat :=
  let g0 := g.getD 0 0
  let g1 := g.getD 1 0
  let own := ((groupMembers g).filter fun m => m == (s.ownMid, s.me.ttag.toNat)).length
  (if g0 / 2 ^ 43 ≠ 0 ∨ g1 / 2 ^ 32 ≠ 0 ∨ g1 = 0 ∨ !entriesOk (g.drop 2) then [1] else []) ++
  (if groupSize g = 0 ∨ 1024 < groupSize g ∨ own ≠ 1 then [2] else []) ++
  (if va.toNat % 64 ≠ 0 then [7] else [])

/-- The lowest-numbered condition raises the collective cause (R341). -/
def raiseLowest (l : List Nat) (addr : Word) (s : State) : Res Unit :=
  match l with
  | [] => .ok () s
  | x :: xs => raise 0x0F addr (xs.foldl min x) s

/-- How many collectives a task has issued for a group, and one more. -/
def State.collIssued (s : State) (part : Nat) (ttag : Word) (gid : Nat) : Nat :=
  match s.collCount.find? fun e => e.1 == part && e.2.1 == ttag && e.2.2.1 == gid with
  | some e => e.2.2.2
  | none => 0
def State.countColl (s : State) (part : Nat) (ttag : Word) (gid : Nat) : State :=
  let n := s.collIssued part ttag gid
  { s with collCount := (part, ttag, gid, n + 1) :: s.collCount.filter fun e => !(e.1 == part && e.2.1 == ttag && e.2.2.1 == gid) }

/-- The operation that a participant's n-th joins: the same count and GID, of groups with a participant in common. -/
def Coll.takes (c : Coll) (part : Nat) (j : CollJoin) : Bool :=
  c.part == part && c.gid == j.gid && c.count == j.count && !(c.joins.any fun x => x.mid == j.mid && x.ttag == j.ttag) &&
    (groupMembers c.descriptor).any fun m => (groupMembers j.descriptor).contains m

/-- All have joined: a barrier or a reduction is complete, a repartition goes on (R338's phase 1). -/
def State.collJoined (s : State) (c : Coll) : State :=
  match c.kind with
  | .part _ _ _ _ _ =>
    (s.modColl c.id fun x => { x with phase := 1 }).later .rpartCommit (.num c.id)
  | _ => s.endColl c { status := 0, detail := [], news := [], helds := [], los := [] }

/-- The time limit of an operation in ns (R325, R327). -/
def Coll.limit (c : Coll) : Nat :=
  1000 * match c.kind with | .part _ _ _ _ tmo => tmo | _ => c.descriptor.getD 1 0

/-- Whether the limit of an operation has passed, outside bells, before all have joined (R335, R339). -/
def State.collExpired (s : State) (c : Coll) : Bool :=
  c.outcome.isNone && decide (c.joins.length < groupSize c.descriptor) && decide (c.start + c.limit ≤ s.fabricTime)

/-- The operations whose limit has passed end. -/
def State.expireColls (s : State) : State := (s.colls.filter s.collExpired).foldl (fun s c => s.endColl c (.error 0x20 [])) s

/-- A participant joins (R326), with what this module keeps of it where it is its own; an operation whose limit has passed has
ended. -/
def State.joinColl (s : State) (part : Nat) (j : CollJoin) (l : Option CollLocal) : State :=
  let s := s.expireColls
  let c := (s.colls.find? fun c => c.takes part j).getD
    { id := s.collSeq, part := part, gid := j.gid, count := j.count, descriptor := j.descriptor, kind := j.kind, joins := [],
      locals := [], start := s.fabricTime, phase := 0, outcome := none }
  let s := if c.id = s.collSeq then { s with colls := s.colls ++ [c], collSeq := s.collSeq + 1 } else s
  let c := { c with joins := c.joins ++ [j], locals := c.locals ++ l.toList }
  let s := s.modColl c.id fun _ => c
  match c.outcome with
  | some e => (s.endColl c e).dropColls
  | none =>
    if c.descriptor ≠ j.descriptor ∨ c.kind ≠ j.kind then s.endColl c (.error 0x21 [])
    else if c.joins.length = groupSize c.descriptor then s.collJoined c
    else s

/-- `COLLECTIVE_JOIN` (R326): a participant of another module. -/
def execCollectiveJoin (s : State) : Out :=
  .next (match s.input with
    | .join part j => if s.bellIn then s.defer .collectiveJoin s.input else s.joinColl part j none
    | _ => s)

/-- `COLLECTIVE_TIMEOUT` (R335, R339). -/
def execCollectiveTimeout (s : State) : Out :=
  .next (match s.input with
    | .num id =>
      match s.colls.find? fun c => c.id == id && s.collExpired c with
      | some c => s.endColl c (.error 0x20 [])
      | none => s
    | _ => s)

/-- Whether a participant is the current strand's task's. -/
def State.mine (s : State) (l : CollLocal) : Bool := l.ofTask ((s.partOf s.cur).getD 0) s.me.ttag

/-- The current strand as a participant in an operation of kind `k` whose record or descriptor lies at `va`. -/
def State.asLocal (s : State) (g : List Nat) (k : CollKind) (va : Word) : CollLocal :=
  let t := s.me
  { kind := k, index := ((groupMembers g).idxOf? (s.ownMid, t.ttag.toNat)).getD 0, part := (s.partOf s.cur).getD 0, ttag := t.ttag, key := s.cur,
    gidx := t.gidx, addr := va.toNat, base := 0, count := 0, rbuf := 0, rcap := 0, ptbase := t.ptbase, asn := fld t.asn 0 16,
    keys := t.keys, sup := t.sup, leave := false, finished := false }

/-- The current task joins with an operation. -/
def State.joinHere (s : State) (g : List Nat) (x : Vec) (l : CollLocal) : State :=
  let gid := groupGid g
  let j : CollJoin := { mid := s.ownMid, ttag := l.ttag, gid := gid, count := s.collIssued l.part l.ttag gid, descriptor := g,
                        kind := l.kind, value := x, elements := [], rcap := l.rcap, rbuf := l.rbuf }
  (s.countColl l.part l.ttag gid).joinColl l.part j (some l)

/-- Another collective of the task on the group is in progress (R326). -/
def collBusy (g : List Nat) (addr : Word) (s : State) : Res Unit :=
  if s.colls.any fun c => c.gid == groupGid g && c.locals.any fun l => s.mine l && c.going l then raise 0x0F addr 0x21 s else .ok () s

/-! ## cbar and cred (R339, R340) -/

/-- One lane of a reduction: the sum or the signed minimum or maximum of integers, the sum rounded once or the extreme of
R77 of FP32 values. -/
def credLane (op : Nat) (ty : Ty) (l : List Nat) : Nat :=
  match l with
  | [] => 0
  | x :: xs =>
    if ty.isFloat then
      if op = 0 then roundTo .f32 .rne (exactSum .rne ((x :: xs).map (widen .f32)))
      else if op = 1 then (x :: xs).foldl (fmin .f32) x else (x :: xs).foldl (fmax .f32) x
    else if op = 0 then xs.foldl (· + ·) x % 2 ^ ty.bits
    else if op = 1 then xs.foldl (laneMin ty) x else xs.foldl (laneMax ty) x

/-- The combination of all contributions. -/
def credValue (op : Nat) (ty : Ty) (l : List Vec) : Vec :=
  ofLanes ty.bits ((List.range (lanes ty)).map fun i => credLane op ty (l.map fun v => lane v ty.bits i))

/-- The operation that the current strand joined with an operation of kind `k` and the descriptor at `va`, and has not left. -/
def State.collAt (s : State) (k : CollKind) (va : Word) : Option Coll :=
  s.colls.find? fun c => c.locals.any fun l => l.kind == k && s.mine l && l.gidx == s.me.gidx && l.addr == va.toNat

/-- The strand leaves an operation. -/
def State.leaveColl (s : State) (id : Nat) : State :=
  (s.modColl id fun c => { c with locals := c.locals.map fun l => if s.mine l then { l with finished := true } else l }).dropColls

/-- The end of the wait: nothing yet, the completion `fin`, after which the strand leaves, or the collective trap (R339, R341). -/
def collWait (va : Word) (c : Coll) (fin : Coll → State → Res Unit) (s : State) : Out :=
  match (s.colls.find? fun x => x.id == c.id).bind Coll.outcome with
  | none => .next s
  | some e =>
    if e.status = 0 then done 8 s ((fin c s).andThen fun _ s => .ok () (s.leaveColl c.id))
    else .next (s.takeTrap (s.leaveColl c.id) { cause := 0x0F, addr := va, info := BitVec.ofNat 64 e.status })

/-- A collective that its strand waits for: joined once, after the checks and `before`. -/
def collOp (h : Hdr) (a : R32) (k : CollKind) (x : Vec) (before : State → Res Unit) (fin : Coll → State → Res Unit) (s : State) : Out :=
  if !s.guard h then done 8 s (.ok () s)
  else
    let va := s.G a
    let s := s.expireColls
    match s.collAt k va with
    | some c => collWait va c fin s
    | none =>
      if s.bellIn then .next s
      else
        match (readGroup (s.who s.cur) h.tmp.toNat va s).andThen fun g s =>
            (raiseLowest (groupFaults va g s) va s).andThen fun _ s => (collBusy g va s).andThen fun _ s =>
              (before s).andThen fun _ s => .ok () (s.joinHere g x (s.asLocal g k va)) with
        | .trap e s' => .next (s.takeTrap s' e)
        | .wait u => .next u
        | .ok _ s =>
          match s.collAt k va with
          | some c => collWait va c fin s
          | none => .next s

/-- `cbar` (R339). -/
def execCbar (h : Hdr) (a : R32) (s : State) : Out := collOp h a .bar 0 (release .dom) (fun _ s => acquire .dom s) s

/-- A `cred` (R340). -/
def credOp (op : Nat) (h : Hdr) (ty : Ty) (d a b : R32) (s : State) : Out :=
  collOp h b (.red op ty) (s.V a) (fun s => .ok () s)
    (fun c s => .ok () (s.setV d (credValue op ty (c.joins.map CollJoin.value)))) s
/-- `cred.add` (R340). -/
def execCredAdd (h : Hdr) (ty : Ty) (d a b : R32) (s : State) : Out := credOp 0 h ty d a b s
/-- `cred.min` (R340). -/
def execCredMin (h : Hdr) (ty : Ty) (d a b : R32) (s : State) : Out := credOp 1 h ty d a b s
/-- `cred.max` (R340). -/
def execCredMax (h : Hdr) (ty : Ty) (d a b : R32) (s : State) : Out := credOp 2 h ty d a b s

/-! ## The repartition record (R327) -/

/-- RCTL's fields. -/
def rctlEsz (r : Word) : Nat := 8 * fld r 24 8
def rctlPoff (r : Word) : Nat := 4 * fld r 16 8
def rctlLoff (r : Word) : Nat := 4 * fld r 8 8
def rctlLoadU (r : Word) : Bool := bit r 7
def rctlBits (r : Word) : Nat := fld r 2 5
def rctlInt (r : Word) : Bool := bit r 0

/-- A coordinate of a position or of the box: a value of FP32 or INT32. -/
def coordValue (int : Bool) (x : Nat) : FVal := if int then ofScaled false (sextN 32 x) 0 else widen .f32 x

/-- The six bounds: lo x, lo y, lo z, hi x, hi y, hi z. -/
def boxValues (int : Bool) (b0 b1 b2 : Word) : List FVal := (unpackN 32 6 (packN 64 [b0.toNat, b1.toNat, b2.toNat])).map (coordValue int)

/-- Whether lo and hi of a coordinate are finite with lo below hi. -/
def boxSide (lo hi : FVal) : Bool := lo.isFinite && hi.isFinite && fcompare lo hi == some .lt
def boxOk (l : List FVal) : Bool := (List.range 3).all fun c => boxSide (l.getD c .nan) (l.getD (c + 3) .nan)

/-- A word of the record. -/
def recWord (r i : Nat) : Word := BitVec.ofNat 64 (elemN r 64 i)

/-- The receive buffer fails subcause 0x05: another module's, a window that takes no puts of the partition, or too short. -/
def State.badReceive (s : State) (rbuf : Word) (len : Nat) : Bool :=
  let ctl := s.hubGet (winAddr (remWin rbuf))
  remMod rbuf != s.ownMid || !bit ctl 63 || !bit ctl 61 || fld ctl 56 4 != (s.partOf s.cur).getD 0 ||
    decide (s.hubFld (winAddr (remWin rbuf) + 16) 0 41 < remOff rbuf + len)

/-- The conditions of R341 that a record breaks. -/
def recordFaults (r : Nat) (s : State) : List Nat :=
  let ctl := recWord r 0
  let e := rctlEsz ctl
  let rcap := fld (recWord r 8) 0 32
  (if fld ctl 32 32 ≠ 0 ∨ rctlBits ctl = 0 ∨ 21 < rctlBits ctl ∨ fld (recWord r 3) 32 32 ≠ 0 ∨ fld (recWord r 8) 32 32 = 0 ∨
      fld (recWord r 12) 16 48 ≠ 0 ∨ elemN r 64 13 ≠ 0 ∨ elemN r 64 14 ≠ 0 ∨ elemN r 64 15 ≠ 0 then [1] else []) ++
  (if e < 16 ∨ 256 < e ∨ e < rctlPoff ctl + 12 ∨ (!rctlLoadU ctl ∧ e < rctlLoff ctl + 4) then [3] else []) ++
  (if !boxOk (boxValues (rctlInt ctl) (recWord r 4) (recWord r 5) (recWord r 6)) then [4] else []) ++
  (if s.badReceive (recWord r 7) (rcap * e) then [5] else []) ++
  (if fld (recWord r 12) 0 8 ≠ 0 then [6] else []) ++
  (if fld (recWord r 1) 0 6 ≠ 0 ∨ fld (recWord r 2) 0 3 ≠ 0 then [7] else [])

/-- A participant as the hub accesses its memory: its address space (R345), at the privilege of the strand that issued the operation,
which the manual does not name (log 12). -/
def CollLocal.who (l : CollLocal) : Who :=
  { key := l.key, part := some l.part, sup := l.sup, ptbase := l.ptbase, asn := l.asn, keys := l.keys, req := 0, mark := 0, abortMark := 0 }
/-- A participant's array or record, written by the hub at the home place; a write that fails is a contained machine check (log
13). -/
def CollLocal.write (l : CollLocal) (a n x : Nat) (s : State) : Res Unit :=
  match hubWrite l.who (BitVec.ofNat 64 a) n x s with
  | .trap _ s => .ok () (s.raiseCheck (hubFailEvent l.part))
  | r => r

/-- Repartitions of the current task in progress. -/
def State.rpartsOf (s : State) : Nat :=
  (s.colls.filter fun c => c.locals.any fun l => l.kind.isPart && s.mine l && c.going l).length

/-- The record and its descriptor read and checked (R337): the record, its group and the array's pages. Every page is checked as load,
and then every page as store (log 133). -/
def rpartChecks (rec : Word) (s : State) : Res (Nat × List Nat) :=
  if fld rec 55 9 ≠ 0 then raise 0x04 rec 1 s
  else if fld rec 0 7 ≠ 0 then raise 0x07 rec 7 s
  else
    let w := s.who s.cur
    (memReadAs w .core Align.any rec 128 0 s).andThen fun r s =>
      let va := recWord r 1
      (readGroup w 0 va s).andThen fun g s =>
        (raiseLowest (recordFaults r s ++ groupFaults va g s) rec s).andThen fun _ s =>
          let n := fld (recWord r 3) 0 32 * rctlEsz (recWord r 0)
          let ps := rangeParts (recWord r 2) n
          (checkParts w .load Align.any ps s).andThen fun _ s =>
            (checkParts w .store Align.any ps s).andThen fun _ s => (collBusy g rec s).andThen fun _ s => .ok (r, g) s

/-- The elements of a participant as they are at issue, read at the home place (R336); a read that fails is reported as R335 says. -/
def snapshot (esz : Nat) (l : CollLocal) (s : State) : Res CollLocal :=
  match hubRead l.who (BitVec.ofNat 64 l.base) (l.count * esz) s with
  | .wait u => .wait u
  | .trap e s => .ok { l with failed := some (if e.cause = 8 then fld e.info 0 8 else 0) } s
  | .ok x s => .ok { l with elems := unpackN (8 * esz) l.count x } s

/-- `rpart` (R337). -/
def execRpart (h : Hdr) (d a : R32) (lit : BitVec 32) (s : State) : Out :=
  guarded h 12 s fun s =>
    let rec' := s.G a + lit64 lit
    if s.bellIn then .wait s
    else
      (rpartChecks rec' s).andThen fun (r, g) s =>
        if 4 ≤ s.rpartsOf then .ok () (s.setG d 1)
        else
          (release .dom s).andThen fun _ s =>
            let rcap := fld (recWord r 8) 0 32
            let k : CollKind := .part (recWord r 0) (recWord r 4) (recWord r 5) (recWord r 6) (fld (recWord r 8) 32 32)
            let l := { s.asLocal g k rec' with base := (recWord r 2).toNat, count := fld (recWord r 3) 0 32, rbuf := recWord r 7, rcap := rcap }
            (snapshot (rctlEsz (recWord r 0)) l s).andThen fun l s =>
              (hubWrite (s.who s.cur) (rec' + 96) 8 1 s).andThen fun _ s => .ok () ((s.joinHere g 0 l).setG d 0)

/-- `rpstat` (R338): it reads as `ld` does, and writes G[d] once its acquire is performed, so that one which is executed again has the
address that it began with (R38). -/
def execRpstat (h : Hdr) (d a : R32) (s : State) : Out :=
  guarded h 8 s fun s =>
    let va := s.G a
    let s := s.expireColls
    let here (c : Coll) : Bool := c.locals.any fun l => l.kind.isPart && s.mine l && l.addr == va.toNat
    match s.colls.find? here with
    | some c =>
      let phase := match c.outcome with | some e => if e.status < 0x20 then c.phase else 6 | none => c.phase
      .ok () (s.setG d (BitVec.ofNat 64 (c.joins.length % 2 ^ 12 * 2 ^ 20 + phase * 2 ^ 16 + 1)))
    | none =>
      (memReadAt (s.who s.cur) (levelOf .die) (va + 96) 8 false 0 s).andThen fun x s =>
        (if x % 256 = 0 ∨ x % 256 = 1 then .ok () s else acquire .dom s).andThen fun _ s =>
          .ok () (s.setG d (BitVec.ofNat 64 (7 * 2 ^ 16 + x % 2 ^ 16)))

/-! ## Keys, loads and splitters (R329 to R332) -/

/-- X[c] of R329: the place of a coordinate in the box, in n bits. -/
def boxCoord (n : Nat) (p lo hi : FVal) : Nat :=
  let top := 2 ^ n - 1
  match p with
  | .nan => 0
  | .inf neg => if neg then 0 else top
  | .fin _ _ _ =>
    let e := minExp [p, lo, hi]
    let x := p.scaled e - lo.scaled e
    if x < 0 then 0 else min top (x * 2 ^ n / (hi.scaled e - lo.scaled e)).toNat

/-- The key of an element (R329). -/
def elementKey (ctl b0 b1 b2 : Word) (x : Nat) : Nat :=
  let n := rctlBits ctl
  let box := boxValues (rctlInt ctl) b0 b1 b2
  let c (i : Nat) : Nat :=
    boxCoord n (coordValue (rctlInt ctl) (bits x (8 * rctlPoff ctl + 32 * i) 32)) (box.getD i .nan) (box.getD (i + 3) .nan)
  spaceKey (bit ctl 1) n (c 0, c 1, c 2)

/-- The load of an element in units of 2^-149 (R330). -/
def elementLoad (ctl : Word) (x : Nat) : Nat :=
  match widen .f32 (bits x (8 * rctlLoff ctl) 32) with
  | .fin false m e => m * 2 ^ (e + 149).toNat
  | _ => 0

/-- An element of the group: key, source index, array index, load, bytes. -/
structure Elem where
  key : Nat
  src : Nat
  idx : Nat
  load : Nat
  bytes : Nat
deriving DecidableEq, Repr

/-- The elements of one participant: the keys and loads of `l`, the bytes that are moved of `now`. -/
def elemsOf (ctl b0 b1 b2 : Word) (src : Nat) (l now : List Nat) : List Elem :=
  (List.range l.length).map fun i =>
    let x := l.getD i 0
    { key := elementKey ctl b0 b1 b2 x, src := src, idx := i, load := if rctlLoadU ctl then 1 else elementLoad ctl x, bytes := now.getD i x }

/-- The loads as the splitters take them: a total of 0 counts every element as 1 (R330). -/
def weighed (l : List Elem) : List Elem :=
  if l.all fun e => e.load == 0 then l.map fun e => { e with load := 1 } else l

/-- pre of R329 for a key of K bits. -/
def prefixOf (K key : Nat) : Nat := key * 2 ^ 24 / 2 ^ K

/-- The least F of R331 for participant i of P. -/
def splitF (K P i : Nat) (l : List Elem) : Nat :=
  let total := l.foldl (fun a e => a + e.load) 0
  let below (F : Nat) : Nat := l.foldl (fun a e => if prefixOf K e.key < F then a + e.load else a) 0
  let fits := (0 :: l.map fun e => prefixOf K e.key + 1).filter fun F => decide (i * total ≤ below F * P)
  fits.foldl min (2 ^ 24)

/-- lo[0] to lo[P] (R331). -/
def splitters (K P : Nat) (l : List Elem) : List Nat :=
  (List.range (P + 1)).map fun i =>
    if i = 0 then 0 else if i = P then 2 ^ K else (splitF K P i l * 2 ^ K + (2 ^ 24 - 1)) / 2 ^ 24

/-- Insertion into a list in the order of R332: key, source, array index. -/
def insertElem (e : Elem) : List Elem → List Elem
  | [] => [e]
  | x :: xs =>
    if e.key < x.key ∨ (e.key = x.key ∧ (e.src < x.src ∨ (e.src = x.src ∧ e.idx ≤ x.idx))) then e :: x :: xs
    else x :: insertElem e xs

/-- What a receiver accepts, in the order of its buffer (R332, R333): `l` lists the group by source and array index. -/
def acceptedBy (los rcaps : List Nat) (l : List Elem) (o : Nat) : List Elem :=
  let D := l.filter fun e => decide (los.getD o 0 ≤ e.key) && decide (e.key < los.getD (o + 1) 0)
  let take := (D.foldr insertElem []).take (rcaps.getD o 0)
  D.filter fun e => take.contains e

/-! ## Moves and the commit (R333, R335) -/

/-- The arrays of this module's participants, by index; or the first whose read fails, with the R111 cause of an error response,
where other failures count as one with cause 0 (R335). -/
def readLocals (esz : Nat) : List CollLocal → State → Res (Except (Nat × Nat) (List (Nat × List Nat)))
  | [], s => .ok (.ok []) s
  | l :: ls, s =>
    (snapshot esz l s).andThen fun x s =>
      match x.failed with
      | some c => .ok (.error (l.index, c)) s
      | none => (readLocals esz ls s).andThen fun r s => .ok (r.map fun xs => (l.index, x.elems) :: xs) s

/-- What a participant has brought. -/
def Coll.joinOf (c : Coll) (i : Nat) : Option CollJoin :=
  c.joins.find? fun j => (j.mid, j.ttag.toNat) == (groupMembers c.descriptor).getD i (0, 0)
/-- The elements of a participant's array at its issue: this module's, or brought by another's. -/
def Coll.issued (c : Coll) (i : Nat) : List Nat :=
  match c.locals.find? fun l => l.index == i with
  | some l => l.elems
  | none => ((c.joinOf i).map CollJoin.elements).getD []
/-- The bytes of a participant's array as its moves read them: a store in between may show in them (R336). -/
def Coll.array (c : Coll) (i : Nat) : List Nat :=
  match (c.arrays.getD []).find? fun a => a.1 == i with
  | some a => a.2
  | none => c.issued i

/-- The splitters, and what each receiver accepts and each source holds back (R331 to R333). -/
structure Moves where
  size : Nat
  los : List Nat
  total : Nat
  accepted : List (List Elem)
  held : List (List Elem)
deriving DecidableEq, Repr

/-- What the reduced histograms and the exchanged counts give every participant (R332). -/
def Coll.moves (c : Coll) : Moves :=
  match c.kind with
  | .part ctl b0 b1 b2 _ =>
    let P := (groupMembers c.descriptor).length
    let all := ((List.range P).map fun i => elemsOf ctl b0 b1 b2 i (c.issued i) (c.array i)).flatten
    let los := splitters (3 * rctlBits ctl) P (weighed all)
    let rcaps := (List.range P).map fun i => ((c.joinOf i).map CollJoin.rcap).getD 0
    let acc := (List.range P).map (acceptedBy los rcaps all)
    { size := rctlEsz ctl, los := los, total := all.length, accepted := acc,
      held := (List.range P).map fun i => all.filter fun e => e.src == i && !acc.flatten.contains e }
  | _ => { size := 0, los := [], total := 0, accepted := [], held := [] }

/-- Elements as the bytes that are moved. -/
def packElems (esz : Nat) (xs : List Elem) : Nat := packN (8 * esz) (xs.map Elem.bytes)

/-- The elements of one source that a receiver accepts, and how many bytes of its buffer lie before them: they are in the order of
their sources (R333). -/
def movedFrom (esz src : Nat) (accepted : List Elem) : Nat × List Elem :=
  ((accepted.filter fun e => decide (e.src < src)).length * esz, accepted.filter fun e => e.src == src)

/-- Elements of a source of this module written to a receive buffer through its window (R315, R333), or the subcause of the
failure. -/
def CollLocal.receive (l : CollLocal) (esz off : Nat) (xs : List Elem) (s : State) : Res (Option Nat) :=
  let win := winAddr (remWin l.rbuf)
  let ctl := s.hubGet win
  if xs.isEmpty then .ok none s
  else if !bit ctl 63 then .ok (some 3) s
  else if !bit ctl 61 then .ok (some 5) s
  else if s.hubFld (win + 16) 0 41 < remOff l.rbuf + off + xs.length * esz then .ok (some 4) s
  else
    match windowWho (remWin l.rbuf) s with
    | .wait u => .wait u
    | .trap _ s => .ok (some 7) s
    | .ok w s =>
      let va := fld (s.hubGet (win + 8)) 3 52 * 8 + remOff l.rbuf + off
      match hubWrite w (BitVec.ofNat 64 va) (xs.length * esz) (packElems esz xs) s with
      | .ok _ s => .ok none s
      | .trap e s => .ok (match failedBy e with | .failed sub _ => some sub | .done _ => none) s
      | .wait u => .wait u

/-- Every receiver of this module receives what its sources of this module send, as pairs of a receiver and a source's index; the
first failure ends it. -/
def receiveAll (m : Moves) : List (CollLocal × Nat) → State → Res (Option Nat)
  | [], s => .ok none s
  | (l, i) :: ls, s =>
    let x := movedFrom m.size i (m.accepted.getD l.index [])
    (l.receive m.size x.1 x.2 s).andThen fun r s =>
      match r with
      | some sub => .ok (some sub) s
      | none => receiveAll m ls s

/-- The moves within this module. -/
def Coll.within (c : Coll) : List (CollLocal × Nat) := c.locals.flatMap fun l => c.locals.map fun x => (l, x.index)

/-- A put of a source's elements to the receiver at another module (R318, R333): they lie together in its buffer. -/
def State.sendMove (s : State) (c : Coll) (esz : Nat) (l : CollLocal) (mid : Nat) (rbuf : Word) (accepted : List Elem) : State :=
  let x := movedFrom esz l.index accepted
  if x.2.isEmpty then s
  else
    let op : RemoteOp :=
      { id := s.remoteSeq, part := l.part, ttag := l.ttag, key := l.key, addr := rbuf + BitVec.ofNat 64 x.1,
        kind := .move (packElems esz x.2) c.gid c.count, n := x.2.length * esz, lva := 0, ptbase := l.ptbase, asn := l.asn, keys := l.keys,
        sup := l.sup, counted := false, start := s.fabricTime, sent := false, leave := false, result := none, coll := some c.id }
    { s with remotes := s.remotes ++ [op], remoteSeq := s.remoteSeq + 1 }.sendPackets mid (x.2.length * esz) (some op.id)

/-- The puts of this module's participants to the receivers of others. -/
def State.sendMoves (s : State) (c : Coll) (m : Moves) : State :=
  let ms := groupMembers c.descriptor
  (List.range ms.length).foldl (fun s o =>
    let mid := (ms.getD o (0, 0)).1
    if mid = s.ownMid then s
    else c.locals.foldl (fun s l =>
      s.sendMove c m.size l mid (((c.joinOf o).map CollJoin.rbuf).getD 0) (m.accepted.getD o [])) s) s

/-- Phase `n`, once it is later than the one reached. -/
def State.collPhase (s : State) (c : Coll) (n : Nat) : State :=
  s.modColl c.id fun x => { x with phase := max x.phase n }

/-- The move phase begins: 4 credits for each participant of this module (R336), or a wait for them. -/
def State.collCredits (s : State) (c : Coll) : List CollLocal → Bool × State
  | [] => (true, s)
  | l :: ls =>
    if l.leave then s.collCredits c ls
    else
      match s.askLeave (.part c.id l.index) (clusterOf l.key) 4 with
      | (false, s) => (false, s)
      | (true, s) =>
        (s.modColl c.id fun x =>
          { x with locals := x.locals.map fun y => if y.index = l.index then { y with leave := true } else y }).collCredits c ls

/-- The puts that the receivers of this module await from the sources of others. -/
def Coll.awaited (c : Coll) : Nat :=
  let m := c.moves
  let far := (List.range (groupMembers c.descriptor).length).filter fun i => !(c.locals.any fun l => l.index == i)
  (c.locals.flatMap fun l => far.filter fun i => !(movedFrom m.size i (m.accepted.getD l.index [])).2.isEmpty).length

/-- Every receiver has confirmed: no put of this module is outstanding, its own receivers have the flags that they await, and the
receivers of other modules have all they await. -/
def State.movesDone (s : State) (c : Coll) : Bool :=
  !(s.remotes.any fun o => o.coll == some c.id) && decide (c.awaited ≤ c.flags) &&
    (c.confirmed || (groupMembers c.descriptor).all fun m => m.1 == s.ownMid)

/-- The outcome of a commit (R328, R333). -/
def Moves.outcome (m : Moves) : CollEnd :=
  { status := if m.held.all List.isEmpty then 2 else 3, detail := [], los := m.los, news := m.accepted.map List.length,
    helds := m.held.map List.length }

/-- The next part of a repartition is its moves, whose accesses the drain may refuse (R394). -/
def Coll.moving (c : Coll) : Bool := c.arrays.isSome && !c.moved

/-- The next part of a repartition: the arrays are read (R329); credits taken, the elements received here and sent (R333); and,
once every receiver has confirmed, the commit. -/
def repartition (c : Coll) (s : State) : Res Unit :=
  let P := (groupMembers c.descriptor).length
  let again (s : State) : State := s.later .rpartCommit (.num c.id)
  match c.arrays with
  | none =>
    (readLocals c.moves.size c.locals s).andThen fun r s =>
      match r with
      | .error (i, e) => .ok () (s.endColl c (.error 0x24 ((List.range P).map fun j => if j = i then e else 0)))
      | .ok xs => .ok () (again (s.modColl c.id fun x => { x with arrays := some xs }))
  | some _ =>
    if !c.moved then
      match s.collCredits c c.locals with
      | (false, s) => .ok () (s.collPhase c 4)
      | (true, s) =>
        (receiveAll c.moves c.within (s.collPhase c 4)).andThen fun r s =>
          match r with
          | some sub =>
            .ok () (s.endColl ((s.colls.find? fun x => x.id == c.id).getD c) (.error 0x22 (List.replicate P sub)))
          | none => .ok () (again ((s.sendMoves c c.moves).modColl c.id fun x => { x with moved := true }))
    else if !s.movesDone c then .ok () s
    else .ok () ((s.collPhase c 5).endColl c c.moves.outcome)

/-- `RPART_COMMIT` (R333): with a phase, the operation has reached it, 5 being that the receivers of other modules have confirmed;
alone, its next part is carried through; with a status and a detail, it has failed at another module, where for STATUS 0x23 the
detail is the index of the participant whose task has died. -/
def execRpartCommit (s : State) : Out :=
  let running (id : Nat) : Option Coll := s.colls.find? fun c => c.id == id && c.outcome.isNone
  .next (if s.bellIn then s.defer .rpartCommit s.input else
    match s.input with
    | .num2 id n =>
      (match running id with
      | some c =>
        if c.phase = 0 then s
        else if n ≤ 4 then s.collPhase c n
        else (s.modColl id fun x => { x with confirmed := true }).later .rpartCommit (.num id)
      | none => s)
    | .num3 id status detail =>
      let s := if status = 0x23 then s.modColl id fun x => { x with dead := detail :: x.dead } else s
      (match running id with
      | some c =>
        if status = 0x23 ∨ (c.kind.isPart ∧ 1 ≤ c.phase ∧ (status = 0x22 ∨ status = 0x24)) then
          s.endColl c (.error status (if status = 0x22 then (groupMembers c.descriptor).map fun _ => detail else []))
        else s
      | none => s.dropColls)
    | .num id =>
      (match running id with
      | some c =>
        if c.phase = 0 then s
        else if c.moving && !s.drainAdmits 40 then
          c.locals.foldl (fun s l => s.refuseOp (.part c.id l.index) (clusterOf l.key)) s
        else deferring .rpartCommit s (repartition c s)
      | none => s)
    | _ => s)

/-- One participant's held-back elements at the end of its array (R333), OUTN, KLO, KHI and, as a release write, last, STAT (R336). -/
def CollLocal.report (l : CollLocal) (m : Moves) (e : CollEnd) (s : State) : Res Unit :=
  let held := if e.status = 2 ∨ e.status = 3 then m.held.getD l.index [] else []
  (if held.isEmpty then .ok () s
   else l.write (l.base + (l.count - held.length) * m.size) (held.length * m.size) (packElems m.size held) s).andThen fun _ s =>
  (l.write (l.addr + 72) 8 (e.news.getD l.index 0 + 2 ^ 32 * e.helds.getD l.index 0) s).andThen fun _ s =>
  (l.write (l.addr + 80) 8 (e.los.getD l.index 0) s).andThen fun _ s =>
  (l.write (l.addr + 88) 8 (e.los.getD (l.index + 1) 0) s).andThen fun _ s =>
  (hubReleased s).andThen fun _ s =>
  l.write (l.addr + 96) 8 (e.status + 2 ^ 8 * e.detail.getD l.index 0) s

/-- The ends of this module's repartitions are written, one after the other. -/
def reportAll (id : Nat) (m : Moves) (e : CollEnd) : List CollLocal → State → Res Unit
  | [], s => .ok () s
  | l :: ls, s => (l.report m e s).andThen fun _ s =>
      reportAll id m e ls (s.modColl id fun x =>
        { x with phase := 6, locals := x.locals.map fun y => if y.index = l.index then { y with finished := true } else y })

/-- `RPART_END` (R336). -/
def execRpartEnd (s : State) : Out :=
  .next (if s.bellIn then s.defer .rpartEnd s.input else
    match s.input with
    | .num id =>
      match s.colls.find? fun c => c.id == id, (s.colls.find? fun c => c.id == id).bind Coll.outcome with
      | some c, some e =>
        deferring .rpartEnd s ((reportAll id c.moves e (c.locals.filter fun l => l.kind.isPart && !l.finished) s).andThen fun _ s =>
          .ok () s.dropColls)
      | _, _ => s
    | _ => s)

end Sys2Proof.Machine
end

