-- ==== Sys2Proof/Machine/Domain.lean ====
section
/-!
DEFINITION. The domain (R437 to R439): the manifest, elections, and the tables that the leader distributes.
-/
namespace Sys2Proof.Machine

/-- The round in progress (R304). -/
def State.round (s : State) : Nat := s.turn / 4

/-- This module's entry of the manifest (R437). -/
def State.manifestMid (s : State) : Option Nat := (s.manifest.find? fun e => e.1 == s.serial).map Prod.snd
/-- Whether a serial is the manifest's. -/
def State.listed (s : State) (serial : Nat) : Bool := s.manifest.any fun e => e.1 == serial
/-- The rank of this module's serial (R438). -/
def State.rank (s : State) : Nat := (s.manifest.filter fun e => decide (e.1 < s.serial)).length

/-- Whether a verified heartbeat came within the last 4 rounds. -/
def State.heard (s : State) : Bool :=
  match s.lastBeat with
  | some r => decide (s.round < r + 4)
  | none => false

/-- A claim, an acknowledgement or a heartbeat is sent in the gap: 0, 1, 2. -/
def State.announce (s : State) (kind serial : Nat) : State := { s with elections := s.elections ++ [(kind, s.term, serial)] }

/-- `ELECTION_TRIGGER` (R438): no heartbeat for 4 rounds, or boot. -/
def execElectionTrigger (s : State) : Out :=
  .next (if s.role = .follower ∧ s.manifestMid.isSome ∧ !s.heard then { s with role := .waiting (s.round + 4 * s.rank) } else s)

/-- A claimant that holds acknowledgements from more than half of the manifest's entries leads (R438). -/
def State.wins (s : State) (round : Nat) (acks : List Nat) : State :=
  if s.manifest.length < 2 * acks.length then { s with role := .leader, reports := [(s.serial, s.tableSeq)] }.announce 2 s.serial
  else { s with role := .claimant round acks }

/-- `CLAIM_SEND` (R438): the term rises, the claimant acknowledges itself. -/
def execClaimSend (s : State) : Out :=
  .next (match s.role with
    | .waiting r =>
      if s.round < r then s
      else ({ s with term := (s.term + 1) % 2 ^ 64, acked := some s.serial }.announce 0 s.serial).wins s.round [s.serial]
    | _ => s)

/-- Stands down and adopts a higher term (R438). -/
def State.standDown (s : State) (term : Nat) : State := { s with role := .follower, term := term, acked := none }

/-- Of claims that arrive in the same round another goes first: of a higher term, or of the same term and a lower serial (R438). -/
def State.claimBefore (s : State) (term serial round : Nat) : Bool :=
  s.agenda.any fun m => match m with
    | .event .claimReceive (.claim t n v r) => r == round && v && s.listed n && (decide (term < t) || (t == term && decide (n < serial)))
    | _ => false

/-- Whether this module takes part in a domain's elections: the manifest lists it (R437), and the other's signature verifies under a
serial that it lists. -/
def State.hears (s : State) (serial : Nat) (verified : Bool) : Bool := verified && s.listed serial && s.manifestMid.isSome

/-- `CLAIM_RECEIVE` (R438): a verified claim cancels a wait, makes a claimant of a lower term stand down, and is acknowledged
where the rule's conditions hold; a leader acknowledges none (log 75). -/
def execClaimReceive (s : State) : Out :=
  .next (match s.input with
    | .claim term serial verified round =>
      if !s.hears serial verified then s
      else if s.claimBefore term serial round then s.later .claimReceive s.input
      else
        let s := match s.role with
          | .waiting _ => if s.term ≤ term then { s with role := .follower } else s
          | .claimant _ _ => if s.term < term then s.standDown term else s
          | _ => s
        let free := decide (s.term < term) || (s.term == term && (s.acked == none || s.acked == some serial))
        if free && !s.heard && s.role != .leader then { s with term := term, acked := some serial }.announce 1 serial else s
    | _ => s)

/-- `ACKNOWLEDGEMENT_RECEIVE` (R438): of the claimant's term, from the module `serial`, within 4 rounds of the claim. -/
def execAcknowledgementReceive (s : State) : Out :=
  .next (match s.input, s.role with
    | .claim term serial verified _, .claimant r acks =>
      if s.hears serial verified && term == s.term && !acks.contains serial && decide (s.round < r + 4) then s.wins r (acks ++ [serial]) else s
    | _, _ => s)

/-- `CLAIM_ABANDON` (R438). -/
def execClaimAbandon (s : State) : Out :=
  .next (match s.role with
    | .claimant r _ => if r + 4 ≤ s.round then { s with role := .follower } else s
    | _ => s)

/-- `HEARTBEAT_RECEIVE` (R438). -/
def execHeartbeatReceive (s : State) : Out :=
  .next (match s.input with
    | .claim term serial verified _ =>
      if !s.hears serial verified then s
      else
        let s := match s.role with
          | .waiting _ => if s.term ≤ term then { s with role := .follower } else s
          | .claimant _ _ | .leader => if s.term < term then s.standDown term else s
          | .follower => s
        { s with lastBeat := some s.round }
    | _ => s)

/-! ## Tables (R439) -/

/-- The peal of the bell that a value of TIME lies in, or else of the next (R391). -/
def pealFrom (time : Nat) : Nat :=
  let n := time / pealLen
  if n % 1024 = 1 ∧ time < (n - 1) * pealLen + bellLength (n - 1) then n - 1
  else if n % 1024 ≠ 1 ∧ time < n * pealLen + bellLength n then n
  else bellAfter n

/-- TIME set forwards once to the reference (R305); the calendar goes on from there. -/
def State.setForward (s : State) (time : Nat) : State :=
  if time ≤ s.time then s
  else
    { s with timeOff := (time : Int) * 1000000 - (s.clk * 400000 : Nat), turn := time / turnLen,
             bellPeal := if s.bellIn then s.bellPeal else pealFrom time }

/-- Outside every coherence set (R18): no entry of FCSET is valid and FCSELF.IDX is 0. -/
def State.leaveSet (s : State) : State :=
  (List.range 8).foldl (fun s k => s.hubSet (hubFC + 64 + 8 * k) 0) (s.hubSetFld (hubFC + 128) 0 3 0)

/-- FCSELF.IDX is this module's place in the coherence set that FCSET lists (R312, R439); a module that no valid entry names is in
none (R18). -/
def State.joinSet (s : State) : State :=
  let own (m k : Nat) : Bool := bit (s.hubGet (hubFC + 64 + 8 * k)) 63 && s.hubFld (hubFC + 64 + 8 * k) 0 9 == m
  match s.manifestMid.bind fun m => (List.range 8).find? (own m) with
  | some k => s.hubSetFld (hubFC + 128) 0 3 k
  | none => s.leaveSet

/-- The first set of tables that names this module in FDMAP admits it (R305, R437, R439); one that no longer names it puts it outside
the domain: it is admitted no more and the boot stage is that of a module with its partitions started (R436). -/
def State.enrol (s : State) (time : Nat) : State :=
  match s.manifestMid.filter s.inDomain with
  | some m => if s.admitted then s else { s.setForward time with admitted := true, mid := m }.hubSetFld hubBOOT 0 3 5
  | none => if s.admitted then { s with admitted := false }.hubSetFld hubBOOT 0 3 4 else s

/-- A whole set of tables above the highest applied, applied at once (R439): FDMAP, FCSET and this module's index in it; the rotor phase
and the directory of windows stay with the set. The module reports the number, and a leader counts its own report. -/
def State.applyTables (s : State) (t : TableSet) : State :=
  let s := (List.range 8).foldl (fun s j => s.hubSet (hubFC + 8 * j) (t.fdmap.getD j 0)) s
  let s := (List.range 8).foldl (fun s k => s.hubSet (hubFC + 64 + 8 * k) (t.fcset.getD k 0 &&& 0x80000000000001FF)) s
  let own := if s.role = .leader then (s.reports.filter fun r => r.1 != s.serial) ++ [(s.serial, t.seq)] else s.reports
  { s with tableSeq := t.seq, tableSets := s.tableSets ++ [t], tableReports := s.tableReports ++ [t.seq], reports := own }.joinSet.enrol t.time

/-- Sets in ascending order of their numbers. -/
def insertSet (t : TableSet) : List TableSet → List TableSet
  | [] => [t]
  | u :: l => if t.seq ≤ u.seq then t :: u :: l else u :: insertSet t l

/-- `TABLE_SET_RECEIVE` (R439): a set, and whether all of it has come; a whole one is applied at the next turn boundary. -/
def execTableSetReceive (s : State) : Out :=
  .next (match s.input with
    | .tables t whole => if whole && decide (s.tableSeq < t.seq) then { s with tablesDue := insertSet t s.tablesDue } else s
    | _ => s)

/-- The whole sets that have come are applied, at a turn boundary (R439): each that is above the highest applied. -/
def State.applyDue (s : State) : State :=
  s.tablesDue.foldl (fun s t => if s.tableSeq < t.seq then s.applyTables t else s) { s with tablesDue := [] }

/-- `TABLE_SEQUENCE_REPORT` (R439): a module's serial and the highest number it has applied. A leader with reports of a majority
sends each the sets above its own. -/
def execTableSequenceReport (s : State) : Out :=
  .next (match s.input with
    | .num2 serial q =>
      if s.role ≠ .leader ∨ !s.listed serial then s
      else
        let s := { s with reports := (s.reports.filter fun r => r.1 != serial) ++ [(serial, q)] }
        if 2 * s.reports.length ≤ s.manifest.length then s
        else
          let due := s.reports.flatMap fun r => (s.tableSets.filter fun t => decide (r.2 < t.seq)).map fun t => (r.1, t.seq)
          { s with tablesSent := s.tablesSent ++ due.filter fun d => !s.tablesSent.contains d }
    | _ => s)

end Sys2Proof.Machine
end

