-- ==== Sys2Proof/Machine/Fabric.lean ====
section
/-!
DEFINITION. The optical fabric (R304 to R311): turns and rotors, flits and retry, direct and relayed paths.
-/
namespace Sys2Proof.Machine

/-! ## Rotors (R304) -/

/-- o(r, t). -/
def rotorOffset (r t : Nat) : Nat := if r = 127 ∧ t = 3 then 1 else if r < 64 then 4 * r + t + 1 else 511 - 4 * (r - 64) - t

/-- A wavelength of a fibre is in use; a fibre with none, or one that the cabling check took out, connects nothing (R306, R437). -/
def State.waveUp (s : State) (f w : Nat) : Bool := decide (Tab.get 0 s.waveFails (f * 32 + w) < 16)
def State.wavesOf (s : State) (f : Nat) : List Nat := (List.range 32).filter (s.waveUp f)
def State.fibreUp (s : State) (f : Nat) : Bool := !s.fibresOut.contains f && !(s.wavesOf f).isEmpty

/-- The module that rotor r connects module m to in a turn of phase t. -/
def rotorPeer (m r t : Nat) : Nat := (m + rotorOffset r t) % 512
/-- The rotors in use, each with its peer, in a turn: peers of the domain (R304). -/
def State.peers (s : State) (turn : Nat) : List (Nat × Nat) :=
  (List.range 128).filterMap fun r =>
    let p := rotorPeer s.ownMid r (turn % 4)
    if s.fibreUp r && s.inDomain p then some (r, p) else none
/-- The rotor that leads to a module in a turn. -/
def State.rotorTo (s : State) (dst turn : Nat) : Option Nat := ((s.peers turn).find? fun p => p.2 == dst).map Prod.fst

/-- Turns until module m is itself connected to `dst`, from the turn `turn` on: every pair is connected within a round. -/
def turnsTo (m dst turn : Nat) : Nat :=
  ((List.range 4).find? fun k => (List.range 128).any fun r => rotorPeer m r ((turn + k) % 4) == dst).getD 4

/-! ## Sending (R306, R308, R309) -/

/-- The turn that TIME is in (R304): `State.turn` is the last whose beginning has been served. -/
def State.turnNow (s : State) : Nat := s.time / turnLen
/-- Whether the fabric carries flits for this module: outside bells and the reconfiguration gap, in a domain (R304, R305, R311). -/
def State.sends (s : State) : Bool := !s.bellIn && s.admitted && decide (40 ≤ s.time % turnLen)
/-- Whether enough of the turn is left for `n` flits on the wavelengths of a fibre, 9 ns each (R306). -/
def State.turnFits (s : State) (r n : Nat) : Bool :=
  let w := (s.wavesOf r).length
  decide (s.time % turnLen + 9 * ((n + w - 1) / w) ≤ turnLen)

/-- The turn at whose end a flit's acknowledgement is due: the link with no reverse is acknowledged in the next (R306). -/
def State.ackDue (s : State) (r : Nat) : Nat := if r = 127 ∧ s.turnNow % 4 = 3 then s.turnNow + 1 else s.turnNow

/-- The flits of a packet leave on a fibre, over its wavelengths in use. -/
def State.emit (s : State) (p : Packet) (r : Nat) : State :=
  let ws := s.wavesOf r
  let via := if p.relayed && p.src == s.ownMid then some (rotorPeer s.ownMid r (s.turnNow % 4)) else none
  { s with sentFlits := s.sentFlits ++ (List.range p.flits).map fun i =>
      { src := p.src, packet := p.num, dst := p.dst, index := p.first + i, fibre := r, wave := ws.getD (i % ws.length) 0,
        turn := s.turnNow, due := s.ackDue r, via := via } }

/-- A share of a relay buffer, in flits of 72 bytes (R309). -/
def relayShare : Nat := 131072 / 72
/-- This module's credit at an intermediate (R309). -/
def State.relayRoom (s : State) (m : Nat) (p : Packet) : Bool :=
  decide (((s.relayUsed.filter fun u => u.1 == m).foldl (fun a u => a + u.2.2) 0) + p.flits ≤ relayShare)

/-- A flit of a packet of this module has left the intermediate m: its credit is back (R309). -/
def State.relayCredit (s : State) (m n : Nat) : State :=
  { s with relayUsed := (s.relayUsed.map fun u => if u.1 = m ∧ u.2.1 = n then (m, n, u.2.2 - 1) else u).filter fun u => u.2.2 != 0 }

/-- The intermediate whose own connection to the destination comes soonest, ties to the lower rotor (R308). -/
def State.intermediate (s : State) (p : Packet) : Option (Nat × Nat) :=
  ((s.peers s.turnNow).filter fun c => c.2 != p.dst).foldl (fun (b : Option (Nat × Nat)) c =>
    match b with
    | some x => if turnsTo c.2 p.dst s.turnNow < turnsTo x.2 p.dst s.turnNow then some c else b
    | none => some c) none

/-- The last packet of a remote operation has been sent: its credits go back (R311). The last packet of a get is the other module's,
so its credits go back when the operation ends. -/
def State.opSent (s : State) (id : Option Nat) : State :=
  match id with
  | none => s
  | some n =>
    let due (o : RemoteOp) : Bool := o.id == n && o.leave && o.kind != .get
    let s := match s.remotes.find? due with
      | some o => s.returnLeave (clusterOf o.key) 4
      | none => s
    { s with remotes := s.remotes.map fun o => if o.id = n then { o with sent := true, leave := o.leave && !due o } else o }

/-- `PACKET_SEND` of a packet by its number (R308): direct now or in the next turn, else relayed. -/
def execPacketSend (s : State) : Out :=
  .next (match s.input with
    | .num n =>
      match s.outbox.find? fun p => p.num == n with
      | none => s
      | some p =>
        if !s.sends then s
        else
          let gone := { s with outbox := s.outbox.erase p }
          match (s.rotorTo p.dst s.turnNow).filter fun r => s.turnFits r p.flits with
          | some r => (gone.emit p r).opSent p.last
          | none =>
            if (s.rotorTo p.dst (s.turnNow + 1)).isSome then s
            else
              match s.intermediate p with
              | some (r, m) =>
                if !s.relayRoom m p || !s.turnFits r p.flits then s
                else ({ gone with relayUsed := gone.relayUsed ++ [(m, p.num, p.flits)] }.emit { p with relayed := true } r).opSent p.last
              | none => s
    | _ => s)

/-- `RELAY_FORWARD` of another module's packet (R308): its flits go direct, at the connection to its destination, and the source has
their credit again (R309), once for each. -/
def execRelayForward (s : State) : Out :=
  .next (match s.input with
    | .num2 src n =>
      match s.relay.find? fun p => p.src == src && p.num == n with
      | none => s
      | some p =>
        match (s.rotorTo p.dst s.turnNow).filter fun r => s.sends && s.turnFits r p.flits with
        | some r =>
          let s : State := { s with relay := s.relay.erase p, creditsSent := s.creditsSent ++ List.replicate (if p.relayed then p.flits else 0) (src, n) }
          s.emit p r
        | none => s
    | _ => s)

/-! ## Receiving and retry (R306) -/

/-- An acknowledged flit: its wavelength works, unless it is out of use until the next great bell. -/
def State.flitAcked (s : State) (src n i : Nat) : State :=
  let hit (f : SentFlit) : Bool := f.src == src && f.packet == n && f.index == i
  let s := match s.sentFlits.find? hit with
    | some f => if s.waveUp f.fibre f.wave then { s with waveFails := Tab.set 0 s.waveFails (f.fibre * 32 + f.wave) 0 } else s
    | none => s
  { s with sentFlits := s.sentFlits.filter fun f => !hit f }

/-- A source's flits in the relay buffer fill no more than its share (R309). -/
def State.shareOpen (s : State) (src : Nat) : Bool :=
  decide ((s.relay.filter fun p => p.src == src).foldl (fun a p => a + p.flits) 0 < relayShare)

/-- A whole flit, not seen before: it is kept, or, where it is for another module, waits in the relay buffer (R308). -/
def State.keepFlit (s : State) (f : Flit) : State :=
  let s := { s with received := s.received ++ [(f.source, f.packet, f.index)] }
  if f.dst = s.ownMid then s
  else
    let p : Packet := { src := f.source, dst := f.dst, num := f.packet, first := f.index, flits := 1, relayed := true, last := none }
    { s with relay := s.relay ++ [p] }.later .relayForward (.num2 f.source f.packet)

/-- The acknowledgement of a flit (R306): in the same turn, on the rotor that leads back to whoever sent it, where that is in use; for
the link with no reverse, in the following turn. The sender of a flit that came on rotor r of this turn lies r's offset before this
module. -/
def State.ackFlit (s : State) (f : Flit) : State :=
  let k := (f.source, f.packet, f.index)
  let from' := (s.ownMid + 512 - rotorOffset f.fibre (s.turnNow % 4)) % 512
  if f.fibre = 127 ∧ s.turnNow % 4 = 3 then { s with acksOwed := s.acksOwed ++ [(s.turnNow + 1, k)] }
  else if (s.rotorTo from' s.turnNow).isSome then { s with acksSent := s.acksSent ++ [k] }
  else s

/-- The acknowledgements owed in a turn go out on rotor 64, where it is in use and no bell silences the fabric (R306, R311). -/
def State.payAcks (s : State) (turn : Nat) : State :=
  let due := (s.acksOwed.filter fun a => a.1 == turn).map Prod.snd
  { s with acksOwed := s.acksOwed.filter fun a => decide (turn < a.1),
           acksSent := if !s.bellIn && decide (s.time < s.nextBell) && s.admitted && s.fibreUp 64 then s.acksSent ++ due else s.acksSent }

/-- `FLIT_RECEIVE`: a flit is checked, acknowledged and kept once; or, as three numbers, the acknowledgement of a flit that this hub has
sent; or, as two, the credit of a flit that has left an intermediate. In a bell and in the gap nothing comes, and outside a domain
nothing is sent (R304, R305, R397). -/
def execFlitReceive (s : State) : Out :=
  .next (
    if !s.sends then s
    else
      match s.input with
      | .num3 src n i => s.flitAcked src n i
      | .num2 m n => s.relayCredit m n
      | .flit f =>
        let k := (f.source, f.packet, f.index)
        if !f.crcOk then s.raiseCheck (fabricEvent 0x30 f.fibre f.wave)
        else if s.received.contains k then s.ackFlit f
        else if f.dst ≠ s.ownMid ∧ !s.shareOpen f.source then s
        else (s.ackFlit f).keepFlit f
      | _ => s)

/-- One more failure of a wavelength; the sixteenth in a row takes it out of use (R306). -/
def State.waveFailed (s : State) (f w : Nat) : State :=
  let n := min 16 (Tab.get 0 s.waveFails (f * 32 + w) + 1)
  let s' := { s with waveFails := Tab.set 0 s.waveFails (f * 32 + w) n }
  if n = 16 ∧ s.waveUp f w then s'.raiseCheck (fabricEvent 0x31 f w) else s'

/-- `FLIT_ACK_TIMEOUT` of a flit (source, packet, index): on another wavelength of its connection if time remains in its turn,
else, once its acknowledgement is overdue, by the next path (R306); the share that it had at an intermediate is free again (R309). -/
def execFlitAckTimeout (s : State) : Out :=
  .next (match s.input with
    | .num3 src n i =>
      match s.sentFlits.find? fun f => f.src == src && f.packet == n && f.index == i with
      | none => s
      | some f =>
        let s' := { s with sentFlits := s.sentFlits.erase f }.waveFailed f.fibre f.wave
        let ws := (s'.wavesOf f.fibre).filter fun w => w != f.wave
        if s.turnNow = f.turn ∧ s.sends ∧ s'.turnFits f.fibre 1 ∧ !ws.isEmpty ∧ s.fibreUp f.fibre then
          { s' with sentFlits := s'.sentFlits ++ [{ f with wave := ws.getD 0 0 }] }
        else if s.turnNow ≤ f.due then s
        else
          let p : Packet := { src := src, dst := f.dst, num := n, first := i, flits := 1, relayed := false, last := none }
          let s' := match f.via with | some m => s'.relayCredit m n | none => s'
          if src = s.ownMid then { s' with outbox := s'.outbox ++ [p] }.later .packetSend (.num n)
          else { s' with relay := s'.relay ++ [p] }.later .relayForward (.num2 src n)
    | _ => s)

/-! ## Turns (R304, R305, R437, R438) -/

/-- This module's TIME less the peer's, with the fibre delay, which is the same both ways, removed. -/
def exchangeOffset (x : Exchange) : Int := (x.sent - x.seen + (x.arrived - x.peerSent)) / 2

/-- The exchanges of the gap before a turn: one with the peer of each rotor, but that of rotor 127 before phase 3 (R305). -/
def State.exchanges (s : State) (turn : Nat) (l : List Exchange) : List Exchange :=
  l.filter fun x => s.fibreUp x.rotor && decide (x.rotor < 128) && !(x.rotor == 127 && turn % 4 == 3)

/-- TIME's rate over a turn is `ppm` fast, but TIME never goes backwards. -/
def State.slew (s : State) (ppm : Int) : State :=
  let t := { s with timeOff := s.timeOff + ppm * turnLen }
  if t.time < s.time then s else t

/-- Steering towards the reference through the peers closer to it: slower where this module is ahead of them, faster where it is
behind, by at most 200 ppm (R305); the leader is the reference, and a module outside a domain keeps its own TIME. -/
def State.steer (s : State) (xs : List Exchange) (ppm : Nat) : State :=
  if !s.admitted ∨ s.role = .leader then s
  else
    let ahead := ((xs.filter Exchange.closer).map exchangeOffset).foldl (· + ·) 0
    s.slew (if ahead > 0 then -(min 200 ppm : Nat) else if ahead < 0 then (min 200 ppm : Nat) else 0)

/-- The exchanges before a turn: the offsets, and the steering by them. -/
def State.align (s : State) (turn : Nat) (l : List Exchange) (ppm : Nat) : State :=
  let xs := s.exchanges turn l
  { s with offsets := xs.map fun (x : Exchange) => (x.rotor, exchangeOffset x) }.steer xs ppm

/-- The cabling check (R437): a fibre whose peer's serial is not the predicted one is taken out of use. The input's list holds,
for each rotor that reports, its number · 2^64 + the serial. -/
def State.checkCabling (s : State) (l : List Nat) : State :=
  match s.manifestMid with
  | none => s
  | some m =>
    let bad (x : Nat) : Bool :=
      (s.manifest.find? fun e => e.2 == rotorPeer m (x / 2 ^ 64 % 128) (s.turn % 4)).map Prod.fst != some (x % 2 ^ 64)
    let out := (l.filter bad).map fun x => x / 2 ^ 64 % 128
    out.foldl (fun s f => s.raiseCheck (fabricEvent 0x31 f 0)) { s with fibresOut := (s.fibresOut ++ out).eraseDups, cabled := true }

/-- `TURN_BOUNDARY` (R304): the next turn begins; whole sets of tables that have come are applied (R439); a leader sends its heartbeat, TIME is steered, and the cabling is checked in the
first turn. Waiting packets look for their path again. -/
def execTurnBoundary (s : State) : Out :=
  .next (
    let n := s.turnNow
    if n ≤ s.turn then s
    else
      let s := ({ s with turn := n }.payAcks n).applyDue
      let s := if s.role = .leader then s.announce 2 s.serial else s
      let s := match s.input with
        | .exchange l ppm => s.align n l ppm
        | .list l => if s.cabled then s else s.checkCabling l
        | _ => s
      let s := s.outbox.foldl (fun s p => s.later .packetSend (.num p.num)) s
      s.relay.foldl (fun s p => s.later .relayForward (.num2 p.src p.num)) s)

end Sys2Proof.Machine
end

