-- ==== Sys2Proof/Machine/Dispatch.lean ====
section
/-!
DEFINITION. The dispatch: one arm per constructor of `Instr`, each a direct call of that instruction's meaning.
-/
namespace Sys2Proof.Machine

def exec (i : Instr) (s : State) : Host.Outcome State Fault Refusal :=
  match i with
  | .add d a b => Sys2Proof.Machine.execAdd d a b s
  | .sub d a b => Sys2Proof.Machine.execSub d a b s
  | .and d a b => Sys2Proof.Machine.execAnd d a b s
  | .or d a b => Sys2Proof.Machine.execOr d a b s
  | .xor d a b => Sys2Proof.Machine.execXor d a b s
  | .andn d a b => Sys2Proof.Machine.execAndn d a b s
  | .orn d a b => Sys2Proof.Machine.execOrn d a b s
  | .shl d a b => Sys2Proof.Machine.execShl d a b s
  | .shr d a b => Sys2Proof.Machine.execShr d a b s
  | .sar d a b => Sys2Proof.Machine.execSar d a b s
  | .rot d a b => Sys2Proof.Machine.execRot d a b s
  | .minI64 d a b => Sys2Proof.Machine.execMinI64 d a b s
  | .maxI64 d a b => Sys2Proof.Machine.execMaxI64 d a b s
  | .minN64 d a b => Sys2Proof.Machine.execMinN64 d a b s
  | .maxN64 d a b => Sys2Proof.Machine.execMaxN64 d a b s
  | .mov d a => Sys2Proof.Machine.execMov d a s
  | .mul d a b => Sys2Proof.Machine.execMul d a b s
  | .mulhI64 d a b => Sys2Proof.Machine.execMulhI64 d a b s
  | .mulhN64 d a b => Sys2Proof.Machine.execMulhN64 d a b s
  | .divI64 d a b => Sys2Proof.Machine.execDivI64 d a b s
  | .divN64 d a b => Sys2Proof.Machine.execDivN64 d a b s
  | .remI64 d a b => Sys2Proof.Machine.execRemI64 d a b s
  | .remN64 d a b => Sys2Proof.Machine.execRemN64 d a b s
  | .clz d a => Sys2Proof.Machine.execClz d a s
  | .ctz d a => Sys2Proof.Machine.execCtz d a s
  | .popc d a => Sys2Proof.Machine.execPopc d a s
  | .bswap d a => Sys2Proof.Machine.execBswap d a s
  | .extI8 d a => Sys2Proof.Machine.execExtI8 d a s
  | .extI16 d a => Sys2Proof.Machine.execExtI16 d a s
  | .extI32 d a => Sys2Proof.Machine.execExtI32 d a s
  | .extN8 d a => Sys2Proof.Machine.execExtN8 d a s
  | .extN16 d a => Sys2Proof.Machine.execExtN16 d a s
  | .extN32 d a => Sys2Proof.Machine.execExtN32 d a s
  | .cmp c d a b => Sys2Proof.Machine.execCmp c d a b s
  | .pand d a b => Sys2Proof.Machine.execPand d a b s
  | .por d a b => Sys2Proof.Machine.execPor d a b s
  | .pxor d a b => Sys2Proof.Machine.execPxor d a b s
  | .pnot d a => Sys2Proof.Machine.execPnot d a s
  | .pmov d a => Sys2Proof.Machine.execPmov d a s
  | .sel q d a b => Sys2Proof.Machine.execSel q d a b s
  | .lea sc d a b => Sys2Proof.Machine.execLea sc d a b s
  | .addImmediate im d a => Sys2Proof.Machine.execAddImmediate im d a s
  | .andImmediate im d a => Sys2Proof.Machine.execAndImmediate im d a s
  | .orImmediate im d a => Sys2Proof.Machine.execOrImmediate im d a s
  | .xorImmediate im d a => Sys2Proof.Machine.execXorImmediate im d a s
  | .shlImmediate n d a => Sys2Proof.Machine.execShlImmediate n d a s
  | .shrImmediate n d a => Sys2Proof.Machine.execShrImmediate n d a s
  | .sarImmediate n d a => Sys2Proof.Machine.execSarImmediate n d a s
  | .rotImmediate n d a => Sys2Proof.Machine.execRotImmediate n d a s
  | .mulImmediate im d a => Sys2Proof.Machine.execMulImmediate im d a s
  | .cmpi c im d a => Sys2Proof.Machine.execCmpi c im d a s
  | .movi im d => Sys2Proof.Machine.execMovi im d s
  | .ld ty o d a => Sys2Proof.Machine.execLd ty o d a s
  | .st ty o d a => Sys2Proof.Machine.execSt ty o d a s
  | .pfL1 o a => Sys2Proof.Machine.execPfL1 o a s
  | .pfCc o a => Sys2Proof.Machine.execPfCc o a s
  | .pfL2 o a => Sys2Proof.Machine.execPfL2 o a s
  | .br o n p => Sys2Proof.Machine.execBr o n p s
  | .jmp o => Sys2Proof.Machine.execJmp o s
  | .call o => Sys2Proof.Machine.execCall o s
  | .jmpr a => Sys2Proof.Machine.execJmpr a s
  | .callr a => Sys2Proof.Machine.execCallr a s
  | .ret => Sys2Proof.Machine.execRet s
  | .srGet n d => Sys2Proof.Machine.execSrGet n d s
  | .srSet n a => Sys2Proof.Machine.execSrSet n a s
  | .srSwap n d a => Sys2Proof.Machine.execSrSwap n d a s
  | .nop => Sys2Proof.Machine.execNop s
  | .trap n => Sys2Proof.Machine.execTrap n s
  | .tret => Sys2Proof.Machine.execTret s
  | .tack => Sys2Proof.Machine.execTack s
  | .halt => Sys2Proof.Machine.execHalt s
  | .yield => Sys2Proof.Machine.execYield s
  | .fenceAcq c => Sys2Proof.Machine.execFenceAcq c s
  | .fenceRel c => Sys2Proof.Machine.execFenceRel c s
  | .fenceAr c => Sys2Proof.Machine.execFenceAr c s
  | .cflWt a => Sys2Proof.Machine.execCflWt a s
  | .cflInv a => Sys2Proof.Machine.execCflInv a s
  | .cflWi a => Sys2Proof.Machine.execCflWi a s
  | .tlbiPage a => Sys2Proof.Machine.execTlbiPage a s
  | .tlbiAsn a => Sys2Proof.Machine.execTlbiAsn a s
  | .tlbiAll => Sys2Proof.Machine.execTlbiAll s
  | .waitNe d a b => Sys2Proof.Machine.execWaitNe d a b s
  | .waitEq d a b => Sys2Proof.Machine.execWaitEq d a b s
  | .waitGe d a b => Sys2Proof.Machine.execWaitGe d a b s
  | .li h d lit => Sys2Proof.Machine.execLi h d lit s
  | .lihi h d lit => Sys2Proof.Machine.execLihi h d lit s
  | .addLiteral h d a lit => Sys2Proof.Machine.execAddLiteral h d a lit s
  | .subLiteral h d a lit => Sys2Proof.Machine.execSubLiteral h d a lit s
  | .andLiteral h d a lit => Sys2Proof.Machine.execAndLiteral h d a lit s
  | .orLiteral h d a lit => Sys2Proof.Machine.execOrLiteral h d a lit s
  | .xorLiteral h d a lit => Sys2Proof.Machine.execXorLiteral h d a lit s
  | .andnLiteral h d a lit => Sys2Proof.Machine.execAndnLiteral h d a lit s
  | .ornLiteral h d a lit => Sys2Proof.Machine.execOrnLiteral h d a lit s
  | .shlLiteral h d a lit => Sys2Proof.Machine.execShlLiteral h d a lit s
  | .shrLiteral h d a lit => Sys2Proof.Machine.execShrLiteral h d a lit s
  | .sarLiteral h d a lit => Sys2Proof.Machine.execSarLiteral h d a lit s
  | .rotLiteral h d a lit => Sys2Proof.Machine.execRotLiteral h d a lit s
  | .minI64Literal h d a lit => Sys2Proof.Machine.execMinI64Literal h d a lit s
  | .maxI64Literal h d a lit => Sys2Proof.Machine.execMaxI64Literal h d a lit s
  | .minN64Literal h d a lit => Sys2Proof.Machine.execMinN64Literal h d a lit s
  | .maxN64Literal h d a lit => Sys2Proof.Machine.execMaxN64Literal h d a lit s
  | .movLiteral h d lit => Sys2Proof.Machine.execMovLiteral h d lit s
  | .mulLiteral h d a lit => Sys2Proof.Machine.execMulLiteral h d a lit s
  | .mulhI64Literal h d a lit => Sys2Proof.Machine.execMulhI64Literal h d a lit s
  | .mulhN64Literal h d a lit => Sys2Proof.Machine.execMulhN64Literal h d a lit s
  | .divI64Literal h d a lit => Sys2Proof.Machine.execDivI64Literal h d a lit s
  | .divN64Literal h d a lit => Sys2Proof.Machine.execDivN64Literal h d a lit s
  | .remI64Literal h d a lit => Sys2Proof.Machine.execRemI64Literal h d a lit s
  | .remN64Literal h d a lit => Sys2Proof.Machine.execRemN64Literal h d a lit s
  | .cmpLiteral h c d a lit => Sys2Proof.Machine.execCmpLiteral h c d a lit s
  | .brLong h lit => Sys2Proof.Machine.execBrLong h lit s
  | .callLong h lit => Sys2Proof.Machine.execCallLong h lit s
  | .ldLong h ty acq sc d a b lit => Sys2Proof.Machine.execLdLong h ty acq sc d a b lit s
  | .stLong h ty rel sc d a b lit => Sys2Proof.Machine.execStLong h ty rel sc d a b lit s
  | .bfxI64 h d a pos w => Sys2Proof.Machine.execBfxI64 h d a pos w s
  | .bfxN64 h d a pos w => Sys2Proof.Machine.execBfxN64 h d a pos w s
  | .bfi h d a pos w => Sys2Proof.Machine.execBfi h d a pos w s
  | .amoAdd h ty o c d a b => Sys2Proof.Machine.execAmoAdd h ty o c d a b s
  | .amoAnd h ty o c d a b => Sys2Proof.Machine.execAmoAnd h ty o c d a b s
  | .amoOr h ty o c d a b => Sys2Proof.Machine.execAmoOr h ty o c d a b s
  | .amoXor h ty o c d a b => Sys2Proof.Machine.execAmoXor h ty o c d a b s
  | .amoMin h ty o c d a b => Sys2Proof.Machine.execAmoMin h ty o c d a b s
  | .amoMax h ty o c d a b => Sys2Proof.Machine.execAmoMax h ty o c d a b s
  | .amoSwap h ty o c d a b => Sys2Proof.Machine.execAmoSwap h ty o c d a b s
  | .amoFadd h ty o c d a b => Sys2Proof.Machine.execAmoFadd h ty o c d a b s
  | .cas h ty o c d a b => Sys2Proof.Machine.execCas h ty o c d a b s
  | .vadd h k ty d a b => Sys2Proof.Machine.execVadd h k ty d a b s
  | .vsub h k ty d a b => Sys2Proof.Machine.execVsub h k ty d a b s
  | .vmul h k ty d a b => Sys2Proof.Machine.execVmul h k ty d a b s
  | .vaddSat h k ty d a b => Sys2Proof.Machine.execVaddSat h k ty d a b s
  | .vsubSat h k ty d a b => Sys2Proof.Machine.execVsubSat h k ty d a b s
  | .vmin h k ty d a b => Sys2Proof.Machine.execVmin h k ty d a b s
  | .vmax h k ty d a b => Sys2Proof.Machine.execVmax h k ty d a b s
  | .vabs h k ty d a => Sys2Proof.Machine.execVabs h k ty d a s
  | .vneg h k ty d a => Sys2Proof.Machine.execVneg h k ty d a s
  | .vand h k ty d a b => Sys2Proof.Machine.execVand h k ty d a b s
  | .vor h k ty d a b => Sys2Proof.Machine.execVor h k ty d a b s
  | .vxor h k ty d a b => Sys2Proof.Machine.execVxor h k ty d a b s
  | .vandn h k ty d a b => Sys2Proof.Machine.execVandn h k ty d a b s
  | .vshl h k ty d a b => Sys2Proof.Machine.execVshl h k ty d a b s
  | .vshr h k ty d a b => Sys2Proof.Machine.execVshr h k ty d a b s
  | .vsar h k ty d a b => Sys2Proof.Machine.execVsar h k ty d a b s
  | .vshlImmediate h k ty d a n => Sys2Proof.Machine.execVshlImmediate h k ty d a n s
  | .vshrImmediate h k ty d a n => Sys2Proof.Machine.execVshrImmediate h k ty d a n s
  | .vsarImmediate h k ty d a n => Sys2Proof.Machine.execVsarImmediate h k ty d a n s
  | .vmov h k ty d a => Sys2Proof.Machine.execVmov h k ty d a s
  | .vectorBroadcastLiteral h k op ty d a lit => Sys2Proof.Machine.execVectorBroadcastLiteral h k op ty d a lit s
  | .vaddFloat h k ty rm d a b => Sys2Proof.Machine.execVaddFloat h k ty rm d a b s
  | .vsubFloat h k ty rm d a b => Sys2Proof.Machine.execVsubFloat h k ty rm d a b s
  | .vmulFloat h k ty rm d a b => Sys2Proof.Machine.execVmulFloat h k ty rm d a b s
  | .vfma h k ty rm d a b => Sys2Proof.Machine.execVfma h k ty rm d a b s
  | .vfms h k ty rm d a b => Sys2Proof.Machine.execVfms h k ty rm d a b s
  | .vminFloat h k ty d a b => Sys2Proof.Machine.execVminFloat h k ty d a b s
  | .vmaxFloat h k ty d a b => Sys2Proof.Machine.execVmaxFloat h k ty d a b s
  | .vabsFloat h k ty d a => Sys2Proof.Machine.execVabsFloat h k ty d a s
  | .vnegFloat h k ty d a => Sys2Proof.Machine.execVnegFloat h k ty d a s
  | .vdiv h k ty rm d a b => Sys2Proof.Machine.execVdiv h k ty rm d a b s
  | .vsqrt h k ty rm d a => Sys2Proof.Machine.execVsqrt h k ty rm d a s
  | .vcmp h m c ty d a b => Sys2Proof.Machine.execVcmp h m c ty d a b s
  | .vsel h m ty d a b => Sys2Proof.Machine.execVsel h m ty d a b s
  | .mand h d a b => Sys2Proof.Machine.execMand h d a b s
  | .mor h d a b => Sys2Proof.Machine.execMor h d a b s
  | .mxor h d a b => Sys2Proof.Machine.execMxor h d a b s
  | .mnot h d a => Sys2Proof.Machine.execMnot h d a s
  | .mcnt h d a => Sys2Proof.Machine.execMcnt h d a s
  | .mfirst h d a => Sys2Proof.Machine.execMfirst h d a s
  | .vcvt h k dt sty rm sat d a => Sys2Proof.Machine.execVcvt h k dt sty rm sat d a s
  | .vsplit3 h k d a => Sys2Proof.Machine.execVsplit3 h k d a s
  | .vperm h k ty d a b => Sys2Proof.Machine.execVperm h k ty d a b s
  | .vzip h k ty d a b hi => Sys2Proof.Machine.execVzip h k ty d a b hi s
  | .vuzp h k ty d a b odd => Sys2Proof.Machine.execVuzp h k ty d a b odd s
  | .vbcast h k ty d a => Sys2Proof.Machine.execVbcast h k ty d a s
  | .vext h ty d a b => Sys2Proof.Machine.execVext h ty d a b s
  | .vins h ty d a b => Sys2Proof.Machine.execVins h ty d a b s
  | .vredAdd h m ty d a => Sys2Proof.Machine.execVredAdd h m ty d a s
  | .vredMin h m ty d a => Sys2Proof.Machine.execVredMin h m ty d a s
  | .vredMax h m ty d a => Sys2Proof.Machine.execVredMax h m ty d a s
  | .vredAnd h m ty d a => Sys2Proof.Machine.execVredAnd h m ty d a s
  | .vredOr h m ty d a => Sys2Proof.Machine.execVredOr h m ty d a s
  | .vredXor h m ty d a => Sys2Proof.Machine.execVredXor h m ty d a s
  | .vscanAdd h k ty d a => Sys2Proof.Machine.execVscanAdd h k ty d a s
  | .vscanMin h k ty d a => Sys2Proof.Machine.execVscanMin h k ty d a s
  | .vscanMax h k ty d a => Sys2Proof.Machine.execVscanMax h k ty d a s
  | .vscanAnd h k ty d a => Sys2Proof.Machine.execVscanAnd h k ty d a s
  | .vscanOr h k ty d a => Sys2Proof.Machine.execVscanOr h k ty d a s
  | .vscanXor h k ty d a => Sys2Proof.Machine.execVscanXor h k ty d a s
  | .vexp2 h k ty d a => Sys2Proof.Machine.execVexp2 h k ty d a s
  | .vlog2 h k ty d a => Sys2Proof.Machine.execVlog2 h k ty d a s
  | .vrcp h k ty d a => Sys2Proof.Machine.execVrcp h k ty d a s
  | .vrsqrt h k ty d a => Sys2Proof.Machine.execVrsqrt h k ty d a s
  | .vsinpi h k ty d a => Sys2Proof.Machine.execVsinpi h k ty d a s
  | .vcospi h k ty d a => Sys2Proof.Machine.execVcospi h k ty d a s
  | .vtanh h k ty d a => Sys2Proof.Machine.execVtanh h k ty d a s
  | .vdot h k ty d a b => Sys2Proof.Machine.execVdot h k ty d a b s
  | .vkeyMort h k ty d a n => Sys2Proof.Machine.execVkeyMort h k ty d a n s
  | .vkeyHilb h k ty d a n => Sys2Proof.Machine.execVkeyHilb h k ty d a n s
  | .vclass h k ty d a => Sys2Proof.Machine.execVclass h k ty d a s
  | .viota h k ty d => Sys2Proof.Machine.execViota h k ty d s
  | .vld h k ty d a im => Sys2Proof.Machine.execVld h k ty d a im s
  | .vlds h k ty d a b im => Sys2Proof.Machine.execVlds h k ty d a b im s
  | .vldsLiteral h k ty d a lit => Sys2Proof.Machine.execVldsLiteral h k ty d a lit s
  | .vgat h k ty d a b sc => Sys2Proof.Machine.execVgat h k ty d a b sc s
  | .vldb h k ty d a im => Sys2Proof.Machine.execVldb h k ty d a im s
  | .vst h m ty d a im => Sys2Proof.Machine.execVst h m ty d a im s
  | .vsts h m ty d a b im => Sys2Proof.Machine.execVsts h m ty d a b im s
  | .vstsLiteral h m ty d a lit => Sys2Proof.Machine.execVstsLiteral h m ty d a lit s
  | .vsct h m ty d a b sc => Sys2Proof.Machine.execVsct h m ty d a b sc s
  | .tld h d a b rows rb => Sys2Proof.Machine.execTld h d a b rows rb s
  | .tldLiteral h d a rows rb lit => Sys2Proof.Machine.execTldLiteral h d a rows rb lit s
  | .tldT2 h d a b rows rb => Sys2Proof.Machine.execTldT2 h d a b rows rb s
  | .tldT2Literal h d a rows rb lit => Sys2Proof.Machine.execTldT2Literal h d a rows rb lit s
  | .tst h d a b rows rb => Sys2Proof.Machine.execTst h d a b rows rb s
  | .tstLiteral h d a rows rb lit => Sys2Proof.Machine.execTstLiteral h d a rows rb lit s
  | .tstT2 h d a b rows rb => Sys2Proof.Machine.execTstT2 h d a b rows rb s
  | .tstT2Literal h d a rows rb lit => Sys2Proof.Machine.execTstT2Literal h d a rows rb lit s
  | .tzero h d => Sys2Proof.Machine.execTzero h d s
  | .tmov h d a => Sys2Proof.Machine.execTmov h d a s
  | .tr2v h d a row hi => Sys2Proof.Machine.execTr2v h d a row hi s
  | .v2tr h d a row hi => Sys2Proof.Machine.execV2tr h d a row hi s
  | .tdisc h list => Sys2Proof.Machine.execTdisc h list s
  | .tstat h d x => Sys2Proof.Machine.execTstat h d x s
  | .wld h ty a => Sys2Proof.Machine.execWld h ty a s
  | .wldT2 h a => Sys2Proof.Machine.execWldT2 h a s
  | .wldT2Memory h a lit => Sys2Proof.Machine.execWldT2Memory h a lit s
  | .wldPip h a lit => Sys2Proof.Machine.execWldPip h a lit s
  | .wflip h => Sys2Proof.Machine.execWflip h s
  | .tmul h ty d a => Sys2Proof.Machine.execTmul h ty d a s
  | .tmulT2i8 h d hi => Sys2Proof.Machine.execTmulT2i8 h d hi s
  | .tmulFlip h ty d a => Sys2Proof.Machine.execTmulFlip h ty d a s
  | .tmulFlipT2i8 h d hi => Sys2Proof.Machine.execTmulFlipT2i8 h d hi s
  | .azero h d => Sys2Proof.Machine.execAzero h d s
  | .aaddF32 h d a b => Sys2Proof.Machine.execAaddF32 h d a b s
  | .aaddI32 h d a b => Sys2Proof.Machine.execAaddI32 h d a b s
  | .ascale h d a b => Sys2Proof.Machine.execAscale h d a b s
  | .ald h ty d a b => Sys2Proof.Machine.execAld h ty d a b s
  | .ast h ty clamp d a b => Sys2Proof.Machine.execAst h ty clamp d a b s
  | .a2t h ty clamp d a => Sys2Proof.Machine.execA2t h ty clamp d a s
  | .roll h a b len => Sys2Proof.Machine.execRoll h a b len s
  | .leave h d n => Sys2Proof.Machine.execLeave h d n s
  | .leaveRet h => Sys2Proof.Machine.execLeaveRet h s
  | .dcp h d a ch => Sys2Proof.Machine.execDcp h d a ch s
  | .dcpLiteral h d a ch lit => Sys2Proof.Machine.execDcpLiteral h d a ch lit s
  | .dcpw h a ch => Sys2Proof.Machine.execDcpw h a ch s
  | .dcps h d ch => Sys2Proof.Machine.execDcps h d ch s
  | .dcpx h ch => Sys2Proof.Machine.execDcpx h ch s
  | .rput h d a b f => Sys2Proof.Machine.execRput h d a b f s
  | .rputLong h d a b lit => Sys2Proof.Machine.execRputLong h d a b lit s
  | .rget h d a b => Sys2Proof.Machine.execRget h d a b s
  | .ratomAdd h ty d a b => Sys2Proof.Machine.execRatomAdd h ty d a b s
  | .ratomAnd h ty d a b => Sys2Proof.Machine.execRatomAnd h ty d a b s
  | .ratomOr h ty d a b => Sys2Proof.Machine.execRatomOr h ty d a b s
  | .ratomXor h ty d a b => Sys2Proof.Machine.execRatomXor h ty d a b s
  | .ratomMin h ty d a b => Sys2Proof.Machine.execRatomMin h ty d a b s
  | .ratomMax h ty d a b => Sys2Proof.Machine.execRatomMax h ty d a b s
  | .ratomSwap h ty d a b => Sys2Proof.Machine.execRatomSwap h ty d a b s
  | .ratomFadd h ty d a b => Sys2Proof.Machine.execRatomFadd h ty d a b s
  | .rcas h ty d a b => Sys2Proof.Machine.execRcas h ty d a b s
  | .wcntArr h d a => Sys2Proof.Machine.execWcntArr h d a s
  | .wcntIss h d a => Sys2Proof.Machine.execWcntIss h d a s
  | .wcntDone h d a => Sys2Proof.Machine.execWcntDone h d a s
  | .rfence h a => Sys2Proof.Machine.execRfence h a s
  | .rpart h d a lit => Sys2Proof.Machine.execRpart h d a lit s
  | .rpstat h d a => Sys2Proof.Machine.execRpstat h d a s
  | .cbar h a => Sys2Proof.Machine.execCbar h a s
  | .credAdd h ty d a b => Sys2Proof.Machine.execCredAdd h ty d a b s
  | .credMin h ty d a b => Sys2Proof.Machine.execCredMin h ty d a b s
  | .credMax h ty d a b => Sys2Proof.Machine.execCredMax h ty d a b s
  | .cast h d a => Sys2Proof.Machine.execCast h d a s
  | .exit h a => Sys2Proof.Machine.execExit h a s
  | .gong h => Sys2Proof.Machine.execGong h s
  | .post h d a b => Sys2Proof.Machine.execPost h d a b s
  | .take h d => Sys2Proof.Machine.execTake h d s
  | .prio h a b => Sys2Proof.Machine.execPrio h a b s
  | .cinv h d a b => Sys2Proof.Machine.execCinv h d a b s
  | .cinvRe h d a b => Sys2Proof.Machine.execCinvRe h d a b s
  | .stest h d a => Sys2Proof.Machine.execStest h d a s
  | .thint h d a b pr => Sys2Proof.Machine.execThint h d a b pr s
  | .step h d a => Sys2Proof.Machine.execStep h d a s
  | .subup h a => Sys2Proof.Machine.execSubup h a s
  | .bellqPeal h d => Sys2Proof.Machine.execBellqPeal h d s
  | .bellqLen h d => Sys2Proof.Machine.execBellqLen h d s
  | .bellqNext h d => Sys2Proof.Machine.execBellqNext h d s
  | .bellw h => Sys2Proof.Machine.execBellw h s
  | .tileDrain => Sys2Proof.Machine.execTileDrain s
  | .engineChoice => Sys2Proof.Machine.execEngineChoice s
  | .engineStreamEnd => Sys2Proof.Machine.execEngineStreamEnd s
  | .leaveGrant => Sys2Proof.Machine.execLeaveGrant s
  | .recordSnapshot => Sys2Proof.Machine.execRecordSnapshot s
  | .copyChunk => Sys2Proof.Machine.execCopyChunk s
  | .cpbindWrite => Sys2Proof.Machine.execCpbindWrite s
  | .remoteOperationArrival => Sys2Proof.Machine.execRemoteOperationArrival s
  | .remoteOperationEnd => Sys2Proof.Machine.execRemoteOperationEnd s
  | .remoteOperationTimeout => Sys2Proof.Machine.execRemoteOperationTimeout s
  | .collectiveJoin => Sys2Proof.Machine.execCollectiveJoin s
  | .collectiveTimeout => Sys2Proof.Machine.execCollectiveTimeout s
  | .rpartCommit => Sys2Proof.Machine.execRpartCommit s
  | .rpartEnd => Sys2Proof.Machine.execRpartEnd s
  | .taskDistribution => Sys2Proof.Machine.execTaskDistribution s
  | .taskPlacement => Sys2Proof.Machine.execTaskPlacement s
  | .levelling => Sys2Proof.Machine.execLevelling s
  | .shareEnd => Sys2Proof.Machine.execShareEnd s
  | .windowRegister => Sys2Proof.Machine.execWindowRegister s
  | .windowRelease => Sys2Proof.Machine.execWindowRelease s
  | .taskPreempt => Sys2Proof.Machine.execTaskPreempt s
  | .taskKill => Sys2Proof.Machine.execTaskKill s
  | .taskQuery => Sys2Proof.Machine.execTaskQuery s
  | .derive => Sys2Proof.Machine.execDerive s
  | .serviceRestart => Sys2Proof.Machine.execServiceRestart s
  | .migratorHint => Sys2Proof.Machine.execMigratorHint s
  | .migrationMoveEnd => Sys2Proof.Machine.execMigrationMoveEnd s
  | .migpoolWrite => Sys2Proof.Machine.execMigpoolWrite s
  | .rds => Sys2Proof.Machine.execRds s
  | .rdf => Sys2Proof.Machine.execRdf s
  | .rdo => Sys2Proof.Machine.execRdo s
  | .up => Sys2Proof.Machine.execUp s
  | .wt => Sys2Proof.Machine.execWt s
  | .wb => Sys2Proof.Machine.execWb s
  | .dr => Sys2Proof.Machine.execDr s
  | .am => Sys2Proof.Machine.execAm s
  | .iv => Sys2Proof.Machine.execIv s
  | .ud => Sys2Proof.Machine.execUd s
  | .rc => Sys2Proof.Machine.execRc s
  | .ak => Sys2Proof.Machine.execAk s
  | .eviction => Sys2Proof.Machine.execEviction s
  | .stalePointerScrub => Sys2Proof.Machine.execStalePointerScrub s
  | .irdEnable => Sys2Proof.Machine.execIrdEnable s
  | .irdDisable => Sys2Proof.Machine.execIrdDisable s
  | .fwEnable => Sys2Proof.Machine.execFwEnable s
  | .fwInvalidate => Sys2Proof.Machine.execFwInvalidate s
  | .fwInvalidateEnd => Sys2Proof.Machine.execFwInvalidateEnd s
  | .keyProgram => Sys2Proof.Machine.execKeyProgram s
  | .keyRetire => Sys2Proof.Machine.execKeyRetire s
  | .keyRetireEnd => Sys2Proof.Machine.execKeyRetireEnd s
  | .melheadCons => Sys2Proof.Machine.execMelheadCons s
  | .slctlApply => Sys2Proof.Machine.execSlctlApply s
  | .sliceDrainEnd => Sys2Proof.Machine.execSliceDrainEnd s
  | .timerExpiry => Sys2Proof.Machine.execTimerExpiry s
  | .interrupt => Sys2Proof.Machine.execInterrupt s
  | .xprqWrite => Sys2Proof.Machine.execXprqWrite s
  | .forcedPreemption => Sys2Proof.Machine.execForcedPreemption s
  | .taskResume => Sys2Proof.Machine.execTaskResume s
  | .partitionSwap => Sys2Proof.Machine.execPartitionSwap s
  | .xctlKill => Sys2Proof.Machine.execXctlKill s
  | .bellBegin => Sys2Proof.Machine.execBellBegin s
  | .greatBellBegin => Sys2Proof.Machine.execGreatBellBegin s
  | .bellEnd => Sys2Proof.Machine.execBellEnd s
  | .bellExtension => Sys2Proof.Machine.execBellExtension s
  | .drainWindowBegin => Sys2Proof.Machine.execDrainWindowBegin s
  | .powerControllerUpdate => Sys2Proof.Machine.execPowerControllerUpdate s
  | .ringHeaterTrack => Sys2Proof.Machine.execRingHeaterTrack s
  | .selfTestRun => Sys2Proof.Machine.execSelfTestRun s
  | .selfTestEnd => Sys2Proof.Machine.execSelfTestEnd s
  | .machineCheckEvent => Sys2Proof.Machine.execMachineCheckEvent s
  | .turnBoundary => Sys2Proof.Machine.execTurnBoundary s
  | .flitReceive => Sys2Proof.Machine.execFlitReceive s
  | .flitAckTimeout => Sys2Proof.Machine.execFlitAckTimeout s
  | .packetSend => Sys2Proof.Machine.execPacketSend s
  | .relayForward => Sys2Proof.Machine.execRelayForward s
  | .electionTrigger => Sys2Proof.Machine.execElectionTrigger s
  | .claimSend => Sys2Proof.Machine.execClaimSend s
  | .claimReceive => Sys2Proof.Machine.execClaimReceive s
  | .acknowledgementReceive => Sys2Proof.Machine.execAcknowledgementReceive s
  | .claimAbandon => Sys2Proof.Machine.execClaimAbandon s
  | .heartbeatReceive => Sys2Proof.Machine.execHeartbeatReceive s
  | .tableSetReceive => Sys2Proof.Machine.execTableSetReceive s
  | .powerOnReset => Sys2Proof.Machine.execPowerOnReset s
  | .moduleResetCommand => Sys2Proof.Machine.execModuleResetCommand s
  | .partitionEnable => Sys2Proof.Machine.execPartitionEnable s
  | .partitionDisable => Sys2Proof.Machine.execPartitionDisable s
  | .drstGo => Sys2Proof.Machine.execDrstGo s
  | .warmResetRetrain => Sys2Proof.Machine.execWarmResetRetrain s
  | .getVersion => Sys2Proof.Machine.execGetVersion s
  | .getCapabilities => Sys2Proof.Machine.execGetCapabilities s
  | .negotiateAlgorithms => Sys2Proof.Machine.execNegotiateAlgorithms s
  | .getDigests => Sys2Proof.Machine.execGetDigests s
  | .getCertificate => Sys2Proof.Machine.execGetCertificate s
  | .challenge => Sys2Proof.Machine.execChallenge s
  | .getMeasurements => Sys2Proof.Machine.execGetMeasurements s
  | .hostRequest => Sys2Proof.Machine.execHostRequest s
  | .hostLinkDown => Sys2Proof.Machine.execHostLinkDown s
  | .debugStop => Sys2Proof.Machine.execDebugStop s
  | .registerWrite => Sys2Proof.Machine.execRegisterWrite s
  | .hostLinkUp => Sys2Proof.Machine.execHostLinkUp s
  | .debugToken => Sys2Proof.Machine.execDebugToken s
  | .tableSequenceReport => Sys2Proof.Machine.execTableSequenceReport s

end Sys2Proof.Machine
end

