-- ==== Sys2Proof/Machine/Step.lean ====
section
/-!
DEFINITION. One step of the machine: the next move of the agenda, or the strand whose turn it is fetching, decoding and
executing its next instruction (R24, R39, R40, R297).
-/
namespace Sys2Proof.Machine

/-- The meanings of the instructions whose constructors compiled code cannot build (Decode.lean); the same calls as
`exec`'s. -/
def execFar (f : Far) (s : State) : Out :=
  match f with
  | .dcp h d a ch => execDcp h d a ch s
  | .dcpLiteral h d a ch lit => execDcpLiteral h d a ch lit s
  | .dcpw h a ch => execDcpw h a ch s
  | .dcps h d ch => execDcps h d ch s
  | .dcpx h ch => execDcpx h ch s
  | .rput h d a b f => execRput h d a b f s
  | .rputLong h d a b lit => execRputLong h d a b lit s
  | .rget h d a b => execRget h d a b s
  | .ratomAdd h ty d a b => execRatomAdd h ty d a b s
  | .ratomAnd h ty d a b => execRatomAnd h ty d a b s
  | .ratomOr h ty d a b => execRatomOr h ty d a b s
  | .ratomXor h ty d a b => execRatomXor h ty d a b s
  | .ratomMin h ty d a b => execRatomMin h ty d a b s
  | .ratomMax h ty d a b => execRatomMax h ty d a b s
  | .ratomSwap h ty d a b => execRatomSwap h ty d a b s
  | .ratomFadd h ty d a b => execRatomFadd h ty d a b s
  | .rcas h ty d a b => execRcas h ty d a b s
  | .wcntArr h d a => execWcntArr h d a s
  | .wcntIss h d a => execWcntIss h d a s
  | .wcntDone h d a => execWcntDone h d a s
  | .rfence h a => execRfence h a s
  | .rpart h d a lit => execRpart h d a lit s
  | .rpstat h d a => execRpstat h d a s
  | .cbar h a => execCbar h a s
  | .credAdd h ty d a b => execCredAdd h ty d a b s
  | .credMin h ty d a b => execCredMin h ty d a b s
  | .credMax h ty d a b => execCredMax h ty d a b s
  | .cast h d a => execCast h d a s
  | .exit h a => execExit h a s
  | .gong h => execGong h s
  | .post h d a b => execPost h d a b s
  | .take h d => execTake h d s
  | .prio h a b => execPrio h a b s
  | .cinv h d a b => execCinv h d a b s
  | .cinvRe h d a b => execCinvRe h d a b s
  | .stest h d a => execStest h d a s
  | .thint h d a b pr => execThint h d a b pr s
  | .step h d a => execStep h d a s
  | .subup h a => execSubup h a s
  | .bellqPeal h d => execBellqPeal h d s
  | .bellqLen h d => execBellqLen h d s
  | .bellqNext h d => execBellqNext h d s
  | .bellw h => execBellw h s

theorem exec_far (f : Far) (s : State) : exec f.instr s = execFar f s := by cases f <;> rfl

/-- LEFT of a strand after `d` clk (R378): it counts while a request is pending, at U, outside bells, with XLVL = 0. -/
def Strand.countDown (t : Strand) (d : Nat) : Strand :=
  if bit t.xprq 0 ∧ !t.sup ∧ t.xlvl = 0 ∧ t.run = .running then
    { t with xpdl := setFld t.xpdl 32 32 (fld t.xpdl 32 32 - d) }
  else t

/-- The passing of time in one step (R2; log 5). -/
def State.tick (s : State) : State :=
  let d := Config.stepClk s.steps
  { s with
    steps := s.steps + 1
    clk := s.clk + d
    strands := if s.bellIn then s.strands else s.strands.map fun e =>
      (e.1, if s.bankOn (clusterOf e.1) = some (bankOf e.1) then e.2.countDown d else e.2) }

/-- An outcome with the time that its step took, and the calendar, which follows TIME. -/
def ticked (o : Out) : Out :=
  match o with
  | .next s => .next s.tick.calendar
  | .fault r => .fault r
  | .refused r => .refused r

/-- Whether a strand position executes: it runs, its partition's bank is active on the cluster (R435), no self-test scans the
cluster (R408), no full flush holds its accesses (R156), and no fatal event has stopped the module (R407). -/
def State.runs (s : State) (key : Nat) : Bool :=
  !s.fatal && (s.strand key).run == .running && s.bankOn (clusterOf key) == some (bankOf key) && !s.testing.contains (clusterOf key)
    && !s.flushHolds (some key) (coreOf key) false

/-- A step without an encoding; a module that a fatal event has stopped takes only those that R407 leaves it. -/
def eventStep (i : Instr) (x : Input) (s : State) (run : Instr → State → Out) : Out :=
  if s.fatal && !fatalAllows i then .next s else run i { s with input := x }

/-- The state in which the current strand executes an instruction with bits `w`. -/
def State.fetched (s : State) (w : Nat) : State := { s with ibits := BitVec.ofNat 64 w }

/-- An instruction as the roll in force makes it, executed; a stepped field that it does not accept raises roll body, once its guard
holds (R40, R297). -/
def rolled (s : State) (i : Instr) (run : Instr → State → Out) : Out :=
  if s.me.rolling then
    match rollInstr s.me.rollStep i with
    | some i => run i s
    | none => rollRefused i s
  else run i s

/-- A decoded instruction executed by the current strand. -/
noncomputable def execKind (i : Instr ⊕ Far) (s : State) : Out :=
  match i with
  | .inl i => rolled s i exec
  | .inr f => exec f.instr s

def execKindFast (i : Instr ⊕ Far) (s : State) : Out :=
  match i with
  | .inl i => rolled s i exec
  | .inr f => execFar f s

@[csimp] theorem execKind_eq : @execKind = @execKindFast := by
  funext i s
  cases i with
  | inl i => rfl
  | inr f => exact exec_far f s

/-- What a bell holds takes its turn when the bell has ended, in the order of arrival (R395). -/
def State.arrived (s : State) (m : Move) : State := if s.deferred.contains m then s else { s with deferred := s.deferred ++ [m] }

/-- A strand's turn has ended: in a bell, its draining stores and the request that it is held at are noted in the order of arrival. -/
def turnHeld (key : Nat) (s0 : State) (o : Out) : Out :=
  match o with
  | .next s =>
    .next (
      if !s.bellIn then s
      else
        let s := if (s.strand key).drains.isEmpty then s else s.arrived (.event .tileDrain (.num key))
        if (s.strand key).run = .running ∧ (s.strand key).pc = (s0.strand key).pc then s.arrived (.strand key) else s)
  | o => o

/-- The turn of a strand (R40): fetch, decode and execute. A strand that cannot execute lets its turn pass. -/
noncomputable def strandStep (key : Nat) (s0 : State) : Out :=
  let s := { s0 with cur := key }
  if !s.runs key then .next s
  else
    turnHeld key s0 (match nextInstr key s with
    | .wait u => .next u
    | .trap e s' => .next (s.takeTrap s' e)
    | .ok (_, w) s' =>
      let s' := s'.fetched w
      match decodeKind w with
      | .error _ => .next (s'.takeTrap s' (illegalExc s'))
      | .ok i => execKind i s')

def strandStepFast (key : Nat) (s0 : State) : Out :=
  let s := { s0 with cur := key }
  if !s.runs key then .next s
  else
    turnHeld key s0 (match nextInstr key s with
    | .wait u => .next u
    | .trap e s' => .next (s.takeTrap s' e)
    | .ok (_, w) s' =>
      let s' := s'.fetched w
      match decodeKind w with
      | .error _ => .next (s'.takeTrap s' (illegalExc s'))
      | .ok i => execKindFast i s')

@[csimp] theorem strandStep_eq : @strandStep = @strandStepFast := by
  funext key s; simp only [strandStep, strandStepFast, execKind_eq]

/-- A move without the passing of time. -/
noncomputable def move (s : State) : Out :=
  match s.agenda with
  | [] => strandStep s.cur s
  | .strand key :: rest => strandStep key { s with agenda := rest }
  | .event i x :: rest => eventStep i x { s with agenda := rest } exec

def moveFast (s : State) : Out :=
  match s.agenda with
  | [] => strandStepFast s.cur s
  | .strand key :: rest => strandStepFast key { s with agenda := rest }
  | .event i x :: rest => eventStep i x { s with agenda := rest } exec

@[csimp] theorem move_eq : @move = @moveFast := by
  funext s; simp only [move, moveFast, strandStep_eq]

/-- One step of the machine. -/
noncomputable def step (s : State) : Host.Outcome State Fault Refusal := ticked (move s)

def stepFast (s : State) : Host.Outcome State Fault Refusal := ticked (moveFast s)

@[csimp] theorem step_eq : @step = @stepFast := by
  funext s; simp only [step, stepFast, move_eq]

/-- The KeyID 0 page under which `withFetchWord` places an instruction: interleave region 0 over the first 64 KiB of the
fast tier, and partition 0 on cluster 0 of die 0 (log 6). -/
def State.withPartition (s : State) : State :=
  let s := s.hubSet (irdA 0) (BitVec.ofNat 64 (2 ^ 63 + 1 * 2 ^ 57))
  let s := s.hubSet (irdB 0) (BitVec.ofNat 64 (1 * 2 ^ 16))
  let s := s.hubSet (ptAddr 0 + 8) 1
  let s := s.hubSet (ptAddr 0 + 48) (BitVec.ofNat 64 (2 ^ 63))
  let s := s.hubSet (ptAddr 0 + 56) 1
  let s := s.hubSet (ptAddr 0) (BitVec.ofNat 64 (2 ^ 63 + 2 ^ 60))
  { s with activeBank := Tab.set 0 s.activeBank 0 1 }

/-- The state with an instruction of bits `w` (of which `nbits` count, the rest 0) as the next that `step` executes: strand 0
of core 0 runs at S in partition 0, with its pinned page (R372) over the first 64 KiB of the fast tier, where the words
stand from address 0 on (log 6). -/
def State.withFetchWord (s : State) (nbits w : Nat) : State :=
  let s := s.withPartition
  let s := s.setStrand 0 { s.strand 0 with
    run := .running, pc := 0, sup := true, xpin := BitVec.ofNat 64 (2 ^ 63), rolling := false,
    performed := none, remote := none, mul := none, fence := none, posting := false, inFlight := 0 }
  let s := { s with agenda := [], cur := 0, fatal := false, bellIn := false, testing := [], l1i := Tab.set PCache.empty s.l1i 0 PCache.empty,
                    ccache := Tab.set PCache.empty s.ccache 0 PCache.empty }
  s.writeMem 0 0 12 (w % 2 ^ nbits)

end Sys2Proof.Machine
end

