-- ==== Sys2Proof/Safety.lean ====
section
/-!
DEFINITION. What counts as a safe run, and the terms in which the machine's statements are written: what an instruction that has
retired leaves, and the invariant of the machine's tables.
-/
namespace Sys2Proof.Machine

/-! ## Runs -/

/-- A state that some number of steps reaches without a fault or a refusal. -/
def Reaches (s : State) : Nat → State → Prop
  | 0, t => s = t
  | n + 1, t => ∃ m, step s = .next m ∧ Reaches m n t

/-- A run that never stops is safe. -/
def Safe (s : State) : Prop := ∀ n t, Reaches s n t → ∃ m, step t = .next m

/-- The state in which the strand whose turn it is moves: the first of the agenda, or the current one. -/
def State.Turn (s u : State) : Prop :=
  (s.agenda = [] ∧ u = s) ∨ ∃ key rest, s.agenda = .strand key :: rest ∧ u = { s with agenda := rest, cur := key }

/-! ## Retiring -/

/-- The current strand retires an instruction of `len` bytes (R299). -/
def State.retire (s : State) (len : Nat) : State := s.modMe fun t => t.advance len

/-- What an instruction of `len` bytes leaves when all that it changes is its own strand: the strand as `f` makes it, at its next
instruction; every other strand position and every other part of the machine as it was. -/
structure Retires (s t : State) (len : Nat) (f : Strand → Strand) : Prop where
  me : t.me = (f s.me).advance len
  others : ∀ k, k ≠ s.cur → t.strand k = s.strand k
  rest : { t with strands := s.strands } = s

/-- What an instruction leaves that transfers control to `pc` and changes its own strand by `f` only. -/
structure Goes (s t : State) (pc : Word) (f : Strand → Strand) : Prop where
  me : t.me = { f s.me with pc := pc }
  others : ∀ k, k ≠ s.cur → t.strand k = s.strand k
  rest : { t with strands := s.strands } = s

/-- An outcome that is a next state with a property. -/
def NextWith (o : Out) (p : State → Prop) : Prop := ∃ t, o = .next t ∧ p t

/-- An instruction of `len` bytes whose whole effect is a value written to a register of its strand. -/
def WritesG (o : Out) (s : State) (len : Nat) (d : R32) (x : Word) : Prop :=
  NextWith o fun t => Retires s t len (·.setGpr d.val x)
def WritesP (o : Out) (s : State) (len : Nat) (d : R8) (x : Bool) : Prop :=
  NextWith o fun t => Retires s t len (·.setPred d.val x)
def WritesV (o : Out) (s : State) (len : Nat) (d : R32) (x : Vec) : Prop :=
  NextWith o fun t => Retires s t len (·.setVec d.val x)
def WritesM (o : Out) (s : State) (len : Nat) (d : R8) (x : Word) : Prop :=
  NextWith o fun t => Retires s t len (·.setMask d.val x)
/-- An instruction of `len` bytes with no effect beyond advancing the PC. -/
def DoesNothing (o : Out) (s : State) (len : Nat) : Prop := NextWith o fun t => Retires s t len id

/-! ## Scalar operations (R218, R219, R225) -/

/-- The operations of two words. -/
inductive ScalarOp where
  | add | sub | and | or | xor | andn | orn | shl | shr | sar | rot | minI64 | maxI64 | minN64 | maxN64
  | mul | mulhI64 | mulhN64 | divI64 | divN64 | remI64 | remN64
deriving DecidableEq, Repr

/-- The results of the tables of R218 and R219, with R69's quotients and remainders. -/
def ScalarOp.result (op : ScalarOp) (x y : Word) : Word :=
  let c := y.toNat % 64
  match op with
  | .add => BitVec.ofNat 64 (x.toNat + y.toNat)
  | .sub => BitVec.ofInt 64 ((x.toNat : Int) - y.toNat)
  | .and => x &&& y
  | .or => x ||| y
  | .xor => x ^^^ y
  | .andn => x &&& ~~~y
  | .orn => x ||| ~~~y
  | .shl => BitVec.ofNat 64 (x.toNat * 2 ^ c)
  | .shr => BitVec.ofNat 64 (x.toNat / 2 ^ c)
  | .sar => BitVec.ofInt 64 (x.toInt / 2 ^ c)
  | .rot => BitVec.ofNat 64 (x.toNat / 2 ^ c ||| x.toNat * 2 ^ (64 - c) % 2 ^ 64)
  | .minI64 => if x.toInt ≤ y.toInt then x else y
  | .maxI64 => if x.toInt ≤ y.toInt then y else x
  | .minN64 => if x.toNat ≤ y.toNat then x else y
  | .maxN64 => if x.toNat ≤ y.toNat then y else x
  | .mul => BitVec.ofNat 64 (x.toNat * y.toNat)
  | .mulhI64 => BitVec.ofInt 64 (x.toInt * y.toInt / 2 ^ 64)
  | .mulhN64 => BitVec.ofNat 64 (x.toNat * y.toNat / 2 ^ 64)
  | .divI64 => if y = 0 then BitVec.allOnes 64 else BitVec.ofInt 64 (x.toInt.tdiv y.toInt)
  | .divN64 => if y = 0 then BitVec.allOnes 64 else BitVec.ofNat 64 (x.toNat / y.toNat)
  | .remI64 => if y = 0 then x else BitVec.ofInt 64 (x.toInt.tmod y.toInt)
  | .remN64 => if y = 0 then x else BitVec.ofNat 64 (x.toNat % y.toNat)

/-- Its register form (R51). -/
def ScalarOp.register (op : ScalarOp) (d a b : R32) : Instr :=
  match op with
  | .add => .add d a b | .sub => .sub d a b | .and => .and d a b | .or => .or d a b | .xor => .xor d a b
  | .andn => .andn d a b | .orn => .orn d a b | .shl => .shl d a b | .shr => .shr d a b | .sar => .sar d a b
  | .rot => .rot d a b | .minI64 => .minI64 d a b | .maxI64 => .maxI64 d a b | .minN64 => .minN64 d a b
  | .maxN64 => .maxN64 d a b | .mul => .mul d a b | .mulhI64 => .mulhI64 d a b | .mulhN64 => .mulhN64 d a b
  | .divI64 => .divI64 d a b | .divN64 => .divN64 d a b | .remI64 => .remI64 d a b | .remN64 => .remN64 d a b

/-- Its literal form (R222). -/
def ScalarOp.literal (op : ScalarOp) (h : Hdr) (d a : R32) (l : BitVec 32) : Instr :=
  match op with
  | .add => .addLiteral h d a l | .sub => .subLiteral h d a l | .and => .andLiteral h d a l | .or => .orLiteral h d a l
  | .xor => .xorLiteral h d a l | .andn => .andnLiteral h d a l | .orn => .ornLiteral h d a l | .shl => .shlLiteral h d a l
  | .shr => .shrLiteral h d a l | .sar => .sarLiteral h d a l | .rot => .rotLiteral h d a l
  | .minI64 => .minI64Literal h d a l | .maxI64 => .maxI64Literal h d a l | .minN64 => .minN64Literal h d a l
  | .maxN64 => .maxN64Literal h d a l | .mul => .mulLiteral h d a l | .mulhI64 => .mulhI64Literal h d a l
  | .mulhN64 => .mulhN64Literal h d a l | .divI64 => .divI64Literal h d a l | .divN64 => .divN64Literal h d a l
  | .remI64 => .remI64Literal h d a l | .remN64 => .remN64Literal h d a l

/-- A condition of R52 on two bit patterns: codes 2 to 5 signed, 6 to 9 unsigned (R225, R245). -/
def Cond.onWords {w : Nat} (c : Cond) (x y : BitVec w) : Bool :=
  match c with
  | .eq => decide (x = y)
  | .ne => decide (x ≠ y)
  | .lt => decide (x.toInt < y.toInt)
  | .le => decide (x.toInt ≤ y.toInt)
  | .gt => decide (x.toInt > y.toInt)
  | .ge => decide (x.toInt ≥ y.toInt)
  | .ltu => decide (x.toNat < y.toNat)
  | .leu => decide (x.toNat ≤ y.toNat)
  | .gtu => decide (x.toNat > y.toNat)
  | .geu => decide (x.toNat ≥ y.toNat)
  | .un => false

/-- The field that a width of R224 names: 0 encodes 64. -/
def widthOf (w : BitVec 6) : Nat := if w = 0 then 64 else w.toNat

/-! ## Vector operations (R31, R239 to R246) -/

/-- Lane `i` of `w` bits. -/
def laneOf (x : Vec) (w i : Nat) : BitVec w := x.extractLsb' (w * i) w

/-- R31: under the mask `m` every active lane of `new` is what `f` gives; an inactive lane is zero where `z` is set and else that
of `old`. -/
def MaskedTo (z : Bool) (m : Word) (w : Nat) (old new : Vec) (f : Nat → BitVec w) : Prop :=
  ∀ i, i < 512 / w → laneOf new w i = if m.getLsbD i = true then f i else if z = true then 0 else laneOf old w i

/-- An instruction of `len` bytes whose whole effect is lanes of V[d] written under a mask. -/
def WritesLanes (o : Out) (s : State) (len : Nat) (k : Mask) (d : R32) (w : Nat) (f : Nat → BitVec w) : Prop :=
  ∃ r, WritesV o s len d r ∧ MaskedTo k.z (s.MK k.m) w (s.V d) r f

/-- The exact value of a lane of a signed or unsigned type (R67). -/
def valueAs (signed : Bool) {w : Nat} (x : BitVec w) : Int := if signed = true then x.toInt else x.toNat

/-- An exact integer saturated to a type (R68). -/
def saturated (signed : Bool) (w : Nat) (n : Int) : BitVec w :=
  let lo : Int := if signed = true then -(2 : Int) ^ (w - 1) else 0
  let hi : Int := if signed = true then (2 : Int) ^ (w - 1) - 1 else (2 : Int) ^ w - 1
  BitVec.ofInt w (max lo (min hi n))

/-- The integer operations of two lanes. -/
inductive LaneOp where
  | add | sub | mul | addSat | subSat | min | max | and | or | xor | andn | shl | shr | sar
deriving DecidableEq, Repr

/-- The results of the table of R242. -/
def LaneOp.result (op : LaneOp) (signed : Bool) {w : Nat} (x y : BitVec w) : BitVec w :=
  let c := y.toNat % w
  match op with
  | .add => x + y
  | .sub => x - y
  | .mul => x * y
  | .addSat => saturated signed w (valueAs signed x + valueAs signed y)
  | .subSat => saturated signed w (valueAs signed x - valueAs signed y)
  | .min => if valueAs signed x ≤ valueAs signed y then x else y
  | .max => if valueAs signed y ≤ valueAs signed x then x else y
  | .and => x &&& y
  | .or => x ||| y
  | .xor => x ^^^ y
  | .andn => x &&& ~~~y
  | .shl => x <<< c
  | .shr => x >>> c
  | .sar => x.sshiftRight c

/-- Its vector form (R242) and its form with a broadcast literal (R243). -/
def LaneOp.vector (op : LaneOp) (h : Hdr) (k : Mask) (ty : Ty) (d a b : R32) : Instr :=
  match op with
  | .add => .vadd h k ty d a b | .sub => .vsub h k ty d a b | .mul => .vmul h k ty d a b
  | .addSat => .vaddSat h k ty d a b | .subSat => .vsubSat h k ty d a b | .min => .vmin h k ty d a b
  | .max => .vmax h k ty d a b | .and => .vand h k ty d a b | .or => .vor h k ty d a b | .xor => .vxor h k ty d a b
  | .andn => .vandn h k ty d a b | .shl => .vshl h k ty d a b | .shr => .vshr h k ty d a b | .sar => .vsar h k ty d a b
def LaneOp.bcast : LaneOp → BcastOp
  | .add => .add | .sub => .sub | .mul => .mul | .addSat => .addSat | .subSat => .subSat | .min => .min | .max => .max
  | .and => .and | .or => .or | .xor => .xor | .andn => .andn | .shl => .shl | .shr => .shr | .sar => .sar

/-- The floating operations of lanes x and y, with the old lane z of V[d] in the fused ones. -/
inductive FloatOp where
  | add | sub | mul | div | fma | fms
deriving DecidableEq, Repr

/-- The exact result of R244, before its one rounding. -/
def FloatOp.exact (op : FloatOp) (rm : Rm) (x y z : FVal) : FVal :=
  match op with
  | .add => exactSum rm [x, y]
  | .sub => exactSum rm [x, y.negate]
  | .mul => exactMul x y
  | .div => exactDiv x y
  | .fma => exactSum rm [exactMul x y, z]
  | .fms => exactSum rm [z, (exactMul x y).negate]

/-- The lane that the operation gives (R73, R244). -/
def FloatOp.result (op : FloatOp) (ty : Ty) (rm : Rm) (x y z : Nat) : BitVec ty.bits :=
  let F := ffOf ty
  BitVec.ofNat ty.bits (roundTo F rm (op.exact rm (widen F x) (widen F y) (widen F z)))

def FloatOp.vector (op : FloatOp) (h : Hdr) (k : Mask) (ty : Ty) (rm : Rm) (d a b : R32) : Instr :=
  match op with
  | .add => .vaddFloat h k ty rm d a b | .sub => .vsubFloat h k ty rm d a b | .mul => .vmulFloat h k ty rm d a b
  | .div => .vdiv h k ty rm d a b | .fma => .vfma h k ty rm d a b | .fms => .vfms h k ty rm d a b
def FloatOp.bcast (op : FloatOp) (rm : Rm) : BcastOp :=
  match op with
  | .add => .fadd rm | .sub => .fsub rm | .mul => .fmul rm | .div => .fdiv rm | .fma => .ffma rm | .fms => .ffms rm

/-- The value of a finite pattern (R70). -/
def FVal.rat : FVal → Rat
  | .fin neg m e => (if neg = true then -1 else 1) * m * (2 : Rat) ^ e
  | _ => 0

/-- The magnitude of a rational. -/
def magnitude (q : Rat) : Rat := if q < 0 then -q else q

/-- The largest finite value of a format (R70). -/
def FF.largest : FF → Rat
  | .f32 => (2 - 2 ^ (-23 : Int)) * 2 ^ (127 : Int)
  | .bf16 => (2 - 2 ^ (-7 : Int)) * 2 ^ (127 : Int)
  | .e4m3 => 448
  | .e5m2 => 57344

/-- A value of a format whose exponent range has no upper end, subnormals included: m · 2^e with m below 2^(mantissa bits + 1) and
e no less than that of the subnormals (R70, R73). -/
def FF.Represents (F : FF) (v : Rat) (m e : Int) : Prop :=
  v = m * (2 : Rat) ^ e ∧ m.natAbs < 2 ^ (F.man + 1) ∧ 1 - (F.bias : Int) - F.man ≤ e
def FF.Representable (F : FF) (v : Rat) : Prop := ∃ m e, F.Represents v m e
/-- Such a value whose mantissa ends in 0. -/
def FF.EndsInZero (F : FF) (v : Rat) : Prop :=
  ∃ m e, F.Represents v m e ∧ m % 2 = 0 ∧ (2 ^ F.man ≤ m.natAbs ∨ e = 1 - (F.bias : Int) - F.man)

/-- `v` is `q` rounded to a format of unbounded exponent in a mode (R73). -/
def RoundsTo (F : FF) (rm : Rm) (q v : Rat) : Prop :=
  F.Representable v ∧
  match rm with
  | .rne => ∀ u, F.Representable u → magnitude (v - q) ≤ magnitude (u - q) ∧
      (u ≠ v → magnitude (v - q) = magnitude (u - q) → F.EndsInZero v)
  | .rtz => magnitude v ≤ magnitude q ∧ 0 ≤ v * q ∧ ∀ u, F.Representable u → magnitude u ≤ magnitude q → magnitude u ≤ magnitude v
  | .rup => q ≤ v ∧ ∀ u, F.Representable u → q ≤ u → v ≤ u
  | .rdn => v ≤ q ∧ ∀ u, F.Representable u → u ≤ q → u ≤ v

/-- `v` is the square root of `q` rounded in a mode: the comparisons of `RoundsTo` with the root, made on squares. -/
def RootRoundsTo (F : FF) (rm : Rm) (q v : Rat) : Prop :=
  F.Representable v ∧ 0 ≤ v ∧
  match rm with
  | .rne => ∀ u, F.Representable u → 0 ≤ u →
      (u < v → (u + v) * (u + v) ≤ 4 * q ∧ ((u + v) * (u + v) = 4 * q → F.EndsInZero v)) ∧
      (v < u → 4 * q ≤ (u + v) * (u + v) ∧ ((u + v) * (u + v) = 4 * q → F.EndsInZero v))
  | .rtz | .rdn => v * v ≤ q ∧ ∀ u, F.Representable u → 0 ≤ u → u * u ≤ q → u ≤ v
  | .rup => q ≤ v * v ∧ ∀ u, F.Representable u → 0 ≤ u → q ≤ u * u → v ≤ u

/-- The pattern of a zero of a sign, and of the sign bit. -/
def FF.sign (F : FF) (neg : Bool) : Nat := if neg = true then 2 ^ (F.width - 1) else 0

/-- The pattern that the table of R74 gives an overflow. -/
def FF.overflows (F : FF) (rm : Rm) (neg : Bool) : Nat :=
  F.sign neg +
    match F, rm, neg with
    | .e4m3, _, _ => 0x7E
    | _, .rne, _ | _, .rup, false | _, .rdn, true => F.inf
    | _, _, _ => F.maxFin

/-- The pattern `p` of sign `neg` is the result whose value, rounded with no upper end to the exponents, is `u` (R73, R74). -/
def ResultIs (F : FF) (rm : Rm) (neg : Bool) (u : Rat) (p : Nat) : Prop :=
  (magnitude u ≤ F.largest → (widen F p).isFinite = true ∧ (widen F p).rat = u ∧ (widen F p).neg = neg) ∧
  (F.largest < magnitude u → p = F.overflows rm neg)

/-- The condition of R245 on two lanes of a type. -/
def Cond.onLanes (c : Cond) (ty : Ty) (x y : BitVec ty.bits) : Bool :=
  if ty.isFloat = true then condFloat c (widen (ffOf ty) x.toNat) (widen (ffOf ty) y.toNat) else Cond.onWords c x y

/-- The integer operations of R252 and their results with no lane present. -/
def RedOp.combine (op : RedOp) (signed : Bool) {w : Nat} (x y : BitVec w) : BitVec w :=
  match op with
  | .add => x + y
  | .min => if valueAs signed x ≤ valueAs signed y then x else y
  | .max => if valueAs signed y ≤ valueAs signed x then x else y
  | .and => x &&& y
  | .or => x ||| y
  | .xor => x ^^^ y
def RedOp.empty (op : RedOp) (signed : Bool) (w : Nat) : BitVec w :=
  match op with
  | .add | .or | .xor => 0
  | .and => BitVec.allOnes w
  | .min => if signed = true then BitVec.ofInt w ((2 : Int) ^ (w - 1) - 1) else BitVec.allOnes w
  | .max => if signed = true then BitVec.ofInt w (-(2 : Int) ^ (w - 1)) else 0

/-- A combination of two floating lanes (R91, R252): a sum rounded once in .rne, or the selection of R77. -/
def RedOp.ofFloats (op : RedOp) (F : FF) (x y : Nat) : Nat :=
  match op with
  | .min => fmin F x y
  | .max => fmax F x y
  | _ => roundTo F .rne (exactSum .rne [widen F x, widen F y])
/-- The pattern with no lane present: +0, and for the minimum and the maximum the infinities. -/
def RedOp.ofNone (op : RedOp) (F : FF) : Nat :=
  match op with
  | .min => F.inf
  | .max => F.sign true + F.inf
  | _ => 0

/-- Two nodes of which one or both may be absent: a single one passes on unrounded (R91). -/
def eitherNode (f : Nat → Nat → Nat) : Option Nat → Option Nat → Option Nat
  | some x, some y => some (f x y)
  | some x, none => some x
  | none, y => y
/-- Node `i` at a level of the tree over lane positions (R91): at level 1 of lanes 2i and 2i + 1, above of the nodes 2i and 2i + 1. -/
def treeNode (f : Nat → Nat → Nat) (lane : Nat → Option Nat) : Nat → Nat → Option Nat
  | 0, i => lane i
  | l + 1, i => eitherNode f (treeNode f lane l (2 * i)) (treeNode f lane l (2 * i + 1))
/-- The lanes up to lane `i` in ascending order (R91). -/
def upToLane (f : Nat → Nat → Nat) (lane : Nat → Option Nat) : Nat → Option Nat
  | 0 => lane 0
  | i + 1 => eitherNode f (upToLane f lane i) (lane (i + 1))

/-- A coordinate of R256: a 32-bit lane as a number below 2^n. -/
def coordinateOf (ty : Ty) (n : Nat) (v : Nat) : Nat :=
  if ty = .f32 then
    match widen .f32 v with
    | .nan => 0
    | .inf neg => if neg = true then 0 else 2 ^ n - 1
    | x => if x.rat ≤ 0 then 0 else min (x.rat * 2 ^ n).floor.toNat (2 ^ n - 1)
  else min v (2 ^ n - 1)
/-- One inner step of R256's transform: the bit Q and the coordinate c. -/
def hilbertAt (Q c : Nat) (X : Nat → Nat) : Nat → Nat :=
  let P := Q - 1
  if X c &&& Q ≠ 0 then fun i => if i = 0 then X 0 ^^^ P else X i
  else
    let t := (X 0 ^^^ X c) &&& P
    let Y : Nat → Nat := fun i => if i = 0 then X 0 ^^^ t else X i
    fun i => if i = c then Y c ^^^ t else Y i
/-- R256's Hilbert transform of three coordinates of `n` bits. -/
def hilbertOf (n : Nat) (X : Nat → Nat) : Nat → Nat :=
  let qs := (List.range (n - 1)).map fun j => 2 ^ (n - (j + 1))
  let Y := qs.foldl (fun X Q => hilbertAt Q 2 (hilbertAt Q 1 (hilbertAt Q 0 X))) X
  let y1 := Y 1 ^^^ Y 0
  let y2 := Y 2 ^^^ y1
  let t := qs.foldl (fun t Q => if y2 &&& Q ≠ 0 then t ^^^ (Q - 1) else t) 0
  fun i => (if i = 0 then Y 0 else if i = 1 then y1 else y2) ^^^ t

def RedOp.reduce (op : RedOp) (h : Hdr) (m : R8) (ty : Ty) (d a : R32) : Instr :=
  match op with
  | .add => .vredAdd h m ty d a | .min => .vredMin h m ty d a | .max => .vredMax h m ty d a
  | .and => .vredAnd h m ty d a | .or => .vredOr h m ty d a | .xor => .vredXor h m ty d a
def RedOp.scan (op : RedOp) (h : Hdr) (k : Mask) (ty : Ty) (d a : R32) : Instr :=
  match op with
  | .add => .vscanAdd h k ty d a | .min => .vscanMin h k ty d a | .max => .vscanMax h k ty d a
  | .and => .vscanAnd h k ty d a | .or => .vscanOr h k ty d a | .xor => .vscanXor h k ty d a


/-! ## Memory -/

/-- The `amo` of an operation (R171), and its remote form (R322). -/
def AmoOp.instr (op : AmoOp) (h : Hdr) (ty : Ty) (o : Order) (c : Scope) (d a b : R32) : Instr :=
  match op with
  | .add => .amoAdd h ty o c d a b | .and => .amoAnd h ty o c d a b | .or => .amoOr h ty o c d a b
  | .xor => .amoXor h ty o c d a b | .min => .amoMin h ty o c d a b | .max => .amoMax h ty o c d a b
  | .swap => .amoSwap h ty o c d a b | .fadd => .amoFadd h ty o c d a b

/-- A loaded element in a general register: extended by its type (R166). -/
def loaded (ty : Ty) (x : Nat) : Word :=
  if ty.isSigned = true then (BitVec.ofNat ty.bits x).signExtend 64 else (BitVec.ofNat ty.bits x).setWidth 64

/-- The active lanes of `sz` bytes under a mask, ascending (R169). -/
def activeOf (m : Word) (sz : Nat) : List Nat := (List.range (64 / sz)).filter fun i => m.getLsbD i

/-- The current strand reaches `n` bytes at `va` through its pinned page (R372), at address `a` of main memory under `key`, with no
copy of any line in its core's and its cluster's caches, no tile store of its own to come, and no bell. -/
structure PinnedAt (s : State) (va : Word) (n key a : Nat) : Prop where
  sup : s.me.sup = true
  valid : s.me.xpin.getLsbD 63 = true
  page : va.toNat / 65536 = (s.me.xdvec.toNat % 2 ^ 55) / 65536
  low : va.toNat < 2 ^ 55
  piece : 0 < n ∧ va.toNat % 64 + n ≤ 64
  keyId : key = s.me.xpin.toNat % 2 ^ 12
  there : ∀ w, s.present (s.partOf s.cur) ((s.me.xpin.toNat / 2 ^ 16 % 2 ^ 36) * 65536 + va.toNat % 65536) key w = .ok (.mem a)
  line : a % 128 = va.toNat % 128
  clean : (s.coreCache (coreOf s.cur)).lines = [] ∧ (s.clusterCache (clusterOf s.cur)).lines = []
  alone : s.dir = [] ∧ s.dieLines = [] ∧ s.poison = [] ∧ s.me.drains = [] ∧ s.asideOf s.cur = [] ∧ s.acks = [] ∧ s.me.performed = none
  quiet : s.bellIn = false
  canonical : Memory.wf s.mem = true

/-! ## Tiles (R257 to R267) -/

/-- The state in which the registers of field values `ks` are ready: the drains that read them have ended (R261). -/
def State.settled (s : State) (ks : List Nat) : State := if ks.any s.me.draining = true then s.drainAll s.cur else s
/-- Those drains have ended: none must wait, for a bell or for its home (R268). -/
def State.canSettle (s : State) (ks : List Nat) : Prop := ks.any (s.settled ks).me.draining = false
/-- The state in which the pool has a physical operand tile, or accumulator, for the current strand (R258). -/
def State.withRoom (s : State) (acc : Bool) : State :=
  if s.poolAdmits s.cur acc = true then s else (engineKeys s.cur).foldl State.drainAll s
def State.canRoom (s : State) (acc : Bool) : Prop := (s.withRoom acc).poolAdmits (s.withRoom acc).cur acc = true

/-- What an instruction of `len` bytes leaves that gives a tile or plane register a fresh physical tile with a value and a tag, its
discardable bit clear, and then changes its strand by `f`; its engine forgets a plane image of that identity. -/
def TakesTile (o : Out) (s : State) (len k : Nat) (v : Tile) (tag : Nat) (f : Strand → Strand) : Prop :=
  NextWith o fun t => ∃ id, id ≠ 0 ∧ id ∉ s.me.physIds false true ∧
    t.me = (f (s.me.setTile k { phys := id, val := v, tag := tag, disc := false })).advance len ∧
    (∀ j, j ≠ s.cur → t.strand j = s.strand j) ∧ { t with strands := s.strands, engines := s.engines } = s ∧
    ∀ e, t.engine e = if e = engineKey s.cur then
        { s.engine e with planes := (s.engine e).planes.map fun p => if p = some (s.cur, id) then none else p }
      else s.engine e

/-- The same of an accumulator. -/
def TakesAcc (o : Out) (s : State) (len k : Nat) (v : Acc) (f : Strand → Strand) : Prop :=
  NextWith o fun t => ∃ id, id ≠ 0 ∧ id ∉ s.me.physIds true true ∧
    Retires s t len fun m => f (m.setAcc k { phys := id, val := v, disc := false })

/-- A trit as the t2 forms hold it (R81): 10 becomes 00. -/
def tritKept (t2 : Bool) (x : BitVec 2) : BitVec 2 := if t2 = true ∧ x = 2 then 0 else x
/-- Row `r` of a tile holds the low `n` bytes of `x`, and zeros after them. -/
def RowIs (v : Tile) (t2 : Bool) (n r x : Nat) : Prop :=
  ∀ c, c < 512 → v.extractLsb' (1024 * r + 2 * c) 2 = if c < 4 * n then tritKept t2 (BitVec.ofNat 2 (x / 4 ^ c)) else 0
/-- A tile of `R` rows of `n` bytes; every other byte is zero (R266). -/
def TileIs (v : Tile) (t2 : Bool) (n R : Nat) (xs : List Nat) : Prop :=
  ∀ r, r < 64 → RowIs v t2 n r (if r < R then xs.getD r 0 else 0)
/-- How many trits 10 the rows hold. -/
def tritsIn (n : Nat) (xs : List Nat) : Nat :=
  (xs.map fun x => ((List.range (4 * n)).filter fun c => x / 4 ^ c % 4 = 2).length).sum

/-! ## The matrix engine (R281, R88, R90, R294) -/

/-- The pattern of W[k][j] in a plane image of a mode (R281). -/
def planeAt (mode : Nat) (v : Tile) (k j : Nat) : Nat :=
  match mode with
  | 0 => (v.extractLsb' (1024 * k + 16 * j) 16).toNat
  | 4 => (v.extractLsb' (1024 * (k / 8) + 128 * (k % 8) + 2 * j) 2).toNat
  | _ => (v.extractLsb' (1024 * (k / 2) + 512 * (k % 2) + 8 * j) 8).toNat
/-- The pattern of A[i][k] in an activation tile, or in the four of a quad. -/
def actAt (mode : Nat) (ts : Nat → Tile) (i k : Nat) : Nat :=
  match mode with
  | 0 => ((ts 0).extractLsb' (1024 * i + 16 * k) 16).toNat
  | 4 => ((ts (k / 128)).extractLsb' (1024 * i + 8 * (k % 128)) 8).toNat
  | _ => ((ts 0).extractLsb' (1024 * i + 8 * k) 8).toNat
/-- Element `e` of an accumulator. -/
def accAt (v : Acc) (e : Nat) : BitVec 32 := v.extractLsb' (32 * e) 32
/-- The value of a trit (R81). -/
def tritValue (x : Nat) : Int := if x = 1 then 1 else if x = 3 then -1 else 0

/-- One output of a `tmul` (R88, R90). -/
def mulElement (mode : Nat) (A W : Nat → Nat) (old : BitVec 32) : BitVec 32 :=
  let F : FF := if mode = 0 then .bf16 else if mode = 1 then .e4m3 else .e5m2
  let B := if mode = 0 then 8 else 16
  let s (b : Nat) : Nat := roundTo .f32 .rne (exactSum .rne
    ((List.range B).map fun k => exactMul (widen F (A (B * b + k))) (widen F (W (B * b + k)))))
  let y := (List.range 7).foldl (fun y b => fadd .f32 .rne y (s (b + 1))) (s 0)
  let K := if mode = 4 then 512 else 128
  let a (k : Nat) : Int := (BitVec.ofNat 8 (A k)).toInt
  let w (k : Nat) : Int := if mode = 4 then tritValue (W k) else (BitVec.ofNat 8 (W k)).toInt
  if mode < 3 then BitVec.ofNat 32 (fadd .f32 .rne old.toNat y)
  else BitVec.ofInt 32 (old.toNat + ((List.range K).map fun k => a k * w k).sum)

/-- The accumulator that a `tmul` writes. -/
def IsProduct (mode : Nat) (acts : Nat → Tile) (plane : Tile) (old new : Acc) : Prop :=
  ∀ i j, i < 64 → j < 64 →
    accAt new (64 * i + j) = mulElement mode (actAt mode acts i) (planeAt mode plane · j) (accAt old (64 * i + j))

/-- The converted element of R294: its bytes a row, the value that a type and a clamp give. -/
def convertedWidth (ty : Ty) : Nat := if ty = .f32 then 32 else if ty = .bf16 then 16 else 8
def convertedElement (ty : Ty) (clamp : Bool) (x : BitVec 32) : Nat :=
  let F := ffOf ty
  let x' : Nat := if clamp = true ∧ (widen .f32 x.toNat).isNan = false ∧ x.msb = true then 0 else x.toNat
  let v := widen .f32 x'
  let n : Int := if clamp = true ∧ x.toInt < 0 then 0 else x.toInt
  match ty with
  | .i8 => (saturated true 8 n).toNat
  | .n8 => (saturated false 8 n).toNat
  | .f32 => x'
  | _ => if v.isFinite = true ∧ roundTo F .rne v % 2 ^ (F.width - 1) = F.inf then F.sign v.neg + F.maxFin else roundTo F .rne v

end Sys2Proof.Machine
end

