-- ==== Sys2Proof/Certificates/Slice0/Obligations.lean ====
section
/-!
DEFINITION. The statements for the provers.
-/
open Sys2Proof Sys2Proof.Machine

/-! ## Scalar instructions -/

/-- R218, R219: the two-register operations write their result to g[d] and change nothing else.
R222, R32: under a true guard the literal forms have the operations' results with y = Sext(lit32, 64).
R221: the immediate forms. -/
def Obligations.ArithmeticResults : Prop :=
  (∀ (op : ScalarOp) (d a b : R32) (s : State), WritesG (exec (op.register d a b) s) s 4 d (op.result (s.G a) (s.G b))) ∧
  (∀ (op : ScalarOp) (h : Hdr) (d a : R32) (l : BitVec 32) (s : State), s.guard h = true →
     WritesG (exec (op.literal h d a l) s) s 12 d (op.result (s.G a) (l.signExtend 64))) ∧
  (∀ (i : BitVec 15) (n : BitVec 6) (d a : R32) (s : State),
     let x := s.G a
     let y : Word := i.signExtend 64
     let c : Word := n.setWidth 64
     WritesG (exec (.addImmediate i d a) s) s 4 d (ScalarOp.add.result x y) ∧
     WritesG (exec (.andImmediate i d a) s) s 4 d (ScalarOp.and.result x y) ∧
     WritesG (exec (.orImmediate i d a) s) s 4 d (ScalarOp.or.result x y) ∧
     WritesG (exec (.xorImmediate i d a) s) s 4 d (ScalarOp.xor.result x y) ∧
     WritesG (exec (.mulImmediate i d a) s) s 4 d (ScalarOp.mul.result x y) ∧
     WritesG (exec (.shlImmediate n d a) s) s 4 d (ScalarOp.shl.result x c) ∧
     WritesG (exec (.shrImmediate n d a) s) s 4 d (ScalarOp.shr.result x c) ∧
     WritesG (exec (.sarImmediate n d a) s) s 4 d (ScalarOp.sar.result x c) ∧
     WritesG (exec (.rotImmediate n d a) s) s 4 d (ScalarOp.rot.result x c) ∧
     WritesG (exec (.movi i d) s) s 4 d y)

/-- R220: the single-operand bit operations. -/
def Obligations.BitOperationResults : Prop :=
  ∀ (d a : R32) (s : State),
    let x := s.G a
    let gives (i : Instr) (p : Word → Prop) : Prop := ∃ r, WritesG (exec i s) s 4 d r ∧ p r
    gives (.clz d a) (fun r => r.toNat ≤ 64 ∧ (∀ i, 64 - r.toNat ≤ i → x.getLsbD i = false) ∧
      (r.toNat < 64 → x.getLsbD (63 - r.toNat) = true)) ∧
    gives (.ctz d a) (fun r => r.toNat ≤ 64 ∧ (∀ i, i < r.toNat → x.getLsbD i = false) ∧
      (r.toNat < 64 → x.getLsbD r.toNat = true)) ∧
    gives (.popc d a) (fun r => r.toNat = (List.range 64).countP fun i => x.getLsbD i) ∧
    gives (.bswap d a) (fun r => ∀ k, k < 8 → r.extractLsb' (8 * k) 8 = x.extractLsb' (8 * (7 - k)) 8) ∧
    gives (.extI8 d a) (· = (x.setWidth 8).signExtend 64) ∧
    gives (.extI16 d a) (· = (x.setWidth 16).signExtend 64) ∧
    gives (.extI32 d a) (· = (x.setWidth 32).signExtend 64) ∧
    gives (.extN8 d a) (· = (x.setWidth 8).setWidth 64) ∧
    gives (.extN16 d a) (· = (x.setWidth 16).setWidth 64) ∧
    gives (.extN32 d a) (· = (x.setWidth 32).setWidth 64)

/-- R218's mov, R222's literal mov, R223's constants, R227's sel and R228's lea.
R224, R32: bit fields under a true guard; a field past bit 63 raises illegal instruction whatever the guard. -/
def Obligations.MoveConstantAndBitFieldResults : Prop :=
  (∀ (h : Hdr) (q : R8) (sc : R4) (d a b : R32) (l : BitVec 32) (s : State),
     WritesG (exec (.mov d a) s) s 4 d (s.G a) ∧
     WritesG (exec (.sel q d a b) s) s 4 d (if s.PR q = true then s.G a else s.G b) ∧
     WritesG (exec (.lea sc d a b) s) s 4 d (BitVec.ofNat 64 ((s.G a).toNat + (s.G b).toNat * 2 ^ sc.val)) ∧
     (s.guard h = true →
       WritesG (exec (.movLiteral h d l) s) s 12 d (l.signExtend 64) ∧
       WritesG (exec (.li h d l) s) s 12 d (l.signExtend 64) ∧
       WritesG (exec (.lihi h d l) s) s 12 d (l ++ (s.G d).extractLsb' 0 32))) ∧
  (∀ (h : Hdr) (d a : R32) (pos w : BitVec 6) (s : State),
     let p := pos.toNat
     let n := widthOf w
     let x := s.G a
     (p + n ≤ 64 → s.guard h = true →
       WritesG (exec (.bfxI64 h d a pos w) s) s 8 d ((x.extractLsb' p n).signExtend 64) ∧
       WritesG (exec (.bfxN64 h d a pos w) s) s 8 d ((x.extractLsb' p n).setWidth 64) ∧
       ∃ r, WritesG (exec (.bfi h d a pos w) s) s 8 d r ∧
         ∀ i, i < 64 → r.getLsbD i = if p ≤ i ∧ i < p + n then x.getLsbD (i - p) else (s.G d).getLsbD i) ∧
     (64 < p + n →
       ∀ i ∈ [Instr.bfxI64 h d a pos w, .bfxN64 h d a pos w, .bfi h d a pos w],
         exec i s = .next (s.takeTrap s { cause := 0x02, addr := s.me.pc, info := s.ibits })))

/-- R225, R226: compares and predicate operations write a predicate other than p0. -/
def Obligations.PredicateResults : Prop :=
  ∀ (h : Hdr) (c : Cond) (d p q : R8) (a b : R32) (i : BitVec 11) (l : BitVec 32) (s : State), d ≠ 0 → c ≠ .un →
    WritesP (exec (.cmp c d a b) s) s 4 d (Cond.onWords c (s.G a) (s.G b)) ∧
    WritesP (exec (.cmpi c i d a) s) s 4 d (Cond.onWords c (s.G a) (i.signExtend 64)) ∧
    (s.guard h = true → WritesP (exec (.cmpLiteral h c d a l) s) s 12 d (Cond.onWords c (s.G a) (l.signExtend 64))) ∧
    WritesP (exec (.pand d p q) s) s 4 d (s.PR p && s.PR q) ∧
    WritesP (exec (.por d p q) s) s 4 d (s.PR p || s.PR q) ∧
    WritesP (exec (.pxor d p q) s) s 4 d (xor (s.PR p) (s.PR q)) ∧
    WritesP (exec (.pnot d p) s) s 4 d (!s.PR p) ∧
    WritesP (exec (.pmov d p) s) s 4 d (s.PR p)

/-- R229 to R231: transfers whose target is aligned and is not the exit address.
R25, R231: a register transfer to an address that is not a multiple of 4 raises misaligned at its own address and writes no
link.
R25, R48, R231: a transfer to the exit address performs `exit` with the status in G[1], and a call to it writes no link before. -/
def Obligations.ControlTransfers : Prop :=
  (∀ (h : Hdr) (o21 : BitVec 21) (o25 : BitVec 25) (l : BitVec 32) (n : Bool) (p : R8) (a : R32) (s : State),
     let near (o : Int) : Word := BitVec.ofInt 64 (s.me.pc.toNat + 4 * o)
     let open' (t : Word) : Prop := t.toNat % 4 = 0 ∧ t ≠ 0xFFFFFFFFFFFFFFFC
     let goes (i : Instr) (t : Word) : Prop := NextWith (exec i s) fun u => Goes s u t id
     let links (i : Instr) (t : Word) (len : Nat) : Prop :=
       NextWith (exec i s) fun u => Goes s u t (·.setGpr 31 (s.me.pc + BitVec.ofNat 64 len))
     (s.PR p = !n → open' (near o21.toInt) → goes (.br o21 n p) (near o21.toInt)) ∧
     (s.PR p = n → DoesNothing (exec (.br o21 n p) s) s 4) ∧
     (open' (near o25.toInt) → goes (.jmp o25) (near o25.toInt) ∧ links (.call o25) (near o25.toInt) 4) ∧
     (s.guard h = true → open' (near l.toInt) →
       goes (.brLong h l) (near l.toInt) ∧ links (.callLong h l) (near l.toInt) 12) ∧
     (open' (s.G a) → goes (.jmpr a) (s.G a) ∧ links (.callr a) (s.G a) 4) ∧
     (open' (s.G 31) → goes .ret (s.G 31))) ∧
  (∀ (a : R32) (s : State), (s.G a).toNat % 4 ≠ 0 →
     let e : Exc := { cause := 0x07, addr := s.G a, info := 2 }
     exec (.jmpr a) s = .next (s.takeTrap s e) ∧ exec (.callr a) s = .next (s.takeTrap s e) ∧
       (a = 31 → exec .ret s = .next (s.takeTrap s e))) ∧
  (∀ (h : Hdr) (o21 : BitVec 21) (o25 : BitVec 25) (l : BitVec 32) (n : Bool) (p : R8) (a : R32) (s : State), s.guard h = true →
     let near (o : Int) : Word := BitVec.ofInt 64 (s.me.pc.toNat + 4 * o)
     let out : Word := 0xFFFFFFFFFFFFFFFC
     let exits (i : Instr) : Prop := exec i s = exec (.exit h 1) s
     (s.PR p = !n → near o21.toInt = out → exits (.br o21 n p)) ∧
     (near o25.toInt = out → exits (.jmp o25) ∧ exits (.call o25)) ∧
     (near l.toInt = out → exits (.brLong h l) ∧ exits (.callLong h l)) ∧
     (s.G a = out → exits (.jmpr a) ∧ exits (.callr a)) ∧
     (s.G 31 = out → exits .ret))

/-! ## Traps -/

/-- R371: a trap at XLVL 0. `u` is the state after the entry's release and acquire at scope .core.
R371: a fault at XLVL 1 leaves what the first trap wrote.
R371, R402: a fault at XLVL 2 stops the strand; a contained machine check with code 0x53 and the death of its task, with the
fault's cause and address, come next. -/
def Obligations.TrapEntry : Prop :=
  (∀ (s : State) (key : Nat) (pc : Word) (e : Exc),
     let u := (s.releaseBy key .core).acquireBy key .core
     let t := u.strand key
     t.xlvl = 0 →
     let v := s.trapEnter key pc e
     v.strand key = { t with
       xpc := pc, xcause := BitVec.ofNat 64 e.cause, xaddr := e.addr, xinfo := e.info, xstat := if t.sup = true then 1 else 0,
       xlvl := 1, sup := true, pc := (t.xvec &&& 0x007FFFFFFFFFF800) + BitVec.ofNat 64 (0x40 * e.cause), run := .running,
       rolling := false, mul := none, call := none, bellWait := none, fence := none, inFlight := 0, body := [],
       performed := none, flush := [] } ∧
     (∀ k, k ≠ key → v.strand k = u.strand k) ∧ { v with strands := u.strands } = u) ∧
  (∀ (s : State) (key : Nat) (pc : Word) (e : Exc), e.cause < 256 →
     let u := (s.releaseBy key .core).acquireBy key .core
     let t := u.strand key
     t.xlvl = 1 →
     let v := s.trapEnter key pc e
     v.strand key = { t with
       xcause2 := BitVec.ofNat 64 e.cause <<< 8 ||| 0x1F, xpc2 := pc, xaddr2 := e.addr, xlvl := 2, sup := true,
       pc := t.xdvec &&& 0x007FFFFFFFFFFFFC, run := .running,
       rolling := false, mul := none, call := none, bellWait := none, fence := none, inFlight := 0, body := [],
       performed := none, flush := [] } ∧
     (∀ k, k ≠ key → v.strand k = u.strand k) ∧ { v with strands := u.strands } = u) ∧
  (∀ (s : State) (key : Nat) (pc : Word) (e : Exc),
     let u := (s.releaseBy key .core).acquireBy key .core
     (u.strand key).xlvl = 2 →
     let v := s.trapEnter key pc e
     (v.strand key).run = .stopped ∧ (v.strand key).pc = (u.strand key).pc ∧ (∀ k, k ≠ key → v.strand k = u.strand k) ∧
       (∃ m : McEvent, m.code = 0x53 ∧ m.cls = 2 ∧ m.unit = key % 2048 ∧
         v.agenda = .event .machineCheckEvent (.check m) ::
           .event .xctlKill (.num3 key e.cause e.addr.toNat) :: u.agenda))

/-- R377: `trap n` enters cause 0x10 with XINFO = n and the next instruction's address, once the strand's draining stores, which
the entry's release waits for, have ended (R164, R180). Stores that were set aside when a position was taken away count too (log 105).
R377, R300: `tret` at S with XLVL 0 goes to XPC with the privilege of XSTAT.PPRIV; the roll of ROLLI is in force where its ACT
is 1. A draining store that was set aside when a position was taken away counts too (log 105).
R377, R371: `tret` at S with a trap unacknowledged raises illegal instruction.
R373, R377: `tack` and `halt` at S, and `yield` where it is a `nop`; R234's `nop`. -/
def Obligations.TrapInstructionResults : Prop :=
  (∀ (n : BitVec 5) (s : State),
     let e : Exc := { cause := 0x10, addr := 0, info := n.setWidth 64 }
     let u := s.drainAll s.cur
     let clear (x : State) : Prop := (x.strand s.cur).drains = [] ∧ x.asideOf s.cur = []
     (clear s → exec (.trap n) s = .next (s.trapEnter s.cur (s.me.pc + 4) e)) ∧
     (clear u → exec (.trap n) s = .next (u.trapEnter s.cur (u.me.pc + 4) e)) ∧
     (¬ clear u → exec (.trap n) s = .next u)) ∧
  (∀ (s : State), s.me.sup = true → s.me.xlvl = 0 → s.me.drains = [] → s.asideOf s.cur = [] →
     NextWith (exec .tret s) fun t =>
       t.me = { s.me with sup := s.me.xstat.getLsbD 0, pc := s.me.xpc, rolling := s.me.rolli.getLsbD 63, body := [] } ∧
       (∀ k, k ≠ s.cur → t.strand k = s.strand k) ∧ { t with strands := s.strands } = s) ∧
  (∀ (s : State), s.me.sup = true → s.me.xlvl ≠ 0 →
     exec .tret s = .next (s.takeTrap s { cause := 0x02, addr := s.me.pc, info := s.ibits })) ∧
  (∀ (s : State),
     (s.me.sup = true →
       NextWith (exec .tack s) (fun t => Retires s t 4 fun x => { x with xlvl := 0 }) ∧
       NextWith (exec .halt s) (fun t => Retires s t 4 fun x => { x with run := .halted })) ∧
     (s.me.xprq.getLsbD 0 = false ∨ s.me.sup = true ∨ s.me.xlvl ≠ 0 → DoesNothing (exec .yield s) s 4) ∧
     DoesNothing (exec .nop s) s 4)

/-- R40, R368: at U the instructions that need S raise privileged at their own address, under any guard. -/
def Obligations.PrivilegedAtUserTraps : Prop :=
  ∀ (h : Hdr) (d a : R32) (s : State), s.me.sup = false →
    ∀ i ∈ [Instr.tret, .tack, .halt, .tlbiPage a, .tlbiAsn a, .tlbiAll, .stest h d a],
      exec i s = .next (s.takeTrap s { cause := 0x03, addr := s.me.pc, info := s.ibits })

/-- R55, R235: which system registers a strand at U may read and write, by number; at S it reads every one.
R237, R15: the identity fields; R237, R370, R149, R284, R287, R298: the registers held by the strand; R195, R196: the counts of the
channels; R238: the counters; R392: the bell registers.
R235, R370, R149, R284, R287, R298: `sr.set` and `sr.swap` at S of the registers whose write has no other effect: the fields
that are RW take the operand's bits, the others keep theirs, and nothing else changes. A write to an RO register has no effect
(R5). -/
def Obligations.SystemRegisterResults : Prop :=
  (∀ (n : SysReg) (d a : R32) (s : State),
     let k := n.number
     let readable : Prop := k ≤ 0x04 ∨ (0x10 ≤ k ∧ k ≤ 0x14) ∨ k = 0x40 ∨ k = 0x41 ∨ (0x50 ≤ k ∧ k ≤ 0x52) ∨ k = 0x71 ∨
       (0x80 ≤ k ∧ k ≤ 0x91) ∨ k = 0xA0
     let writable : Prop := k = 0x90 ∨ k = 0x91 ∨ k = 0xA0
     let trapped (i : Instr) : Prop := exec i s = .next (s.takeTrap s { cause := 0x03, addr := s.me.pc, info := s.ibits })
     (s.me.sup = true ∨ readable → WritesG (exec (.srGet n d) s) s 4 d (s.SR n)) ∧
     (s.me.sup = false → ¬ readable → trapped (.srGet n d)) ∧
     (s.me.sup = false → ¬ writable → trapped (.srSet n a) ∧ trapped (.srSwap n d a)) ∧
     NextWith (exec (.srSet .cseq a) s) (fun t => Retires s t 4 fun t => { t with cseq := s.G a }) ∧
     NextWith (exec (.srSwap .cseq d a) s) fun t => Retires s t 4 fun t => { t with cseq := s.G a }.setGpr d.val s.me.cseq) ∧
  (∀ (s : State) (c : Fin 8), s.cur < 4096 →
     let sid := s.cur % 2048
     let is (n : SysReg) (x : Nat) : Prop := (s.SR n).toNat = x
     is .sid sid ∧ is .cid (sid / 2 % 4) ∧ is .kid (sid / 8 % 64) ∧ is .did (sid / 512) ∧
     (s.SR .mid = if s.admitted = true then BitVec.ofNat 64 s.mid else 0) ∧
     s.SR .ttag = s.me.ttag ∧ s.SR .tidx = s.me.tidx ∧ s.SR .gidx = s.me.gidx ∧ s.SR .gsz = s.me.gsz ∧
     s.SR .castp = s.me.castp ∧ s.SR .xlvl = s.me.xlvl ∧ s.SR .xsave = s.me.xsave ∧ s.SR .keyl = s.me.keyl ∧
     s.SR .xctl = s.me.xctl ∧ s.SR .xprq = s.me.xprq ∧
     s.SR .xvec = s.me.xvec ∧ s.SR .xdvec = s.me.xdvec ∧ s.SR .xpin = s.me.xpin ∧ s.SR .xpc = s.me.xpc ∧ s.SR .xcause = s.me.xcause ∧
     s.SR .xaddr = s.me.xaddr ∧ s.SR .xinfo = s.me.xinfo ∧ s.SR .xstat = s.me.xstat ∧ s.SR .xscr = s.me.xscr ∧
     s.SR .xcause2 = s.me.xcause2 ∧ s.SR .xpc2 = s.me.xpc2 ∧ s.SR .xaddr2 = s.me.xaddr2 ∧ s.SR .xmask = s.me.xmask ∧
     s.SR .xpdl = s.me.xpdl ∧ s.SR .ptbase = s.me.ptbase ∧ s.SR .asn = s.me.asn ∧ s.SR .estat = s.me.estat ∧
     s.SR .rollc = s.me.rollc ∧ s.SR .rolli = s.me.rolli ∧ s.SR .cseq = s.me.cseq ∧
     (let bind := (s.hubGet (0xF00000160000 + 8 * (s.cur % 2048 / 8))).extractLsb' (8 * c.val) 8
      let mine : Prop := bind.getLsbD 7 = true ∧ (bind.extractLsb' 0 3).toNat = s.cur % 8
      let ch := Tab.get Chan.reset s.chans (s.cur / 2048 * 2048 + s.cur % 2048 / 8 * 8 + c.val)
      (mine → s.SR (.dci c) = ch.dci ∧ s.SR (.dcc c) = ch.dcc) ∧ (¬ mine → s.SR (.dci c) = 0 ∧ s.SR (.dcc c) = 0)) ∧
     s.SR .cyc = BitVec.ofNat 64 (s.clk - Tab.get 0 s.dieClk (sid / 512)) ∧ s.SR .time = BitVec.ofNat 64 s.time ∧
     s.SR .bpeal = BitVec.ofNat 64 (s.time / 24000 % 2 ^ 44 * 2 ^ 20 + 24000) ∧
     (let great : Prop := (s.bellIn = true ∧ 40000 ≤ s.bellLen) ∨ (s.bellIn = false ∧ s.bellPeal % 1024 = 0)
      (s.SR .blen).getLsbD 63 = s.bellIn ∧ ((s.SR .blen).getLsbD 62 = true ↔ great) ∧ (s.SR .blen).getLsbD 61 = s.bellOvr ∧
      (s.SR .blen).toNat % 2 ^ 61 = if s.bellIn = true then s.bellLen % 2 ^ 32 else if s.bellPeal % 1024 = 0 then 40000 else 1600) ∧
     s.SR .bnext = BitVec.ofNat 64 s.nextBell ∧
     (∀ i, i < 64 → (s.SR .ebind).getLsbD i = if i = 2 then decide (sid / 4 % 2 = 1) else s.me.ebind.getLsbD i)) ∧
  (∀ (d a : R32) (c : Fin 8) (s : State), s.me.sup = true →
     let x := s.G a
     let keep (m old : Word) : Word := (old &&& ~~~m) ||| (x &&& m)
     let sets (n : SysReg) (old : Word) (f : Strand → Word → Strand) (m : Word) : Prop :=
       NextWith (exec (.srSet n a) s) (fun t => Retires s t 4 fun t => f t (keep m old)) ∧
       NextWith (exec (.srSwap n d a) s) (fun t => Retires s t 4 fun t => (f t (keep m old)).setGpr d.val (s.SR n))
     sets .xvec s.me.xvec (fun t v => { t with xvec := v }) 0x007FFFFFFFFFF800 ∧
     sets .xdvec s.me.xdvec (fun t v => { t with xdvec := v }) 0x007FFFFFFFFFFFFC ∧
     sets .xpin s.me.xpin (fun t v => { t with xpin := v }) 0x800FFFFFFFFF0FFF ∧
     sets .xpc s.me.xpc (fun t v => { t with xpc := v }) (BitVec.allOnes 64) ∧
     sets .xcause s.me.xcause (fun t v => { t with xcause := v }) 0xFF ∧
     sets .xaddr s.me.xaddr (fun t v => { t with xaddr := v }) (BitVec.allOnes 64) ∧
     sets .xinfo s.me.xinfo (fun t v => { t with xinfo := v }) (BitVec.allOnes 64) ∧
     sets .xstat s.me.xstat (fun t v => { t with xstat := v }) 1 ∧
     sets .xscr s.me.xscr (fun t v => { t with xscr := v }) (BitVec.allOnes 64) ∧
     sets .xcause2 s.me.xcause2 (fun t v => { t with xcause2 := v }) 0xFFFF ∧
     sets .xpc2 s.me.xpc2 (fun t v => { t with xpc2 := v }) (BitVec.allOnes 64) ∧
     sets .xaddr2 s.me.xaddr2 (fun t v => { t with xaddr2 := v }) (BitVec.allOnes 64) ∧
     sets .xmask s.me.xmask (fun t v => { t with xmask := v }) 0xF ∧
     sets .xpdl s.me.xpdl (fun t v => { t with xpdl := v }) 0xFFFFFFFF ∧
     sets .ptbase s.me.ptbase (fun t v => { t with ptbase := v }) 0x000FFFFFFFFF0FFF ∧
     sets .asn s.me.asn (fun t v => { t with asn := v }) 0xFFFF ∧
     sets .ebind s.me.ebind (fun t v => { t with ebind := v }) 3 ∧
     sets .estat s.me.estat (fun t v => { t with estat := v }) 0xFFFFFFFF00000000 ∧
     sets .rollc s.me.rollc (fun t v => { t with rollc := v }) (BitVec.allOnes 64) ∧
     sets .rolli s.me.rolli (fun t v => { t with rolli := v }) 0xFFFFFFFFFF7FFFFF ∧
     sets .cseq s.me.cseq (fun t v => { t with cseq := v }) (BitVec.allOnes 64) ∧
     ∀ n ∈ [SysReg.sid, .cid, .kid, .did, .mid, .ttag, .tidx, .gidx, .gsz, .castp, .xlvl, .xsave, .cyc, .time, .bpeal, .bnext,
         .dci c, .dcc c],
       DoesNothing (exec (.srSet n a) s) s 4 ∧ WritesG (exec (.srSwap n d a) s) s 4 d (s.SR n) ∧
     -- XCTL, XPRQ, BLEN and KEYL, whose writes act beyond the register (R370, R378, R392, R149)
     (let xctl := keep 0xFFFFFFFF00000003 s.me.xctl
      (x.getLsbD 2 = false → sets .xctl s.me.xctl (fun t v => { t with xctl := v }) 0xFFFFFFFF00000003) ∧
      (x.getLsbD 2 = true → ∀ i ∈ [Instr.srSet .xctl a, .srSwap .xctl d a], NextWith (exec i s) fun t =>
        t.agenda = .event .xctlKill (.num3 s.cur (s.me.xcause.toNat % 256) s.me.xaddr.toNat) :: s.agenda ∧
        t.me.xctl = xctl ∧ { t with agenda := s.agenda, strands := s.strands } = s ∧ (∀ k, k ≠ s.cur → t.strand k = s.strand k))) ∧
     (let asked (st : Strand) : Strand :=
        if x.getLsbD 0 = true then (if st.xprq.getLsbD 0 = true then st
          else { st with xprq := st.xprq ||| 1, xpdl := (st.xpdl &&& 0xFFFFFFFF) ||| (st.xpdl <<< 32) })
        else { st with xprq := st.xprq &&& ~~~1 }
      (s.taskAt s.cur = none → sets .xprq s.me.xprq (fun t v => { t with xprq := v }) 1) ∧
      ∀ t, s.taskAt s.cur = some t → NextWith (exec (.srSet .xprq a) s) fun u =>
        let now (k : Nat) : Strand := if (∃ p ∈ t.live, p.2 = k) then asked (s.strand k) else s.strand k
        u.me = (now s.cur).advance 4 ∧ (∀ k, k ≠ s.cur → u.strand k = now k) ∧ { u with strands := s.strands } = s ∧
        exec (.srSwap .xprq d a) s = .next (u.modMe fun m => m.setGpr d.val s.me.xprq)) ∧
     (let bell (i : Instr) (f : Strand → Strand) : Prop := NextWith (exec i s) fun t =>
        Retires (if x.getLsbD 61 = true then { s with bellOvr := false } else s) t 4 f
      bell (.srSet .blen a) id ∧ bell (.srSwap .blen d a) (·.setGpr d.val (s.SR .blen))) ∧
     (let at' := (x &&& 0x000FFFFFFFFFFFE0).toNat
      let w := { s.who s.cur with sup := true }
      (∀ e, s.present w.part at' 0 false = .error e → ∃ y v, exec (.srSet .keyl a) s = .next (s.takeTrap v y) ∧
        v.me.keyl = s.me.keyl ∧ v.me.keys = s.me.keys) ∧
      ∀ p v u q, s.present w.part at' 0 false = .ok p →
        s.readPiece (coreOf s.cur) .home (physPiece at' 32 p) 0 (s.tagOf s.cur) = .ok (v, u) → acquire .die u = .ok () q →
        let kept (t : Strand) : Strand := { t with keyl := x &&& 0x000FFFFFFFFFFFE0, keys := q.keysFor (q.partOf q.cur) v }
        NextWith (exec (.srSet .keyl a) s) (fun t => Retires q t 4 kept) ∧
        NextWith (exec (.srSwap .keyl d a) s) (fun t => Retires q t 4 fun m => (kept m).setGpr d.val s.me.keyl)))

/-! ## Vector instructions -/

/-- R242, R31: the integer lane operations.
R243: the literal broadcast in place of V[b]. -/
def Obligations.VectorIntegerResults : Prop :=
  (∀ (h : Hdr) (k : Mask) (ty : Ty) (d a b : R32) (n : BitVec 6) (op : LaneOp) (s : State),
     ty.isAnyFloat = false → s.guard h = true →
     let w := ty.bits
     let x (i : Nat) : BitVec w := laneOf (s.V a) w i
     let y (i : Nat) : BitVec w := laneOf (s.V b) w i
     let gives (i : Instr) (f : Nat → BitVec w) : Prop := WritesLanes (exec i s) s 8 k d w f
     gives (op.vector h k ty d a b) (fun i => op.result ty.isSigned (x i) (y i)) ∧
     gives (.vabs h k ty d a) (fun i => if (x i).msb = true then -(x i) else x i) ∧
     gives (.vneg h k ty d a) (fun i => -(x i)) ∧
     gives (.vmov h k ty d a) x ∧
     gives (.vshlImmediate h k ty d a n) (fun i => LaneOp.shl.result false (x i) (n.setWidth w)) ∧
     gives (.vshrImmediate h k ty d a n) (fun i => LaneOp.shr.result false (x i) (n.setWidth w)) ∧
     gives (.vsarImmediate h k ty d a n) (fun i => LaneOp.sar.result false (x i) (n.setWidth w))) ∧
  (∀ (h : Hdr) (k : Mask) (ty : Ty) (d a : R32) (l : BitVec 32) (iop : LaneOp) (fop : FloatOp) (rm : Rm) (s : State),
     s.guard h = true →
     let w := ty.bits
     let x (i : Nat) : BitVec w := laneOf (s.V a) w i
     let z (i : Nat) : BitVec w := laneOf (s.V d) w i
     let p : BitVec w := l.setWidth w
     let gives (op : BcastOp) (f : Nat → BitVec w) : Prop :=
       WritesLanes (exec (.vectorBroadcastLiteral h k op ty d a l) s) s 12 k d w f
     (ty.isAnyFloat = false →
       gives iop.bcast (fun i => iop.result ty.isSigned (x i) ((l.signExtend 64).setWidth w))) ∧
     (ty.isFloat = true →
       gives (fop.bcast rm) (fun i => fop.result ty rm (x i).toNat p.toNat (z i).toNat) ∧
       gives .fmin (fun i => BitVec.ofNat w (fmin (ffOf ty) (x i).toNat p.toNat)) ∧
       gives .fmax (fun i => BitVec.ofNat w (fmax (ffOf ty) (x i).toNat p.toNat))))

/-- R244, R73: the floating lane operations. -/
def Obligations.VectorFloatResults : Prop :=
  ∀ (h : Hdr) (k : Mask) (ty : Ty) (rm : Rm) (d a b : R32) (op : FloatOp) (s : State), ty.isFloat = true → s.guard h = true →
    let w := ty.bits
    let F := ffOf ty
    let x (i : Nat) : BitVec w := laneOf (s.V a) w i
    let y (i : Nat) : BitVec w := laneOf (s.V b) w i
    let z (i : Nat) : BitVec w := laneOf (s.V d) w i
    let sign : BitVec w := BitVec.ofNat w (2 ^ (w - 1))
    let gives (i : Instr) (f : Nat → BitVec w) : Prop := WritesLanes (exec i s) s 8 k d w f
    gives (op.vector h k ty rm d a b) (fun i => op.result ty rm (x i).toNat (y i).toNat (z i).toNat) ∧
    gives (.vminFloat h k ty d a b) (fun i => BitVec.ofNat w (fmin F (x i).toNat (y i).toNat)) ∧
    gives (.vmaxFloat h k ty d a b) (fun i => BitVec.ofNat w (fmax F (x i).toNat (y i).toNat)) ∧
    gives (.vabsFloat h k ty d a) (fun i => x i &&& ~~~sign) ∧
    gives (.vnegFloat h k ty d a) (fun i => x i ^^^ sign) ∧
    gives (.vsqrt h k ty rm d a) (fun i => BitVec.ofNat w (roundTo F rm (exactSqrt (widen F (x i).toNat))))

/-- R245 to R247. -/
def Obligations.VectorCompareAndMaskResults : Prop :=
  ∀ (h : Hdr) (m md ma mb : R8) (c : Cond) (ty : Ty) (d a b : R32) (s : State), s.guard h = true →
    let w := ty.bits
    let n := 512 / w
    let x (i : Nat) : BitVec w := laneOf (s.V a) w i
    let y (i : Nat) : BitVec w := laneOf (s.V b) w i
    let g := s.MK m
    (md ≠ 0 →
      (∃ r, WritesM (exec (.vcmp h m c ty md a b) s) s 8 md r ∧ ∀ i, i < 64 → r.getLsbD i =
        if n ≤ i then false else if g.getLsbD i = true then Cond.onLanes c ty (x i) (y i) else (s.MK md).getLsbD i) ∧
      WritesM (exec (.mand h md ma mb) s) s 8 md (s.MK ma &&& s.MK mb) ∧
      WritesM (exec (.mor h md ma mb) s) s 8 md (s.MK ma ||| s.MK mb) ∧
      WritesM (exec (.mxor h md ma mb) s) s 8 md (s.MK ma ^^^ s.MK mb) ∧
      WritesM (exec (.mnot h md ma) s) s 8 md (~~~(s.MK ma))) ∧
    (∃ r, WritesV (exec (.vsel h m ty d a b) s) s 8 d r ∧ ∀ i, i < n →
      laneOf r w i = if g.getLsbD i = true then x i else y i) ∧
    (∃ r, WritesG (exec (.mcnt h d ma) s) s 8 d r ∧ r.toNat = (List.range 64).countP fun i => (s.MK ma).getLsbD i) ∧
    (∃ r, WritesG (exec (.mfirst h d ma) s) s 8 d r ∧ r.toNat ≤ 64 ∧
      (∀ i, i < r.toNat → (s.MK ma).getLsbD i = false) ∧ (r.toNat < 64 → (s.MK ma).getLsbD r.toNat = true))

/-- R248, R76, R249, R79. -/
def Obligations.VectorConversionResults : Prop :=
  ∀ (h : Hdr) (k : Mask) (dt sty : Ty) (rm : Rm) (sat : Bool) (d a : R32) (s : State), s.guard h = true →
    let wd := dt.bits
    let ws := sty.bits
    let n := 512 / max ws wd
    let g := s.MK k.m
    let put (w : Nat) (old : Vec) (n : Nat) (f : Nat → BitVec w) (r : Vec) : Prop := ∀ i, i < 512 / w →
      laneOf r w i = if n ≤ i then 0 else if g.getLsbD i = true then f i else if k.z = true then 0 else laneOf old w i
    let x (i : Nat) : BitVec ws := laneOf (s.V a) ws i
    let v (i : Nat) : Int := valueAs sty.isSigned (x i)
    let converted (i : Nat) : BitVec wd :=
      if sty.isAnyFloat = true then
        if dt.isAnyFloat = true then BitVec.ofNat wd (roundTo (ffOf dt) rm (widen (ffOf sty) (x i).toNat))
        else BitVec.ofNat wd (toInt dt.isSigned wd rm sat (widen (ffOf sty) (x i).toNat))
      else if dt.isAnyFloat = true then BitVec.ofNat wd (ofInt (ffOf dt) rm (v i))
      else if sat = true then saturated dt.isSigned wd (v i) else BitVec.ofInt wd (v i)
    (∃ r, WritesV (exec (.vcvt h k dt sty rm sat d a) s) s 8 d r ∧ put wd (s.V d) n converted r) ∧
    (d.val ≤ 29 →
      let d1 : R32 := Fin.ofNat 32 (d.val + 1)
      let d2 : R32 := Fin.ofNat 32 (d.val + 2)
      let term (p : Nat × Nat × Nat → Nat) (i : Nat) : BitVec 16 := BitVec.ofNat 16 (p (split3 (laneOf (s.V a) 32 i).toNat))
      NextWith (exec (.vsplit3 h k d a) s) fun t =>
        Retires s t 8 (fun u => ((u.setVec d.val (t.V d)).setVec d1.val (t.V d1)).setVec d2.val (t.V d2)) ∧
        put 16 (s.V d) 16 (term fun p => p.1) (t.V d) ∧ put 16 (s.V d1) 16 (term fun p => p.2.1) (t.V d1) ∧
        put 16 (s.V d2) 16 (term fun p => p.2.2) (t.V d2))

/-- R79, with the differences as rationals, and R80. -/
def Obligations.ThreeTermSplit : Prop :=
  ∀ x : BitVec 32,
    let v := widen .f32 x.toNat
    let p := split3 x.toNat
    let rounds (q : Rat) (zero : Bool) (r : Nat) : Prop :=
      if q = 0 then r = FF.sign .bf16 zero
      else ∃ u, RoundsTo .bf16 .rne q u ∧
        (u = 0 → r = FF.sign .bf16 (q < 0)) ∧
        (magnitude u ≤ FF.largest .bf16 → (widen .bf16 r).isFinite = true ∧ (widen .bf16 r).rat = u) ∧
        (FF.largest .bf16 < magnitude u → r = if q < 0 then 0xFF7F else 0x7F7F)
    (v = .nan → p = (0x7FC0, 0x7FC0, 0x7FC0)) ∧
    (∀ n, v = .inf n → p = ((x.extractLsb' 16 16).toNat, 0, 0)) ∧
    (v.isFinite = true →
      let hi := (widen .bf16 p.1).rat
      let mid := (widen .bf16 p.2.1).rat
      let lo := (widen .bf16 p.2.2).rat
      rounds v.rat v.neg p.1 ∧ rounds (v.rat - hi) false p.2.1 ∧ rounds (v.rat - hi - mid) false p.2.2 ∧
      (v.rat = 0 ∨ (2 : Rat) ^ (-110 : Int) ≤ magnitude v.rat → hi + mid + lo = v.rat) ∧
      magnitude (hi + mid + lo - v.rat) ≤ (2 : Rat) ^ (-134 : Int))

/-- R250, R251.
R252; R91's orders for the floating types. -/
def Obligations.VectorPermuteAndReductionResults : Prop :=
  (∀ (h : Hdr) (k : Mask) (ty : Ty) (d a b : R32) (o : Bool) (s : State), s.guard h = true →
     let w := ty.bits
     let n := 512 / w
     let x (i : Nat) : BitVec w := laneOf (s.V a) w i
     let y (i : Nat) : BitVec w := laneOf (s.V b) w i
     let e : Nat := if o = true then 1 else 0
     let j := (s.G b).toNat % n
     let gives (i : Instr) (f : Nat → BitVec w) : Prop := WritesLanes (exec i s) s 8 k d w f
     gives (.vperm h k ty d a b) (fun i => x ((y i).toNat % n)) ∧
     gives (.vzip h k ty d a b o) (fun i => if i % 2 = 0 then x (e * (n / 2) + i / 2) else y (e * (n / 2) + i / 2)) ∧
     gives (.vuzp h k ty d a b o) (fun i => if i < n / 2 then x (2 * i + e) else y (2 * (i - n / 2) + e)) ∧
     gives (.vbcast h k ty d a) (fun _ => (s.G a).setWidth w) ∧
     gives (.viota h k ty d) (fun i => BitVec.ofNat w i) ∧
     WritesG (exec (.vext h ty d a b) s) s 8 d ((x j).setWidth 64) ∧
     (∃ r, WritesV (exec (.vins h ty d a b) s) s 8 d r ∧ ∀ i, i < n →
       laneOf r w i = if i = j then (s.G a).setWidth w else laneOf (s.V d) w i)) ∧
  (∀ (h : Hdr) (k : Mask) (ty : Ty) (d a : R32) (op : RedOp) (s : State), s.guard h = true →
     let w := ty.bits
     let n := 512 / w
     let x (i : Nat) : BitVec w := laneOf (s.V a) w i
     let active (l : List Nat) : List Nat := l.filter fun i => (s.MK k.m).getLsbD i
     let fold (l : List Nat) : BitVec w :=
       l.foldl (fun r i => op.combine ty.isSigned r (x i)) (op.empty ty.isSigned w)
     let F := ffOf ty
     let present (i : Nat) : Option Nat := if (s.MK k.m).getLsbD i = true then some (x i).toNat else none
     (ty.isAnyFloat = false →
       WritesV (exec (op.reduce h k.m ty d a) s) s 8 d ((fold (active (List.range n))).setWidth 512) ∧
       WritesLanes (exec (op.scan h k ty d a) s) s 8 k d w fun i => fold (active (List.range (i + 1)))) ∧
     (ty.isFloat = true → op = .add ∨ op = .min ∨ op = .max →
       WritesV (exec (op.reduce h k.m ty d a) s) s 8 d
         (BitVec.ofNat 512 ((treeNode (op.ofFloats F) present (Nat.log2 n) 0).getD (op.ofNone F))) ∧
       WritesLanes (exec (op.scan h k ty d a) s) s 8 k d w fun i =>
         BitVec.ofNat w ((upToLane (op.ofFloats F) present i).getD 0)))

/-- R253 to R256.
R254's special inputs; R255's classes. -/
def Obligations.VectorDotKeySpecialResults : Prop :=
  (∀ (h : Hdr) (k : Mask) (ty : Ty) (d a b : R32) (n : BitVec 5) (s : State), s.guard h = true →
     let w := ty.bits
     let F := ffOf ty
     let e := 32 / w
     let x (i : Nat) : BitVec w := laneOf (s.V a) w i
     let y (i : Nat) : BitVec w := laneOf (s.V b) w i
     let old (i : Nat) : BitVec 32 := laneOf (s.V d) 32 i
     let gives (i : Instr) (w : Nat) (f : Nat → BitVec w) : Prop := WritesLanes (exec i s) s 8 k d w f
     let group (i : Nat) : List Nat := (List.range e).map fun j => e * i + j
     let lane32 (j i : Nat) : Nat := (laneOf (s.V (Fin.ofNat 32 (a.val + j))) 32 i).toNat
     let special (f : FF → FVal → Nat) (i : Nat) : BitVec w := BitVec.ofNat w (f F (widen F (x i).toNat))
     (ty.isAnyFloat = false ∧ w ≤ 32 → gives (.vdot h k ty d a b) 32 (fun i => BitVec.ofInt 32
       (((group i).map fun j => valueAs ty.isSigned (x j) * valueAs ty.isSigned (y j)).sum + (old i).toNat))) ∧
     (ty.isAnyFloat = true → gives (.vdot h k ty d a b) 32 (fun i => BitVec.ofNat 32 (roundTo .f32 .rne (exactSum .rne
       (((group i).map fun j => exactMul (widen F (x j).toNat) (widen F (y j).toNat)) ++ [widen .f32 (old i).toNat]))))) ∧
     (ty.isFloat = true →
       gives (.vexp2 h k ty d a) w (special fexp2) ∧ gives (.vlog2 h k ty d a) w (special flog2) ∧
       gives (.vrcp h k ty d a) w (special frcp) ∧ gives (.vrsqrt h k ty d a) w (special frsqrt) ∧
       gives (.vsinpi h k ty d a) w (special fsinpi) ∧ gives (.vcospi h k ty d a) w (special fcospi) ∧
       gives (.vtanh h k ty d a) w (special ftanh) ∧
       gives (.vclass h k ty d a) w (fun i => BitVec.ofNat w (2 ^ classOf ty (x i).toNat))) ∧
     ((ty = .n32 ∨ ty = .f32) ∧ 1 ≤ n.toNat ∧ n.toNat ≤ 21 ∧ a.val ≤ 29 →
       let c (i j : Nat) : Nat := coordinateOf ty n.toNat (lane32 j i)
       let keys (o : Out) (X : Nat → Nat → Nat) : Prop := ∃ r, WritesV o s 8 d r ∧ ∀ i, i < 8 →
         if (s.MK k.m).getLsbD i = true then
           ∀ q, q < 64 → (laneOf r 64 i).getLsbD q = (q < 3 * n.toNat && (X i (2 - q % 3)).testBit (q / 3))
         else laneOf r 64 i = if k.z = true then 0 else laneOf (s.V d) 64 i
       keys (exec (.vkeyMort h k ty d a n) s) c ∧ keys (exec (.vkeyHilb h k ty d a n) s) fun i => hilbertOf n.toNat (c i))) ∧
  ((∀ F ∈ [FF.f32, FF.bf16],
     let sgn (n : Bool) : Nat := if n = true then 2 ^ (F.width - 1) else 0
     let one := F.bias * 2 ^ F.man
     (∀ f ∈ [fexp2, flog2, frcp, frsqrt, fsinpi, fcospi, ftanh], f F .nan = F.canon) ∧
     fexp2 F (.inf true) = 0 ∧ fexp2 F (.inf false) = F.inf ∧
     flog2 F (.inf false) = F.inf ∧ flog2 F (.inf true) = F.canon ∧
     frsqrt F (.inf false) = 0 ∧ frsqrt F (.inf true) = F.canon ∧
     (∀ n, fsinpi F (.inf n) = F.canon ∧ fcospi F (.inf n) = F.canon ∧ frcp F (.inf n) = sgn n ∧
       ftanh F (.inf n) = sgn n + one) ∧
     (∀ n e, flog2 F (.fin n 0 e) = sgn true + F.inf ∧ frcp F (.fin n 0 e) = sgn n + F.inf ∧
       frsqrt F (.fin n 0 e) = sgn n + F.inf ∧ ftanh F (.fin n 0 e) = sgn n ∧ fexp2 F (.fin n 0 e) = one) ∧
     (∀ m e, m ≠ 0 → flog2 F (.fin true m e) = F.canon ∧ frsqrt F (.fin true m e) = F.canon) ∧
     (∀ n m e, 0 ≤ e → fsinpi F (.fin n m e) = sgn n ∧
       fcospi F (.fin n m e) = (if e = 0 ∧ m % 2 = 1 then sgn true else 0) + one) ∧
     (∀ n m, fcospi F (.fin n (2 * m + 1) (-1)) = 0 ∧
       fsinpi F (.fin n (2 * m + 1) (-1)) = sgn (n != decide (m % 2 = 1)) + one) ∧
     (∀ k, k < 200 → fexp2 F (.fin false k 0) = roundTo F .rne (.fin false 1 k) ∧
       (0 < k → fexp2 F (.fin true k 0) = roundTo F .rne (.fin false 1 (-k)))) ∧
     (∀ (j : Nat) (e : Int), flog2 F (.fin false (2 ^ j) e) = ofInt F .rne (e + j))) ∧
   ∀ ty ∈ [Ty.f32, Ty.bf16], ∀ x : BitVec ty.bits,
     let F := ffOf ty
     let ex := x.toNat / 2 ^ F.man % 2 ^ F.ebits
     let m := x.toNat % 2 ^ F.man
     let top := 2 ^ F.ebits - 1
     classOf ty x.toNat =
       if ex = top ∧ m ≠ 0 then 8
       else if ex = top then (if x.msb = true then 0 else 7)
       else if ex = 0 ∧ m = 0 then (if x.msb = true then 3 else 4)
       else if ex = 0 then (if x.msb = true then 2 else 5)
       else (if x.msb = true then 1 else 6))

/-! ## Number formats -/

/-- R73's `Round` and R74. -/
def Obligations.RoundingIsNearest : Prop :=
  (∀ (F : FF) (rm : Rm) (neg : Bool) (m : Nat) (e : Int), m ≠ 0 →
    ∃ u, RoundsTo F rm (FVal.fin neg m e).rat u ∧ ResultIs F rm neg u (roundTo F rm (.fin neg m e))) ∧
  ∀ (F : FF) (rm : Rm) (neg : Bool),
    roundTo F rm (.inf neg) = F.sign neg + (if F = .e4m3 then 0x7E else F.inf) ∧ roundTo F rm .nan = F.canon

/-- R75, with the exactness that R73 asks for. -/
def Obligations.ExactArithmetic : Prop :=
  ∀ (F : FF) (rm : Rm) (x y z : Nat),
    let A := widen F x
    let B := widen F y
    let C := widen F z
    let fin (v : FVal) : Prop := v.isFinite = true
    let cancelled : Nat := if rm = .rdn then F.sign true else 0
    (fin A → fin B → fin C →
      (exactSum rm [A, B]).rat = A.rat + B.rat ∧ (exactSum rm [A, B.negate]).rat = A.rat - B.rat ∧
      (exactMul A B).rat = A.rat * B.rat ∧ (exactSum rm [exactMul A B, C]).rat = A.rat * B.rat + C.rat ∧
      (A.rat ≠ 0 → B.rat ≠ 0 →
        (A.rat + B.rat = 0 → fadd F rm x y = cancelled) ∧ (A.rat - B.rat = 0 → fsub F rm x y = cancelled) ∧
        ∃ u, RoundsTo F rm (A.rat / B.rat) u ∧ ResultIs F rm (A.neg != B.neg) u (fdiv F rm x y)) ∧
      (A.rat ≠ 0 → A.neg = false → ∃ u, RootRoundsTo F rm A.rat u ∧ ResultIs F rm false u (fsqrt F rm x)) ∧
      (A.rat ≠ 0 → A.neg = true → fsqrt F rm x = F.canon) ∧
      (A.rat = 0 → fsqrt F rm x = F.sign A.neg) ∧
      (A.rat = 0 → B.rat = 0 → A.neg = B.neg → fadd F rm x y = F.sign A.neg) ∧
      (A.rat = 0 → B.rat = 0 → fdiv F rm x y = F.canon) ∧
      (A.rat ≠ 0 → B.rat = 0 → fdiv F rm x y = roundTo F rm (.inf (A.neg != B.neg)))) ∧
    (∀ n n', A = .inf n → B = .inf n' → fdiv F rm x y = F.canon ∧
      (n ≠ n' → fadd F rm x y = F.canon) ∧ (n = n' → fsub F rm x y = F.canon)) ∧
    (∀ n, A = .inf n → fin B →
      fdiv F rm x y = roundTo F rm (.inf (n != B.neg)) ∧ fdiv F rm y x = F.sign (n != B.neg)) ∧
    (A = .inf true → fsqrt F rm x = F.canon) ∧ (A = .inf false → fsqrt F rm x = roundTo F rm (.inf false)) ∧
    (∀ n, A = .inf n → fin B → B.rat = 0 → fmul F rm x y = F.canon ∧ fmul F rm y x = F.canon) ∧
    (A ≠ .nan → B ≠ .nan → exactMul A B ≠ .nan → (widen F (fmul F rm x y)).neg = (A.neg != B.neg))

/-- R77. -/
def Obligations.SelectionOfZerosAndNaNs : Prop :=
  ∀ (F : FF) (x y : Nat),
    let A := widen F x
    let B := widen F y
    (A.isFinite = true → B.isFinite = true →
      condFloat .eq A B = decide (A.rat = B.rat) ∧ condFloat .ne A B = decide (A.rat ≠ B.rat) ∧
      condFloat .lt A B = decide (A.rat < B.rat) ∧ condFloat .le A B = decide (A.rat ≤ B.rat) ∧
      condFloat .gt A B = decide (A.rat > B.rat) ∧ condFloat .ge A B = decide (A.rat ≥ B.rat) ∧
      condFloat .un A B = false ∧
      (A.rat < B.rat → fmin F x y = x ∧ fmax F x y = y) ∧ (B.rat < A.rat → fmin F x y = y ∧ fmax F x y = x) ∧
      (A.rat = 0 → B.rat = 0 → A.neg = true → B.neg = false →
        fmin F x y = x ∧ fmax F x y = y ∧ fmin F y x = x ∧ fmax F y x = y)) ∧
    (A = .nan ∨ B = .nan →
      (∀ c ∈ [Cond.eq, .lt, .le, .gt, .ge], condFloat c A B = false) ∧ condFloat .ne A B = true ∧ condFloat .un A B = true) ∧
    (A = .nan → B ≠ .nan → fmin F x y = y ∧ fmax F x y = y) ∧
    (A ≠ .nan → B = .nan → fmin F x y = x ∧ fmax F x y = x) ∧
    (A = .nan → B = .nan → fmin F x y = F.canon ∧ fmax F x y = F.canon)

/-- R69, at the width of the part's divisions. -/
def Obligations.IntegerDivision : Prop :=
  ∀ (d a b : R32) (s : State),
    let x := s.G a
    let y := s.G b
    let corner : Prop := x.toInt = -2 ^ 63 ∧ y.toInt = -1
    (∃ q r, WritesG (exec (.divI64 d a b) s) s 4 d q ∧ WritesG (exec (.remI64 d a b) s) s 4 d r ∧
      (y = 0 → q.toInt = -1 ∧ r = x) ∧ (corner → q.toInt = -2 ^ 63 ∧ r = 0) ∧
      (y ≠ 0 → ¬ corner → x.toInt = q.toInt * y.toInt + r.toInt ∧ r.toInt.natAbs < y.toInt.natAbs ∧
        (r = 0 ∨ (r.toInt < 0 ↔ x.toInt < 0)))) ∧
    (∃ q r, WritesG (exec (.divN64 d a b) s) s 4 d q ∧ WritesG (exec (.remN64 d a b) s) s 4 d r ∧
      (y = 0 → q.toNat = 2 ^ 64 - 1 ∧ r = x) ∧
      (y ≠ 0 → x.toNat = q.toNat * y.toNat + r.toNat ∧ r.toNat < y.toNat))

/-! ## Encodings and the step -/

/-- R24, R27 to R30, R49 to R65: no bit of an encoding is dropped. -/
def Obligations.DecodeInvertsEncode : Prop :=
  ∀ i : Instr, i.flaw = none →
    ∃ bs, encode i = some bs ∧ (bs.length = 4 ∨ bs.length = 8 ∨ bs.length = 12) ∧ ∀ rest, decode (bs ++ rest) = .ok (i, rest)

/-- R39, R49: each word has one meaning, and no other word has it. -/
def Obligations.EncodeInvertsDecode : Prop :=
  ∀ (bs rest : List Byte) (i : Instr), decode bs = .ok (i, rest) → i.flaw = none ∧ ∃ e, encode i = some e ∧ bs = e ++ rest

/-- R28, R40, R218 to R231, R234, R235, R241, R243, R256, R286, R290, R376 and the worked encodings of the opcode map. -/
def Obligations.WordsOfTheSpec : Prop :=
  let reads (n w : Nat) (i : Instr) : Prop := decode (bytesOfNum n w) = .ok (i, [])
  let u : Hdr := { gp := 0, gn := false, lu := 0, tmp := 0 }
  let k : Mask := { m := 0, z := false }
  reads 4 0x00041482 (.add 9 1 2) ∧ reads 4 0xFFFE9490 (.addImmediate 0x7FFF 9 9) ∧
  reads 4 0x004644A0 (.ld .b64 2 9 4) ∧ reads 4 0x00069522 (.st .b64 0 10 9) ∧
  reads 12 0x0000006400000000_0024910B (.addLiteral { u with gp := 1 } 9 9 100) ∧
  reads 12 0x123456780000000000004007 (.li u 4 0x12345678) ∧
  reads 8 0x0420000400289049 (.bfxN64 u 9 10 8 4) ∧ reads 8 0x0430000000289049 (.bfxI64 u 9 10 12 4) ∧
  reads 4 0x2014911C (.cmpi .lt 10 2 9) ∧ reads 4 0xFFFFE930 (.br 0x1FFFFD false 2) ∧
  reads 4 0x00800036 .ret ∧ reads 4 0x00409036 (.callr 9) ∧
  reads 4 0x104004C0 (.srGet .time 9) ∧ reads 4 0x0A0094C4 (.srSwap .xscr 9 9) ∧
  reads 4 0x00000046 .nop ∧ reads 4 0x00407046 (.trap 7) ∧ reads 4 0x00800046 .tret ∧ reads 4 0x00C00046 .tack ∧
  reads 4 0x01000046 .halt ∧ reads 4 0x01400046 .yield ∧ reads 4 0x04800048 (.fenceRel .die) ∧
  reads 8 0x0028180005109041 (.amoAdd u .i32 .rel .die 9 4 5) ∧
  reads 8 0x0002980003081005 (.vadd u { m := 2, z := true } .i32 1 2 3) ∧
  reads 12 0x3F0000000000300800186023 (.vectorBroadcastLiteral u k (.fmul .rne) .f32 6 6 0x3F000000) ∧
  reads 8 0x0014280400109021 (.vkeyHilb u k .n32 9 4 2) ∧
  reads 8 0x0200000D05122B51 (.tstT2 { gp := 3, gn := true, lu := 0, tmp := 1 } 2 4 5 0 2) ∧
  reads 8 0x0000000400000059 (.wflip u) ∧ reads 8 0x0040000400009065 (.leave u 9 16) ∧
  reads 8 0x0000001C000000B1 (.bellw u)

/-- R39, R50, R58, R65. -/
def Obligations.ReservedWordsTrap : Prop :=
  (∀ w : Nat,
    let sop := w / 2 % 64
    let op := w / 4 % 64
    ((w % 2 = 0 ∧ (sop = 0 ∨ sop = 0x07 ∨ (0x13 ≤ sop ∧ sop ≤ 0x17) ∨ (0x1C ≤ sop ∧ sop ≤ 0x1F) ∨ 0x26 ≤ sop)) ∨
      (w % 4 = 1 ∧ ¬ (1 ≤ op ∧ op ≤ 8) ∧
        op ∉ [0x0C, 0x0D, 0x10, 0x11, 0x12, 0x14, 0x15, 0x16, 0x17, 0x18, 0x19, 0x1C, 0x20, 0x24, 0x28, 0x2C]) ∨
      (w % 4 = 3 ∧ op ∉ [0x01, 0x02, 0x03, 0x04, 0x05, 0x08, 0x0C, 0x14, 0x16, 0x1C, 0x20, 0x24]) ∨
      (w % 2 = 1 ∧ w / 2 ^ 8 % 16 = 8) ∨ (w % 2 = 0 ∧ sop = 0x18 ∧ w / 2 ^ 7 % 16 = 8)) →
    ∃ e, decodeKind w = .error e) ∧
  ∀ (s u v : State) (n w : Nat) (e : Reject), s.Turn u → u.runs u.cur = true → nextInstr u.cur u = .ok (n, w) v →
    decodeKind w = .error e → v.cur = u.cur → v.me.pc = u.me.pc →
    let f := v.fetched w
    step s = ticked (turnHeld u.cur u (.next (f.takeTrap f { cause := 0x02, addr := u.me.pc, info := BitVec.ofNat 64 w })))

/-- R24, R40, R297; R378, R391, R395: the deadlines, the calendar and the order of arrival. The turns and
the time of a step are the model's (log 4, log 5, log 15, log 123). -/
def Obligations.StepRunsDecoded : Prop :=
  (∀ (s u v : State) (n w : Nat) (i : Instr), s.Turn u → u.runs u.cur = true → nextInstr u.cur u = .ok (n, w) v →
    decodeWord w = .ok i →
    (v.me.rolling = false → step s = ticked (turnHeld u.cur u (exec i (v.fetched w)))) ∧
    (∀ j, decodeKind w = .ok (.inl i) → v.me.rolling = true → rollInstr v.me.rollStep i = some j →
      step s = ticked (turnHeld u.cur u (exec j (v.fetched w))))) ∧
  (∀ (s u : State), s.Turn u →
    (u.runs u.cur = false → step s = ticked (.next u)) ∧
    (u.me.rolling = false → nextInstr u.cur u = fetchInstr u.cur u.me.pc u) ∧
    (∀ v, u.runs u.cur = true → nextInstr u.cur u = .wait v → step s = ticked (turnHeld u.cur u (.next v))) ∧
    ∀ e v, u.runs u.cur = true → nextInstr u.cur u = .trap e v → step s = ticked (turnHeld u.cur u (.next (u.takeTrap v e)))) ∧
  (∀ (s : State) (i : Instr) (x : Input) (rest : List Move), s.agenda = .event i x :: rest → s.fatal = false →
    step s = ticked (exec i { s with agenda := rest, input := x })) ∧
  (∀ (s u : State) (key : Nat),
    (s.bellIn = false → turnHeld key u (.next s) = .next s) ∧
    (s.bellIn = true → NextWith (turnHeld key u (.next s)) fun t =>
      let drain : Move := .event .tileDrain (.num key)
      let l := if (s.strand key).drains ≠ [] ∧ drain ∉ s.deferred then s.deferred ++ [drain] else s.deferred
      let waits : Prop := (s.strand key).run = .running ∧ (s.strand key).pc = (u.strand key).pc
      { t with deferred := s.deferred } = s ∧ t.deferred = if waits ∧ .strand key ∉ l then l ++ [.strand key] else l)) ∧
  ∀ s t : State, ticked (.next s) = .next t →
    { t with steps := s.steps, clk := s.clk, strands := s.strands, agenda := s.agenda } = s ∧ t.steps = s.steps + 1 ∧
    t.clk = s.clk + Config.stepClk s.steps ∧
    (∀ k, let x := s.strand k
      let counts : Prop := s.bellIn = false ∧ s.bankOn (clusterOf k) = some (bankOf k) ∧ x.run = .running ∧ x.xprq.getLsbD 0 = true ∧
        x.sup = false ∧ x.xlvl = 0
      { t.strand k with xpdl := x.xpdl } = x ∧ (t.strand k).xpdl.extractLsb' 0 32 = x.xpdl.extractLsb' 0 32 ∧
      ((t.strand k).xpdl.extractLsb' 32 32).toNat =
        (x.xpdl.extractLsb' 32 32).toNat - if counts then Config.stepClk s.steps else 0) ∧
    (let first (i : Instr) : Prop :=
       ((∃ x, .event i x ∈ s.agenda) → t.agenda = s.agenda) ∧ ((∀ x, .event i x ∉ s.agenda) → t.agenda = .event i .none :: s.agenda)
     let begins : Prop := s.bellIn = false ∧ s.nextBell ≤ t.time
     let ends : Prop := s.bellIn = true ∧ s.bellStart + s.bellLen ≤ t.time
     (begins → first (if s.bellPeal % 1024 = 0 then .greatBellBegin else .bellBegin)) ∧
     (ends → first (if s.bellTurns < s.bellLate then .bellExtension else .bellEnd)) ∧
     (¬ begins → ¬ ends → t.agenda = s.agenda))

/-- R372, R24: the fetch through XPIN reads the words in memory order. How a program comes to stand there is log 6's. -/
def Obligations.PlacedWordRuns : Prop :=
  ∀ (w : BitVec 96) (i : Instr), decodeWord w.toNat = .ok i →
    let s := State.reset.withFetchWord 96 w.toNat
    ∃ u, step s = ticked (turnHeld u.cur u (exec i u)) ∧ u.me = s.me ∧ u.cur = s.cur ∧ u.mem = s.mem ∧ u.hub = s.hub ∧
      (lengthOf (w.toNat % 256) ≠ 4 → u.ibits = w.setWidth 64) ∧
      (lengthOf (w.toNat % 256) = 4 → u.ibits = (w.setWidth 32).setWidth 64)

/-- R32, R33, R40. -/
def Obligations.FalseGuardRetires : Prop :=
  ∀ (i : Instr) (r : RawM) (len : Nat) (s : State), i.flaw = none →
    (i.fields = some (.mid r) ∧ len = 8) ∨ (i.fields = some (.long r) ∧ len = 12) → s.me.pred r.gp = decide (r.gn = 1) →
    ((∀ h d a, i ≠ .stest h d a) ∨ s.me.sup = true → DoesNothing (exec i s) s len) ∧
    ∀ h d a, i = .stest h d a → s.me.sup = false →
      exec i s = .next (s.takeTrap s { cause := 0x03, addr := s.me.pc, info := s.ibits })

/-- No meaning ends in a fault or a refusal. -/
def Obligations.EveryStepAnswersNext : Prop :=
  (∀ (i : Instr) (s : State), ∃ t, exec i s = .next t) ∧ (∀ s : State, ∃ t, step s = .next t) ∧ ∀ s : State, Safe s

/-! ## Memory -/

/-- R166, R28: in terms of the access of R165 at the place of R177; what a form that waits leaves rests on log 98, an owner outside the module on log 64, the acknowledgements awaited on log 65, a fill on logs 10 and 41. -/
def Obligations.LoadAndStoreResults : Prop :=
  ∀ (h : Hdr) (ty : Ty) (o : BitVec 11) (sc : R4) (c : Scope) (d a b : R32) (l : BitVec 32) (s : State),
    let n := ty.bits / 8
    let short : Word := BitVec.ofInt 64 ((s.G a).toNat + o.toInt * n)
    let long : Word := BitVec.ofInt 64 ((s.G a).toNat + (s.G b).toNat * 2 ^ sc.val + l.toInt)
    let x := (s.G d).toNat % 2 ^ ty.bits
    let loads (i : Instr) (len : Nat) (r : Res Nat) (acq : State → Res Unit) : Prop :=
      (∀ y u v, r = .ok y u → acq u = .ok () v → exec i s = .next ((v.setG d (loaded ty y)).retire len)) ∧
      (∀ y u v, r = .ok y u → acq u = .wait v → exec i s = .next v) ∧
      (∀ e u, r = .trap e u → exec i s = .next (s.takeTrap u e)) ∧ ∀ u, r = .wait u → exec i s = .next u
    let stores (i : Instr) (len : Nat) (r : Res Unit) (fin : State → Res Unit) : Prop :=
      (∀ u v, r = .ok () u → fin u = .ok () v → exec i s = .next (v.retire len)) ∧
      (∀ u v, r = .ok () u → fin u = .wait v → exec i s = .next v) ∧
      (∀ e u, r = .trap e u → exec i s = .next (s.takeTrap u e)) ∧ ∀ u, r = .wait u → exec i s = .next u
    let plain (u : State) : Res Unit := .ok () u
    let performs (w : Who) (u : State) : Res Unit :=
      match u.pieceOf w .store Align.any long.toNat n with
      | .ok (p, _, _) => if p.level (levelOf c) = .home ∧ (rangeParts long n).length = 1 then perform p n 0 u else .ok () u
      | .error _ => .ok () u
    loads (.ld ty o d a) 4 (memReadAt (s.who s.cur) .core short n false 0 s) plain ∧
    stores (.st ty o d a) 4 (memWriteAt (s.who s.cur) .core short n x false 0 s) plain ∧
    (s.guard h = true →
      loads (.ldLong h ty none sc d a b l) 12 (memReadAt (s.who s.cur) .core long n false h.tmp.toNat s) plain ∧
      loads (.ldLong h ty (some c) sc d a b l) 12 (memReadAt (s.who s.cur) (levelOf c) long n true h.tmp.toNat s) (acquire c) ∧
      stores (.stLong h ty none sc d a b l) 12 (memWriteAt (s.who s.cur) .core long n x false h.tmp.toNat s) plain ∧
      (s.me.performed = none →
        (∀ v, release c s = .wait v → exec (.stLong h ty (some c) sc d a b l) s = .next v) ∧
        ∀ v, release c s = .ok () v →
          stores (.stLong h ty (some c) sc d a b l) 12 (memWriteAt (v.who v.cur) (levelOf c) long n x true h.tmp.toNat v)
            (performs (v.who v.cur))) ∧
      ∀ y, s.me.performed = some y →
        (∀ v, awaited y s = .ok () v → exec (.stLong h ty (some c) sc d a b l) s = .next (v.retire 12)) ∧
        ∀ v, awaited y s = .wait v → exec (.stLong h ty (some c) sc d a b l) s = .next v)

/-- R171, R172: in terms of the indivisible access of R165; what a form that waits leaves rests on log 98, an owner outside the module on log 64, the acknowledgements awaited on log 65. -/
def Obligations.AtomicResults : Prop :=
  ∀ (h : Hdr) (op : AmoOp) (ty : Ty) (o : Order) (c : Scope) (d a b : R32) (s : State), s.guard h = true →
    let w := ty.bits
    let x : BitVec w := (s.G b).setWidth w
    let expected : BitVec w := (s.G d).setWidth w
    let rel : Prop := o = .rel ∨ o = .ar
    let acq : Prop := o = .acq ∨ o = .ar
    let value (old : BitVec w) : BitVec w :=
      match op with
      | .add => old + x
      | .and => old &&& x
      | .or => old ||| x
      | .xor => old ^^^ x
      | .min => if valueAs ty.isSigned old ≤ valueAs ty.isSigned x then old else x
      | .max => if valueAs ty.isSigned x ≤ valueAs ty.isSigned old then old else x
      | .swap => x
      | .fadd => BitVec.ofNat w (fadd .f32 .rne old.toNat x.toNat)
    let mark (p : Option Performed) (u : State) : State := u.modMe fun t => { t with performed := p }
    let awaits (y : Performed) (u : State) : Prop :=
      ∃ m ∈ u.acks, m.key = y.key ∧ m.addr < y.addr + y.n ∧ y.addr < m.addr + m.grain
    let ends (i : Instr) (g : Nat → Word) (y : Performed) (u : State) : Prop :=
      (awaits y u → exec i s = .next u) ∧
      (¬ awaits y u →
        (¬ acq → exec i s = .next (((mark none u).setG d (g y.old)).retire 8)) ∧
        (acq → (∀ z, acquire c (mark none u) = .ok () z → exec i s = .next ((z.setG d (g y.old)).retire 8)) ∧
          ∀ z, acquire c (mark none u) = .wait z → exec i s = .next (mark (some y) z)))
    let runs (i : Instr) (f : Nat → Option Nat) (g : Nat → Word) : Prop :=
      (∀ y, s.me.performed = some y → ends i g y s) ∧
      (s.me.performed = none →
        (rel → ∀ u, release c s = .wait u → exec i s = .next u) ∧
        ∀ v, (rel → release c s = .ok () v) → (¬ rel → v = s) →
          (∀ old u, memAtomic (v.who v.cur) (v.G a) (w / 8) c f h.tmp.toNat v = .ok old u →
            let y := u.performedAt (u.G a) (w / 8) old
            ends i g y (mark (some y) u)) ∧
          (∀ e u, memAtomic (v.who v.cur) (v.G a) (w / 8) c f h.tmp.toNat v = .trap e u → exec i s = .next (s.takeTrap u e)) ∧
          ∀ u, memAtomic (v.who v.cur) (v.G a) (w / 8) c f h.tmp.toNat v = .wait u → exec i s = .next u)
    (∀ old : BitVec w, (op = .fadd → ty = .f32) → amoValue op ty old.toNat x.toNat = (value old).toNat) ∧
    runs (AmoOp.instr op h ty o c d a b) (fun old => some (amoValue op ty old x.toNat)) (loaded ty) ∧
    runs (.cas h ty o c d a b) (fun old => if old = expected.toNat then some x.toNat else none) (BitVec.ofNat 64)

/-- R372, R165, R177, R4: an access with every hypothesis on the state (`PinnedAt`), down to the bytes of storage; bytes that nothing has written rest on log 1.
R162, R171, R172 down to the bytes of storage; bytes that nothing has written rest on log 1, the acknowledgements awaited on log 65. -/
def Obligations.PinnedPageResults : Prop :=
  (∀ (h : Hdr) (ty : Ty) (o : BitVec 11) (d a : R32) (s : State) (key pa : Nat),
     let n := ty.bits / 8
     let va : Word := BitVec.ofInt 64 ((s.G a).toNat + o.toInt * n)
     let x := (s.G d).toNat % 2 ^ ty.bits
     PinnedAt s va n key pa →
     NextWith (exec (.ld ty o d a) s) (fun t =>
       t.me = (s.me.setGpr d.val (loaded ty (s.readMem key pa n))).advance 4 ∧ t.mem = s.mem ∧ t.hub = s.hub ∧
       ∀ k, k ≠ s.cur → t.strand k = s.strand k) ∧
     NextWith (exec (.st ty o d a) s) (fun t =>
       t.me = s.me.advance 4 ∧ t.mem = s.mem ∧ t.hub = s.hub ∧ (∀ k, k ≠ s.cur → t.strand k = s.strand k) ∧
       ∃ u, memReadAt (t.who t.cur) .core va n false 0 t = .ok x u) ∧
     ((s.G a).toNat % n = 0 → PinnedAt s (s.G a) n key pa → s.guard h = true →
       NextWith (exec (.stLong h ty (some .die) 0 d a 0 0) s) fun t =>
         t.me = s.me.advance 12 ∧ t.hub = s.hub ∧ (∀ k, k ≠ s.cur → t.strand k = s.strand k) ∧ t.readMem key pa n = x ∧
         ∀ k, k < s.memKey key pa ∨ s.memKey key pa + n ≤ k → Memory.read t.mem k 1 = Memory.read s.mem k 1)) ∧
  (∀ (h : Hdr) (ty : Ty) (d a b : R32) (s : State) (key pa : Nat),
     let w := ty.bits
     let n := w / 8
     let old := s.readMem key pa n
     let same (t : State) (v : Word) : Prop :=
       t.me = (s.me.setGpr d.val v).advance 8 ∧ (∀ k, k ≠ s.cur → t.strand k = s.strand k) ∧ t.hub = s.hub ∧
         ∀ k, k < s.memKey key pa ∨ s.memKey key pa + n ≤ k → Memory.read t.mem k 1 = Memory.read s.mem k 1
     4 ≤ n → (s.G a).toNat % n = 0 → PinnedAt s (s.G a) n key pa → s.guard h = true →
     NextWith (exec (.amoAdd h ty .none .die d a b) s) (fun t =>
       same t (loaded ty old) ∧ t.readMem key pa n = (old + (s.G b).toNat) % 2 ^ w) ∧
     NextWith (exec (.cas h ty .none .die d a b) s) fun t =>
       same t (BitVec.ofNat 64 old) ∧
         t.readMem key pa n = if old = (s.G d).toNat % 2 ^ w then (s.G b).toNat % 2 ^ w else old)

/-- R179, R180: a release and an acquire at scope .core change nothing where the strand has no draining store.
R173 to R175, R167, R367; that a line counts as present under a stale stamp rests on log 127. -/
def Obligations.FenceResults : Prop :=
  (∀ (s : State) (key : Nat), (s.strand key).drains = [] → (s.releaseBy key .core).acquireBy key .core = s) ∧
  (∀ (c : Scope) (o : BitVec 11) (d a b : R32) (s : State),
     let core := coreOf s.cur
     let whole (q : Piece) : Piece :=
       { q with va := (s.G a).toNat / 128 * 128, n := 128,
                t := match q.t with | .far pa => .far (pa / 128 * 128) | t => t.at (t.addr / 128 * 128) }
     let line (i : Instr) (through : Bool) (p : Line → Prop) : Prop := ∀ q u v,
       s.pieceAD (s.who s.cur) .maintain Align.any (s.G a).toNat 1 false = .ok (q, u) →
       (leafClass q.attr ≠ 0 ∨ leafSub q.attr = true → exec i s = .next (u.retire 4)) ∧
       (∀ w, leafClass q.attr = 0 → leafSub q.attr = false → settle u.cur [whole q] u = .wait w → exec i s = .next w) ∧
       (∀ w, leafClass q.attr = 0 → leafSub q.attr = false → settle u.cur [whole q] u = .ok () w → coreOf w.cur = core →
         (through = true → w.toHome core q.nativeTag = .ok v ∧ v.acks = []) →
         NextWith (exec i s) fun t => ∀ l, (t.coreCache core).find q.nativeTag = some l ∨
           (t.clusterCache (core / 4)).find q.nativeTag = some l → p l)
     let purges (i : Instr) (hit : TlbEntry → Prop) : Prop := ∀ q, s.partOf s.cur = some q → s.me.sup = true →
       (∀ e ∈ s.strands, s.partOf e.1 = some q → e.2.drains = []) → s.aside = [] →
       (∀ e ∈ s.chans, ∀ c, e.2.now = some c → c.xfer.part = q → c.writes = none) →
       NextWith (exec i s) fun t => ∀ unit, ∀ e ∈ Tab.get [] t.tlb unit, e.part = q → ¬ hit e
     let ranges (e : TlbEntry) : Prop := e.vbase ≤ (s.G a).toNat ∧ (s.G a).toNat < e.vbase + e.size
     let near := (BitVec.ofInt 64 ((s.G a).toNat + o.toInt * 128)).toNat
     let touches (i : Instr) (present : Nat → Piece → State → Bool) (fetch : Nat → Piece → State → Except Miss State) : Prop :=
       let r := s.pieceAD (s.who s.cur) .prefetch Align.any (near / 128 * 128) 128 false
       let logged (v : State) (c x k : Nat) : State := (v.logError c x k ((v.partOf v.cur).getD 0) (sidOf v.cur)).2
       let held (v w : State) : State := if s.bellIn = true then v.retire 4 else w
       (∀ e l x u, r = .error (.fault e l x, u) → exec i s = .next (u.retire 4)) ∧
       (∀ e x k u, r = .error (.abort e x k, u) → u.cur = s.cur → u.partOf u.cur = s.partOf s.cur →
         exec i s = .next ((logged u e x k).retire 4)) ∧
       (∀ v u, r = .error (.held v, u) → u.bellIn = s.bellIn → exec i s = .next (held u v)) ∧
       ∀ p u, r = .ok (p, u) →
         (leafClass p.attr ≠ 0 ∨ present core p u = true → exec i s = .next (u.retire 4)) ∧
         (leafClass p.attr = 0 → present core p u = false →
           (∀ w, u.settleAlias core p = .error w → exec i s = .next (held u w)) ∧
           ∀ v, u.settleAlias core p = .ok v →
             (∀ w, fetch core p v = .ok w → exec i s = .next (w.retire 4)) ∧
             (∀ e x, fetch core p v = .error (.err e x) → exec i s = .next ((logged v e x p.key).retire 4)) ∧
             ∀ w, fetch core p v = .error (.held w) → v.bellIn = s.bellIn → exec i s = .next (held v w))
     let waits (i : Instr) (ok : Word → Prop) : Prop :=
       ((s.G a).toNat % 8 ≠ 0 → exec i s = .next (s.takeTrap s { cause := 0x07, addr := s.G a, info := 3 })) ∧
       ((s.G a).toNat % 8 = 0 → ∀ x u, memReadAt (s.who s.cur) .home (s.G a) 8 true 0 s = .ok x u →
         (ok (BitVec.ofNat 64 x) →
           (∀ v, acquire .die u = .ok () v → exec i s = .next ((v.setG d (BitVec.ofNat 64 x)).retire 4)) ∧
           ∀ v, acquire .die u = .wait v → exec i s = .next v) ∧
         (¬ ok (BitVec.ofNat 64 x) → exec i s = .next u))
     let atOnce (u : State) : Prop :=
       (c = .core ∨ u.me.flushing = none) ∧ u.me.flush = [] ∧ u.acquireWaits (coreOf u.cur) (levelOf c) = none
     let u := s.releaseBy s.cur c
     (atOnce s → exec (.fenceAcq c) s = .next ((s.acquireBy s.cur c).retire 4)) ∧
     (∀ v, acquire c s = .wait v → exec (.fenceAcq c) s = .next v) ∧
     (u.releaseDone s.cur c = true →
       exec (.fenceRel c) s = .next (u.retire 4) ∧ (atOnce u → exec (.fenceAr c) s = .next ((u.acquireBy u.cur c).retire 4)) ∧
       ∀ v, acquire c u = .wait v → exec (.fenceAr c) s = .next v) ∧
     (u.releaseDone s.cur c = false → exec (.fenceRel c) s = .next u ∧ exec (.fenceAr c) s = .next u) ∧
     line (.cflWt a) true (fun l => l.dirty = 0) ∧ line (.cflInv a) false (fun l => l.valid = l.dirty) ∧
     line (.cflWi a) true (fun _ => False) ∧
     purges (.tlbiPage a) (fun e => (e.glob = true ∨ e.asn = s.me.asn.toNat % 2 ^ 16) ∧ ranges e) ∧
     purges (.tlbiAsn a) (fun e => e.glob = false ∧ e.asn = (s.G a).toNat % 2 ^ 16) ∧ purges .tlbiAll (fun _ => True) ∧
     touches (.pfL1 o a) (fun core p s => (s.coreCache core).has p.tag) fetchL1 ∧
     touches (.pfCc o a) (fun core p s => (s.clusterCache (core / 4)).has p.tag) fetchCc ∧ touches (.pfL2 o a) heldL2 fetchL2 ∧
     waits (.waitNe d a b) (fun x => x ≠ s.G b) ∧ waits (.waitEq d a b) (fun x => x = s.G b) ∧
     waits (.waitGe d a b) (fun x => (s.G b).toNat ≤ x.toNat))

/-- R168, R169, R31, R297; what a form that waits leaves rests on logs 65 and 98, the A bit that a prefetch sets on log 54. -/
def Obligations.VectorMemoryResults : Prop :=
  ∀ (h : Hdr) (k : Mask) (ty : Ty) (d a b : R32) (i : BitVec 14) (sc : R4) (l : BitVec 32) (s : State), s.guard h = true →
    let w := ty.bits
    let n := w / 8
    let tmp := h.tmp.toNat
    let act := activeOf (s.MK k.m) n
    let base := (s.base a).toNat
    let at' (o : Int) : Word := BitVec.ofInt 64 (base + o)
    let contig (j : Nat) : Word := at' (i.toInt * 64 + j * n)
    let stride (j : Nat) : Word := at' (i.toInt * n + j * (s.G b).toNat)
    let long (j : Nat) : Word := at' (j * l.toInt)
    let gather (j : Nat) : Word := at' ((laneOf (s.V b) w j).toInt * 2 ^ sc.val)
    let puts (i : Instr) (len : Nat) (v : State) (f : Nat → BitVec w) : Prop :=
      ∃ r, NextWith (exec i s) (fun t => Retires v t len (·.setVec d.val r)) ∧ MaskedTo k.z (v.MK k.m) w (v.V d) r f
    let loads (i : Instr) (len : Nat) (addr : Nat → Word) : Prop :=
      (∀ u xs v, checkLanes .load n addr act s = .ok () u → mapEach (readLane n tmp addr) act u = .ok xs v →
        puts i len v fun j => BitVec.ofNat w (xs.getD (act.idxOf j) 0)) ∧
      (∀ e u, checkLanes .load n addr act s = .trap e u → exec i s = .next (s.takeTrap u e))
    let stores (i : Instr) (len : Nat) (addr : Nat → Word) : Prop :=
      (∀ t u v, checkLanes .store n addr act s = .ok () t → forEach (readyLane n tmp addr) act t = .ok () u →
        forEach (fun j x => memWriteAt ((x.who x.cur).lane j) .core (addr j) n (laneOf (s.V d) w j).toNat false tmp x) act u =
          .ok () v → exec i s = .next (v.retire len)) ∧
      (∀ t e u, checkLanes .store n addr act s = .ok () t → forEach (readyLane n tmp addr) act t = .trap e u →
        exec i s = .next (s.takeTrap u e)) ∧
      (∀ e u, checkLanes .store n addr act s = .trap e u → exec i s = .next (s.takeTrap u e))
    loads (.vld h k ty d a i) 8 contig ∧ loads (.vlds h k ty d a b i) 8 stride ∧ loads (.vldsLiteral h k ty d a l) 12 long ∧
    loads (.vgat h k ty d a b sc) 8 gather ∧
    (act = [] → puts (.vldb h k ty d a i) 8 s fun _ => 0) ∧
    (∀ j rest x v, act = j :: rest → readLane n tmp (fun _ => at' (i.toInt * n)) j s = .ok x v →
      puts (.vldb h k ty d a i) 8 v fun _ => BitVec.ofNat w x) ∧
    stores (.vst h k.m ty d a i) 8 contig ∧ stores (.vsts h k.m ty d a b i) 8 stride ∧
    stores (.vstsLiteral h k.m ty d a l) 12 long ∧ stores (.vsct h k.m ty d a b sc) 8 gather

/-! ## Tiles -/

/-- R274 to R278, R35; the pool and what gives a tile back rest on log 7. -/
def Obligations.TileMoveResults : Prop :=
  ∀ (h : Hdr) (d a : R8) (g : R32) (row : BitVec 6) (hi : Bool) (list : BitVec 14) (x : TileName) (s : State), s.guard h = true →
    let td := 32 + d.val
    let ta := 32 + a.val
    let at' := 1024 * row.toNat + (if hi = true then 512 else 0)
    let killed (k : Nat) (m : Strand) : Strand := if h.lu.getLsbD 0 = true then m.killReg k else m
    let named (k : Nat) : Bool := if k < 44 then list.getLsbD (k - 32) else if k = 45 then list.getLsbD 12 else list.getLsbD 13
    (exec (.tzero h d) s = .next ((s.modMe fun m => m.setTile td TileReg.zero).retire 8)) ∧
    (¬ s.canSettle [ta] → exec (.tmov h d a) s = .next (s.settled [ta]) ∧ exec (.tr2v h g a row hi) s = .next (s.settled [ta])) ∧
    (¬ s.canSettle [td] → exec (.v2tr h d g row hi) s = .next (s.settled [td])) ∧
    (s.canSettle [td] → ¬ (s.settled [td]).canRoom false → exec (.v2tr h d g row hi) s = .next ((s.settled [td]).withRoom false)) ∧
    (s.canSettle [ta] →
      NextWith (exec (.tmov h d a) s) (fun t => Retires (s.settled [ta]) t 8 fun m =>
        (if a = d then id else killed ta) (m.setTile td { m.tile ta with disc := false })) ∧
      NextWith (exec (.tr2v h g a row hi) s) fun t => Retires (s.settled [ta]) t 8 fun m =>
        killed ta (m.setVec g.val ((m.tile ta).val.extractLsb' at' 512))) ∧
    (s.canSettle [td] → (s.settled [td]).canRoom false →
      let old := ((s.settled [td]).me.tile td).val
      ∃ y : Tile, (∀ i, y.getLsbD i = if at' ≤ i ∧ i < at' + 512 then (((s.settled [td]).withRoom false).V g).getLsbD (i - at') else old.getLsbD i) ∧
        TakesTile (exec (.v2tr h d g row hi) s) ((s.settled [td]).withRoom false) 8 td y 0 id) ∧
    NextWith (exec (.tdisc h list) s) (fun t =>
      (∀ k, 32 ≤ k → k < 46 →
        (if 40 ≤ k ∧ k < 44 then t.me.acc k = { s.me.acc k with disc := (s.me.acc k).disc || named k }
         else t.me.tile k = { s.me.tile k with disc := (s.me.tile k).disc || named k })) ∧
      { t.me with tiles := s.me.tiles, accs := s.me.accs } = s.me.advance 8 ∧
      (∀ k, k ≠ s.cur → t.strand k = s.strand k) ∧ { t with strands := s.strands } = s) ∧
    ∃ w : Word,
      (let k := TileName.field x
       let acc : Bool := 40 ≤ k ∧ k < 44
       let phys := if acc = true then (s.me.acc k).phys else (s.me.tile k).phys
       w.toNat / 2 ^ 7 = 0 ∧ w.toNat / 2 ^ 5 % 4 = (if k < 40 then 0 else if acc = true then 1 else 2) ∧
       w.getLsbD 4 = (!acc && phys != 0 && s.me.tiles.any fun e => e.1 != k && e.2.phys == phys) ∧
       w.getLsbD 3 = (if acc = true then (s.me.acc k).disc else (s.me.tile k).disc) ∧
       w.getLsbD 2 = (phys == 0) ∧ w.toNat % 4 = if s.me.draining k = true then 3 else 2) ∧
      NextWith (exec (.tstat h g x) s) fun t => Retires s t 8 fun m => killed (TileName.field x) (m.setGpr g.val w)

/-- R266 to R268, R272, R273, in terms of the row accesses of R267; the pool rests on log 7, a form that waits on log 98, the hint bits on log 132.
R267, R268, R273; what a drain loses rests on logs 105 and 126. -/
def Obligations.TileLoadStoreAndDrain : Prop :=
  (∀ (h : Hdr) (d : R8) (a b : R32) (rows : BitVec 6) (rb : BitVec 4) (l : BitVec 32) (s : State), s.guard h = true →
     let n := 8 * (rb.toNat + 1)
     let R := if rows = 0 then 64 else rows.toNat
     let k := 32 + d.val
     let bad : Prop := n % 16 ≠ 0
     let shape : Exc := { cause := 0x0A, addr := 0, info := BitVec.ofNat 64 (64 * rb.toNat + rows.toNat) }
     let loads (i : Instr) (t2 : Bool) (len : Nat) (stride : Word) : Prop :=
       let v := s.withRoom false
       let row (j : Nat) (u : State) := (readRow rowAlign n h.tmp.toNat j (v.base a + BitVec.ofNat 64 j * stride) u).andThen fun x u =>
         .ok x (u.begun true)
       let r := mapEach row (List.range R) v
       (t2 = true ∧ bad → exec i s = .next (s.takeTrap s shape)) ∧
       (¬ (t2 = true ∧ bad) → (¬ s.canRoom false → exec i s = .next v) ∧ (s.canRoom false →
         (∀ xs u, r = .ok xs u →
           ∃ y, TileIs y t2 n R xs ∧
             TakesTile (exec i s) ((u.begun false).addTrits (if t2 = true then tritsIn n xs else 0)) len k y 0 id) ∧
         (∀ e u, r = .trap e u → exec i s = .next (s.takeTrap u e)) ∧ (∀ u, r = .wait u → exec i s = .next u)))
     let stores (i : Instr) (t2 : Bool) (len : Nat) (stride : Word) : Prop :=
       let v := s.settled [k]
       (t2 = true ∧ bad → exec i s = .next (s.takeTrap s shape)) ∧
       (¬ (t2 = true ∧ bad) → (¬ s.canSettle [k] → exec i s = .next v) ∧ (s.canSettle [k] →
         ∃ xs : List Nat, xs.length = R ∧
           (∀ j, j < R → xs.getD j 0 < 2 ^ (8 * n) ∧ ∀ c, c < 4 * n →
             xs.getD j 0 / 4 ^ c % 4 = (tritKept t2 ((v.me.tile k).val.extractLsb' (1024 * j + 2 * c) 2)).toNat) ∧
           let r := storeRows false (v.me.tile k).phys n h.tmp.toNat (v.base a) stride xs v
           (∀ u, r = .ok () u → exec i s = .next (u.retire len)) ∧
           (∀ e u, r = .trap e u → exec i s = .next (s.takeTrap u e)) ∧ ∀ u, r = .wait u → exec i s = .next u))
     (∀ (u : State) (on : Bool), (u.begun on).me.inFlight % 2 = (if on = true then 1 else 0) ∧
       { (u.begun on).me with inFlight := u.me.inFlight } = u.me) ∧
     (∀ (u : State) (c : Nat), (u.addTrits c).me.estat =
       BitVec.ofNat 64 (u.me.estat.toNat % 2 ^ 48 + 2 ^ 48 * min 65535 (u.me.estat.toNat / 2 ^ 48 + c))) ∧
     loads (.tld h d a b rows rb) false 8 (s.G b) ∧ loads (.tldLiteral h d a rows rb l) false 12 (l.signExtend 64) ∧
     loads (.tldT2 h d a b rows rb) true 8 (s.G b) ∧ loads (.tldT2Literal h d a rows rb l) true 12 (l.signExtend 64) ∧
     stores (.tst h d a b rows rb) false 8 (s.G b) ∧ stores (.tstLiteral h d a rows rb l) false 12 (l.signExtend 64) ∧
     stores (.tstT2 h d a b rows rb) true 8 (s.G b) ∧ stores (.tstT2Literal h d a rows rb l) true 12 (l.signExtend 64)) ∧
  (∀ (acc : Bool) (phys n tmp : Nat) (base stride : Word) (xs : List Nat) (key : Nat) (s : State),
     (∀ u, storeRows acc phys n tmp base stride xs s = .ok () u → u.cur = s.cur ∧ (∀ k, k ≠ s.cur → u.strand k = s.strand k) ∧
       ∃ rows, u.me = { s.me with drains := s.me.drains ++ [{ acc := acc, phys := phys, rows := rows }] } ∧
         (∀ r ∈ rows, ∃ j o, j < xs.length ∧ r.va = ((base + BitVec.ofNat 64 j * stride).toNat + o) % 2 ^ 64 ∧ o + r.n ≤ n ∧
           r.data = xs.getD j 0 / 2 ^ (8 * o) % 2 ^ (8 * r.n) ∧ r.tmp = tmp) ∧
         ∀ j o, j < xs.length → o < n → ∃ r ∈ rows, ∃ p, p ≤ o ∧ o < p + r.n ∧
           r.va = ((base + BitVec.ofNat 64 j * stride).toNat + p) % 2 ^ 64 ∧ r.data = xs.getD j 0 / 2 ^ (8 * p) % 2 ^ (8 * r.n)) ∧
     (s.input = .num key →
       let perform (l : List DrainRow) (u : State) : Try := l.foldlM (fun u r => u.drainPart key (s.tagOf key) r 0 r.n) u
       let all (l : List DrainRow) := l.flatMap fun r => (parts r.pa r.n).map fun q => r.part (q.1 - r.pa) q.2
       ((s.strand key).drains = [] → exec .tileDrain s = .next s) ∧
       ∀ d ds, (s.strand key).drains = d :: ds → s.asideOf key = [] →
         (∀ u, perform (all d.rows) s = .ok u →
           exec .tileDrain s = .next (u.modStrand key fun t => { t with drains := ds })) ∧
         ∀ pre r post v u, all d.rows = pre ++ r :: post → perform pre s = .ok v → v.drainPart key (s.tagOf key) r 0 r.n = .error u →
           ((∀ q ∈ post, q.meets r = true) →
             exec .tileDrain s = .next (u.modStrand key fun t => { t with drains := { d with rows := r :: post } :: ds })) ∧
           ∀ w, (∀ q ∈ post, q.meets r = false) → perform post u = .ok w →
             exec .tileDrain s = .next (w.modStrand key fun t => { t with drains := { d with rows := [r] } :: ds })))

/-! ## The matrix engine -/

/-- R289, R290, R282, R285, R86; the estimate of a memory form in R394. How a form that waits keeps its credits rests on log 98. -/
def Obligations.PlaneResults : Prop :=
  ∀ (h : Hdr) (a : R8) (b : R32) (l : BitVec 32) (s : State), s.guard h = true →
    let ta := 32 + a.val
    let c := clusterOf s.cur
    let killed (m : Strand) : Strand := if h.lu.getLsbD 0 = true then m.killReg ta else m
    let rows (v : Tile) : List Nat := (List.range 64).map fun r => (v.extractLsb' (1024 * r) 1024).toNat
    let v := s.settled [ta]
    let src := (v.me.tile ta).val
    let x := s.settled [44]
    let begins : Prop := s.drainAdmits 160 = true ∨ s.me.inFlight % 2 = 1
    let asked := { s with leaveQ := s.leaveQ ++ [{ owner := .strand s.cur, cluster := c, n := 4, since := s.clk }] }
    let reads (i : Instr) (t2 : Bool) (tag : Nat) (row : Nat → Word → State → Res Nat) : Prop :=
      let keeps (u : State) : State := { u with leaveGot := .strand s.cur :: u.leaveGot }
      let credited (g : State) : Prop :=
        let v := g.withRoom false
        (¬ g.canRoom false → exec i s = .next (keeps v)) ∧
        (g.canRoom false →
          let all := mapEach (fun j u => (row j (v.base b + BitVec.ofNat 64 j * l.signExtend 64) u).andThen fun x u => .ok x (u.begun true))
            (List.range 64) v
          (∀ xs w, all = .ok xs w →
            let w' := w.addTrits (if t2 = true then tritsIn 128 xs else 0)
            NextWith (exec i s) fun t => ∃ y id, TileIs y t2 128 64 xs ∧ id ≠ 0 ∧ id ∉ w.me.physIds false true ∧
              t.me = (w'.me.setTile 44 { phys := id, val := y, tag := tag, disc := false }).advance 12 ∧
              (∀ k, k ≠ w.cur → t.strand k = w.strand k) ∧ t.mem = w.mem ∧
              ∀ r ∈ [lvcAddr c, lvdAddr (c / 64), lvmAddr], t.leaveUsed r = w.leaveUsed r - 4) ∧
          (∀ e w, all = .trap e w → exec i s = .next (s.takeTrap (w.returnLeave c 4) e)) ∧
          ∀ w, all = .wait w → exec i s = .next (keeps w))
      (¬ begins → exec i s = .next (s.refuseOp (.strand s.cur) c)) ∧
      (begins → s.leaveGot.contains (.strand s.cur) = false →
        (s.leaveQ.any fun r => r.owner == .strand s.cur) = false →
        (s.leaveNow c 4 = false → exec i s = .next asked) ∧
        (s.leaveNow c 4 = true → credited (s.moveCredits c 4))) ∧
      (begins → s.leaveGot.contains (.strand s.cur) = true →
        credited { s with leaveGot := s.leaveGot.erase (.strand s.cur) })
    (s.canSettle [ta] → v.canRoom false → ∀ p ∈ [(Ty.bf16, 0), (Ty.e4m3, 1), (Ty.e5m2, 2), (Ty.i8, 3)],
      TakesTile (exec (.wld h p.1 a) s) (v.withRoom false) 8 44 ((v.withRoom false).me.tile ta).val p.2 killed) ∧
    (s.canSettle [ta] → v.canRoom false →
      ∃ y, TileIs y true 128 64 (rows src) ∧
        TakesTile (exec (.wldT2 h a) s) ((v.withRoom false).addTrits (tritsIn 128 (rows src))) 8 44 y 4 killed) ∧
    reads (.wldT2Memory h b l) true 4 (readRow rowAlign 128 h.tmp.toNat) ∧ reads (.wldPip h b l) false 0 (readPip h.tmp.toNat) ∧
    (s.canSettle [44] → (x.me.tile 44).phys = 0 →
      exec (.wflip h) s = .next ((x.modMe fun m => m.setTile 45 TileReg.zero).retire 8)) ∧
    (s.canSettle [44] → (x.me.tile 44).phys ≠ 0 → x.canRoom false →
      let w := x.withRoom false
      let r := w.me.tile 44
      r.phys ≠ 0 → NextWith (exec (.wflip h) s) fun t => ∃ id, id ≠ 0 ∧ id ∉ w.me.physIds false true ∧
        Retires { w with engines := t.engines } t 8 (fun m => m.setTile 45 { r with phys := id, disc := false }) ∧
        (t.engine (engineKey w.cur)).planes = (w.engine (engineKey w.cur)).planes.map fun p =>
          if p = some (w.cur, r.phys) then some (w.cur, id) else if p = some (w.cur, id) then none else p) ∧
    ∀ (block : Nat),
      let slot (i : Nat) : Nat := ((List.range i).filter block.testBit).length
      (pipDecode block = none ↔ 28 < slot 64 ∨ block / 2 ^ (64 + 16 * slot 64) % 2 ^ (448 - 16 * slot 64) ≠ 0) ∧
      ∀ xs, pipDecode block = some xs → xs.length = 64 ∧ ∀ i, i < 64 →
        xs.getD i 0 = if block.testBit i = true then block / 2 ^ (64 + 16 * slot i) % 2 ^ 16 else 0

/-- R292, R293, R294; the pool rests on log 7, a form that waits on log 98. -/
def Obligations.AccumulatorResults : Prop :=
  ∀ (h : Hdr) (ty : Ty) (clamp : Bool) (d a b : R4) (t8 : R8) (g g' : R32) (s : State), s.guard h = true →
    let kd := 40 + d.val
    let ka := 40 + a.val
    let kb := 40 + b.val
    let dies (i k : Nat) (m : Strand) : Strand := if h.lu.getLsbD i = true ∧ k ≠ kd then m.killReg k else m
    let both := s.settled [ka, kb]
    let one := s.settled [ka]
    let own := s.settled [kd]
    let y := BitVec.ofNat 32 (s.settled [ka] |>.G g).toNat
    let sums (i : Instr) (f : BitVec 32 → BitVec 32 → BitVec 32) : Prop := s.canSettle [ka, kb] → both.canRoom true →
      let u := both.withRoom true
      ∃ v : Acc, (∀ e, e < 4096 → accAt v e = f (accAt (u.me.acc ka).val e) (accAt (u.me.acc kb).val e)) ∧
        TakesAcc (exec i s) u 8 kd v (dies 1 kb ∘ dies 0 ka)
    (s.canRoom true → TakesAcc (exec (.azero h d) s) (s.withRoom true) 8 kd 0 id) ∧
    sums (.aaddF32 h d a b) (fun x y => BitVec.ofNat 32 (fadd .f32 .rne x.toNat y.toNat)) ∧
    sums (.aaddI32 h d a b) (fun x y => x + y) ∧
    (s.canSettle [ka] → one.canRoom true →
      let u := one.withRoom true
      ∃ v : Acc, (∀ e, e < 4096 → accAt v e = BitVec.ofNat 32 (fmul .f32 .rne (accAt (u.me.acc ka).val e).toNat y.toNat)) ∧
        TakesAcc (exec (.ascale h d a g) s) u 8 kd v (dies 0 ka)) ∧
    (s.canRoom true →
      let u := s.withRoom true
      let all := mapEach (fun j v => (readRow rowAlign 256 h.tmp.toNat j (u.base g + BitVec.ofNat 64 j * u.G g') v).andThen fun x v =>
        .ok x (v.begun true)) (List.range 64) u
      (∀ xs w, all = .ok xs w → ∃ v : Acc, (∀ r, r < 64 → v.extractLsb' (2048 * r) 2048 = BitVec.ofNat 2048 (xs.getD r 0)) ∧
        TakesAcc (exec (.ald h ty d g g') s) (w.begun false) 8 kd v id) ∧
      (∀ e w, all = .trap e w → exec (.ald h ty d g g') s = .next (s.takeTrap w e)) ∧
      ∀ w, all = .wait w → exec (.ald h ty d g g') s = .next w) ∧
    (ty ∈ [Ty.f32, .bf16, .e4m3, .e5m2, .i8, .n8] →
      let w := convertedWidth ty
      (s.canSettle [kd] →
        ∃ xs : List Nat, xs.length = 64 ∧ (∀ i, i < 64 → xs.getD i 0 < 2 ^ (64 * w) ∧
          ∀ j, j < 64 → xs.getD i 0 / 2 ^ (w * j) % 2 ^ w = convertedElement ty clamp (accAt (own.me.acc kd).val (64 * i + j))) ∧
        let r := storeRows true (own.me.acc kd).phys (8 * w) h.tmp.toNat (own.base g) (own.G g') xs own
        (∀ u, r = .ok () u → exec (.ast h ty clamp d g g') s = .next (u.retire 8)) ∧
        (∀ e u, r = .trap e u → exec (.ast h ty clamp d g g') s = .next (s.takeTrap u e)) ∧
        ∀ u, r = .wait u → exec (.ast h ty clamp d g g') s = .next u) ∧
      (ty ≠ .f32 → s.canSettle [ka] → one.canRoom false →
        let u := one.withRoom false
        ∃ v : Tile, (∀ i, i < 64 → ∀ j, j < 1024 / w → (v.extractLsb' (1024 * i + w * j) w).toNat =
            if j < 64 then convertedElement ty clamp (accAt (one.me.acc ka).val (64 * i + j)) else 0) ∧
          TakesTile (exec (.a2t h ty clamp t8 a) s) u 8 (32 + t8.val) v 0
            (fun m => if h.lu.getLsbD 0 = true then m.killReg ka else m)))

/-- R291, R282, R284, R285, R88, R90; that a chosen tmul is complete in one step rests on logs 20 to 22, the pool on log 7. -/
def Obligations.TmulResults : Prop :=
  (∀ (mode : Nat) (acts : Nat → Tile) (ts : List Tile) (plane : Tile) (old : Acc), mode < 5 →
    ts = (List.range (if mode = 4 then 4 else 1)).map acts → IsProduct mode acts plane old (product mode ts plane old)) ∧
  ∀ (h : Hdr) (d : R4) (a : R8) (hi : Bool) (s : State), s.guard h = true → s.me.mul = none →
    let e := engineKey s.cur
    let ws := s.me.tile 44
    let runs (i : Instr) (mode k : Nat) (flip : Bool) : Prop :=
      let p := if flip = true then ws else s.me.tile 45
      let acts := if mode = 4 then [k, k + 1, k + 2, k + 3] else [k]
      let image := if flip = true ∧ ws.phys = 0 then 0 else p.val
      let ks := (40 + d.val) :: (if flip = true then [44] else []) ++ 45 :: acts
      (p.phys ≠ 0 ∧ p.tag ≠ mode →
        exec i s = .next (s.takeTrap s { cause := 0x0A, addr := 0, info := BitVec.ofNat 64 (p.tag + 16 * mode) })) ∧
      (p.phys = 0 ∨ p.tag = mode →
        (¬ s.canSettle ks → exec i s = .next (s.settled ks)) ∧
        ((∀ j ∈ ks, s.me.draining j = false) → s.poolAdmits s.cur true = true →
          (flip = true → ws.phys = 0 ∨ s.poolAdmits s.cur false = true) →
          let o : MulOp := { mode := mode, d := 40 + d.val, a := k, flip := flip, kill := h.lu.getLsbD 0, len := 8, aside := false }
          exec i s = .next (engineTurn e (s.modMe fun m => { m with mul := some o })) ∧
          ((∀ j ∈ engineKeys s.cur, j ≠ s.cur → (s.strand j).mul = none) → s.me.run = .running →
            s.bankOn (clusterOf s.cur) = some (bankOf s.cur) → Tab.get EngineCheck.pass s.engineCheck e = .pass →
            (if mode = 0 then 16 else if mode = 4 then 24 else 20) ≤ (s.engine e).credits →
            s.leaveGot.contains (.engine e s.cur) = false → (s.engine e).freeAt ≤ s.clk →
            (let ts := acts.map fun j => (s.me.tile j).val
             mismatch mode ts image (contributions mode ts image) = none) →
            NextWith (exec i s) fun t => t.mem = s.mem ∧ t.hub = s.hub ∧ (∀ j, j ≠ s.cur → t.strand j = s.strand j) ∧
              ∃ v id id', id ≠ 0 ∧ id ∉ s.me.physIds true true ∧ (id' ≠ 0 ∧ id' ∉ s.me.physIds false true) ∧
                IsProduct mode (fun q => (s.me.tile (k + q)).val) image (s.me.acc (40 + d.val)).val v ∧
                let flipped (m : Strand) : Strand :=
                  if flip = true then m.setTile 45 (if ws.phys = 0 then TileReg.zero else { ws with phys := id', disc := false }) else m
                let killed (m : Strand) : Strand := if h.lu.getLsbD 0 = true then m.killReg k else m
                t.me = { (killed ((flipped { s.me with mul := none }).setAcc (40 + d.val) { phys := id, val := v, disc := false })) with
                  mul := none }.advance 8)))
    (∀ p ∈ [(Ty.bf16, 0), (Ty.e4m3, 1), (Ty.e5m2, 2), (Ty.i8, 3)],
      runs (.tmul h p.1 d a) p.2 (32 + a.val) false ∧ runs (.tmulFlip h p.1 d a) p.2 (32 + a.val) true) ∧
    runs (.tmulT2i8 h d hi) 4 (if hi = true then 36 else 32) false ∧
    runs (.tmulFlipT2i8 h d hi) 4 (if hi = true then 36 else 32) true

/-- R92 and R93 in the integer modes, over the model's own `mismatch`, `contributions` and `upset`; the order of the binary64 sums and what upsets the array rest on log 19, the record of a mismatch on log 119. -/
def Obligations.IntegerChecksums : Prop :=
  ∀ (mode : Nat) (ts : List Tile) (plane : Tile), mode = 3 ∨ mode = 4 → ts.length = (if mode = 4 then 4 else 1) →
    mismatch mode ts plane (contributions mode ts plane) = none ∧
    ∀ i j x, i < 64 → j < 64 → x % 2 ^ 32 ≠ 0 →
      mismatch mode ts plane (upset [(i, j, x)] (contributions mode ts plane)) = some (i, false)

/-! ## The copy engine, remote operations and collectives -/

/-! ## Execution, service calls and the other system instructions -/

/-- R361 to R366, R344, R346, R357; what a form that waits leaves rests on log 98. -/
def Obligations.ExecutionInstructionResults : Prop :=
  ∀ (h : Hdr) (d a b : R32) (s : State), s.guard h = true →
    let pk := s.G a
    let quit : Try := (s.boundChans s.cur).foldl (fun r k => r.andThen fun s => s.chanCancel k) (.ok s)
    let works : Prop := ∃ k ∈ s.boundChans s.cur, (s.chan k).idle = false ∧ (s.chan k).stop = none
    let high : Exc := { cause := 0x04, addr := pk, info := 1 }
    let crooked : Exc := { cause := 0x07, addr := pk, info := 7 }
    let good : Prop := pk.toNat < 2 ^ 55 ∧ pk.toNat % 128 = 0
    let freed (v : State) : Prop := (v.strand s.cur).run = .free ∧ (v.strand s.cur).ttag = 0 ∧ (v.strand s.cur).tiles = [] ∧
      (v.strand s.cur).accs = []
    let waits (i : Instr) {α : Type} (r : Res α) : Prop := ∀ u, r = .wait u → exec i s = .next u
    let traps (i : Instr) {α : Type} (r : Res α) : Prop := ∀ e u, r = .trap e u → exec i s = .next (s.takeTrap u e)
    let retires (i : Instr) (r : Res Unit) : Prop := (∀ u, r = .ok () u → exec i s = .next (u.retire 8)) ∧ waits i r
    (2 ^ 55 ≤ pk.toNat → exec (.cast h d a) s = .next (s.takeTrap s high)) ∧
    (pk.toNat < 2 ^ 55 → pk.toNat % 128 ≠ 0 → exec (.cast h d a) s = .next (s.takeTrap s crooked)) ∧
    (good → waits (.cast h d a) (release .dom s) ∧ ∀ dom, release .dom s = .ok () dom →
      let r := memReadAt (dom.who dom.cur) .home pk 128 false 0 dom
      traps (.cast h d a) r ∧ waits (.cast h d a) r ∧
      ∀ x u, r = .ok x u → exec (.cast h d a) s =
        .next (((castPacket u.caster pk.toNat x u).2.setG d (BitVec.ofNat 64 (castPacket u.caster pk.toNat x u).1)).retire 8)) ∧
    (∀ (k : Caster) (p x : Nat) (u : State),
      let live := u.casts.filter fun c => c.part == k.part
      let n := elemN x 64 5
      let tagb := elemN x 64 9
      let clash := decide (tagb + n > 2 ^ 64) || u.casts.any fun c =>
        c.part == k.part && decide (0 < n) && decide (0 < c.count) && decide (tagb < c.tagb + c.count) && decide (c.tagb < tagb + n)
      let none4 := (u.castDies k.part (elemN x 64 4 % 2 ^ 7)).isEmpty
      let st := if packetOk x = false then 3 else if none4 then 4 else if 64 ≤ live.length then 1 else if clash = true then 2 else 0
      (castPacket k p x u).1 = st ∧ (st ≠ 0 → (castPacket k p x u).2 = u) ∧
      (st = 0 → ∃ c : Cast, (castPacket k p x u).2.casts = u.casts ++ [c] ∧ c.part = k.part ∧ c.packet = p ∧ c.tagb = tagb ∧ c.count = n ∧
        c.entry = BitVec.ofNat 64 (elemN x 64 0) ∧ c.arg = BitVec.ofNat 64 (elemN x 64 1) ∧ c.ptbase = k.ptbase ∧ c.asn = k.asn)) ∧
    (works → exec (.exit h a) s = .next s) ∧
    (¬ works → (∀ u, quit = .error u → exec (.exit h a) s = .next u) ∧ ∀ q, quit = .ok q →
      let busy := q.me.ttag ≠ 0 ∧ q.colls.any (fun c => c.locals.any fun y => y.ofTask ((q.partOf s.cur).getD 0) q.me.ttag && c.going y) = true
      (busy → exec (.exit h a) s = .next q) ∧
      (¬ busy → waits (.exit h a) (release .dom (q.returnReservation s.cur)) ∧
        ∀ dom, release .dom (q.returnReservation s.cur) = .ok () dom →
          (dom.taskAt s.cur = none → NextWith (exec (.exit h a) s) fun t => freed t ∧ t.mem = dom.mem ∧ t.tasks = dom.tasks) ∧
          ∀ x gi, dom.taskAt s.cur = some x → x.gangOf s.cur = some gi →
            let x' := { x with exited := gi :: x.exited, status := if gi = 0 then s.G a else x.status }
            let v := ((dom.freeStrand s.cur).modTask x.id fun _ => x')
            let pc := dom.me.pc
            let all := (List.range x.keys.length).all fun i => x'.exited.contains i
            freed v ∧
            (all = false → exec (.exit h a) s =
              .next (((v.dispatchLater x.part x.die).settleTask x.id).modMe fun m => { m with pc := pc })) ∧
            (all = true → x'.status = 0 → exec (.exit h a) s = .next ((v.endTask x.id).modMe fun m => { m with pc := pc })) ∧
            (all = true → x'.status ≠ 0 → exec (.exit h a) s =
              .next (((v.castNotice x.cast 2 0 x.ttag x'.status).endTask x.id).modMe fun m => { m with pc := pc })))) ∧
    (waits (.gong h) (release .die s) ∧ ∀ die, release .die s = .ok () die →
      (die.taskAt die.cur = none → retires (.gong h) (acquire .die die)) ∧
      ∀ x, die.taskAt die.cur = some x →
        let gi := (x.gangOf die.cur).getD 0
        let n := Tab.get 0 x.gongs gi + (if die.me.gonging = true then 0 else 1)
        let x' := { x with gongs := Tab.set 0 x.gongs gi n }
        let v := (die.modTask x.id fun _ => x').modMe fun m => { m with gonging := true }
        let joined (j : Nat) : Prop := j ∈ x.exited ∨ n ≤ Tab.get 0 x'.gongs j
        ((∀ j, j < x.gsz → joined j) → waits (.gong h) (acquire .die v) ∧
          ∀ u, acquire .die v = .ok () u → exec (.gong h) s = .next ((u.modMe fun m => { m with gonging := false }).retire 8)) ∧
        (∀ j, j < x.gsz → ¬ joined j → exec (.gong h) s = .next v)) ∧
    (let first := if s.me.posting = true then .ok () s else release .dom s
     waits (.post h d a b) first ∧ ∀ dom, first = .ok () dom →
      let r := postFate ((dom.partOf dom.cur).getD 0) pk (s.G b) dom
      (∀ f u, r = .ok f u →
        exec (.post h d a b) s = .next (((u.setG d (BitVec.ofNat 64 f)).modMe fun m => { m with posting := false }).retire 8)) ∧
      ∀ u, r = .wait u → exec (.post h d a b) s = .next (u.modMe fun m => { m with posting := true })) ∧
    (∀ (q : Nat) (tag x : Word) (u : State),
      let hit (c : Cast) : Bool := c.part == q && decide (c.tagb ≤ tag.toNat) && decide (tag.toNat < c.tagb + c.count)
      (u.casts.find? hit = none → postFate q tag x u = .ok 2 u) ∧
      ∀ c y, u.casts.find? hit = some c → (u.tasks.find? fun t => t.cast == c.id && t.idx == tag.toNat - c.tagb) = some y →
        (y.state = .ended → postFate q tag x u = .ok 2 u) ∧
        (y.state = .resident → y.mailDue = true ∨ y.live = [] → postFate q tag x u = .wait u) ∧
        (y.state = .resident → y.mailDue = false → y.live ≠ [] → 8 ≤ y.msgs.length → postFate q tag x u = .ok 3 u) ∧
        (y.state = .resident → y.mailDue = false → y.live ≠ [] → y.msgs.length < 8 → postFate q tag x u =
          .ok 0 { u with tasks := u.tasks.map fun t => if t.id = y.id then { t with msgs := t.msgs ++ [x] } else t })) ∧
    (s.taskAt s.cur = none → exec (.take h d) s = .next s) ∧
    (∀ x, s.taskAt s.cur = some x →
      (x.msgs = [] → exec (.take h d) s = .next s) ∧
      ∀ m rest, x.msgs = m :: rest → waits (.take h d) (acquire .dom s) ∧
        ∀ u, acquire .dom s = .ok () u →
          exec (.take h d) s = .next (((u.modTask x.id fun t => { t with msgs := rest }).setG d m).retire 8)) ∧
    (8 ≤ (s.G b).toNat → exec (.prio h a b) s = .next (s.takeTrap s { cause := 0x02, addr := s.me.pc, info := s.ibits })) ∧
    ((s.G b).toNat < 8 →
      (2 ^ 55 ≤ pk.toNat → exec (.prio h a b) s = .next (s.takeTrap s high)) ∧
      (pk.toNat < 2 ^ 55 → pk.toNat % 128 ≠ 0 → exec (.prio h a b) s = .next (s.takeTrap s crooked)) ∧
      (good →
        let r := memReadAt (s.who s.cur) .home (pk + 33) 1 false 0 s
        traps (.prio h a b) r ∧ waits (.prio h a b) r ∧
        ∀ x u, r = .ok x u →
          let w := memWriteAt (s.who s.cur) .home (pk + 33) 1 (x % 16 + (s.G b).toNat * 16 + x / 128 % 2 * 128) false 0 u
          traps (.prio h a b) w ∧ waits (.prio h a b) w ∧
          ∀ v, w = .ok () v →
            let mine (c : Cast) : Bool := c.part == (v.partOf v.cur).getD 0 && c.packet == pk.toNat
            exec (.prio h a b) s =
              .next ({ v with casts := v.casts.map fun c => if mine c = true then { c with prio := (s.G b).toNat } else c }.retire 8)))

/-- R387, R388, R390, R102, R103, R134, R409, R410; the order of subup's checks rests on log 37, another member's memory on log 106, a
form that waits on log 98. -/
def Obligations.SystemInstructionResults : Prop :=
  ∀ (h : Hdr) (d a b : R32) (pr : R8) (s : State), s.guard h = true →
    let q := (s.partOf s.cur).getD 0
    let blk := s.G b
    let traps (i : Instr) (cause : Nat) (addr : Word) (info : Nat) : Prop :=
      exec i s = .next (s.takeTrap s { cause := cause, addr := addr, info := BitVec.ofNat 64 info })
    let waits (i : Instr) {α : Type} (r : Res α) : Prop := ∀ u, r = .wait u → exec i s = .next u
    let ends (i : Instr) {α : Type} (r : Res α) : Prop := (∀ e u, r = .trap e u → exec i s = .next (s.takeTrap u e)) ∧ waits i r
    let invokes (i : Instr) (seq : Word) (again : Bool) : Prop :=
      (s.me.call = none →
        (256 ≤ (s.G a).toNat → traps i 0x11 blk 1) ∧
        ((s.G a).toNat < 256 → 2 ^ 55 ≤ blk.toNat → traps i 0x04 blk 1) ∧
        ((s.G a).toNat < 256 → blk.toNat < 2 ^ 55 → blk.toNat % 64 ≠ 0 → traps i 0x07 blk 6) ∧
        (let r := blockCheck (s.G a) blk s
         ends i r ∧ ∀ u, r = .ok () u → waits i (release .dom u) ∧
          ∀ w, release .dom u = .ok () w →
            let r := memReadAt (w.who w.cur) .home blk 32 false 0 w
            ends i r ∧ ∀ x v, r = .ok x v →
              let c : SvcCall := { part := (v.partOf v.cur).getD 0, ttag := v.me.ttag, gidx := v.me.gidx.toNat, slot := (s.G a).toNat,
                                   seq := seq, opc := x % 2 ^ 64, arg0 := BitVec.ofNat 64 (x / 2 ^ 64),
                                   arg1 := BitVec.ofNat 64 (x / 2 ^ 128), arg2 := BitVec.ofNat 64 (x / 2 ^ 192),
                                   ptbase := v.me.ptbase, asn := v.me.asn, keyl := v.me.keyl }
              exec i s = .next ((v.modMe fun m => { m with call := some { call := c, reply := none } }).gateCall c))) ∧
      ∀ c, s.me.call = some c →
        (c.reply = none → exec i s = .next s) ∧
        (∀ sub, c.reply = some (.refused sub) → traps i 0x11 blk sub) ∧
        ∀ st dt r0 r1 es, c.reply = some (.answered st dt r0 r1 es) →
          let r := memWriteAt (s.who s.cur) .home (blk + 32) 32
            (r0.toNat + 2 ^ 64 * r1.toNat + 2 ^ 128 * c.call.seq.toNat + 2 ^ 192 * es.toNat) false 0 s
          ends i r ∧ ∀ u, r = .ok () u → waits i (acquire .dom u) ∧
            ∀ w, acquire .dom u = .ok () w →
              let v := w.modMe fun m => { m with call := none, cseq := if again = true then m.cseq else c.call.seq + 1 }
              exec i s = .next ((v.setG d (BitVec.ofNat 64 (dt * 2 ^ 8 + st))).retire 8)
    let n := (s.G a).toNat
    let c := didOf s.cur * 64 + n
    let testing := s.hubFld (0xF00000430000 + 8 * c) 63 1 = 1
    let alone := (s.clustersOf q).filter (fun x => x / 64 == didOf s.cur) = [c]
    let cur := (s.migCur q + n % 2 ^ 32) % 2 ^ 32
    let far : Bool := 2 ^ 55 < n + blk.toNat
    let range : HintRange := { part := q, asn := s.me.asn.toNat % 2 ^ 16, ptbase := s.me.ptbase, keys := s.me.keys, base := n,
                               len := blk.toNat, step := (s.G d).toNat % 2 ^ 32, prio := pr.val }
    invokes (.cinv h d a b) s.me.cseq false ∧ invokes (.cinvRe h d a b) (s.me.cseq - 1) true ∧
    (s.me.sup = true →
      (64 ≤ n ∨ s.partHasCluster q c = false → WritesG (exec (.stest h d a) s) s 8 d 1) ∧
      (n < 64 → s.partHasCluster q c = true → testing → WritesG (exec (.stest h d a) s) s 8 d 2) ∧
      (n < 64 → s.partHasCluster q c = true → ¬ testing → alone → WritesG (exec (.stest h d a) s) s 8 d 3) ∧
      (n < 64 → s.partHasCluster q c = true → ¬ testing → ¬ alone →
        exec (.stest h d a) s = .next (((s.beginTest c).setG d 0).retire 8) ∧
        (s.beginTest c).hubFld (0xF00000430000 + 8 * c) 63 1 = 1)) ∧
    (n % 2 ^ 21 ≠ 0 ∨ blk.toNat % 2 ^ 21 ≠ 0 → traps (.thint h d a b pr) 0x07 (s.G a) 15) ∧
    (n % 2 ^ 21 = 0 → blk.toNat % 2 ^ 21 = 0 →
      (blk ≠ 0 → far = true → traps (.thint h d a b pr) 0x04 (BitVec.ofNat 64 (2 ^ 55)) 1) ∧
      (blk = 0 → DoesNothing (exec (.thint h d a b pr) s) s 8) ∧
      (blk ≠ 0 → far = false →
        let full := 256 ≤ (s.hintQueue.filter fun r => r.part == q).length
        (full → exec (.thint h d a b pr) s = .next s) ∧
        (¬ full → exec (.thint h d a b pr) s =
          .next ({ s with hintQueue := s.hintQueue ++ [range], agenda := s.agenda ++ [Move.event .migratorHint (.num q)] }.retire 8)))) ∧
    NextWith (exec (.step h d a) s) (fun t => t.migCur q = cur ∧ t.me = (s.me.setGpr d.val (BitVec.ofNat 64 cur)).advance 8 ∧
      (∀ k, k ≠ s.cur → t.strand k = s.strand k) ∧ t.mem = s.mem) ∧
    (let r := s.pieceAD (s.who s.cur) .load Align.any n 1 false
     (∀ e u, r = .error (e, u) → ends (.subup h a) (raiseBad (s.who s.cur) n e u : Res Unit)) ∧
     ∀ p u, r = .ok (p, u) →
       let die := didOf s.cur
       let ag := u.agentOf die
       let g := leafGrain p.attr
       (∀ pa, p.t = .far pa →
         let tag := nativeDieTag (farAddr pa) p.key
         let m := sectorsAt (farAddr (pa / g * g)) g
         let has : Prop := u.dieLine ag tag &&& m = m ∨ u.dieLine ag { tag with mode := 1 } &&& m = m
         (has → exec (.subup h a) s = .next (u.retire 8)) ∧
         (¬ has → u.bellIn = true → exec (.subup h a) s = .next u) ∧
         (¬ has → u.bellIn = false → exec (.subup h a) s =
           .next ((((u.sendFar .up (cohMsg ag (pa / g * g) p.key g 0 none) 0).farFetch die tag (pa / g * g) g).2).retire 8))) ∧
       ((∀ pa, p.t ≠ .far pa) →
         (u.homeOf p.t = some die ∨ u.homeOf p.t = none → exec (.subup h a) s = .next (u.retire 8)) ∧
         ∀ k, u.homeOf p.t = some k → k ≠ die →
           let v := u.scrub p.key p.t 1
           let native := (v.grainAt p.key p.t g).nativeOf (v.agentOf die) (v.incOf (v.agentOf die))
           let size := (v.dirEntry p.t.addr p.key g).grain
           let error := v.grainError p.key p.t (p.t.addr / size * size) size
           (native = true → exec (.subup h a) s = .next (v.retire 8)) ∧
           (native = false → v.bellIn = true → exec (.subup h a) s = .next v) ∧
           (∀ w, native = false → v.bellIn = false → v.homeWaits p.key p.t 1 = some w → exec (.subup h a) s = .next w) ∧
           (native = false → v.bellIn = false → v.homeWaits p.key p.t 1 = none →
             (∀ e, error = some e → ends (.subup h a) (raiseBad (s.who s.cur) p.va (.abort e.1 e.2 p.key) v : Res Unit)) ∧
             (error = none → exec (.subup h a) s = .next ((v.upgrade die k p).retire 8))))) ∧
    WritesG (exec (.bellqPeal h d) s) s 8 d (s.SR .bpeal) ∧ WritesG (exec (.bellqLen h d) s) s 8 d (s.SR .blen) ∧
    WritesG (exec (.bellqNext h d) s) s 8 d (s.SR .bnext) ∧
    (s.me.bellWait = none → exec (.bellw h) s = .next (s.modMe fun m => { m with bellWait := some s.bellToWait })) ∧
    ∀ p, s.me.bellWait = some p →
      (s.bellIn = true ∨ s.bellPeal ≤ p → exec (.bellw h) s = .next s) ∧
      (s.bellIn = false → p < s.bellPeal → NextWith (exec (.bellw h) s) fun t => Retires s t 8 fun m => { m with bellWait := none })

/-! ## Steps without an encoding -/

/-- R295 to R299, R286; a form that waits rests on log 98, a bell that begins on log 123.
R284 to R286, R394, R401; logs 20 to 22 and 135 say what the model settles beside them. -/
def Obligations.RollAndLeaveResults : Prop :=
  (∀ (h : Hdr) (a b d : R32) (len : BitVec 4) (n : BitVec 6) (s : State), s.guard h = true →
     let N := (s.G a).toNat
     let c := (s.G b).toNat
     let ga0 := c / 2 ^ 59
     let ga1 := c / 2 ^ 35 % 2 ^ 5
     let L := len.toNat
     let bodyExc (x : Nat) : Exc := { cause := 0x0C, addr := 0, info := BitVec.ofNat 64 x }
     let words := rollFetch s.cur (L + 1) 0 (s.me.pc + 8) s
     let cl := clusterOf s.cur
     let cred := s.me.estat.toNat % 2 ^ 8
     (∀ e u, words = .trap e u → exec (.roll h a b len) s = .next (s.takeTrap u e)) ∧
     (∀ u, words = .wait u → exec (.roll h a b len) s = .next u) ∧
     (∀ x u, words = .ok x u →
       let ws := x.2.map Prod.snd
       x.2.length = L + 1 ∧ (∀ i, i < L + 1 → (x.2.getD i (0, 0)).1 = ((ws.take i).map fun w => lengthOf (w % 2 ^ 32)).sum) ∧
       (2 ^ 23 ≤ N → exec (.roll h a b len) s = .next (s.takeTrap u (bodyExc 1))) ∧
       (N < 2 ^ 23 → c % 2 ^ 6 ≠ 0 ∨ (ga0 = ga1 ∧ ga0 ≠ 0) → exec (.roll h a b len) s = .next (s.takeTrap u (bodyExc 2))) ∧
       (N < 2 ^ 23 → c % 2 ^ 6 = 0 → (ga0 = ga1 → ga0 = 0) →
         (∀ i, i < ws.length → (∀ j, j < i → rollAllowed (ws.getD j 0) = true) → rollAllowed (ws.getD i 0) = false →
           exec (.roll h a b len) s = .next (s.takeTrap u (bodyExc (3 + 16 * i)))) ∧
         ((∀ w ∈ ws, rollAllowed w = true) →
           let act := if N = 0 then 0 else 1
           exec (.roll h a b len) s = .next (u.modMe fun m => { m with
             rollc := s.G b, rolli := BitVec.ofNat 64 (act * 2 ^ 63 + L * 2 ^ 59 + N * 2 ^ 24), rolling := decide (N ≠ 0),
             body := if N = 0 then [] else x.2, inFlight := 0, pc := if N = 0 then x.1 else s.me.pc + 8 })))) ∧
     (∀ r : R32,
       let st (lo : Nat) : Int := (BitVec.ofNat 19 (s.me.rollc.toNat / 2 ^ lo)).toInt
       let J : Int := s.me.rolli.toNat % 2 ^ 23
       let at' (f : Nat) : Prop := r.val = s.me.rollc.toNat / 2 ^ f % 2 ^ 5
       (s.me.rolling = false ∨ r = 0 ∨ (¬ at' 59 ∧ ¬ at' 35) → s.base r = s.G r) ∧
       (s.me.rolling = true → r ≠ 0 → at' 59 → s.base r = BitVec.ofInt 64 ((s.G r).toNat + J * st 40 * 8)) ∧
       (s.me.rolling = true → r ≠ 0 → ¬ at' 59 → at' 35 → s.base r = BitVec.ofInt 64 ((s.G r).toNat + J * st 16 * 8))) ∧
     (n = 0 → WritesG (exec (.leave h d n) s) s 8 d 0) ∧
     (n ≠ 0 → s.clusterBudget cl < cred + n.toNat → WritesG (exec (.leave h d n) s) s 8 d 2) ∧
     (n ≠ 0 → cred + n.toNat ≤ s.clusterBudget cl → s.leaveNow cl n.toNat = false →
       WritesG (exec (.leave h d n) s) s 8 d 1) ∧
     (n ≠ 0 → cred + n.toNat ≤ s.clusterBudget cl → s.leaveNow cl n.toNat = true →
       NextWith (exec (.leave h d n) s) fun t =>
         t.me = ({ s.me with estat := BitVec.ofNat 64 (s.me.estat.toNat / 2 ^ 8 * 2 ^ 8 + (cred + n.toNat)) }.setGpr d.val 0).advance 8 ∧
         (∀ k, k ≠ s.cur → t.strand k = s.strand k) ∧ t.mem = s.mem ∧
         ∀ r ∈ [lvcAddr cl, lvdAddr (cl / 64), lvmAddr], t.leaveUsed r = (s.leaveUsed r + n.toNat) % 2 ^ 16) ∧
     NextWith (exec (.leaveRet h) s) fun t =>
       t.me = { s.me with estat := BitVec.ofNat 64 (s.me.estat.toNat / 2 ^ 8 * 2 ^ 8), resv := s.me.resv + 1 }.advance 8 ∧
       (∀ k, k ≠ s.cur → t.strand k = s.strand k) ∧ t.mem = s.mem ∧
       ∀ r ∈ [lvcAddr cl, lvdAddr (cl / 64), lvmAddr], t.leaveUsed r = s.leaveUsed r - (cred - s.lentBy s.cur)) ∧
  (∀ (k : Nat) (chk : EngineCheck) (s : State),
     let goes (i : Instr) (t : State) : Prop := exec i s = .next t
     let v : State := { s with engineCheck := Tab.set EngineCheck.pass s.engineCheck k chk }
     let l := (List.range 4).filter fun i => (s.eligible k i).isSome
     let e := s.engine k
     let passed (j : Nat) : Nat := e.passes.getD j 0
     let cls (j : Nat) : Nat := (s.strand (engineStrand k j)).ebind.toNat % 4
     let after (j : Nat) : Nat := (j + 3 * e.last + 3) % 4
     let quiet : Prop := e.lastEnd + 256 ≤ s.clk ∧ ∀ j, j < 4 → (s.strand (engineStrand k j)).mul = none
     let lost := ((e.lent.filter fun x => x.resv != (s.strand x.key).resv).map Lent.n).foldl (· + ·) 0
     let w := { s with leaveQ := s.leaveQ.filter fun r => !s.withdrawn r }.drainQueue
     let q := w.leaveQ
     let fits (a n most : Nat) : Prop := s.leaveUsed a + n ≤ most
     let inDie (d n : Nat) : Prop := fits (lvdAddr d) n (s.hubFld (lvdAddr d) 0 16)
     let inModule (n : Nat) : Prop := fits lvmAddr n (s.hubFld lvmAddr 0 16) ∧ fits lvmAddr n (s.hubFld lvmAddr 16 16)
     (l = [] → s.pick k l = none) ∧
     (∀ i, s.pick k l = some i → i ∈ l ∧
       ((16 ≤ passed i ∧ ∀ j ∈ l, 16 ≤ passed j → i ≤ j) ∨
        ((∀ j ∈ l, passed j < 16) ∧ (∀ j ∈ l, cls j ≤ cls i) ∧ ∀ j ∈ l, cls j = cls i → after i ≤ after j))) ∧
     (s.input = .engine k chk → l = [] ∨ s.clk < e.freeAt → goes .engineChoice v) ∧
     (∀ i o, s.input = .engine k chk → e.freeAt ≤ s.clk → s.pick k l = some i → s.eligible k i = some o → modeCredits o.mode ≤ e.credits →
       goes .engineChoice ((v.dropLeave (.engine k (engineStrand k i)) (clusterOf (engineStrand k i)) 0).runMul k i o l)) ∧
     (∀ i o, s.input = .engine k chk → e.freeAt ≤ s.clk → l = [i] → s.pick k l = some i → s.eligible k i = some o →
       e.credits < modeCredits o.mode →
       let key := engineStrand k i
       let need := modeCredits o.mode - e.credits
       let asked : State := { v with leaveQ := v.leaveQ ++ [{ owner := .engine k key, cluster := clusterOf key, n := need, since := s.clk }] }
       (s.strand key).estat.toNat % 2 ^ 8 = s.lentBy key → s.leaveGot.contains (.engine k key) = false →
       (s.leaveQ.any fun r => r.owner == .engine k key) = false → s.leaveNow (clusterOf key) need = false →
       goes .engineChoice (asked.modStrand key fun t => { t with mul := some { o with aside := true } })) ∧
     (∀ c n, s.leaveNow c n = true ↔ s.leaveGrants s.leaveQ c n = true ∧
       ∀ a r b, s.leaveQ = a ++ r :: b → s.leaveGrants a r.cluster r.n = false) ∧
     (s.input = .num k → ¬ quiet → goes .engineStreamEnd s) ∧
     (s.input = .num k → quiet → NextWith (exec .engineStreamEnd s) fun t =>
       t.engine k = { e with held := 0, lent := [] } ∧ t.strands = s.strands ∧ t.mem = s.mem ∧
       ∀ r ∈ [lvcAddr (k % 512 / 2), lvdAddr (k % 512 / 2 / 64), lvmAddr], t.leaveUsed r = s.leaveUsed r - (e.held + lost)) ∧
     (∀ older c n, s.leaveGrants older c n = true ↔
       fits (lvcAddr c) n (s.hubFld (lvcAddr c) 0 8) ∧ inDie (c / 64) n ∧ inModule n ∧
       ∀ r ∈ older, r.cluster ≠ c ∧
         (s.clk < r.since + 4096 ∨ ((r.cluster / 64 = c / 64 → inDie (r.cluster / 64) r.n) ∧ inModule r.n))) ∧
     (∀ r, r ∈ q ↔ r ∈ s.leaveQ ∧ s.withdrawn r = false ∧ s.leaveAdmits r.owner = true) ∧
     (∀ n m, s.leaveAdmits (.engine n m) = true ∧ s.leaveAdmits (.strand n) = s.drainAdmits 160 ∧ s.leaveAdmits (.channel n) = s.drainAdmits 80 ∧
       s.leaveAdmits (.remote n) = s.drainAdmits 40 ∧ s.leaveAdmits (.part n m) = s.drainAdmits 40) ∧
     (∀ o c, let t := s.refuseOp o c
       t.leaveQ = s.leaveQ.filter (fun r => r.owner != o) ∧ t.leaveGot = s.leaveGot.erase o ∧ t.strands = s.strands ∧ t.mem = s.mem ∧
       t.refused = (if o.move ∈ s.refused then s.refused else s.refused ++ [o.move]) ∧ (o ∉ s.leaveGot → t.hub = s.hub) ∧
       (o ∈ s.leaveGot → c < 256 → ∀ r ∈ [lvcAddr c, lvdAddr (c / 64), lvmAddr], t.leaveUsed r = s.leaveUsed r - 4)) ∧
     ((∀ a r b, q = a ++ r :: b → w.leaveGrants a r.cluster r.n = false) → goes .leaveGrant w) ∧
     (∀ a r b, q = a ++ r :: b → w.leaveGrants a r.cluster r.n = true →
       (∀ a' r' b', q = a' ++ r' :: b' → a'.length < a.length → w.leaveGrants a' r'.cluster r'.n = false) →
       goes .leaveGrant ((({ w with leaveQ := w.leaveQ.erase r }.moveCredits r.cluster r.n).granted r).leaveLook)))

/-- R212 to R215, R195, R196; the partition and address space of a transfer rest on log 99, a form that waits on log 98.
R195, R200, R201, R203, R204, R208, R311, R394; the order of a record's failures rests on logs 14 and 112, writes set aside on log
105, the waiting on log 104. -/
def Obligations.CopyEngineResults : Prop :=
  (∀ (h : Hdr) (d a : R32) (ch : R8) (l : BitVec 32) (s : State), s.guard h = true →
     let k := bankOf s.cur * 2048 + clusterOf s.cur * 8 + ch.val
     let c := s.chan k
     let bound := s.chanBound s.cur ch.val
     let copyExc (x : Nat) : Exc := { cause := 0x0D, addr := 0, info := BitVec.ofNat 64 (ch.val * 2 ^ 8 + x) }
     let traps (i : Instr) (e : Exc) : Prop := exec i s = .next (s.takeTrap s e)
     let hands (i : Instr) (len : Nat) (head : Word) : Prop :=
       (c.stop.isSome = true → traps i (copyExc 0x39)) ∧
       (c.stop = none → 2 ^ 55 ≤ head.toNat → traps i { cause := 0x04, addr := head, info := 1 }) ∧
       (c.stop = none → head.toNat < 2 ^ 55 → head.toNat % 64 ≠ 0 → traps i { cause := 0x07, addr := head, info := 6 }) ∧
       (c.stop = none → head.toNat < 2 ^ 55 → head.toNat % 64 = 0 →
         let u := (s.drainAll s.cur).flushCore (coreOf s.cur)
         let ready : Prop := c.queue.length < 16 ∧ u.me.drains = [] ∧ (u.coreCache (coreOf u.cur)).anyDirty = false
         (¬ ready → exec i s = .next u) ∧
         (ready →
           NextWith (exec i s) fun t =>
             (∃ x : Xfer, x.head = head.toNat ∧ x.id = (c.dci + 1).toNat ∧ x.key = u.cur ∧ x.part = (u.partOf u.cur).getD 0 ∧ x.sup = u.me.sup ∧ x.ptbase = u.me.ptbase ∧
               x.keys = u.me.keys ∧ t.chan k = { c with dci := c.dci + 1, queue := c.queue ++ [x] }) ∧
             (∀ j, j ≠ k → t.chan j = u.chan j) ∧ t.me = (u.me.setGpr d.val (c.dci + 1)).advance len ∧
             (∀ j, j ≠ u.cur → t.strand j = u.strand j) ∧ t.mem = u.mem))
     (bound = false → ∀ i ∈ [Instr.dcp h d a ch, .dcpLiteral h d a ch l, .dcpw h a ch, .dcps h d ch, .dcpx h ch],
       traps i (copyExc 0x38)) ∧
     (bound = true →
       hands (.dcp h d a ch) 8 (s.G a) ∧ hands (.dcpLiteral h d a ch l) 12 (s.G a + l.signExtend 64) ∧
       (c.dci.toNat < (s.G a).toNat → traps (.dcpw h a ch) (copyExc 0x3A)) ∧
       ((s.G a).toNat ≤ c.dci.toNat → (s.G a).toNat ≤ c.dcc.toNat →
         (∀ v, acquire .clu s = .ok () v → exec (.dcpw h a ch) s = .next (v.retire 8)) ∧
         ∀ v, acquire .clu s = .wait v → exec (.dcpw h a ch) s = .next v) ∧
       ((s.G a).toNat ≤ c.dci.toNat → c.dcc.toNat < (s.G a).toNat →
         (c.stop = none → exec (.dcpw h a ch) s = .next s) ∧
         ∀ x, c.stop = some x → traps (.dcpw h a ch)
           { copyExc 0 with addr := BitVec.ofNat 64 x.addr,
                            info := BitVec.ofNat 64 ((c.dcc + 1).toNat % 2 ^ 32 * 2 ^ 32 + ch.val * 2 ^ 8 + x.cause) }) ∧
       (∃ w : Word, WritesG (exec (.dcps h d ch) s) s 8 d w ∧
         (c.stop = none → c.now = none → w = BitVec.ofNat 64 c.queue.length) ∧
         (∀ r, c.stop = none → c.now = some r → w = BitVec.ofNat 64 (2 ^ 63 + r.addr % 2 ^ 55 / 64 * 64 + c.queue.length)) ∧
         ∀ x, c.stop = some x → c.now = none →
           w = BitVec.ofNat 64 (2 ^ 62 + x.cause * 2 ^ 56 + x.recAddr % 2 ^ 55 / 64 * 64 + c.queue.length)) ∧
       (c.now = none → NextWith (exec (.dcpx h ch) s) fun t =>
         t.chan k = { c with queue := [], now := none, stop := none, dcc := c.dci } ∧ (∀ j, j ≠ k → t.chan j = s.chan j) ∧
         Retires { s with chans := t.chans } t 8 id) ∧
       (∀ u, s.chanCancel k = .ok u → exec (.dcpx h ch) s = .next (u.retire 8)) ∧
       ∀ u, s.chanCancel k = .error u → exec (.dcpx h ch) s = .next u)) ∧
  (∀ (k a : Nat) (x : Word) (s : State),
     let goes (i : Instr) (t : State) : Prop := exec i s = .next t
     let ch := s.chan k
     let bound : Prop := hubCP ≤ a ∧ a < hubCP + 2048 ∧ a % 8 = 0
     let free (n : Nat) : Prop := ∀ bank, bank < 2 → (s.chan (chanKey bank ((a - hubCP) / 8) n)).idle = true
     let begun (c : CopyRec) (ch' : Chan) : Prop :=
       (ch.now = some c ∧ c.snap = none ∧ ch' = ch) ∨
       (ch.now = none ∧ ∃ y, ch.queue = y :: ch'.queue ∧ c = { addr := y.head, snap := none, done := 0, leave := false, xfer := y } ∧
         ch' = { ch with queue := ch'.queue })
     (∀ r : Domino, (r.conv ≤ 1 → r.chunk = 512 / max (r.sty.bits / 8) (r.dty.bits / 8)) ∧ (r.conv = 2 ∨ r.conv = 3 → r.chunk = 768) ∧
       (r.conv = 4 ∨ r.conv = 5 → r.chunk = 256)) ∧
     (s.input = .num k →
       (s.chanRuns k = false → goes .recordSnapshot s ∧ goes .copyChunk s) ∧
       (ch.now = none → goes .copyChunk s ∧ (ch.queue = [] → goes .recordSnapshot s)) ∧
       (∀ c, ch.now = some c → c.snap.isSome = true → goes .recordSnapshot s) ∧
       (s.chanRuns k = true → ∀ c ch', begun c ch' →
         (∀ n u, copyRead c.xfer false c.addr 64 s = .ok (n, u) →
           let r := dominoOf n
           let u' := u.setChan k { ch' with now := some { c with snap := some (BitVec.ofNat 512 n) } }
           (r.check c.xfer.sup = none → goes .recordSnapshot (u'.chanLater k)) ∧
           (r.check c.xfer.sup = some 0x16 → goes .recordSnapshot (u'.copyStop k c none 0x16 c.addr)) ∧
           ∀ code, code ≠ 0x16 → r.check c.xfer.sup = some code → goes .recordSnapshot (u'.copyStop k c (some r) code c.addr)) ∧
         (∀ z u, copyRead c.xfer false c.addr 64 s = .error (none, z, u) → goes .recordSnapshot (u.defer .recordSnapshot (.num k))) ∧
         ∀ b z u, copyRead c.xfer false c.addr 64 s = .error (some b, z, u) →
           goes .recordSnapshot ((u.setChan k ch').copyStop k c none 0x2A c.addr)) ∧
       (s.chanRuns k = true → ∀ c n, ch.now = some c → c.snap = some n →
         let r := dominoOf n.toNat
         let again (t : State) : State := t.defer .copyChunk (.num k)
         let ends (d : CopyRec) (e : CopyEnd) : Prop :=
           (∀ t, e = .held t → goes .copyChunk (again t)) ∧
           (∀ rows t, e = .writing rows t →
             goes .copyChunk (again (t.modChan k fun y => { y with now := some { d with writes := some rows } }))) ∧
           (∀ code z t, e = .failed code z t → goes .copyChunk (t.copyStop k d (some r) code z)) ∧
           ∀ t, e = .done t →
             goes .copyChunk ((t.modChan k fun y =>
               { y with now := some { d with done := min (d.done + r.chunk) r.elements, writes := none } }).chanLater k)
         (s.flushHolds none (coreOf c.xfer.key) true = true → goes .copyChunk (again s)) ∧
         (s.flushHolds none (coreOf c.xfer.key) true = false → s.asideOf c.xfer.key ≠ [] →
           s.drainAside.asideOf c.xfer.key ≠ [] → goes .copyChunk (again s.drainAside)) ∧
         (s.flushHolds none (coreOf c.xfer.key) true = false → s.asideOf c.xfer.key = [] →
           (∀ rows, c.writes = some rows → ends c (copyWrites c.xfer rows s)) ∧
           (c.writes = none →
             (∀ u, r.elements ≤ c.done → copyFinish k c r s = .done u → goes .copyChunk (u.chanLater k)) ∧
             (∀ u, r.elements ≤ c.done → copyFinish k c r s = .held u → goes .copyChunk (again u)) ∧
             (∀ code z t, r.elements ≤ c.done → copyFinish k c r s = .failed code z t →
               goes .copyChunk (t.copyStop k c (if code = 0x2A then none else some r) code z)) ∧
             (c.done < r.elements → s.drainAdmits 80 = false → goes .copyChunk (s.refuseOp (.channel k) (chanCluster k))) ∧
             (c.done < r.elements → s.drainAdmits 80 = true →
               let large : Prop := 256 * 1024 < r.elements * r.wide ∧ c.leave = false
               let begins (g : State) (c : CopyRec) : Prop :=
                 let u := g.modChan k fun y => { y with now := some c }
                 let first : Res Unit := if c.acquired = true then .ok () u else copyAcquire r (coreOf c.xfer.key) u
                 let d : CopyRec := { c with acquired := true }
                 (∀ w, first = .wait w → goes .copyChunk (again w)) ∧
                 ∀ w, first = .ok () w → ends d (copyChunk d r (w.modChan k fun y => { y with now := some d }))
               let cl := chanCluster k
               (¬ large → begins s c) ∧
               (large → s.leaveGot.contains (.channel k) = true →
                 begins { s with leaveGot := s.leaveGot.erase (.channel k) } { c with leave := true }) ∧
               (large → s.leaveGot.contains (.channel k) = false → (s.leaveQ.any fun q => q.owner == .channel k) = false →
                 (s.leaveNow cl 4 = true → begins (s.moveCredits cl 4) { c with leave := true }) ∧
                 (s.leaveNow cl 4 = false →
                   goes .copyChunk { s with leaveQ := s.leaveQ ++ [{ owner := .channel k, cluster := cl, n := 4, since := s.clk }] }))))))) ∧
     (∀ (y : Xfer) rows u, (drainEach (copyPut y) [] rows s = ([], u) → copyWrites y rows s = .done u) ∧
       ∀ left, left ≠ [] → drainEach (copyPut y) [] rows s = (left, u) → copyWrites y rows s = .writing left u) ∧
     (s.input = .word a x →
       (¬ bound → goes .cpbindWrite s) ∧
       (bound → NextWith (exec .cpbindWrite s) fun t => t.strands = s.strands ∧ t.mem = s.mem ∧ t.chans = s.chans ∧
         ∀ n, n < 8 →
           let y := x.toNat / 2 ^ (8 * n)
           (free n → t.hubFld a (8 * n) 8 = y / 2 ^ 7 % 2 * 2 ^ 7 + y % 2 ^ 3) ∧
           (¬ free n → t.hubFld a (8 * n) 8 = s.hubFld a (8 * n) 8))))

/-- R311, R316, R321 to R324, R394; that an operation on the module's own window is performed when it is issued rests on log 33, what a
form that waits leaves on log 98.
R307, R312, R314 to R316, R321; the privilege of a window's accesses rests on log 12, a time limit of 0 on log 134, waiting on log
104. -/
def Obligations.RemoteResults : Prop :=
  (∀ (h : Hdr) (op : AmoOp) (ty : Ty) (d a b : R32) (f : BitVec 14) (l : BitVec 32) (s : State), s.guard h = true →
     let r := s.G a
     let mod := r.toNat / 2 ^ 55
     let win := r.toNat / 2 ^ 40 % 2 ^ 15
     let size := ty.bits / 8
     let trapOf (sub ecause : Nat) : Exc :=
       { cause := 0x0E, addr := r, info := BitVec.ofNat 64 (win * 2 ^ 25 + mod * 2 ^ 16 + ecause % 256 * 2 ^ 8 + sub) }
     let key (v : State) : Nat := ((v.partOf v.cur).getD 0) * 2 ^ 64 + v.me.ttag.toNat
     let known : Prop := s.inDomain mod = true ∨ mod = s.ownMid
     let own (v : State) (n : Nat) (k : RemoteKind) : RemoteReq :=
       { source := v.ownMid, window := win, offset := r.toNat % 2 ^ 40, length := n, kind := k, part := (v.partOf v.cur).getD 0 }
     let bulk (i : Instr) (len : Nat) (n : Word) (va : Word) (k : Kind) (drained : Bool) (go : State → Res State)
         (kind : State → RemoteKind → Prop) (lands : RemoteResult → State → State → Prop) : Prop :=
       (2 ^ 30 < n.toNat → exec i s = .next (s.takeTrap s (trapOf 1 0))) ∧
       (n.toNat ≤ 2 ^ 30 → ¬ known → exec i s = .next (s.takeTrap s (trapOf 2 0))) ∧
       (n.toNat ≤ 2 ^ 30 → known →
         let c := clusterOf s.cur
         let big : Bool := 2 ^ 18 < n.toNat
         let back (v : State) : State := if big = true then v.returnLeave c 4 else v
         let checks := checkParts (s.who s.cur) k Align.any (rangeParts va n.toNat) s
         let goes (g : State) : Prop :=
           (∀ e v, go g = .trap e v → exec i s = .next (s.takeTrap (back v) e)) ∧ (∀ v, go g = .wait v → exec i s = .next (back v)) ∧
           ∀ x v, go g = .ok x v →
             (x.openEntry (key x) mod win = none → exec i s = .next (back x)) ∧
             ∀ w, x.openEntry (key x) mod win = some w →
               (mod ≠ x.ownMid →
                 NextWith (exec i s) fun t => t.me = w.me.advance len ∧ t.mem = w.mem ∧ t.hub = w.hub ∧
                   ∃ o : RemoteOp, t.remotes = w.remotes ++ [o] ∧ o.addr = r ∧ kind g o.kind ∧ o.n = n.toNat ∧ o.counted = true ∧
                     o.leave = big ∧ o.result = none) ∧
               (mod = x.ownMid → ∀ kd, kind g kd →
                 (∀ y, performRemote (own x n.toNat kd) x = .wait y → exec i s = .next (back y)) ∧
                 ∀ res y z, performRemote (own x n.toNat kd) x = .ok res y → lands res y z →
                   let opened := (z.openEntry (key x) mod win).getD z
                   NextWith (exec i s) fun t => t.me = z.me.advance len ∧ t.mem = z.mem ∧ t.remotes = z.remotes ∧
                     ∀ e, opened.srcEntry (key x) mod win = some e →
                       t.srcEntry (key x) mod win = some { e with
                         done := e.done + 1
                         latch := match e.latch, res with
                           | some l, _ => some l
                           | none, .done _ => none
                           | none, .failed sub ec => some (r, (trapOf sub ec).info) })
         (∀ e u, checks = .trap e u → exec i s = .next (s.takeTrap u e)) ∧ (∀ u, checks = .wait u → exec i s = .next u) ∧
         (∀ u, checks = .ok () u → drained = true → u.drainAdmits 40 = false →
           exec i s = .next (s.refuseOp (.remote s.cur) c)) ∧
         (∀ u, checks = .ok () u → (drained = true → u.drainAdmits 40 = true) →
           let held := u.leaveGot.contains (.remote s.cur)
           let queued := u.leaveQ.any fun q => q.owner == .remote s.cur
           let asked := { u with leaveQ := u.leaveQ ++ [{ owner := .remote s.cur, cluster := c, n := 4, since := u.clk }] }
           (big = false → goes u) ∧
           (big = true → held = true → goes { u with leaveGot := u.leaveGot.erase (.remote s.cur) }) ∧
           (big = true → held = false → queued = true → exec i s = .next u) ∧
           (big = true → held = false → queued = false →
             (u.leaveNow c 4 = true → goes (u.moveCredits c 4)) ∧ (u.leaveNow c 4 = false → exec i s = .next asked))))
     let put (i : Instr) (len : Nat) (flag : Option Nat) : Prop :=
       let read (u : State) := memReadAt (u.who u.cur) .cluster (s.G b) (s.G d).toNat false h.tmp.toNat u
       bulk i len (s.G d) (s.G b) .load true (fun u => (read u).andThen fun _ v => .ok v v)
         (fun u k => ∃ data v, read u = .ok data v ∧ k = .put data flag) (fun _ y z => z = y)
     let waits (i : Instr) (n : Nat) (k : RemoteKind) (value : Nat → Word) (ok : Prop) : Prop :=
       (s.me.remote = none → ok → ¬ known → exec i s = .next (s.takeTrap s (trapOf 2 0))) ∧
       (s.me.remote = none → ok → mod = s.ownMid →
         let req := own s n k
         let kept (u : State) (x : RemoteResult) : Prop :=
           NextWith (exec i s) fun t => t.me = { u.me with remote := some u.remoteSeq } ∧ t.mem = u.mem ∧
             ∃ o : RemoteOp, t.remotes = u.remotes ++ [o] ∧ o.id = u.remoteSeq ∧ o.counted = false ∧ o.result = some x
         (∀ u, performRemote req s = .wait u → exec i s = .next u) ∧
         (∀ x u, performRemote req s = .ok x u → u.acks ≠ [] → kept u x) ∧
         (∀ x u, performRemote req s = .ok (.done x) u → u.acks = [] → exec i s = .next ((u.setG d (value x)).retire 8)) ∧
         ∀ sub e u, performRemote req s = .ok (.failed sub e) u → u.acks = [] → exec i s = .next (s.takeTrap u (trapOf sub e))) ∧
       (s.me.remote = none → ok → s.inDomain mod = true → mod ≠ s.ownMid →
         NextWith (exec i s) fun t => t.me = { s.me with remote := some s.remoteSeq } ∧ t.mem = s.mem ∧
           ∃ o : RemoteOp, t.remotes = s.remotes ++ [o] ∧ o.id = s.remoteSeq ∧ o.addr = r ∧ o.kind = k ∧ o.counted = false) ∧
       (∀ id, s.me.remote = some id →
         let found := (s.remotes.find? fun o => o.id == id).bind RemoteOp.result
         let u := { s with remotes := s.remotes.filter fun o => o.id != id }.modMe fun m => { m with remote := none }
         (found = none ∨ (mod = s.ownMid ∧ s.acks ≠ []) → exec i s = .next s) ∧
         ((mod = s.ownMid → s.acks = []) → (∀ x, found = some (.done x) → exec i s = .next ((u.setG d (value x)).retire 8)) ∧
         ∀ sub e, found = some (.failed sub e) → exec i s = .next (s.takeTrap u (trapOf sub e))))
     let ratom (o : AmoOp) : Instr :=
       match o with
       | .add => .ratomAdd h ty d a b | .and => .ratomAnd h ty d a b | .or => .ratomOr h ty d a b | .xor => .ratomXor h ty d a b
       | .min => .ratomMin h ty d a b | .max => .ratomMax h ty d a b | .swap => .ratomSwap h ty d a b | .fadd => .ratomFadd h ty d a b
     let entry := s.srcEntry (key s) mod win
     let unfenced := s.modMe fun m => { m with fence := none }
     put (.rput h d a b f) 8 (if f = 0x2000 then none else some (8 * f.toNat)) ∧
     put (.rputLong h d a b l) 12 (if l = BitVec.allOnes 32 then none else some (8 * l.toNat)) ∧
     bulk (.rget h d a b) 8 (s.G b) (s.G d) .store (mod == s.ownMid) (fun u => .ok u u) (fun _ k => k = .get)
       (fun res y z => match res with
         | .done v => hubWrite (y.who y.cur) (s.G d) (s.G b).toNat v y = .ok () z
         | .failed _ _ => z = y) ∧
     (∀ i ∈ [ratom op, Instr.rcas h ty d a b], s.me.remote = none → r.toNat % size ≠ 0 →
       exec i s = .next (s.takeTrap s { cause := 0x07, addr := r, info := BitVec.ofNat 64 (Nat.log2 size) })) ∧
     waits (ratom op) size (.atom op ty (s.G b)) (loaded ty) (r.toNat % size = 0) ∧
     waits (.rcas h ty d a b) size (.cas ty (s.G d) (s.G b)) (loaded ty) (r.toNat % size = 0) ∧
     (mod = s.ownMid → WritesG (exec (.wcntArr h d a) s) s 8 d (s.hubGet (0xF00000180000 + 64 * win + 40))) ∧
     (mod ≠ s.ownMid → waits (.wcntArr h d a) 8 .count (BitVec.ofNat 64) True) ∧
     WritesG (exec (.wcntIss h d a) s) s 8 d (entry.elim 0 fun e => BitVec.ofNat 64 e.iss) ∧
     WritesG (exec (.wcntDone h d a) s) s 8 d (entry.elim 0 fun e => BitVec.ofNat 64 e.done) ∧
     let ends : Prop :=
       (∀ v, acquire .die unfenced = .ok () v → exec (.rfence h a) s = .next (v.retire 8)) ∧
       ∀ v, acquire .die unfenced = .wait v → exec (.rfence h a) s = .next v
     (entry = none → ends) ∧
     (∀ e, entry = some e →
       let target := s.me.fence.getD e.iss
       (e.done < target → exec (.rfence h a) s = .next (s.modMe fun m => { m with fence := some target })) ∧
       (target ≤ e.done → e.latch = none → ends) ∧
       ∀ x, target ≤ e.done → e.latch = some x → ∃ u, exec (.rfence h a) s =
         .next (s.takeTrap u { cause := 0x0E, addr := x.1, info := x.2 }) ∧ u.me = { s.me with fence := none } ∧ u.mem = s.mem ∧
         ((u.srcEntry (key s) mod win).map SrcEntry.latch) = some none) ∧
     ∀ (k m n : Nat) (v : State), s.openEntry k m n = some v →
       ((v.srcEntry k m n).map SrcEntry.iss) = some ((s.srcEntry k m n).elim 1 fun e => e.iss + 1)) ∧
  (∀ (r : RemoteReq) (o : RemoteOp) (id : Nat) (res : RemoteResult) (s : State),
     let goes (i : Instr) (t : State) : Prop := exec i s = .next t
     let ctl := s.hubGet (winAddr r.window)
     let len := s.hubFld (winAddr r.window + 16) 0 41
     let registered : Prop := ctl.getLsbD 63 = true ∧ (r.window ∈ s.releasing → r.accepted = true)
     let right : Prop := match r.kind with
       | .put _ _ | .move _ _ _ => ctl.getLsbD 61 = true
       | .get => ctl.getLsbD 62 = true
       | .count => True
       | _ => ctl.getLsbD 60 = true
     let flagIn : Prop := match r.kind with | .put _ (some f) => f < len | _ => True
     let va := s.hubFld (winAddr r.window + 8) 3 52 * 8 + r.offset
     let fails (n c : Nat) : Prop := performRemote r s = .ok (.failed n c) s
     let pair (e : SrcEntry) : Bool := e.mod == remMod o.addr && e.win == remWin o.addr
     let closed (e : SrcEntry) : SrcEntry := { e with done := e.done + 1, latch := match e.latch with | some x => some x | none => if o.silent = true then none else latchOf o.addr res }
     let late : Prop := o.start + 1000 * max 1 (s.hubFld (hubFC + 136) 0 32) ≤ s.fabricTime
     (¬ registered → fails 3 0) ∧
     (registered → r.kind ≠ .count →
       (¬ right → fails 5 0) ∧
       (right → len < r.offset + r.length → fails 4 0) ∧
       (right → r.offset + r.length ≤ len → ¬ flagIn → fails 10 0) ∧
       (right → r.offset + r.length ≤ len → flagIn → s.bellIn = true → performRemote r s = .wait s) ∧
       (right → r.offset + r.length ≤ len → flagIn → s.bellIn = false →
         (∀ e u, windowWho r.window s = .trap e u → performRemote r s = .ok (.failed 7 e.cause) u) ∧
         (∀ u, windowWho r.window s = .wait u → performRemote r s = .wait u) ∧
         ∀ w u', windowWho r.window s = .ok w u' → u' = s ∧
           (∀ n u, remoteAccess r w va s = .ok n u → performRemote r s = .ok (.done n) u) ∧
           (∀ e u, remoteAccess r w va s = .trap e u → performRemote r s = .ok (failedBy e) u) ∧
           (∀ u, remoteAccess r w va s = .wait u → performRemote r s = .wait u))) ∧
     (registered → r.kind = .count →
       (ctl.toNat / 2 ^ 56 % 2 ^ 4 ≠ r.part → fails 5 0) ∧
       (ctl.toNat / 2 ^ 56 % 2 ^ 4 = r.part →
         performRemote r s = .ok (.done (s.hubGet (winAddr r.window + 40)).toNat) s)) ∧
     (∀ u, s.input = .remote r → performRemote r s = .wait u → goes .remoteOperationArrival (u.defer .remoteOperationArrival (.remote { r with accepted := true }))) ∧
     (s.input = .remote r → ∀ x u, performRemote r s = .ok x u →
       (u.acks = [] → NextWith (exec .remoteOperationArrival s) fun t =>
         t.replies = u.replies ++ [(r.source, u.packetSeq, x)] ∧ u.packetSeq < t.packetSeq ∧ t.strands = u.strands ∧ t.mem = u.mem ∧ t.hub = u.hub) ∧
       (u.acks ≠ [] → ∃ n, goes .remoteOperationArrival (u.defer .remoteOperationArrival (.remoteReply r.source n x)))) ∧
     (∀ n, s.input = .remoteReply r.source n res →
       (s.acks ≠ [] → goes .remoteOperationArrival (s.defer .remoteOperationArrival s.input)) ∧
       (s.acks = [] → NextWith (exec .remoteOperationArrival s) fun t =>
         t.replies = s.replies ++ [(r.source, s.packetSeq, res)] ∧ t.strands = s.strands ∧ t.mem = s.mem ∧ t.hub = s.hub)) ∧
     (s.input = .remoteEnd id res →
       let open' := s.remotes.find? fun x => x.id == id && x.sent && x.result.isNone
       (open' = none → goes .remoteOperationEnd s) ∧
       (open' = some o →
         (∀ v, o.kind = .get → res = .done v →
           (s.drainAdmits 40 = false → goes .remoteOperationEnd (s.refuseStep (.event .remoteOperationEnd s.input))) ∧
           (s.drainAdmits 40 = true →
             (∀ u, hubWrite o.who (BitVec.ofNat 64 o.lva) o.n v s = .ok () u → goes .remoteOperationEnd (u.endRemote o res)) ∧
             (∀ e u, hubWrite o.who (BitVec.ofNat 64 o.lva) o.n v s = .trap e u → goes .remoteOperationEnd (u.endRemote o (failedBy e))) ∧
             ∀ u, hubWrite o.who (BitVec.ofNat 64 o.lva) o.n v s = .wait u → goes .remoteOperationEnd (u.defer .remoteOperationEnd s.input))) ∧
         (o.kind ≠ .get ∨ (∃ n c, res = .failed n c) →
           (s.bellIn = true → goes .remoteOperationEnd (s.defer .remoteOperationEnd s.input)) ∧
           (s.bellIn = false → goes .remoteOperationEnd (s.endRemote o res))))) ∧
     (let u := s.endRemote o res
      u.strands = s.strands ∧ u.mem = s.mem ∧
      (∀ c, o.coll = some c → o.leave = false → u = ({ s with remotes := s.remotes.filter fun x => x.id != o.id }.moveEnded c res)) ∧
      (o.coll = none →
        (o.counted = true → u.remotes = (s.remotes.filter fun x => x.id != o.id)) ∧
        (o.counted = true → o.silent = false →
          u.srcTab (srcKey o.part o.ttag) = (s.srcTab (srcKey o.part o.ttag)).map fun e => if pair e = true then closed e else e) ∧
        (o.counted = false → (s.strand o.key).remote = some o.id →
          u = { s with remotes := s.remotes.map fun x => if x.id = o.id then { x with result := some res } else x }))) ∧
     (∀ c k, s.colls.find? (fun x => x.id == k && x.outcome.isNone) = some c →
       (∀ v, s.moveEnded k (.done v) = s.later .rpartCommit (.num c.id)) ∧
       ∀ n x, s.moveEnded k (.failed n x) = s.endColl c (.error 0x22 ((groupMembers c.descriptor).map fun _ => n))) ∧
     (s.input = .num id →
       let open' := s.remotes.find? fun x => x.id == id && x.result.isNone
       (open' = none → goes .remoteOperationTimeout s) ∧
       (open' = some o → ¬ late → goes .remoteOperationTimeout s) ∧
       (open' = some o → late → goes .remoteOperationTimeout
         ({ s with outbox := s.outbox.filter fun p => p.last != some id }.endRemote o (.failed 9 0)))))

/-- R337 to R341, R335, R336; how a collective that is executed again is known rests on log 58, the privilege of the hub's accesses on log
12, the order of the page checks on log 133.
R325 to R327, R333, R335, R336, R338, R339; how joins are matched rests on log 59, the parts of a repartition on log 61, a failing read
on log 62. -/
def Obligations.CollectiveResults : Prop :=
  (∀ (h : Hdr) (op : Fin 3) (ty : Ty) (d a b : R32) (l : BitVec 32) (s : State), s.guard h = true →
     let cred (o : Fin 3) : Instr := match o with | 0 => .credAdd h ty d a b | 1 => .credMin h ty d a b | 2 => .credMax h ty d a b
     let va := s.G b
     let w := ty.bits
     let kind := CollKind.red op.val ty
     let z := s.expireColls
     let waits (i : Instr) (va : Word) (k : CollKind) (x : Vec) (before : State → Res Unit) (fin : Coll → State → Res Unit) : Prop :=
       let joins := (readGroup (z.who z.cur) h.tmp.toNat va z).andThen fun g u => (raiseLowest (groupFaults va g u) va u).andThen fun _ u =>
         (collBusy g va u).andThen fun _ u => (before u).andThen fun _ u => .ok () (u.joinHere g x (u.asLocal g k va))
       let ends (c : Coll) (u : State) : Prop :=
         let out := (u.colls.find? fun y => y.id == c.id).bind Coll.outcome
         (out = none → exec i s = .next u) ∧
         (∀ e, out = some e → e.status = 0 →
           (∀ v, fin c u = .ok () v → exec i s = .next ((v.leaveColl c.id).retire 8)) ∧ ∀ v, fin c u = .wait v → exec i s = .next v) ∧
         ∀ e, out = some e → e.status ≠ 0 →
           exec i s = .next (u.takeTrap (u.leaveColl c.id) { cause := 0x0F, addr := va, info := BitVec.ofNat 64 e.status })
       (z.collAt k va = none → z.bellIn = true → exec i s = .next z) ∧
       (z.collAt k va = none → z.bellIn = false →
         (∀ e u, joins = .trap e u → exec i s = .next (z.takeTrap u e)) ∧ (∀ u, joins = .wait u → exec i s = .next u) ∧
         (∀ u c, joins = .ok () u → u.collAt k va = some c → ends c u)) ∧
       (∀ c, z.collAt k va = some c → ends c z)
     let rec' := s.G a + l.signExtend 64
     let here (c : Coll) : Bool := c.locals.any fun y => y.kind.isPart && z.mine y && y.addr == (s.G a).toNat
     waits (.cbar h b) va .bar 0 (release .dom) (fun _ u => acquire .dom u) ∧
     waits (cred op) va kind (s.V a) (fun u => .ok () u)
       (fun c u => .ok () (u.setV d (credValue op.val ty (c.joins.map CollJoin.value)))) ∧
     (∀ (vs : List Vec) (i : Nat), i < 512 / w → ty ∈ [Ty.i32, .i64, .f32] →
       laneOf (credValue op.val ty vs) w i = BitVec.ofNat w (credLane op.val ty (vs.map fun v => (laneOf v w i).toNat))) ∧
     (∀ x (xs : List Nat), (∀ y ∈ x :: xs, y < 2 ^ w) →
       (op = 0 → ty.isFloat = false → credLane op.val ty (x :: xs) = (x :: xs).sum % 2 ^ w) ∧
       (op = 0 → ty.isFloat = true → credLane op.val ty (x :: xs) = roundTo .f32 .rne (exactSum .rne ((x :: xs).map (widen .f32)))) ∧
       (op = 1 → ty.isFloat = true → credLane op.val ty (x :: xs) = xs.foldl (fmin .f32) x) ∧
       (op = 2 → ty.isFloat = true → credLane op.val ty (x :: xs) = xs.foldl (fmax .f32) x) ∧
       (op ≠ 0 → ty.isFloat = false → credLane op.val ty (x :: xs) ∈ x :: xs ∧ ∀ y ∈ x :: xs,
         let best := valueAs ty.isSigned (BitVec.ofNat w (credLane op.val ty (x :: xs)))
         let v := valueAs ty.isSigned (BitVec.ofNat w y)
         if op = 1 then best ≤ v else v ≤ best)) ∧
     (s.bellIn = true → exec (.rpart h d a l) s = .next s) ∧
     (s.bellIn = false →
       (∀ e u, rpartChecks rec' s = .trap e u → exec (.rpart h d a l) s = .next (s.takeTrap u e)) ∧
       (∀ u, rpartChecks rec' s = .wait u → exec (.rpart h d a l) s = .next u) ∧
       ∀ r g u, rpartChecks rec' s = .ok (r, g) u →
         (4 ≤ u.rpartsOf → exec (.rpart h d a l) s = .next ((u.setG d 1).retire 12)) ∧
         (u.rpartsOf < 4 → (∀ v, release .dom u = .wait v → exec (.rpart h d a l) s = .next v) ∧
           ∀ x, release .dom u = .ok () x →
             let kind : CollKind := .part (recWord r 0) (recWord r 4) (recWord r 5) (recWord r 6) (r / 2 ^ 544 % 2 ^ 32)
             let mine := { x.asLocal g kind rec' with
               base := r / 2 ^ 128 % 2 ^ 64, count := r / 2 ^ 192 % 2 ^ 32, rbuf := recWord r 7, rcap := r / 2 ^ 512 % 2 ^ 32 }
             let elements := snapshot (8 * (r / 2 ^ 24 % 2 ^ 8)) mine x
             (∀ v, elements = .wait v → exec (.rpart h d a l) s = .next v) ∧
             ∀ m x', elements = .ok m x' →
             let stat := hubWrite (x'.who x'.cur) (rec' + 96) 8 1 x'
             (∀ e v, stat = .trap e v → exec (.rpart h d a l) s = .next (s.takeTrap v e)) ∧
             (∀ v, stat = .wait v → exec (.rpart h d a l) s = .next v) ∧
             ∀ v, stat = .ok () v →
               NextWith (exec (.rpart h d a l) s) fun t => t.me = (v.me.setGpr d.val 0).advance 12 ∧ t.mem = v.mem ∧
                 ∃ c ∈ t.colls, m ∈ c.locals)) ∧
     (∀ c, z.colls.find? here = some c →
       let phase := c.outcome.elim c.phase fun e => if e.status < 0x20 then c.phase else 6
       WritesG (exec (.rpstat h d a) s) z 8 d (BitVec.ofNat 64 (c.joins.length % 2 ^ 12 * 2 ^ 20 + phase * 2 ^ 16 + 1))) ∧
     (z.colls.find? here = none →
       let r := memReadAt (z.who z.cur) .home (s.G a + 96) 8 false 0 z
       (∀ e u, r = .trap e u → exec (.rpstat h d a) s = .next (s.takeTrap u e)) ∧
       (∀ u, r = .wait u → exec (.rpstat h d a) s = .next u) ∧
       ∀ x u, r = .ok x u →
         let v (u : State) := (u.setG d (BitVec.ofNat 64 (7 * 2 ^ 16 + x % 2 ^ 16))).retire 8
         (x % 256 ≤ 1 → exec (.rpstat h d a) s = .next (v u)) ∧
         (1 < x % 256 → (∀ w, acquire .dom u = .ok () w → exec (.rpstat h d a) s = .next (v w)) ∧
           ∀ w, acquire .dom u = .wait w → exec (.rpstat h d a) s = .next w))) ∧
  (∀ (part id n : Nat) (j : CollJoin) (l : Option CollLocal) (c : Coll) (e : CollEnd) (s : State),
     let goes (i : Instr) (t : State) : Prop := exec i s = .next t
     let z := s.expireColls
     let seen := z.colls.find? fun x => x.takes part j
     let c' : Coll := { c with joins := c.joins ++ [j], locals := c.locals ++ l.toList }
     let u := z.modColl c.id fun _ => c'
     let isPart (x : Coll) : Prop := ∃ ctl b0 b1 b2 tmo, x.kind = .part ctl b0 b1 b2 tmo
     let fails (st : Nat) : CollEnd := { status := st, detail := [], news := [], helds := [], los := [] }
     let detailed (st : Nat) (d : List Nat) : CollEnd := { fails st with detail := d }
     let parties := groupMembers c.descriptor
     let phased (n : Nat) (t : State) : State := t.modColl c.id fun x => { x with phase := max x.phase n }
     let us (x : Coll) : Nat := match x.kind with | .part _ _ _ _ tmo => tmo | _ => x.descriptor.getD 1 0
     let due := s.colls.find? fun x => x.id == id && s.collExpired x
     let running := s.colls.find? fun x => x.id == id && x.outcome.isNone
     let dead := s.modColl id fun x => { x with dead := n :: x.dead }
     (s.input = .join part j → (s.bellIn = true → goes .collectiveJoin (s.defer .collectiveJoin s.input)) ∧ (s.bellIn = false → goes .collectiveJoin (s.joinColl part j none))) ∧
     (seen = some c → c.id ≠ z.collSeq →
       let same : Prop := c.descriptor = j.descriptor ∧ c.kind = j.kind
       (c.outcome = some e → s.joinColl part j l = (u.endColl c' e).dropColls) ∧
       (c.outcome = none → ¬ same → s.joinColl part j l = u.endColl c' (fails 0x21)) ∧
       (c.outcome = none → same → c.joins.length + 1 ≠ groupSize c.descriptor → s.joinColl part j l = u) ∧
       (c.outcome = none → same → c.joins.length + 1 = groupSize c.descriptor →
         (¬ isPart c → s.joinColl part j l = u.endColl c' (fails 0)) ∧
         (isPart c → s.joinColl part j l = (u.modColl c.id fun x => { x with phase := 1 }).later .rpartCommit (.num c.id)))) ∧
     (seen = none → (∀ x ∈ z.colls, x.id ≠ z.collSeq) → groupSize j.descriptor ≠ 1 →
       s.joinColl part j l = { z with collSeq := z.collSeq + 1, colls := z.colls ++
         [{ id := z.collSeq, part := part, gid := j.gid, count := j.count, descriptor := j.descriptor, kind := j.kind, joins := [j],
            locals := l.toList, start := z.fabricTime, phase := 0, outcome := none }] }) ∧
     (let t := s.endColl c e
      t.strands = s.strands ∧ t.mem = s.mem ∧ t.colls = s.colls.map fun x =>
        if x.id = c.id then { x with outcome := some e, locals := x.locals.map fun y => { y with leave := false } } else x) ∧
     (s.input = .num id →
       (due = none → goes .collectiveTimeout s) ∧ (due = some c → goes .collectiveTimeout (s.endColl c (fails 0x20)))) ∧
     (∀ x, s.collExpired x = true ↔
       x.outcome = none ∧ x.joins.length < groupSize x.descriptor ∧ x.start + 1000 * us x ≤ s.fabricTime) ∧
     ((∀ x ∈ s.colls, s.collExpired x = false) → z = s) ∧
     (s.bellIn = true → goes .rpartCommit (s.defer .rpartCommit s.input) ∧ goes .rpartEnd (s.defer .rpartEnd s.input)) ∧
     (s.bellIn = false → running = none →
       (s.input = .num id ∨ s.input = .num2 id n → goes .rpartCommit s) ∧
       (∀ st, s.input = .num3 id st n → goes .rpartCommit (if st = 0x23 then dead else s).dropColls)) ∧
     (s.bellIn = false → running = some c →
       (s.input = .num2 id n →
         (c.phase = 0 → goes .rpartCommit s) ∧
         (c.phase ≠ 0 → n ≤ 4 → goes .rpartCommit (phased n s)) ∧
         (c.phase ≠ 0 → 4 < n → goes .rpartCommit ((s.modColl id fun x => { x with confirmed := true }).later .rpartCommit (.num id)))) ∧
       (s.input = .num3 id 0x22 n → c.kind.isPart = true → c.phase ≠ 0 → goes .rpartCommit (s.endColl c (detailed 0x22 (parties.map fun _ => n)))) ∧
       (s.input = .num3 id 0x23 n → goes .rpartCommit (dead.endColl c (fails 0x23))) ∧
       (s.input = .num3 id 0x24 n → c.kind.isPart = true → c.phase ≠ 0 → goes .rpartCommit (s.endColl c (fails 0x24))) ∧
       let moving : Prop := c.arrays.isSome = true ∧ c.moved = false
       (s.input = .num id → c.phase = 0 → goes .rpartCommit s) ∧
       (s.input = .num id → c.phase ≠ 0 → moving → s.drainAdmits 40 = false →
         goes .rpartCommit (c.locals.foldl (fun u y => u.refuseOp (.part c.id y.index) (clusterOf y.key)) s)) ∧
       (s.input = .num id → c.phase ≠ 0 → (moving → s.drainAdmits 40 = true) →
         let m := c.moves
         let again (t : State) : State := t.later .rpartCommit (.num c.id)
         let waits (t : State) : Prop := goes .rpartCommit (t.defer .rpartCommit (.num id))
         (c.arrays = none →
           (∀ t, readLocals m.size c.locals s = .wait t → waits t) ∧
           (∀ i z t, readLocals m.size c.locals s = .ok (.error (i, z)) t →
             goes .rpartCommit (t.endColl c (detailed 0x24 ((List.range parties.length).map fun k => if k = i then z else 0)))) ∧
           ∀ xs t, readLocals m.size c.locals s = .ok (.ok xs) t → goes .rpartCommit (again (t.modColl c.id fun x => { x with arrays := some xs }))) ∧
         (c.arrays.isSome = true → c.moved = false →
           (∀ t, s.collCredits c c.locals = (false, t) → goes .rpartCommit (phased 4 t)) ∧
           ∀ t, s.collCredits c c.locals = (true, t) →
             let got := receiveAll m c.within (phased 4 t)
             (∀ w, got = .wait w → waits w) ∧
             (∀ x w, got = .ok (some x) w → goes .rpartCommit
               (w.endColl ((w.colls.find? fun y => y.id == c.id).getD c) (detailed 0x22 (List.replicate parties.length x)))) ∧
             ∀ w, got = .ok none w → goes .rpartCommit (again ((w.sendMoves c m).modColl c.id fun x => { x with moved := true }))) ∧
         (c.arrays.isSome = true → c.moved = true →
           (s.movesDone c = false → goes .rpartCommit s) ∧
           (s.movesDone c = true → goes .rpartCommit ((phased 5 s).endColl c m.outcome))))) ∧
     (s.movesDone c = true ↔ (∀ o ∈ s.remotes, o.coll ≠ some c.id) ∧ c.awaited ≤ c.flags ∧ (c.confirmed = true ∨ ∀ x ∈ parties, x.1 = s.ownMid)) ∧
     (s.bellIn = false → s.input = .num id →
       let ended := s.colls.find? fun x => x.id == id
       (ended = none → goes .rpartEnd s) ∧
       (ended = some c → c.outcome = none → goes .rpartEnd s) ∧
       (ended = some c → c.outcome = some e →
         let told := reportAll id c.moves e (c.locals.filter fun y => y.kind.isPart && !y.finished) s
         (∀ t, told = .ok () t → goes .rpartEnd t.dropColls) ∧
         ∀ t, told = .wait t → goes .rpartEnd (t.defer .rpartEnd (.num id)))))

/-- R48, R347 to R353; logs 23, 26 and 28 say what the model settles beside them, and log 104 how a step waits. -/
def Obligations.DispatcherSteps : Prop :=
  ∀ (part die cl id r : Nat) (c : Cast) (x : Task) (s : State),
    let goes (i : Instr) (t : State) : Prop := exec i s = .next t
    let ready (c : Cast) (r : Nat) : Prop := c ∈ s.casts ∧ c.part = part ∧ c.rank die = some r ∧ c.over r = false ∧ s.heldBack c die r = false
    let q := s.queueOf part cl
    let distinct : Prop := ∀ a ∈ s.tasks, ∀ b ∈ s.tasks, a.id = b.id → a = b
    (s.input = .num2 part die →
      (s.distribute part die = none → goes .taskDistribution s) ∧
      (∀ u, s.distribute part die = some (.ok () u) → goes .taskDistribution (u.later .taskDistribution (.num2 part die))) ∧
      (∀ u, s.distribute part die = some (.wait u) → goes .taskDistribution (u.defer .taskDistribution (.num2 part die)))) ∧
    (2048 ≤ (s.tasks.filter fun t => t.die == die && t.state == .queued).length → s.distribute part die = none) ∧
    (s.nextCast part die = some (c, r) → ready c r ∧ ∀ c' r', ready c' r' → c'.prio ≤ c.prio) ∧
    (∀ g, s.dealTo part die = some g → g ∈ s.clustersOf part ∧ g / 64 = die ∧ s.clusterOpen g = true) ∧
    (∀ g, s.nextCast part die = some (c, r) → s.dealTo part die = some g → c.dmode ≠ 2 →
      s.taskOf c (c.cursor r).1 = none → (s.tasks.filter fun t => t.die == die && t.state == .queued).length < 2048 →
      ∃ u, s.distribute part die = some (.ok () u) ∧ u.tasks = s.tasks ++ [c.taskAt r die s.taskSeq g .queued] ∧ u.taskSeq = s.taskSeq + 1 ∧
        u.strands = s.strands ∧ u.mem = s.mem) ∧
    (s.input = .num2 part cl →
      (s.placeHead part cl = none → goes .taskPlacement s) ∧
      (∀ u, s.placeHead part cl = some (.wait u) → goes .taskPlacement (u.defer .taskPlacement (.num2 part cl))) ∧
      (∀ u, s.placeHead part cl = some (.ok () u) →
        goes .taskPlacement ((u.later .taskPlacement (.num2 part cl)).distributeLater part (cl / 64)))) ∧
    (let t := s.distributeLater part die
     t.tasks = s.tasks ∧ t.strands = s.strands ∧ t.mem = s.mem ∧ Move.event .taskDistribution (.num2 part die) ∈ t.agenda ∧
     (2047 ≤ (s.tasks.filter fun t => t.die == die && t.state == .queued).length →
       ∀ p, p < 16 → s.partEnabled p = true → Move.event .taskDistribution (.num2 p die) ∈ t.agenda)) ∧
    (headOf q = none ↔ q = []) ∧
    (headOf q = some x → x ∈ q ∧ ∀ y ∈ q, y.before x = false) ∧
    (∀ y : Task, x.before y = true ↔ y.prio < x.prio ∨ (y.prio = x.prio ∧ ((x.resume = true ∧ y.resume = false) ∨
      (x.resume = y.resume ∧ (x.cast < y.cast ∨ (x.cast = y.cast ∧ x.idx < y.idx)))))) ∧
    (x.gsz ≤ 8 → ∀ keys, s.positions x = some keys → keys.length = x.gsz ∧ ∀ k ∈ keys, (s.strand k).run = .free ∧
      clusterOf k = x.cluster % 256 ∧ s.bankOn x.cluster = some (s.partBank x.part)) ∧
    (∀ k key slot,
      let u := s.placeStrand c x k key slot
      let base := c.stkb + BitVec.ofNat 64 (((x.die * c.nslot + x.pos % c.nslot) * c.gsz + k) * c.stksz)
      (u.strand key).pc = c.entry ∧ (u.strand key).run = .running ∧ (u.strand key).sup = false ∧ (u.strand key).ttag = x.ttag ∧
      (u.strand key).xsave = slot ∧ (u.strand key).ptbase = c.ptbase ∧ (u.strand key).asn = c.asn ∧
      (∀ n, Tab.get 0 (u.strand key).g n =
        if n = 1 then c.arg else if n = 2 then BitVec.ofNat 64 x.idx else if n = 3 then BitVec.ofNat 64 c.packet
        else if n = 4 then BitVec.ofNat 64 k else if n = 5 then BitVec.ofNat 64 x.gsz else if n = 29 then base
        else if n = 30 then base + BitVec.ofNat 64 c.stksz else if n = 31 then exitAddr else 0) ∧
      (u.strand key).v = [] ∧ (u.strand key).p = 0 ∧ (u.strand key).m = [] ∧ ∀ k', k' ≠ key → u.strand k' = s.strand k') ∧
    (s.input = .num2 part die →
      let cs := (s.clustersOf part).filter fun c => c / 64 == die
      let moves := cs.filterMap fun c => (levelMove cs (fun c => (s.queueOf part c).length) c).map fun x => (x.1, s.tailOf part c x.2)
      let moved := moves.foldl (fun u x => u.sendTasks x.2 x.1) s
      goes .levelling (moves.foldl (fun u x => u.later .taskPlacement (.num2 part x.1)) moved)) ∧
    (∀ n i, i ∈ s.tailOf part cl n → ∃ a ∈ q, a.id = i ∧ a.state = .queued) ∧ (∀ n, (s.tailOf part cl n).length ≤ n) ∧
    (s.input = .num2 part die → distinct → NextWith (exec .levelling s) fun t =>
      t.strands = s.strands ∧ t.mem = s.mem ∧ t.casts = s.casts ∧ t.tasks.length = s.tasks.length ∧
      ∀ (i : Nat) (a b : Task), s.tasks[i]? = some a → t.tasks[i]? = some b → b = { a with cluster := b.cluster } ∧
        (b = a ∨ (a.state = .queued ∧ a.part = part ∧ a.cluster / 64 = die ∧ adjacent a.cluster b.cluster = true))) ∧
    (∀ (cs : List Nat) (len : Nat → Nat) (m n : Nat), levelMove cs len cl = some (m, n) →
      m ∈ cs ∧ adjacent cl m = true ∧ (∀ y ∈ cs, adjacent cl y = true → len m ≤ len y) ∧ 2 ≤ len cl - len m ∧ n = (len cl - len m) / 2) ∧
    (s.input = .num2 id die → s.castNo id = some c → c.rank die = some r →
      (c.shareOver r = false ∨ die ∈ c.reported → goes .shareEnd s) ∧
      (c.shareOver r = true → die ∉ c.reported →
        (c.ccnt = 0 → goes .shareEnd (s.reportShare c die)) ∧
        (c.ccnt ≠ 0 → s.acks ≠ [] → goes .shareEnd (s.defer .shareEnd (.num2 id die))) ∧
        (c.ccnt ≠ 0 → s.acks = [] →
          let add := hubAtomic c.who (BitVec.ofNat 64 c.ccnt) 8 (fun y => some ((y + (c.cursor r).2) % 2 ^ 64)) s
          (∀ u, add = .wait u → goes .shareEnd (u.defer .shareEnd (.num2 id die))) ∧
          (∀ y u, add = .ok y u → goes .shareEnd (u.reportShare c die)) ∧
          ∀ y u, add = .trap y u → goes .shareEnd ((u.raiseCheck (hubFailEvent c.part)).reportShare c die)))) ∧
    (let all : Prop := ∀ d ∈ c.dies, d = die ∨ d ∈ c.reported
     (¬ all → s.reportShare c die =
       { s with casts := s.casts.map fun y => if y.id = c.id then { c with reported := die :: c.reported } else y }) ∧
     (all → c.notq = 0 → s.reportShare c die =
       { s with casts := s.casts.filter fun y => y.id != c.id, tasks := s.tasks.filter fun y => y.cast != c.id })) ∧
    (s.input = .num id →
      (s.task id = none → goes .taskResume s) ∧
      (s.task id = some x →
        let resumes : Prop := x.state = .swapped ∨ (x.state = .resident ∧ x.live = [] ∧ x.saved ≠ [])
        (¬ resumes → goes .taskResume s) ∧
        (resumes → goes .taskResume ((s.modTask id fun y => { y with resume := true }).later .taskPlacement (.num2 x.part x.cluster)))))

/-- R314, R315, R343, R388, R389; WARR at registration rests on log 30, the bits of an operation's number on log 29. -/
def Obligations.ServiceSteps : Prop :=
  ∀ (c : SvcCall) (s : State), s.input = .call c →
    let goes (i : Instr) (t : State) : Prop := exec i s = .next t
    let busy : Prop := s.windowBusy (c.arg0.toNat % 2 ^ 15) = true
    let ops := [Instr.windowRegister, .taskPreempt, .taskKill, .taskQuery, .derive] ++
      if s.windowBusy (c.arg0.toNat % 2 ^ 15) = true then [] else [.windowRelease]
    let at_ (i : Instr) : State :=
      if i = .windowRelease then { s with releasing := s.releasing.filter fun x => x != c.arg0.toNat % 2 ^ 15 } else s
    (∀ n, s.windowBusy n = true ↔ ∃ r : RemoteReq,
      .event .remoteOperationArrival (.remote r) ∈ s.deferred ++ s.agenda ∧ r.accepted = true ∧ r.window = n) ∧
    (busy → NextWith (exec .windowRelease s) fun u => ∃ rs, u = ({ s with releasing := rs } : State).defer .windowRelease s.input ∧
      ∀ n, n ∈ rs ↔ n ∈ s.releasing ∨ n = c.arg0.toNat % 2 ^ 15) ∧
    let answer (st d : Nat) (r : Word) : Reply := .answered st d r 0 s.eseq
    (s.callTask c = none → ∀ i ∈ ops, goes i (at_ i)) ∧
    (∀ t, s.callTask c = some t →
      let log := t.log.filter fun e => e.slot == c.slot
      let mine := log.find? fun e => e.gidx == c.gidx && e.seq == c.seq
      let later : Prop := ∃ e ∈ log, e.gidx = c.gidx ∧ c.seq.toNat < e.seq.toNat
      let cap := Tab.get Cap.none t.caps c.slot
      let covers (n : Nat) : Prop := cap.base ≤ n ∧ n < cap.base + cap.count
      let logged (r : Word) (y : Task) : Task :=
        let e : LogEntry := { slot := c.slot, gidx := c.gidx, seq := c.seq, res0 := r, res1 := 0 }
        { y with log := (e :: y.log.filter fun e => e.slot == c.slot).take 4 ++ y.log.filter fun e => e.slot != c.slot }
      let commit (i : Instr) (r : Word) (u : State) : Prop :=
        goes i (({ u with eseq := u.eseq + 1 }.modTask t.id (logged r)).reply c (.answered 0 0 r 0 (u.eseq + 1)))
      let refuse (i : Instr) (d : Nat) : Prop := goes i ((at_ i).reply c (answer 2 d 0))
      (∀ i ∈ ops, ∀ e, mine = some e → goes i ((at_ i).reply c (.answered 1 0 e.res0 e.res1 s.eseq))) ∧
      (∀ i ∈ ops, mine = none → later → goes i ((at_ i).reply c (answer 3 0 0))) ∧
      (mine = none → ¬ later →
        let n := c.arg0.toNat % 2 ^ 15
        let w := s.hubGet (winAddr n)
        let len := c.arg2.toNat
        let malformed : Prop := c.arg0.toNat / 2 ^ 18 ≠ 0 ∨ c.arg1.toNat % 8 ≠ 0 ∨ c.arg1.toNat / 2 ^ 55 ≠ 0 ∨ len % 8 ≠ 0 ∨ len < 8 ∨ 2 ^ 40 < len
        (¬ covers n → refuse .windowRegister 1 ∧ (¬ busy → refuse .windowRelease 1)) ∧
        (covers n → w.getLsbD 63 = true → refuse .windowRegister 2) ∧
        (covers n → w.getLsbD 63 = false → malformed → refuse .windowRegister 3) ∧
        (covers n → w.getLsbD 63 = false → ¬ malformed → NextWith (exec .windowRegister s) fun u =>
          u.mem = s.mem ∧ u.eseq = s.eseq + 1 ∧
          u.hubGet (winAddr n) = BitVec.ofNat 64 (2 ^ 63 + c.arg0.toNat / 2 ^ 15 % 2 * 2 ^ 62 + c.arg0.toNat / 2 ^ 16 % 2 * 2 ^ 61 +
            c.arg0.toNat / 2 ^ 17 % 2 * 2 ^ 60 + c.part * 2 ^ 56 + c.asn.toNat % 2 ^ 16) ∧
          u.hubGet (winAddr n + 8) = c.arg1 ∧ u.hubGet (winAddr n + 16) = c.arg2 ∧ u.hubGet (winAddr n + 24) = c.ptbase ∧
          u.hubGet (winAddr n + 32) = c.keyl ∧ u.hubGet (winAddr n + 40) = 0 ∧
          ∀ key y, (s.strand key).call = some y → sameCall y.call c = true → y.reply = none →
            let won : Reply := .answered (if y.replayed = true then 1 else 0) 0 (BitVec.ofNat 64 (s.ownMid * 2 ^ 55 + n * 2 ^ 40)) 0 (s.eseq + 1)
            (u.strand key).call = some { y with reply := some won }) ∧
        (¬ busy → covers n → w.getLsbD 63 = false ∨ w.toNat / 2 ^ 56 % 2 ^ 4 ≠ c.part → refuse .windowRelease 2) ∧
        (¬ busy → covers n → w.getLsbD 63 = true → w.toNat / 2 ^ 56 % 2 ^ 4 = c.part → c.arg0.toNat / 2 ^ 15 ≠ 0 → refuse .windowRelease 3) ∧
        (¬ busy → covers n → w.getLsbD 63 = true → w.toNat / 2 ^ 56 % 2 ^ 4 = c.part → c.arg0.toNat / 2 ^ 15 = 0 →
          commit .windowRelease 0 ((at_ .windowRelease).hubSet (winAddr n) (BitVec.ofNat 64 (w.toNat % 2 ^ 63)))) ∧
        (∀ i ∈ [Instr.taskPreempt, .taskKill, .taskQuery],
          (¬ covers c.arg0.toNat → refuse i 1) ∧
          (covers c.arg0.toNat → s.tagged c.part c.arg0.toNat = none → refuse i 4)) ∧
        (covers c.arg0.toNat → ∀ k j, s.tagged c.part c.arg0.toNat = some (k, j) →
          (s.taskOf k j = none → commit .taskQuery 0 s ∧ commit .taskPreempt 0 s ∧ commit .taskKill 0 (s.killPending k j)) ∧
          ∀ y, s.taskOf k j = some y →
            let code : Word := match y.state with | .queued => 1 | .resident => 2 | .swapped => 3 | .ended => 4
            commit .taskQuery code s ∧ commit .taskKill code (s.killTask y.id 0x11 0) ∧
            (y.state = .resident → commit .taskPreempt code (s.requestSave y true)) ∧ (y.state ≠ .resident → commit .taskPreempt code s)) ∧
        (let off := c.arg2.toNat % 2 ^ 32
         let cnt := c.arg2.toNat / 2 ^ 32
         let bad : Prop := 255 < c.arg0.toNat ∨ c.arg1.toNat / 2 ^ 16 ≠ 0
         let empty : Prop := Tab.get Cap.none t.caps c.arg0.toNat = Cap.none
         (cap.count < off + cnt → refuse .derive 1) ∧
         (off + cnt ≤ cap.count → bad → refuse .derive 3) ∧
         (off + cnt ≤ cap.count → ¬ bad → ¬ empty → refuse .derive 5) ∧
         let part' : Cap := { kind := cap.kind, rights := cap.rights &&& (c.arg1.toNat % 2 ^ 16), base := cap.base + off, count := cnt }
         (off + cnt ≤ cap.count → ¬ bad → empty →
           commit .derive 0 (s.modTask t.id fun y => { y with caps := Tab.set Cap.none y.caps c.arg0.toNat part' }))))) ∧
    (∀ d : SvcCall, sameCall d c = true ↔ d.part = c.part ∧ d.ttag = c.ttag ∧ d.slot = c.slot ∧ d.gidx = c.gidx ∧ d.seq = c.seq) ∧
    (∀ r key y, (s.strand key).call = some y → ((s.reply c r).strand key).call =
      if sameCall y.call c = true ∧ y.reply = none then some { y with reply := some (y.answer r) } else some y) ∧
    (∀ (y : Call) (n d : Nat) (r0 r1 q : Word), y.answer (.answered n d r0 r1 q) = .answered (if n = 0 ∧ y.replayed = true then 1 else n) d r0 r1 q) ∧
    ((∃ i d, .event i (.call d) ∈ s.agenda ++ s.deferred ∧ sameCall d c = true) →
      s.gateCall c = s.modMe fun y => { y with call := y.call.map fun z => { z with replayed := true } }) ∧
    NextWith (exec .serviceRestart s) fun u =>
      u.tasks = s.tasks ∧ u.mem = s.mem ∧ u.hub = s.hub ∧ u.releasing = [] ∧ (∀ i d, .event i (.call d) ∉ u.agenda ++ u.deferred) ∧
      ∀ key y, (s.strand key).call = some y → (u.strand key).call =
        if y.reply = none then some { y with reply := some (.answered 4 0 0 0 s.eseq) } else some y

/-- R98, R100 to R102, R111; which free frame is taken, what a dropped move counts as, and that A and D are not compared are the
model's (log 114, 113, 128). -/
def Obligations.MigratorSteps : Prop :=
  ∀ (q : Nat) (v : Word) (h : PageHint) (r : HintRange) (m : MigMove) (s : State),
    let goes (i : Instr) (t : State) : Prop := exec i s = .next t
    let on : Prop := (s.hubGet (migAddr q)).getLsbD 63 = true
    let page := 2 ^ 21
    let dist (x : PageHint) : Nat := (x.step + 2 ^ 32 - s.migCur x.part) % 2 ^ 32
    let before (x y : PageHint) : Prop := dist x < dist y ∨ (dist x = dist y ∧ (y.prio < x.prio ∨ (y.prio = x.prio ∧
      (x.va < y.va ∨ (x.va = y.va ∧ x.asn < y.asn)))))
    let cands := s.hints.filter fun x => x.part == q && x.pool.isNone
    let prom := s.hints.filter fun x => x.part == q && x.pool.isSome
    let low := prom.filter fun x => !x.dropped
    (s.input = .num q →
      (s.hintQueue.find? (fun x => x.part == q) = none → goes .migratorHint s) ∧
      (s.hintQueue.find? (fun x => x.part == q) = some r →
        let rest := if r.len ≤ page then s.hintQueue.erase r
          else s.hintQueue.map fun x => if x = r then { r with base := r.base + page, len := r.len - page } else x
        (∀ w, s.pageHint r r.base = .error w → goes .migratorHint (w.defer .migratorHint (.num q))) ∧
        ∀ w : State,
          let u : State := { w with hintQueue := rest }
          let others := w.hints.filter fun x => !(x.part == h.part && x.asn == h.asn && x.va == h.va)
          (s.pageHint r r.base = .ok (none, w) → goes .migratorHint (u.later .migratorHint (.num q))) ∧
          (s.pageHint r r.base = .ok (some h, w) → goes .migratorHint ({ u with hints := others ++ [h] }.later .migratorHint (.num q))))) ∧
    (¬ on ∨ (∃ x ∈ s.moves, x.part = q) → s.migDecide q = s) ∧
    (on → (∀ x ∈ s.moves, x.part ≠ q) → cands = [] → s.migDecide q = s) ∧
    (on → (∀ x ∈ s.moves, x.part ≠ q) → cands ≠ [] → ∃ x ∈ cands, (∀ y ∈ cands, ¬ before y x) ∧
      let start (z : MigMove) : Prop := s.migDecide q = { s with moves := s.moves ++ [z] }.later .migrationMoveEnd (.num q)
      (prom.length < s.poolFrames q →
        (∀ f, s.freeFrame q = some f → start { part := x.part, asn := x.asn, va := x.va, up := true, src := x.home, dst := f }) ∧
        (s.freeFrame q = none → s.migDecide q = s)) ∧
      (s.poolFrames q ≤ prom.length → low = [] → s.migDecide q = s) ∧
      (s.poolFrames q ≤ prom.length → low ≠ [] → ∃ y ∈ low, (∀ z ∈ low, ¬ before y z) ∧
        (dist x < dist y → start { part := y.part, asn := y.asn, va := y.va, up := false, src := y.pool.getD 0, dst := y.home }) ∧
        (dist y ≤ dist x → s.migDecide q = s))) ∧
    (s.input = .num q →
      (s.bellIn = true → goes .migrationMoveEnd (s.defer .migrationMoveEnd (.num q))) ∧
      (s.bellIn = false → s.moves.find? (fun x => x.part == q) = none → goes .migrationMoveEnd s) ∧
      (s.bellIn = false → s.moves.find? (fun x => x.part == q) = some m →
        let ended (t : State) : State := ({ t with moves := t.moves.filter fun x => x.part != q }).migDecide q
        (s.hintOf m = none → goes .migrationMoveEnd (ended s)) ∧
        (s.hintOf m = some h →
          (∀ t, s.performMove h m = .ok t → goes .migrationMoveEnd (ended t)) ∧
          ∀ t, s.performMove h m = .error t → goes .migrationMoveEnd (t.defer .migrationMoveEnd (.num q))))) ∧
    (let w := s.drainEvery.drainAside
     (w.drainsInto m.src h.key = true → s.performMove h m = .error w) ∧
     (w.drainsInto m.src h.key = false →
       (∀ u, w.purgeAll (inFrame m.src h.key) = .error u → s.performMove h m = .error u) ∧
       ∀ x, w.purgeAll (inFrame m.src h.key) = .ok x →
         (∀ u, x.readLeaves h (List.range 32) = .error u → s.performMove h m = .error u) ∧
         (∀ e, x.readLeaves h (List.range 32) = .ok (.error e) → s.performMove h m = .ok ((x.logError e.1 e.2 h.tkey h.part 0).2.abandonMove h)) ∧
         ∀ es, x.readLeaves h (List.range 32) = .ok (.ok es) →
           (x.leafHolds h.attr es m.src = false → s.performMove h m = .ok (x.abandonMove h)) ∧
           (x.leafHolds h.attr es m.src = true → ∃ z, s.performMove h m = .ok z ∧ z.moves = x.moves ∧ z.strands = x.strands ∧
             z.hints = (x.hints.filter fun y => y != h) ++ [{ h with pool := if m.up = true then some m.dst else none, dropped := false }]))) ∧
    (∀ (attr : Word) es f, s.leafHolds attr es f = true ↔ ∀ i, i < 32 → (es.getD i 0) &&& ~~~0x0C0FFFFFFFFF0000 = attr ∧
      entryFrame (es.getD i 0) = s.global f + 65536 * i) ∧
    (∀ f key, s.drainsInto f key = true ↔
      let hits (l : List DrainRow) : Prop := ∃ x ∈ l, x.key = key ∧ x.pa < s.global f + page ∧ s.global f < x.pa + x.n
      (∃ e ∈ s.strands, ∃ d ∈ e.2.drains, hits d.rows) ∨ (∃ x ∈ s.aside, hits x.2.2.rows) ∨
        ∃ e ∈ s.chans, ∃ ch, e.2.now = some ch ∧ hits (ch.writes.getD [])) ∧
    (let u := s.abandonMove h
     let rest := s.hints.filter fun x => x != h
     u.hints = (if h.pool.isSome = true then rest ++ [{ h with dropped := true }] else rest) ∧ u.mem = s.mem ∧ u.strands = s.strands ∧
     u.hubFld (migAddr h.part + 24) 16 16 = min 65535 (s.hubFld (migAddr h.part + 24) 16 16 + 1)) ∧
    (s.input = .word q v →
      (16 ≤ q → goes .migpoolWrite s) ∧
      (q < 16 → ¬ on → goes .migpoolWrite (s.hubSet (migAddr q) (v &&& 0x8000FFFFFFE00000))) ∧
      (q < 16 → on → v.getLsbD 63 = true → goes .migpoolWrite s) ∧
      (q < 16 → on → v.getLsbD 63 = false →
        (∀ t, s.writeMigpool q v = .error t → goes .migpoolWrite (t.defer .migpoolWrite (.word q v))) ∧
        ∀ t, s.writeMigpool q v = .ok t → goes .migpoolWrite t ∧
          (t.hubGet (migAddr q)).getLsbD 63 = false ∧ (∀ x ∈ t.hints, x.part ≠ q) ∧ (∀ x ∈ t.hintQueue, x.part ≠ q) ∧
          ∀ x ∈ t.moves, x.part ≠ q))

/-- R121, R122, R124, R126, R128; that an exclusive copy outside the module counts as possibly written is the model's reading (log 121), and so is an Up in DI, DE or DO (log 115). -/
def Obligations.DirectoryTransitions : Prop :=
  ∀ (g : Grain) (x inc y iy : Nat) (p : Ptr) (l : List Ptr) (writer : Option Nat) (gsz old new : Nat),
    let native (a i : Nat) : Ptr := { agent := a, inc := i, fmt := 0, etype := 0, mode := 0 }
    let alone : Prop := g.sharers = .ptrs []
    let same (p q : Ptr) : Prop := p.agent = q.agent ∧ p.fmt = q.fmt ∧ p.etype = q.etype ∧ p.mode = q.mode
    let kept := l.filter fun q => !(q.agent == p.agent && q.fmt == p.fmt && q.etype == p.etype && q.mode == p.mode)
    let changed (q : Ptr) : Prop := ¬ (q.fmt = 0 ∧ q.mode = 0 ∧ writer = some q.agent) ∧
      ((q.fmt = 0 ∧ old ≠ new) ∨ (q.fmt ≠ 0 ∧ ∃ i, i < 8 * gsz / (elemFormat q.etype).width ∧
        narrowPattern q.fmt q.etype (elemN old (elemFormat q.etype).width i) ≠ narrowPattern q.fmt q.etype (elemN new (elemFormat q.etype).width i)))
    (g.owner = none → alone → g.rdS x inc = { g with owner := some (x, inc) }) ∧
    (g.owner = none → g.sharers.empty = false → g.rdS x inc = { g with sharers := g.sharers.add (native x inc) }) ∧
    (g.owner = some (x, iy) → g.rdS x inc = g) ∧
    (g.owner = some (y, iy) → y ≠ x → g.dirty = true ∨ g.sharers.empty = false → g.rdS x inc = { g with sharers := g.sharers.add (native x inc) }) ∧
    (g.owner = some (y, iy) → y ≠ x → g.dirty = false → alone →
      g.rdS x inc =
        { owner := none, dirty := false, homeCopy := none, supplied := false, sharers := (Sharers.ptrs [native y iy]).add (native x inc) } ∧
      (g.rdS x inc).state = .ds) ∧
    ((g.rdF p).owner = none ∧ (g.rdF p).state ≠ .di ∧ (p.native = false → (g.rdF p).sharers = .ptrs l → (g.rdF p).state = .dw)) ∧
    (g.owner = none → (g.rdF p).sharers = g.sharers.add p) ∧
    (g.owner = some (y, iy) → (g.rdF p).sharers = (g.sharers.add (native y iy)).add p ∧ (g.rdF p).dirty = false) ∧
    (g.owner = none → alone → g.rdSFar x inc old = { g with owner := some (x, inc), dirty := true, homeCopy := some old }) ∧
    (g.owner ≠ none ∨ g.sharers.empty = false → g.rdSFar x inc old = g.rdS x inc) ∧
    (g.rdO x inc = { g with owner := some (x, inc), sharers := .ptrs [], supplied := false } ∧ (g.rdO x inc).state = .de) ∧
    (∀ a, a ∈ g.others x ↔ a ≠ x ∧ (a ∈ g.sharers.agents ∨ ∃ i, g.owner = some (a, i))) ∧ (g.others x).Nodup ∧ (g.only x).others x = [] ∧
    (g.others x = [] → (g.owner = none → g.dirty = false ∧ g.homeCopy = none) → (g.only x).owner = g.owner ∧ (g.only x).dirty = g.dirty) ∧
    (g.owner = none → g.sharers = .ptrs l → l ≠ [] → l.length ≤ 8 → (∃ q ∈ l, q.agent = x) →
      (g.up x inc).sharers = .ptrs ((l.filter fun q => q.agent != x) ++ [native x inc])) ∧
    (g.owner.isSome = true ∨ alone → g.up x inc = g) ∧
    (let held : Prop := g.owner.map Prod.fst = some p.agent ∧ g.dirty = false ∧ p.native = true
     (held → g.drop p = { g with owner := none }) ∧ (¬ held → g.drop p = { g with sharers := g.sharers.removeCopy p })) ∧
    (g.writtenBack = { g with owner := none, dirty := false, homeCopy := none, supplied := false }) ∧
    ((Sharers.ptrs l).removeCopy p = .ptrs kept) ∧
    (∀ c, ((Sharers.coarse c).removeCopy p).agents = (c.map Prod.fst).filter fun a => a != p.agent) ∧
    (kept.length < 8 → (Sharers.ptrs l).add p = .ptrs (kept ++ [p])) ∧
    (8 ≤ kept.length → ∃ c, (Sharers.ptrs l).add p = .coarse c ∧ (p.agent, p.inc) ∈ c ∧ (c.map Prod.fst).Nodup ∧
      (∀ a, a ∈ c.map Prod.fst ↔ a = p.agent ∨ ∃ q ∈ kept, q.agent = a) ∧
      ∀ a i, (a, i) ∈ c → (a = p.agent ∧ i = p.inc) ∨ ∃ q ∈ kept, q.agent = a ∧ q.inc = i) ∧
    (∀ q ∈ kept, q ∈ l ∧ ¬ same q p) ∧
    (∀ sh gone told, resolveWrite (.ptrs l) writer gsz old new = (sh, gone, told) →
      (∀ a, a ∈ gone ↔ ∃ q ∈ l, changed q ∧ q.mode = 0 ∧ q.agent = a) ∧ gone.Nodup ∧
      (∀ q, q ∈ told ↔ q ∈ l ∧ changed q ∧ q.mode = 1) ∧
      ∃ rest, sh = .ptrs rest ∧ ∀ q, q ∈ rest ↔ q ∈ l ∧ ¬ (changed q ∧ q.mode = 0)) ∧
    (∀ c, old = new → resolveWrite (.coarse c) writer gsz old new = (.coarse c, [], [])) ∧
    (∀ c, old ≠ new → ∃ sh gone, resolveWrite (.coarse c) writer gsz old new = (sh, gone, []) ∧
      (∀ a, a ∈ gone ↔ writer ≠ some a ∧ ∃ i, (a, i) ∈ c) ∧ ((∀ z ∈ c, writer ≠ some z.1) → sh = .ptrs []))

/-- R111, R125, R126, R128, R130, R137, R139, R141, R164, R186; the home's value (log 9), the recall before a read (log 44),
the answer that is awaited (logs 64, 65, 104), an Up in DI, DE or DO (log 115), exclusive copies (log 121) and the log of a request's
error (log 66) are the model's.
R127, R128, R130, R137, R152, R178; the machine check of a line that no partition holds is partition 0's (log 109), and what the units
of this module ask of one another happens within one step (log 9). -/
def Obligations.CoherenceSteps : Prop :=
  (∀ (m : CohMsg) (mask data : Nat) (op : AmoOp) (ty : Ty) (x : Word) (t : Target) (s : State),
     let goes (i : Instr) (u : State) : Prop := exec i s = .next u
     let sized : Prop := m.agent < 40 ∧ (m.grain = 32 ∨ m.grain = 128 ∨ m.grain = 512) ∧ m.addr % m.grain = 0
     let c := s.scrub m.key t m.grain
     let abroad (needs : OwnerNeed) : Prop := needs ≠ .nothing ∧ c.heldAbroad (needs == .data) m.key t m.grain = true
     let busy : Prop := c.homeBusy m.key t m.grain = true
     let reaches (write sweep : Bool) : Prop := sized ∧ s.presentHome m.addr m.key write sweep = .ok t
     let runs (write : Bool) (needs : OwnerNeed) : Prop :=
       reaches write false ∧ s.bellIn = false ∧ ¬ abroad needs ∧ ¬ busy ∧ c.entryWaits t m.key = none
     let refused (i : Instr) (write sweep : Bool) : Prop :=
       (¬ sized → goes i s) ∧ (sized → ∀ e, s.presentHome m.addr m.key write sweep = .error e → goes i (s.refuseRequest m e)) ∧
       (reaches write sweep → s.bellIn = true → goes i (s.defer i s.input))
     let waits (i : Instr) (write : Bool) (needs : OwnerNeed) : Prop :=
       refused i write false ∧
       (reaches write false → s.bellIn = false →
         (abroad needs → goes i ((c.sendRecalls (needs == .data) m.key t m.grain).defer i c.input)) ∧
         (¬ abroad needs → busy → goes i (c.defer i c.input)) ∧
         ∀ u, ¬ abroad needs → ¬ busy → c.entryWaits t m.key = some u → goes i (u.defer i c.input))
     let still : Prop := c.unrecorded t = true
     let inc (st : State) : Nat := st.incOf m.agent
     let each (f : Grain → State → Grain) (u : State) : State := u.onGrains m.key t m.grain m.grain fun _ _ g st => (f g st, st)
     let gains (u : State) : State := if u.foreign m.agent = true then u else u.gainSectors m.agent (dieTag m) (sectorsOf m)
     let loses (u : State) : State :=
       if u.foreign m.agent = true then u else u.setDieLine m.agent (dieTag m) (u.dieLine m.agent (dieTag m) &&& ~~~ (sectorsOf m))
     let copy (u : State) : Nat := formatView m.fmt m.etype m.grain (u.grainBytes m.key t m.addr m.grain)
     let shared (u : State) : State := u.cohReply m .shared (copy u)
     let need (n : OwnerNeed) : OwnerNeed := if s.owns m = true then .nothing else n
     let fromOwner (i : Instr) (write : Bool) (f : State → State) : Prop :=
       refused i write true ∧
       (reaches write true → s.bellIn = false →
         (c.owns m = false → goes i c) ∧ (c.owns m = true → goes i ((f c).answered m).resume))
     let words (u : State) : State := u.homeWrite (some m.agent) m.key t m.grain m.grain (wordBytes m.grain mask) data
     (cohFormed m = true ↔ sized) ∧
     (∀ e, s.refuseRequest m e = ((s.logError e (s.global m.addr) m.key ((s.ownerPart m.addr).getD 0) 0).2).cohReply m (.error e) 0) ∧
     (∀ (u : State) g y,
       let r : CohReply := { grant := g, msg := { m with data := y } }
       let owed : Prop := ∃ z ∈ u.acks, z.key = m.key ∧ z.addr < m.addr + m.grain ∧ m.addr < z.addr + z.grain
       (u.foreign m.agent = false → u.cohReply m g y = u) ∧
       (u.foreign m.agent = true → owed → u.cohReply m g y = { u with cohOwed := u.cohOwed ++ [r] }) ∧
       (u.foreign m.agent = true → ¬ owed → u.cohReply m g y = { u with cohReplies := u.cohReplies ++ [r] })) ∧
     (s.input = .coh m →
       (m.agent < 32 → waits .rdf false .all) ∧ (32 ≤ m.agent → goes .rdf s) ∧
       (runs false .all → m.agent < 32 →
         (still → goes .rdf (shared c)) ∧ (¬ still → goes .rdf (shared (gains (each (fun g st => g.rdF (ptrOf m (inc st))) c))))) ∧
       refused .dr false true ∧
       (reaches false true → s.bellIn = false → goes .dr (loses (each (fun g st =>
         if st.foreign m.agent = true ∧ g.owner.map Prod.fst = some m.agent ∧ m.fmt = 0 ∧ m.mode = 0 then g.writtenBack
         else g.drop (ptrOf m (inc st))) s))) ∧
       (2 ^ 51 ≤ m.addr → goes .rc (s.recalledFar m)) ∧ (m.addr < 2 ^ 51 → fromOwner .rc false (each fun g _ => g.recall))) ∧
     (∀ m' : CohMsg, s.input = .coh m' → { m' with fmt := 0, etype := 0, mode := 0 } = m →
       waits .rds false (need .data) ∧ waits .rdo true (need .all) ∧ waits .up false .nothing ∧
       (runs false (need .data) →
         let read := if still then c else gains (c.onGrains m.key t m.grain m.grain fun ga gsz g st =>
           (if st.foreign m.agent = true then g.rdSFar m.agent (inc st) (st.grainBytes m.key t ga gsz) else g.rdS m.agent (inc st), st))
         goes .rds (read.cohReply m (if read.owns m = true then .exclusive else .shared) (copy read))) ∧
       (runs true (need .all) →
         let through := c.throughOnly ((c.homeOf t).getD 0) m.key t m.grain m.grain
         let others := c.othersHold m.agent m.key t m.grain
         let u := c.onGrains m.key t m.grain m.grain fun ga gsz g st =>
           ({ g.rdO m.agent (inc st) with
               dirty := true, homeCopy := if g.dirty = true then g.homeCopy else some (st.grainBytes m.key t ga gsz) }, st)
         (through = true → goes .rdo (c.cohReply m .throughOnly 0)) ∧
         (through = false → others = true → goes .rdo ((c.invalidateOthers m.agent m.key t m.grain m.grain).defer .rdo c.input)) ∧
         (through = false → others = false → goes .rdo (u.cohReply m .modified (copy u)))) ∧
       (runs false .nothing →
         let u := shared (each (fun g st => g.up m.agent (inc st)) c)
         (still → goes .up (shared c)) ∧
         (¬ still → (u.namedFor m = false → goes .up u) ∧ (u.namedFor m = true → goes .up (gains u))))) ∧
     (s.input = .cohWrite m mask data →
       waits .wt true .all ∧ (runs true .all → goes .wt ((words c).cohReply m .written 0)) ∧
       fromOwner .wb true (fun u => loses ((words (each (fun g _ => g.writtenBack) u)).cohReply m .written 0)) ∧
       (c.staysOwner m = true → fromOwner .rc true (fun u =>
         each (fun g _ => g.keepOwned) (u.writeTarget m.key t m.grain (wordBytes m.grain mask) data))) ∧
       (c.staysOwner m = false → fromOwner .rc true (fun u => words (each (fun g _ => g.recall) u)))) ∧
     (s.staysOwner m = true ↔ ∃ y, (y, true) ∈ s.recalls ∧ y.agent = m.agent ∧ y.key = m.key ∧
       y.addr < m.addr + m.grain ∧ m.addr < y.addr + y.grain) ∧
     (∀ y, y ∈ (s.answered m).recalls ↔ y ∈ s.recalls ∧ ¬ (y.1.agent = m.agent ∧ y.1.key = m.key ∧
       y.1.addr < m.addr + m.grain ∧ m.addr < y.1.addr + y.1.grain)) ∧
     (s.owns m = true ↔ ((s.dirEntry m.addr m.key m.grain).grains.getD (m.addr % 512 / (s.dirEntry m.addr m.key m.grain).grain) Grain.di).owner =
       some (m.agent, s.incOf m.agent)) ∧
     (∀ a, s.input = .cohAtom { m with addr := a } op ty x →
       let n := ty.bits / 8
       (a % n ≠ 0 → goes .am s) ∧
       (a % n = 0 → a / m.grain * m.grain = m.addr → waits .am true .all ∧
         (runs true .all →
           (∀ e, c.readTarget m.key (t.at a) n = .error e → goes .am (c.refuseRequest { m with addr := a } e.1)) ∧
           ∀ old, c.readTarget m.key (t.at a) n = .ok old →
             goes .am ((c.homeWrite none m.key (t.at a) m.grain n (2 ^ n - 1) (amoValue op ty old (x.toNat % 2 ^ ty.bits))).cohReply m .old old))))) ∧
  (∀ (m : CohMsg) (cl i core line : Nat) (g : Grain) (t : Target) (key ga gsz : Nat) (s : State),
     let goes (i : Instr) (u : State) : Prop := exec i s = .next u
     let ack (u : State) : State :=
       if 2 ^ 51 ≤ m.addr then u.sendFar .ak m 0 else if s.foreign m.agent = true then u else pushMove (.event .ak (.coh m)) u
     let about (d : DieLine) : Prop := d.agent = m.agent ∧ d.tag.line = m.addr / 512 ∧ d.tag.key = m.key
     let cut (d : DieLine) : DieLine := { d with valid := d.valid &&& ~~~ (sectorsOf m) }
     let taken (d : DieLine) : DieLine :=
       { d with data := if 2 ^ 51 ≤ m.addr then BitVec.ofNat 4096 (setBytes d.data.toNat (m.addr % 512) m.grain m.data) else d.data }
     (s.input = .coh m → (m ∉ s.acks → goes .ak s) ∧ (m ∈ s.acks → goes .ak (({ s with acks := s.acks.erase m } : State).payReplies.resume))) ∧
     (s.input = .coh m → ∃ v w, goes .iv (ack { s with dieLines := v }) ∧ goes .ud (ack { s with dieLines := w }) ∧
       ∀ d : DieLine, (d ∈ v ↔ d.valid ≠ 0 ∧ ((¬ about d ∧ d ∈ s.dieLines) ∨ ∃ e ∈ s.dieLines, about e ∧ d = cut e)) ∧
       (d ∈ w ↔ d.valid ≠ 0 ∧ ((¬ about d ∧ d ∈ s.dieLines) ∨ (∃ e ∈ s.dieLines, about e ∧ e.tag = dieTag m ∧ d = taken e) ∨
         ∃ e ∈ s.dieLines, about e ∧ e.tag ≠ dieTag m ∧ d = cut e))) ∧
     (s.input = .evict cl none i →
       let pc := s.clusterCache cl
       (pc.lines[i]? = none → goes .eviction s) ∧
       ∀ x, pc.lines[i]? = some x →
         (pc.lru 2048 16 x.tag.line ≠ some x → goes .eviction s) ∧
         (pc.lru 2048 16 x.tag.line = some x →
           (∀ u, s.lineHome (cl / 64) x = .error u → goes .eviction u) ∧
           ∀ u, s.lineHome (cl / 64) x = .ok u → goes .eviction (u.setClusterCache cl ((u.clusterCache cl).without x.tag)))) ∧
     (s.input = .evict cl (some core) i →
       let k := 4 * cl + core % 4
       let pc := s.coreCache k
       (pc.lines[i]? = none → goes .eviction s) ∧
       ∀ x, pc.lines[i]? = some x →
         (pc.lru 128 8 x.tag.line ≠ some x → goes .eviction s) ∧
         (pc.lru 128 8 x.tag.line = some x →
           (∀ u, s.coreLineOut k x = .error u → goes .eviction u) ∧
           ∀ u, s.coreLineOut k x = .ok u → goes .eviction (u.setCoreCache k ((u.coreCache k).without x.tag)))) ∧
     (∀ (pc : PCache) (sets ways n : Nat),
       let mates := pc.lines.filter fun y => y.tag.line % sets == n % sets
       (mates.length < ways → pc.lru sets ways n = none) ∧
       ∀ x, pc.lru sets ways n = some x → x ∈ mates ∧ ways ≤ mates.length) ∧
     (∀ c : PCache, ∀ tag, ∀ x, x ∈ (c.without tag).lines ↔ x ∈ c.lines ∧ x.tag ≠ tag) ∧
     (s.input = .num2 line key →
       goes .stalePointerScrub (s.scrubEntry (dirKey (line * 512) key))) ∧
     (∀ k e y, Tab.get DirEntry.empty s.dir k = e → e.grains = [y] →
       let r := match s.entryTarget k with
         | some z => s.scrubGrain (k % 4096) z (k / 4096 * 512) e.grain y
         | none => s.scrubGrain (k % 4096) (.mem (k / 4096 * 512)) (k / 4096 * 512) e.grain { y with homeCopy := none }
       s.scrubEntry k = r.2.setDirEntry (k / 4096 * 512) (k % 4096) { e with grains := [r.1] }) ∧
     (∀ k, (Tab.get DirEntry.empty s.dir k).grains = [] →
       s.scrubEntry k = s.setDirEntry (k / 4096 * 512) (k % 4096) (Tab.get DirEntry.empty s.dir k)) ∧
     ((∃ p, t = .far p) ∨ s.staleIn key t gsz = false → s.scrub key t gsz = s) ∧
     ((∀ p, t ≠ .far p) → s.staleIn key t gsz = true → s.scrub key t gsz = s.onGrains key t gsz 512 fun _ _ g st => (g, st)) ∧
     (let r := s.scrubGrain key t ga gsz g
      r.1.sharers = s.liveSharers g.sharers ∧
      (∀ l, g.sharers = .ptrs l → s.liveSharers g.sharers = .ptrs (l.filter fun p => p.inc == s.incOf p.agent)) ∧
      (g.owner = none → r = ({ g with sharers := s.liveSharers g.sharers }, s)) ∧
      ∀ ag inc, g.owner = some (ag, inc) →
        (inc = s.incOf ag → r = ({ g with sharers := s.liveSharers g.sharers }, s)) ∧
        (inc ≠ s.incOf ag → r.1.owner = none ∧ r.1.dirty = false ∧ r.1.homeCopy = none ∧ r.1.supplied = false ∧
          let lost (u : State) : State := u.raiseCheck (staleEvent (u.homeOfLine ga) ((u.ownerPart ga).getD 0) key (u.global ga))
          (g.dirty = false ∨ g.homeCopy = none → r.2 = lost s) ∧
          ∀ x, g.dirty = true → g.homeCopy = some x → r.2 = lost (s.writeTarget key (t.at ga) gsz (2 ^ gsz - 1) x))))

/-- R95, R96, R104, R108, R112 to R114; GRAN = 3 refused (log 138), a pip window's own ranges not compared (log 139), a disabled window's
sweep (log 129), and the bytes of a region that nothing has written (log 1) are the model's choices.
R109, R110, R132, R137 to R139; the order of a pair's bytes is the model's (log 125), as is APPLY while BUSY (log 116). -/
def Obligations.MemorySystemSteps : Prop :=
  (∀ (n : Nat) (v : Word) (s : State),
     let goes (i : Instr) (t : State) : Prop := exec i s = .next t
     let on : Prop := (s.hubGet (irdA n)).getLsbD 63 = true
     let u := s.hubSet (irdA n) (s.hubGet (irdA n) &&& ~~~0x7E00FFFFFFFF0000 ||| v &&& 0x7E00FFFFFFFF0000)
     let r := regionOfWords (u.hubGet (irdA n)) (u.hubGet (irdB n))
     let back : List Host.Cell × Tab Nat := match Tab.get none s.regionMemo n with
       | some m => if m.region = r then (m.cells, m.poison) else ([], [])
       | none => ([], [])
     let within (q : Region) (k : Nat) : Prop := q.base ≤ k % 2 ^ 52 ∧ k % 2 ^ 52 < q.limit
     let old := regionOfWords (s.hubGet (irdA n)) (s.hubGet (irdB n))
     let win := s.windowFields n
     let open' : Prop := (s.hubGet (fwAddr n)).getLsbD 63 = true
     let busy : Prop := s.hubFld (fwAddr n) 61 1 = 1
     let z := s.hubSet (fwAddr n) (s.hubGet (fwAddr n) &&& ~~~0x0300FFF00000000F ||| v &&& 0x0300FFF00000000F)
     (s.input = .word n v →
       (64 ≤ n ∨ v.getLsbD 63 = false ∨ on → goes .irdEnable s) ∧
       (n < 64 → v.getLsbD 63 = true → ¬ on →
         (u.regionOk n r = false → goes .irdEnable (u.hubSetFld (irdB n) 63 1 1)) ∧
         (u.regionOk n r = true → NextWith (exec .irdEnable s) fun t =>
           t.hubFld (irdA n) 63 1 = 1 ∧ t.hubFld (irdB n) 63 1 = 0 ∧ t.region n = some r ∧ t.strands = s.strands ∧
           (∀ m, m ≠ n → m < 64 → t.region m = s.region m) ∧
           t.mem = Tab.putAll (0 : Byte) (r.rest 0 s.mem) back.1 ∧ t.poison = Tab.putAll 0 (r.rest 5 s.poison) back.2 ∧
           t.regionMemo = r.spoils (Tab.set none s.regionMemo n none)))) ∧
     (∀ (q : Region) (l : List Host.Cell), (∀ x, x ∈ q.rest 0 l ↔ x ∈ l ∧ ¬ within q x.1) ∧ (∀ x, x ∈ q.part 0 l ↔ x ∈ l ∧ within q x.1)) ∧
     (∀ q : Region, r.meets q = true ↔ r.tier = q.tier ∧ ∃ d c, d < 4 ∧ c < channels r.base ∧ r.bytesOn d c ≠ 0 ∧ q.bytesOn d c ≠ 0) ∧
     (s.regionOk n r = true →
       r.base < r.limit ∧ (r.limit ≤ fastEnd ∨ (capBase ≤ r.base ∧ r.limit ≤ capEnd)) ∧ r.gran ≠ 3 ∧ r.dmask ≠ 0 ∧
       (∀ m q, m < 64 → m ≠ n → s.region m = some q → r.limit ≤ q.base ∨ q.limit ≤ r.base) ∧
       (r.gran = 2 → r.base % 2 ^ 21 = 0 ∧ (r.limit % 2 ^ 21 = 0 ∨ r.limit = fastEnd)) ∧
       (r.gran = 0 → (diesOf r.dmask).length = 1 ∧ r.chan < channels r.base) ∧
       ∀ d c, d < 4 → c < channels r.base → r.bytesOn d c ≤ chanCapacity r.base) ∧
     (s.input = .num n →
       (64 ≤ n ∨ ¬ on → goes .irdDisable s) ∧
       (n < 64 → on → NextWith (exec .irdDisable s) fun t => t.hubGet (irdA n) = BitVec.ofNat 64 ((s.hubGet (irdA n)).toNat % 2 ^ 63) ∧
         (∀ a, a ≠ irdA n → t.hubGet a = s.hubGet a) ∧ t.mem = old.rest 0 s.mem ∧ t.poison = old.rest 5 s.poison ∧ t.strands = s.strands ∧
         ∃ m, Tab.get none t.regionMemo n = some m ∧ m.region = old ∧ m.cells = old.part 0 s.mem ∧ m.poison = old.part 5 s.poison)) ∧
     (s.input = .word n v →
       (32 ≤ n ∨ v.getLsbD 63 = false ∨ (open' ∧ v.getLsbD 62 = false) → goes .fwEnable s) ∧
       (n < 32 → v.getLsbD 63 = true → v.getLsbD 62 = false → ¬ open' →
         (z.windowOk n = true → goes .fwEnable (z.hubSetFld (fwAddr n) 63 1 1)) ∧ (z.windowOk n = false → goes .fwEnable z))) ∧
     (s.windowOk n = true → win.fmt ≠ 3 ∧ win.llen ≠ 0 ∧ (win.fmt = 1 → win.back % 64 = 0) ∧ (win.fmt = 2 → win.back % 65536 = 0) ∧
       tierOf win.back (win.back + win.backLen) ≠ 0 ∧
       ∀ x ∈ win.ranges, logBase ≤ x.1 ∧ x.1 + x.2 ≤ logEnd ∧
         ∀ m q, m < 32 → m ≠ n → s.window m = some q → ∀ y ∈ q.ranges, x.1 + x.2 ≤ y.1 ∨ y.1 + y.2 ≤ x.1) ∧
     (s.input = .num n →
       (32 ≤ n ∨ busy → goes .fwInvalidate s) ∧
       (n < 32 → ¬ busy → goes .fwInvalidate ((s.hubSetFld (fwAddr n) 61 1 1).later .fwInvalidateEnd (.num n))) ∧
       (32 ≤ n ∨ s.hubFld (fwAddr n) 61 1 = 0 → goes .fwInvalidateEnd s) ∧
       (n < 32 → busy →
         let swept : State := if s.hubFld (fwAddr n) 63 1 = 0 ∧ s.windowOk n = true then s.hubSetFld (fwAddr n) 63 1 1 else s
         let back (w : State) : State := w.hubSetFld (fwAddr n) 63 1 (s.hubFld (fwAddr n) 63 1)
         (∀ w, swept.sweepWindow n = .error w → goes .fwInvalidateEnd ((back w).defer .fwInvalidateEnd (.num n))) ∧
         ∀ w, swept.sweepWindow n = .ok w → goes .fwInvalidateEnd ((back w).hubSetFld (fwAddr n) 61 1 0)) ∧
       NextWith (exec .melheadCons s) fun t => t.hubFld melHead 8 7 = s.hubFld melHead 8 7 - n % 256 ∧
         t.hubFld melHead 0 6 = s.hubFld melHead 0 6 ∧ t.hubFld melHead 32 32 = s.hubFld melHead 32 32 ∧ t.mem = s.mem ∧ t.strands = s.strands) ∧
     (let hit (a k : Nat) : Bool := win.fmt != 2 && k == win.key && win.hasLog a
      let unwritten (w : State) (a k : Nat) : Bool := w.bellIn && (Tab.get DecLine.clean w.decoded (decKey a k)).dirty != 0
      let now (a k : Nat) : Bool := hit a k && !unwritten s a k
      (∀ w, s.purgeLines now = .error w → s.sweepWindow n = .error w) ∧
      ∀ w, s.purgeLines now = .ok w →
        let z := w.dropPointers now
        let left : Prop := ∃ e ∈ z.decoded, hit (e.1 / 4096 * 512) (e.1 % 4096) = true ∧ unwritten z (e.1 / 4096 * 512) (e.1 % 4096) = true
        (left → s.sweepWindow n = .error z) ∧ (¬ left → s.sweepWindow n = .ok (z.encodeLines hit))) ∧
     (∀ a k,
       let line := Tab.get DecLine.clean s.decoded (decKey a k)
       (line.dirty = 0 → s.dropDecoded a k = s) ∧
       (line.dirty ≠ 0 → (∀ w b, s.targetOfLine a k = .ok (.dec w b) → s.dropDecoded a k = s.encodeLine w a) ∧
         ∀ e, s.targetOfLine a k = .error e →
           s.dropDecoded a k = ({ s with decoded := Tab.set DecLine.clean s.decoded (decKey a k) DecLine.clean } : State).lostWrite (s.homeOfLine a) e a k))) ∧
  (∀ (k d : Nat) (v : Word) (s : State),
     let goes (i : Instr) (t : State) : Prop := exec i s = .next t
     let idle : Prop := s.retiring = none ∧ k < 4096
     let set (b : Bool) : State := s.hubSetFld keyCmd 62 1 (if b = true then 1 else 0)
     let has : Prop := Tab.get 0 s.keySpace k ≠ 0
     let u := s.hubSet (slCtl d) (s.hubGet (slCtl d) &&& ~~~0xFF ||| v &&& 0xFF)
     let pwr := v.toNat % 2 ^ 8
     let dark : Prop := pwr = 0 ∨ ∃ h, h < 128 ∧ pwr / 2 ^ (s.hubFld (slAddr d + h / 8 * 8) (8 * (h % 8)) 7 / 16) % 2 = 0
     let moved (a _ : Nat) : Bool := decide (a < 2 ^ 51) && s.homeOfLine a == d && s.sliceMoving d a
     let under (_ x : Nat) : Bool := x == k
     (s.input = .num k →
       (¬ idle → goes .keyProgram s ∧ goes .keyRetire s) ∧
       (idle → k = 0 ∨ has → goes .keyProgram (set true)) ∧
       (idle → k ≠ 0 → ¬ has → NextWith (exec .keyProgram s) fun t =>
         let first := (Tab.get (0, 0) s.keyPairs k).1
         let last := (Tab.get (0, 0) s.keyPairs k).2
         t.hubFld keyCmd 62 1 = 0 ∧ t.strands = s.strands ∧ Tab.get 0 t.keySpace k ≠ 0 ∧
         t.keyring[Tab.get 0 t.keySpace k - 1]? = some (k, s.keyPair) ∧ (∀ j, j ≠ k → Tab.get 0 t.keySpace j = Tab.get 0 s.keySpace j) ∧
         (last = 0 → t.mem = s.mem ∧ Tab.get (0, 0) t.keyPairs k = (Tab.get 0 t.keySpace k, Tab.get 0 t.keySpace k)) ∧
         (last ≠ 0 → t.keyPairs = (if last = Tab.get 0 t.keySpace k then s.keyPairs
           else Tab.set (0, 0) s.keyPairs k (first, Tab.get 0 t.keySpace k))) ∧
         (last = Tab.get 0 t.keySpace k → t.mem = s.mem) ∧
         (Memory.wf s.mem = true → 1 ≤ first → first ≤ s.keyring.length → 1 ≤ last → last ≤ s.keyring.length →
           ∀ w < 2 ^ 47, (∃ y ∈ s.mem, y.1 / 32 = k * 2 ^ 47 + w) →
             t.readMem k (32 * w) 32 % 2 ^ 256 = xtsRead (s.pairAt last) s.keyPair w (s.readMem k (32 * w) 32) % 2 ^ 256)) ∧
       (idle → k = 0 ∨ ¬ has → goes .keyRetire (set true)) ∧
       (idle → k ≠ 0 → has →
         goes .keyRetire ({ (set false).hubSetFld keyCmd 63 1 1 with retiring := some k }.later .keyRetireEnd .none))) ∧
     (s.retiring = none → goes .keyRetireEnd s) ∧
     (s.retiring = some k → s.bellIn = true → goes .keyRetireEnd (s.defer .keyRetireEnd .none)) ∧
     (∀ w, s.retiring = some k → s.bellIn = false → s.purgeAll under = .error w → goes .keyRetireEnd (w.defer .keyRetireEnd .none)) ∧
     (∀ w, s.retiring = some k → s.bellIn = false → s.purgeAll under = .ok w → NextWith (exec .keyRetireEnd s) fun t =>
       t.retiring = none ∧ Tab.get 0 t.keySpace k = 0 ∧ t.hubFld keyCmd 63 1 = 0 ∧ t.strands = s.strands ∧
       t.decoded = (w.encodeLines under).decoded ∧ (∀ l ∈ t.dieLines, l.tag.key ≠ k) ∧ (∀ e ∈ t.dir, e.1 % 4096 ≠ k) ∧
       ∀ j, j ≠ k → Tab.get 0 t.keySpace j = Tab.get 0 s.keySpace j) ∧
     (s.input = .word d v →
       (4 ≤ d ∨ v.getLsbD 61 = false ∨ s.slBusy d = true → goes .slctlApply s) ∧
       (d < 4 → v.getLsbD 61 = true → s.slBusy d = false →
         (dark → goes .slctlApply (u.hubSetFld (slCtl d) 62 1 1)) ∧
         (¬ dark → goes .slctlApply (((u.hubSetFld (slCtl d) 62 1 0).hubSetFld (slCtl d) 63 1 1).later .sliceDrainEnd (.num d))))) ∧
     (s.input = .num d →
       (4 ≤ d ∨ s.slBusy d = false ∨ d ∈ s.sliceDrained → goes .sliceDrainEnd s) ∧
       (d < 4 → s.slBusy d = true → d ∉ s.sliceDrained →
         (s.bellIn = true → goes .sliceDrainEnd (s.defer .sliceDrainEnd (.num d))) ∧
         (∀ w, s.bellIn = false → s.recallLines moved = .error w → goes .sliceDrainEnd (w.defer .sliceDrainEnd (.num d))) ∧
         (∀ r, s.bellIn = false → s.recallLines moved = .ok r →
           let w := r.encodeLines moved
           let z : State := { w with dieLines := w.dieLines.filter fun l => !moved (l.tag.line * 512) l.tag.key }
           goes .sliceDrainEnd { z.darken d with sliceDrained := w.sliceDrained ++ [d] }))) ∧
     (∀ hit : Nat → Nat → Bool,
       (∀ w, s.purgeLines hit = .error w → s.purgeAll hit = .error w) ∧ (∀ w, s.purgeLines hit = .ok w → s.purgeAll hit = w.recallLines hit) ∧
       let w := (s.entriesHit hit).foldl (fun s e => s.scrubEntry e.1) s
       (∀ u, w.linesWait hit = some u → s.recallLines hit = .error u) ∧
       (w.linesWait hit = none →
         let z := w.freeLines hit
         (∀ e ∈ z.dir, hit (e.1 / 4096 * 512) (e.1 % 4096) = false) ∧
         (z.ackOwed hit = true → s.recallLines hit = .error z) ∧ (z.ackOwed hit = false → s.recallLines hit = .ok z))))

/-- R370, R374, R375, R378, R384, R385; a stopped bank's draining stores go on aside (log 105). -/
def Obligations.StrandEventSteps : Prop :=
  ∀ (key q c : Nat) (cs : List Nat) (s : State),
    let goes (i : Instr) (t : State) : Prop := exec i s = .next t
    let t := s.strand key
    let armed : Prop := t.xctl.getLsbD 1 = true ∧ s.time / 2 ^ 10 % 2 ^ 32 = t.xctl.toNat / 2 ^ 32
    let point : Prop := s.atPoint key = true ∧ t.xlvl = 0 ∧ (t.sup = false ∨ t.xmask.getLsbD 3 = true)
    let w := s.drainAll key
    let o := w.strand key
    let takes (f : Strand → Strand) (cause : Nat) (addr : Word) (info : Nat) : Prop :=
      (w.releaseDone key .core = false → goes .interrupt w) ∧
      (w.releaseDone key .core = true →
        goes .interrupt ((w.setStrand key (f o)).trapEnter key (f o).pc { cause := cause, addr := addr, info := BitVec.ofNat 64 info }))
    let pend (i : Nat) : Prop := t.xmask.getLsbD (8 + i) = true ∧ t.xmask.getLsbD i = true
    let done (i : Nat) (x : Strand) : Strand := { x with xmask := x.xmask &&& ~~~((1 : Word) <<< (8 + i)) }
    let expired : Prop := t.xprq.getLsbD 0 = true ∧ t.xpdl.toNat / 2 ^ 32 = 0 ∧ t.sup = false ∧ t.xlvl = 0
    (s.input = .num key →
      NextWith (exec .timerExpiry s) (fun u => (∀ k, k ≠ key → u.strand k = s.strand k) ∧ { u with strands := s.strands } = s ∧
        (armed → u.strand key = { t with xmask := t.xmask ||| 0x100, xctl := t.xctl &&& ~~~2 }) ∧ (¬ armed → u.strand key = t)) ∧
      (¬ point → goes .interrupt s) ∧
      (point → t.debugPend = none → t.overrun = none → ¬ pend 2 → ¬ pend 0 → ¬ pend 1 → goes .interrupt s) ∧
      (point → ∀ i, t.debugPend = some i → takes (fun x => { x with debugPend := none }) 0x16 0 i) ∧
      (point → t.debugPend = none → ∀ a i, t.overrun = some (a, i) → takes (fun x => { x with overrun := none }) 0x12 (BitVec.ofNat 64 a) i) ∧
      (point → t.debugPend = none → t.overrun = none →
        (pend 2 → takes (done 2) 0x14 0 2) ∧ (¬ pend 2 → pend 0 → takes (done 0) 0x14 0 0) ∧
        (¬ pend 2 → ¬ pend 0 → pend 1 → takes (done 1) 0x15 t.notice 0)) ∧
      (¬ expired ∨ s.atPoint key = false → goes .forcedPreemption s) ∧
      (expired → s.atPoint key = true →
        (s.interruptFor key = none → goes .forcedPreemption (s.saveAt key t.pc 0x13)) ∧
        (s.interruptFor key ≠ none → exec .forcedPreemption s = exec .interrupt s))) ∧
    (∀ on, s.input = .num2 key on →
      (s.taskAt key = none → goes .xprqWrite s) ∧
      ∀ x, s.taskAt key = some x → NextWith (exec .xprqWrite s) fun u => { u with strands := s.strands } = s ∧
        ∀ k, let w := s.strand k
          let live : Prop := ∃ p ∈ x.live, p.2 = k
          (¬ live → u.strand k = w) ∧
          (live → on = 1 → w.xprq.getLsbD 0 = true → u.strand k = w) ∧
          (live → on = 1 → w.xprq.getLsbD 0 = false →
            u.strand k = { w with xprq := w.xprq ||| 1, xpdl := BitVec.ofNat 64 (w.xpdl.toNat % 2 ^ 32 * (2 ^ 32 + 1)) }) ∧
          (live → on ≠ 1 → u.strand k = { w with xprq := w.xprq &&& ~~~1 })) ∧
    (s.taskAt key = none → ∀ pc cause, s.saveAt key pc cause = s) ∧
    (∀ cause status, s.input = .num3 key cause status →
      (∀ x, s.taskAt key = some x → goes .xctlKill (s.killTask x.id cause (BitVec.ofNat 64 status))) ∧
      (s.taskAt key = none → NextWith (exec .xctlKill s) fun u => u.strand key = { t with run := .stopped } ∧
        (∀ k, k ≠ key → u.strand k = s.strand k) ∧ { u with strands := s.strands } = s)) ∧
    (s.input = .list (q :: cs) →
      let rest := cs.filter fun x => s.midway x != []
      let u := ((cs.filter fun x => s.midway x == []).foldl (fun u x => u.swapCluster q x) s).setActs
      (rest = [] → goes .partitionSwap u) ∧
      (rest ≠ [] → goes .partitionSwap
        (({ u with agenda := u.agenda ++ (rest.flatMap s.midway).map Move.strand } : State).later .partitionSwap (.list (q :: rest))))) ∧
    (∀ k, k ∈ s.midway c ↔ s.bellIn = false ∧ ∃ b sid, s.bankOn c = some b ∧ sid ∈ sidsOf c ∧ k = keyOf b sid ∧
      let w := s.strand k
      w.run = .running ∧ (w.inFlight % 2 = 1 ∨ w.posting = true ∨ w.performed ≠ none ∨ w.remote ≠ none)) ∧
    (¬ (s.partEnabled q = true ∧ s.partHasCluster q c = true) → s.swapCluster q c = s) ∧
    (s.partEnabled q = true → s.partHasCluster q c = true →
      let u := s.swapCluster q c
      Tab.get 0 u.activeBank c = s.partBank q + 1 ∧ (∀ x, x ≠ c → Tab.get 0 u.activeBank x = Tab.get 0 s.activeBank x) ∧
      ∀ k, let w := u.strand k
        let o := s.strand k
        w.g = o.g ∧ w.p = o.p ∧ w.v = o.v ∧ w.m = o.m ∧ w.tiles = o.tiles ∧ w.accs = o.accs ∧ w.pc = o.pc ∧ w.xlvl = o.xlvl ∧
        w.xmask = o.xmask ∧ w.xpdl = o.xpdl)

/-- R5, R6, R98, R110, R312, R383, R400, R404, R405, R435, R440, R442, R445; APPLY while BUSY is the model's (log 116). -/
def Obligations.RegisterWriteSteps : Prop :=
  ∀ (a : Nat) (v : Word) (s : State), s.input = .word a v →
    let goes (t : State) : Prop := exec .registerWrite s = .next t
    let plain (mask : Word) : State := s.hubSet a (s.hubGet a &&& ~~~mask ||| v &&& mask)
    let same (i : Instr) (x : Input) (g : State → State) : Prop :=
      goes (g s) ∧ exec i { s with input := x } = .next (g { s with input := x })
    let rw (base n : Nat) (mask : Word) : Prop := ∀ j, j < n → a = base + 8 * j → goes (plain mask)
    let enabled (q : Nat) : Prop := (s.hubGet (ptAddr q)).getLsbD 63 = true
    let pool (q : Nat) : Prop := (s.hubGet (svPool q)).getLsbD 63 = true ∨ Tab.get [] s.slotsHeld q ≠ []
    (a % 8 ≠ 0 ∨ a < 2 ^ 47 ∨ 2 ^ 48 ≤ a → goes s) ∧
    (∀ j, j < 32768 * 8 → a = hubWIN + 8 * j → goes s) ∧ (∀ j, j < 256 → a = hubAGINC + 8 * j ∨ a = hubTEST + 8 * j ∨ a = hubBOOT → goes s) ∧
    rw hubFC 8 0xFFFFFFFFFFFFFFFF ∧ rw (hubFC + 64) 8 0x80000000000001FF ∧ rw (hubFC + 128) 1 7 ∧ rw (hubFC + 136) 1 0xFFFFFFFF ∧
    rw hubRHL 256 0x200000000000FFFF ∧
    (∀ c, c < 256 → a = lvcAddr c → goes (plain 0xFF).leaveLook) ∧ (∀ d, d < 4 → a = lvdAddr d → goes (plain 0xFFFF).leaveLook) ∧
    (a = lvmAddr → goes (plain 0xFFFF).leaveLook) ∧
    (∀ b, b < 37 → (a = hubMC + 64 * b → goes (s.hubSet a (s.hubGet a &&& ~~~(v &&& 0xC000000000000000)))) ∧
      (a = hubMC + 64 * b + 24 → goes (plain 0x0000FFFFFFFFFFFF)) ∧ (a = hubMC + 64 * b + 8 ∨ a = hubMC + 64 * b + 16 → goes s)) ∧
    (∀ q, q < 16 → (a = hubMCQ + 16 * q → goes (plain 0x800FFFFFFFFFFFC0)) ∧ (a = hubMCQ + 16 * q + 8 → goes (plain 0xF00FFF)) ∧
      (a = svPool q → (¬ pool q → goes (plain 0x800FFFFFFFFFFFFF)) ∧ (pool q → goes (plain 0x8000000000000000))) ∧
      (a = svPool q + 8 → (¬ pool q → goes (plain 0xFFF)) ∧ (pool q → goes s)) ∧
      (a = migAddr q → same .migpoolWrite (.word q v) fun u => u.migpoolStep q v) ∧
      (a = migAddr q + 8 → (s.hubGet (migAddr q)).getLsbD 63 = false → goes (plain 0xFFFF)) ∧
      (a = migAddr q + 8 → (s.hubGet (migAddr q)).getLsbD 63 = true → goes s) ∧
      (a = migAddr q + 16 → (v.toNat % 2 ^ 32 = s.migCur q → goes s) ∧
        (v.toNat % 2 ^ 32 ≠ s.migCur q → goes ((s.hubSetFld a 0 32 (v.toNat % 2 ^ 32)).migDecide q))) ∧ (a = migAddr q + 24 → goes s) ∧
      (a = ptAddr q → (enabled q → v.getLsbD 63 = true → goes s) ∧
        (enabled q → v.getLsbD 63 = false → same .partitionDisable (.num q) fun u => u.disableStep q) ∧
        (¬ enabled q → v.getLsbD 63 = false → goes (plain 0x400FFFFFFFFFFFC0)) ∧
        (¬ enabled q → v.getLsbD 63 = true → q ∉ s.starting → same .partitionEnable (.word q v) fun u => u.writePtctl q v) ∧
        (¬ enabled q → v.getLsbD 63 = true → goes (State.enablePart (plain 0x400FFFFFFFFFFFC0) q))) ∧
      ∀ f, a = ptAddr q + f → f ≠ 0 → f < 256 → f % 8 = 0 → (enabled q → goes s) ∧
        (¬ enabled q → (f < 40 → goes (plain 0xFFFFFFFFFFFFFFFF)) ∧ (f = 40 → goes (plain 0x0FFF0FFF)) ∧
          (40 < f → f < 176 → f % 16 = 0 → goes (plain 0x80000000FFFFFFFF)) ∧ (40 < f → f < 176 → f % 16 = 8 → goes (plain 0xFFFFFFFF)) ∧
          (176 ≤ f → goes s))) ∧
    (∀ k, k < 8 → (a = hubHOST + 16 * k → goes (plain 0x80FFFFFFFFFF0FFF)) ∧ (a = hubHOST + 16 * k + 8 → goes (plain 0xFFFFFFFFF)) ∧
      (a = hubKEY + 8 * k → goes { s with keyData := Tab.set 0 s.keyData k v })) ∧
    (a = hubKEY + 64 → (s.retiring ≠ none → goes s) ∧ (s.retiring = none →
      (v.toNat / 2 ^ 12 % 4 = 1 → same .keyProgram (.num (v.toNat % 4096)) fun u => u.programKey (v.toNat % 4096)) ∧
      (v.toNat / 2 ^ 12 % 4 = 2 → same .keyRetire (.num (v.toNat % 4096)) fun u => u.retireKey (v.toNat % 4096)) ∧
      (v.toNat / 2 ^ 12 % 4 = 0 ∨ v.toNat / 2 ^ 12 % 4 = 3 → goes s))) ∧
    (∀ d, d < 4 → (a = hubDRST + 8 * d → (v.getLsbD 63 = true → same .drstGo (.num d) fun u => u.warmReset d) ∧ (v.getLsbD 63 = false → goes s)) ∧
      (a = slAddr d + 256 → (s.slBusy d = true → goes s) ∧ (s.slBusy d = false → v.getLsbD 61 = false → goes (plain 0xFF)) ∧
        (v.getLsbD 61 = true → same .slctlApply (.word d v) fun u => u.writeSlctl d v)) ∧
      ∀ j, j < 16 → (a = slAddr d + 8 * j → (s.slBusy d = true → goes s) ∧ (s.slBusy d = false → goes (plain 0x7F7F7F7F7F7F7F7F))) ∧
        (a = slAddr d + 128 + 8 * j → goes s)) ∧
    (∀ n, n < 64 → (a = irdA n →
        let on : Prop := (s.hubGet (irdA n)).getLsbD 63 = true
        (v.getLsbD 63 = true → same .irdEnable (.word n v) fun u => u.writeIrdA n v) ∧
        (on → v.getLsbD 63 = false → same .irdDisable (.num n) fun u => u.disableRegion n) ∧
        (¬ on → v.getLsbD 63 = false → goes (plain 0x7E00FFFFFFFF0000))) ∧
      (a = irdB n → ((s.hubGet (irdA n)).getLsbD 63 = true → goes s) ∧ ((s.hubGet (irdA n)).getLsbD 63 = false → goes (plain 0x0000FFFFFFFF003F)))) ∧
    (∀ n, n < 32 → (a = fwAddr n →
        let on : Prop := (s.hubGet a).getLsbD 63 = true
        (v.getLsbD 63 = true → same .fwEnable (.word n v) fun u => u.writeFwCtl n v) ∧
        (on → v.getLsbD 63 = true → v.getLsbD 62 = true → same .fwInvalidate (.num n) fun u => u.beginInvalidate n) ∧
        (on → v.getLsbD 63 = false → v.getLsbD 62 = false → goes (s.hubSetFld a 63 1 0)) ∧
        (¬ on → v.getLsbD 63 = false → v.getLsbD 62 = false → goes (plain 0x0300FFF00000000F))) ∧
      ∀ p ∈ [(8, 0x0000FFFFFFFF0000), (16, 0x000000FFFFFF0000), (24, 0x0000FFFFFFFFFFFF), (32, (0x0000FFFFFFFF0000 : Word))], a = fwAddr n + p.1 →
        ((s.hubGet (fwAddr n)).getLsbD 63 = true → goes s) ∧ ((s.hubGet (fwAddr n)).getLsbD 63 = false → goes (plain p.2))) ∧
    (∀ c, c < 256 → a = hubCP + 8 * c → same .cpbindWrite (.word a v) fun u => u.writeCpbind a v) ∧
    (a = melHead → let u := s.consume (v.toNat / 2 ^ 24 % 2 ^ 8)
      exec .melheadCons { s with input := .num (v.toNat / 2 ^ 24 % 2 ^ 8) } =
        .next (State.consume { s with input := .num (v.toNat / 2 ^ 24 % 2 ^ 8) } (v.toNat / 2 ^ 24 % 2 ^ 8)) ∧ goes (u.hubSet melHead (u.hubGet melHead &&& ~~~(v &&& 0xFFFFFFFF00000000))))

/-- R390 to R397, R400, R408, R444, R445; what the hub writes at the end of a bell (log 15), the stores that go on aside (log 105), the
partition of a test's event (log 109) and the remapping of fibres (log 136) are the model's reading.
R402 to R407; where the log and the check name a partition that the manual does not (log 109), and the bank of the hub's own
failures (log 13), are the model's. -/
def Obligations.BellAndCheckSteps : Prop :=
  (∀ (flight : List Nat) (sensors : List Word) (rings : List (Nat × Nat × Nat)) (lost left : List Nat) (c p f code temp e i late : Nat) (w : Word)
       (ok : Bool) (s : State),
     let goes (i : Instr) (t : State) : Prop := exec i s = .next t
     let start := 24000 * s.bellPeal
     let due : Prop := s.bellIn = false ∧ start ≤ s.time
     let great : Prop := s.bellPeal % 1024 = 0
     let past : Prop := s.bellIn = true ∧ s.bellStart + s.bellLen ≤ s.time
     let image (w : Word) : Word := BitVec.ofNat 64 (2 ^ 63 + (if 1680 ≤ (BitVec.ofNat 16 (w.toNat / 2 ^ 32)).toInt then 2 ^ 62 else 0) +
       w.toNat / 2 ^ 32 % 2 ^ 16 * 2 ^ 32 + w.toNat % 2 ^ 16)
     let begins (t : State) : Prop := t.bellIn = true ∧ t.bellStart = start ∧ t.mem = s.mem ∧ t.bellLogged = false ∧
       t.bellLate = if left = [] then min 4 late else 4
     let usual := if s.bellStart / 24000 % 1024 = 0 then 40000 else 1600
     let turns := (s.bellLen - usual) / 1600
     let begun (k : Nat) : Prop := (∃ e ∈ s.strands, e.1 = k ∧ e.2.inFlight % 2 = 1) ∨ (k ∈ flight ∧ s.loadsRows k = true)
     let unsent (k : Nat) : Prop := ∃ o ∈ s.remotes, o.key = k ∧ o.sent = false ∧ o.coll = none ∧ o.ttag = (s.strand k).ttag ∧ (o.kind = .get ∨ ∃ d fl, o.kind = .put d fl)
     let plim := s.hubFld lvmAddr 16 16
     let hot : Prop := ∃ i, i < 5 ∧ (s.hubGet (sensAddr i)).getLsbD 62 = true
     let codeOf (u : State) : Nat := u.hubFld (rhlAddr f) 16 16
     let tmax : Int := (BitVec.ofNat 16 (w.toNat / 2 ^ 32)).toInt
     let pending : Prop := s.hubFld (testAddr c) 63 1 = 1
     (¬ due ∨ great → goes .bellBegin s) ∧ (¬ due ∨ ¬ great → goes .greatBellBegin s) ∧
     (s.input = .bell flight sensors rings lost late left → s.bellInput = (flight, sensors, rings, lost, late, left)) ∧
     ((∀ a b c d x y, s.input ≠ .bell a b c d x y) → s.bellInput = ([], [], [], [], 0, [])) ∧
     (due → ¬ great → s.bellInput = (flight, sensors, rings, lost, late, left) → NextWith (exec .bellBegin s) fun t =>
       begins t ∧ t.bellLen = 1600 ∧ t.bellPeal = s.bellPeal + 1 ∧
       (∀ k, { t.strand k with inFlight := (s.strand k).inFlight, overrun := (s.strand k).overrun } = s.strand k) ∧
       (s.bellPeal % 5 ∉ left → t.hubGet (sensAddr (s.bellPeal % 5)) = image (sensors.getD 0 (Config.sensor s.steps (s.bellPeal % 5)))) ∧
       ∀ j, j ∈ t.bellOwed ↔ (j ∈ s.bellOwed ∧ 5 ≤ j) ∨ (j ∈ left ∧ j < 5 ∧ (j = s.bellPeal % 5 ∨ j ∈ s.bellOwed))) ∧
     (due → great → s.bellInput = (flight, sensors, rings, lost, late, left) → (∀ c, c < 256 → s.hubFld (testAddr c) 63 1 = 0) →
       NextWith (exec .greatBellBegin s) fun t =>
         begins t ∧ t.bellLen = 40000 ∧ t.bellPeal = s.bellPeal + 2 ∧ (∀ j, j ∈ t.bellOwed ↔ j ∈ left) ∧
         (∀ x ∈ s.testing, x ∈ t.testing) ∧ (5 ∉ left → s.bellPeal / 1024 % 256 ∈ t.testing) ∧ t.fibresOut = [] ∧
         (left = [] → ∀ j, j < 5 → t.hubGet (sensAddr j) = image (sensors.getD j (Config.sensor s.steps j))) ∧
         ∀ j, j < 256 →
           (s.hubFld (rhlAddr j) 61 1 = 1 ∨ 8 + j ∈ left → t.hubGet (rhlAddr j) = s.hubGet (rhlAddr j)) ∧
           (s.hubFld (rhlAddr j) 61 1 = 0 → 8 + j ∉ left →
             ((∃ x ∈ lost, x / 32 = j) → t.hubFld (rhlAddr j) 63 1 = 0 ∧ t.hubFld (rhlAddr j) 62 1 = 1) ∧
             ((∀ x ∈ lost, x / 32 ≠ j) → t.hubFld (rhlAddr j) 63 1 = 1 ∧ t.hubFld (rhlAddr j) 62 1 = 0))) ∧
     (due → great → s.bellInput = (flight, sensors, rings, lost, late, left) → c < 256 → pending → 5 ∉ left →
       (∀ x, x < c → s.hubFld (testAddr x) 63 1 = 0) → NextWith (exec .greatBellBegin s) fun t => c ∈ t.testing) ∧
     (let next (j : Instr) : Prop :=
       ((∃ x, .event j x ∈ s.agenda) → s.calendar = s) ∧
       ((∀ x, .event j x ∉ s.agenda) → s.calendar = { s with agenda := .event j .none :: s.agenda })
      (due → great → next .greatBellBegin) ∧ (due → ¬ great → next .bellBegin) ∧ (past → turns < s.bellLate → next .bellExtension) ∧
      (past → s.bellLate ≤ turns → next .bellEnd) ∧ (¬ due → ¬ past → s.calendar = s)) ∧
     (∀ k, let u := s.markOverruns flight
       let o := s.strand k
       let seen (x : Nat) : Option (Nat × Nat) := if o.xctl.getLsbD 0 = true then some (s.bellStart, x) else o.overrun
       let mark (x : Nat) : Strand := { o with inFlight := x, overrun := seen x }
       (¬ begun k → ¬ unsent k → u.strand k = o) ∧ (begun k → ¬ unsent k → u.strand k = mark 1) ∧
       (¬ begun k → unsent k → u.strand k = mark 2) ∧ (begun k → unsent k → u.strand k = mark 3)) ∧
     ((s.senseOne i w).hubGet (sensAddr i) = image w) ∧
     (1840 ≤ tmax → ∃ ev : McEvent, .event .machineCheckEvent (.check ev) ∈ (s.senseOne i w).agenda ∧ ev.code = 0x32) ∧
     (¬ past → goes .bellEnd s) ∧
     (past → NextWith (exec .bellEnd s) fun t => t.bellIn = false ∧ t.bellTotal = s.bellTotal + s.bellLen ∧ t.sliceDrained = [] ∧
       (s.saves = [] → (∀ x ∈ s.tasks, x.mailDue = false) → ∀ k, (t.strand k).inFlight = (s.strand k).inFlight % 2) ∧ t.refused = [] ∧
       List.Sublist (s.refused ++ s.deferred ++ s.agenda) t.agenda) ∧
     (¬ past ∨ 4 ≤ turns → goes .bellExtension s) ∧
     (past → turns < 4 → NextWith (exec .bellExtension s) fun t => t.bellLen = s.bellLen + 1600 ∧ t.bellIn = true ∧ t.strands = s.strands ∧
       t.mem = s.mem ∧
       (turns = 0 → t.bellOvr = true ∧ t.hub = s.hub ∧ (t.bellLogged = true ↔ s.hubFld (mcAddr 36) 63 1 = 0) ∧
         ∃ ev : McEvent, t.agenda = .event .machineCheckEvent (.check ev) :: s.agenda ∧ ev.code = 0x40 ∧ ev.bank = 36 ∧ ev.syn = some 1) ∧
       (turns ≠ 0 →
         let counted : Prop := s.bellLogged = true ∧ s.hubFld (mcAddr 36) 16 16 = 0x40 ∧ s.hubFld (mcAddr 36) 63 1 = 1
         t.agenda = s.agenda ∧ (counted → t.hubFld (mcAddr 36 + 16) 0 4 = turns + 1) ∧ (¬ counted → t.hub = s.hub))) ∧
     goes .drainWindowBegin s ∧
     (s.drainAdmits e = true ↔ s.bellIn = false ∧ (s.time + 400 < start ∨ s.time + e ≤ start)) ∧
     (s.input = .num p → NextWith (exec .powerControllerUpdate s) fun t => t.strands = s.strands ∧ t.mem = s.mem ∧
       (∀ a, a ≠ lvmAddr → t.hubGet a = s.hubGet a) ∧ t.leaveUsed lvmAddr = s.leaveUsed lvmAddr ∧ t.hubFld lvmAddr 0 16 = s.hubFld lvmAddr 0 16 ∧
       (¬ hot → t.hubFld lvmAddr 16 16 = p % 2 ^ 16) ∧ (hot → plim ≤ 4096 → t.hubFld lvmAddr 16 16 = plim) ∧
       (hot → 4096 < plim → t.hubFld lvmAddr 16 16 = max 4096 (plim - 1024))) ∧
     (s.input = .num3 f code temp →
       (256 ≤ f ∨ s.bellIn = true → goes .ringHeaterTrack s) ∧
       (f < 256 → s.bellIn = false → code < 2 ^ 16 → NextWith (exec .ringHeaterTrack s) fun t => t.strands = s.strands ∧ t.mem = s.mem ∧
         (∀ a, a ≠ rhlAddr f → t.hubGet a = s.hubGet a) ∧ t.hubFld (rhlAddr f) 32 16 = temp % 2 ^ 16 ∧
         (s.hubFld (rhlAddr f) 61 1 = 1 ∨ codeOf s = code → codeOf t = codeOf s) ∧
         (s.hubFld (rhlAddr f) 61 1 = 0 → (codeOf s < code → codeOf t = codeOf s + 1) ∧ (code < codeOf s → codeOf t + 1 = codeOf s)))) ∧
     (s.input = .num c →
       let busy : Prop := ∃ x ∈ s.tasks, x.state = .resident ∧ ∃ l ∈ x.live, clusterOf l.2 = c
       (s.bellIn = true ∨ 256 ≤ c ∨ ¬ pending ∨ busy → goes .selfTestRun s) ∧
       (s.bellIn = false → c < 256 → pending → ¬ busy →
         goes .selfTestRun { s with testing := if c ∈ s.testing then s.testing else s.testing ++ [c] })) ∧
     (s.input = .outcome c ok →
       (c ∉ s.testing → goes .selfTestEnd s) ∧
       (c ∈ s.testing → NextWith (exec .selfTestEnd s) fun t => t.strands = s.strands ∧ t.mem = s.mem ∧
         t.testing = s.testing.filter (fun x => x != c) ∧ t.hubFld (testAddr c) 63 1 = 0 ∧
         t.hubFld (testAddr c) 62 1 = (if ok = true then 0 else 1) ∧ t.hubFld (testAddr c) 0 32 = s.time / 24000 % 2 ^ 32 ∧
         (ok = true → t.hubFld (testAddr c) 61 1 = s.hubFld (testAddr c) 61 1) ∧
         (ok = false → t.hubFld (testAddr c) 61 1 = 1 ∧
           ∃ ev : McEvent, .event .machineCheckEvent (.check ev) ∈ t.agenda ∧ ev.code = 0x41 ∧ ev.unit = c * 8))) ∧
     (c ∈ s.testing → s.clusterOpen c = false)) ∧
  (∀ (e : McEvent) (s : State),
     let goes (t : State) : Prop := exec .machineCheckEvent s = .next t
     let cls := s.checkClass e
     let a := mcAddr e.bank
     let old := s.hubGet a
     let stat := BitVec.ofNat 64 (2 ^ 63 + cls * 2 ^ 60 + (if e.addr.isSome = true then 2 ^ 59 else 0) + (if e.syn.isSome = true then 2 ^ 58 else 0) +
       (if cls = 2 then e.part % 16 * 2 ^ 54 else 0) + e.unit % 4096 * 2 ^ 40 + e.code % 65536 * 2 ^ 16)
     let g : McEvent := { e with part := s.checkPart e }
     let u := s.bankRecord e cls
     let n := min (s.hubFld (a + 24) 0 32 + 1) (2 ^ 32 - 1)
     let thr := s.hubFld (a + 24) 32 16
     let raised : Prop := thr ≠ 0 ∧ n = thr ∧ s.hubFld (a + 24) 0 32 < thr
     let r : McRecord := { part := e.part % 16, stat := statImage e 2, addr := addrImage e, syn := e.syn.getD 0, time := s.time }
     (∀ code ∈ [0x01, 0x02, 0x03, 0x20, 0x31, 0x40], e.code = code → cls = 1) ∧
     (∀ code ∈ [0x04, 0x05, 0x21, 0x41, 0x50, 0x51, 0x52, 0x53, 0x60], e.code = code → cls = 2) ∧ (e.code = 0x32 → cls = 3) ∧
     (e.code = 0x11 → (e.cls = 3 → cls = 3) ∧
       (e.cls ≠ 3 → e.bank < 32 →
         (e.bank % 8 = 2 → (s.linesLost e = [] → cls = 1) ∧ (s.linesLost e ≠ [] → cls = 2)) ∧
         (e.bank % 8 = 3 → cls = if s.homeOfLine (e.addr.getD 0) = e.bank / 8 then 2 else 1) ∧ (e.bank % 8 = 1 → cls = 2))) ∧
     (∀ x, e.addr = some x →
       let base := s.memKey e.key (x / 512 * 512) / 32
       let bad (k : Nat) : Prop := k < 16 ∧ if e.sectors = 0 then k = x % 512 / 32 else e.sectors.testBit k = true
       (e.code = 0x60 ∨ (e.code = 0x11 ∧ e.bank < 32 ∧ e.bank % 8 = 3) →
         s.uncorrectable e 2 = { s with poison := s.poisonOf e x } ∧ (e.code = 0x11 → s.uncorrectable e 1 = s)) ∧
       (∀ k, (∃ y, bad y ∧ k = base + y) → Tab.get 0 (s.poisonOf e x) k = 255) ∧
       (∀ k, (∀ y, bad y → k ≠ base + y) → Tab.get 0 (s.poisonOf e x) k = Tab.get 0 s.poison k) ∧
       (e.code = 0x11 → e.bank < 32 → e.bank % 8 = 2 →
         let w := (s.loseLine (e.unit % 2048) x e.key).2
         let lost := s.linesLost e
         (∀ l, l ∈ lost ↔ l ∈ (s.loseLine (e.unit % 2048) x e.key).1 ∧ l.dirty ≠ 0) ∧
         s.uncorrectable e cls = (w.tasks.filter fun y => y.state != .ended && (lost.map Line.ttag).contains y.ttag.toNat && y.part == e.part).foldl
           (fun v y => v.killTask y.id 0x14 0) w)) ∧
     (∀ sid x key,
       let core := sid / 2
       let here (l : Line) : Prop := l.tag.line = x / 128 ∧ l.tag.key = key
       let own : Prop := (∃ l ∈ (s.coreCache core).lines, here l) ∨ ∃ l ∈ (Tab.get PCache.empty s.l1i core).lines, here l
       let r := s.loseLine sid x key
       (own → (∀ l, l ∈ r.1 ↔ l ∈ (s.coreCache core).lines ∧ here l) ∧ (∀ l, l ∈ (r.2.coreCache core).lines ↔ l ∈ (s.coreCache core).lines ∧ ¬ here l) ∧
         r.2.ccache = s.ccache) ∧
       (¬ own → (∀ l, l ∈ r.1 ↔ l ∈ (s.clusterCache (sid / 8)).lines ∧ here l) ∧
         (∀ l, l ∈ (r.2.clusterCache (sid / 8)).lines ↔ l ∈ (s.clusterCache (sid / 8)).lines ∧ ¬ here l) ∧ r.2.l1d = s.l1d)) ∧
     (let gone : Prop := e.code = 0x04 ∨ e.code = 0x05
      let tiles : Prop := e.code = 0x11 ∧ e.bank < 32 ∧ e.bank % 8 = 1
      let sid := e.unit % 2048
      let within (key : Nat) : Prop := s.partOf key = some e.part
      (∀ key, s.victim e = some key → within key) ∧ (¬ gone → ¬ tiles → s.victim e = none) ∧
      (∀ key, gone → e.kills = some key → within key → s.victim e = some key) ∧
      (∀ b, gone → e.kills = none → s.bankOn (sid / 8) = some b → within (keyOf b sid) → s.victim e = some (keyOf b sid)) ∧
      (∀ key, tiles → e.kills = some key → within key →
        (e.tile = none → s.victim e = some key) ∧
        ∀ acc id, e.tile = some (acc, id) →
          (id ∈ (s.strand key).physIds acc false → s.victim e = some key) ∧ (id ∉ (s.strand key).physIds acc false → s.victim e = none)) ∧
      (∀ key q, gone ∨ tiles → e.kills = some key → s.partOf key = some q → s.checkPart e = q) ∧
      (¬ gone → e.code ≠ 0x11 → s.checkPart e = e.part)) ∧
     (e.bank < 37 →
       (old.getLsbD 63 = false ∨ old.toNat / 2 ^ 60 % 4 < cls →
         u.hubGet a = stat ||| (old &&& 0x4000000000000000) ∧
         (∀ x, e.addr = some x → u.hubGet (a + 8) = BitVec.ofNat 64 (e.key % 4096 * 2 ^ 52 + x % 2 ^ 52)) ∧
         (∀ x, e.syn = some x → u.hubGet (a + 16) = x)) ∧
       (old.getLsbD 63 = true → cls ≤ old.toNat / 2 ^ 60 % 4 → u = s.hubSetFld a 62 1 1)) ∧
     (let v := s.countCorrected e
      v.hubFld (a + 24) 0 32 = n ∧ v.strands = s.strands ∧ v.mem = s.mem ∧
      (¬ raised → v = s.hubSetFld (a + 24) 0 32 n) ∧
      (raised → v = (s.hubSetFld (a + 24) 0 32 n).raiseCheck
        { e with code := if e.code = 0x30 then 0x30 else 0x10, cls := 2, kills := none })) ∧
     ((s.mcHeld ≠ [] → s.deliver e = { s with mcHeld := s.mcHeld ++ [r] }) ∧ (s.mcHeld = [] → s.deliver e = s.writeRecord r)) ∧
     (∀ x : McRecord, (s.hubGet (mcqAddr x.part)).getLsbD 63 = true → s.bellIn = true → s.writeRecord x = { s with mcHeld := s.mcHeld ++ [x] }) ∧
     (∀ x : McRecord, (s.hubGet (mcqAddr x.part)).getLsbD 63 = false → s.writeRecord x = s) ∧
     (s.input = .check e →
       let u := s.bankRecord g cls
       let dies (v : State) : State := match v.victim g with
         | some key => v.killAt key 0x14 0
         | none => v
       (cls = 0 ∨ 37 ≤ e.bank → goes s) ∧
       (e.bank < 37 → cls = 3 → goes { u with fatal := true }) ∧
       (e.bank < 37 → cls = 1 → e.code ≠ 0x11 → goes (u.countCorrected g)) ∧
       (e.bank < 37 → cls = 2 → e.code ∉ [0x04, 0x05, 0x11, 0x60] → goes (u.deliver g)) ∧
       (e.bank < 37 → e.code = 0x60 → goes ((u.deliver g).uncorrectable g 2)) ∧
       (e.bank < 32 → e.code = 0x11 → cls ≠ 3 → e.bank % 8 = 2 ∨ e.bank % 8 = 3 →
         goes ((if cls = 1 then u.countCorrected g else u.deliver g).uncorrectable g cls)) ∧
       (e.bank < 32 → e.code = 0x11 → e.cls ≠ 3 → e.bank % 8 = 1 → goes (dies (u.deliver g))) ∧
       (e.bank < 37 → e.code = 0x04 ∨ e.code = 0x05 → goes (dies (u.deliver g)))))

/-- R304 to R306, R308, R309, R311, R437 to R439; the exchange and the steering rest on log 120, the credit of a relay share on logs 76 and 77, the fibres that are remapped on log 136. -/
def Obligations.FabricSteps : Prop :=
  ∀ (n src i ppm : Nat) (p : Packet) (f : Flit) (x : SentFlit) (l : List Exchange) (s : State),
    let goes (i : Instr) (t : State) : Prop := exec i s = .next t
    let now := s.time / 1600
    let open' : Prop := s.bellIn = false ∧ s.admitted = true ∧ 40 ≤ s.time % 1600
    let gone : State := { s with outbox := s.outbox.erase p }
    let direct (r : Nat) : Prop := s.rotorTo p.dst now = some r ∧ s.turnFits r p.flits = true
    let hit (x : SentFlit) : Bool := x.src == src && x.packet == n && x.index == i
    let fails := min 16 (Tab.get 0 s.waveFails (x.fibre * 32 + x.wave) + 1)
    let u := { s with sentFlits := s.sentFlits.erase x }.waveFailed x.fibre x.wave
    let spare := (u.wavesOf x.fibre).filter fun w => w != x.wave
    let again : Prop := now = x.turn ∧ open' ∧ u.turnFits x.fibre 1 = true ∧ spare ≠ [] ∧ s.fibreUp x.fibre = true
    let late : Packet := { src := src, dst := x.dst, num := n, first := i, flits := 1, relayed := false, last := none }
    let k := (f.source, f.packet, f.index)
    let acked : State := s.ackFlit f
    let taken : State := { acked with received := acked.received ++ [k] }
    let offset (r t : Nat) : Nat := if r = 127 ∧ t = 3 then 1 else if r < 64 then 4 * r + t + 1 else 511 - 4 * (r - 64) - t
    let reached : Prop := s.rotorTo ((s.ownMid + 512 - offset f.fibre (now % 4)) % 512) now ≠ none
    let freed (m k : Nat) (v : State) : State :=
      { v with relayUsed := (v.relayUsed.map fun y => if y.1 = m ∧ y.2.1 = k then (m, k, y.2.2 - 1) else y).filter fun y => y.2.2 != 0 }
    let lost : State := match x.via with | some m => freed m n u | none => u
    let onward : Packet := { src := f.source, dst := f.dst, num := f.packet, first := f.index, flits := 1, relayed := true, last := none }
    (∀ m r t, r < 128 → t < 4 → rotorPeer m r t = (m + offset r t) % 512) ∧
    (∀ r m, let ws := (s.wavesOf r).length
      s.turnFits r m = true ↔ s.time % 1600 + 9 * ((m + ws - 1) / ws) ≤ 1600) ∧
    (∀ r m, s.intermediate p = some (r, m) → (r, m) ∈ s.peers now ∧ m ≠ p.dst ∧
      ∀ r' m', (r', m') ∈ s.peers now → m' ≠ p.dst → turnsTo m p.dst now ≤ turnsTo m' p.dst now) ∧
    (∀ m, s.relayRoom m p = true ↔ ((s.relayUsed.filter fun y => y.1 == m).map fun y => y.2.2).foldl (· + ·) 0 + p.flits ≤ 1820) ∧
    (s.input = .num n →
      (s.outbox.find? (fun y => y.num == n) = none → goes .packetSend s) ∧
      (s.outbox.find? (fun y => y.num == n) = some p →
        (¬ open' → goes .packetSend s) ∧
        (∀ r, open' → direct r → goes .packetSend ((gone.emit p r).opSent p.last)) ∧
        (open' → (∀ r, ¬ direct r) →
          (s.rotorTo p.dst (now + 1) ≠ none ∨ s.intermediate p = none → goes .packetSend s) ∧
          ∀ r m, s.rotorTo p.dst (now + 1) = none → s.intermediate p = some (r, m) →
            (s.relayRoom m p = false ∨ s.turnFits r p.flits = false → goes .packetSend s) ∧
            (s.relayRoom m p = true → s.turnFits r p.flits = true → goes .packetSend
              (({ gone with relayUsed := gone.relayUsed ++ [(m, p.num, p.flits)] }.emit { p with relayed := true } r).opSent p.last))))) ∧
    (s.input = .num2 src n →
      (s.relay.find? (fun y => y.src == src && y.num == n) = none → goes .relayForward s) ∧
      (s.relay.find? (fun y => y.src == src && y.num == n) = some p →
        (¬ open' ∨ (∀ r, ¬ direct r) → goes .relayForward s) ∧
        ∀ r, open' → direct r →
          let credits := List.replicate (if p.relayed = true then p.flits else 0) (src, n)
          goes .relayForward ({ s with relay := s.relay.erase p, creditsSent := s.creditsSent ++ credits }.emit p r))) ∧
    (¬ open' → goes .flitReceive s) ∧
    (open' → s.input = .num2 src n → goes .flitReceive (freed src n s)) ∧
    (open' → s.input = .num3 src n i → NextWith (exec .flitReceive s) fun t => t.sentFlits = s.sentFlits.filter (fun y => !hit y) ∧
        t.strands = s.strands ∧ t.mem = s.mem ∧
        (s.sentFlits.find? hit = some x → s.waveUp x.fibre x.wave = true → Tab.get 0 t.waveFails (x.fibre * 32 + x.wave) = 0) ∧
        (s.sentFlits.find? hit = some x → s.waveUp x.fibre x.wave = false → t.waveFails = s.waveFails) ∧
        (s.sentFlits.find? hit = none → t.waveFails = s.waveFails)) ∧
    (s.input = .num3 src n i →
      (s.sentFlits.find? hit = none → goes .flitAckTimeout s) ∧
      (s.sentFlits.find? hit = some x →
        (again → goes .flitAckTimeout { u with sentFlits := u.sentFlits ++ [{ x with wave := spare.getD 0 0 }] }) ∧
        (¬ again → now ≤ x.due → goes .flitAckTimeout s) ∧
        (¬ again → x.due < now → src = s.ownMid → goes .flitAckTimeout ({ lost with outbox := lost.outbox ++ [late] }.later .packetSend (.num n))) ∧
        (¬ again → x.due < now → src ≠ s.ownMid → goes .flitAckTimeout ({ lost with relay := lost.relay ++ [late] }.later .relayForward (.num2 src n))))) ∧
    (let v := s.waveFailed x.fibre x.wave
     Tab.get 0 v.waveFails (x.fibre * 32 + x.wave) = fails ∧ (fails < 16 → v = { s with waveFails := Tab.set 0 s.waveFails (x.fibre * 32 + x.wave) fails })) ∧
    (open' → s.input = .flit f →
      (f.crcOk = false → goes .flitReceive (s.raiseCheck
        { code := 0x30, bank := 32, cls := 1, part := 0, unit := f.fibre, addr := none, key := 0, syn := some (BitVec.ofNat 64 f.wave),
          kills := none })) ∧
      (f.crcOk = true → k ∈ s.received → goes .flitReceive acked) ∧
      (f.crcOk = true → k ∉ s.received →
        (f.dst = s.ownMid → goes .flitReceive taken) ∧
        (f.dst ≠ s.ownMid → s.shareOpen f.source = false → goes .flitReceive s) ∧
        (f.dst ≠ s.ownMid → s.shareOpen f.source = true →
          goes .flitReceive ({ taken with relay := taken.relay ++ [onward] }.later .relayForward (.num2 f.source f.packet))))) ∧
    (f.fibre = 127 ∧ now % 4 = 3 → acked = { s with acksOwed := s.acksOwed ++ [(now + 1, k)] }) ∧
    (¬ (f.fibre = 127 ∧ now % 4 = 3) → (reached → acked = { s with acksSent := s.acksSent ++ [k] }) ∧ (¬ reached → acked = s)) ∧
    (∀ r, s.wavesOf r ≠ [] → ∃ ys, (s.emit p r).sentFlits = s.sentFlits ++ ys ∧ ys.length = p.flits ∧
      ∀ j y, ys[j]? = some y → y.src = p.src ∧ y.packet = p.num ∧ y.dst = p.dst ∧ y.index = p.first + j ∧ y.fibre = r ∧
        y.wave ∈ s.wavesOf r ∧ y.turn = now ∧ y.due = (if r = 127 ∧ now % 4 = 3 then now + 1 else now) ∧
        y.via = if p.relayed = true ∧ p.src = s.ownMid then some (rotorPeer s.ownMid r (now % 4)) else none) ∧
    (s.shareOpen src = true ↔ ((s.relay.filter fun y => y.src == src).map Packet.flits).foldl (· + ·) 0 < 1820) ∧
    (now ≤ s.turn → goes .turnBoundary s) ∧
    (s.turn < now → NextWith (exec .turnBoundary s) fun t =>
      let xs := s.exchanges now l
      let ahead := ((xs.filter Exchange.closer).map exchangeOffset).foldl (· + ·) 0
      let rate (d : Int) : Prop := t.timeOff = s.timeOff + d * 1600 ∨ (t.timeOff = s.timeOff ∧ { s with timeOff := s.timeOff + d * 1600 }.time < s.time)
      let carries : Prop := s.bellIn = false ∧ s.time < 24000 * s.bellPeal ∧ s.admitted = true ∧ s.fibreUp 64 = true
      let due := (s.acksOwed.filter fun y => y.1 == now).map Prod.snd
      t.turn = now ∧ t.strands = s.strands ∧ t.mem = s.mem ∧ t.outbox = s.outbox ∧ t.relay = s.relay ∧ t.relayUsed = s.relayUsed ∧
      t.acksOwed = (s.acksOwed.filter fun y => decide (now < y.1)) ∧ (carries → t.acksSent = s.acksSent ++ due) ∧ (¬ carries → t.acksSent = s.acksSent) ∧
      t.tablesDue = [] ∧ s.tableSeq ≤ t.tableSeq ∧ (∀ y ∈ s.tablesDue, y.seq ≤ t.tableSeq) ∧
      (s.tablesDue = [] →
        t.hub = s.hub ∧ s.time ≤ t.time ∧ (s.role = .leader → t.elections = s.elections ++ [(2, s.term, s.serial)] ∧ t.timeOff = s.timeOff) ∧
        (s.role ≠ .leader → t.elections = s.elections) ∧ (s.admitted = false → t.timeOff = s.timeOff) ∧
        (s.input = .exchange l ppm → t.offsets = (xs.map fun y => (y.rotor, exchangeOffset y)) ∧
          (s.admitted = true → s.role ≠ .leader → (ahead = 0 → t.timeOff = s.timeOff) ∧ (0 < ahead → rate (-(min 200 ppm : Nat))) ∧
            (ahead < 0 → rate (min 200 ppm : Nat)))) ∧
        ∀ ns m, s.input = .list ns → s.cabled = false → s.manifestMid = some m → t.cabled = true ∧
          ∀ r, r ∈ t.fibresOut ↔ r ∈ s.fibresOut ∨ ∃ y ∈ ns, r = y / 2 ^ 64 % 128 ∧
            (s.manifest.find? fun e => e.2 == rotorPeer m r (now % 4)).map Prod.fst ≠ some (y % 2 ^ 64))) ∧
    (∀ y : Exchange, y ∈ s.exchanges now l ↔ y ∈ l ∧ s.fibreUp y.rotor = true ∧ y.rotor < 128 ∧ ¬ (y.rotor = 127 ∧ now % 4 = 3))

/-- R437 to R439; that a leader acknowledges no claim is the model's reading (log 75). -/
def Obligations.DomainSteps : Prop :=
  ∀ (term serial q rd : Nat) (verified whole : Bool) (tab : TableSet) (s : State),
    let goes (i : Instr) (t : State) : Prop := exec i s = .next t
    let round := s.turn / 4
    let heard : Prop := ∃ r, s.lastBeat = some r ∧ round < r + 4
    let own : Prop := ∃ e ∈ s.manifest, e.1 = s.serial
    let listed : Prop := verified = true ∧ own ∧ ∃ e ∈ s.manifest, e.1 = serial
    let before : Prop := ∃ t n, .event .claimReceive (.claim t n true rd) ∈ s.agenda ∧ (∃ e ∈ s.manifest, e.1 = n) ∧
      (term < t ∨ (t = term ∧ n < serial))
    let rank := (s.manifest.filter fun e => decide (e.1 < s.serial)).length
    let leads (u : State) : State := { u with role := .leader, reports := [(u.serial, u.tableSeq)], elections := u.elections ++ [(2, u.term, u.serial)] }
    let wins (u : State) (r : Nat) (acks : List Nat) : State :=
      if u.manifest.length < 2 * acks.length then leads u else { u with role := .claimant r acks }
    let down : State := { s with role := .follower, term := term, acked := none }
    (s.role = .follower → own → ¬ heard → goes .electionTrigger { s with role := .waiting (round + 4 * rank) }) ∧
    (s.role ≠ .follower ∨ ¬ own ∨ heard → goes .electionTrigger s) ∧
    (∀ r, s.role = .waiting r → (round < r → goes .claimSend s) ∧
      (r ≤ round →
        let u : State := { s with term := (s.term + 1) % 2 ^ 64, acked := some s.serial,
                                  elections := s.elections ++ [(0, (s.term + 1) % 2 ^ 64, s.serial)] }
        goes .claimSend (wins u round [s.serial]))) ∧
    ((∀ r, s.role ≠ .waiting r) → goes .claimSend s) ∧
    (∀ r acks, s.role = .claimant r acks → (r + 4 ≤ round → goes .claimAbandon { s with role := .follower }) ∧
      (round < r + 4 → goes .claimAbandon s)) ∧
    ((∀ r acks, s.role ≠ .claimant r acks) → goes .claimAbandon s) ∧
    (s.input = .claim term serial verified rd →
      (¬ listed → goes .claimReceive s ∧ goes .heartbeatReceive s) ∧
      (listed → before → goes .claimReceive (s.later .claimReceive s.input)) ∧
      (listed →
        let claims (u : State) : Prop := ¬ before → goes .claimReceive u
        let grant (u : State) : State := { u with term := term, acked := some serial, elections := u.elections ++ [(1, term, serial)] }
        let free (u : State) : Prop := u.term < term ∨ (u.term = term ∧ (u.acked = none ∨ u.acked = some serial))
        let hears (u : State) : State := { u with lastBeat := some round }
        (s.role = .leader → claims s ∧ (s.term < term → goes .heartbeatReceive (hears down)) ∧
          (term ≤ s.term → goes .heartbeatReceive (hears s))) ∧
        (heard → s.role = .follower → claims s) ∧
        (s.role = .follower → goes .heartbeatReceive (hears s) ∧ (¬ heard → (free s → claims (grant s)) ∧ (¬ free s → claims s))) ∧
        (∀ r, s.role = .waiting r →
          let u : State := if s.term ≤ term then { s with role := .follower } else s
          goes .heartbeatReceive (hears u) ∧ (¬ heard → free s → claims (grant u)) ∧ (heard ∨ ¬ free s → claims u)) ∧
        (∀ r acks, s.role = .claimant r acks →
          (s.term < term → goes .heartbeatReceive (hears down) ∧ (heard → claims down)) ∧
          (term ≤ s.term → goes .heartbeatReceive (hears s)) ∧ (term < s.term → claims s)) ∧
        ∀ r acks, s.role = .claimant r acks →
          (term = s.term → serial ∉ acks → round < r + 4 → goes .acknowledgementReceive (wins s r (acks ++ [serial]))) ∧
          (term ≠ s.term ∨ serial ∈ acks ∨ r + 4 ≤ round → goes .acknowledgementReceive s))) ∧
    ((∀ r acks, s.role ≠ .claimant r acks) → goes .acknowledgementReceive s) ∧
    (s.input = .tables tab whole →
      (whole = false ∨ tab.seq ≤ s.tableSeq → goes .tableSetReceive s) ∧
      (whole = true → s.tableSeq < tab.seq → ∃ a b, s.tablesDue = a ++ b ∧ goes .tableSetReceive { s with tablesDue := a ++ tab :: b } ∧
        (∀ y ∈ a, y.seq < tab.seq) ∧ ∀ y, b.head? = some y → tab.seq ≤ y.seq)) ∧
    (s.applyDue = s.tablesDue.foldl (fun u y => if u.tableSeq < y.seq then u.applyTables y else u) { s with tablesDue := [] }) ∧
    (let t := s.applyTables tab
     t.tableSeq = tab.seq ∧ t.tableSets = s.tableSets ++ [tab] ∧ t.tableReports = s.tableReports ++ [tab.seq] ∧ t.strands = s.strands ∧ t.mem = s.mem ∧
     (s.role ≠ .leader → t.reports = s.reports) ∧ (s.role = .leader → (s.serial, tab.seq) ∈ t.reports ∧ ∀ r ∈ t.reports, r.1 = s.serial → r.2 = tab.seq) ∧
     (∀ j, j < 8 → t.hubGet (hubFC + 8 * j) = tab.fdmap.getD j 0) ∧
     (let named (k : Nat) : Prop := (tab.fcset.getD k 0).getLsbD 63 = true ∧ s.manifestMid = some ((tab.fcset.getD k 0).toNat % 512)
      let set (f : Nat → Word) : Prop := ∀ k, k < 8 → t.hubGet (hubFC + 64 + 8 * k) = f k
      (∀ k, k < 8 → named k → (∀ j, j < k → ¬ named j) →
        t.hubFld (hubFC + 128) 0 3 = k ∧ set fun k => tab.fcset.getD k 0 &&& 0x80000000000001FF) ∧
      ((∀ k, k < 8 → ¬ named k) → t.hubFld (hubFC + 128) 0 3 = 0 ∧ set fun _ => 0)) ∧
     (t.admitted = true ↔ ∃ m, s.manifestMid = some m ∧ t.inDomain m = true) ∧
     (t.admitted = true → s.admitted = false → s.manifestMid = some t.mid ∧ t.hubFld hubBOOT 0 3 = 5) ∧
     (t.admitted = false → s.admitted = true → t.hubFld hubBOOT 0 3 = 4)) ∧
    (s.input = .num2 serial q →
      (s.role ≠ .leader ∨ (∀ e ∈ s.manifest, e.1 ≠ serial) → goes .tableSequenceReport s) ∧
      (s.role = .leader → (∃ e ∈ s.manifest, e.1 = serial) →
        let l := (s.reports.filter fun r => r.1 != serial) ++ [(serial, q)]
        NextWith (exec .tableSequenceReport s) fun t => t.reports = l ∧
          { t with reports := s.reports, tablesSent := s.tablesSent } = s ∧
          (2 * l.length ≤ s.manifest.length → t.tablesSent = s.tablesSent) ∧
          (s.manifest.length < 2 * l.length → ∀ m z, (m, z) ∈ t.tablesSent ↔
            (m, z) ∈ s.tablesSent ∨ ∃ k, (m, k) ∈ l ∧ k < z ∧ ∃ y ∈ s.tableSets, y.seq = z)))

/-- R431 to R433, R438, R442; an image's parts beside its bytes, and the partition table's writes, are the model's (log 90), and what main
memory holds at power-on too (log 1).
R136, R370, R435, R436, R442; a start block with a reserved word set (log 83), steps that wait (log 104), and the registers that a
die's reset keeps (log 130) are the model's. -/
def Obligations.BootAndResetSteps : Prop :=
  (∀ (l : List BootImage) (kind k : Nat) (i : BootImage) (s : State),
     let goes (t : State) : Prop := exec .powerOnReset s = .next t
     let find (slot : Nat) := l.find? fun i => i.kind == kind && i.offset / 2 ^ 26 == slot && s.imageValid i
     let stage (t : State) : Nat := t.hubFld hubBOOT 0 3
     let firmware : Prop := ∃ i ∈ s.loaded, i.kind = 1
     let out : State := { s with heldReset := false }
     let due : Prop := stage s + 1 = k ∧ k ≤ 5 ∧ s.hubFld hubBOOT 8 4 = 0
     let follows (t : State) (n : Nat) : Prop := .event .powerOnReset (.num n) ∈ t.agenda
     let cold (t : State) : Prop :=
       t.strands = [] ∧ t.tasks = [] ∧ t.casts = [] ∧ t.l1d = [] ∧ t.dir = [] ∧ t.keySpace = [] ∧ t.bellIn = false ∧ t.fatal = false ∧
       t.serial = s.serial ∧ t.minSeq = s.minSeq ∧ t.fusedDigest = s.fusedDigest ∧ t.term = s.term ∧ t.acked = s.acked ∧ t.loaded = [] ∧
       t.manifest = [] ∧ t.heldReset = true ∧ t.hub = State.reset.hub ∧ t.agenda = [.event .powerOnReset (.num 1)]
     (s.imageValid i = true ↔ shake256 (bytesLow 64 i.pk) = s.fusedDigest ∧
       Config.slhDsaVerifies i.pk 128 (i.kind + i.seq * 2 ^ 64 + i.len * 2 ^ 128 + i.pk * 2 ^ 192 + i.digest % 2 ^ 320 * 2 ^ 704) i.sig = true ∧
       shake256 i.body = i.digest ∧ Tab.get 0 s.minSeq i.kind ≤ i.seq ∧ i.len ≤ 48 * 2 ^ 20 ∧ i.body.length = i.len ∧ i.seq < 2 ^ 32) ∧
     (s.imageOf l kind = none ↔ find 0 = none ∧ find 1 = none) ∧
     (∀ i, s.imageOf l kind = some i → (find 0 = some i ∨ find 1 = some i) ∧ ∀ slot j, slot < 2 → find slot = some j → j.seq ≤ i.seq) ∧
     (s.input = .images l → NextWith (exec .powerOnReset s) fun t => cold t ∧ t.mem = [] ∧ t.flash = l) ∧
     ((∀ l, s.input ≠ .images l) → (∀ k, s.input ≠ .num k) → NextWith (exec .powerOnReset s) fun t => cold t ∧ t.mem = [] ∧ t.flash = s.flash) ∧
     (NextWith (exec .moduleResetCommand s) fun t => cold t ∧ t.flash = s.flash ∧ t.mem = s.regionsOff.mem ∧ t.poison = s.regionsOff.poison ∧
         t.regionMemo = s.regionsOff.regionMemo ∧ t.keyring = s.keyring ∧ t.keyPairs = s.keyPairs) ∧
     (s.input = .num k →
       let none' (j : Nat) : Prop := ∀ y ∈ s.loaded, y.kind ≠ j
       let fails (j : Nat) : Prop := goes (out.hubSetFld hubBOOT (7 + j) 1 1)
       let loads (j : Nat) (g : State → Prop) : Prop :=
         (¬ none' j → k ≠ 4 → goes out) ∧
         (none' j → out.imageOf s.flash j = none → fails j) ∧
         (none' j → out.imageOf s.flash j = some i → NextWith (exec .powerOnReset s) fun t => t.loaded = s.loaded ++ [i] ∧ t.mem = s.mem ∧
           t.strands = s.strands ∧ g t)
       (¬ due → goes out) ∧
       (due → k = 1 → loads 1 fun t => t.hubFld hubBOOT 32 32 = i.seq % 2 ^ 32 ∧ t.hubFld hubBOOT 7 1 = i.offset / 2 ^ 26 % 2 ∧ stage t = 1 ∧ follows t 2) ∧
       (due → k = 2 → loads 2 fun t => stage t = 2 ∧ follows t 3) ∧
       (due → k = 3 → NextWith (exec .powerOnReset s) fun t => stage t = 3 ∧ follows t 4 ∧ t.loaded = s.loaded) ∧
       (due → k = 4 → loads 4 fun t => stage t = 3 ∧
         t.agenda = s.agenda ++ (i.writes.map fun w => Move.event .registerWrite (.word w.1 w.2)) ++ [.event .powerOnReset (.num 4)]) ∧
       (due → k = 4 → ¬ none' 4 →
         let started : Prop := s.starting = [] ∧ ∀ x, .event .registerWrite x ∉ s.agenda
         (started → NextWith (exec .powerOnReset s) fun t => stage t = 4 ∧ follows t 5) ∧
         (¬ started → goes (out.later .powerOnReset (.num 4)))) ∧
       (due → k = 5 → loads 3 fun t => t.manifest = i.entries ∧ stage t = 4)) ∧
     (∀ n, s.input = .num2 kind n →
       (¬ firmware ∨ kind = 0 ∨ 4 < kind → exec .registerWrite s = .next s) ∧
       (firmware → 1 ≤ kind → kind ≤ 4 →
         exec .registerWrite s = .next { s with minSeq := Tab.set 0 s.minSeq kind (max (Tab.get 0 s.minSeq kind) (n % 2 ^ 32)) })) ∧
     ((∀ n, n < 64 → s.region n = none) → s.regionsOff = s)) ∧
  (∀ (q d x : Nat) (v : Word) (t : Strand) (keys : List (Option Nat)) (s : State),
     let goes (i : Instr) (t : State) : Prop := exec i s = .next t
     let ctl (u : State) : Word := u.hubGet (ptAddr q)
     let on : Prop := (ctl s).getLsbD 63 = true
     let u := s.hubSet (ptAddr q) (ctl s &&& ~~~0x400FFFFFFFFFFFC0 ||| v &&& 0x400FFFFFFFFFFFC0)
     let others (p : Nat) : Prop := p < 16 ∧ p ≠ q ∧ s.partEnabled p = true
     let meet (x y : Nat × Nat) : Prop := x.1 < y.2 ∧ y.1 < x.2 ∧ x.1 < x.2 ∧ y.1 < y.2
     let ag := s.agentOf d
     let inc := (s.hubFld (hubAGINC + 8 * ag) 0 8 + 1) % 256
     (s.partOk q = true ↔ s.clustersOf q ≠ [] ∧ (s.partKeys q).2 ≤ 4096 ∧ ∀ p, others p →
       ¬ meet (s.partKeys q) (s.partKeys p) ∧ (∀ a ∈ s.partRanges q, ∀ b ∈ s.partRanges p, ¬ meet a b) ∧
       (s.partBank p = s.partBank q → ∀ c ∈ s.clustersOf q, s.partHasCluster p c = false)) ∧
     (s.input = .word q v →
       (q ∈ s.starting → goes .partitionEnable (s.startStep q)) ∧
       (q ∉ s.starting →
         (16 ≤ q ∨ v.getLsbD 63 = false ∨ on → goes .partitionEnable s) ∧
         (q < 16 → v.getLsbD 63 = true → ¬ on →
           (u.partOk q = false → goes .partitionEnable (u.hubSetFld (ptAddr q) 61 1 1)) ∧
           (u.partOk q = true → goes .partitionEnable (u.enablePart q))))) ∧
     (let block := s.hubFld (ptAddr q) 6 46 * 64
      let fails : Prop := (s.startStep q).hubFld (ptAddr q) 63 1 = 0 ∧ (s.startStep q).hubFld (ptAddr q) 61 1 = 1
      (∀ w, s.physWaits 0 (parts block 64) = some w → s.startStep q = w.defer .partitionEnable (.word q 0)) ∧
      (∀ e, s.physWaits 0 (parts block 64) = none → s.physRead 0 block 64 = .error e → fails) ∧
      (∀ n, s.physWaits 0 (parts block 64) = none → s.physRead 0 block 64 = .ok n → elemN n 64 7 ≠ 0 → fails)) ∧
     (let w (i : Nat) : Word := BitVec.ofNat 64 (x / 2 ^ (64 * i))
      let m := t.enabled x keys
      let took (mask old new : Word) : Word := old &&& ~~~mask ||| new &&& mask
      m.ptbase = took 0x000FFFFFFFFF0FFF t.ptbase (w 0) ∧ m.asn = took 0xFFFF t.asn (w 1) ∧ m.keyl = took 0x000FFFFFFFFFFFE0 t.keyl (w 2) ∧
      m.xvec = took 0x007FFFFFFFFFF800 t.xvec (w 3) ∧ m.xdvec = took 0x007FFFFFFFFFFFFC t.xdvec (w 4) ∧
      m.xpin = took 0x800FFFFFFFFF0FFF t.xpin (w 5) ∧ m.keys = keys ∧ m.g = t.g ∧ m.pc = t.pc ∧ m.run = t.run) ∧
     (Tab.get Cap.none firstCaps 0 = { kind := 2, rights := 2 ^ 1 + 2 ^ 2 + 2 ^ 3 + 2 ^ 15, base := 0, count := 2 ^ 64 } ∧
       Tab.get Cap.none firstCaps 1 = { kind := 1, rights := 2 ^ 1 + 2 ^ 2 + 2 ^ 15, base := 0, count := 32768 } ∧
       ∀ k, 2 ≤ k → Tab.get Cap.none firstCaps k = Cap.none) ∧
     (s.input = .num q →
       (16 ≤ q ∨ ¬ on → goes .partitionDisable s) ∧
       (q < 16 → on →
         (∀ w, s.disablePart q = .error w → goes .partitionDisable (w.defer .partitionDisable (.num q))) ∧
         ∀ w, s.disablePart q = .ok w → goes .partitionDisable w ∧ w.hubFld (ptAddr q) 63 1 = 0 ∧ q ∉ w.starting)) ∧
     (s.input = .num d →
       (4 ≤ d ∨ s.drstBusy d = true → goes .drstGo s) ∧
       (d < 4 → s.drstBusy d = false →
         (∀ w, s.quiesce d = .error w → goes .drstGo (w.defer .drstGo (.num d))) ∧
         ∀ z, s.quiesce d = .ok z → NextWith (exec .drstGo s) fun w => w.drstBusy d = true ∧ w.strands = z.strands ∧ w.mem = z.mem) ∧
       (4 ≤ d ∨ s.drstBusy d = false → goes .warmResetRetrain s) ∧
       (d < 4 → s.drstBusy d = true → s.bellIn = true → goes .warmResetRetrain (s.defer .warmResetRetrain (.num d))) ∧
       (d < 4 → s.drstBusy d = true → s.bellIn = false → s.dieInReset d = false →
         (∀ w, s.writeBackDie d = .error w → goes .warmResetRetrain (w.defer .warmResetRetrain (.num d))) ∧
         ∀ w, s.writeBackDie d = .ok w → goes .warmResetRetrain (({ w with fenced := w.fenced ++ [d] } : State).later .warmResetRetrain (.num d))) ∧
       (d < 4 → s.drstBusy d = true → s.bellIn = false → s.dieInReset d = true → s.incNamed ag inc = true →
         goes .warmResetRetrain (s.defer .warmResetRetrain (.num d))) ∧
       (d < 4 → s.drstBusy d = true → s.bellIn = false → s.dieInReset d = true → s.incNamed ag inc = false →
        NextWith (exec .warmResetRetrain s) fun w =>
         w.dieInReset d = false ∧ (∀ x, x ≠ d → w.dieInReset x = s.dieInReset x) ∧
         w.hubFld (hubAGINC + 8 * ag) 0 8 = inc ∧ w.hubFld (drstAddr d) 0 8 = inc ∧ w.drstBusy d = false ∧
         (∀ k, clusterOf k / 64 = d → w.strand k = Strand.reset) ∧ (∀ k, clusterOf k / 64 ≠ d → w.strand k = s.strand k) ∧
         (∀ b j, b < 8 → j < 4 → w.hubGet (mcAddr (8 * d + b) + 8 * j) = 0) ∧
         (∀ c, c / 256 = d → w.coreCache c = PCache.empty) ∧ (∀ c, c / 64 = d → w.clusterCache c = PCache.empty) ∧
         (∀ k, k % 512 / 2 / 64 = d → w.engine k = Engine.reset) ∧ (∀ x ∈ w.dieLines, x.agent ≠ ag))) ∧
     (s.input = .num2 x d →
       let far := if d = 4 then 32 + x else 4 * x + d
       let next := (s.hubFld (hubAGINC + 8 * far) 0 8 + 1) % 256
       let gone : State := { s with acks := s.acks.filter fun m => m.agent != far, recalls := s.recalls.filter fun m => m.1.agent != far,
                                    cohOwed := s.cohOwed.filter fun r => r.msg.agent != far }
       (8 ≤ x ∨ 5 ≤ d ∨ x = s.selfIdx → goes .warmResetRetrain s) ∧
       (x < 8 → d < 5 → x ≠ s.selfIdx → s.incNamed far next = true → goes .warmResetRetrain (s.defer .warmResetRetrain (.num2 x d))) ∧
       (x < 8 → d < 5 → x ≠ s.selfIdx → s.incNamed far next = false →
         goes .warmResetRetrain (gone.payReplies.hubSetFld (hubAGINC + 8 * far) 0 8 next).resume)) ∧
     (let y := s.cleanAgent ag
      let home (a _ : Nat) : Bool := s.homedOn d a
      (∀ l ∈ y.dieLines, l.agent = ag → l.dirty = false) ∧ y.mem = s.mem ∧
      (∀ e, y.recallLines home = .error e → s.writeBackDie d = .error e) ∧
      ∀ z, y.recallLines home = .ok z → ∃ w, s.writeBackDie d = .ok w ∧ w.mem = (z.encodeLines home).mem ∧
        (∀ l ∈ w.dieLines, w.homedOn d (l.tag.line * 512) = false) ∧ ∀ e ∈ w.dir, s.homedOn d (e.1 / 4096 * 512) = false) ∧
     ((∀ e, s.endPartition q = .error e → s.disablePart q = .error e) ∧
      ∀ z, s.endPartition q = .ok z →
        let y := z.drainAside
        let under (_ k : Nat) : Bool := y.partKey q k
        ((∃ x ∈ y.aside, y.partOf x.1 = some q) → s.disablePart q = .error y) ∧
        ((∀ x ∈ y.aside, y.partOf x.1 ≠ some q) →
          (∀ e, y.purgeAll under = .error e → s.disablePart q = .error e) ∧
          ∀ w, y.purgeAll under = .ok w → ∃ t, s.disablePart q = .ok t ∧ t.decoded = (w.encodeLines under).decoded ∧
            (∀ l ∈ t.dieLines, y.partKey q l.tag.key = false) ∧ ∀ e ∈ t.dir, y.partKey q (e.1 % 4096) = false)))

/-- R434, R440, R441, R446; the grain of a host's request (log 131) and what its configuration space holds (log 141) are the model's. -/
def Obligations.AttestationHostAndDebugSteps : Prop :=
  ∀ (n a q r key : Nat) (w : Option Nat) (ok : Bool) (rd : DebugRead) (s : State),
    let goes (i : Instr) (t : State) : Prop := exec i s = .next t
    let answers (i : Instr) (rq : SpdmRequest) (l : List SpdmItem) : Prop := goes i { s with spdm := s.spdm ++ [{ request := rq, report := l }] }
    let ag := 32 + s.selfIdx
    let done (u : State) (x : HostAnswer) : State := { u with hostOut := u.hostOut ++ [x] }
    let modes := [(16, 32), (16, 64), (16, 128), (8, 32), (8, 64), (8, 128), (4, 32), (4, 64), (4, 128)]
    answers .getVersion .version [.version 1 2] ∧ answers .getCapabilities .capabilities [] ∧
    answers .negotiateAlgorithms .algorithms [.algorithm .slhDsaShake256s true, .algorithm .shake256 false] ∧
    answers .getDigests .digests [.chainDigest (Config.chainDigest s.deviceKey)] ∧ answers .getCertificate .certificate [.deviceKey s.deviceKey] ∧
    (∃ l, answers .getMeasurements .measurements l ∧ l.head? = some (.romVersion Config.romVersion) ∧
      ∀ p ∈ [(2, 1), (3, 2), (4, 3), (5, 4)], ∀ i, s.loaded.find? (fun y => y.kind == p.2) = some i →
        SpdmItem.measurement p.1 (if p.1 = 5 then tableMeasure i.digest s.tableRev else i.digest) i.seq ∈ l) ∧
    (∀ x, tableMeasure x 0 = x ∧ ∀ m, tableMeasure x (m + 1) ≠ tableMeasure x m) ∧
    (s.input = .num n → answers .challenge .challenge [.chainDigest (Config.chainDigest s.deviceKey), .signature (Config.attest s.deviceKey n)]) ∧
    (s.input = .host a n w →
      (s.hostLink = none ∨ n = 0 ∨ 64 < a % 64 + n → goes .hostRequest s) ∧
      (s.hostLink ≠ none → n ≠ 0 → a % 64 + n ≤ 64 →
        (s.hostRange a = none → goes .hostRequest (done s .unsupported)) ∧
        ∀ p k, s.hostRange a = some (p, k) →
          (s.bellIn = true → goes .hostRequest (s.defer .hostRequest s.input)) ∧
          (∀ e, s.bellIn = false → s.hostPresent p k a w.isSome = .error e → goes .hostRequest (done (s.logError e.1 e.2 k p 0).2 .error)) ∧
          ∀ t, s.bellIn = false → s.hostPresent p k a w.isSome = .ok t →
            let c := s.scrub k t n
            let held := c.hostWaits w.isNone k n t
            (∀ u, held = some u → goes .hostRequest (u.defer .hostRequest c.input)) ∧
            (∀ b, held = none → w = some b → goes .hostRequest (done (c.homeWrite (some c.hostAgent) k t 512 n (2 ^ n - 1) b) .written)) ∧
            (held = none → w = none →
              (∀ e, c.readTarget k t n = .error e → goes .hostRequest (done (c.logError e.1 e.2 k p 0).2 .error)) ∧
              ∀ x, c.readTarget k t n = .ok x →
                (c.unrecorded t = true → goes .hostRequest (done c (.data x))) ∧
                (c.unrecorded t = false → goes .hostRequest (done (c.onGrains k t n 512 fun ga gsz g st =>
                  (g.rdSFar c.hostAgent (st.incOf c.hostAgent) (st.grainBytes k t ga gsz), st)) (.data x)))))) ∧
    (s.input = .hostSpace a n w →
      (s.hostLink = none → goes .hostRequest s) ∧
      (s.hostLink ≠ none →
        (16384 < a + n → goes .hostRequest (done s .unsupported)) ∧
        (a + n ≤ 16384 → w = none → goes .hostRequest (done s (.data (Memory.read s.hostSpace a n)))) ∧
        ∀ b, a + n ≤ 16384 → w = some b →
          goes .hostRequest (done { s with hostSpace := Memory.write s.hostSpace a n (b % 2 ^ (8 * n)) } .written))) ∧
    (∀ p k wr, 2 ^ 48 ≤ a → s.hostPresent p k a wr = .error (1, a)) ∧
    (s.hostAgent = ag) ∧
    (∀ t k share, s.hostWaits share k n t = none ↔
      (s.heldAbroad share k t n = false ∨ s.hostOwns k t = true) ∧ s.homeBusy k t n = false ∧ s.entryWaits t k = none) ∧
    (∀ p k, s.hostRange a = some (p, k) → ∃ j, j < 8 ∧
      let x := s.hubGet (hubHOST + 16 * j)
      x.getLsbD 63 = true ∧ p = x.toNat / 2 ^ 52 % 2 ^ 4 ∧ k = x.toNat % 2 ^ 12 ∧ x.toNat / 2 ^ 16 % 2 ^ 36 * 65536 ≤ a ∧
      a < x.toNat / 2 ^ 16 % 2 ^ 36 * 65536 + s.hubFld (hubHOST + 16 * j + 8) 0 36 * 65536) ∧
    (s.input = .num2 q r →
      (s.hostLink = none → (q, r) ∈ modes → goes .hostLinkUp { s with hostLink := some (q, r) }) ∧
      (s.hostLink ≠ none ∨ (q, r) ∉ modes → goes .hostLinkUp s)) ∧
    (s.hostLink = none → goes .hostLinkDown s) ∧
    (s.hostLink ≠ none →
      let u := (({ s with hostLink := none } : State).scrubAgent ag).forgetAgent ag
      (∀ m ∈ u.acks, m.agent ≠ ag) ∧ (∀ m ∈ u.recalls, m.1.agent ≠ ag) ∧ u.strands = s.strands ∧
      goes .hostLinkDown ((u.hubSetFld (hubAGINC + 8 * ag) 0 8 ((u.incOf ag + 1) % 256)).scrubAgent ag).resume) ∧
    (s.input = .debug rd →
      let readable (b : Nat) : Prop := b = hubBOOT ∨ (∃ j, j < 40 ∧ b = hubRHL + 0x1000 + j) ∨ (∃ j, j < 2048 ∧ b = hubRHL + j) ∨
        (∃ m j, m < 37 ∧ j < 32 ∧ b = hubMC + 64 * m + j) ∨ ∃ j, j < 1032 ∧ b = hubMEL + j
      ∃ x, goes .debugToken { s with debugOut := s.debugOut ++ [x] } ∧ (rd = .bypass → x = .bypass) ∧ (rd = .idcode → x = .idcode 0x0A4C6E35) ∧
        (rd = .boundary → (s.heldReset = true → x = .boundary (Config.boundary s.steps)) ∧ (s.heldReset = false → x = .silent)) ∧
        ∀ b, rd = .register b → (readable b → b % 8 = 0 → x = .register (s.readHub b)) ∧ (¬ readable b ∨ b % 8 ≠ 0 → x = .silent)) ∧
    (∀ b, (∀ j, j < 1024 → b ≠ hubMEL + j) → s.readHub b = s.hubGet b) ∧
    (s.input = .outcome q ok →
      (ok = true → q < 16 → goes .debugToken { s with debugToken := some q }) ∧ (ok = false ∨ 16 ≤ q → goes .debugToken s)) ∧
    (s.input = .num2 key n →
      let may : Prop := ∃ p, s.debugToken = some p ∧ s.partOf key = some p
      (may → 1 ≤ n → n ≤ 3 → goes .debugStop (s.setStrand key { s.strand key with debugPend := some n })) ∧
      (¬ may ∨ n = 0 ∨ 3 < n → goes .debugStop s))

/-! ## Reset and the invariant -/

/-- R5, R138, R195, R237, R284, R312, R370, R400, R433; log 2 and log 3. -/
def Obligations.ResetValues : Prop :=
  ∀ (key : Nat) (n : SysReg),
    let s : State := { State.reset with cur := key }
    let t := State.reset.strand key
    State.reset.mem = [] ∧ Memory.wf State.reset.mem = true ∧ State.reset.fatal = false ∧ State.reset.bellIn = false ∧
    s.SR .sid = BitVec.ofNat 64 (key % 2048) ∧ s.SR .cid = BitVec.ofNat 64 (key % 2048 / 2 % 4) ∧
    s.SR .kid = BitVec.ofNat 64 (key % 2048 / 8 % 64) ∧ s.SR .did = BitVec.ofNat 64 (key % 2048 / 512) ∧
    s.SR .ebind = BitVec.ofNat 64 (key % 2048 / 2 % 4 / 2 * 4) ∧ s.SR .xpdl = 250000 ∧
    (n ∉ [.sid, .cid, .kid, .did, .ebind, .xpdl, .bpeal, .blen, .bnext] → s.SR n = 0) ∧
    (∀ r : R32, s.G r = 0 ∧ s.V r = 0) ∧ (∀ p : R8, s.PR p = decide (p = 0)) ∧ t.pc = 0 ∧ t.sup = true ∧ t.run = .free ∧
    (∀ a, a < hubIRD + 0x50000 → State.reset.hubGet a = 0) ∧
    (∀ d h, d < 4 → h < 128 → State.reset.sliceNew d h = h ∧ State.reset.sliceCur d h = h) ∧
    (∀ d, d < 4 → State.reset.hubGet (slCtl d) = 0xFF) ∧
    (∀ c ch, c < 256 → ch < 8 → State.reset.hubFld (hubCP + 8 * c) (8 * ch) 8 = 0x80 + ch) ∧
    State.reset.hubGet (hubFC + 136) = 1000 ∧ (∀ c, c < 256 → State.reset.hubGet (lvcAddr c) = 40) ∧
    (∀ d, d < 4 → State.reset.hubGet (lvdAddr d) = 2560) ∧ State.reset.hubGet lvmAddr = BitVec.ofNat 64 (10240 * 2 ^ 16 + 10240) ∧
    (∀ q, q < 16 → State.reset.partEnabled q = false) ∧ ∀ m, m < 32768 → State.reset.hubGet (hubWIN + 64 * m) = 0

/-- The invariant of the memory's representation, over every state. -/
def Obligations.StepKeepsMemoryCanonical : Prop :=
  ∀ s t : State, Memory.wf s.mem = true → step s = .next t → Memory.wf t.mem = true
end

