-- ==== Sys2Proof/Laws/Tab.lean ====
section
/-!
SUPPORT. Sparse tables: reading after writing, and the canonical form that every operation keeps.
-/
namespace Sys2Proof.Machine.Tab

variable {α : Type}

theorem get_drop (d : α) (p : Nat → Bool) (t : Tab α) (k : Nat) :
    get d (drop p t) k = if p k then d else get d t k := by
  induction t with
  | nil => simp [drop, get]
  | cons e t ih =>
    obtain ⟨k', v⟩ := e
    simp only [drop, List.filter_cons] at ih ⊢
    cases h : p k' with
    | true =>
      simp only [Bool.not_true, Bool.false_eq_true, ↓reduceIte, ih, get]
      by_cases hk : k' = k
      · subst hk; simp [h]
      · simp [hk]
    | false =>
      simp only [Bool.not_false, ↓reduceIte, get, ih]
      by_cases hk : k' = k
      · subst hk; simp [h]
      · simp [hk]

theorem get_insert (d v : α) (t : Tab α) (k k2 : Nat) (h : ∀ e ∈ t, e.1 ≠ k) :
    get d (insert k v t) k2 = if k = k2 then v else get d t k2 := by
  induction t with
  | nil => simp [insert, get]
  | cons e t ih =>
    obtain ⟨k', v'⟩ := e
    have hk : k' ≠ k := h (k', v') (by simp)
    have ht := ih fun e he => h e (by simp [he])
    simp only [insert]
    by_cases hlt : k < k'
    · simp [hlt, get]
    · simp only [hlt, ↓reduceIte, get, ht]
      by_cases h2 : k' = k2
      · subst h2; simp [Ne.symm hk]
      · simp [h2]

/-- Reading a table after a write, at every key and whatever the table holds. -/
theorem get_set [DecidableEq α] (d v : α) (t : Tab α) (k k2 : Nat) :
    get d (set d t k v) k2 = if k = k2 then v else get d t k2 := by
  unfold set
  split
  · subst v; rw [get_drop]; by_cases h : k = k2
    · subst h; simp
    · simp [h, Ne.symm h]
  · rw [get_insert, get_drop]
    · by_cases h : k = k2
      · simp [h]
      · simp [h, Ne.symm h]
    · intro e he; simp only [drop, List.mem_filter] at he; simpa using he.2

@[simp] theorem get_set_same [DecidableEq α] (d v : α) (t : Tab α) (k : Nat) : get d (set d t k v) k = v := by
  simp [get_set]

theorem get_set_other [DecidableEq α] (d v : α) (t : Tab α) (k k2 : Nat) (h : k2 ≠ k) :
    get d (set d t k v) k2 = get d t k2 := by
  simp [get_set, Ne.symm h]

/-! ## The canonical form -/

theorem above_iff (k : Nat) (t : Tab α) : above k t = true ↔ ∀ e ∈ t, k < e.1 := by simp [above]

theorem wf_cons [DecidableEq α] (d v : α) (k : Nat) (t : Tab α) :
    wf d ((k, v) :: t) = true ↔ (∀ e ∈ t, k < e.1) ∧ v ≠ d ∧ wf d t = true := by
  simp [wf, above_iff, and_assoc]

theorem mem_insert (k : Nat) (v : α) (t : Tab α) (e : Nat × α) : e ∈ insert k v t ↔ e = (k, v) ∨ e ∈ t := by
  induction t with
  | nil => simp [insert]
  | cons x t ih =>
    simp only [insert]
    split
    · simp
    · simp [ih]; grind

theorem wf_drop [DecidableEq α] (d : α) (p : Nat → Bool) (t : Tab α) (h : wf d t = true) : wf d (drop p t) = true := by
  induction t with
  | nil => rfl
  | cons e t ih =>
    obtain ⟨k, v⟩ := e
    rw [wf_cons] at h
    simp only [drop, List.filter_cons]
    split
    · exact (wf_cons d v k _).2 ⟨fun e he => h.1 e (List.mem_filter.1 he).1, h.2.1, ih h.2.2⟩
    · exact ih h.2.2

theorem wf_insert [DecidableEq α] (d v : α) (k : Nat) (t : Tab α) (h : wf d t = true) (hk : ∀ e ∈ t, e.1 ≠ k) (hv : v ≠ d) :
    wf d (insert k v t) = true := by
  induction t with
  | nil => simp [insert, wf, above, hv]
  | cons e t ih =>
    obtain ⟨k', v'⟩ := e
    have h' := (wf_cons d v' k' t).1 h
    simp only [insert]
    split
    · rename_i hlt
      refine (wf_cons d v k _).2 ⟨fun e he => ?_, hv, h⟩
      rcases List.mem_cons.1 he with rfl | he
      · exact hlt
      · exact Nat.lt_trans hlt (h'.1 e he)
    · rename_i hlt
      have hne := hk (k', v') (by simp)
      refine (wf_cons d v' k' _).2 ⟨fun e he => ?_, h'.2.1, ih h'.2.2 fun e he => hk e (by simp [he])⟩
      rcases (mem_insert k v t e).1 he with rfl | he
      · simp only; omega
      · exact h'.1 e he

/-- A write keeps the canonical form. -/
theorem wf_set [DecidableEq α] (d v : α) (t : Tab α) (k : Nat) (h : wf d t = true) : wf d (set d t k v) = true := by
  unfold set
  split
  · exact wf_drop d _ t h
  · rename_i hv
    refine wf_insert d v k _ (wf_drop d _ t h) (fun e he => ?_) hv
    simp only [drop, List.mem_filter] at he; simpa using he.2

/-- Tables in canonical form that read alike are equal. -/
theorem wf_ext [DecidableEq α] (d : α) (t u : Tab α) (ht : wf d t = true) (hu : wf d u = true)
    (h : ∀ k, get d t k = get d u k) : t = u := by
  have low : ∀ (t : Tab α) (k : Nat), (∀ e ∈ t, k < e.1) → get d t k = d := by
    intro t
    induction t with
    | nil => intros; rfl
    | cons e t ih =>
      intro k hk
      obtain ⟨k', v⟩ := e
      have := hk (k', v) (by simp)
      simp only [get]
      split
      · simp only at this; omega
      · exact ih k fun e he => hk e (by simp [he])
  induction t generalizing u with
  | nil =>
    cases u with
    | nil => rfl
    | cons e u =>
      obtain ⟨k, v⟩ := e
      have hu' := (wf_cons d v k u).1 hu
      have := h k
      simp [get] at this
      exact absurd this.symm hu'.2.1
  | cons e t ih =>
    obtain ⟨k, v⟩ := e
    have ht' := (wf_cons d v k t).1 ht
    cases u with
    | nil => have := h k; simp [get] at this; exact absurd this ht'.2.1
    | cons f u =>
      obtain ⟨k2, v2⟩ := f
      have hu' := (wf_cons d v2 k2 u).1 hu
      have hkk : k = k2 := by
        rcases Nat.lt_trichotomy k k2 with hlt | he | hlt
        · have h1 := h k
          have : get d ((k2, v2) :: u) k = d := low _ k fun e he => by
            rcases List.mem_cons.1 he with rfl | he
            · exact hlt
            · exact Nat.lt_trans hlt (hu'.1 e he)
          rw [this] at h1; simp [get] at h1; exact absurd h1 ht'.2.1
        · exact he
        · have h1 := h k2
          have : get d ((k, v) :: t) k2 = d := low _ k2 fun e he => by
            rcases List.mem_cons.1 he with rfl | he
            · exact hlt
            · exact Nat.lt_trans hlt (ht'.1 e he)
          rw [this] at h1; simp [get] at h1; exact absurd h1.symm hu'.2.1
      subst hkk
      have hv : v = v2 := by have := h k; simpa [get] using this
      subst hv
      congr 1
      refine ih u ht'.2.2 hu'.2.2 fun j => ?_
      by_cases hj : k = j
      · subst hj; rw [low t k ht'.1, low u k hu'.1]
      · have := h j; simpa [get, hj] using this

end Sys2Proof.Machine.Tab
end

