-- ==== Sys2Proof/Laws/Memory.lean ====
section
/-!
SUPPORT. Main memory: a write keeps the canonical form, a read after a write gives what was written, and every other byte is
as it was.
-/
namespace Sys2Proof.Machine.Memory

/-- The byte of memory at `k`. -/
theorem read_one (m : List Host.Cell) (k : Nat) (h : Memory.wf m = true) : read m k 1 = (Tab.get (0 : Byte) m k).toNat := by
  induction m with
  | nil => simp [read, Tab.get]
  | cons e t ih =>
    obtain ⟨k', b⟩ := e
    have h' := (Tab.wf_cons 0 b k' t).1 h
    simp only [read, Tab.get]
    split
    · rw [ih h'.2.2, if_neg (by omega)]
    · split
      · have hk : k' = k := by omega
        subst hk
        have : read t k' 1 = 0 := by
          rw [ih h'.2.2]
          have low : ∀ (t : Tab Byte), (∀ e ∈ t, k' < e.1) → Tab.get (0 : Byte) t k' = 0 := by
            intro t
            induction t with
            | nil => intros; rfl
            | cons e t ih =>
              intro hk
              simp only [Tab.get]
              have := hk e (by simp)
              rw [if_neg (by omega)]
              exact ih fun e he => hk e (by simp [he])
          rw [low t h'.1]; rfl
        simp [this]
      · have low : ∀ (t : Tab Byte), (∀ e ∈ t, k < e.1) → Tab.get (0 : Byte) t k = 0 := by
          intro t
          induction t with
          | nil => intros; rfl
          | cons e t ih =>
            intro hk
            simp only [Tab.get]
            have := hk e (by simp)
            rw [if_neg (by omega)]
            exact ih fun e he => hk e (by simp [he])
        rw [if_neg (by omega), low t fun e he => by have := h'.1 e he; omega]; rfl

theorem cells_range (n k x : Nat) : ∀ e ∈ cells n k x, k ≤ e.1 ∧ e.1 < k + n := by
  induction n generalizing k x with
  | zero => simp [cells]
  | succ n ih =>
    intro e he
    simp only [cells] at he
    split at he
    · have := ih _ _ e he; omega
    · rcases List.mem_cons.1 he with rfl | he
      · simp only; omega
      · have := ih _ _ e he; omega

theorem wf_cells (n k x : Nat) : Tab.wf (0 : Byte) (cells n k x) = true := by
  induction n generalizing k x with
  | zero => rfl
  | succ n ih =>
    simp only [cells]
    split
    · exact ih _ _
    · rename_i hx
      refine (Tab.wf_cons _ _ _ _).2 ⟨fun e he => ?_, ?_, ih _ _⟩
      · have := cells_range _ _ _ e he; omega
      · intro h0
        have := congrArg BitVec.toNat h0
        simp at this; omega

theorem get_cells (n k x a : Nat) :
    Tab.get (0 : Byte) (cells n k x) a = if k ≤ a ∧ a < k + n then BitVec.ofNat 8 (x / 256 ^ (a - k)) else 0 := by
  induction n generalizing k x with
  | zero => simp only [cells, Tab.get]; rw [if_neg (by omega)]
  | succ n ih =>
    simp only [cells]
    split
    · rename_i hx
      rw [ih]
      by_cases ha : a = k
      · subst ha
        rw [if_neg (by omega), if_pos (by omega)]
        apply BitVec.eq_of_toNat_eq; simp [hx]
      · by_cases hr : k ≤ a ∧ a < k + (n + 1)
        · rw [if_pos (by omega), if_pos hr]
          have : a - k = (a - (k + 1)) + 1 := by omega
          rw [this, Nat.pow_succ, Nat.mul_comm, ← Nat.div_div_eq_div_mul]
        · rw [if_neg (by omega), if_neg hr]
    · simp only [Tab.get]
      by_cases ha : a = k
      · subst ha
        rw [if_pos rfl, if_pos (by omega)]; simp
      · rw [if_neg (by omega), ih]
        by_cases hr : k ≤ a ∧ a < k + (n + 1)
        · rw [if_pos (by omega), if_pos hr]
          have : a - k = (a - (k + 1)) + 1 := by omega
          rw [this, Nat.pow_succ, Nat.mul_comm, ← Nat.div_div_eq_div_mul]
        · rw [if_neg (by omega), if_neg hr]

theorem wf_append (t u : List Host.Cell) (k : Nat) (ht : Memory.wf t = true) (hu : Memory.wf u = true)
    (h1 : ∀ e ∈ t, e.1 < k) (h2 : ∀ e ∈ u, k ≤ e.1) : Memory.wf (t ++ u) = true := by
  induction t with
  | nil => exact hu
  | cons e t ih =>
    obtain ⟨k', b⟩ := e
    have h' := (Tab.wf_cons 0 b k' t).1 ht
    refine (Tab.wf_cons 0 b k' _).2 ⟨fun e he => ?_, h'.2.1, ih h'.2.2 fun e he => h1 e (by simp [he])⟩
    rcases List.mem_append.1 he with he | he
    · exact h'.1 e he
    · have := h1 (k', b) (by simp); have := h2 e he; simp only at *; omega

theorem get_append (t u : List Host.Cell) (k a : Nat) (h1 : ∀ e ∈ t, e.1 < k) (h2 : ∀ e ∈ u, k ≤ e.1) :
    Tab.get (0 : Byte) (t ++ u) a = if a < k then Tab.get (0 : Byte) t a else Tab.get (0 : Byte) u a := by
  have low : ∀ (u : List Host.Cell), (∀ e ∈ u, k ≤ e.1) → a < k → Tab.get (0 : Byte) u a = 0 := by
    intro u
    induction u with
    | nil => intros; rfl
    | cons e u ih =>
      intro hk ha
      have := hk e (by simp)
      simp only [Tab.get]
      rw [if_neg (by omega)]
      exact ih (fun e he => hk e (by simp [he])) ha
  induction t with
  | nil =>
    simp only [List.nil_append, Tab.get]
    split
    · rename_i ha; exact low u h2 ha
    · rfl
  | cons e t ih =>
    have hk := h1 e (by simp)
    have := ih fun e he => h1 e (by simp [he])
    simp only [List.cons_append, Tab.get, this]
    by_cases he : e.1 = a
    · rw [if_pos he, if_pos (by omega), if_pos he]
    · simp [he]

/-- What is left of a list in canonical form below and from a key on. -/
theorem takeWhile_lt (m : List Host.Cell) (k : Nat) : ∀ e ∈ m.takeWhile (fun c => decide (c.1 < k)), e.1 < k := by
  intro e he
  have := List.all_takeWhile (l := m) (p := fun c => decide (c.1 < k))
  simpa using List.all_eq_true.1 this e he

theorem wf_takeWhile (m : List Host.Cell) (k : Nat) (h : Memory.wf m = true) :
    Memory.wf (m.takeWhile fun c => decide (c.1 < k)) = true := by
  induction m with
  | nil => rfl
  | cons e t ih =>
    obtain ⟨k', b⟩ := e
    have h' := (Tab.wf_cons 0 b k' t).1 h
    simp only [List.takeWhile_cons]
    split
    · exact (Tab.wf_cons 0 b k' _).2 ⟨fun e he => h'.1 e ((List.takeWhile_sublist _).subset he), h'.2.1, ih h'.2.2⟩
    · rfl

theorem dropWhile_ge (m : List Host.Cell) (k : Nat) (h : Memory.wf m = true) :
    (∀ e ∈ m.dropWhile (fun c => decide (c.1 < k)), k ≤ e.1) ∧ Memory.wf (m.dropWhile fun c => decide (c.1 < k)) = true := by
  induction m with
  | nil => exact ⟨by simp, rfl⟩
  | cons e t ih =>
    obtain ⟨k', b⟩ := e
    have h' := (Tab.wf_cons 0 b k' t).1 h
    simp only [List.dropWhile_cons]
    split
    · exact ih h'.2.2
    · rename_i hk
      simp only [decide_eq_true_eq] at hk
      refine ⟨fun e he => ?_, h⟩
      rcases List.mem_cons.1 he with rfl | he
      · simp only; omega
      · have := h'.1 e he; omega

theorem get_takeWhile (m : List Host.Cell) (k a : Nat) (h : Memory.wf m = true) :
    Tab.get (0 : Byte) (m.takeWhile fun c => decide (c.1 < k)) a = if a < k then Tab.get (0 : Byte) m a else 0 := by
  induction m with
  | nil => simp [Tab.get]
  | cons e t ih =>
    obtain ⟨k', b⟩ := e
    have h' := (Tab.wf_cons 0 b k' t).1 h
    simp only [List.takeWhile_cons]
    split
    · rename_i hk
      simp only [decide_eq_true_eq] at hk
      simp only [Tab.get, ih h'.2.2]
      by_cases ha : k' = a
      · rw [if_pos ha, if_pos (by omega), if_pos ha]
      · simp [ha]
    · rename_i hk
      simp only [decide_eq_true_eq] at hk
      have low : ∀ (t : Tab Byte), (∀ e ∈ t, k' < e.1) → a < k → Tab.get (0 : Byte) t a = 0 := by
        intro t
        induction t with
        | nil => intros; rfl
        | cons e t ih =>
          intro hk2 ha
          have := hk2 e (by simp)
          simp only [Tab.get]
          rw [if_neg (by omega)]
          exact ih (fun e he => hk2 e (by simp [he])) ha
      simp only [Tab.get]
      split
      · rename_i ha
        rw [if_neg (by omega), low t h'.1 ha]
      · rfl

theorem get_dropWhile (m : List Host.Cell) (k a : Nat) (h : Memory.wf m = true) (ha : k ≤ a) :
    Tab.get (0 : Byte) (m.dropWhile fun c => decide (c.1 < k)) a = Tab.get (0 : Byte) m a := by
  induction m with
  | nil => rfl
  | cons e t ih =>
    obtain ⟨k', b⟩ := e
    have h' := (Tab.wf_cons 0 b k' t).1 h
    simp only [List.dropWhile_cons]
    split
    · rename_i hk
      simp only [decide_eq_true_eq] at hk
      rw [ih h'.2.2]; simp only [Tab.get]; rw [if_neg (by omega)]
    · rfl

/-- A write keeps the canonical form. -/
theorem wf_write (m : List Host.Cell) (k n x : Nat) (h : Memory.wf m = true) : Memory.wf (write m k n x) = true := by
  unfold write
  obtain ⟨hge, hwf⟩ := dropWhile_ge m (k + n) h
  refine wf_append _ _ (k + n) (wf_append _ _ k (wf_takeWhile m k h) (wf_cells n k x) (takeWhile_lt m k)
    fun e he => (cells_range n k x e he).1) hwf (fun e he => ?_) hge
  rcases List.mem_append.1 he with he | he
  · have := takeWhile_lt m k e he; omega
  · exact (cells_range n k x e he).2

/-- The bytes of memory after a write: those of `x` where it was written, every other as before. -/
theorem get_write (m : List Host.Cell) (k n x a : Nat) (h : Memory.wf m = true) :
    Tab.get (0 : Byte) (write m k n x) a =
      if k ≤ a ∧ a < k + n then BitVec.ofNat 8 (x / 256 ^ (a - k)) else Tab.get (0 : Byte) m a := by
  unfold write
  obtain ⟨hge, -⟩ := dropWhile_ge m (k + n) h
  rw [get_append _ _ (k + n) a (fun e he => ?_) hge, get_append _ _ k a (takeWhile_lt m k) fun e he => (cells_range n k x e he).1,
    get_cells, get_takeWhile m k a h]
  · by_cases h1 : a < k
    · rw [if_pos (by omega), if_pos h1, if_pos h1, if_neg (by omega)]
    · by_cases h2 : a < k + n
      · rw [if_pos h2, if_neg h1, if_pos (by omega), if_pos (by omega)]
      · rw [if_neg h2, get_dropWhile m (k + n) a h (by omega), if_neg (by omega)]
  · rcases List.mem_append.1 he with he | he
    · have := takeWhile_lt m k e he; omega
    · exact (cells_range n k x e he).2

/-- A byte read after a write. -/
theorem read_write (m : List Host.Cell) (k n x a : Nat) (h : Memory.wf m = true) :
    read (write m k n x) a 1 = if k ≤ a ∧ a < k + n then x / 256 ^ (a - k) % 256 else read m a 1 := by
  rw [read_one _ _ (wf_write m k n x h), get_write m k n x a h, read_one m a h]
  split
  · simp
  · rfl

/-- Bytes that a write does not touch are as before. -/
theorem read_write_other (m : List Host.Cell) (k n x a : Nat) (h : Memory.wf m = true) (ha : a < k ∨ k + n ≤ a) :
    read (write m k n x) a 1 = read m a 1 := by
  rw [read_write m k n x a h, if_neg (by omega)]

/-- Leaving out entries keeps the canonical form. -/
theorem wf_filter (m : List Host.Cell) (p : Host.Cell → Bool) (h : Memory.wf m = true) : Memory.wf (m.filter p) = true := by
  induction m with
  | nil => rfl
  | cons e t ih =>
    obtain ⟨k, v⟩ := e
    have h' := (Tab.wf_cons 0 v k t).1 h
    simp only [List.filter_cons]
    split
    · exact (Tab.wf_cons 0 v k _).2 ⟨fun e he => h'.1 e (List.mem_filter.1 he).1, h'.2.1, ih h'.2.2⟩
    · exact ih h'.2.2

end Sys2Proof.Machine.Memory
end

