-- ==== Sys2Proof/Laws/PerInstr.lean ====
section
/-!
SUPPORT. A statement about every instruction, proved constructor by constructor: its fields fit the format they are packed
into (R27, R29), so that packing loses no bit of them.
-/
namespace Sys2Proof.Laws.EncodingFits

/-- A word of format S is even and has 32 bits; the fields of formats M and L fit their widths, and M has no literal. -/
def Fits : Enc → Prop
  | .short w => w % 2 = 0 ∧ w < 2 ^ 32
  | .mid r => rawFits r ∧ r.lit = 0
  | .long r => rawFits r

def Statement (i : Instr) : Prop := ∀ e, i.fields = some e → Fits e

theorem ty_lt (t : Ty) : t.code < 16 := by cases t <;> decide
theorem cond_lt (c : Cond) : c.code < 16 := by cases c <;> decide
theorem scope_lt (c : Scope) : c.code < 6 := by cases c <;> decide
theorem order_lt (c : Order) : c.code < 4 := by cases c <;> decide
theorem rm_lt (c : Rm) : c.code < 4 := by cases c <;> decide
theorem sysReg_lt (n : SysReg) : n.number < 1024 := by
  cases n <;> first | decide | (simp only [SysReg.number]; omega)
theorem bool_lt (b : Bool) : b.toNat < 2 := by cases b <;> decide
theorem tile_lt (x : TileName) : x.code < 64 := by
  cases x with
  | t i => have := i.isLt; simp only [TileName.code]; omega
  | a i => have := i.isLt; simp only [TileName.code]; omega
  | w => decide
  | ws => decide
theorem bcast_lt (b : BcastOp) : b.code < 256 := by
  cases b <;> simp only [BcastOp.code] <;> (try split) <;> first | decide | (have := rm_lt ‹Rm›; omega)
theorem ordScope_lt (k : Nat) (x : Option Scope) (h : k < 4) : ordScopeCode k x < 32 := by
  cases x with
  | none => simp [ordScopeCode]
  | some c => have := scope_lt c; simp only [ordScopeCode]; omega

/-- The fields of the header every format-M and format-L word has, in the form the encoder writes them. -/
theorem mid_fits (h : Hdr) {op d a b fn ty m z imm : Nat} (hop : op < 64) (hd : d < 64) (ha : a < 64) (hb : b < 64)
    (hfn : fn < 256) (hty : ty < 16) (hm : m < 8) (hz : z < 2) (hi : imm < 16384) :
    Fits (.mid { op := op, fn := fn, gp := h.gp.val, gn := h.gn.toNat, lu := h.lu.toNat, tmp := h.tmp.toNat, d := d, a := a,
                 b := b, ty := ty, m := m, z := z, imm := imm }) :=
  ⟨⟨hop, h.gp.isLt, bool_lt _, hd, ha, hb, h.lu.isLt, h.tmp.isLt, hfn, hty, hm, hz, hi, Nat.zero_lt_succ _⟩, rfl⟩
theorem long_fits (h : Hdr) {op d a b fn ty m z imm : Nat} (l : BitVec 32) (hop : op < 64) (hd : d < 64) (ha : a < 64) (hb : b < 64)
    (hfn : fn < 256) (hty : ty < 16) (hm : m < 8) (hz : z < 2) (hi : imm < 16384) :
    Fits (.long { op := op, fn := fn, gp := h.gp.val, gn := h.gn.toNat, lu := h.lu.toNat, tmp := h.tmp.toNat, d := d, a := a,
                  b := b, ty := ty, m := m, z := z, imm := imm, lit := l.toNat }) :=
  ⟨hop, h.gp.isLt, bool_lt _, hd, ha, hb, h.lu.isLt, h.tmp.isLt, hfn, hty, hm, hz, hi, l.isLt⟩

end Sys2Proof.Laws.EncodingFits

theorem Sys2Proof.Laws.EncodingFits.add (d : R32) (a : R32) (b : R32) :
    Statement (.add d a b) := by
  rintro e ⟨⟩
  have := d.isLt
  have := a.isLt
  have := b.isLt
  simp only [Fits, rr]
  omega

theorem Sys2Proof.Laws.EncodingFits.sub (d : R32) (a : R32) (b : R32) :
    Statement (.sub d a b) := by
  rintro e ⟨⟩
  have := d.isLt
  have := a.isLt
  have := b.isLt
  simp only [Fits, rr]
  omega

theorem Sys2Proof.Laws.EncodingFits.and (d : R32) (a : R32) (b : R32) :
    Statement (.and d a b) := by
  rintro e ⟨⟩
  have := d.isLt
  have := a.isLt
  have := b.isLt
  simp only [Fits, rr]
  omega

theorem Sys2Proof.Laws.EncodingFits.or (d : R32) (a : R32) (b : R32) :
    Statement (.or d a b) := by
  rintro e ⟨⟩
  have := d.isLt
  have := a.isLt
  have := b.isLt
  simp only [Fits, rr]
  omega

theorem Sys2Proof.Laws.EncodingFits.xor (d : R32) (a : R32) (b : R32) :
    Statement (.xor d a b) := by
  rintro e ⟨⟩
  have := d.isLt
  have := a.isLt
  have := b.isLt
  simp only [Fits, rr]
  omega

theorem Sys2Proof.Laws.EncodingFits.andn (d : R32) (a : R32) (b : R32) :
    Statement (.andn d a b) := by
  rintro e ⟨⟩
  have := d.isLt
  have := a.isLt
  have := b.isLt
  simp only [Fits, rr]
  omega

theorem Sys2Proof.Laws.EncodingFits.orn (d : R32) (a : R32) (b : R32) :
    Statement (.orn d a b) := by
  rintro e ⟨⟩
  have := d.isLt
  have := a.isLt
  have := b.isLt
  simp only [Fits, rr]
  omega

theorem Sys2Proof.Laws.EncodingFits.shl (d : R32) (a : R32) (b : R32) :
    Statement (.shl d a b) := by
  rintro e ⟨⟩
  have := d.isLt
  have := a.isLt
  have := b.isLt
  simp only [Fits, rr]
  omega

theorem Sys2Proof.Laws.EncodingFits.shr (d : R32) (a : R32) (b : R32) :
    Statement (.shr d a b) := by
  rintro e ⟨⟩
  have := d.isLt
  have := a.isLt
  have := b.isLt
  simp only [Fits, rr]
  omega

theorem Sys2Proof.Laws.EncodingFits.sar (d : R32) (a : R32) (b : R32) :
    Statement (.sar d a b) := by
  rintro e ⟨⟩
  have := d.isLt
  have := a.isLt
  have := b.isLt
  simp only [Fits, rr]
  omega

theorem Sys2Proof.Laws.EncodingFits.rot (d : R32) (a : R32) (b : R32) :
    Statement (.rot d a b) := by
  rintro e ⟨⟩
  have := d.isLt
  have := a.isLt
  have := b.isLt
  simp only [Fits, rr]
  omega

theorem Sys2Proof.Laws.EncodingFits.minI64 (d : R32) (a : R32) (b : R32) :
    Statement (.minI64 d a b) := by
  rintro e ⟨⟩
  have := d.isLt
  have := a.isLt
  have := b.isLt
  simp only [Fits, rr]
  omega

theorem Sys2Proof.Laws.EncodingFits.maxI64 (d : R32) (a : R32) (b : R32) :
    Statement (.maxI64 d a b) := by
  rintro e ⟨⟩
  have := d.isLt
  have := a.isLt
  have := b.isLt
  simp only [Fits, rr]
  omega

theorem Sys2Proof.Laws.EncodingFits.minN64 (d : R32) (a : R32) (b : R32) :
    Statement (.minN64 d a b) := by
  rintro e ⟨⟩
  have := d.isLt
  have := a.isLt
  have := b.isLt
  simp only [Fits, rr]
  omega

theorem Sys2Proof.Laws.EncodingFits.maxN64 (d : R32) (a : R32) (b : R32) :
    Statement (.maxN64 d a b) := by
  rintro e ⟨⟩
  have := d.isLt
  have := a.isLt
  have := b.isLt
  simp only [Fits, rr]
  omega

theorem Sys2Proof.Laws.EncodingFits.mov (d : R32) (a : R32) :
    Statement (.mov d a) := by
  rintro e ⟨⟩
  have := d.isLt
  have := a.isLt
  simp only [Fits, rr]
  omega

theorem Sys2Proof.Laws.EncodingFits.mul (d : R32) (a : R32) (b : R32) :
    Statement (.mul d a b) := by
  rintro e ⟨⟩
  have := d.isLt
  have := a.isLt
  have := b.isLt
  simp only [Fits, rr]
  omega

theorem Sys2Proof.Laws.EncodingFits.mulhI64 (d : R32) (a : R32) (b : R32) :
    Statement (.mulhI64 d a b) := by
  rintro e ⟨⟩
  have := d.isLt
  have := a.isLt
  have := b.isLt
  simp only [Fits, rr]
  omega

theorem Sys2Proof.Laws.EncodingFits.mulhN64 (d : R32) (a : R32) (b : R32) :
    Statement (.mulhN64 d a b) := by
  rintro e ⟨⟩
  have := d.isLt
  have := a.isLt
  have := b.isLt
  simp only [Fits, rr]
  omega

theorem Sys2Proof.Laws.EncodingFits.divI64 (d : R32) (a : R32) (b : R32) :
    Statement (.divI64 d a b) := by
  rintro e ⟨⟩
  have := d.isLt
  have := a.isLt
  have := b.isLt
  simp only [Fits, rr]
  omega

theorem Sys2Proof.Laws.EncodingFits.divN64 (d : R32) (a : R32) (b : R32) :
    Statement (.divN64 d a b) := by
  rintro e ⟨⟩
  have := d.isLt
  have := a.isLt
  have := b.isLt
  simp only [Fits, rr]
  omega

theorem Sys2Proof.Laws.EncodingFits.remI64 (d : R32) (a : R32) (b : R32) :
    Statement (.remI64 d a b) := by
  rintro e ⟨⟩
  have := d.isLt
  have := a.isLt
  have := b.isLt
  simp only [Fits, rr]
  omega

theorem Sys2Proof.Laws.EncodingFits.remN64 (d : R32) (a : R32) (b : R32) :
    Statement (.remN64 d a b) := by
  rintro e ⟨⟩
  have := d.isLt
  have := a.isLt
  have := b.isLt
  simp only [Fits, rr]
  omega

theorem Sys2Proof.Laws.EncodingFits.clz (d : R32) (a : R32) :
    Statement (.clz d a) := by
  rintro e ⟨⟩
  have := d.isLt
  have := a.isLt
  simp only [Fits, rr]
  omega

theorem Sys2Proof.Laws.EncodingFits.ctz (d : R32) (a : R32) :
    Statement (.ctz d a) := by
  rintro e ⟨⟩
  have := d.isLt
  have := a.isLt
  simp only [Fits, rr]
  omega

theorem Sys2Proof.Laws.EncodingFits.popc (d : R32) (a : R32) :
    Statement (.popc d a) := by
  rintro e ⟨⟩
  have := d.isLt
  have := a.isLt
  simp only [Fits, rr]
  omega

theorem Sys2Proof.Laws.EncodingFits.bswap (d : R32) (a : R32) :
    Statement (.bswap d a) := by
  rintro e ⟨⟩
  have := d.isLt
  have := a.isLt
  simp only [Fits, rr]
  omega

theorem Sys2Proof.Laws.EncodingFits.extI8 (d : R32) (a : R32) :
    Statement (.extI8 d a) := by
  rintro e ⟨⟩
  have := d.isLt
  have := a.isLt
  simp only [Fits, rr]
  omega

theorem Sys2Proof.Laws.EncodingFits.extI16 (d : R32) (a : R32) :
    Statement (.extI16 d a) := by
  rintro e ⟨⟩
  have := d.isLt
  have := a.isLt
  simp only [Fits, rr]
  omega

theorem Sys2Proof.Laws.EncodingFits.extI32 (d : R32) (a : R32) :
    Statement (.extI32 d a) := by
  rintro e ⟨⟩
  have := d.isLt
  have := a.isLt
  simp only [Fits, rr]
  omega

theorem Sys2Proof.Laws.EncodingFits.extN8 (d : R32) (a : R32) :
    Statement (.extN8 d a) := by
  rintro e ⟨⟩
  have := d.isLt
  have := a.isLt
  simp only [Fits, rr]
  omega

theorem Sys2Proof.Laws.EncodingFits.extN16 (d : R32) (a : R32) :
    Statement (.extN16 d a) := by
  rintro e ⟨⟩
  have := d.isLt
  have := a.isLt
  simp only [Fits, rr]
  omega

theorem Sys2Proof.Laws.EncodingFits.extN32 (d : R32) (a : R32) :
    Statement (.extN32 d a) := by
  rintro e ⟨⟩
  have := d.isLt
  have := a.isLt
  simp only [Fits, rr]
  omega

theorem Sys2Proof.Laws.EncodingFits.cmp (c : Cond) (d : R8) (a : R32) (b : R32) :
    Statement (.cmp c d a b) := by
  rintro e ⟨⟩
  have := cond_lt c
  have := d.isLt
  have := a.isLt
  have := b.isLt
  simp only [Fits, rr]
  omega

theorem Sys2Proof.Laws.EncodingFits.pand (d : R8) (a : R8) (b : R8) :
    Statement (.pand d a b) := by
  rintro e ⟨⟩
  have := d.isLt
  have := a.isLt
  have := b.isLt
  simp only [Fits, rr]
  omega

theorem Sys2Proof.Laws.EncodingFits.por (d : R8) (a : R8) (b : R8) :
    Statement (.por d a b) := by
  rintro e ⟨⟩
  have := d.isLt
  have := a.isLt
  have := b.isLt
  simp only [Fits, rr]
  omega

theorem Sys2Proof.Laws.EncodingFits.pxor (d : R8) (a : R8) (b : R8) :
    Statement (.pxor d a b) := by
  rintro e ⟨⟩
  have := d.isLt
  have := a.isLt
  have := b.isLt
  simp only [Fits, rr]
  omega

theorem Sys2Proof.Laws.EncodingFits.pnot (d : R8) (a : R8) :
    Statement (.pnot d a) := by
  rintro e ⟨⟩
  have := d.isLt
  have := a.isLt
  simp only [Fits, rr]
  omega

theorem Sys2Proof.Laws.EncodingFits.pmov (d : R8) (a : R8) :
    Statement (.pmov d a) := by
  rintro e ⟨⟩
  have := d.isLt
  have := a.isLt
  simp only [Fits, rr]
  omega

theorem Sys2Proof.Laws.EncodingFits.sel (q : R8) (d : R32) (a : R32) (b : R32) :
    Statement (.sel q d a b) := by
  rintro e ⟨⟩
  have := q.isLt
  have := d.isLt
  have := a.isLt
  have := b.isLt
  simp only [Fits, rr]
  omega

theorem Sys2Proof.Laws.EncodingFits.lea (s : R4) (d : R32) (a : R32) (b : R32) :
    Statement (.lea s d a b) := by
  rintro e ⟨⟩
  have := s.isLt
  have := d.isLt
  have := a.isLt
  have := b.isLt
  simp only [Fits, rr]
  omega

theorem Sys2Proof.Laws.EncodingFits.addImmediate (i : BitVec 15) (d : R32) (a : R32) :
    Statement (.addImmediate i d a) := by
  rintro e ⟨⟩
  have := i.isLt
  have := d.isLt
  have := a.isLt
  simp only [Fits, im]
  omega

theorem Sys2Proof.Laws.EncodingFits.andImmediate (i : BitVec 15) (d : R32) (a : R32) :
    Statement (.andImmediate i d a) := by
  rintro e ⟨⟩
  have := i.isLt
  have := d.isLt
  have := a.isLt
  simp only [Fits, im]
  omega

theorem Sys2Proof.Laws.EncodingFits.orImmediate (i : BitVec 15) (d : R32) (a : R32) :
    Statement (.orImmediate i d a) := by
  rintro e ⟨⟩
  have := i.isLt
  have := d.isLt
  have := a.isLt
  simp only [Fits, im]
  omega

theorem Sys2Proof.Laws.EncodingFits.xorImmediate (i : BitVec 15) (d : R32) (a : R32) :
    Statement (.xorImmediate i d a) := by
  rintro e ⟨⟩
  have := i.isLt
  have := d.isLt
  have := a.isLt
  simp only [Fits, im]
  omega

theorem Sys2Proof.Laws.EncodingFits.shlImmediate (n : BitVec 6) (d : R32) (a : R32) :
    Statement (.shlImmediate n d a) := by
  rintro e ⟨⟩
  have := n.isLt
  have := d.isLt
  have := a.isLt
  simp only [Fits, im]
  omega

theorem Sys2Proof.Laws.EncodingFits.shrImmediate (n : BitVec 6) (d : R32) (a : R32) :
    Statement (.shrImmediate n d a) := by
  rintro e ⟨⟩
  have := n.isLt
  have := d.isLt
  have := a.isLt
  simp only [Fits, im]
  omega

theorem Sys2Proof.Laws.EncodingFits.sarImmediate (n : BitVec 6) (d : R32) (a : R32) :
    Statement (.sarImmediate n d a) := by
  rintro e ⟨⟩
  have := n.isLt
  have := d.isLt
  have := a.isLt
  simp only [Fits, im]
  omega

theorem Sys2Proof.Laws.EncodingFits.rotImmediate (n : BitVec 6) (d : R32) (a : R32) :
    Statement (.rotImmediate n d a) := by
  rintro e ⟨⟩
  have := n.isLt
  have := d.isLt
  have := a.isLt
  simp only [Fits, im]
  omega

theorem Sys2Proof.Laws.EncodingFits.mulImmediate (i : BitVec 15) (d : R32) (a : R32) :
    Statement (.mulImmediate i d a) := by
  rintro e ⟨⟩
  have := i.isLt
  have := d.isLt
  have := a.isLt
  simp only [Fits, im]
  omega

theorem Sys2Proof.Laws.EncodingFits.cmpi (c : Cond) (i : BitVec 11) (d : R8) (a : R32) :
    Statement (.cmpi c i d a) := by
  rintro e ⟨⟩
  have := cond_lt c
  have := i.isLt
  have := d.isLt
  have := a.isLt
  simp only [Fits, im]
  omega

theorem Sys2Proof.Laws.EncodingFits.movi (i : BitVec 15) (d : R32) :
    Statement (.movi i d) := by
  rintro e ⟨⟩
  have := i.isLt
  have := d.isLt
  simp only [Fits, im]
  omega

theorem Sys2Proof.Laws.EncodingFits.ld (ty : Ty) (o : BitVec 11) (d : R32) (a : R32) :
    Statement (.ld ty o d a) := by
  rintro e ⟨⟩
  have := ty_lt ty
  have := o.isLt
  have := d.isLt
  have := a.isLt
  simp only [Fits, me]
  omega

theorem Sys2Proof.Laws.EncodingFits.st (ty : Ty) (o : BitVec 11) (d : R32) (a : R32) :
    Statement (.st ty o d a) := by
  rintro e ⟨⟩
  have := ty_lt ty
  have := o.isLt
  have := d.isLt
  have := a.isLt
  simp only [Fits, me]
  omega

theorem Sys2Proof.Laws.EncodingFits.pfL1 (o : BitVec 11) (a : R32) :
    Statement (.pfL1 o a) := by
  rintro e ⟨⟩
  have := o.isLt
  have := a.isLt
  simp only [Fits, me]
  omega

theorem Sys2Proof.Laws.EncodingFits.pfCc (o : BitVec 11) (a : R32) :
    Statement (.pfCc o a) := by
  rintro e ⟨⟩
  have := o.isLt
  have := a.isLt
  simp only [Fits, me]
  omega

theorem Sys2Proof.Laws.EncodingFits.pfL2 (o : BitVec 11) (a : R32) :
    Statement (.pfL2 o a) := by
  rintro e ⟨⟩
  have := o.isLt
  have := a.isLt
  simp only [Fits, me]
  omega

theorem Sys2Proof.Laws.EncodingFits.br (o : BitVec 21) (n : Bool) (p : R8) :
    Statement (.br o n p) := by
  rintro e ⟨⟩
  have := bool_lt n
  have := o.isLt
  have := p.isLt
  simp only [Fits, bj]
  omega

theorem Sys2Proof.Laws.EncodingFits.jmp (o : BitVec 25) :
    Statement (.jmp o) := by
  rintro e ⟨⟩
  have := o.isLt
  simp only [Fits, jp]
  omega

theorem Sys2Proof.Laws.EncodingFits.call (o : BitVec 25) :
    Statement (.call o) := by
  rintro e ⟨⟩
  have := o.isLt
  simp only [Fits, jp]
  omega

theorem Sys2Proof.Laws.EncodingFits.jmpr (a : R32) :
    Statement (.jmpr a) := by
  rintro e ⟨⟩
  have := a.isLt
  simp only [Fits, rr]
  omega

theorem Sys2Proof.Laws.EncodingFits.callr (a : R32) :
    Statement (.callr a) := by
  rintro e ⟨⟩
  have := a.isLt
  simp only [Fits, rr]
  omega

theorem Sys2Proof.Laws.EncodingFits.ret :
    Statement (.ret) := by
  rintro e ⟨⟩
  exact ⟨by decide, by decide⟩

theorem Sys2Proof.Laws.EncodingFits.srGet (n : SysReg) (d : R32) :
    Statement (.srGet n d) := by
  rintro e ⟨⟩
  have := sysReg_lt n
  have := d.isLt
  simp only [Fits, rr]
  omega

theorem Sys2Proof.Laws.EncodingFits.srSet (n : SysReg) (a : R32) :
    Statement (.srSet n a) := by
  rintro e ⟨⟩
  have := sysReg_lt n
  have := a.isLt
  simp only [Fits, rr]
  omega

theorem Sys2Proof.Laws.EncodingFits.srSwap (n : SysReg) (d : R32) (a : R32) :
    Statement (.srSwap n d a) := by
  rintro e ⟨⟩
  have := sysReg_lt n
  have := d.isLt
  have := a.isLt
  simp only [Fits, rr]
  omega

theorem Sys2Proof.Laws.EncodingFits.nop :
    Statement (.nop) := by
  rintro e ⟨⟩
  exact ⟨by decide, by decide⟩

theorem Sys2Proof.Laws.EncodingFits.trap (n : BitVec 5) :
    Statement (.trap n) := by
  rintro e ⟨⟩
  have := n.isLt
  simp only [Fits, rr]
  omega

theorem Sys2Proof.Laws.EncodingFits.tret :
    Statement (.tret) := by
  rintro e ⟨⟩
  exact ⟨by decide, by decide⟩

theorem Sys2Proof.Laws.EncodingFits.tack :
    Statement (.tack) := by
  rintro e ⟨⟩
  exact ⟨by decide, by decide⟩

theorem Sys2Proof.Laws.EncodingFits.halt :
    Statement (.halt) := by
  rintro e ⟨⟩
  exact ⟨by decide, by decide⟩

theorem Sys2Proof.Laws.EncodingFits.yield :
    Statement (.yield) := by
  rintro e ⟨⟩
  exact ⟨by decide, by decide⟩

theorem Sys2Proof.Laws.EncodingFits.fenceAcq (c : Scope) :
    Statement (.fenceAcq c) := by
  rintro e ⟨⟩
  have := scope_lt c
  simp only [Fits, rr]
  omega

theorem Sys2Proof.Laws.EncodingFits.fenceRel (c : Scope) :
    Statement (.fenceRel c) := by
  rintro e ⟨⟩
  have := scope_lt c
  simp only [Fits, rr]
  omega

theorem Sys2Proof.Laws.EncodingFits.fenceAr (c : Scope) :
    Statement (.fenceAr c) := by
  rintro e ⟨⟩
  have := scope_lt c
  simp only [Fits, rr]
  omega

theorem Sys2Proof.Laws.EncodingFits.cflWt (a : R32) :
    Statement (.cflWt a) := by
  rintro e ⟨⟩
  have := a.isLt
  simp only [Fits, rr]
  omega

theorem Sys2Proof.Laws.EncodingFits.cflInv (a : R32) :
    Statement (.cflInv a) := by
  rintro e ⟨⟩
  have := a.isLt
  simp only [Fits, rr]
  omega

theorem Sys2Proof.Laws.EncodingFits.cflWi (a : R32) :
    Statement (.cflWi a) := by
  rintro e ⟨⟩
  have := a.isLt
  simp only [Fits, rr]
  omega

theorem Sys2Proof.Laws.EncodingFits.tlbiPage (a : R32) :
    Statement (.tlbiPage a) := by
  rintro e ⟨⟩
  have := a.isLt
  simp only [Fits, rr]
  omega

theorem Sys2Proof.Laws.EncodingFits.tlbiAsn (a : R32) :
    Statement (.tlbiAsn a) := by
  rintro e ⟨⟩
  have := a.isLt
  simp only [Fits, rr]
  omega

theorem Sys2Proof.Laws.EncodingFits.tlbiAll :
    Statement (.tlbiAll) := by
  rintro e ⟨⟩
  exact ⟨by decide, by decide⟩

theorem Sys2Proof.Laws.EncodingFits.waitNe (d : R32) (a : R32) (b : R32) :
    Statement (.waitNe d a b) := by
  rintro e ⟨⟩
  have := d.isLt
  have := a.isLt
  have := b.isLt
  simp only [Fits, rr]
  omega

theorem Sys2Proof.Laws.EncodingFits.waitEq (d : R32) (a : R32) (b : R32) :
    Statement (.waitEq d a b) := by
  rintro e ⟨⟩
  have := d.isLt
  have := a.isLt
  have := b.isLt
  simp only [Fits, rr]
  omega

theorem Sys2Proof.Laws.EncodingFits.waitGe (d : R32) (a : R32) (b : R32) :
    Statement (.waitGe d a b) := by
  rintro e ⟨⟩
  have := d.isLt
  have := a.isLt
  have := b.isLt
  simp only [Fits, rr]
  omega

theorem Sys2Proof.Laws.EncodingFits.li (h : Hdr) (d : R32) (lit : BitVec 32) :
    Statement (.li h d lit) := by
  rintro e ⟨⟩
  exact long_fits h lit (by decide) (by have := d.isLt; omega) (by decide) (by decide) (by decide) (by decide) (by decide) (by decide) (by decide)

theorem Sys2Proof.Laws.EncodingFits.lihi (h : Hdr) (d : R32) (lit : BitVec 32) :
    Statement (.lihi h d lit) := by
  rintro e ⟨⟩
  exact long_fits h lit (by decide) (by have := d.isLt; omega) (by decide) (by decide) (by decide) (by decide) (by decide) (by decide) (by decide)

theorem Sys2Proof.Laws.EncodingFits.addLiteral (h : Hdr) (d : R32) (a : R32) (lit : BitVec 32) :
    Statement (.addLiteral h d a lit) := by
  rintro e ⟨⟩
  exact long_fits h lit (by decide) (by have := d.isLt; omega) (by have := a.isLt; omega) (by decide) (by decide) (by decide) (by decide) (by decide) (by decide)

theorem Sys2Proof.Laws.EncodingFits.subLiteral (h : Hdr) (d : R32) (a : R32) (lit : BitVec 32) :
    Statement (.subLiteral h d a lit) := by
  rintro e ⟨⟩
  exact long_fits h lit (by decide) (by have := d.isLt; omega) (by have := a.isLt; omega) (by decide) (by decide) (by decide) (by decide) (by decide) (by decide)

theorem Sys2Proof.Laws.EncodingFits.andLiteral (h : Hdr) (d : R32) (a : R32) (lit : BitVec 32) :
    Statement (.andLiteral h d a lit) := by
  rintro e ⟨⟩
  exact long_fits h lit (by decide) (by have := d.isLt; omega) (by have := a.isLt; omega) (by decide) (by decide) (by decide) (by decide) (by decide) (by decide)

theorem Sys2Proof.Laws.EncodingFits.orLiteral (h : Hdr) (d : R32) (a : R32) (lit : BitVec 32) :
    Statement (.orLiteral h d a lit) := by
  rintro e ⟨⟩
  exact long_fits h lit (by decide) (by have := d.isLt; omega) (by have := a.isLt; omega) (by decide) (by decide) (by decide) (by decide) (by decide) (by decide)

theorem Sys2Proof.Laws.EncodingFits.xorLiteral (h : Hdr) (d : R32) (a : R32) (lit : BitVec 32) :
    Statement (.xorLiteral h d a lit) := by
  rintro e ⟨⟩
  exact long_fits h lit (by decide) (by have := d.isLt; omega) (by have := a.isLt; omega) (by decide) (by decide) (by decide) (by decide) (by decide) (by decide)

theorem Sys2Proof.Laws.EncodingFits.andnLiteral (h : Hdr) (d : R32) (a : R32) (lit : BitVec 32) :
    Statement (.andnLiteral h d a lit) := by
  rintro e ⟨⟩
  exact long_fits h lit (by decide) (by have := d.isLt; omega) (by have := a.isLt; omega) (by decide) (by decide) (by decide) (by decide) (by decide) (by decide)

theorem Sys2Proof.Laws.EncodingFits.ornLiteral (h : Hdr) (d : R32) (a : R32) (lit : BitVec 32) :
    Statement (.ornLiteral h d a lit) := by
  rintro e ⟨⟩
  exact long_fits h lit (by decide) (by have := d.isLt; omega) (by have := a.isLt; omega) (by decide) (by decide) (by decide) (by decide) (by decide) (by decide)

theorem Sys2Proof.Laws.EncodingFits.shlLiteral (h : Hdr) (d : R32) (a : R32) (lit : BitVec 32) :
    Statement (.shlLiteral h d a lit) := by
  rintro e ⟨⟩
  exact long_fits h lit (by decide) (by have := d.isLt; omega) (by have := a.isLt; omega) (by decide) (by decide) (by decide) (by decide) (by decide) (by decide)

theorem Sys2Proof.Laws.EncodingFits.shrLiteral (h : Hdr) (d : R32) (a : R32) (lit : BitVec 32) :
    Statement (.shrLiteral h d a lit) := by
  rintro e ⟨⟩
  exact long_fits h lit (by decide) (by have := d.isLt; omega) (by have := a.isLt; omega) (by decide) (by decide) (by decide) (by decide) (by decide) (by decide)

theorem Sys2Proof.Laws.EncodingFits.sarLiteral (h : Hdr) (d : R32) (a : R32) (lit : BitVec 32) :
    Statement (.sarLiteral h d a lit) := by
  rintro e ⟨⟩
  exact long_fits h lit (by decide) (by have := d.isLt; omega) (by have := a.isLt; omega) (by decide) (by decide) (by decide) (by decide) (by decide) (by decide)

theorem Sys2Proof.Laws.EncodingFits.rotLiteral (h : Hdr) (d : R32) (a : R32) (lit : BitVec 32) :
    Statement (.rotLiteral h d a lit) := by
  rintro e ⟨⟩
  exact long_fits h lit (by decide) (by have := d.isLt; omega) (by have := a.isLt; omega) (by decide) (by decide) (by decide) (by decide) (by decide) (by decide)

theorem Sys2Proof.Laws.EncodingFits.minI64Literal (h : Hdr) (d : R32) (a : R32) (lit : BitVec 32) :
    Statement (.minI64Literal h d a lit) := by
  rintro e ⟨⟩
  exact long_fits h lit (by decide) (by have := d.isLt; omega) (by have := a.isLt; omega) (by decide) (by decide) (by decide) (by decide) (by decide) (by decide)

theorem Sys2Proof.Laws.EncodingFits.maxI64Literal (h : Hdr) (d : R32) (a : R32) (lit : BitVec 32) :
    Statement (.maxI64Literal h d a lit) := by
  rintro e ⟨⟩
  exact long_fits h lit (by decide) (by have := d.isLt; omega) (by have := a.isLt; omega) (by decide) (by decide) (by decide) (by decide) (by decide) (by decide)

theorem Sys2Proof.Laws.EncodingFits.minN64Literal (h : Hdr) (d : R32) (a : R32) (lit : BitVec 32) :
    Statement (.minN64Literal h d a lit) := by
  rintro e ⟨⟩
  exact long_fits h lit (by decide) (by have := d.isLt; omega) (by have := a.isLt; omega) (by decide) (by decide) (by decide) (by decide) (by decide) (by decide)

theorem Sys2Proof.Laws.EncodingFits.maxN64Literal (h : Hdr) (d : R32) (a : R32) (lit : BitVec 32) :
    Statement (.maxN64Literal h d a lit) := by
  rintro e ⟨⟩
  exact long_fits h lit (by decide) (by have := d.isLt; omega) (by have := a.isLt; omega) (by decide) (by decide) (by decide) (by decide) (by decide) (by decide)

theorem Sys2Proof.Laws.EncodingFits.movLiteral (h : Hdr) (d : R32) (lit : BitVec 32) :
    Statement (.movLiteral h d lit) := by
  rintro e ⟨⟩
  exact long_fits h lit (by decide) (by have := d.isLt; omega) (by decide) (by decide) (by decide) (by decide) (by decide) (by decide) (by decide)

theorem Sys2Proof.Laws.EncodingFits.mulLiteral (h : Hdr) (d : R32) (a : R32) (lit : BitVec 32) :
    Statement (.mulLiteral h d a lit) := by
  rintro e ⟨⟩
  exact long_fits h lit (by decide) (by have := d.isLt; omega) (by have := a.isLt; omega) (by decide) (by decide) (by decide) (by decide) (by decide) (by decide)

theorem Sys2Proof.Laws.EncodingFits.mulhI64Literal (h : Hdr) (d : R32) (a : R32) (lit : BitVec 32) :
    Statement (.mulhI64Literal h d a lit) := by
  rintro e ⟨⟩
  exact long_fits h lit (by decide) (by have := d.isLt; omega) (by have := a.isLt; omega) (by decide) (by decide) (by decide) (by decide) (by decide) (by decide)

theorem Sys2Proof.Laws.EncodingFits.mulhN64Literal (h : Hdr) (d : R32) (a : R32) (lit : BitVec 32) :
    Statement (.mulhN64Literal h d a lit) := by
  rintro e ⟨⟩
  exact long_fits h lit (by decide) (by have := d.isLt; omega) (by have := a.isLt; omega) (by decide) (by decide) (by decide) (by decide) (by decide) (by decide)

theorem Sys2Proof.Laws.EncodingFits.divI64Literal (h : Hdr) (d : R32) (a : R32) (lit : BitVec 32) :
    Statement (.divI64Literal h d a lit) := by
  rintro e ⟨⟩
  exact long_fits h lit (by decide) (by have := d.isLt; omega) (by have := a.isLt; omega) (by decide) (by decide) (by decide) (by decide) (by decide) (by decide)

theorem Sys2Proof.Laws.EncodingFits.divN64Literal (h : Hdr) (d : R32) (a : R32) (lit : BitVec 32) :
    Statement (.divN64Literal h d a lit) := by
  rintro e ⟨⟩
  exact long_fits h lit (by decide) (by have := d.isLt; omega) (by have := a.isLt; omega) (by decide) (by decide) (by decide) (by decide) (by decide) (by decide)

theorem Sys2Proof.Laws.EncodingFits.remI64Literal (h : Hdr) (d : R32) (a : R32) (lit : BitVec 32) :
    Statement (.remI64Literal h d a lit) := by
  rintro e ⟨⟩
  exact long_fits h lit (by decide) (by have := d.isLt; omega) (by have := a.isLt; omega) (by decide) (by decide) (by decide) (by decide) (by decide) (by decide)

theorem Sys2Proof.Laws.EncodingFits.remN64Literal (h : Hdr) (d : R32) (a : R32) (lit : BitVec 32) :
    Statement (.remN64Literal h d a lit) := by
  rintro e ⟨⟩
  exact long_fits h lit (by decide) (by have := d.isLt; omega) (by have := a.isLt; omega) (by decide) (by decide) (by decide) (by decide) (by decide) (by decide)

theorem Sys2Proof.Laws.EncodingFits.cmpLiteral (h : Hdr) (c : Cond) (d : R8) (a : R32) (lit : BitVec 32) :
    Statement (.cmpLiteral h c d a lit) := by
  rintro e ⟨⟩
  exact long_fits h lit (by decide) (by have := d.isLt; omega) (by have := a.isLt; omega) (by decide) (by have := cond_lt c; omega) (by decide) (by decide) (by decide) (by decide)

theorem Sys2Proof.Laws.EncodingFits.brLong (h : Hdr) (lit : BitVec 32) :
    Statement (.brLong h lit) := by
  rintro e ⟨⟩
  exact long_fits h lit (by decide) (by decide) (by decide) (by decide) (by decide) (by decide) (by decide) (by decide) (by decide)

theorem Sys2Proof.Laws.EncodingFits.callLong (h : Hdr) (lit : BitVec 32) :
    Statement (.callLong h lit) := by
  rintro e ⟨⟩
  exact long_fits h lit (by decide) (by decide) (by decide) (by decide) (by decide) (by decide) (by decide) (by decide) (by decide)

theorem Sys2Proof.Laws.EncodingFits.ldLong (h : Hdr) (ty : Ty) (acq : Option Scope) (s : R4) (d : R32) (a : R32) (b : R32) (lit : BitVec 32) :
    Statement (.ldLong h ty acq s d a b lit) := by
  rintro e ⟨⟩
  exact long_fits h lit (by decide) (by have := d.isLt; omega) (by have := a.isLt; omega) (by have := b.isLt; omega) (by decide) (by have := ty_lt ty; omega) (by decide) (by decide) (by have := s.isLt; have := ordScope_lt 1 acq (by decide); omega)

theorem Sys2Proof.Laws.EncodingFits.stLong (h : Hdr) (ty : Ty) (rel : Option Scope) (s : R4) (d : R32) (a : R32) (b : R32) (lit : BitVec 32) :
    Statement (.stLong h ty rel s d a b lit) := by
  rintro e ⟨⟩
  exact long_fits h lit (by decide) (by have := d.isLt; omega) (by have := a.isLt; omega) (by have := b.isLt; omega) (by decide) (by have := ty_lt ty; omega) (by decide) (by decide) (by have := s.isLt; have := ordScope_lt 2 rel (by decide); omega)

theorem Sys2Proof.Laws.EncodingFits.bfxI64 (h : Hdr) (d : R32) (a : R32) (pos : BitVec 6) (w : BitVec 6) :
    Statement (.bfxI64 h d a pos w) := by
  rintro e ⟨⟩
  exact mid_fits h (by decide) (by have := d.isLt; omega) (by have := a.isLt; omega) (by decide) (by decide) (by decide) (by decide) (by decide) (by have := pos.isLt; have := w.isLt; omega)

theorem Sys2Proof.Laws.EncodingFits.bfxN64 (h : Hdr) (d : R32) (a : R32) (pos : BitVec 6) (w : BitVec 6) :
    Statement (.bfxN64 h d a pos w) := by
  rintro e ⟨⟩
  exact mid_fits h (by decide) (by have := d.isLt; omega) (by have := a.isLt; omega) (by decide) (by decide) (by decide) (by decide) (by decide) (by have := pos.isLt; have := w.isLt; omega)

theorem Sys2Proof.Laws.EncodingFits.bfi (h : Hdr) (d : R32) (a : R32) (pos : BitVec 6) (w : BitVec 6) :
    Statement (.bfi h d a pos w) := by
  rintro e ⟨⟩
  exact mid_fits h (by decide) (by have := d.isLt; omega) (by have := a.isLt; omega) (by decide) (by decide) (by decide) (by decide) (by decide) (by have := pos.isLt; have := w.isLt; omega)

theorem Sys2Proof.Laws.EncodingFits.amoAdd (h : Hdr) (ty : Ty) (o : Order) (c : Scope) (d : R32) (a : R32) (b : R32) :
    Statement (.amoAdd h ty o c d a b) := by
  rintro e ⟨⟩
  exact mid_fits h (by decide) (by have := d.isLt; omega) (by have := a.isLt; omega) (by have := b.isLt; omega) (by decide) (by have := ty_lt ty; omega) (by decide) (by decide) (by have := scope_lt c; have := order_lt o; omega)

theorem Sys2Proof.Laws.EncodingFits.amoAnd (h : Hdr) (ty : Ty) (o : Order) (c : Scope) (d : R32) (a : R32) (b : R32) :
    Statement (.amoAnd h ty o c d a b) := by
  rintro e ⟨⟩
  exact mid_fits h (by decide) (by have := d.isLt; omega) (by have := a.isLt; omega) (by have := b.isLt; omega) (by decide) (by have := ty_lt ty; omega) (by decide) (by decide) (by have := scope_lt c; have := order_lt o; omega)

theorem Sys2Proof.Laws.EncodingFits.amoOr (h : Hdr) (ty : Ty) (o : Order) (c : Scope) (d : R32) (a : R32) (b : R32) :
    Statement (.amoOr h ty o c d a b) := by
  rintro e ⟨⟩
  exact mid_fits h (by decide) (by have := d.isLt; omega) (by have := a.isLt; omega) (by have := b.isLt; omega) (by decide) (by have := ty_lt ty; omega) (by decide) (by decide) (by have := scope_lt c; have := order_lt o; omega)

theorem Sys2Proof.Laws.EncodingFits.amoXor (h : Hdr) (ty : Ty) (o : Order) (c : Scope) (d : R32) (a : R32) (b : R32) :
    Statement (.amoXor h ty o c d a b) := by
  rintro e ⟨⟩
  exact mid_fits h (by decide) (by have := d.isLt; omega) (by have := a.isLt; omega) (by have := b.isLt; omega) (by decide) (by have := ty_lt ty; omega) (by decide) (by decide) (by have := scope_lt c; have := order_lt o; omega)

theorem Sys2Proof.Laws.EncodingFits.amoMin (h : Hdr) (ty : Ty) (o : Order) (c : Scope) (d : R32) (a : R32) (b : R32) :
    Statement (.amoMin h ty o c d a b) := by
  rintro e ⟨⟩
  exact mid_fits h (by decide) (by have := d.isLt; omega) (by have := a.isLt; omega) (by have := b.isLt; omega) (by decide) (by have := ty_lt ty; omega) (by decide) (by decide) (by have := scope_lt c; have := order_lt o; omega)

theorem Sys2Proof.Laws.EncodingFits.amoMax (h : Hdr) (ty : Ty) (o : Order) (c : Scope) (d : R32) (a : R32) (b : R32) :
    Statement (.amoMax h ty o c d a b) := by
  rintro e ⟨⟩
  exact mid_fits h (by decide) (by have := d.isLt; omega) (by have := a.isLt; omega) (by have := b.isLt; omega) (by decide) (by have := ty_lt ty; omega) (by decide) (by decide) (by have := scope_lt c; have := order_lt o; omega)

theorem Sys2Proof.Laws.EncodingFits.amoSwap (h : Hdr) (ty : Ty) (o : Order) (c : Scope) (d : R32) (a : R32) (b : R32) :
    Statement (.amoSwap h ty o c d a b) := by
  rintro e ⟨⟩
  exact mid_fits h (by decide) (by have := d.isLt; omega) (by have := a.isLt; omega) (by have := b.isLt; omega) (by decide) (by have := ty_lt ty; omega) (by decide) (by decide) (by have := scope_lt c; have := order_lt o; omega)

theorem Sys2Proof.Laws.EncodingFits.amoFadd (h : Hdr) (ty : Ty) (o : Order) (c : Scope) (d : R32) (a : R32) (b : R32) :
    Statement (.amoFadd h ty o c d a b) := by
  rintro e ⟨⟩
  exact mid_fits h (by decide) (by have := d.isLt; omega) (by have := a.isLt; omega) (by have := b.isLt; omega) (by decide) (by have := ty_lt ty; omega) (by decide) (by decide) (by have := scope_lt c; have := order_lt o; omega)

theorem Sys2Proof.Laws.EncodingFits.cas (h : Hdr) (ty : Ty) (o : Order) (c : Scope) (d : R32) (a : R32) (b : R32) :
    Statement (.cas h ty o c d a b) := by
  rintro e ⟨⟩
  exact mid_fits h (by decide) (by have := d.isLt; omega) (by have := a.isLt; omega) (by have := b.isLt; omega) (by decide) (by have := ty_lt ty; omega) (by decide) (by decide) (by have := scope_lt c; have := order_lt o; omega)

theorem Sys2Proof.Laws.EncodingFits.vadd (h : Hdr) (k : Mask) (ty : Ty) (d : R32) (a : R32) (b : R32) :
    Statement (.vadd h k ty d a b) := by
  rintro e ⟨⟩
  exact mid_fits h (by decide) (by have := d.isLt; omega) (by have := a.isLt; omega) (by have := b.isLt; omega) (by decide) (by have := ty_lt ty; omega) (by have := k.m.isLt; omega) (by have := bool_lt k.z; omega) (by decide)

theorem Sys2Proof.Laws.EncodingFits.vsub (h : Hdr) (k : Mask) (ty : Ty) (d : R32) (a : R32) (b : R32) :
    Statement (.vsub h k ty d a b) := by
  rintro e ⟨⟩
  exact mid_fits h (by decide) (by have := d.isLt; omega) (by have := a.isLt; omega) (by have := b.isLt; omega) (by decide) (by have := ty_lt ty; omega) (by have := k.m.isLt; omega) (by have := bool_lt k.z; omega) (by decide)

theorem Sys2Proof.Laws.EncodingFits.vmul (h : Hdr) (k : Mask) (ty : Ty) (d : R32) (a : R32) (b : R32) :
    Statement (.vmul h k ty d a b) := by
  rintro e ⟨⟩
  exact mid_fits h (by decide) (by have := d.isLt; omega) (by have := a.isLt; omega) (by have := b.isLt; omega) (by decide) (by have := ty_lt ty; omega) (by have := k.m.isLt; omega) (by have := bool_lt k.z; omega) (by decide)

theorem Sys2Proof.Laws.EncodingFits.vaddSat (h : Hdr) (k : Mask) (ty : Ty) (d : R32) (a : R32) (b : R32) :
    Statement (.vaddSat h k ty d a b) := by
  rintro e ⟨⟩
  exact mid_fits h (by decide) (by have := d.isLt; omega) (by have := a.isLt; omega) (by have := b.isLt; omega) (by decide) (by have := ty_lt ty; omega) (by have := k.m.isLt; omega) (by have := bool_lt k.z; omega) (by decide)

theorem Sys2Proof.Laws.EncodingFits.vsubSat (h : Hdr) (k : Mask) (ty : Ty) (d : R32) (a : R32) (b : R32) :
    Statement (.vsubSat h k ty d a b) := by
  rintro e ⟨⟩
  exact mid_fits h (by decide) (by have := d.isLt; omega) (by have := a.isLt; omega) (by have := b.isLt; omega) (by decide) (by have := ty_lt ty; omega) (by have := k.m.isLt; omega) (by have := bool_lt k.z; omega) (by decide)

theorem Sys2Proof.Laws.EncodingFits.vmin (h : Hdr) (k : Mask) (ty : Ty) (d : R32) (a : R32) (b : R32) :
    Statement (.vmin h k ty d a b) := by
  rintro e ⟨⟩
  exact mid_fits h (by decide) (by have := d.isLt; omega) (by have := a.isLt; omega) (by have := b.isLt; omega) (by decide) (by have := ty_lt ty; omega) (by have := k.m.isLt; omega) (by have := bool_lt k.z; omega) (by decide)

theorem Sys2Proof.Laws.EncodingFits.vmax (h : Hdr) (k : Mask) (ty : Ty) (d : R32) (a : R32) (b : R32) :
    Statement (.vmax h k ty d a b) := by
  rintro e ⟨⟩
  exact mid_fits h (by decide) (by have := d.isLt; omega) (by have := a.isLt; omega) (by have := b.isLt; omega) (by decide) (by have := ty_lt ty; omega) (by have := k.m.isLt; omega) (by have := bool_lt k.z; omega) (by decide)

theorem Sys2Proof.Laws.EncodingFits.vabs (h : Hdr) (k : Mask) (ty : Ty) (d : R32) (a : R32) :
    Statement (.vabs h k ty d a) := by
  rintro e ⟨⟩
  exact mid_fits h (by decide) (by have := d.isLt; omega) (by have := a.isLt; omega) (by decide) (by decide) (by have := ty_lt ty; omega) (by have := k.m.isLt; omega) (by have := bool_lt k.z; omega) (by decide)

theorem Sys2Proof.Laws.EncodingFits.vneg (h : Hdr) (k : Mask) (ty : Ty) (d : R32) (a : R32) :
    Statement (.vneg h k ty d a) := by
  rintro e ⟨⟩
  exact mid_fits h (by decide) (by have := d.isLt; omega) (by have := a.isLt; omega) (by decide) (by decide) (by have := ty_lt ty; omega) (by have := k.m.isLt; omega) (by have := bool_lt k.z; omega) (by decide)

theorem Sys2Proof.Laws.EncodingFits.vand (h : Hdr) (k : Mask) (ty : Ty) (d : R32) (a : R32) (b : R32) :
    Statement (.vand h k ty d a b) := by
  rintro e ⟨⟩
  exact mid_fits h (by decide) (by have := d.isLt; omega) (by have := a.isLt; omega) (by have := b.isLt; omega) (by decide) (by have := ty_lt ty; omega) (by have := k.m.isLt; omega) (by have := bool_lt k.z; omega) (by decide)

theorem Sys2Proof.Laws.EncodingFits.vor (h : Hdr) (k : Mask) (ty : Ty) (d : R32) (a : R32) (b : R32) :
    Statement (.vor h k ty d a b) := by
  rintro e ⟨⟩
  exact mid_fits h (by decide) (by have := d.isLt; omega) (by have := a.isLt; omega) (by have := b.isLt; omega) (by decide) (by have := ty_lt ty; omega) (by have := k.m.isLt; omega) (by have := bool_lt k.z; omega) (by decide)

theorem Sys2Proof.Laws.EncodingFits.vxor (h : Hdr) (k : Mask) (ty : Ty) (d : R32) (a : R32) (b : R32) :
    Statement (.vxor h k ty d a b) := by
  rintro e ⟨⟩
  exact mid_fits h (by decide) (by have := d.isLt; omega) (by have := a.isLt; omega) (by have := b.isLt; omega) (by decide) (by have := ty_lt ty; omega) (by have := k.m.isLt; omega) (by have := bool_lt k.z; omega) (by decide)

theorem Sys2Proof.Laws.EncodingFits.vandn (h : Hdr) (k : Mask) (ty : Ty) (d : R32) (a : R32) (b : R32) :
    Statement (.vandn h k ty d a b) := by
  rintro e ⟨⟩
  exact mid_fits h (by decide) (by have := d.isLt; omega) (by have := a.isLt; omega) (by have := b.isLt; omega) (by decide) (by have := ty_lt ty; omega) (by have := k.m.isLt; omega) (by have := bool_lt k.z; omega) (by decide)

theorem Sys2Proof.Laws.EncodingFits.vshl (h : Hdr) (k : Mask) (ty : Ty) (d : R32) (a : R32) (b : R32) :
    Statement (.vshl h k ty d a b) := by
  rintro e ⟨⟩
  exact mid_fits h (by decide) (by have := d.isLt; omega) (by have := a.isLt; omega) (by have := b.isLt; omega) (by decide) (by have := ty_lt ty; omega) (by have := k.m.isLt; omega) (by have := bool_lt k.z; omega) (by decide)

theorem Sys2Proof.Laws.EncodingFits.vshr (h : Hdr) (k : Mask) (ty : Ty) (d : R32) (a : R32) (b : R32) :
    Statement (.vshr h k ty d a b) := by
  rintro e ⟨⟩
  exact mid_fits h (by decide) (by have := d.isLt; omega) (by have := a.isLt; omega) (by have := b.isLt; omega) (by decide) (by have := ty_lt ty; omega) (by have := k.m.isLt; omega) (by have := bool_lt k.z; omega) (by decide)

theorem Sys2Proof.Laws.EncodingFits.vsar (h : Hdr) (k : Mask) (ty : Ty) (d : R32) (a : R32) (b : R32) :
    Statement (.vsar h k ty d a b) := by
  rintro e ⟨⟩
  exact mid_fits h (by decide) (by have := d.isLt; omega) (by have := a.isLt; omega) (by have := b.isLt; omega) (by decide) (by have := ty_lt ty; omega) (by have := k.m.isLt; omega) (by have := bool_lt k.z; omega) (by decide)

theorem Sys2Proof.Laws.EncodingFits.vshlImmediate (h : Hdr) (k : Mask) (ty : Ty) (d : R32) (a : R32) (n : BitVec 6) :
    Statement (.vshlImmediate h k ty d a n) := by
  rintro e ⟨⟩
  exact mid_fits h (by decide) (by have := d.isLt; omega) (by have := a.isLt; omega) (by decide) (by decide) (by have := ty_lt ty; omega) (by have := k.m.isLt; omega) (by have := bool_lt k.z; omega) (by have := n.isLt; omega)

theorem Sys2Proof.Laws.EncodingFits.vshrImmediate (h : Hdr) (k : Mask) (ty : Ty) (d : R32) (a : R32) (n : BitVec 6) :
    Statement (.vshrImmediate h k ty d a n) := by
  rintro e ⟨⟩
  exact mid_fits h (by decide) (by have := d.isLt; omega) (by have := a.isLt; omega) (by decide) (by decide) (by have := ty_lt ty; omega) (by have := k.m.isLt; omega) (by have := bool_lt k.z; omega) (by have := n.isLt; omega)

theorem Sys2Proof.Laws.EncodingFits.vsarImmediate (h : Hdr) (k : Mask) (ty : Ty) (d : R32) (a : R32) (n : BitVec 6) :
    Statement (.vsarImmediate h k ty d a n) := by
  rintro e ⟨⟩
  exact mid_fits h (by decide) (by have := d.isLt; omega) (by have := a.isLt; omega) (by decide) (by decide) (by have := ty_lt ty; omega) (by have := k.m.isLt; omega) (by have := bool_lt k.z; omega) (by have := n.isLt; omega)

theorem Sys2Proof.Laws.EncodingFits.vmov (h : Hdr) (k : Mask) (ty : Ty) (d : R32) (a : R32) :
    Statement (.vmov h k ty d a) := by
  rintro e ⟨⟩
  exact mid_fits h (by decide) (by have := d.isLt; omega) (by have := a.isLt; omega) (by decide) (by decide) (by have := ty_lt ty; omega) (by have := k.m.isLt; omega) (by have := bool_lt k.z; omega) (by decide)

theorem Sys2Proof.Laws.EncodingFits.vectorBroadcastLiteral (h : Hdr) (k : Mask) (op : BcastOp) (ty : Ty) (d : R32) (a : R32) (lit : BitVec 32) :
    Statement (.vectorBroadcastLiteral h k op ty d a lit) := by
  rintro e ⟨⟩
  exact long_fits h lit (by decide) (by have := d.isLt; omega) (by have := a.isLt; omega) (by decide) (by have := bcast_lt op; omega) (by have := ty_lt ty; omega) (by have := k.m.isLt; omega) (by have := bool_lt k.z; omega) (by decide)

theorem Sys2Proof.Laws.EncodingFits.vaddFloat (h : Hdr) (k : Mask) (ty : Ty) (rm : Rm) (d : R32) (a : R32) (b : R32) :
    Statement (.vaddFloat h k ty rm d a b) := by
  rintro e ⟨⟩
  exact mid_fits h (by decide) (by have := d.isLt; omega) (by have := a.isLt; omega) (by have := b.isLt; omega) (by have := rm_lt rm; omega) (by have := ty_lt ty; omega) (by have := k.m.isLt; omega) (by have := bool_lt k.z; omega) (by decide)

theorem Sys2Proof.Laws.EncodingFits.vsubFloat (h : Hdr) (k : Mask) (ty : Ty) (rm : Rm) (d : R32) (a : R32) (b : R32) :
    Statement (.vsubFloat h k ty rm d a b) := by
  rintro e ⟨⟩
  exact mid_fits h (by decide) (by have := d.isLt; omega) (by have := a.isLt; omega) (by have := b.isLt; omega) (by have := rm_lt rm; omega) (by have := ty_lt ty; omega) (by have := k.m.isLt; omega) (by have := bool_lt k.z; omega) (by decide)

theorem Sys2Proof.Laws.EncodingFits.vmulFloat (h : Hdr) (k : Mask) (ty : Ty) (rm : Rm) (d : R32) (a : R32) (b : R32) :
    Statement (.vmulFloat h k ty rm d a b) := by
  rintro e ⟨⟩
  exact mid_fits h (by decide) (by have := d.isLt; omega) (by have := a.isLt; omega) (by have := b.isLt; omega) (by have := rm_lt rm; omega) (by have := ty_lt ty; omega) (by have := k.m.isLt; omega) (by have := bool_lt k.z; omega) (by decide)

theorem Sys2Proof.Laws.EncodingFits.vfma (h : Hdr) (k : Mask) (ty : Ty) (rm : Rm) (d : R32) (a : R32) (b : R32) :
    Statement (.vfma h k ty rm d a b) := by
  rintro e ⟨⟩
  exact mid_fits h (by decide) (by have := d.isLt; omega) (by have := a.isLt; omega) (by have := b.isLt; omega) (by have := rm_lt rm; omega) (by have := ty_lt ty; omega) (by have := k.m.isLt; omega) (by have := bool_lt k.z; omega) (by decide)

theorem Sys2Proof.Laws.EncodingFits.vfms (h : Hdr) (k : Mask) (ty : Ty) (rm : Rm) (d : R32) (a : R32) (b : R32) :
    Statement (.vfms h k ty rm d a b) := by
  rintro e ⟨⟩
  exact mid_fits h (by decide) (by have := d.isLt; omega) (by have := a.isLt; omega) (by have := b.isLt; omega) (by have := rm_lt rm; omega) (by have := ty_lt ty; omega) (by have := k.m.isLt; omega) (by have := bool_lt k.z; omega) (by decide)

theorem Sys2Proof.Laws.EncodingFits.vminFloat (h : Hdr) (k : Mask) (ty : Ty) (d : R32) (a : R32) (b : R32) :
    Statement (.vminFloat h k ty d a b) := by
  rintro e ⟨⟩
  exact mid_fits h (by decide) (by have := d.isLt; omega) (by have := a.isLt; omega) (by have := b.isLt; omega) (by decide) (by have := ty_lt ty; omega) (by have := k.m.isLt; omega) (by have := bool_lt k.z; omega) (by decide)

theorem Sys2Proof.Laws.EncodingFits.vmaxFloat (h : Hdr) (k : Mask) (ty : Ty) (d : R32) (a : R32) (b : R32) :
    Statement (.vmaxFloat h k ty d a b) := by
  rintro e ⟨⟩
  exact mid_fits h (by decide) (by have := d.isLt; omega) (by have := a.isLt; omega) (by have := b.isLt; omega) (by decide) (by have := ty_lt ty; omega) (by have := k.m.isLt; omega) (by have := bool_lt k.z; omega) (by decide)

theorem Sys2Proof.Laws.EncodingFits.vabsFloat (h : Hdr) (k : Mask) (ty : Ty) (d : R32) (a : R32) :
    Statement (.vabsFloat h k ty d a) := by
  rintro e ⟨⟩
  exact mid_fits h (by decide) (by have := d.isLt; omega) (by have := a.isLt; omega) (by decide) (by decide) (by have := ty_lt ty; omega) (by have := k.m.isLt; omega) (by have := bool_lt k.z; omega) (by decide)

theorem Sys2Proof.Laws.EncodingFits.vnegFloat (h : Hdr) (k : Mask) (ty : Ty) (d : R32) (a : R32) :
    Statement (.vnegFloat h k ty d a) := by
  rintro e ⟨⟩
  exact mid_fits h (by decide) (by have := d.isLt; omega) (by have := a.isLt; omega) (by decide) (by decide) (by have := ty_lt ty; omega) (by have := k.m.isLt; omega) (by have := bool_lt k.z; omega) (by decide)

theorem Sys2Proof.Laws.EncodingFits.vdiv (h : Hdr) (k : Mask) (ty : Ty) (rm : Rm) (d : R32) (a : R32) (b : R32) :
    Statement (.vdiv h k ty rm d a b) := by
  rintro e ⟨⟩
  exact mid_fits h (by decide) (by have := d.isLt; omega) (by have := a.isLt; omega) (by have := b.isLt; omega) (by have := rm_lt rm; omega) (by have := ty_lt ty; omega) (by have := k.m.isLt; omega) (by have := bool_lt k.z; omega) (by decide)

theorem Sys2Proof.Laws.EncodingFits.vsqrt (h : Hdr) (k : Mask) (ty : Ty) (rm : Rm) (d : R32) (a : R32) :
    Statement (.vsqrt h k ty rm d a) := by
  rintro e ⟨⟩
  exact mid_fits h (by decide) (by have := d.isLt; omega) (by have := a.isLt; omega) (by decide) (by have := rm_lt rm; omega) (by have := ty_lt ty; omega) (by have := k.m.isLt; omega) (by have := bool_lt k.z; omega) (by decide)

theorem Sys2Proof.Laws.EncodingFits.vcmp (h : Hdr) (m : R8) (c : Cond) (ty : Ty) (d : R8) (a : R32) (b : R32) :
    Statement (.vcmp h m c ty d a b) := by
  rintro e ⟨⟩
  exact mid_fits h (by decide) (by have := d.isLt; omega) (by have := a.isLt; omega) (by have := b.isLt; omega) (by have := cond_lt c; omega) (by have := ty_lt ty; omega) (by have := m.isLt; omega) (by decide) (by decide)

theorem Sys2Proof.Laws.EncodingFits.vsel (h : Hdr) (m : R8) (ty : Ty) (d : R32) (a : R32) (b : R32) :
    Statement (.vsel h m ty d a b) := by
  rintro e ⟨⟩
  exact mid_fits h (by decide) (by have := d.isLt; omega) (by have := a.isLt; omega) (by have := b.isLt; omega) (by decide) (by have := ty_lt ty; omega) (by have := m.isLt; omega) (by decide) (by decide)

theorem Sys2Proof.Laws.EncodingFits.mand (h : Hdr) (d : R8) (a : R8) (b : R8) :
    Statement (.mand h d a b) := by
  rintro e ⟨⟩
  exact mid_fits h (by decide) (by have := d.isLt; omega) (by have := a.isLt; omega) (by have := b.isLt; omega) (by decide) (by decide) (by decide) (by decide) (by decide)

theorem Sys2Proof.Laws.EncodingFits.mor (h : Hdr) (d : R8) (a : R8) (b : R8) :
    Statement (.mor h d a b) := by
  rintro e ⟨⟩
  exact mid_fits h (by decide) (by have := d.isLt; omega) (by have := a.isLt; omega) (by have := b.isLt; omega) (by decide) (by decide) (by decide) (by decide) (by decide)

theorem Sys2Proof.Laws.EncodingFits.mxor (h : Hdr) (d : R8) (a : R8) (b : R8) :
    Statement (.mxor h d a b) := by
  rintro e ⟨⟩
  exact mid_fits h (by decide) (by have := d.isLt; omega) (by have := a.isLt; omega) (by have := b.isLt; omega) (by decide) (by decide) (by decide) (by decide) (by decide)

theorem Sys2Proof.Laws.EncodingFits.mnot (h : Hdr) (d : R8) (a : R8) :
    Statement (.mnot h d a) := by
  rintro e ⟨⟩
  exact mid_fits h (by decide) (by have := d.isLt; omega) (by have := a.isLt; omega) (by decide) (by decide) (by decide) (by decide) (by decide) (by decide)

theorem Sys2Proof.Laws.EncodingFits.mcnt (h : Hdr) (d : R32) (a : R8) :
    Statement (.mcnt h d a) := by
  rintro e ⟨⟩
  exact mid_fits h (by decide) (by have := d.isLt; omega) (by have := a.isLt; omega) (by decide) (by decide) (by decide) (by decide) (by decide) (by decide)

theorem Sys2Proof.Laws.EncodingFits.mfirst (h : Hdr) (d : R32) (a : R8) :
    Statement (.mfirst h d a) := by
  rintro e ⟨⟩
  exact mid_fits h (by decide) (by have := d.isLt; omega) (by have := a.isLt; omega) (by decide) (by decide) (by decide) (by decide) (by decide) (by decide)

theorem Sys2Proof.Laws.EncodingFits.vcvt (h : Hdr) (k : Mask) (dt : Ty) (sty : Ty) (rm : Rm) (sat : Bool) (d : R32) (a : R32) :
    Statement (.vcvt h k dt sty rm sat d a) := by
  rintro e ⟨⟩
  exact mid_fits h (by decide) (by have := d.isLt; omega) (by have := a.isLt; omega) (by decide) (by have := rm_lt rm; have := bool_lt sat; omega) (by have := ty_lt dt; omega) (by have := k.m.isLt; omega) (by have := bool_lt k.z; omega) (by have := ty_lt sty; omega)

theorem Sys2Proof.Laws.EncodingFits.vsplit3 (h : Hdr) (k : Mask) (d : R32) (a : R32) :
    Statement (.vsplit3 h k d a) := by
  rintro e ⟨⟩
  exact mid_fits h (by decide) (by have := d.isLt; omega) (by have := a.isLt; omega) (by decide) (by decide) (by decide) (by have := k.m.isLt; omega) (by have := bool_lt k.z; omega) (by decide)

theorem Sys2Proof.Laws.EncodingFits.vperm (h : Hdr) (k : Mask) (ty : Ty) (d : R32) (a : R32) (b : R32) :
    Statement (.vperm h k ty d a b) := by
  rintro e ⟨⟩
  exact mid_fits h (by decide) (by have := d.isLt; omega) (by have := a.isLt; omega) (by have := b.isLt; omega) (by decide) (by have := ty_lt ty; omega) (by have := k.m.isLt; omega) (by have := bool_lt k.z; omega) (by decide)

theorem Sys2Proof.Laws.EncodingFits.vzip (h : Hdr) (k : Mask) (ty : Ty) (d : R32) (a : R32) (b : R32) (hi : Bool) :
    Statement (.vzip h k ty d a b hi) := by
  rintro e ⟨⟩
  exact mid_fits h (by decide) (by have := d.isLt; omega) (by have := a.isLt; omega) (by have := b.isLt; omega) (by decide) (by have := ty_lt ty; omega) (by have := k.m.isLt; omega) (by have := bool_lt k.z; omega) (by have := bool_lt hi; omega)

theorem Sys2Proof.Laws.EncodingFits.vuzp (h : Hdr) (k : Mask) (ty : Ty) (d : R32) (a : R32) (b : R32) (odd : Bool) :
    Statement (.vuzp h k ty d a b odd) := by
  rintro e ⟨⟩
  exact mid_fits h (by decide) (by have := d.isLt; omega) (by have := a.isLt; omega) (by have := b.isLt; omega) (by decide) (by have := ty_lt ty; omega) (by have := k.m.isLt; omega) (by have := bool_lt k.z; omega) (by have := bool_lt odd; omega)

theorem Sys2Proof.Laws.EncodingFits.vbcast (h : Hdr) (k : Mask) (ty : Ty) (d : R32) (a : R32) :
    Statement (.vbcast h k ty d a) := by
  rintro e ⟨⟩
  exact mid_fits h (by decide) (by have := d.isLt; omega) (by have := a.isLt; omega) (by decide) (by decide) (by have := ty_lt ty; omega) (by have := k.m.isLt; omega) (by have := bool_lt k.z; omega) (by decide)

theorem Sys2Proof.Laws.EncodingFits.vext (h : Hdr) (ty : Ty) (d : R32) (a : R32) (b : R32) :
    Statement (.vext h ty d a b) := by
  rintro e ⟨⟩
  exact mid_fits h (by decide) (by have := d.isLt; omega) (by have := a.isLt; omega) (by have := b.isLt; omega) (by decide) (by have := ty_lt ty; omega) (by decide) (by decide) (by decide)

theorem Sys2Proof.Laws.EncodingFits.vins (h : Hdr) (ty : Ty) (d : R32) (a : R32) (b : R32) :
    Statement (.vins h ty d a b) := by
  rintro e ⟨⟩
  exact mid_fits h (by decide) (by have := d.isLt; omega) (by have := a.isLt; omega) (by have := b.isLt; omega) (by decide) (by have := ty_lt ty; omega) (by decide) (by decide) (by decide)

theorem Sys2Proof.Laws.EncodingFits.vredAdd (h : Hdr) (m : R8) (ty : Ty) (d : R32) (a : R32) :
    Statement (.vredAdd h m ty d a) := by
  rintro e ⟨⟩
  exact mid_fits h (by decide) (by have := d.isLt; omega) (by have := a.isLt; omega) (by decide) (by decide) (by have := ty_lt ty; omega) (by have := m.isLt; omega) (by decide) (by decide)

theorem Sys2Proof.Laws.EncodingFits.vredMin (h : Hdr) (m : R8) (ty : Ty) (d : R32) (a : R32) :
    Statement (.vredMin h m ty d a) := by
  rintro e ⟨⟩
  exact mid_fits h (by decide) (by have := d.isLt; omega) (by have := a.isLt; omega) (by decide) (by decide) (by have := ty_lt ty; omega) (by have := m.isLt; omega) (by decide) (by decide)

theorem Sys2Proof.Laws.EncodingFits.vredMax (h : Hdr) (m : R8) (ty : Ty) (d : R32) (a : R32) :
    Statement (.vredMax h m ty d a) := by
  rintro e ⟨⟩
  exact mid_fits h (by decide) (by have := d.isLt; omega) (by have := a.isLt; omega) (by decide) (by decide) (by have := ty_lt ty; omega) (by have := m.isLt; omega) (by decide) (by decide)

theorem Sys2Proof.Laws.EncodingFits.vredAnd (h : Hdr) (m : R8) (ty : Ty) (d : R32) (a : R32) :
    Statement (.vredAnd h m ty d a) := by
  rintro e ⟨⟩
  exact mid_fits h (by decide) (by have := d.isLt; omega) (by have := a.isLt; omega) (by decide) (by decide) (by have := ty_lt ty; omega) (by have := m.isLt; omega) (by decide) (by decide)

theorem Sys2Proof.Laws.EncodingFits.vredOr (h : Hdr) (m : R8) (ty : Ty) (d : R32) (a : R32) :
    Statement (.vredOr h m ty d a) := by
  rintro e ⟨⟩
  exact mid_fits h (by decide) (by have := d.isLt; omega) (by have := a.isLt; omega) (by decide) (by decide) (by have := ty_lt ty; omega) (by have := m.isLt; omega) (by decide) (by decide)

theorem Sys2Proof.Laws.EncodingFits.vredXor (h : Hdr) (m : R8) (ty : Ty) (d : R32) (a : R32) :
    Statement (.vredXor h m ty d a) := by
  rintro e ⟨⟩
  exact mid_fits h (by decide) (by have := d.isLt; omega) (by have := a.isLt; omega) (by decide) (by decide) (by have := ty_lt ty; omega) (by have := m.isLt; omega) (by decide) (by decide)

theorem Sys2Proof.Laws.EncodingFits.vscanAdd (h : Hdr) (k : Mask) (ty : Ty) (d : R32) (a : R32) :
    Statement (.vscanAdd h k ty d a) := by
  rintro e ⟨⟩
  exact mid_fits h (by decide) (by have := d.isLt; omega) (by have := a.isLt; omega) (by decide) (by decide) (by have := ty_lt ty; omega) (by have := k.m.isLt; omega) (by have := bool_lt k.z; omega) (by decide)

theorem Sys2Proof.Laws.EncodingFits.vscanMin (h : Hdr) (k : Mask) (ty : Ty) (d : R32) (a : R32) :
    Statement (.vscanMin h k ty d a) := by
  rintro e ⟨⟩
  exact mid_fits h (by decide) (by have := d.isLt; omega) (by have := a.isLt; omega) (by decide) (by decide) (by have := ty_lt ty; omega) (by have := k.m.isLt; omega) (by have := bool_lt k.z; omega) (by decide)

theorem Sys2Proof.Laws.EncodingFits.vscanMax (h : Hdr) (k : Mask) (ty : Ty) (d : R32) (a : R32) :
    Statement (.vscanMax h k ty d a) := by
  rintro e ⟨⟩
  exact mid_fits h (by decide) (by have := d.isLt; omega) (by have := a.isLt; omega) (by decide) (by decide) (by have := ty_lt ty; omega) (by have := k.m.isLt; omega) (by have := bool_lt k.z; omega) (by decide)

theorem Sys2Proof.Laws.EncodingFits.vscanAnd (h : Hdr) (k : Mask) (ty : Ty) (d : R32) (a : R32) :
    Statement (.vscanAnd h k ty d a) := by
  rintro e ⟨⟩
  exact mid_fits h (by decide) (by have := d.isLt; omega) (by have := a.isLt; omega) (by decide) (by decide) (by have := ty_lt ty; omega) (by have := k.m.isLt; omega) (by have := bool_lt k.z; omega) (by decide)

theorem Sys2Proof.Laws.EncodingFits.vscanOr (h : Hdr) (k : Mask) (ty : Ty) (d : R32) (a : R32) :
    Statement (.vscanOr h k ty d a) := by
  rintro e ⟨⟩
  exact mid_fits h (by decide) (by have := d.isLt; omega) (by have := a.isLt; omega) (by decide) (by decide) (by have := ty_lt ty; omega) (by have := k.m.isLt; omega) (by have := bool_lt k.z; omega) (by decide)

theorem Sys2Proof.Laws.EncodingFits.vscanXor (h : Hdr) (k : Mask) (ty : Ty) (d : R32) (a : R32) :
    Statement (.vscanXor h k ty d a) := by
  rintro e ⟨⟩
  exact mid_fits h (by decide) (by have := d.isLt; omega) (by have := a.isLt; omega) (by decide) (by decide) (by have := ty_lt ty; omega) (by have := k.m.isLt; omega) (by have := bool_lt k.z; omega) (by decide)

theorem Sys2Proof.Laws.EncodingFits.vexp2 (h : Hdr) (k : Mask) (ty : Ty) (d : R32) (a : R32) :
    Statement (.vexp2 h k ty d a) := by
  rintro e ⟨⟩
  exact mid_fits h (by decide) (by have := d.isLt; omega) (by have := a.isLt; omega) (by decide) (by decide) (by have := ty_lt ty; omega) (by have := k.m.isLt; omega) (by have := bool_lt k.z; omega) (by decide)

theorem Sys2Proof.Laws.EncodingFits.vlog2 (h : Hdr) (k : Mask) (ty : Ty) (d : R32) (a : R32) :
    Statement (.vlog2 h k ty d a) := by
  rintro e ⟨⟩
  exact mid_fits h (by decide) (by have := d.isLt; omega) (by have := a.isLt; omega) (by decide) (by decide) (by have := ty_lt ty; omega) (by have := k.m.isLt; omega) (by have := bool_lt k.z; omega) (by decide)

theorem Sys2Proof.Laws.EncodingFits.vrcp (h : Hdr) (k : Mask) (ty : Ty) (d : R32) (a : R32) :
    Statement (.vrcp h k ty d a) := by
  rintro e ⟨⟩
  exact mid_fits h (by decide) (by have := d.isLt; omega) (by have := a.isLt; omega) (by decide) (by decide) (by have := ty_lt ty; omega) (by have := k.m.isLt; omega) (by have := bool_lt k.z; omega) (by decide)

theorem Sys2Proof.Laws.EncodingFits.vrsqrt (h : Hdr) (k : Mask) (ty : Ty) (d : R32) (a : R32) :
    Statement (.vrsqrt h k ty d a) := by
  rintro e ⟨⟩
  exact mid_fits h (by decide) (by have := d.isLt; omega) (by have := a.isLt; omega) (by decide) (by decide) (by have := ty_lt ty; omega) (by have := k.m.isLt; omega) (by have := bool_lt k.z; omega) (by decide)

theorem Sys2Proof.Laws.EncodingFits.vsinpi (h : Hdr) (k : Mask) (ty : Ty) (d : R32) (a : R32) :
    Statement (.vsinpi h k ty d a) := by
  rintro e ⟨⟩
  exact mid_fits h (by decide) (by have := d.isLt; omega) (by have := a.isLt; omega) (by decide) (by decide) (by have := ty_lt ty; omega) (by have := k.m.isLt; omega) (by have := bool_lt k.z; omega) (by decide)

theorem Sys2Proof.Laws.EncodingFits.vcospi (h : Hdr) (k : Mask) (ty : Ty) (d : R32) (a : R32) :
    Statement (.vcospi h k ty d a) := by
  rintro e ⟨⟩
  exact mid_fits h (by decide) (by have := d.isLt; omega) (by have := a.isLt; omega) (by decide) (by decide) (by have := ty_lt ty; omega) (by have := k.m.isLt; omega) (by have := bool_lt k.z; omega) (by decide)

theorem Sys2Proof.Laws.EncodingFits.vtanh (h : Hdr) (k : Mask) (ty : Ty) (d : R32) (a : R32) :
    Statement (.vtanh h k ty d a) := by
  rintro e ⟨⟩
  exact mid_fits h (by decide) (by have := d.isLt; omega) (by have := a.isLt; omega) (by decide) (by decide) (by have := ty_lt ty; omega) (by have := k.m.isLt; omega) (by have := bool_lt k.z; omega) (by decide)

theorem Sys2Proof.Laws.EncodingFits.vdot (h : Hdr) (k : Mask) (ty : Ty) (d : R32) (a : R32) (b : R32) :
    Statement (.vdot h k ty d a b) := by
  rintro e ⟨⟩
  exact mid_fits h (by decide) (by have := d.isLt; omega) (by have := a.isLt; omega) (by have := b.isLt; omega) (by decide) (by have := ty_lt ty; omega) (by have := k.m.isLt; omega) (by have := bool_lt k.z; omega) (by decide)

theorem Sys2Proof.Laws.EncodingFits.vkeyMort (h : Hdr) (k : Mask) (ty : Ty) (d : R32) (a : R32) (n : BitVec 5) :
    Statement (.vkeyMort h k ty d a n) := by
  rintro e ⟨⟩
  exact mid_fits h (by decide) (by have := d.isLt; omega) (by have := a.isLt; omega) (by decide) (by decide) (by have := ty_lt ty; omega) (by have := k.m.isLt; omega) (by have := bool_lt k.z; omega) (by have := n.isLt; omega)

theorem Sys2Proof.Laws.EncodingFits.vkeyHilb (h : Hdr) (k : Mask) (ty : Ty) (d : R32) (a : R32) (n : BitVec 5) :
    Statement (.vkeyHilb h k ty d a n) := by
  rintro e ⟨⟩
  exact mid_fits h (by decide) (by have := d.isLt; omega) (by have := a.isLt; omega) (by decide) (by decide) (by have := ty_lt ty; omega) (by have := k.m.isLt; omega) (by have := bool_lt k.z; omega) (by have := n.isLt; omega)

theorem Sys2Proof.Laws.EncodingFits.vclass (h : Hdr) (k : Mask) (ty : Ty) (d : R32) (a : R32) :
    Statement (.vclass h k ty d a) := by
  rintro e ⟨⟩
  exact mid_fits h (by decide) (by have := d.isLt; omega) (by have := a.isLt; omega) (by decide) (by decide) (by have := ty_lt ty; omega) (by have := k.m.isLt; omega) (by have := bool_lt k.z; omega) (by decide)

theorem Sys2Proof.Laws.EncodingFits.viota (h : Hdr) (k : Mask) (ty : Ty) (d : R32) :
    Statement (.viota h k ty d) := by
  rintro e ⟨⟩
  exact mid_fits h (by decide) (by have := d.isLt; omega) (by decide) (by decide) (by decide) (by have := ty_lt ty; omega) (by have := k.m.isLt; omega) (by have := bool_lt k.z; omega) (by decide)

theorem Sys2Proof.Laws.EncodingFits.vld (h : Hdr) (k : Mask) (ty : Ty) (d : R32) (a : R32) (i : BitVec 14) :
    Statement (.vld h k ty d a i) := by
  rintro e ⟨⟩
  exact mid_fits h (by decide) (by have := d.isLt; omega) (by have := a.isLt; omega) (by decide) (by decide) (by have := ty_lt ty; omega) (by have := k.m.isLt; omega) (by have := bool_lt k.z; omega) (by have := i.isLt; omega)

theorem Sys2Proof.Laws.EncodingFits.vlds (h : Hdr) (k : Mask) (ty : Ty) (d : R32) (a : R32) (b : R32) (i : BitVec 14) :
    Statement (.vlds h k ty d a b i) := by
  rintro e ⟨⟩
  exact mid_fits h (by decide) (by have := d.isLt; omega) (by have := a.isLt; omega) (by have := b.isLt; omega) (by decide) (by have := ty_lt ty; omega) (by have := k.m.isLt; omega) (by have := bool_lt k.z; omega) (by have := i.isLt; omega)

theorem Sys2Proof.Laws.EncodingFits.vldsLiteral (h : Hdr) (k : Mask) (ty : Ty) (d : R32) (a : R32) (lit : BitVec 32) :
    Statement (.vldsLiteral h k ty d a lit) := by
  rintro e ⟨⟩
  exact long_fits h lit (by decide) (by have := d.isLt; omega) (by have := a.isLt; omega) (by decide) (by decide) (by have := ty_lt ty; omega) (by have := k.m.isLt; omega) (by have := bool_lt k.z; omega) (by decide)

theorem Sys2Proof.Laws.EncodingFits.vgat (h : Hdr) (k : Mask) (ty : Ty) (d : R32) (a : R32) (b : R32) (s : R4) :
    Statement (.vgat h k ty d a b s) := by
  rintro e ⟨⟩
  exact mid_fits h (by decide) (by have := d.isLt; omega) (by have := a.isLt; omega) (by have := b.isLt; omega) (by decide) (by have := ty_lt ty; omega) (by have := k.m.isLt; omega) (by have := bool_lt k.z; omega) (by have := s.isLt; omega)

theorem Sys2Proof.Laws.EncodingFits.vldb (h : Hdr) (k : Mask) (ty : Ty) (d : R32) (a : R32) (i : BitVec 14) :
    Statement (.vldb h k ty d a i) := by
  rintro e ⟨⟩
  exact mid_fits h (by decide) (by have := d.isLt; omega) (by have := a.isLt; omega) (by decide) (by decide) (by have := ty_lt ty; omega) (by have := k.m.isLt; omega) (by have := bool_lt k.z; omega) (by have := i.isLt; omega)

theorem Sys2Proof.Laws.EncodingFits.vst (h : Hdr) (m : R8) (ty : Ty) (d : R32) (a : R32) (i : BitVec 14) :
    Statement (.vst h m ty d a i) := by
  rintro e ⟨⟩
  exact mid_fits h (by decide) (by have := d.isLt; omega) (by have := a.isLt; omega) (by decide) (by decide) (by have := ty_lt ty; omega) (by have := m.isLt; omega) (by decide) (by have := i.isLt; omega)

theorem Sys2Proof.Laws.EncodingFits.vsts (h : Hdr) (m : R8) (ty : Ty) (d : R32) (a : R32) (b : R32) (i : BitVec 14) :
    Statement (.vsts h m ty d a b i) := by
  rintro e ⟨⟩
  exact mid_fits h (by decide) (by have := d.isLt; omega) (by have := a.isLt; omega) (by have := b.isLt; omega) (by decide) (by have := ty_lt ty; omega) (by have := m.isLt; omega) (by decide) (by have := i.isLt; omega)

theorem Sys2Proof.Laws.EncodingFits.vstsLiteral (h : Hdr) (m : R8) (ty : Ty) (d : R32) (a : R32) (lit : BitVec 32) :
    Statement (.vstsLiteral h m ty d a lit) := by
  rintro e ⟨⟩
  exact long_fits h lit (by decide) (by have := d.isLt; omega) (by have := a.isLt; omega) (by decide) (by decide) (by have := ty_lt ty; omega) (by have := m.isLt; omega) (by decide) (by decide)

theorem Sys2Proof.Laws.EncodingFits.vsct (h : Hdr) (m : R8) (ty : Ty) (d : R32) (a : R32) (b : R32) (s : R4) :
    Statement (.vsct h m ty d a b s) := by
  rintro e ⟨⟩
  exact mid_fits h (by decide) (by have := d.isLt; omega) (by have := a.isLt; omega) (by have := b.isLt; omega) (by decide) (by have := ty_lt ty; omega) (by have := m.isLt; omega) (by decide) (by have := s.isLt; omega)

theorem Sys2Proof.Laws.EncodingFits.tld (h : Hdr) (d : R8) (a : R32) (b : R32) (rows : BitVec 6) (rb : BitVec 4) :
    Statement (.tld h d a b rows rb) := by
  rintro e ⟨⟩
  exact mid_fits h (by decide) (by have := d.isLt; omega) (by have := a.isLt; omega) (by have := b.isLt; omega) (by decide) (by decide) (by decide) (by decide) (by have := rb.isLt; have := rows.isLt; omega)

theorem Sys2Proof.Laws.EncodingFits.tldLiteral (h : Hdr) (d : R8) (a : R32) (rows : BitVec 6) (rb : BitVec 4) (lit : BitVec 32) :
    Statement (.tldLiteral h d a rows rb lit) := by
  rintro e ⟨⟩
  exact long_fits h lit (by decide) (by have := d.isLt; omega) (by have := a.isLt; omega) (by decide) (by decide) (by decide) (by decide) (by decide) (by have := rb.isLt; have := rows.isLt; omega)

theorem Sys2Proof.Laws.EncodingFits.tldT2 (h : Hdr) (d : R8) (a : R32) (b : R32) (rows : BitVec 6) (rb : BitVec 4) :
    Statement (.tldT2 h d a b rows rb) := by
  rintro e ⟨⟩
  exact mid_fits h (by decide) (by have := d.isLt; omega) (by have := a.isLt; omega) (by have := b.isLt; omega) (by decide) (by decide) (by decide) (by decide) (by have := rb.isLt; have := rows.isLt; omega)

theorem Sys2Proof.Laws.EncodingFits.tldT2Literal (h : Hdr) (d : R8) (a : R32) (rows : BitVec 6) (rb : BitVec 4) (lit : BitVec 32) :
    Statement (.tldT2Literal h d a rows rb lit) := by
  rintro e ⟨⟩
  exact long_fits h lit (by decide) (by have := d.isLt; omega) (by have := a.isLt; omega) (by decide) (by decide) (by decide) (by decide) (by decide) (by have := rb.isLt; have := rows.isLt; omega)

theorem Sys2Proof.Laws.EncodingFits.tst (h : Hdr) (d : R8) (a : R32) (b : R32) (rows : BitVec 6) (rb : BitVec 4) :
    Statement (.tst h d a b rows rb) := by
  rintro e ⟨⟩
  exact mid_fits h (by decide) (by have := d.isLt; omega) (by have := a.isLt; omega) (by have := b.isLt; omega) (by decide) (by decide) (by decide) (by decide) (by have := rb.isLt; have := rows.isLt; omega)

theorem Sys2Proof.Laws.EncodingFits.tstLiteral (h : Hdr) (d : R8) (a : R32) (rows : BitVec 6) (rb : BitVec 4) (lit : BitVec 32) :
    Statement (.tstLiteral h d a rows rb lit) := by
  rintro e ⟨⟩
  exact long_fits h lit (by decide) (by have := d.isLt; omega) (by have := a.isLt; omega) (by decide) (by decide) (by decide) (by decide) (by decide) (by have := rb.isLt; have := rows.isLt; omega)

theorem Sys2Proof.Laws.EncodingFits.tstT2 (h : Hdr) (d : R8) (a : R32) (b : R32) (rows : BitVec 6) (rb : BitVec 4) :
    Statement (.tstT2 h d a b rows rb) := by
  rintro e ⟨⟩
  exact mid_fits h (by decide) (by have := d.isLt; omega) (by have := a.isLt; omega) (by have := b.isLt; omega) (by decide) (by decide) (by decide) (by decide) (by have := rb.isLt; have := rows.isLt; omega)

theorem Sys2Proof.Laws.EncodingFits.tstT2Literal (h : Hdr) (d : R8) (a : R32) (rows : BitVec 6) (rb : BitVec 4) (lit : BitVec 32) :
    Statement (.tstT2Literal h d a rows rb lit) := by
  rintro e ⟨⟩
  exact long_fits h lit (by decide) (by have := d.isLt; omega) (by have := a.isLt; omega) (by decide) (by decide) (by decide) (by decide) (by decide) (by have := rb.isLt; have := rows.isLt; omega)

theorem Sys2Proof.Laws.EncodingFits.tzero (h : Hdr) (d : R8) :
    Statement (.tzero h d) := by
  rintro e ⟨⟩
  exact mid_fits h (by decide) (by have := d.isLt; omega) (by decide) (by decide) (by decide) (by decide) (by decide) (by decide) (by decide)

theorem Sys2Proof.Laws.EncodingFits.tmov (h : Hdr) (d : R8) (a : R8) :
    Statement (.tmov h d a) := by
  rintro e ⟨⟩
  exact mid_fits h (by decide) (by have := d.isLt; omega) (by have := a.isLt; omega) (by decide) (by decide) (by decide) (by decide) (by decide) (by decide)

theorem Sys2Proof.Laws.EncodingFits.tr2v (h : Hdr) (d : R32) (a : R8) (row : BitVec 6) (hi : Bool) :
    Statement (.tr2v h d a row hi) := by
  rintro e ⟨⟩
  exact mid_fits h (by decide) (by have := d.isLt; omega) (by have := a.isLt; omega) (by decide) (by decide) (by decide) (by decide) (by decide) (by have := bool_lt hi; have := row.isLt; omega)

theorem Sys2Proof.Laws.EncodingFits.v2tr (h : Hdr) (d : R8) (a : R32) (row : BitVec 6) (hi : Bool) :
    Statement (.v2tr h d a row hi) := by
  rintro e ⟨⟩
  exact mid_fits h (by decide) (by have := d.isLt; omega) (by have := a.isLt; omega) (by decide) (by decide) (by decide) (by decide) (by decide) (by have := bool_lt hi; have := row.isLt; omega)

theorem Sys2Proof.Laws.EncodingFits.tdisc (h : Hdr) (list : BitVec 14) :
    Statement (.tdisc h list) := by
  rintro e ⟨⟩
  exact mid_fits h (by decide) (by decide) (by decide) (by decide) (by decide) (by decide) (by decide) (by decide) (by have := list.isLt; omega)

theorem Sys2Proof.Laws.EncodingFits.tstat (h : Hdr) (d : R32) (x : TileName) :
    Statement (.tstat h d x) := by
  rintro e ⟨⟩
  exact mid_fits h (by decide) (by have := d.isLt; omega) (by have := tile_lt x; omega) (by decide) (by decide) (by decide) (by decide) (by decide) (by decide)

theorem Sys2Proof.Laws.EncodingFits.wld (h : Hdr) (ty : Ty) (a : R8) :
    Statement (.wld h ty a) := by
  rintro e ⟨⟩
  exact mid_fits h (by decide) (by decide) (by have := a.isLt; omega) (by decide) (by decide) (by have := ty_lt ty; omega) (by decide) (by decide) (by decide)

theorem Sys2Proof.Laws.EncodingFits.wldT2 (h : Hdr) (a : R8) :
    Statement (.wldT2 h a) := by
  rintro e ⟨⟩
  exact mid_fits h (by decide) (by decide) (by have := a.isLt; omega) (by decide) (by decide) (by decide) (by decide) (by decide) (by decide)

theorem Sys2Proof.Laws.EncodingFits.wldT2Memory (h : Hdr) (a : R32) (lit : BitVec 32) :
    Statement (.wldT2Memory h a lit) := by
  rintro e ⟨⟩
  exact long_fits h lit (by decide) (by decide) (by have := a.isLt; omega) (by decide) (by decide) (by decide) (by decide) (by decide) (by decide)

theorem Sys2Proof.Laws.EncodingFits.wldPip (h : Hdr) (a : R32) (lit : BitVec 32) :
    Statement (.wldPip h a lit) := by
  rintro e ⟨⟩
  exact long_fits h lit (by decide) (by decide) (by have := a.isLt; omega) (by decide) (by decide) (by decide) (by decide) (by decide) (by decide)

theorem Sys2Proof.Laws.EncodingFits.wflip (h : Hdr) :
    Statement (.wflip h) := by
  rintro e ⟨⟩
  exact mid_fits h (by decide) (by decide) (by decide) (by decide) (by decide) (by decide) (by decide) (by decide) (by decide)

theorem Sys2Proof.Laws.EncodingFits.tmul (h : Hdr) (ty : Ty) (d : R4) (a : R8) :
    Statement (.tmul h ty d a) := by
  rintro e ⟨⟩
  exact mid_fits h (by decide) (by have := d.isLt; omega) (by have := a.isLt; omega) (by decide) (by decide) (by have := ty_lt ty; omega) (by decide) (by decide) (by decide)

theorem Sys2Proof.Laws.EncodingFits.tmulT2i8 (h : Hdr) (d : R4) (hi : Bool) :
    Statement (.tmulT2i8 h d hi) := by
  rintro e ⟨⟩
  exact mid_fits h (by decide) (by have := d.isLt; omega) (by split <;> decide) (by decide) (by decide) (by decide) (by decide) (by decide) (by decide)

theorem Sys2Proof.Laws.EncodingFits.tmulFlip (h : Hdr) (ty : Ty) (d : R4) (a : R8) :
    Statement (.tmulFlip h ty d a) := by
  rintro e ⟨⟩
  exact mid_fits h (by decide) (by have := d.isLt; omega) (by have := a.isLt; omega) (by decide) (by decide) (by have := ty_lt ty; omega) (by decide) (by decide) (by decide)

theorem Sys2Proof.Laws.EncodingFits.tmulFlipT2i8 (h : Hdr) (d : R4) (hi : Bool) :
    Statement (.tmulFlipT2i8 h d hi) := by
  rintro e ⟨⟩
  exact mid_fits h (by decide) (by have := d.isLt; omega) (by split <;> decide) (by decide) (by decide) (by decide) (by decide) (by decide) (by decide)

theorem Sys2Proof.Laws.EncodingFits.azero (h : Hdr) (d : R4) :
    Statement (.azero h d) := by
  rintro e ⟨⟩
  exact mid_fits h (by decide) (by have := d.isLt; omega) (by decide) (by decide) (by decide) (by decide) (by decide) (by decide) (by decide)

theorem Sys2Proof.Laws.EncodingFits.aaddF32 (h : Hdr) (d : R4) (a : R4) (b : R4) :
    Statement (.aaddF32 h d a b) := by
  rintro e ⟨⟩
  exact mid_fits h (by decide) (by have := d.isLt; omega) (by have := a.isLt; omega) (by have := b.isLt; omega) (by decide) (by decide) (by decide) (by decide) (by decide)

theorem Sys2Proof.Laws.EncodingFits.aaddI32 (h : Hdr) (d : R4) (a : R4) (b : R4) :
    Statement (.aaddI32 h d a b) := by
  rintro e ⟨⟩
  exact mid_fits h (by decide) (by have := d.isLt; omega) (by have := a.isLt; omega) (by have := b.isLt; omega) (by decide) (by decide) (by decide) (by decide) (by decide)

theorem Sys2Proof.Laws.EncodingFits.ascale (h : Hdr) (d : R4) (a : R4) (b : R32) :
    Statement (.ascale h d a b) := by
  rintro e ⟨⟩
  exact mid_fits h (by decide) (by have := d.isLt; omega) (by have := a.isLt; omega) (by have := b.isLt; omega) (by decide) (by decide) (by decide) (by decide) (by decide)

theorem Sys2Proof.Laws.EncodingFits.ald (h : Hdr) (ty : Ty) (d : R4) (a : R32) (b : R32) :
    Statement (.ald h ty d a b) := by
  rintro e ⟨⟩
  exact mid_fits h (by decide) (by have := d.isLt; omega) (by have := a.isLt; omega) (by have := b.isLt; omega) (by decide) (by have := ty_lt ty; omega) (by decide) (by decide) (by decide)

theorem Sys2Proof.Laws.EncodingFits.ast (h : Hdr) (ty : Ty) (clamp : Bool) (d : R4) (a : R32) (b : R32) :
    Statement (.ast h ty clamp d a b) := by
  rintro e ⟨⟩
  exact mid_fits h (by decide) (by have := d.isLt; omega) (by have := a.isLt; omega) (by have := b.isLt; omega) (by decide) (by have := ty_lt ty; omega) (by decide) (by decide) (by have := bool_lt clamp; omega)

theorem Sys2Proof.Laws.EncodingFits.a2t (h : Hdr) (ty : Ty) (clamp : Bool) (d : R8) (a : R4) :
    Statement (.a2t h ty clamp d a) := by
  rintro e ⟨⟩
  exact mid_fits h (by decide) (by have := d.isLt; omega) (by have := a.isLt; omega) (by decide) (by decide) (by have := ty_lt ty; omega) (by decide) (by decide) (by have := bool_lt clamp; omega)

theorem Sys2Proof.Laws.EncodingFits.roll (h : Hdr) (a : R32) (b : R32) (len : BitVec 4) :
    Statement (.roll h a b len) := by
  rintro e ⟨⟩
  exact mid_fits h (by decide) (by decide) (by have := a.isLt; omega) (by have := b.isLt; omega) (by decide) (by decide) (by decide) (by decide) (by have := len.isLt; omega)

theorem Sys2Proof.Laws.EncodingFits.leave (h : Hdr) (d : R32) (n : BitVec 6) :
    Statement (.leave h d n) := by
  rintro e ⟨⟩
  exact mid_fits h (by decide) (by have := d.isLt; omega) (by decide) (by decide) (by decide) (by decide) (by decide) (by decide) (by have := n.isLt; omega)

theorem Sys2Proof.Laws.EncodingFits.leaveRet (h : Hdr) :
    Statement (.leaveRet h) := by
  rintro e ⟨⟩
  exact mid_fits h (by decide) (by decide) (by decide) (by decide) (by decide) (by decide) (by decide) (by decide) (by decide)

theorem Sys2Proof.Laws.EncodingFits.dcp (h : Hdr) (d : R32) (a : R32) (ch : R8) :
    Statement (.dcp h d a ch) := by
  rintro e ⟨⟩
  exact mid_fits h (by decide) (by have := d.isLt; omega) (by have := a.isLt; omega) (by decide) (by decide) (by decide) (by decide) (by decide) (by have := ch.isLt; omega)

theorem Sys2Proof.Laws.EncodingFits.dcpLiteral (h : Hdr) (d : R32) (a : R32) (ch : R8) (lit : BitVec 32) :
    Statement (.dcpLiteral h d a ch lit) := by
  rintro e ⟨⟩
  exact long_fits h lit (by decide) (by have := d.isLt; omega) (by have := a.isLt; omega) (by decide) (by decide) (by decide) (by decide) (by decide) (by have := ch.isLt; omega)

theorem Sys2Proof.Laws.EncodingFits.dcpw (h : Hdr) (a : R32) (ch : R8) :
    Statement (.dcpw h a ch) := by
  rintro e ⟨⟩
  exact mid_fits h (by decide) (by decide) (by have := a.isLt; omega) (by decide) (by decide) (by decide) (by decide) (by decide) (by have := ch.isLt; omega)

theorem Sys2Proof.Laws.EncodingFits.dcps (h : Hdr) (d : R32) (ch : R8) :
    Statement (.dcps h d ch) := by
  rintro e ⟨⟩
  exact mid_fits h (by decide) (by have := d.isLt; omega) (by decide) (by decide) (by decide) (by decide) (by decide) (by decide) (by have := ch.isLt; omega)

theorem Sys2Proof.Laws.EncodingFits.dcpx (h : Hdr) (ch : R8) :
    Statement (.dcpx h ch) := by
  rintro e ⟨⟩
  exact mid_fits h (by decide) (by decide) (by decide) (by decide) (by decide) (by decide) (by decide) (by decide) (by have := ch.isLt; omega)

theorem Sys2Proof.Laws.EncodingFits.rput (h : Hdr) (d : R32) (a : R32) (b : R32) (f : BitVec 14) :
    Statement (.rput h d a b f) := by
  rintro e ⟨⟩
  exact mid_fits h (by decide) (by have := d.isLt; omega) (by have := a.isLt; omega) (by have := b.isLt; omega) (by decide) (by decide) (by decide) (by decide) (by have := f.isLt; omega)

theorem Sys2Proof.Laws.EncodingFits.rputLong (h : Hdr) (d : R32) (a : R32) (b : R32) (lit : BitVec 32) :
    Statement (.rputLong h d a b lit) := by
  rintro e ⟨⟩
  exact long_fits h lit (by decide) (by have := d.isLt; omega) (by have := a.isLt; omega) (by have := b.isLt; omega) (by decide) (by decide) (by decide) (by decide) (by decide)

theorem Sys2Proof.Laws.EncodingFits.rget (h : Hdr) (d : R32) (a : R32) (b : R32) :
    Statement (.rget h d a b) := by
  rintro e ⟨⟩
  exact mid_fits h (by decide) (by have := d.isLt; omega) (by have := a.isLt; omega) (by have := b.isLt; omega) (by decide) (by decide) (by decide) (by decide) (by decide)

theorem Sys2Proof.Laws.EncodingFits.ratomAdd (h : Hdr) (ty : Ty) (d : R32) (a : R32) (b : R32) :
    Statement (.ratomAdd h ty d a b) := by
  rintro e ⟨⟩
  exact mid_fits h (by decide) (by have := d.isLt; omega) (by have := a.isLt; omega) (by have := b.isLt; omega) (by decide) (by have := ty_lt ty; omega) (by decide) (by decide) (by decide)

theorem Sys2Proof.Laws.EncodingFits.ratomAnd (h : Hdr) (ty : Ty) (d : R32) (a : R32) (b : R32) :
    Statement (.ratomAnd h ty d a b) := by
  rintro e ⟨⟩
  exact mid_fits h (by decide) (by have := d.isLt; omega) (by have := a.isLt; omega) (by have := b.isLt; omega) (by decide) (by have := ty_lt ty; omega) (by decide) (by decide) (by decide)

theorem Sys2Proof.Laws.EncodingFits.ratomOr (h : Hdr) (ty : Ty) (d : R32) (a : R32) (b : R32) :
    Statement (.ratomOr h ty d a b) := by
  rintro e ⟨⟩
  exact mid_fits h (by decide) (by have := d.isLt; omega) (by have := a.isLt; omega) (by have := b.isLt; omega) (by decide) (by have := ty_lt ty; omega) (by decide) (by decide) (by decide)

theorem Sys2Proof.Laws.EncodingFits.ratomXor (h : Hdr) (ty : Ty) (d : R32) (a : R32) (b : R32) :
    Statement (.ratomXor h ty d a b) := by
  rintro e ⟨⟩
  exact mid_fits h (by decide) (by have := d.isLt; omega) (by have := a.isLt; omega) (by have := b.isLt; omega) (by decide) (by have := ty_lt ty; omega) (by decide) (by decide) (by decide)

theorem Sys2Proof.Laws.EncodingFits.ratomMin (h : Hdr) (ty : Ty) (d : R32) (a : R32) (b : R32) :
    Statement (.ratomMin h ty d a b) := by
  rintro e ⟨⟩
  exact mid_fits h (by decide) (by have := d.isLt; omega) (by have := a.isLt; omega) (by have := b.isLt; omega) (by decide) (by have := ty_lt ty; omega) (by decide) (by decide) (by decide)

theorem Sys2Proof.Laws.EncodingFits.ratomMax (h : Hdr) (ty : Ty) (d : R32) (a : R32) (b : R32) :
    Statement (.ratomMax h ty d a b) := by
  rintro e ⟨⟩
  exact mid_fits h (by decide) (by have := d.isLt; omega) (by have := a.isLt; omega) (by have := b.isLt; omega) (by decide) (by have := ty_lt ty; omega) (by decide) (by decide) (by decide)

theorem Sys2Proof.Laws.EncodingFits.ratomSwap (h : Hdr) (ty : Ty) (d : R32) (a : R32) (b : R32) :
    Statement (.ratomSwap h ty d a b) := by
  rintro e ⟨⟩
  exact mid_fits h (by decide) (by have := d.isLt; omega) (by have := a.isLt; omega) (by have := b.isLt; omega) (by decide) (by have := ty_lt ty; omega) (by decide) (by decide) (by decide)

theorem Sys2Proof.Laws.EncodingFits.ratomFadd (h : Hdr) (ty : Ty) (d : R32) (a : R32) (b : R32) :
    Statement (.ratomFadd h ty d a b) := by
  rintro e ⟨⟩
  exact mid_fits h (by decide) (by have := d.isLt; omega) (by have := a.isLt; omega) (by have := b.isLt; omega) (by decide) (by have := ty_lt ty; omega) (by decide) (by decide) (by decide)

theorem Sys2Proof.Laws.EncodingFits.rcas (h : Hdr) (ty : Ty) (d : R32) (a : R32) (b : R32) :
    Statement (.rcas h ty d a b) := by
  rintro e ⟨⟩
  exact mid_fits h (by decide) (by have := d.isLt; omega) (by have := a.isLt; omega) (by have := b.isLt; omega) (by decide) (by have := ty_lt ty; omega) (by decide) (by decide) (by decide)

theorem Sys2Proof.Laws.EncodingFits.wcntArr (h : Hdr) (d : R32) (a : R32) :
    Statement (.wcntArr h d a) := by
  rintro e ⟨⟩
  exact mid_fits h (by decide) (by have := d.isLt; omega) (by have := a.isLt; omega) (by decide) (by decide) (by decide) (by decide) (by decide) (by decide)

theorem Sys2Proof.Laws.EncodingFits.wcntIss (h : Hdr) (d : R32) (a : R32) :
    Statement (.wcntIss h d a) := by
  rintro e ⟨⟩
  exact mid_fits h (by decide) (by have := d.isLt; omega) (by have := a.isLt; omega) (by decide) (by decide) (by decide) (by decide) (by decide) (by decide)

theorem Sys2Proof.Laws.EncodingFits.wcntDone (h : Hdr) (d : R32) (a : R32) :
    Statement (.wcntDone h d a) := by
  rintro e ⟨⟩
  exact mid_fits h (by decide) (by have := d.isLt; omega) (by have := a.isLt; omega) (by decide) (by decide) (by decide) (by decide) (by decide) (by decide)

theorem Sys2Proof.Laws.EncodingFits.rfence (h : Hdr) (a : R32) :
    Statement (.rfence h a) := by
  rintro e ⟨⟩
  exact mid_fits h (by decide) (by decide) (by have := a.isLt; omega) (by decide) (by decide) (by decide) (by decide) (by decide) (by decide)

theorem Sys2Proof.Laws.EncodingFits.rpart (h : Hdr) (d : R32) (a : R32) (lit : BitVec 32) :
    Statement (.rpart h d a lit) := by
  rintro e ⟨⟩
  exact long_fits h lit (by decide) (by have := d.isLt; omega) (by have := a.isLt; omega) (by decide) (by decide) (by decide) (by decide) (by decide) (by decide)

theorem Sys2Proof.Laws.EncodingFits.rpstat (h : Hdr) (d : R32) (a : R32) :
    Statement (.rpstat h d a) := by
  rintro e ⟨⟩
  exact mid_fits h (by decide) (by have := d.isLt; omega) (by have := a.isLt; omega) (by decide) (by decide) (by decide) (by decide) (by decide) (by decide)

theorem Sys2Proof.Laws.EncodingFits.cbar (h : Hdr) (a : R32) :
    Statement (.cbar h a) := by
  rintro e ⟨⟩
  exact mid_fits h (by decide) (by decide) (by have := a.isLt; omega) (by decide) (by decide) (by decide) (by decide) (by decide) (by decide)

theorem Sys2Proof.Laws.EncodingFits.credAdd (h : Hdr) (ty : Ty) (d : R32) (a : R32) (b : R32) :
    Statement (.credAdd h ty d a b) := by
  rintro e ⟨⟩
  exact mid_fits h (by decide) (by have := d.isLt; omega) (by have := a.isLt; omega) (by have := b.isLt; omega) (by decide) (by have := ty_lt ty; omega) (by decide) (by decide) (by decide)

theorem Sys2Proof.Laws.EncodingFits.credMin (h : Hdr) (ty : Ty) (d : R32) (a : R32) (b : R32) :
    Statement (.credMin h ty d a b) := by
  rintro e ⟨⟩
  exact mid_fits h (by decide) (by have := d.isLt; omega) (by have := a.isLt; omega) (by have := b.isLt; omega) (by decide) (by have := ty_lt ty; omega) (by decide) (by decide) (by decide)

theorem Sys2Proof.Laws.EncodingFits.credMax (h : Hdr) (ty : Ty) (d : R32) (a : R32) (b : R32) :
    Statement (.credMax h ty d a b) := by
  rintro e ⟨⟩
  exact mid_fits h (by decide) (by have := d.isLt; omega) (by have := a.isLt; omega) (by have := b.isLt; omega) (by decide) (by have := ty_lt ty; omega) (by decide) (by decide) (by decide)

theorem Sys2Proof.Laws.EncodingFits.cast (h : Hdr) (d : R32) (a : R32) :
    Statement (.cast h d a) := by
  rintro e ⟨⟩
  exact mid_fits h (by decide) (by have := d.isLt; omega) (by have := a.isLt; omega) (by decide) (by decide) (by decide) (by decide) (by decide) (by decide)

theorem Sys2Proof.Laws.EncodingFits.exit (h : Hdr) (a : R32) :
    Statement (.exit h a) := by
  rintro e ⟨⟩
  exact mid_fits h (by decide) (by decide) (by have := a.isLt; omega) (by decide) (by decide) (by decide) (by decide) (by decide) (by decide)

theorem Sys2Proof.Laws.EncodingFits.gong (h : Hdr) :
    Statement (.gong h) := by
  rintro e ⟨⟩
  exact mid_fits h (by decide) (by decide) (by decide) (by decide) (by decide) (by decide) (by decide) (by decide) (by decide)

theorem Sys2Proof.Laws.EncodingFits.post (h : Hdr) (d : R32) (a : R32) (b : R32) :
    Statement (.post h d a b) := by
  rintro e ⟨⟩
  exact mid_fits h (by decide) (by have := d.isLt; omega) (by have := a.isLt; omega) (by have := b.isLt; omega) (by decide) (by decide) (by decide) (by decide) (by decide)

theorem Sys2Proof.Laws.EncodingFits.take (h : Hdr) (d : R32) :
    Statement (.take h d) := by
  rintro e ⟨⟩
  exact mid_fits h (by decide) (by have := d.isLt; omega) (by decide) (by decide) (by decide) (by decide) (by decide) (by decide) (by decide)

theorem Sys2Proof.Laws.EncodingFits.prio (h : Hdr) (a : R32) (b : R32) :
    Statement (.prio h a b) := by
  rintro e ⟨⟩
  exact mid_fits h (by decide) (by decide) (by have := a.isLt; omega) (by have := b.isLt; omega) (by decide) (by decide) (by decide) (by decide) (by decide)

theorem Sys2Proof.Laws.EncodingFits.cinv (h : Hdr) (d : R32) (a : R32) (b : R32) :
    Statement (.cinv h d a b) := by
  rintro e ⟨⟩
  exact mid_fits h (by decide) (by have := d.isLt; omega) (by have := a.isLt; omega) (by have := b.isLt; omega) (by decide) (by decide) (by decide) (by decide) (by decide)

theorem Sys2Proof.Laws.EncodingFits.cinvRe (h : Hdr) (d : R32) (a : R32) (b : R32) :
    Statement (.cinvRe h d a b) := by
  rintro e ⟨⟩
  exact mid_fits h (by decide) (by have := d.isLt; omega) (by have := a.isLt; omega) (by have := b.isLt; omega) (by decide) (by decide) (by decide) (by decide) (by decide)

theorem Sys2Proof.Laws.EncodingFits.stest (h : Hdr) (d : R32) (a : R32) :
    Statement (.stest h d a) := by
  rintro e ⟨⟩
  exact mid_fits h (by decide) (by have := d.isLt; omega) (by have := a.isLt; omega) (by decide) (by decide) (by decide) (by decide) (by decide) (by decide)

theorem Sys2Proof.Laws.EncodingFits.thint (h : Hdr) (d : R32) (a : R32) (b : R32) (pr : R8) :
    Statement (.thint h d a b pr) := by
  rintro e ⟨⟩
  exact mid_fits h (by decide) (by have := d.isLt; omega) (by have := a.isLt; omega) (by have := b.isLt; omega) (by decide) (by decide) (by decide) (by decide) (by have := pr.isLt; omega)

theorem Sys2Proof.Laws.EncodingFits.step (h : Hdr) (d : R32) (a : R32) :
    Statement (.step h d a) := by
  rintro e ⟨⟩
  exact mid_fits h (by decide) (by have := d.isLt; omega) (by have := a.isLt; omega) (by decide) (by decide) (by decide) (by decide) (by decide) (by decide)

theorem Sys2Proof.Laws.EncodingFits.subup (h : Hdr) (a : R32) :
    Statement (.subup h a) := by
  rintro e ⟨⟩
  exact mid_fits h (by decide) (by decide) (by have := a.isLt; omega) (by decide) (by decide) (by decide) (by decide) (by decide) (by decide)

theorem Sys2Proof.Laws.EncodingFits.bellqPeal (h : Hdr) (d : R32) :
    Statement (.bellqPeal h d) := by
  rintro e ⟨⟩
  exact mid_fits h (by decide) (by have := d.isLt; omega) (by decide) (by decide) (by decide) (by decide) (by decide) (by decide) (by decide)

theorem Sys2Proof.Laws.EncodingFits.bellqLen (h : Hdr) (d : R32) :
    Statement (.bellqLen h d) := by
  rintro e ⟨⟩
  exact mid_fits h (by decide) (by have := d.isLt; omega) (by decide) (by decide) (by decide) (by decide) (by decide) (by decide) (by decide)

theorem Sys2Proof.Laws.EncodingFits.bellqNext (h : Hdr) (d : R32) :
    Statement (.bellqNext h d) := by
  rintro e ⟨⟩
  exact mid_fits h (by decide) (by have := d.isLt; omega) (by decide) (by decide) (by decide) (by decide) (by decide) (by decide) (by decide)

theorem Sys2Proof.Laws.EncodingFits.bellw (h : Hdr) :
    Statement (.bellw h) := by
  rintro e ⟨⟩
  exact mid_fits h (by decide) (by decide) (by decide) (by decide) (by decide) (by decide) (by decide) (by decide) (by decide)

theorem Sys2Proof.Laws.EncodingFits.tileDrain :
    Statement (.tileDrain) := by
  rintro e ⟨⟩

theorem Sys2Proof.Laws.EncodingFits.engineChoice :
    Statement (.engineChoice) := by
  rintro e ⟨⟩

theorem Sys2Proof.Laws.EncodingFits.engineStreamEnd :
    Statement (.engineStreamEnd) := by
  rintro e ⟨⟩

theorem Sys2Proof.Laws.EncodingFits.leaveGrant :
    Statement (.leaveGrant) := by
  rintro e ⟨⟩

theorem Sys2Proof.Laws.EncodingFits.recordSnapshot :
    Statement (.recordSnapshot) := by
  rintro e ⟨⟩

theorem Sys2Proof.Laws.EncodingFits.copyChunk :
    Statement (.copyChunk) := by
  rintro e ⟨⟩

theorem Sys2Proof.Laws.EncodingFits.cpbindWrite :
    Statement (.cpbindWrite) := by
  rintro e ⟨⟩

theorem Sys2Proof.Laws.EncodingFits.remoteOperationArrival :
    Statement (.remoteOperationArrival) := by
  rintro e ⟨⟩

theorem Sys2Proof.Laws.EncodingFits.remoteOperationEnd :
    Statement (.remoteOperationEnd) := by
  rintro e ⟨⟩

theorem Sys2Proof.Laws.EncodingFits.remoteOperationTimeout :
    Statement (.remoteOperationTimeout) := by
  rintro e ⟨⟩

theorem Sys2Proof.Laws.EncodingFits.collectiveJoin :
    Statement (.collectiveJoin) := by
  rintro e ⟨⟩

theorem Sys2Proof.Laws.EncodingFits.collectiveTimeout :
    Statement (.collectiveTimeout) := by
  rintro e ⟨⟩

theorem Sys2Proof.Laws.EncodingFits.rpartCommit :
    Statement (.rpartCommit) := by
  rintro e ⟨⟩

theorem Sys2Proof.Laws.EncodingFits.rpartEnd :
    Statement (.rpartEnd) := by
  rintro e ⟨⟩

theorem Sys2Proof.Laws.EncodingFits.taskDistribution :
    Statement (.taskDistribution) := by
  rintro e ⟨⟩

theorem Sys2Proof.Laws.EncodingFits.taskPlacement :
    Statement (.taskPlacement) := by
  rintro e ⟨⟩

theorem Sys2Proof.Laws.EncodingFits.levelling :
    Statement (.levelling) := by
  rintro e ⟨⟩

theorem Sys2Proof.Laws.EncodingFits.shareEnd :
    Statement (.shareEnd) := by
  rintro e ⟨⟩

theorem Sys2Proof.Laws.EncodingFits.windowRegister :
    Statement (.windowRegister) := by
  rintro e ⟨⟩

theorem Sys2Proof.Laws.EncodingFits.windowRelease :
    Statement (.windowRelease) := by
  rintro e ⟨⟩

theorem Sys2Proof.Laws.EncodingFits.taskPreempt :
    Statement (.taskPreempt) := by
  rintro e ⟨⟩

theorem Sys2Proof.Laws.EncodingFits.taskKill :
    Statement (.taskKill) := by
  rintro e ⟨⟩

theorem Sys2Proof.Laws.EncodingFits.taskQuery :
    Statement (.taskQuery) := by
  rintro e ⟨⟩

theorem Sys2Proof.Laws.EncodingFits.derive :
    Statement (.derive) := by
  rintro e ⟨⟩

theorem Sys2Proof.Laws.EncodingFits.serviceRestart :
    Statement (.serviceRestart) := by
  rintro e ⟨⟩

theorem Sys2Proof.Laws.EncodingFits.migratorHint :
    Statement (.migratorHint) := by
  rintro e ⟨⟩

theorem Sys2Proof.Laws.EncodingFits.migrationMoveEnd :
    Statement (.migrationMoveEnd) := by
  rintro e ⟨⟩

theorem Sys2Proof.Laws.EncodingFits.migpoolWrite :
    Statement (.migpoolWrite) := by
  rintro e ⟨⟩

theorem Sys2Proof.Laws.EncodingFits.rds :
    Statement (.rds) := by
  rintro e ⟨⟩

theorem Sys2Proof.Laws.EncodingFits.rdf :
    Statement (.rdf) := by
  rintro e ⟨⟩

theorem Sys2Proof.Laws.EncodingFits.rdo :
    Statement (.rdo) := by
  rintro e ⟨⟩

theorem Sys2Proof.Laws.EncodingFits.up :
    Statement (.up) := by
  rintro e ⟨⟩

theorem Sys2Proof.Laws.EncodingFits.wt :
    Statement (.wt) := by
  rintro e ⟨⟩

theorem Sys2Proof.Laws.EncodingFits.wb :
    Statement (.wb) := by
  rintro e ⟨⟩

theorem Sys2Proof.Laws.EncodingFits.dr :
    Statement (.dr) := by
  rintro e ⟨⟩

theorem Sys2Proof.Laws.EncodingFits.am :
    Statement (.am) := by
  rintro e ⟨⟩

theorem Sys2Proof.Laws.EncodingFits.iv :
    Statement (.iv) := by
  rintro e ⟨⟩

theorem Sys2Proof.Laws.EncodingFits.ud :
    Statement (.ud) := by
  rintro e ⟨⟩

theorem Sys2Proof.Laws.EncodingFits.rc :
    Statement (.rc) := by
  rintro e ⟨⟩

theorem Sys2Proof.Laws.EncodingFits.ak :
    Statement (.ak) := by
  rintro e ⟨⟩

theorem Sys2Proof.Laws.EncodingFits.eviction :
    Statement (.eviction) := by
  rintro e ⟨⟩

theorem Sys2Proof.Laws.EncodingFits.stalePointerScrub :
    Statement (.stalePointerScrub) := by
  rintro e ⟨⟩

theorem Sys2Proof.Laws.EncodingFits.irdEnable :
    Statement (.irdEnable) := by
  rintro e ⟨⟩

theorem Sys2Proof.Laws.EncodingFits.irdDisable :
    Statement (.irdDisable) := by
  rintro e ⟨⟩

theorem Sys2Proof.Laws.EncodingFits.fwEnable :
    Statement (.fwEnable) := by
  rintro e ⟨⟩

theorem Sys2Proof.Laws.EncodingFits.fwInvalidate :
    Statement (.fwInvalidate) := by
  rintro e ⟨⟩

theorem Sys2Proof.Laws.EncodingFits.fwInvalidateEnd :
    Statement (.fwInvalidateEnd) := by
  rintro e ⟨⟩

theorem Sys2Proof.Laws.EncodingFits.keyProgram :
    Statement (.keyProgram) := by
  rintro e ⟨⟩

theorem Sys2Proof.Laws.EncodingFits.keyRetire :
    Statement (.keyRetire) := by
  rintro e ⟨⟩

theorem Sys2Proof.Laws.EncodingFits.keyRetireEnd :
    Statement (.keyRetireEnd) := by
  rintro e ⟨⟩

theorem Sys2Proof.Laws.EncodingFits.melheadCons :
    Statement (.melheadCons) := by
  rintro e ⟨⟩

theorem Sys2Proof.Laws.EncodingFits.slctlApply :
    Statement (.slctlApply) := by
  rintro e ⟨⟩

theorem Sys2Proof.Laws.EncodingFits.sliceDrainEnd :
    Statement (.sliceDrainEnd) := by
  rintro e ⟨⟩

theorem Sys2Proof.Laws.EncodingFits.timerExpiry :
    Statement (.timerExpiry) := by
  rintro e ⟨⟩

theorem Sys2Proof.Laws.EncodingFits.interrupt :
    Statement (.interrupt) := by
  rintro e ⟨⟩

theorem Sys2Proof.Laws.EncodingFits.xprqWrite :
    Statement (.xprqWrite) := by
  rintro e ⟨⟩

theorem Sys2Proof.Laws.EncodingFits.forcedPreemption :
    Statement (.forcedPreemption) := by
  rintro e ⟨⟩

theorem Sys2Proof.Laws.EncodingFits.taskResume :
    Statement (.taskResume) := by
  rintro e ⟨⟩

theorem Sys2Proof.Laws.EncodingFits.partitionSwap :
    Statement (.partitionSwap) := by
  rintro e ⟨⟩

theorem Sys2Proof.Laws.EncodingFits.xctlKill :
    Statement (.xctlKill) := by
  rintro e ⟨⟩

theorem Sys2Proof.Laws.EncodingFits.bellBegin :
    Statement (.bellBegin) := by
  rintro e ⟨⟩

theorem Sys2Proof.Laws.EncodingFits.greatBellBegin :
    Statement (.greatBellBegin) := by
  rintro e ⟨⟩

theorem Sys2Proof.Laws.EncodingFits.bellEnd :
    Statement (.bellEnd) := by
  rintro e ⟨⟩

theorem Sys2Proof.Laws.EncodingFits.bellExtension :
    Statement (.bellExtension) := by
  rintro e ⟨⟩

theorem Sys2Proof.Laws.EncodingFits.drainWindowBegin :
    Statement (.drainWindowBegin) := by
  rintro e ⟨⟩

theorem Sys2Proof.Laws.EncodingFits.powerControllerUpdate :
    Statement (.powerControllerUpdate) := by
  rintro e ⟨⟩

theorem Sys2Proof.Laws.EncodingFits.ringHeaterTrack :
    Statement (.ringHeaterTrack) := by
  rintro e ⟨⟩

theorem Sys2Proof.Laws.EncodingFits.selfTestRun :
    Statement (.selfTestRun) := by
  rintro e ⟨⟩

theorem Sys2Proof.Laws.EncodingFits.selfTestEnd :
    Statement (.selfTestEnd) := by
  rintro e ⟨⟩

theorem Sys2Proof.Laws.EncodingFits.machineCheckEvent :
    Statement (.machineCheckEvent) := by
  rintro e ⟨⟩

theorem Sys2Proof.Laws.EncodingFits.turnBoundary :
    Statement (.turnBoundary) := by
  rintro e ⟨⟩

theorem Sys2Proof.Laws.EncodingFits.flitReceive :
    Statement (.flitReceive) := by
  rintro e ⟨⟩

theorem Sys2Proof.Laws.EncodingFits.flitAckTimeout :
    Statement (.flitAckTimeout) := by
  rintro e ⟨⟩

theorem Sys2Proof.Laws.EncodingFits.packetSend :
    Statement (.packetSend) := by
  rintro e ⟨⟩

theorem Sys2Proof.Laws.EncodingFits.relayForward :
    Statement (.relayForward) := by
  rintro e ⟨⟩

theorem Sys2Proof.Laws.EncodingFits.electionTrigger :
    Statement (.electionTrigger) := by
  rintro e ⟨⟩

theorem Sys2Proof.Laws.EncodingFits.claimSend :
    Statement (.claimSend) := by
  rintro e ⟨⟩

theorem Sys2Proof.Laws.EncodingFits.claimReceive :
    Statement (.claimReceive) := by
  rintro e ⟨⟩

theorem Sys2Proof.Laws.EncodingFits.acknowledgementReceive :
    Statement (.acknowledgementReceive) := by
  rintro e ⟨⟩

theorem Sys2Proof.Laws.EncodingFits.claimAbandon :
    Statement (.claimAbandon) := by
  rintro e ⟨⟩

theorem Sys2Proof.Laws.EncodingFits.heartbeatReceive :
    Statement (.heartbeatReceive) := by
  rintro e ⟨⟩

theorem Sys2Proof.Laws.EncodingFits.tableSetReceive :
    Statement (.tableSetReceive) := by
  rintro e ⟨⟩

theorem Sys2Proof.Laws.EncodingFits.powerOnReset :
    Statement (.powerOnReset) := by
  rintro e ⟨⟩

theorem Sys2Proof.Laws.EncodingFits.moduleResetCommand :
    Statement (.moduleResetCommand) := by
  rintro e ⟨⟩

theorem Sys2Proof.Laws.EncodingFits.partitionEnable :
    Statement (.partitionEnable) := by
  rintro e ⟨⟩

theorem Sys2Proof.Laws.EncodingFits.partitionDisable :
    Statement (.partitionDisable) := by
  rintro e ⟨⟩

theorem Sys2Proof.Laws.EncodingFits.drstGo :
    Statement (.drstGo) := by
  rintro e ⟨⟩

theorem Sys2Proof.Laws.EncodingFits.warmResetRetrain :
    Statement (.warmResetRetrain) := by
  rintro e ⟨⟩

theorem Sys2Proof.Laws.EncodingFits.getVersion :
    Statement (.getVersion) := by
  rintro e ⟨⟩

theorem Sys2Proof.Laws.EncodingFits.getCapabilities :
    Statement (.getCapabilities) := by
  rintro e ⟨⟩

theorem Sys2Proof.Laws.EncodingFits.negotiateAlgorithms :
    Statement (.negotiateAlgorithms) := by
  rintro e ⟨⟩

theorem Sys2Proof.Laws.EncodingFits.getDigests :
    Statement (.getDigests) := by
  rintro e ⟨⟩

theorem Sys2Proof.Laws.EncodingFits.getCertificate :
    Statement (.getCertificate) := by
  rintro e ⟨⟩

theorem Sys2Proof.Laws.EncodingFits.challenge :
    Statement (.challenge) := by
  rintro e ⟨⟩

theorem Sys2Proof.Laws.EncodingFits.getMeasurements :
    Statement (.getMeasurements) := by
  rintro e ⟨⟩

theorem Sys2Proof.Laws.EncodingFits.hostRequest :
    Statement (.hostRequest) := by
  rintro e ⟨⟩

theorem Sys2Proof.Laws.EncodingFits.hostLinkDown :
    Statement (.hostLinkDown) := by
  rintro e ⟨⟩

theorem Sys2Proof.Laws.EncodingFits.debugStop :
    Statement (.debugStop) := by
  rintro e ⟨⟩

theorem Sys2Proof.Laws.EncodingFits.registerWrite :
    Statement (.registerWrite) := by
  rintro e ⟨⟩

theorem Sys2Proof.Laws.EncodingFits.hostLinkUp :
    Statement (.hostLinkUp) := by
  rintro e ⟨⟩

theorem Sys2Proof.Laws.EncodingFits.debugToken :
    Statement (.debugToken) := by
  rintro e ⟨⟩

theorem Sys2Proof.Laws.EncodingFits.tableSequenceReport :
    Statement (.tableSequenceReport) := by
  rintro e ⟨⟩
end

