-- ==== Sys2Proof/Laws/State.lean ====
section
/-!
SUPPORT. Reading a field of the state after a named update: one lemma for each field and update, and the registers of a strand
after a write of one of them.
-/
namespace Sys2Proof.Machine

/-! ## Strands -/

@[simp] theorem State.strand_setStrand (s : State) (k j : Nat) (t : Strand) :
    (s.setStrand k t).strand j = if k = j then t else s.strand j := Tab.get_set _ _ _ _ _
theorem State.strand_setStrand_same (s : State) (k : Nat) (t : Strand) : (s.setStrand k t).strand k = t := by simp
theorem State.strand_setStrand_other (s : State) (k j : Nat) (t : Strand) (h : j ≠ k) :
    (s.setStrand k t).strand j = s.strand j := by simp [Ne.symm h]
@[simp] theorem State.modStrand_eq (s : State) (k : Nat) (f : Strand → Strand) : s.modStrand k f = s.setStrand k (f (s.strand k)) := rfl
@[simp] theorem State.modMe_eq (s : State) (f : Strand → Strand) : s.modMe f = s.setStrand s.cur (f s.me) := rfl
@[simp] theorem State.setG_eq (s : State) (n : R32) (x : Word) : s.setG n x = s.setStrand s.cur (s.me.setGpr n.val x) := rfl
@[simp] theorem State.setV_eq (s : State) (n : R32) (x : Vec) : s.setV n x = s.setStrand s.cur (s.me.setVec n.val x) := rfl
@[simp] theorem State.setPR_eq (s : State) (n : R8) (x : Bool) : s.setPR n x = s.setStrand s.cur (s.me.setPred n.val x) := rfl
@[simp] theorem State.setMK_eq (s : State) (n : R8) (x : Word) : s.setMK n x = s.setStrand s.cur (s.me.setMask n.val x) := rfl

/-! ## `setStrand` -/

@[simp] theorem State.agenda_setStrand (s : State) (k : Nat) (t : Strand) : (s.setStrand k t).agenda = s.agenda := rfl
@[simp] theorem State.cur_setStrand (s : State) (k : Nat) (t : Strand) : (s.setStrand k t).cur = s.cur := rfl
@[simp] theorem State.input_setStrand (s : State) (k : Nat) (t : Strand) : (s.setStrand k t).input = s.input := rfl
@[simp] theorem State.ibits_setStrand (s : State) (k : Nat) (t : Strand) : (s.setStrand k t).ibits = s.ibits := rfl
@[simp] theorem State.steps_setStrand (s : State) (k : Nat) (t : Strand) : (s.setStrand k t).steps = s.steps := rfl
@[simp] theorem State.clk_setStrand (s : State) (k : Nat) (t : Strand) : (s.setStrand k t).clk = s.clk := rfl
@[simp] theorem State.timeOff_setStrand (s : State) (k : Nat) (t : Strand) : (s.setStrand k t).timeOff = s.timeOff := rfl
@[simp] theorem State.bellIn_setStrand (s : State) (k : Nat) (t : Strand) : (s.setStrand k t).bellIn = s.bellIn := rfl
@[simp] theorem State.bellStart_setStrand (s : State) (k : Nat) (t : Strand) : (s.setStrand k t).bellStart = s.bellStart := rfl
@[simp] theorem State.bellLen_setStrand (s : State) (k : Nat) (t : Strand) : (s.setStrand k t).bellLen = s.bellLen := rfl
@[simp] theorem State.bellOvr_setStrand (s : State) (k : Nat) (t : Strand) : (s.setStrand k t).bellOvr = s.bellOvr := rfl
@[simp] theorem State.bellPeal_setStrand (s : State) (k : Nat) (t : Strand) : (s.setStrand k t).bellPeal = s.bellPeal := rfl
@[simp] theorem State.bellLate_setStrand (s : State) (k : Nat) (t : Strand) : (s.setStrand k t).bellLate = s.bellLate := rfl
@[simp] theorem State.bellLogged_setStrand (s : State) (k : Nat) (t : Strand) : (s.setStrand k t).bellLogged = s.bellLogged := rfl
@[simp] theorem State.bellOwed_setStrand (s : State) (k : Nat) (t : Strand) : (s.setStrand k t).bellOwed = s.bellOwed := rfl
@[simp] theorem State.hub_setStrand (s : State) (k : Nat) (t : Strand) : (s.setStrand k t).hub = s.hub := rfl
@[simp] theorem State.activeBank_setStrand (s : State) (k : Nat) (t : Strand) : (s.setStrand k t).activeBank = s.activeBank := rfl
@[simp] theorem State.mem_setStrand (s : State) (k : Nat) (t : Strand) : (s.setStrand k t).mem = s.mem := rfl
@[simp] theorem State.decoded_setStrand (s : State) (k : Nat) (t : Strand) : (s.setStrand k t).decoded = s.decoded := rfl
@[simp] theorem State.dir_setStrand (s : State) (k : Nat) (t : Strand) : (s.setStrand k t).dir = s.dir := rfl
@[simp] theorem State.dieLines_setStrand (s : State) (k : Nat) (t : Strand) : (s.setStrand k t).dieLines = s.dieLines := rfl
@[simp] theorem State.acks_setStrand (s : State) (k : Nat) (t : Strand) : (s.setStrand k t).acks = s.acks := rfl
@[simp] theorem State.recalls_setStrand (s : State) (k : Nat) (t : Strand) : (s.setStrand k t).recalls = s.recalls := rfl
@[simp] theorem State.cohReplies_setStrand (s : State) (k : Nat) (t : Strand) : (s.setStrand k t).cohReplies = s.cohReplies := rfl
@[simp] theorem State.cohOwed_setStrand (s : State) (k : Nat) (t : Strand) : (s.setStrand k t).cohOwed = s.cohOwed := rfl
@[simp] theorem State.cohSent_setStrand (s : State) (k : Nat) (t : Strand) : (s.setStrand k t).cohSent = s.cohSent := rfl
@[simp] theorem State.farKept_setStrand (s : State) (k : Nat) (t : Strand) : (s.setStrand k t).farKept = s.farKept := rfl
@[simp] theorem State.deferred_setStrand (s : State) (k : Nat) (t : Strand) : (s.setStrand k t).deferred = s.deferred := rfl
@[simp] theorem State.aside_setStrand (s : State) (k : Nat) (t : Strand) : (s.setStrand k t).aside = s.aside := rfl
@[simp] theorem State.owed_setStrand (s : State) (k : Nat) (t : Strand) : (s.setStrand k t).owed = s.owed := rfl
@[simp] theorem State.saves_setStrand (s : State) (k : Nat) (t : Strand) : (s.setStrand k t).saves = s.saves := rfl
@[simp] theorem State.tagFlushes_setStrand (s : State) (k : Nat) (t : Strand) : (s.setStrand k t).tagFlushes = s.tagFlushes := rfl
@[simp] theorem State.l1d_setStrand (s : State) (k : Nat) (t : Strand) : (s.setStrand k t).l1d = s.l1d := rfl
@[simp] theorem State.l1i_setStrand (s : State) (k : Nat) (t : Strand) : (s.setStrand k t).l1i = s.l1i := rfl
@[simp] theorem State.ccache_setStrand (s : State) (k : Nat) (t : Strand) : (s.setStrand k t).ccache = s.ccache := rfl
@[simp] theorem State.tlb_setStrand (s : State) (k : Nat) (t : Strand) : (s.setStrand k t).tlb = s.tlb := rfl
@[simp] theorem State.mel_setStrand (s : State) (k : Nat) (t : Strand) : (s.setStrand k t).mel = s.mel := rfl
@[simp] theorem State.melSeq_setStrand (s : State) (k : Nat) (t : Strand) : (s.setStrand k t).melSeq = s.melSeq := rfl
@[simp] theorem State.keyData_setStrand (s : State) (k : Nat) (t : Strand) : (s.setStrand k t).keyData = s.keyData := rfl
@[simp] theorem State.keyring_setStrand (s : State) (k : Nat) (t : Strand) : (s.setStrand k t).keyring = s.keyring := rfl
@[simp] theorem State.keySpace_setStrand (s : State) (k : Nat) (t : Strand) : (s.setStrand k t).keySpace = s.keySpace := rfl
@[simp] theorem State.keyPairs_setStrand (s : State) (k : Nat) (t : Strand) : (s.setStrand k t).keyPairs = s.keyPairs := rfl
@[simp] theorem State.retiring_setStrand (s : State) (k : Nat) (t : Strand) : (s.setStrand k t).retiring = s.retiring := rfl
@[simp] theorem State.poison_setStrand (s : State) (k : Nat) (t : Strand) : (s.setStrand k t).poison = s.poison := rfl
@[simp] theorem State.regionMemo_setStrand (s : State) (k : Nat) (t : Strand) : (s.setStrand k t).regionMemo = s.regionMemo := rfl
@[simp] theorem State.hintQueue_setStrand (s : State) (k : Nat) (t : Strand) : (s.setStrand k t).hintQueue = s.hintQueue := rfl
@[simp] theorem State.hints_setStrand (s : State) (k : Nat) (t : Strand) : (s.setStrand k t).hints = s.hints := rfl
@[simp] theorem State.moves_setStrand (s : State) (k : Nat) (t : Strand) : (s.setStrand k t).moves = s.moves := rfl
@[simp] theorem State.sliceDrained_setStrand (s : State) (k : Nat) (t : Strand) : (s.setStrand k t).sliceDrained = s.sliceDrained := rfl
@[simp] theorem State.releasing_setStrand (s : State) (k : Nat) (t : Strand) : (s.setStrand k t).releasing = s.releasing := rfl
@[simp] theorem State.fenced_setStrand (s : State) (k : Nat) (t : Strand) : (s.setStrand k t).fenced = s.fenced := rfl
@[simp] theorem State.dieClk_setStrand (s : State) (k : Nat) (t : Strand) : (s.setStrand k t).dieClk = s.dieClk := rfl
@[simp] theorem State.engines_setStrand (s : State) (k : Nat) (t : Strand) : (s.setStrand k t).engines = s.engines := rfl
@[simp] theorem State.leaveQ_setStrand (s : State) (k : Nat) (t : Strand) : (s.setStrand k t).leaveQ = s.leaveQ := rfl
@[simp] theorem State.leaveGot_setStrand (s : State) (k : Nat) (t : Strand) : (s.setStrand k t).leaveGot = s.leaveGot := rfl
@[simp] theorem State.refused_setStrand (s : State) (k : Nat) (t : Strand) : (s.setStrand k t).refused = s.refused := rfl
@[simp] theorem State.engineCheck_setStrand (s : State) (k : Nat) (t : Strand) : (s.setStrand k t).engineCheck = s.engineCheck := rfl
@[simp] theorem State.chans_setStrand (s : State) (k : Nat) (t : Strand) : (s.setStrand k t).chans = s.chans := rfl
@[simp] theorem State.sources_setStrand (s : State) (k : Nat) (t : Strand) : (s.setStrand k t).sources = s.sources := rfl
@[simp] theorem State.remotes_setStrand (s : State) (k : Nat) (t : Strand) : (s.setStrand k t).remotes = s.remotes := rfl
@[simp] theorem State.remoteSeq_setStrand (s : State) (k : Nat) (t : Strand) : (s.setStrand k t).remoteSeq = s.remoteSeq := rfl
@[simp] theorem State.replies_setStrand (s : State) (k : Nat) (t : Strand) : (s.setStrand k t).replies = s.replies := rfl
@[simp] theorem State.turn_setStrand (s : State) (k : Nat) (t : Strand) : (s.setStrand k t).turn = s.turn := rfl
@[simp] theorem State.bellTotal_setStrand (s : State) (k : Nat) (t : Strand) : (s.setStrand k t).bellTotal = s.bellTotal := rfl
@[simp] theorem State.outbox_setStrand (s : State) (k : Nat) (t : Strand) : (s.setStrand k t).outbox = s.outbox := rfl
@[simp] theorem State.relay_setStrand (s : State) (k : Nat) (t : Strand) : (s.setStrand k t).relay = s.relay := rfl
@[simp] theorem State.relayUsed_setStrand (s : State) (k : Nat) (t : Strand) : (s.setStrand k t).relayUsed = s.relayUsed := rfl
@[simp] theorem State.creditsSent_setStrand (s : State) (k : Nat) (t : Strand) : (s.setStrand k t).creditsSent = s.creditsSent := rfl
@[simp] theorem State.sentFlits_setStrand (s : State) (k : Nat) (t : Strand) : (s.setStrand k t).sentFlits = s.sentFlits := rfl
@[simp] theorem State.received_setStrand (s : State) (k : Nat) (t : Strand) : (s.setStrand k t).received = s.received := rfl
@[simp] theorem State.acksSent_setStrand (s : State) (k : Nat) (t : Strand) : (s.setStrand k t).acksSent = s.acksSent := rfl
@[simp] theorem State.acksOwed_setStrand (s : State) (k : Nat) (t : Strand) : (s.setStrand k t).acksOwed = s.acksOwed := rfl
@[simp] theorem State.waveFails_setStrand (s : State) (k : Nat) (t : Strand) : (s.setStrand k t).waveFails = s.waveFails := rfl
@[simp] theorem State.offsets_setStrand (s : State) (k : Nat) (t : Strand) : (s.setStrand k t).offsets = s.offsets := rfl
@[simp] theorem State.cabled_setStrand (s : State) (k : Nat) (t : Strand) : (s.setStrand k t).cabled = s.cabled := rfl
@[simp] theorem State.fibresOut_setStrand (s : State) (k : Nat) (t : Strand) : (s.setStrand k t).fibresOut = s.fibresOut := rfl
@[simp] theorem State.packetSeq_setStrand (s : State) (k : Nat) (t : Strand) : (s.setStrand k t).packetSeq = s.packetSeq := rfl
@[simp] theorem State.colls_setStrand (s : State) (k : Nat) (t : Strand) : (s.setStrand k t).colls = s.colls := rfl
@[simp] theorem State.collCount_setStrand (s : State) (k : Nat) (t : Strand) : (s.setStrand k t).collCount = s.collCount := rfl
@[simp] theorem State.collSeq_setStrand (s : State) (k : Nat) (t : Strand) : (s.setStrand k t).collSeq = s.collSeq := rfl
@[simp] theorem State.casts_setStrand (s : State) (k : Nat) (t : Strand) : (s.setStrand k t).casts = s.casts := rfl
@[simp] theorem State.tasks_setStrand (s : State) (k : Nat) (t : Strand) : (s.setStrand k t).tasks = s.tasks := rfl
@[simp] theorem State.castSeq_setStrand (s : State) (k : Nat) (t : Strand) : (s.setStrand k t).castSeq = s.castSeq := rfl
@[simp] theorem State.taskSeq_setStrand (s : State) (k : Nat) (t : Strand) : (s.setStrand k t).taskSeq = s.taskSeq := rfl
@[simp] theorem State.dealt_setStrand (s : State) (k : Nat) (t : Strand) : (s.setStrand k t).dealt = s.dealt := rfl
@[simp] theorem State.slotsHeld_setStrand (s : State) (k : Nat) (t : Strand) : (s.setStrand k t).slotsHeld = s.slotsHeld := rfl
@[simp] theorem State.notices_setStrand (s : State) (k : Nat) (t : Strand) : (s.setStrand k t).notices = s.notices := rfl
@[simp] theorem State.mcHeld_setStrand (s : State) (k : Nat) (t : Strand) : (s.setStrand k t).mcHeld = s.mcHeld := rfl
@[simp] theorem State.eseq_setStrand (s : State) (k : Nat) (t : Strand) : (s.setStrand k t).eseq = s.eseq := rfl
@[simp] theorem State.testing_setStrand (s : State) (k : Nat) (t : Strand) : (s.setStrand k t).testing = s.testing := rfl
@[simp] theorem State.fatal_setStrand (s : State) (k : Nat) (t : Strand) : (s.setStrand k t).fatal = s.fatal := rfl
@[simp] theorem State.mid_setStrand (s : State) (k : Nat) (t : Strand) : (s.setStrand k t).mid = s.mid := rfl
@[simp] theorem State.admitted_setStrand (s : State) (k : Nat) (t : Strand) : (s.setStrand k t).admitted = s.admitted := rfl
@[simp] theorem State.serial_setStrand (s : State) (k : Nat) (t : Strand) : (s.setStrand k t).serial = s.serial := rfl
@[simp] theorem State.manifest_setStrand (s : State) (k : Nat) (t : Strand) : (s.setStrand k t).manifest = s.manifest := rfl
@[simp] theorem State.term_setStrand (s : State) (k : Nat) (t : Strand) : (s.setStrand k t).term = s.term := rfl
@[simp] theorem State.acked_setStrand (s : State) (k : Nat) (t : Strand) : (s.setStrand k t).acked = s.acked := rfl
@[simp] theorem State.role_setStrand (s : State) (k : Nat) (t : Strand) : (s.setStrand k t).role = s.role := rfl
@[simp] theorem State.lastBeat_setStrand (s : State) (k : Nat) (t : Strand) : (s.setStrand k t).lastBeat = s.lastBeat := rfl
@[simp] theorem State.elections_setStrand (s : State) (k : Nat) (t : Strand) : (s.setStrand k t).elections = s.elections := rfl
@[simp] theorem State.tableSeq_setStrand (s : State) (k : Nat) (t : Strand) : (s.setStrand k t).tableSeq = s.tableSeq := rfl
@[simp] theorem State.tableSets_setStrand (s : State) (k : Nat) (t : Strand) : (s.setStrand k t).tableSets = s.tableSets := rfl
@[simp] theorem State.tablesSent_setStrand (s : State) (k : Nat) (t : Strand) : (s.setStrand k t).tablesSent = s.tablesSent := rfl
@[simp] theorem State.reports_setStrand (s : State) (k : Nat) (t : Strand) : (s.setStrand k t).reports = s.reports := rfl
@[simp] theorem State.tablesDue_setStrand (s : State) (k : Nat) (t : Strand) : (s.setStrand k t).tablesDue = s.tablesDue := rfl
@[simp] theorem State.tableReports_setStrand (s : State) (k : Nat) (t : Strand) : (s.setStrand k t).tableReports = s.tableReports := rfl
@[simp] theorem State.fusedDigest_setStrand (s : State) (k : Nat) (t : Strand) : (s.setStrand k t).fusedDigest = s.fusedDigest := rfl
@[simp] theorem State.flash_setStrand (s : State) (k : Nat) (t : Strand) : (s.setStrand k t).flash = s.flash := rfl
@[simp] theorem State.heldReset_setStrand (s : State) (k : Nat) (t : Strand) : (s.setStrand k t).heldReset = s.heldReset := rfl
@[simp] theorem State.minSeq_setStrand (s : State) (k : Nat) (t : Strand) : (s.setStrand k t).minSeq = s.minSeq := rfl
@[simp] theorem State.loaded_setStrand (s : State) (k : Nat) (t : Strand) : (s.setStrand k t).loaded = s.loaded := rfl
@[simp] theorem State.tableRev_setStrand (s : State) (k : Nat) (t : Strand) : (s.setStrand k t).tableRev = s.tableRev := rfl
@[simp] theorem State.spdm_setStrand (s : State) (k : Nat) (t : Strand) : (s.setStrand k t).spdm = s.spdm := rfl
@[simp] theorem State.hostLink_setStrand (s : State) (k : Nat) (t : Strand) : (s.setStrand k t).hostLink = s.hostLink := rfl
@[simp] theorem State.hostOut_setStrand (s : State) (k : Nat) (t : Strand) : (s.setStrand k t).hostOut = s.hostOut := rfl
@[simp] theorem State.hostSpace_setStrand (s : State) (k : Nat) (t : Strand) : (s.setStrand k t).hostSpace = s.hostSpace := rfl
@[simp] theorem State.starting_setStrand (s : State) (k : Nat) (t : Strand) : (s.setStrand k t).starting = s.starting := rfl
@[simp] theorem State.debugToken_setStrand (s : State) (k : Nat) (t : Strand) : (s.setStrand k t).debugToken = s.debugToken := rfl
@[simp] theorem State.debugOut_setStrand (s : State) (k : Nat) (t : Strand) : (s.setStrand k t).debugOut = s.debugOut := rfl
@[simp] theorem State.me_setStrand (s : State) (t : Strand) : (s.setStrand s.cur t).me = t := by simp [State.me]

/-! ## `hubSet` -/

@[simp] theorem State.agenda_hubSet (s : State) (a : Nat) (v : Word) : (s.hubSet a v).agenda = s.agenda := rfl
@[simp] theorem State.cur_hubSet (s : State) (a : Nat) (v : Word) : (s.hubSet a v).cur = s.cur := rfl
@[simp] theorem State.input_hubSet (s : State) (a : Nat) (v : Word) : (s.hubSet a v).input = s.input := rfl
@[simp] theorem State.ibits_hubSet (s : State) (a : Nat) (v : Word) : (s.hubSet a v).ibits = s.ibits := rfl
@[simp] theorem State.steps_hubSet (s : State) (a : Nat) (v : Word) : (s.hubSet a v).steps = s.steps := rfl
@[simp] theorem State.clk_hubSet (s : State) (a : Nat) (v : Word) : (s.hubSet a v).clk = s.clk := rfl
@[simp] theorem State.timeOff_hubSet (s : State) (a : Nat) (v : Word) : (s.hubSet a v).timeOff = s.timeOff := rfl
@[simp] theorem State.bellIn_hubSet (s : State) (a : Nat) (v : Word) : (s.hubSet a v).bellIn = s.bellIn := rfl
@[simp] theorem State.bellStart_hubSet (s : State) (a : Nat) (v : Word) : (s.hubSet a v).bellStart = s.bellStart := rfl
@[simp] theorem State.bellLen_hubSet (s : State) (a : Nat) (v : Word) : (s.hubSet a v).bellLen = s.bellLen := rfl
@[simp] theorem State.bellOvr_hubSet (s : State) (a : Nat) (v : Word) : (s.hubSet a v).bellOvr = s.bellOvr := rfl
@[simp] theorem State.bellPeal_hubSet (s : State) (a : Nat) (v : Word) : (s.hubSet a v).bellPeal = s.bellPeal := rfl
@[simp] theorem State.bellLate_hubSet (s : State) (a : Nat) (v : Word) : (s.hubSet a v).bellLate = s.bellLate := rfl
@[simp] theorem State.bellLogged_hubSet (s : State) (a : Nat) (v : Word) : (s.hubSet a v).bellLogged = s.bellLogged := rfl
@[simp] theorem State.bellOwed_hubSet (s : State) (a : Nat) (v : Word) : (s.hubSet a v).bellOwed = s.bellOwed := rfl
@[simp] theorem State.strands_hubSet (s : State) (a : Nat) (v : Word) : (s.hubSet a v).strands = s.strands := rfl
@[simp] theorem State.activeBank_hubSet (s : State) (a : Nat) (v : Word) : (s.hubSet a v).activeBank = s.activeBank := rfl
@[simp] theorem State.mem_hubSet (s : State) (a : Nat) (v : Word) : (s.hubSet a v).mem = s.mem := rfl
@[simp] theorem State.decoded_hubSet (s : State) (a : Nat) (v : Word) : (s.hubSet a v).decoded = s.decoded := rfl
@[simp] theorem State.dir_hubSet (s : State) (a : Nat) (v : Word) : (s.hubSet a v).dir = s.dir := rfl
@[simp] theorem State.dieLines_hubSet (s : State) (a : Nat) (v : Word) : (s.hubSet a v).dieLines = s.dieLines := rfl
@[simp] theorem State.acks_hubSet (s : State) (a : Nat) (v : Word) : (s.hubSet a v).acks = s.acks := rfl
@[simp] theorem State.recalls_hubSet (s : State) (a : Nat) (v : Word) : (s.hubSet a v).recalls = s.recalls := rfl
@[simp] theorem State.cohReplies_hubSet (s : State) (a : Nat) (v : Word) : (s.hubSet a v).cohReplies = s.cohReplies := rfl
@[simp] theorem State.cohOwed_hubSet (s : State) (a : Nat) (v : Word) : (s.hubSet a v).cohOwed = s.cohOwed := rfl
@[simp] theorem State.cohSent_hubSet (s : State) (a : Nat) (v : Word) : (s.hubSet a v).cohSent = s.cohSent := rfl
@[simp] theorem State.farKept_hubSet (s : State) (a : Nat) (v : Word) : (s.hubSet a v).farKept = s.farKept := rfl
@[simp] theorem State.deferred_hubSet (s : State) (a : Nat) (v : Word) : (s.hubSet a v).deferred = s.deferred := rfl
@[simp] theorem State.aside_hubSet (s : State) (a : Nat) (v : Word) : (s.hubSet a v).aside = s.aside := rfl
@[simp] theorem State.owed_hubSet (s : State) (a : Nat) (v : Word) : (s.hubSet a v).owed = s.owed := rfl
@[simp] theorem State.saves_hubSet (s : State) (a : Nat) (v : Word) : (s.hubSet a v).saves = s.saves := rfl
@[simp] theorem State.tagFlushes_hubSet (s : State) (a : Nat) (v : Word) : (s.hubSet a v).tagFlushes = s.tagFlushes := rfl
@[simp] theorem State.l1d_hubSet (s : State) (a : Nat) (v : Word) : (s.hubSet a v).l1d = s.l1d := rfl
@[simp] theorem State.l1i_hubSet (s : State) (a : Nat) (v : Word) : (s.hubSet a v).l1i = s.l1i := rfl
@[simp] theorem State.ccache_hubSet (s : State) (a : Nat) (v : Word) : (s.hubSet a v).ccache = s.ccache := rfl
@[simp] theorem State.tlb_hubSet (s : State) (a : Nat) (v : Word) : (s.hubSet a v).tlb = s.tlb := rfl
@[simp] theorem State.mel_hubSet (s : State) (a : Nat) (v : Word) : (s.hubSet a v).mel = s.mel := rfl
@[simp] theorem State.melSeq_hubSet (s : State) (a : Nat) (v : Word) : (s.hubSet a v).melSeq = s.melSeq := rfl
@[simp] theorem State.keyData_hubSet (s : State) (a : Nat) (v : Word) : (s.hubSet a v).keyData = s.keyData := rfl
@[simp] theorem State.keyring_hubSet (s : State) (a : Nat) (v : Word) : (s.hubSet a v).keyring = s.keyring := rfl
@[simp] theorem State.keySpace_hubSet (s : State) (a : Nat) (v : Word) : (s.hubSet a v).keySpace = s.keySpace := rfl
@[simp] theorem State.keyPairs_hubSet (s : State) (a : Nat) (v : Word) : (s.hubSet a v).keyPairs = s.keyPairs := rfl
@[simp] theorem State.retiring_hubSet (s : State) (a : Nat) (v : Word) : (s.hubSet a v).retiring = s.retiring := rfl
@[simp] theorem State.poison_hubSet (s : State) (a : Nat) (v : Word) : (s.hubSet a v).poison = s.poison := rfl
@[simp] theorem State.regionMemo_hubSet (s : State) (a : Nat) (v : Word) : (s.hubSet a v).regionMemo = s.regionMemo := rfl
@[simp] theorem State.hintQueue_hubSet (s : State) (a : Nat) (v : Word) : (s.hubSet a v).hintQueue = s.hintQueue := rfl
@[simp] theorem State.hints_hubSet (s : State) (a : Nat) (v : Word) : (s.hubSet a v).hints = s.hints := rfl
@[simp] theorem State.moves_hubSet (s : State) (a : Nat) (v : Word) : (s.hubSet a v).moves = s.moves := rfl
@[simp] theorem State.sliceDrained_hubSet (s : State) (a : Nat) (v : Word) : (s.hubSet a v).sliceDrained = s.sliceDrained := rfl
@[simp] theorem State.releasing_hubSet (s : State) (a : Nat) (v : Word) : (s.hubSet a v).releasing = s.releasing := rfl
@[simp] theorem State.fenced_hubSet (s : State) (a : Nat) (v : Word) : (s.hubSet a v).fenced = s.fenced := rfl
@[simp] theorem State.dieClk_hubSet (s : State) (a : Nat) (v : Word) : (s.hubSet a v).dieClk = s.dieClk := rfl
@[simp] theorem State.engines_hubSet (s : State) (a : Nat) (v : Word) : (s.hubSet a v).engines = s.engines := rfl
@[simp] theorem State.leaveQ_hubSet (s : State) (a : Nat) (v : Word) : (s.hubSet a v).leaveQ = s.leaveQ := rfl
@[simp] theorem State.leaveGot_hubSet (s : State) (a : Nat) (v : Word) : (s.hubSet a v).leaveGot = s.leaveGot := rfl
@[simp] theorem State.refused_hubSet (s : State) (a : Nat) (v : Word) : (s.hubSet a v).refused = s.refused := rfl
@[simp] theorem State.engineCheck_hubSet (s : State) (a : Nat) (v : Word) : (s.hubSet a v).engineCheck = s.engineCheck := rfl
@[simp] theorem State.chans_hubSet (s : State) (a : Nat) (v : Word) : (s.hubSet a v).chans = s.chans := rfl
@[simp] theorem State.sources_hubSet (s : State) (a : Nat) (v : Word) : (s.hubSet a v).sources = s.sources := rfl
@[simp] theorem State.remotes_hubSet (s : State) (a : Nat) (v : Word) : (s.hubSet a v).remotes = s.remotes := rfl
@[simp] theorem State.remoteSeq_hubSet (s : State) (a : Nat) (v : Word) : (s.hubSet a v).remoteSeq = s.remoteSeq := rfl
@[simp] theorem State.replies_hubSet (s : State) (a : Nat) (v : Word) : (s.hubSet a v).replies = s.replies := rfl
@[simp] theorem State.turn_hubSet (s : State) (a : Nat) (v : Word) : (s.hubSet a v).turn = s.turn := rfl
@[simp] theorem State.bellTotal_hubSet (s : State) (a : Nat) (v : Word) : (s.hubSet a v).bellTotal = s.bellTotal := rfl
@[simp] theorem State.outbox_hubSet (s : State) (a : Nat) (v : Word) : (s.hubSet a v).outbox = s.outbox := rfl
@[simp] theorem State.relay_hubSet (s : State) (a : Nat) (v : Word) : (s.hubSet a v).relay = s.relay := rfl
@[simp] theorem State.relayUsed_hubSet (s : State) (a : Nat) (v : Word) : (s.hubSet a v).relayUsed = s.relayUsed := rfl
@[simp] theorem State.creditsSent_hubSet (s : State) (a : Nat) (v : Word) : (s.hubSet a v).creditsSent = s.creditsSent := rfl
@[simp] theorem State.sentFlits_hubSet (s : State) (a : Nat) (v : Word) : (s.hubSet a v).sentFlits = s.sentFlits := rfl
@[simp] theorem State.received_hubSet (s : State) (a : Nat) (v : Word) : (s.hubSet a v).received = s.received := rfl
@[simp] theorem State.acksSent_hubSet (s : State) (a : Nat) (v : Word) : (s.hubSet a v).acksSent = s.acksSent := rfl
@[simp] theorem State.acksOwed_hubSet (s : State) (a : Nat) (v : Word) : (s.hubSet a v).acksOwed = s.acksOwed := rfl
@[simp] theorem State.waveFails_hubSet (s : State) (a : Nat) (v : Word) : (s.hubSet a v).waveFails = s.waveFails := rfl
@[simp] theorem State.offsets_hubSet (s : State) (a : Nat) (v : Word) : (s.hubSet a v).offsets = s.offsets := rfl
@[simp] theorem State.cabled_hubSet (s : State) (a : Nat) (v : Word) : (s.hubSet a v).cabled = s.cabled := rfl
@[simp] theorem State.fibresOut_hubSet (s : State) (a : Nat) (v : Word) : (s.hubSet a v).fibresOut = s.fibresOut := rfl
@[simp] theorem State.packetSeq_hubSet (s : State) (a : Nat) (v : Word) : (s.hubSet a v).packetSeq = s.packetSeq := rfl
@[simp] theorem State.colls_hubSet (s : State) (a : Nat) (v : Word) : (s.hubSet a v).colls = s.colls := rfl
@[simp] theorem State.collCount_hubSet (s : State) (a : Nat) (v : Word) : (s.hubSet a v).collCount = s.collCount := rfl
@[simp] theorem State.collSeq_hubSet (s : State) (a : Nat) (v : Word) : (s.hubSet a v).collSeq = s.collSeq := rfl
@[simp] theorem State.casts_hubSet (s : State) (a : Nat) (v : Word) : (s.hubSet a v).casts = s.casts := rfl
@[simp] theorem State.tasks_hubSet (s : State) (a : Nat) (v : Word) : (s.hubSet a v).tasks = s.tasks := rfl
@[simp] theorem State.castSeq_hubSet (s : State) (a : Nat) (v : Word) : (s.hubSet a v).castSeq = s.castSeq := rfl
@[simp] theorem State.taskSeq_hubSet (s : State) (a : Nat) (v : Word) : (s.hubSet a v).taskSeq = s.taskSeq := rfl
@[simp] theorem State.dealt_hubSet (s : State) (a : Nat) (v : Word) : (s.hubSet a v).dealt = s.dealt := rfl
@[simp] theorem State.slotsHeld_hubSet (s : State) (a : Nat) (v : Word) : (s.hubSet a v).slotsHeld = s.slotsHeld := rfl
@[simp] theorem State.notices_hubSet (s : State) (a : Nat) (v : Word) : (s.hubSet a v).notices = s.notices := rfl
@[simp] theorem State.mcHeld_hubSet (s : State) (a : Nat) (v : Word) : (s.hubSet a v).mcHeld = s.mcHeld := rfl
@[simp] theorem State.eseq_hubSet (s : State) (a : Nat) (v : Word) : (s.hubSet a v).eseq = s.eseq := rfl
@[simp] theorem State.testing_hubSet (s : State) (a : Nat) (v : Word) : (s.hubSet a v).testing = s.testing := rfl
@[simp] theorem State.fatal_hubSet (s : State) (a : Nat) (v : Word) : (s.hubSet a v).fatal = s.fatal := rfl
@[simp] theorem State.mid_hubSet (s : State) (a : Nat) (v : Word) : (s.hubSet a v).mid = s.mid := rfl
@[simp] theorem State.admitted_hubSet (s : State) (a : Nat) (v : Word) : (s.hubSet a v).admitted = s.admitted := rfl
@[simp] theorem State.serial_hubSet (s : State) (a : Nat) (v : Word) : (s.hubSet a v).serial = s.serial := rfl
@[simp] theorem State.manifest_hubSet (s : State) (a : Nat) (v : Word) : (s.hubSet a v).manifest = s.manifest := rfl
@[simp] theorem State.term_hubSet (s : State) (a : Nat) (v : Word) : (s.hubSet a v).term = s.term := rfl
@[simp] theorem State.acked_hubSet (s : State) (a : Nat) (v : Word) : (s.hubSet a v).acked = s.acked := rfl
@[simp] theorem State.role_hubSet (s : State) (a : Nat) (v : Word) : (s.hubSet a v).role = s.role := rfl
@[simp] theorem State.lastBeat_hubSet (s : State) (a : Nat) (v : Word) : (s.hubSet a v).lastBeat = s.lastBeat := rfl
@[simp] theorem State.elections_hubSet (s : State) (a : Nat) (v : Word) : (s.hubSet a v).elections = s.elections := rfl
@[simp] theorem State.tableSeq_hubSet (s : State) (a : Nat) (v : Word) : (s.hubSet a v).tableSeq = s.tableSeq := rfl
@[simp] theorem State.tableSets_hubSet (s : State) (a : Nat) (v : Word) : (s.hubSet a v).tableSets = s.tableSets := rfl
@[simp] theorem State.tablesSent_hubSet (s : State) (a : Nat) (v : Word) : (s.hubSet a v).tablesSent = s.tablesSent := rfl
@[simp] theorem State.reports_hubSet (s : State) (a : Nat) (v : Word) : (s.hubSet a v).reports = s.reports := rfl
@[simp] theorem State.tablesDue_hubSet (s : State) (a : Nat) (v : Word) : (s.hubSet a v).tablesDue = s.tablesDue := rfl
@[simp] theorem State.tableReports_hubSet (s : State) (a : Nat) (v : Word) : (s.hubSet a v).tableReports = s.tableReports := rfl
@[simp] theorem State.fusedDigest_hubSet (s : State) (a : Nat) (v : Word) : (s.hubSet a v).fusedDigest = s.fusedDigest := rfl
@[simp] theorem State.flash_hubSet (s : State) (a : Nat) (v : Word) : (s.hubSet a v).flash = s.flash := rfl
@[simp] theorem State.heldReset_hubSet (s : State) (a : Nat) (v : Word) : (s.hubSet a v).heldReset = s.heldReset := rfl
@[simp] theorem State.minSeq_hubSet (s : State) (a : Nat) (v : Word) : (s.hubSet a v).minSeq = s.minSeq := rfl
@[simp] theorem State.loaded_hubSet (s : State) (a : Nat) (v : Word) : (s.hubSet a v).loaded = s.loaded := rfl
@[simp] theorem State.tableRev_hubSet (s : State) (a : Nat) (v : Word) : (s.hubSet a v).tableRev = s.tableRev := rfl
@[simp] theorem State.spdm_hubSet (s : State) (a : Nat) (v : Word) : (s.hubSet a v).spdm = s.spdm := rfl
@[simp] theorem State.hostLink_hubSet (s : State) (a : Nat) (v : Word) : (s.hubSet a v).hostLink = s.hostLink := rfl
@[simp] theorem State.hostOut_hubSet (s : State) (a : Nat) (v : Word) : (s.hubSet a v).hostOut = s.hostOut := rfl
@[simp] theorem State.hostSpace_hubSet (s : State) (a : Nat) (v : Word) : (s.hubSet a v).hostSpace = s.hostSpace := rfl
@[simp] theorem State.starting_hubSet (s : State) (a : Nat) (v : Word) : (s.hubSet a v).starting = s.starting := rfl
@[simp] theorem State.debugToken_hubSet (s : State) (a : Nat) (v : Word) : (s.hubSet a v).debugToken = s.debugToken := rfl
@[simp] theorem State.debugOut_hubSet (s : State) (a : Nat) (v : Word) : (s.hubSet a v).debugOut = s.debugOut := rfl
@[simp] theorem State.hubGet_hubSet (s : State) (a b : Nat) (v : Word) :
    (s.hubSet a v).hubGet b = if a = b then v else s.hubGet b := by
  unfold State.hubGet State.hubSet
  rw [Tab.get_set]
  split
  · subst b; rw [BitVec.xor_assoc, BitVec.xor_self, BitVec.xor_zero]
  · rfl
@[simp] theorem State.strand_hubSet (s : State) (a k : Nat) (v : Word) : (s.hubSet a v).strand k = s.strand k := rfl
@[simp] theorem State.hubGet_setStrand (s : State) (k a : Nat) (t : Strand) : (s.setStrand k t).hubGet a = s.hubGet a := rfl

/-! ## `pushMove` -/

@[simp] theorem State.cur_pushMove (m : Move) (s : State) : (pushMove m s).cur = s.cur := rfl
@[simp] theorem State.input_pushMove (m : Move) (s : State) : (pushMove m s).input = s.input := rfl
@[simp] theorem State.ibits_pushMove (m : Move) (s : State) : (pushMove m s).ibits = s.ibits := rfl
@[simp] theorem State.steps_pushMove (m : Move) (s : State) : (pushMove m s).steps = s.steps := rfl
@[simp] theorem State.clk_pushMove (m : Move) (s : State) : (pushMove m s).clk = s.clk := rfl
@[simp] theorem State.timeOff_pushMove (m : Move) (s : State) : (pushMove m s).timeOff = s.timeOff := rfl
@[simp] theorem State.bellIn_pushMove (m : Move) (s : State) : (pushMove m s).bellIn = s.bellIn := rfl
@[simp] theorem State.bellStart_pushMove (m : Move) (s : State) : (pushMove m s).bellStart = s.bellStart := rfl
@[simp] theorem State.bellLen_pushMove (m : Move) (s : State) : (pushMove m s).bellLen = s.bellLen := rfl
@[simp] theorem State.bellOvr_pushMove (m : Move) (s : State) : (pushMove m s).bellOvr = s.bellOvr := rfl
@[simp] theorem State.bellPeal_pushMove (m : Move) (s : State) : (pushMove m s).bellPeal = s.bellPeal := rfl
@[simp] theorem State.bellLate_pushMove (m : Move) (s : State) : (pushMove m s).bellLate = s.bellLate := rfl
@[simp] theorem State.bellLogged_pushMove (m : Move) (s : State) : (pushMove m s).bellLogged = s.bellLogged := rfl
@[simp] theorem State.bellOwed_pushMove (m : Move) (s : State) : (pushMove m s).bellOwed = s.bellOwed := rfl
@[simp] theorem State.hub_pushMove (m : Move) (s : State) : (pushMove m s).hub = s.hub := rfl
@[simp] theorem State.strands_pushMove (m : Move) (s : State) : (pushMove m s).strands = s.strands := rfl
@[simp] theorem State.activeBank_pushMove (m : Move) (s : State) : (pushMove m s).activeBank = s.activeBank := rfl
@[simp] theorem State.mem_pushMove (m : Move) (s : State) : (pushMove m s).mem = s.mem := rfl
@[simp] theorem State.decoded_pushMove (m : Move) (s : State) : (pushMove m s).decoded = s.decoded := rfl
@[simp] theorem State.dir_pushMove (m : Move) (s : State) : (pushMove m s).dir = s.dir := rfl
@[simp] theorem State.dieLines_pushMove (m : Move) (s : State) : (pushMove m s).dieLines = s.dieLines := rfl
@[simp] theorem State.acks_pushMove (m : Move) (s : State) : (pushMove m s).acks = s.acks := rfl
@[simp] theorem State.recalls_pushMove (m : Move) (s : State) : (pushMove m s).recalls = s.recalls := rfl
@[simp] theorem State.cohReplies_pushMove (m : Move) (s : State) : (pushMove m s).cohReplies = s.cohReplies := rfl
@[simp] theorem State.cohOwed_pushMove (m : Move) (s : State) : (pushMove m s).cohOwed = s.cohOwed := rfl
@[simp] theorem State.cohSent_pushMove (m : Move) (s : State) : (pushMove m s).cohSent = s.cohSent := rfl
@[simp] theorem State.farKept_pushMove (m : Move) (s : State) : (pushMove m s).farKept = s.farKept := rfl
@[simp] theorem State.deferred_pushMove (m : Move) (s : State) : (pushMove m s).deferred = s.deferred := rfl
@[simp] theorem State.aside_pushMove (m : Move) (s : State) : (pushMove m s).aside = s.aside := rfl
@[simp] theorem State.owed_pushMove (m : Move) (s : State) : (pushMove m s).owed = s.owed := rfl
@[simp] theorem State.saves_pushMove (m : Move) (s : State) : (pushMove m s).saves = s.saves := rfl
@[simp] theorem State.tagFlushes_pushMove (m : Move) (s : State) : (pushMove m s).tagFlushes = s.tagFlushes := rfl
@[simp] theorem State.l1d_pushMove (m : Move) (s : State) : (pushMove m s).l1d = s.l1d := rfl
@[simp] theorem State.l1i_pushMove (m : Move) (s : State) : (pushMove m s).l1i = s.l1i := rfl
@[simp] theorem State.ccache_pushMove (m : Move) (s : State) : (pushMove m s).ccache = s.ccache := rfl
@[simp] theorem State.tlb_pushMove (m : Move) (s : State) : (pushMove m s).tlb = s.tlb := rfl
@[simp] theorem State.mel_pushMove (m : Move) (s : State) : (pushMove m s).mel = s.mel := rfl
@[simp] theorem State.melSeq_pushMove (m : Move) (s : State) : (pushMove m s).melSeq = s.melSeq := rfl
@[simp] theorem State.keyData_pushMove (m : Move) (s : State) : (pushMove m s).keyData = s.keyData := rfl
@[simp] theorem State.keyring_pushMove (m : Move) (s : State) : (pushMove m s).keyring = s.keyring := rfl
@[simp] theorem State.keySpace_pushMove (m : Move) (s : State) : (pushMove m s).keySpace = s.keySpace := rfl
@[simp] theorem State.keyPairs_pushMove (m : Move) (s : State) : (pushMove m s).keyPairs = s.keyPairs := rfl
@[simp] theorem State.retiring_pushMove (m : Move) (s : State) : (pushMove m s).retiring = s.retiring := rfl
@[simp] theorem State.poison_pushMove (m : Move) (s : State) : (pushMove m s).poison = s.poison := rfl
@[simp] theorem State.regionMemo_pushMove (m : Move) (s : State) : (pushMove m s).regionMemo = s.regionMemo := rfl
@[simp] theorem State.hintQueue_pushMove (m : Move) (s : State) : (pushMove m s).hintQueue = s.hintQueue := rfl
@[simp] theorem State.hints_pushMove (m : Move) (s : State) : (pushMove m s).hints = s.hints := rfl
@[simp] theorem State.moves_pushMove (m : Move) (s : State) : (pushMove m s).moves = s.moves := rfl
@[simp] theorem State.sliceDrained_pushMove (m : Move) (s : State) : (pushMove m s).sliceDrained = s.sliceDrained := rfl
@[simp] theorem State.releasing_pushMove (m : Move) (s : State) : (pushMove m s).releasing = s.releasing := rfl
@[simp] theorem State.fenced_pushMove (m : Move) (s : State) : (pushMove m s).fenced = s.fenced := rfl
@[simp] theorem State.dieClk_pushMove (m : Move) (s : State) : (pushMove m s).dieClk = s.dieClk := rfl
@[simp] theorem State.engines_pushMove (m : Move) (s : State) : (pushMove m s).engines = s.engines := rfl
@[simp] theorem State.leaveQ_pushMove (m : Move) (s : State) : (pushMove m s).leaveQ = s.leaveQ := rfl
@[simp] theorem State.leaveGot_pushMove (m : Move) (s : State) : (pushMove m s).leaveGot = s.leaveGot := rfl
@[simp] theorem State.refused_pushMove (m : Move) (s : State) : (pushMove m s).refused = s.refused := rfl
@[simp] theorem State.engineCheck_pushMove (m : Move) (s : State) : (pushMove m s).engineCheck = s.engineCheck := rfl
@[simp] theorem State.chans_pushMove (m : Move) (s : State) : (pushMove m s).chans = s.chans := rfl
@[simp] theorem State.sources_pushMove (m : Move) (s : State) : (pushMove m s).sources = s.sources := rfl
@[simp] theorem State.remotes_pushMove (m : Move) (s : State) : (pushMove m s).remotes = s.remotes := rfl
@[simp] theorem State.remoteSeq_pushMove (m : Move) (s : State) : (pushMove m s).remoteSeq = s.remoteSeq := rfl
@[simp] theorem State.replies_pushMove (m : Move) (s : State) : (pushMove m s).replies = s.replies := rfl
@[simp] theorem State.turn_pushMove (m : Move) (s : State) : (pushMove m s).turn = s.turn := rfl
@[simp] theorem State.bellTotal_pushMove (m : Move) (s : State) : (pushMove m s).bellTotal = s.bellTotal := rfl
@[simp] theorem State.outbox_pushMove (m : Move) (s : State) : (pushMove m s).outbox = s.outbox := rfl
@[simp] theorem State.relay_pushMove (m : Move) (s : State) : (pushMove m s).relay = s.relay := rfl
@[simp] theorem State.relayUsed_pushMove (m : Move) (s : State) : (pushMove m s).relayUsed = s.relayUsed := rfl
@[simp] theorem State.creditsSent_pushMove (m : Move) (s : State) : (pushMove m s).creditsSent = s.creditsSent := rfl
@[simp] theorem State.sentFlits_pushMove (m : Move) (s : State) : (pushMove m s).sentFlits = s.sentFlits := rfl
@[simp] theorem State.received_pushMove (m : Move) (s : State) : (pushMove m s).received = s.received := rfl
@[simp] theorem State.acksSent_pushMove (m : Move) (s : State) : (pushMove m s).acksSent = s.acksSent := rfl
@[simp] theorem State.acksOwed_pushMove (m : Move) (s : State) : (pushMove m s).acksOwed = s.acksOwed := rfl
@[simp] theorem State.waveFails_pushMove (m : Move) (s : State) : (pushMove m s).waveFails = s.waveFails := rfl
@[simp] theorem State.offsets_pushMove (m : Move) (s : State) : (pushMove m s).offsets = s.offsets := rfl
@[simp] theorem State.cabled_pushMove (m : Move) (s : State) : (pushMove m s).cabled = s.cabled := rfl
@[simp] theorem State.fibresOut_pushMove (m : Move) (s : State) : (pushMove m s).fibresOut = s.fibresOut := rfl
@[simp] theorem State.packetSeq_pushMove (m : Move) (s : State) : (pushMove m s).packetSeq = s.packetSeq := rfl
@[simp] theorem State.colls_pushMove (m : Move) (s : State) : (pushMove m s).colls = s.colls := rfl
@[simp] theorem State.collCount_pushMove (m : Move) (s : State) : (pushMove m s).collCount = s.collCount := rfl
@[simp] theorem State.collSeq_pushMove (m : Move) (s : State) : (pushMove m s).collSeq = s.collSeq := rfl
@[simp] theorem State.casts_pushMove (m : Move) (s : State) : (pushMove m s).casts = s.casts := rfl
@[simp] theorem State.tasks_pushMove (m : Move) (s : State) : (pushMove m s).tasks = s.tasks := rfl
@[simp] theorem State.castSeq_pushMove (m : Move) (s : State) : (pushMove m s).castSeq = s.castSeq := rfl
@[simp] theorem State.taskSeq_pushMove (m : Move) (s : State) : (pushMove m s).taskSeq = s.taskSeq := rfl
@[simp] theorem State.dealt_pushMove (m : Move) (s : State) : (pushMove m s).dealt = s.dealt := rfl
@[simp] theorem State.slotsHeld_pushMove (m : Move) (s : State) : (pushMove m s).slotsHeld = s.slotsHeld := rfl
@[simp] theorem State.notices_pushMove (m : Move) (s : State) : (pushMove m s).notices = s.notices := rfl
@[simp] theorem State.mcHeld_pushMove (m : Move) (s : State) : (pushMove m s).mcHeld = s.mcHeld := rfl
@[simp] theorem State.eseq_pushMove (m : Move) (s : State) : (pushMove m s).eseq = s.eseq := rfl
@[simp] theorem State.testing_pushMove (m : Move) (s : State) : (pushMove m s).testing = s.testing := rfl
@[simp] theorem State.fatal_pushMove (m : Move) (s : State) : (pushMove m s).fatal = s.fatal := rfl
@[simp] theorem State.mid_pushMove (m : Move) (s : State) : (pushMove m s).mid = s.mid := rfl
@[simp] theorem State.admitted_pushMove (m : Move) (s : State) : (pushMove m s).admitted = s.admitted := rfl
@[simp] theorem State.serial_pushMove (m : Move) (s : State) : (pushMove m s).serial = s.serial := rfl
@[simp] theorem State.manifest_pushMove (m : Move) (s : State) : (pushMove m s).manifest = s.manifest := rfl
@[simp] theorem State.term_pushMove (m : Move) (s : State) : (pushMove m s).term = s.term := rfl
@[simp] theorem State.acked_pushMove (m : Move) (s : State) : (pushMove m s).acked = s.acked := rfl
@[simp] theorem State.role_pushMove (m : Move) (s : State) : (pushMove m s).role = s.role := rfl
@[simp] theorem State.lastBeat_pushMove (m : Move) (s : State) : (pushMove m s).lastBeat = s.lastBeat := rfl
@[simp] theorem State.elections_pushMove (m : Move) (s : State) : (pushMove m s).elections = s.elections := rfl
@[simp] theorem State.tableSeq_pushMove (m : Move) (s : State) : (pushMove m s).tableSeq = s.tableSeq := rfl
@[simp] theorem State.tableSets_pushMove (m : Move) (s : State) : (pushMove m s).tableSets = s.tableSets := rfl
@[simp] theorem State.tablesSent_pushMove (m : Move) (s : State) : (pushMove m s).tablesSent = s.tablesSent := rfl
@[simp] theorem State.reports_pushMove (m : Move) (s : State) : (pushMove m s).reports = s.reports := rfl
@[simp] theorem State.tablesDue_pushMove (m : Move) (s : State) : (pushMove m s).tablesDue = s.tablesDue := rfl
@[simp] theorem State.tableReports_pushMove (m : Move) (s : State) : (pushMove m s).tableReports = s.tableReports := rfl
@[simp] theorem State.fusedDigest_pushMove (m : Move) (s : State) : (pushMove m s).fusedDigest = s.fusedDigest := rfl
@[simp] theorem State.flash_pushMove (m : Move) (s : State) : (pushMove m s).flash = s.flash := rfl
@[simp] theorem State.heldReset_pushMove (m : Move) (s : State) : (pushMove m s).heldReset = s.heldReset := rfl
@[simp] theorem State.minSeq_pushMove (m : Move) (s : State) : (pushMove m s).minSeq = s.minSeq := rfl
@[simp] theorem State.loaded_pushMove (m : Move) (s : State) : (pushMove m s).loaded = s.loaded := rfl
@[simp] theorem State.tableRev_pushMove (m : Move) (s : State) : (pushMove m s).tableRev = s.tableRev := rfl
@[simp] theorem State.spdm_pushMove (m : Move) (s : State) : (pushMove m s).spdm = s.spdm := rfl
@[simp] theorem State.hostLink_pushMove (m : Move) (s : State) : (pushMove m s).hostLink = s.hostLink := rfl
@[simp] theorem State.hostOut_pushMove (m : Move) (s : State) : (pushMove m s).hostOut = s.hostOut := rfl
@[simp] theorem State.hostSpace_pushMove (m : Move) (s : State) : (pushMove m s).hostSpace = s.hostSpace := rfl
@[simp] theorem State.starting_pushMove (m : Move) (s : State) : (pushMove m s).starting = s.starting := rfl
@[simp] theorem State.debugToken_pushMove (m : Move) (s : State) : (pushMove m s).debugToken = s.debugToken := rfl
@[simp] theorem State.debugOut_pushMove (m : Move) (s : State) : (pushMove m s).debugOut = s.debugOut := rfl
@[simp] theorem State.agenda_pushMove (m : Move) (s : State) : (pushMove m s).agenda = m :: s.agenda := rfl

/-! ## `setGpr` -/

@[simp] theorem Strand.run_setGpr (t : Strand) (n : Nat) (x : Word) : (t.setGpr n x).run = t.run := by unfold Strand.setGpr; split <;> rfl
@[simp] theorem Strand.pc_setGpr (t : Strand) (n : Nat) (x : Word) : (t.setGpr n x).pc = t.pc := by unfold Strand.setGpr; split <;> rfl
@[simp] theorem Strand.sup_setGpr (t : Strand) (n : Nat) (x : Word) : (t.setGpr n x).sup = t.sup := by unfold Strand.setGpr; split <;> rfl
@[simp] theorem Strand.v_setGpr (t : Strand) (n : Nat) (x : Word) : (t.setGpr n x).v = t.v := by unfold Strand.setGpr; split <;> rfl
@[simp] theorem Strand.p_setGpr (t : Strand) (n : Nat) (x : Word) : (t.setGpr n x).p = t.p := by unfold Strand.setGpr; split <;> rfl
@[simp] theorem Strand.m_setGpr (t : Strand) (n : Nat) (x : Word) : (t.setGpr n x).m = t.m := by unfold Strand.setGpr; split <;> rfl
@[simp] theorem Strand.ttag_setGpr (t : Strand) (n : Nat) (x : Word) : (t.setGpr n x).ttag = t.ttag := by unfold Strand.setGpr; split <;> rfl
@[simp] theorem Strand.tidx_setGpr (t : Strand) (n : Nat) (x : Word) : (t.setGpr n x).tidx = t.tidx := by unfold Strand.setGpr; split <;> rfl
@[simp] theorem Strand.gidx_setGpr (t : Strand) (n : Nat) (x : Word) : (t.setGpr n x).gidx = t.gidx := by unfold Strand.setGpr; split <;> rfl
@[simp] theorem Strand.gsz_setGpr (t : Strand) (n : Nat) (x : Word) : (t.setGpr n x).gsz = t.gsz := by unfold Strand.setGpr; split <;> rfl
@[simp] theorem Strand.castp_setGpr (t : Strand) (n : Nat) (x : Word) : (t.setGpr n x).castp = t.castp := by unfold Strand.setGpr; split <;> rfl
@[simp] theorem Strand.xvec_setGpr (t : Strand) (n : Nat) (x : Word) : (t.setGpr n x).xvec = t.xvec := by unfold Strand.setGpr; split <;> rfl
@[simp] theorem Strand.xdvec_setGpr (t : Strand) (n : Nat) (x : Word) : (t.setGpr n x).xdvec = t.xdvec := by unfold Strand.setGpr; split <;> rfl
@[simp] theorem Strand.xpin_setGpr (t : Strand) (n : Nat) (x : Word) : (t.setGpr n x).xpin = t.xpin := by unfold Strand.setGpr; split <;> rfl
@[simp] theorem Strand.xpc_setGpr (t : Strand) (n : Nat) (x : Word) : (t.setGpr n x).xpc = t.xpc := by unfold Strand.setGpr; split <;> rfl
@[simp] theorem Strand.xcause_setGpr (t : Strand) (n : Nat) (x : Word) : (t.setGpr n x).xcause = t.xcause := by unfold Strand.setGpr; split <;> rfl
@[simp] theorem Strand.xaddr_setGpr (t : Strand) (n : Nat) (x : Word) : (t.setGpr n x).xaddr = t.xaddr := by unfold Strand.setGpr; split <;> rfl
@[simp] theorem Strand.xinfo_setGpr (t : Strand) (n : Nat) (x : Word) : (t.setGpr n x).xinfo = t.xinfo := by unfold Strand.setGpr; split <;> rfl
@[simp] theorem Strand.xstat_setGpr (t : Strand) (n : Nat) (x : Word) : (t.setGpr n x).xstat = t.xstat := by unfold Strand.setGpr; split <;> rfl
@[simp] theorem Strand.xscr_setGpr (t : Strand) (n : Nat) (x : Word) : (t.setGpr n x).xscr = t.xscr := by unfold Strand.setGpr; split <;> rfl
@[simp] theorem Strand.xcause2_setGpr (t : Strand) (n : Nat) (x : Word) : (t.setGpr n x).xcause2 = t.xcause2 := by unfold Strand.setGpr; split <;> rfl
@[simp] theorem Strand.xpc2_setGpr (t : Strand) (n : Nat) (x : Word) : (t.setGpr n x).xpc2 = t.xpc2 := by unfold Strand.setGpr; split <;> rfl
@[simp] theorem Strand.xaddr2_setGpr (t : Strand) (n : Nat) (x : Word) : (t.setGpr n x).xaddr2 = t.xaddr2 := by unfold Strand.setGpr; split <;> rfl
@[simp] theorem Strand.xlvl_setGpr (t : Strand) (n : Nat) (x : Word) : (t.setGpr n x).xlvl = t.xlvl := by unfold Strand.setGpr; split <;> rfl
@[simp] theorem Strand.xmask_setGpr (t : Strand) (n : Nat) (x : Word) : (t.setGpr n x).xmask = t.xmask := by unfold Strand.setGpr; split <;> rfl
@[simp] theorem Strand.xctl_setGpr (t : Strand) (n : Nat) (x : Word) : (t.setGpr n x).xctl = t.xctl := by unfold Strand.setGpr; split <;> rfl
@[simp] theorem Strand.xprq_setGpr (t : Strand) (n : Nat) (x : Word) : (t.setGpr n x).xprq = t.xprq := by unfold Strand.setGpr; split <;> rfl
@[simp] theorem Strand.xpdl_setGpr (t : Strand) (n : Nat) (x : Word) : (t.setGpr n x).xpdl = t.xpdl := by unfold Strand.setGpr; split <;> rfl
@[simp] theorem Strand.xsave_setGpr (t : Strand) (n : Nat) (x : Word) : (t.setGpr n x).xsave = t.xsave := by unfold Strand.setGpr; split <;> rfl
@[simp] theorem Strand.ptbase_setGpr (t : Strand) (n : Nat) (x : Word) : (t.setGpr n x).ptbase = t.ptbase := by unfold Strand.setGpr; split <;> rfl
@[simp] theorem Strand.asn_setGpr (t : Strand) (n : Nat) (x : Word) : (t.setGpr n x).asn = t.asn := by unfold Strand.setGpr; split <;> rfl
@[simp] theorem Strand.keyl_setGpr (t : Strand) (n : Nat) (x : Word) : (t.setGpr n x).keyl = t.keyl := by unfold Strand.setGpr; split <;> rfl
@[simp] theorem Strand.keys_setGpr (t : Strand) (n : Nat) (x : Word) : (t.setGpr n x).keys = t.keys := by unfold Strand.setGpr; split <;> rfl
@[simp] theorem Strand.ebind_setGpr (t : Strand) (n : Nat) (x : Word) : (t.setGpr n x).ebind = t.ebind := by unfold Strand.setGpr; split <;> rfl
@[simp] theorem Strand.estat_setGpr (t : Strand) (n : Nat) (x : Word) : (t.setGpr n x).estat = t.estat := by unfold Strand.setGpr; split <;> rfl
@[simp] theorem Strand.rollc_setGpr (t : Strand) (n : Nat) (x : Word) : (t.setGpr n x).rollc = t.rollc := by unfold Strand.setGpr; split <;> rfl
@[simp] theorem Strand.rolli_setGpr (t : Strand) (n : Nat) (x : Word) : (t.setGpr n x).rolli = t.rolli := by unfold Strand.setGpr; split <;> rfl
@[simp] theorem Strand.cseq_setGpr (t : Strand) (n : Nat) (x : Word) : (t.setGpr n x).cseq = t.cseq := by unfold Strand.setGpr; split <;> rfl
@[simp] theorem Strand.debugPend_setGpr (t : Strand) (n : Nat) (x : Word) : (t.setGpr n x).debugPend = t.debugPend := by unfold Strand.setGpr; split <;> rfl
@[simp] theorem Strand.overrun_setGpr (t : Strand) (n : Nat) (x : Word) : (t.setGpr n x).overrun = t.overrun := by unfold Strand.setGpr; split <;> rfl
@[simp] theorem Strand.drains_setGpr (t : Strand) (n : Nat) (x : Word) : (t.setGpr n x).drains = t.drains := by unfold Strand.setGpr; split <;> rfl
@[simp] theorem Strand.tiles_setGpr (t : Strand) (n : Nat) (x : Word) : (t.setGpr n x).tiles = t.tiles := by unfold Strand.setGpr; split <;> rfl
@[simp] theorem Strand.accs_setGpr (t : Strand) (n : Nat) (x : Word) : (t.setGpr n x).accs = t.accs := by unfold Strand.setGpr; split <;> rfl
@[simp] theorem Strand.rolling_setGpr (t : Strand) (n : Nat) (x : Word) : (t.setGpr n x).rolling = t.rolling := by unfold Strand.setGpr; split <;> rfl
@[simp] theorem Strand.mul_setGpr (t : Strand) (n : Nat) (x : Word) : (t.setGpr n x).mul = t.mul := by unfold Strand.setGpr; split <;> rfl
@[simp] theorem Strand.resv_setGpr (t : Strand) (n : Nat) (x : Word) : (t.setGpr n x).resv = t.resv := by unfold Strand.setGpr; split <;> rfl
@[simp] theorem Strand.call_setGpr (t : Strand) (n : Nat) (x : Word) : (t.setGpr n x).call = t.call := by unfold Strand.setGpr; split <;> rfl
@[simp] theorem Strand.remote_setGpr (t : Strand) (n : Nat) (x : Word) : (t.setGpr n x).remote = t.remote := by unfold Strand.setGpr; split <;> rfl
@[simp] theorem Strand.gonging_setGpr (t : Strand) (n : Nat) (x : Word) : (t.setGpr n x).gonging = t.gonging := by unfold Strand.setGpr; split <;> rfl
@[simp] theorem Strand.bellWait_setGpr (t : Strand) (n : Nat) (x : Word) : (t.setGpr n x).bellWait = t.bellWait := by unfold Strand.setGpr; split <;> rfl
@[simp] theorem Strand.fence_setGpr (t : Strand) (n : Nat) (x : Word) : (t.setGpr n x).fence = t.fence := by unfold Strand.setGpr; split <;> rfl
@[simp] theorem Strand.inFlight_setGpr (t : Strand) (n : Nat) (x : Word) : (t.setGpr n x).inFlight = t.inFlight := by unfold Strand.setGpr; split <;> rfl
@[simp] theorem Strand.posting_setGpr (t : Strand) (n : Nat) (x : Word) : (t.setGpr n x).posting = t.posting := by unfold Strand.setGpr; split <;> rfl
@[simp] theorem Strand.body_setGpr (t : Strand) (n : Nat) (x : Word) : (t.setGpr n x).body = t.body := by unfold Strand.setGpr; split <;> rfl
@[simp] theorem Strand.notice_setGpr (t : Strand) (n : Nat) (x : Word) : (t.setGpr n x).notice = t.notice := by unfold Strand.setGpr; split <;> rfl
@[simp] theorem Strand.performed_setGpr (t : Strand) (n : Nat) (x : Word) : (t.setGpr n x).performed = t.performed := by unfold Strand.setGpr; split <;> rfl
@[simp] theorem Strand.flushing_setGpr (t : Strand) (n : Nat) (x : Word) : (t.setGpr n x).flushing = t.flushing := by unfold Strand.setGpr; split <;> rfl
@[simp] theorem Strand.flush_setGpr (t : Strand) (n : Nat) (x : Word) : (t.setGpr n x).flush = t.flush := by unfold Strand.setGpr; split <;> rfl

/-! ## `setVec` -/

@[simp] theorem Strand.run_setVec (t : Strand) (n : Nat) (x : Vec) : (t.setVec n x).run = t.run := rfl
@[simp] theorem Strand.pc_setVec (t : Strand) (n : Nat) (x : Vec) : (t.setVec n x).pc = t.pc := rfl
@[simp] theorem Strand.sup_setVec (t : Strand) (n : Nat) (x : Vec) : (t.setVec n x).sup = t.sup := rfl
@[simp] theorem Strand.g_setVec (t : Strand) (n : Nat) (x : Vec) : (t.setVec n x).g = t.g := rfl
@[simp] theorem Strand.p_setVec (t : Strand) (n : Nat) (x : Vec) : (t.setVec n x).p = t.p := rfl
@[simp] theorem Strand.m_setVec (t : Strand) (n : Nat) (x : Vec) : (t.setVec n x).m = t.m := rfl
@[simp] theorem Strand.ttag_setVec (t : Strand) (n : Nat) (x : Vec) : (t.setVec n x).ttag = t.ttag := rfl
@[simp] theorem Strand.tidx_setVec (t : Strand) (n : Nat) (x : Vec) : (t.setVec n x).tidx = t.tidx := rfl
@[simp] theorem Strand.gidx_setVec (t : Strand) (n : Nat) (x : Vec) : (t.setVec n x).gidx = t.gidx := rfl
@[simp] theorem Strand.gsz_setVec (t : Strand) (n : Nat) (x : Vec) : (t.setVec n x).gsz = t.gsz := rfl
@[simp] theorem Strand.castp_setVec (t : Strand) (n : Nat) (x : Vec) : (t.setVec n x).castp = t.castp := rfl
@[simp] theorem Strand.xvec_setVec (t : Strand) (n : Nat) (x : Vec) : (t.setVec n x).xvec = t.xvec := rfl
@[simp] theorem Strand.xdvec_setVec (t : Strand) (n : Nat) (x : Vec) : (t.setVec n x).xdvec = t.xdvec := rfl
@[simp] theorem Strand.xpin_setVec (t : Strand) (n : Nat) (x : Vec) : (t.setVec n x).xpin = t.xpin := rfl
@[simp] theorem Strand.xpc_setVec (t : Strand) (n : Nat) (x : Vec) : (t.setVec n x).xpc = t.xpc := rfl
@[simp] theorem Strand.xcause_setVec (t : Strand) (n : Nat) (x : Vec) : (t.setVec n x).xcause = t.xcause := rfl
@[simp] theorem Strand.xaddr_setVec (t : Strand) (n : Nat) (x : Vec) : (t.setVec n x).xaddr = t.xaddr := rfl
@[simp] theorem Strand.xinfo_setVec (t : Strand) (n : Nat) (x : Vec) : (t.setVec n x).xinfo = t.xinfo := rfl
@[simp] theorem Strand.xstat_setVec (t : Strand) (n : Nat) (x : Vec) : (t.setVec n x).xstat = t.xstat := rfl
@[simp] theorem Strand.xscr_setVec (t : Strand) (n : Nat) (x : Vec) : (t.setVec n x).xscr = t.xscr := rfl
@[simp] theorem Strand.xcause2_setVec (t : Strand) (n : Nat) (x : Vec) : (t.setVec n x).xcause2 = t.xcause2 := rfl
@[simp] theorem Strand.xpc2_setVec (t : Strand) (n : Nat) (x : Vec) : (t.setVec n x).xpc2 = t.xpc2 := rfl
@[simp] theorem Strand.xaddr2_setVec (t : Strand) (n : Nat) (x : Vec) : (t.setVec n x).xaddr2 = t.xaddr2 := rfl
@[simp] theorem Strand.xlvl_setVec (t : Strand) (n : Nat) (x : Vec) : (t.setVec n x).xlvl = t.xlvl := rfl
@[simp] theorem Strand.xmask_setVec (t : Strand) (n : Nat) (x : Vec) : (t.setVec n x).xmask = t.xmask := rfl
@[simp] theorem Strand.xctl_setVec (t : Strand) (n : Nat) (x : Vec) : (t.setVec n x).xctl = t.xctl := rfl
@[simp] theorem Strand.xprq_setVec (t : Strand) (n : Nat) (x : Vec) : (t.setVec n x).xprq = t.xprq := rfl
@[simp] theorem Strand.xpdl_setVec (t : Strand) (n : Nat) (x : Vec) : (t.setVec n x).xpdl = t.xpdl := rfl
@[simp] theorem Strand.xsave_setVec (t : Strand) (n : Nat) (x : Vec) : (t.setVec n x).xsave = t.xsave := rfl
@[simp] theorem Strand.ptbase_setVec (t : Strand) (n : Nat) (x : Vec) : (t.setVec n x).ptbase = t.ptbase := rfl
@[simp] theorem Strand.asn_setVec (t : Strand) (n : Nat) (x : Vec) : (t.setVec n x).asn = t.asn := rfl
@[simp] theorem Strand.keyl_setVec (t : Strand) (n : Nat) (x : Vec) : (t.setVec n x).keyl = t.keyl := rfl
@[simp] theorem Strand.keys_setVec (t : Strand) (n : Nat) (x : Vec) : (t.setVec n x).keys = t.keys := rfl
@[simp] theorem Strand.ebind_setVec (t : Strand) (n : Nat) (x : Vec) : (t.setVec n x).ebind = t.ebind := rfl
@[simp] theorem Strand.estat_setVec (t : Strand) (n : Nat) (x : Vec) : (t.setVec n x).estat = t.estat := rfl
@[simp] theorem Strand.rollc_setVec (t : Strand) (n : Nat) (x : Vec) : (t.setVec n x).rollc = t.rollc := rfl
@[simp] theorem Strand.rolli_setVec (t : Strand) (n : Nat) (x : Vec) : (t.setVec n x).rolli = t.rolli := rfl
@[simp] theorem Strand.cseq_setVec (t : Strand) (n : Nat) (x : Vec) : (t.setVec n x).cseq = t.cseq := rfl
@[simp] theorem Strand.debugPend_setVec (t : Strand) (n : Nat) (x : Vec) : (t.setVec n x).debugPend = t.debugPend := rfl
@[simp] theorem Strand.overrun_setVec (t : Strand) (n : Nat) (x : Vec) : (t.setVec n x).overrun = t.overrun := rfl
@[simp] theorem Strand.drains_setVec (t : Strand) (n : Nat) (x : Vec) : (t.setVec n x).drains = t.drains := rfl
@[simp] theorem Strand.tiles_setVec (t : Strand) (n : Nat) (x : Vec) : (t.setVec n x).tiles = t.tiles := rfl
@[simp] theorem Strand.accs_setVec (t : Strand) (n : Nat) (x : Vec) : (t.setVec n x).accs = t.accs := rfl
@[simp] theorem Strand.rolling_setVec (t : Strand) (n : Nat) (x : Vec) : (t.setVec n x).rolling = t.rolling := rfl
@[simp] theorem Strand.mul_setVec (t : Strand) (n : Nat) (x : Vec) : (t.setVec n x).mul = t.mul := rfl
@[simp] theorem Strand.resv_setVec (t : Strand) (n : Nat) (x : Vec) : (t.setVec n x).resv = t.resv := rfl
@[simp] theorem Strand.call_setVec (t : Strand) (n : Nat) (x : Vec) : (t.setVec n x).call = t.call := rfl
@[simp] theorem Strand.remote_setVec (t : Strand) (n : Nat) (x : Vec) : (t.setVec n x).remote = t.remote := rfl
@[simp] theorem Strand.gonging_setVec (t : Strand) (n : Nat) (x : Vec) : (t.setVec n x).gonging = t.gonging := rfl
@[simp] theorem Strand.bellWait_setVec (t : Strand) (n : Nat) (x : Vec) : (t.setVec n x).bellWait = t.bellWait := rfl
@[simp] theorem Strand.fence_setVec (t : Strand) (n : Nat) (x : Vec) : (t.setVec n x).fence = t.fence := rfl
@[simp] theorem Strand.inFlight_setVec (t : Strand) (n : Nat) (x : Vec) : (t.setVec n x).inFlight = t.inFlight := rfl
@[simp] theorem Strand.posting_setVec (t : Strand) (n : Nat) (x : Vec) : (t.setVec n x).posting = t.posting := rfl
@[simp] theorem Strand.body_setVec (t : Strand) (n : Nat) (x : Vec) : (t.setVec n x).body = t.body := rfl
@[simp] theorem Strand.notice_setVec (t : Strand) (n : Nat) (x : Vec) : (t.setVec n x).notice = t.notice := rfl
@[simp] theorem Strand.performed_setVec (t : Strand) (n : Nat) (x : Vec) : (t.setVec n x).performed = t.performed := rfl
@[simp] theorem Strand.flushing_setVec (t : Strand) (n : Nat) (x : Vec) : (t.setVec n x).flushing = t.flushing := rfl
@[simp] theorem Strand.flush_setVec (t : Strand) (n : Nat) (x : Vec) : (t.setVec n x).flush = t.flush := rfl

/-! ## `setPred` -/

@[simp] theorem Strand.run_setPred (t : Strand) (n : Nat) (x : Bool) : (t.setPred n x).run = t.run := by unfold Strand.setPred; split <;> rfl
@[simp] theorem Strand.pc_setPred (t : Strand) (n : Nat) (x : Bool) : (t.setPred n x).pc = t.pc := by unfold Strand.setPred; split <;> rfl
@[simp] theorem Strand.sup_setPred (t : Strand) (n : Nat) (x : Bool) : (t.setPred n x).sup = t.sup := by unfold Strand.setPred; split <;> rfl
@[simp] theorem Strand.g_setPred (t : Strand) (n : Nat) (x : Bool) : (t.setPred n x).g = t.g := by unfold Strand.setPred; split <;> rfl
@[simp] theorem Strand.v_setPred (t : Strand) (n : Nat) (x : Bool) : (t.setPred n x).v = t.v := by unfold Strand.setPred; split <;> rfl
@[simp] theorem Strand.m_setPred (t : Strand) (n : Nat) (x : Bool) : (t.setPred n x).m = t.m := by unfold Strand.setPred; split <;> rfl
@[simp] theorem Strand.ttag_setPred (t : Strand) (n : Nat) (x : Bool) : (t.setPred n x).ttag = t.ttag := by unfold Strand.setPred; split <;> rfl
@[simp] theorem Strand.tidx_setPred (t : Strand) (n : Nat) (x : Bool) : (t.setPred n x).tidx = t.tidx := by unfold Strand.setPred; split <;> rfl
@[simp] theorem Strand.gidx_setPred (t : Strand) (n : Nat) (x : Bool) : (t.setPred n x).gidx = t.gidx := by unfold Strand.setPred; split <;> rfl
@[simp] theorem Strand.gsz_setPred (t : Strand) (n : Nat) (x : Bool) : (t.setPred n x).gsz = t.gsz := by unfold Strand.setPred; split <;> rfl
@[simp] theorem Strand.castp_setPred (t : Strand) (n : Nat) (x : Bool) : (t.setPred n x).castp = t.castp := by unfold Strand.setPred; split <;> rfl
@[simp] theorem Strand.xvec_setPred (t : Strand) (n : Nat) (x : Bool) : (t.setPred n x).xvec = t.xvec := by unfold Strand.setPred; split <;> rfl
@[simp] theorem Strand.xdvec_setPred (t : Strand) (n : Nat) (x : Bool) : (t.setPred n x).xdvec = t.xdvec := by unfold Strand.setPred; split <;> rfl
@[simp] theorem Strand.xpin_setPred (t : Strand) (n : Nat) (x : Bool) : (t.setPred n x).xpin = t.xpin := by unfold Strand.setPred; split <;> rfl
@[simp] theorem Strand.xpc_setPred (t : Strand) (n : Nat) (x : Bool) : (t.setPred n x).xpc = t.xpc := by unfold Strand.setPred; split <;> rfl
@[simp] theorem Strand.xcause_setPred (t : Strand) (n : Nat) (x : Bool) : (t.setPred n x).xcause = t.xcause := by unfold Strand.setPred; split <;> rfl
@[simp] theorem Strand.xaddr_setPred (t : Strand) (n : Nat) (x : Bool) : (t.setPred n x).xaddr = t.xaddr := by unfold Strand.setPred; split <;> rfl
@[simp] theorem Strand.xinfo_setPred (t : Strand) (n : Nat) (x : Bool) : (t.setPred n x).xinfo = t.xinfo := by unfold Strand.setPred; split <;> rfl
@[simp] theorem Strand.xstat_setPred (t : Strand) (n : Nat) (x : Bool) : (t.setPred n x).xstat = t.xstat := by unfold Strand.setPred; split <;> rfl
@[simp] theorem Strand.xscr_setPred (t : Strand) (n : Nat) (x : Bool) : (t.setPred n x).xscr = t.xscr := by unfold Strand.setPred; split <;> rfl
@[simp] theorem Strand.xcause2_setPred (t : Strand) (n : Nat) (x : Bool) : (t.setPred n x).xcause2 = t.xcause2 := by unfold Strand.setPred; split <;> rfl
@[simp] theorem Strand.xpc2_setPred (t : Strand) (n : Nat) (x : Bool) : (t.setPred n x).xpc2 = t.xpc2 := by unfold Strand.setPred; split <;> rfl
@[simp] theorem Strand.xaddr2_setPred (t : Strand) (n : Nat) (x : Bool) : (t.setPred n x).xaddr2 = t.xaddr2 := by unfold Strand.setPred; split <;> rfl
@[simp] theorem Strand.xlvl_setPred (t : Strand) (n : Nat) (x : Bool) : (t.setPred n x).xlvl = t.xlvl := by unfold Strand.setPred; split <;> rfl
@[simp] theorem Strand.xmask_setPred (t : Strand) (n : Nat) (x : Bool) : (t.setPred n x).xmask = t.xmask := by unfold Strand.setPred; split <;> rfl
@[simp] theorem Strand.xctl_setPred (t : Strand) (n : Nat) (x : Bool) : (t.setPred n x).xctl = t.xctl := by unfold Strand.setPred; split <;> rfl
@[simp] theorem Strand.xprq_setPred (t : Strand) (n : Nat) (x : Bool) : (t.setPred n x).xprq = t.xprq := by unfold Strand.setPred; split <;> rfl
@[simp] theorem Strand.xpdl_setPred (t : Strand) (n : Nat) (x : Bool) : (t.setPred n x).xpdl = t.xpdl := by unfold Strand.setPred; split <;> rfl
@[simp] theorem Strand.xsave_setPred (t : Strand) (n : Nat) (x : Bool) : (t.setPred n x).xsave = t.xsave := by unfold Strand.setPred; split <;> rfl
@[simp] theorem Strand.ptbase_setPred (t : Strand) (n : Nat) (x : Bool) : (t.setPred n x).ptbase = t.ptbase := by unfold Strand.setPred; split <;> rfl
@[simp] theorem Strand.asn_setPred (t : Strand) (n : Nat) (x : Bool) : (t.setPred n x).asn = t.asn := by unfold Strand.setPred; split <;> rfl
@[simp] theorem Strand.keyl_setPred (t : Strand) (n : Nat) (x : Bool) : (t.setPred n x).keyl = t.keyl := by unfold Strand.setPred; split <;> rfl
@[simp] theorem Strand.keys_setPred (t : Strand) (n : Nat) (x : Bool) : (t.setPred n x).keys = t.keys := by unfold Strand.setPred; split <;> rfl
@[simp] theorem Strand.ebind_setPred (t : Strand) (n : Nat) (x : Bool) : (t.setPred n x).ebind = t.ebind := by unfold Strand.setPred; split <;> rfl
@[simp] theorem Strand.estat_setPred (t : Strand) (n : Nat) (x : Bool) : (t.setPred n x).estat = t.estat := by unfold Strand.setPred; split <;> rfl
@[simp] theorem Strand.rollc_setPred (t : Strand) (n : Nat) (x : Bool) : (t.setPred n x).rollc = t.rollc := by unfold Strand.setPred; split <;> rfl
@[simp] theorem Strand.rolli_setPred (t : Strand) (n : Nat) (x : Bool) : (t.setPred n x).rolli = t.rolli := by unfold Strand.setPred; split <;> rfl
@[simp] theorem Strand.cseq_setPred (t : Strand) (n : Nat) (x : Bool) : (t.setPred n x).cseq = t.cseq := by unfold Strand.setPred; split <;> rfl
@[simp] theorem Strand.debugPend_setPred (t : Strand) (n : Nat) (x : Bool) : (t.setPred n x).debugPend = t.debugPend := by unfold Strand.setPred; split <;> rfl
@[simp] theorem Strand.overrun_setPred (t : Strand) (n : Nat) (x : Bool) : (t.setPred n x).overrun = t.overrun := by unfold Strand.setPred; split <;> rfl
@[simp] theorem Strand.drains_setPred (t : Strand) (n : Nat) (x : Bool) : (t.setPred n x).drains = t.drains := by unfold Strand.setPred; split <;> rfl
@[simp] theorem Strand.tiles_setPred (t : Strand) (n : Nat) (x : Bool) : (t.setPred n x).tiles = t.tiles := by unfold Strand.setPred; split <;> rfl
@[simp] theorem Strand.accs_setPred (t : Strand) (n : Nat) (x : Bool) : (t.setPred n x).accs = t.accs := by unfold Strand.setPred; split <;> rfl
@[simp] theorem Strand.rolling_setPred (t : Strand) (n : Nat) (x : Bool) : (t.setPred n x).rolling = t.rolling := by unfold Strand.setPred; split <;> rfl
@[simp] theorem Strand.mul_setPred (t : Strand) (n : Nat) (x : Bool) : (t.setPred n x).mul = t.mul := by unfold Strand.setPred; split <;> rfl
@[simp] theorem Strand.resv_setPred (t : Strand) (n : Nat) (x : Bool) : (t.setPred n x).resv = t.resv := by unfold Strand.setPred; split <;> rfl
@[simp] theorem Strand.call_setPred (t : Strand) (n : Nat) (x : Bool) : (t.setPred n x).call = t.call := by unfold Strand.setPred; split <;> rfl
@[simp] theorem Strand.remote_setPred (t : Strand) (n : Nat) (x : Bool) : (t.setPred n x).remote = t.remote := by unfold Strand.setPred; split <;> rfl
@[simp] theorem Strand.gonging_setPred (t : Strand) (n : Nat) (x : Bool) : (t.setPred n x).gonging = t.gonging := by unfold Strand.setPred; split <;> rfl
@[simp] theorem Strand.bellWait_setPred (t : Strand) (n : Nat) (x : Bool) : (t.setPred n x).bellWait = t.bellWait := by unfold Strand.setPred; split <;> rfl
@[simp] theorem Strand.fence_setPred (t : Strand) (n : Nat) (x : Bool) : (t.setPred n x).fence = t.fence := by unfold Strand.setPred; split <;> rfl
@[simp] theorem Strand.inFlight_setPred (t : Strand) (n : Nat) (x : Bool) : (t.setPred n x).inFlight = t.inFlight := by unfold Strand.setPred; split <;> rfl
@[simp] theorem Strand.posting_setPred (t : Strand) (n : Nat) (x : Bool) : (t.setPred n x).posting = t.posting := by unfold Strand.setPred; split <;> rfl
@[simp] theorem Strand.body_setPred (t : Strand) (n : Nat) (x : Bool) : (t.setPred n x).body = t.body := by unfold Strand.setPred; split <;> rfl
@[simp] theorem Strand.notice_setPred (t : Strand) (n : Nat) (x : Bool) : (t.setPred n x).notice = t.notice := by unfold Strand.setPred; split <;> rfl
@[simp] theorem Strand.performed_setPred (t : Strand) (n : Nat) (x : Bool) : (t.setPred n x).performed = t.performed := by unfold Strand.setPred; split <;> rfl
@[simp] theorem Strand.flushing_setPred (t : Strand) (n : Nat) (x : Bool) : (t.setPred n x).flushing = t.flushing := by unfold Strand.setPred; split <;> rfl
@[simp] theorem Strand.flush_setPred (t : Strand) (n : Nat) (x : Bool) : (t.setPred n x).flush = t.flush := by unfold Strand.setPred; split <;> rfl

/-! ## `setMask` -/

@[simp] theorem Strand.run_setMask (t : Strand) (n : Nat) (x : Word) : (t.setMask n x).run = t.run := by unfold Strand.setMask; split <;> rfl
@[simp] theorem Strand.pc_setMask (t : Strand) (n : Nat) (x : Word) : (t.setMask n x).pc = t.pc := by unfold Strand.setMask; split <;> rfl
@[simp] theorem Strand.sup_setMask (t : Strand) (n : Nat) (x : Word) : (t.setMask n x).sup = t.sup := by unfold Strand.setMask; split <;> rfl
@[simp] theorem Strand.g_setMask (t : Strand) (n : Nat) (x : Word) : (t.setMask n x).g = t.g := by unfold Strand.setMask; split <;> rfl
@[simp] theorem Strand.v_setMask (t : Strand) (n : Nat) (x : Word) : (t.setMask n x).v = t.v := by unfold Strand.setMask; split <;> rfl
@[simp] theorem Strand.p_setMask (t : Strand) (n : Nat) (x : Word) : (t.setMask n x).p = t.p := by unfold Strand.setMask; split <;> rfl
@[simp] theorem Strand.ttag_setMask (t : Strand) (n : Nat) (x : Word) : (t.setMask n x).ttag = t.ttag := by unfold Strand.setMask; split <;> rfl
@[simp] theorem Strand.tidx_setMask (t : Strand) (n : Nat) (x : Word) : (t.setMask n x).tidx = t.tidx := by unfold Strand.setMask; split <;> rfl
@[simp] theorem Strand.gidx_setMask (t : Strand) (n : Nat) (x : Word) : (t.setMask n x).gidx = t.gidx := by unfold Strand.setMask; split <;> rfl
@[simp] theorem Strand.gsz_setMask (t : Strand) (n : Nat) (x : Word) : (t.setMask n x).gsz = t.gsz := by unfold Strand.setMask; split <;> rfl
@[simp] theorem Strand.castp_setMask (t : Strand) (n : Nat) (x : Word) : (t.setMask n x).castp = t.castp := by unfold Strand.setMask; split <;> rfl
@[simp] theorem Strand.xvec_setMask (t : Strand) (n : Nat) (x : Word) : (t.setMask n x).xvec = t.xvec := by unfold Strand.setMask; split <;> rfl
@[simp] theorem Strand.xdvec_setMask (t : Strand) (n : Nat) (x : Word) : (t.setMask n x).xdvec = t.xdvec := by unfold Strand.setMask; split <;> rfl
@[simp] theorem Strand.xpin_setMask (t : Strand) (n : Nat) (x : Word) : (t.setMask n x).xpin = t.xpin := by unfold Strand.setMask; split <;> rfl
@[simp] theorem Strand.xpc_setMask (t : Strand) (n : Nat) (x : Word) : (t.setMask n x).xpc = t.xpc := by unfold Strand.setMask; split <;> rfl
@[simp] theorem Strand.xcause_setMask (t : Strand) (n : Nat) (x : Word) : (t.setMask n x).xcause = t.xcause := by unfold Strand.setMask; split <;> rfl
@[simp] theorem Strand.xaddr_setMask (t : Strand) (n : Nat) (x : Word) : (t.setMask n x).xaddr = t.xaddr := by unfold Strand.setMask; split <;> rfl
@[simp] theorem Strand.xinfo_setMask (t : Strand) (n : Nat) (x : Word) : (t.setMask n x).xinfo = t.xinfo := by unfold Strand.setMask; split <;> rfl
@[simp] theorem Strand.xstat_setMask (t : Strand) (n : Nat) (x : Word) : (t.setMask n x).xstat = t.xstat := by unfold Strand.setMask; split <;> rfl
@[simp] theorem Strand.xscr_setMask (t : Strand) (n : Nat) (x : Word) : (t.setMask n x).xscr = t.xscr := by unfold Strand.setMask; split <;> rfl
@[simp] theorem Strand.xcause2_setMask (t : Strand) (n : Nat) (x : Word) : (t.setMask n x).xcause2 = t.xcause2 := by unfold Strand.setMask; split <;> rfl
@[simp] theorem Strand.xpc2_setMask (t : Strand) (n : Nat) (x : Word) : (t.setMask n x).xpc2 = t.xpc2 := by unfold Strand.setMask; split <;> rfl
@[simp] theorem Strand.xaddr2_setMask (t : Strand) (n : Nat) (x : Word) : (t.setMask n x).xaddr2 = t.xaddr2 := by unfold Strand.setMask; split <;> rfl
@[simp] theorem Strand.xlvl_setMask (t : Strand) (n : Nat) (x : Word) : (t.setMask n x).xlvl = t.xlvl := by unfold Strand.setMask; split <;> rfl
@[simp] theorem Strand.xmask_setMask (t : Strand) (n : Nat) (x : Word) : (t.setMask n x).xmask = t.xmask := by unfold Strand.setMask; split <;> rfl
@[simp] theorem Strand.xctl_setMask (t : Strand) (n : Nat) (x : Word) : (t.setMask n x).xctl = t.xctl := by unfold Strand.setMask; split <;> rfl
@[simp] theorem Strand.xprq_setMask (t : Strand) (n : Nat) (x : Word) : (t.setMask n x).xprq = t.xprq := by unfold Strand.setMask; split <;> rfl
@[simp] theorem Strand.xpdl_setMask (t : Strand) (n : Nat) (x : Word) : (t.setMask n x).xpdl = t.xpdl := by unfold Strand.setMask; split <;> rfl
@[simp] theorem Strand.xsave_setMask (t : Strand) (n : Nat) (x : Word) : (t.setMask n x).xsave = t.xsave := by unfold Strand.setMask; split <;> rfl
@[simp] theorem Strand.ptbase_setMask (t : Strand) (n : Nat) (x : Word) : (t.setMask n x).ptbase = t.ptbase := by unfold Strand.setMask; split <;> rfl
@[simp] theorem Strand.asn_setMask (t : Strand) (n : Nat) (x : Word) : (t.setMask n x).asn = t.asn := by unfold Strand.setMask; split <;> rfl
@[simp] theorem Strand.keyl_setMask (t : Strand) (n : Nat) (x : Word) : (t.setMask n x).keyl = t.keyl := by unfold Strand.setMask; split <;> rfl
@[simp] theorem Strand.keys_setMask (t : Strand) (n : Nat) (x : Word) : (t.setMask n x).keys = t.keys := by unfold Strand.setMask; split <;> rfl
@[simp] theorem Strand.ebind_setMask (t : Strand) (n : Nat) (x : Word) : (t.setMask n x).ebind = t.ebind := by unfold Strand.setMask; split <;> rfl
@[simp] theorem Strand.estat_setMask (t : Strand) (n : Nat) (x : Word) : (t.setMask n x).estat = t.estat := by unfold Strand.setMask; split <;> rfl
@[simp] theorem Strand.rollc_setMask (t : Strand) (n : Nat) (x : Word) : (t.setMask n x).rollc = t.rollc := by unfold Strand.setMask; split <;> rfl
@[simp] theorem Strand.rolli_setMask (t : Strand) (n : Nat) (x : Word) : (t.setMask n x).rolli = t.rolli := by unfold Strand.setMask; split <;> rfl
@[simp] theorem Strand.cseq_setMask (t : Strand) (n : Nat) (x : Word) : (t.setMask n x).cseq = t.cseq := by unfold Strand.setMask; split <;> rfl
@[simp] theorem Strand.debugPend_setMask (t : Strand) (n : Nat) (x : Word) : (t.setMask n x).debugPend = t.debugPend := by unfold Strand.setMask; split <;> rfl
@[simp] theorem Strand.overrun_setMask (t : Strand) (n : Nat) (x : Word) : (t.setMask n x).overrun = t.overrun := by unfold Strand.setMask; split <;> rfl
@[simp] theorem Strand.drains_setMask (t : Strand) (n : Nat) (x : Word) : (t.setMask n x).drains = t.drains := by unfold Strand.setMask; split <;> rfl
@[simp] theorem Strand.tiles_setMask (t : Strand) (n : Nat) (x : Word) : (t.setMask n x).tiles = t.tiles := by unfold Strand.setMask; split <;> rfl
@[simp] theorem Strand.accs_setMask (t : Strand) (n : Nat) (x : Word) : (t.setMask n x).accs = t.accs := by unfold Strand.setMask; split <;> rfl
@[simp] theorem Strand.rolling_setMask (t : Strand) (n : Nat) (x : Word) : (t.setMask n x).rolling = t.rolling := by unfold Strand.setMask; split <;> rfl
@[simp] theorem Strand.mul_setMask (t : Strand) (n : Nat) (x : Word) : (t.setMask n x).mul = t.mul := by unfold Strand.setMask; split <;> rfl
@[simp] theorem Strand.resv_setMask (t : Strand) (n : Nat) (x : Word) : (t.setMask n x).resv = t.resv := by unfold Strand.setMask; split <;> rfl
@[simp] theorem Strand.call_setMask (t : Strand) (n : Nat) (x : Word) : (t.setMask n x).call = t.call := by unfold Strand.setMask; split <;> rfl
@[simp] theorem Strand.remote_setMask (t : Strand) (n : Nat) (x : Word) : (t.setMask n x).remote = t.remote := by unfold Strand.setMask; split <;> rfl
@[simp] theorem Strand.gonging_setMask (t : Strand) (n : Nat) (x : Word) : (t.setMask n x).gonging = t.gonging := by unfold Strand.setMask; split <;> rfl
@[simp] theorem Strand.bellWait_setMask (t : Strand) (n : Nat) (x : Word) : (t.setMask n x).bellWait = t.bellWait := by unfold Strand.setMask; split <;> rfl
@[simp] theorem Strand.fence_setMask (t : Strand) (n : Nat) (x : Word) : (t.setMask n x).fence = t.fence := by unfold Strand.setMask; split <;> rfl
@[simp] theorem Strand.inFlight_setMask (t : Strand) (n : Nat) (x : Word) : (t.setMask n x).inFlight = t.inFlight := by unfold Strand.setMask; split <;> rfl
@[simp] theorem Strand.posting_setMask (t : Strand) (n : Nat) (x : Word) : (t.setMask n x).posting = t.posting := by unfold Strand.setMask; split <;> rfl
@[simp] theorem Strand.body_setMask (t : Strand) (n : Nat) (x : Word) : (t.setMask n x).body = t.body := by unfold Strand.setMask; split <;> rfl
@[simp] theorem Strand.notice_setMask (t : Strand) (n : Nat) (x : Word) : (t.setMask n x).notice = t.notice := by unfold Strand.setMask; split <;> rfl
@[simp] theorem Strand.performed_setMask (t : Strand) (n : Nat) (x : Word) : (t.setMask n x).performed = t.performed := by unfold Strand.setMask; split <;> rfl
@[simp] theorem Strand.flushing_setMask (t : Strand) (n : Nat) (x : Word) : (t.setMask n x).flushing = t.flushing := by unfold Strand.setMask; split <;> rfl
@[simp] theorem Strand.flush_setMask (t : Strand) (n : Nat) (x : Word) : (t.setMask n x).flush = t.flush := by unfold Strand.setMask; split <;> rfl

/-- What retiring changes of a strand (R299). -/
theorem Strand.advance_eq (t : Strand) (n : Nat) :
    t.advance n = { t with pc := (t.advance n).pc, rolli := (t.advance n).rolli, rolling := (t.advance n).rolling, body := (t.advance n).body, inFlight := 0 } := by
  unfold Strand.advance
  dsimp only
  repeat' split
  all_goals rfl

/-! ## `advance` -/

@[simp] theorem Strand.run_advance (t : Strand) (n : Nat) : (t.advance n).run = t.run := by rw [Strand.advance_eq]
@[simp] theorem Strand.sup_advance (t : Strand) (n : Nat) : (t.advance n).sup = t.sup := by rw [Strand.advance_eq]
@[simp] theorem Strand.g_advance (t : Strand) (n : Nat) : (t.advance n).g = t.g := by rw [Strand.advance_eq]
@[simp] theorem Strand.v_advance (t : Strand) (n : Nat) : (t.advance n).v = t.v := by rw [Strand.advance_eq]
@[simp] theorem Strand.p_advance (t : Strand) (n : Nat) : (t.advance n).p = t.p := by rw [Strand.advance_eq]
@[simp] theorem Strand.m_advance (t : Strand) (n : Nat) : (t.advance n).m = t.m := by rw [Strand.advance_eq]
@[simp] theorem Strand.ttag_advance (t : Strand) (n : Nat) : (t.advance n).ttag = t.ttag := by rw [Strand.advance_eq]
@[simp] theorem Strand.tidx_advance (t : Strand) (n : Nat) : (t.advance n).tidx = t.tidx := by rw [Strand.advance_eq]
@[simp] theorem Strand.gidx_advance (t : Strand) (n : Nat) : (t.advance n).gidx = t.gidx := by rw [Strand.advance_eq]
@[simp] theorem Strand.gsz_advance (t : Strand) (n : Nat) : (t.advance n).gsz = t.gsz := by rw [Strand.advance_eq]
@[simp] theorem Strand.castp_advance (t : Strand) (n : Nat) : (t.advance n).castp = t.castp := by rw [Strand.advance_eq]
@[simp] theorem Strand.xvec_advance (t : Strand) (n : Nat) : (t.advance n).xvec = t.xvec := by rw [Strand.advance_eq]
@[simp] theorem Strand.xdvec_advance (t : Strand) (n : Nat) : (t.advance n).xdvec = t.xdvec := by rw [Strand.advance_eq]
@[simp] theorem Strand.xpin_advance (t : Strand) (n : Nat) : (t.advance n).xpin = t.xpin := by rw [Strand.advance_eq]
@[simp] theorem Strand.xpc_advance (t : Strand) (n : Nat) : (t.advance n).xpc = t.xpc := by rw [Strand.advance_eq]
@[simp] theorem Strand.xcause_advance (t : Strand) (n : Nat) : (t.advance n).xcause = t.xcause := by rw [Strand.advance_eq]
@[simp] theorem Strand.xaddr_advance (t : Strand) (n : Nat) : (t.advance n).xaddr = t.xaddr := by rw [Strand.advance_eq]
@[simp] theorem Strand.xinfo_advance (t : Strand) (n : Nat) : (t.advance n).xinfo = t.xinfo := by rw [Strand.advance_eq]
@[simp] theorem Strand.xstat_advance (t : Strand) (n : Nat) : (t.advance n).xstat = t.xstat := by rw [Strand.advance_eq]
@[simp] theorem Strand.xscr_advance (t : Strand) (n : Nat) : (t.advance n).xscr = t.xscr := by rw [Strand.advance_eq]
@[simp] theorem Strand.xcause2_advance (t : Strand) (n : Nat) : (t.advance n).xcause2 = t.xcause2 := by rw [Strand.advance_eq]
@[simp] theorem Strand.xpc2_advance (t : Strand) (n : Nat) : (t.advance n).xpc2 = t.xpc2 := by rw [Strand.advance_eq]
@[simp] theorem Strand.xaddr2_advance (t : Strand) (n : Nat) : (t.advance n).xaddr2 = t.xaddr2 := by rw [Strand.advance_eq]
@[simp] theorem Strand.xlvl_advance (t : Strand) (n : Nat) : (t.advance n).xlvl = t.xlvl := by rw [Strand.advance_eq]
@[simp] theorem Strand.xmask_advance (t : Strand) (n : Nat) : (t.advance n).xmask = t.xmask := by rw [Strand.advance_eq]
@[simp] theorem Strand.xctl_advance (t : Strand) (n : Nat) : (t.advance n).xctl = t.xctl := by rw [Strand.advance_eq]
@[simp] theorem Strand.xprq_advance (t : Strand) (n : Nat) : (t.advance n).xprq = t.xprq := by rw [Strand.advance_eq]
@[simp] theorem Strand.xpdl_advance (t : Strand) (n : Nat) : (t.advance n).xpdl = t.xpdl := by rw [Strand.advance_eq]
@[simp] theorem Strand.xsave_advance (t : Strand) (n : Nat) : (t.advance n).xsave = t.xsave := by rw [Strand.advance_eq]
@[simp] theorem Strand.ptbase_advance (t : Strand) (n : Nat) : (t.advance n).ptbase = t.ptbase := by rw [Strand.advance_eq]
@[simp] theorem Strand.asn_advance (t : Strand) (n : Nat) : (t.advance n).asn = t.asn := by rw [Strand.advance_eq]
@[simp] theorem Strand.keyl_advance (t : Strand) (n : Nat) : (t.advance n).keyl = t.keyl := by rw [Strand.advance_eq]
@[simp] theorem Strand.keys_advance (t : Strand) (n : Nat) : (t.advance n).keys = t.keys := by rw [Strand.advance_eq]
@[simp] theorem Strand.ebind_advance (t : Strand) (n : Nat) : (t.advance n).ebind = t.ebind := by rw [Strand.advance_eq]
@[simp] theorem Strand.estat_advance (t : Strand) (n : Nat) : (t.advance n).estat = t.estat := by rw [Strand.advance_eq]
@[simp] theorem Strand.rollc_advance (t : Strand) (n : Nat) : (t.advance n).rollc = t.rollc := by rw [Strand.advance_eq]
@[simp] theorem Strand.cseq_advance (t : Strand) (n : Nat) : (t.advance n).cseq = t.cseq := by rw [Strand.advance_eq]
@[simp] theorem Strand.debugPend_advance (t : Strand) (n : Nat) : (t.advance n).debugPend = t.debugPend := by rw [Strand.advance_eq]
@[simp] theorem Strand.overrun_advance (t : Strand) (n : Nat) : (t.advance n).overrun = t.overrun := by rw [Strand.advance_eq]
@[simp] theorem Strand.drains_advance (t : Strand) (n : Nat) : (t.advance n).drains = t.drains := by rw [Strand.advance_eq]
@[simp] theorem Strand.tiles_advance (t : Strand) (n : Nat) : (t.advance n).tiles = t.tiles := by rw [Strand.advance_eq]
@[simp] theorem Strand.accs_advance (t : Strand) (n : Nat) : (t.advance n).accs = t.accs := by rw [Strand.advance_eq]
@[simp] theorem Strand.mul_advance (t : Strand) (n : Nat) : (t.advance n).mul = t.mul := by rw [Strand.advance_eq]
@[simp] theorem Strand.resv_advance (t : Strand) (n : Nat) : (t.advance n).resv = t.resv := by rw [Strand.advance_eq]
@[simp] theorem Strand.call_advance (t : Strand) (n : Nat) : (t.advance n).call = t.call := by rw [Strand.advance_eq]
@[simp] theorem Strand.remote_advance (t : Strand) (n : Nat) : (t.advance n).remote = t.remote := by rw [Strand.advance_eq]
@[simp] theorem Strand.gonging_advance (t : Strand) (n : Nat) : (t.advance n).gonging = t.gonging := by rw [Strand.advance_eq]
@[simp] theorem Strand.bellWait_advance (t : Strand) (n : Nat) : (t.advance n).bellWait = t.bellWait := by rw [Strand.advance_eq]
@[simp] theorem Strand.fence_advance (t : Strand) (n : Nat) : (t.advance n).fence = t.fence := by rw [Strand.advance_eq]
@[simp] theorem Strand.posting_advance (t : Strand) (n : Nat) : (t.advance n).posting = t.posting := by rw [Strand.advance_eq]
@[simp] theorem Strand.notice_advance (t : Strand) (n : Nat) : (t.advance n).notice = t.notice := by rw [Strand.advance_eq]
@[simp] theorem Strand.performed_advance (t : Strand) (n : Nat) : (t.advance n).performed = t.performed := by rw [Strand.advance_eq]
@[simp] theorem Strand.flushing_advance (t : Strand) (n : Nat) : (t.advance n).flushing = t.flushing := by rw [Strand.advance_eq]
@[simp] theorem Strand.flush_advance (t : Strand) (n : Nat) : (t.advance n).flush = t.flush := by rw [Strand.advance_eq]

/-! ## Registers of a strand -/

/-- A write to g0 is discarded; any other register reads as written, and the rest as before (R37, R216). -/
theorem Strand.gpr_setGpr (t : Strand) (n k : Nat) (x : Word) :
    (t.setGpr n x).gpr k = if n = k ∧ n ≠ 0 then x else t.gpr k := by
  unfold Strand.setGpr Strand.gpr
  by_cases hn : n = 0
  · simp [hn]
  · rw [if_neg hn]
    by_cases hk : k = 0
    · subst hk; simp [hn]
    · rw [if_neg hk, if_neg hk, Tab.get_set]; simp [hn]

theorem Strand.vec_setVec (t : Strand) (n k : Nat) (x : Vec) : (t.setVec n x).vec k = if n = k then x else t.vec k :=
  Tab.get_set _ _ _ _ _

theorem Strand.mask_setMask (t : Strand) (n k : Nat) (x : Word) :
    (t.setMask n x).mask k = if n = k ∧ n ≠ 0 then x else t.mask k := by
  unfold Strand.setMask Strand.mask
  by_cases hn : n = 0
  · simp [hn]
  · rw [if_neg hn]
    by_cases hk : k = 0
    · subst hk; simp [hn]
    · rw [if_neg hk, if_neg hk, Tab.get_set]; simp [hn]

@[simp] theorem Strand.gpr_zero (t : Strand) : t.gpr 0 = 0 := rfl
@[simp] theorem Strand.mask_zero (t : Strand) : t.mask 0 = BitVec.allOnes 64 := rfl
@[simp] theorem Strand.pred_zero (t : Strand) : t.pred 0 = true := rfl

/-- A write of a predicate other than p0 is read back, and the others are as before (R41, R226). -/
theorem Strand.pred_setPred (t : Strand) (n k : Nat) (x : Bool) (hk : k < 8) :
    (t.setPred n x).pred k = if n = k ∧ n ≠ 0 then x else t.pred k := by
  unfold Strand.setPred Strand.pred
  by_cases hn0 : n = 0
  · simp [hn0]
  · have hb : (BitVec.ofNat 8 (2 ^ n)).getLsbD k = decide (n = k) := by
      rw [BitVec.getLsbD_ofNat, Nat.testBit_two_pow]; simp [hk]
    rw [if_neg hn0]
    cases x
    · simp only [Bool.false_eq_true, ↓reduceIte, BitVec.getLsbD_and, BitVec.getLsbD_not, hb, hk]
      by_cases hnk : n = k <;> simp_all
    · simp only [↓reduceIte, BitVec.getLsbD_or, hb]
      by_cases hnk : n = k <;> simp_all

end Sys2Proof.Machine
end

