-- ==== Sys2Proof/Laws/Retire.lean ====
section
/-!
SUPPORT. How instructions end: retiring, transferring control, and what each leaves unchanged.
-/
namespace Sys2Proof.Machine

/-- A change of the current strand alone that then retires. -/
theorem retires_modMe (s : State) (len : Nat) (f : Strand → Strand) :
    Retires s ((s.modMe f).modMe fun t => t.advance len) len f where
  me := by simp [State.me]
  others k hk := by simp [Ne.symm hk]
  rest := by simp

theorem goes_modMe (s : State) (pc : Word) (f : Strand → Strand) :
    Goes s ((s.modMe f).modMe fun t => { t with pc := pc }) pc f where
  me := by simp [State.me]
  others k hk := by simp [Ne.symm hk]
  rest := by simp

/-- A retired instruction that changes nothing else. -/
theorem retires_id (s : State) (len : Nat) : Retires s (s.modMe fun t => t.advance len) len id where
  me := by simp
  others k hk := by simp [Ne.symm hk]
  rest := by simp

theorem done_ok (len : Nat) (s u : State) : done len s (.ok () u) = .next (u.retire len) := by rfl
theorem done_trap (len : Nat) (s u : State) (e : Exc) : done len s (.trap e u) = .next (s.takeTrap u e) := by rfl
theorem done_wait (len : Nat) (s u : State) : done len s (.wait u) = .next u := by rfl
theorem conclude_ok (s u : State) (pc : Word) : conclude s (.ok pc u) = .next (u.modMe fun t => { t with pc := pc }) := by rfl
theorem conclude_trap (s u : State) (e : Exc) : conclude s (.trap e u) = .next (s.takeTrap u e) := by rfl
theorem conclude_wait (s u : State) : conclude s (.wait u) = .next u := by rfl

theorem guarded_true (h : Hdr) (len : Nat) (s : State) (f : State → Res Unit) (hg : s.guard h = true) :
    guarded h len s f = done len s (f s) := by unfold guarded; rw [if_pos hg]

/-- Under a false guard an instruction retires and changes nothing (R33). -/
theorem guarded_false (h : Hdr) (len : Nat) (s : State) (f : State → Res Unit) (hg : s.guard h = false) :
    guarded h len s f = .next (s.retire len) := by unfold guarded; rw [if_neg (by simp [hg])]; rfl

/-- Every way in which an instruction ends answers a next state. -/
theorem done_next (len : Nat) (s : State) (r : Res Unit) : ∃ t, done len s r = .next t := by
  cases r <;> exact ⟨_, rfl⟩
theorem conclude_next (s : State) (r : Res Word) : ∃ t, conclude s r = .next t := by
  cases r <;> exact ⟨_, rfl⟩
theorem guarded_next (h : Hdr) (len : Nat) (s : State) (f : State → Res Unit) : ∃ t, guarded h len s f = .next t := by
  unfold guarded; split <;> exact done_next _ _ _
theorem privileged_next (s : State) (o : Out) (h : ∃ t, o = .next t) : ∃ t, privileged s o = .next t := by
  unfold privileged; split
  · exact h
  · exact ⟨_, rfl⟩

/-- Outside a roll the next instruction is the one that follows (R24). -/
theorem Strand.advance_plain (t : Strand) (len : Nat) (h : t.rolling = false) :
    t.advance len = { t with pc := t.pc + BitVec.ofNat 64 len, inFlight := 0 } := by unfold Strand.advance; simp [h]

theorem State.retire_strand (s : State) (len k : Nat) :
    (s.retire len).strand k = if s.cur = k then s.me.advance len else s.strand k := by simp [State.retire]
@[simp] theorem State.retire_me (s : State) (len : Nat) : (s.retire len).me = s.me.advance len := by simp [State.retire]

end Sys2Proof.Machine
end

