-- ==== Sys2Proof/Tests/Slice0.lean ====
section
/-!
SUPPORT. Tests: ill-formed terms that the checks refuse, words written out field by field from the opcode map, concrete states
that meet the hypotheses of the statements, and single steps whose results come from the manual.
-/
namespace Sys2Proof.Tests

-- One theorem at a time: side by side their kernel evaluations take the memory of many stacks.
set_option Elab.async false
open Sys2Proof Sys2Proof.Machine

/-- A header with the guard `!p3` and hints, the always-true header, and a mask with zeroing. -/
def H : Hdr := { gp := 3, gn := true, lu := 1, tmp := 2 }
def u : Hdr := { gp := 0, gn := false, lu := 0, tmp := 0 }
def k : Mask := { m := 2, z := true }

/-! ## Ill-formed terms -/

theorem test_flaw_guardPattern : (Instr.bellw { u with gn := true }).flaw = some .guardPattern := by decide
theorem test_flaw_outOfClass : (Instr.cmp .eq 0 1 2).flaw = some .outOfClass ∧ (Instr.mnot u 0 1).flaw = some .outOfClass := by decide
theorem test_flaw_reservedType :
    (Instr.st .i8 0 1 2).flaw = some .reservedType ∧ (Instr.vaddSat u k .b8 1 2 3).flaw = some .reservedType ∧
    (Instr.amoFadd u .n32 .none .core 1 2 3).flaw = some .reservedType ∧ (Instr.tmul u .n8 1 2).flaw = some .reservedType := by decide
theorem test_flaw_reservedCond :
    (Instr.cmp .un 1 2 3).flaw = some .reservedCond ∧ (Instr.vcmp u 0 .ltu .i32 1 2 3).flaw = some .reservedCond := by decide
/-- The hint bits of forms that take no hint are ignored (R34, R35). -/
theorem test_hints_ignored : (Instr.stest H 1 2).flaw = none ∧ (Instr.thint H 1 2 3 0).flaw = none := by decide
theorem test_flaw_reservedCombination :
    (Instr.vsplit3 u k 30 1).flaw = some .reservedCombination ∧ (Instr.vkeyHilb u k .n32 1 30 5).flaw = some .reservedCombination ∧
    (Instr.vshlImmediate u k .b8 1 2 8).flaw = some .reservedCombination ∧ (Instr.vkeyMort u k .f32 1 2 22).flaw = some .reservedCombination ∧
    (Instr.rput u 1 2 3 0x2001).flaw = some .reservedCombination := by decide
theorem test_flaw_notEncoded : Instr.copyChunk.flaw = some .notEncoded := by decide
theorem test_decode_short : (match decode [0x41, 0x90, 0x10, 0x05] with | .error e => some e | .ok _ => none) = some .short := by decide
theorem test_decode_reserved :
    (match decodeKind 0x0000000E with | .error e => some e | .ok _ => none) = some .reservedOp ∧
    (match decodeKind 0x04000002 with | .error e => some e | .ok _ => none) = some .reservedFn ∧
    (match decodeKind 0x02800006 with | .error e => some e | .ok _ => none) = some .reservedFn ∧
    (match decodeKind 0x00020006 with | .error e => some e | .ok _ => none) = some .nonzeroField := by decide

/-! ## Words of the opcode map, high field first -/

theorem test_decode_S01_a :
    decodeTableWord 32 0b0000000000_00101_00100_01001_000001_0 = some (.add 9 4 5) ∧
    decodeTableWord 32 0b0000000001_00101_00100_01001_000001_0 = some (.sub 9 4 5) ∧
    decodeTableWord 32 0b0000000010_00101_00100_01001_000001_0 = some (.and 9 4 5) ∧
    decodeTableWord 32 0b0000000011_00101_00100_01001_000001_0 = some (.or 9 4 5) ∧
    decodeTableWord 32 0b0000000100_00101_00100_01001_000001_0 = some (.xor 9 4 5) ∧
    decodeTableWord 32 0b0000000101_00101_00100_01001_000001_0 = some (.andn 9 4 5) ∧
    decodeTableWord 32 0b0000000110_00101_00100_01001_000001_0 = some (.orn 9 4 5) ∧
    decodeTableWord 32 0b0000000111_00101_00100_01001_000001_0 = some (.shl 9 4 5) ∧
    decodeTableWord 32 0b0000001000_00101_00100_01001_000001_0 = some (.shr 9 4 5) ∧
    decodeTableWord 32 0b0000001001_00101_00100_01001_000001_0 = some (.sar 9 4 5) ∧
    decodeTableWord 32 0b0000001010_00101_00100_01001_000001_0 = some (.rot 9 4 5) ∧
    decodeTableWord 32 0b0000001011_00101_00100_01001_000001_0 = some (.minI64 9 4 5) := by decide

theorem test_decode_S01_b :
    decodeTableWord 32 0b0000001100_00101_00100_01001_000001_0 = some (.maxI64 9 4 5) ∧
    decodeTableWord 32 0b0000001101_00101_00100_01001_000001_0 = some (.minN64 9 4 5) ∧
    decodeTableWord 32 0b0000001110_00101_00100_01001_000001_0 = some (.maxN64 9 4 5) ∧
    decodeTableWord 32 0b0000001111_00000_00100_01001_000001_0 = some (.mov 9 4) := by decide

theorem test_decode_S02 :
    decodeTableWord 32 0b0000000000_10001_00000_11111_000010_0 = some (.mul 31 0 17) ∧
    decodeTableWord 32 0b0000000001_10001_00000_11111_000010_0 = some (.mulhI64 31 0 17) ∧
    decodeTableWord 32 0b0000000010_10001_00000_11111_000010_0 = some (.mulhN64 31 0 17) ∧
    decodeTableWord 32 0b0000000011_10001_00000_11111_000010_0 = some (.divI64 31 0 17) ∧
    decodeTableWord 32 0b0000000100_10001_00000_11111_000010_0 = some (.divN64 31 0 17) ∧
    decodeTableWord 32 0b0000000101_10001_00000_11111_000010_0 = some (.remI64 31 0 17) ∧
    decodeTableWord 32 0b0000000110_10001_00000_11111_000010_0 = some (.remN64 31 0 17) := by decide

theorem test_decode_S03 :
    decodeTableWord 32 0b0000000000_00000_01011_10100_000011_0 = some (.clz 20 11) ∧
    decodeTableWord 32 0b0000000001_00000_01011_10100_000011_0 = some (.ctz 20 11) ∧
    decodeTableWord 32 0b0000000010_00000_01011_10100_000011_0 = some (.popc 20 11) ∧
    decodeTableWord 32 0b0000000011_00000_01011_10100_000011_0 = some (.bswap 20 11) ∧
    decodeTableWord 32 0b0000000100_00000_01011_10100_000011_0 = some (.extI8 20 11) ∧
    decodeTableWord 32 0b0000000101_00000_01011_10100_000011_0 = some (.extI16 20 11) ∧
    decodeTableWord 32 0b0000000110_00000_01011_10100_000011_0 = some (.extI32 20 11) ∧
    decodeTableWord 32 0b0000000111_00000_01011_10100_000011_0 = some (.extN8 20 11) ∧
    decodeTableWord 32 0b0000001000_00000_01011_10100_000011_0 = some (.extN16 20 11) ∧
    decodeTableWord 32 0b0000001001_00000_01011_10100_000011_0 = some (.extN32 20 11) := by decide

theorem test_decode_S04_S05_S06 :
    decodeTableWord 32 0b0000001001_00101_00100_00111_000100_0 = some (.cmp .geu 7 4 5) ∧
    decodeTableWord 32 0b0000000000_00001_00110_00011_000101_0 = some (.pand 3 6 1) ∧
    decodeTableWord 32 0b0000000001_00001_00110_00011_000101_0 = some (.por 3 6 1) ∧
    decodeTableWord 32 0b0000000010_00001_00110_00011_000101_0 = some (.pxor 3 6 1) ∧
    decodeTableWord 32 0b0000000011_00000_00110_00011_000101_0 = some (.pnot 3 6) ∧
    decodeTableWord 32 0b0000000100_00000_00110_00011_000101_0 = some (.pmov 3 6) ∧
    decodeTableWord 32 0b0000001101_11111_00100_01001_000101_0 = some (.sel 5 9 4 31) ∧
    decodeTableWord 32 0b0000000011_00101_00100_01001_000110_0 = some (.lea 3 9 4 5) := by decide

theorem test_decode_S08_to_S0F :
    decodeTableWord 32 0b111111111111110_00100_01001_001000_0 = some (.addImmediate 0x7FFE 9 4) ∧
    decodeTableWord 32 0b111111111111110_00100_01001_001001_0 = some (.andImmediate 0x7FFE 9 4) ∧
    decodeTableWord 32 0b111111111111110_00100_01001_001010_0 = some (.orImmediate 0x7FFE 9 4) ∧
    decodeTableWord 32 0b111111111111110_00100_01001_001011_0 = some (.xorImmediate 0x7FFE 9 4) ∧
    decodeTableWord 32 0b111111111111110_00100_01001_001101_0 = some (.mulImmediate 0x7FFE 9 4) ∧
    decodeTableWord 32 0b000000000101011_00100_01001_001100_0 = some (.shlImmediate 43 9 4) ∧
    decodeTableWord 32 0b000000001101011_00100_01001_001100_0 = some (.shrImmediate 43 9 4) ∧
    decodeTableWord 32 0b000000010101011_00100_01001_001100_0 = some (.sarImmediate 43 9 4) ∧
    decodeTableWord 32 0b000000011101011_00100_01001_001100_0 = some (.rotImmediate 43 9 4) ∧
    decodeTableWord 32 0b001111111111111_00100_00010_001110_0 = some (.cmpi .le 0x7FF 2 4) ∧
    decodeTableWord 32 0b100000000000001_00000_01001_001111_0 = some (.movi 0x4001 9) := by decide

theorem test_decode_S10_to_S12 :
    decodeTableWord 32 0b11111111111_0110_00100_01001_010000_0 = some (.ld .i32 0x7FF 9 4) ∧
    decodeTableWord 32 0b00000000101_0011_00100_01001_010001_0 = some (.st .b64 5 9 4) ∧
    decodeTableWord 32 0b10000000000_0000_00100_00000_010010_0 = some (.pfL1 0x400 4) ∧
    decodeTableWord 32 0b10000000000_0001_00100_00000_010010_0 = some (.pfCc 0x400 4) ∧
    decodeTableWord 32 0b10000000000_0010_00100_00000_010010_0 = some (.pfL2 0x400 4) := by decide

theorem test_decode_S18_to_S1B :
    decodeTableWord 32 0b111111111111111111101_1_110_011000_0 = some (.br 0x1FFFFD true 6) ∧
    decodeTableWord 32 0b1000000000000000000000001_011001_0 = some (.jmp 0x1000001) ∧
    decodeTableWord 32 0b0000010101011110011011110_011010_0 = some (.call 0x0ABCDE) ∧
    decodeTableWord 32 0b0000000000_00000_00100_00000_011011_0 = some (.jmpr 4) ∧
    decodeTableWord 32 0b0000000001_00000_00100_00000_011011_0 = some (.callr 4) ∧
    decodeTableWord 32 0b0000000010_00000_00000_00000_011011_0 = some (.ret) := by decide

theorem test_decode_S20_to_S22_a :
    decodeTableWord 32 0b0000000000_00000_00000_01001_100000_0 = some (.srGet .sid 9) ∧
    decodeTableWord 32 0b0000000001_00000_00000_01001_100000_0 = some (.srGet .cid 9) ∧
    decodeTableWord 32 0b0000000010_00000_00000_01001_100000_0 = some (.srGet .kid 9) ∧
    decodeTableWord 32 0b0000000011_00000_00000_01001_100000_0 = some (.srGet .did 9) ∧
    decodeTableWord 32 0b0000000100_00000_00000_01001_100000_0 = some (.srGet .mid 9) ∧
    decodeTableWord 32 0b0000010000_00000_00000_01001_100000_0 = some (.srGet .ttag 9) ∧
    decodeTableWord 32 0b0000010001_00000_00000_01001_100000_0 = some (.srGet .tidx 9) ∧
    decodeTableWord 32 0b0000010010_00000_00000_01001_100000_0 = some (.srGet .gidx 9) ∧
    decodeTableWord 32 0b0000010011_00000_00000_01001_100000_0 = some (.srGet .gsz 9) ∧
    decodeTableWord 32 0b0000010100_00000_00000_01001_100000_0 = some (.srGet .castp 9) ∧
    decodeTableWord 32 0b0000100000_00000_00000_01001_100000_0 = some (.srGet .xvec 9) ∧
    decodeTableWord 32 0b0000100001_00000_00000_01001_100000_0 = some (.srGet .xdvec 9) := by decide

theorem test_decode_S20_to_S22_b :
    decodeTableWord 32 0b0000100010_00000_00000_01001_100000_0 = some (.srGet .xpin 9) ∧
    decodeTableWord 32 0b0000100011_00000_00000_01001_100000_0 = some (.srGet .xpc 9) ∧
    decodeTableWord 32 0b0000100100_00000_00000_01001_100000_0 = some (.srGet .xcause 9) ∧
    decodeTableWord 32 0b0000100101_00000_00000_01001_100000_0 = some (.srGet .xaddr 9) ∧
    decodeTableWord 32 0b0000100110_00000_00000_01001_100000_0 = some (.srGet .xinfo 9) ∧
    decodeTableWord 32 0b0000100111_00000_00000_01001_100000_0 = some (.srGet .xstat 9) ∧
    decodeTableWord 32 0b0000101000_00000_00000_01001_100000_0 = some (.srGet .xscr 9) ∧
    decodeTableWord 32 0b0000101001_00000_00000_01001_100000_0 = some (.srGet .xcause2 9) ∧
    decodeTableWord 32 0b0000101010_00000_00000_01001_100000_0 = some (.srGet .xpc2 9) ∧
    decodeTableWord 32 0b0000101011_00000_00000_01001_100000_0 = some (.srGet .xaddr2 9) ∧
    decodeTableWord 32 0b0000101100_00000_00000_01001_100000_0 = some (.srGet .xlvl 9) ∧
    decodeTableWord 32 0b0000101101_00000_00000_01001_100000_0 = some (.srGet .xmask 9) := by decide

theorem test_decode_S20_to_S22_c :
    decodeTableWord 32 0b0000101110_00000_00000_01001_100000_0 = some (.srGet .xctl 9) ∧
    decodeTableWord 32 0b0000110000_00000_00000_01001_100000_0 = some (.srGet .xprq 9) ∧
    decodeTableWord 32 0b0000110001_00000_00000_01001_100000_0 = some (.srGet .xpdl 9) ∧
    decodeTableWord 32 0b0000110010_00000_00000_01001_100000_0 = some (.srGet .xsave 9) ∧
    decodeTableWord 32 0b0001000000_00000_00000_01001_100000_0 = some (.srGet .cyc 9) ∧
    decodeTableWord 32 0b0001000001_00000_00000_01001_100000_0 = some (.srGet .time 9) ∧
    decodeTableWord 32 0b0001010000_00000_00000_01001_100000_0 = some (.srGet .bpeal 9) ∧
    decodeTableWord 32 0b0001010001_00000_00000_01001_100000_0 = some (.srGet .blen 9) ∧
    decodeTableWord 32 0b0001010010_00000_00000_01001_100000_0 = some (.srGet .bnext 9) ∧
    decodeTableWord 32 0b0001100000_00000_00000_01001_100000_0 = some (.srGet .ptbase 9) ∧
    decodeTableWord 32 0b0001100001_00000_00000_01001_100000_0 = some (.srGet .asn 9) ∧
    decodeTableWord 32 0b0001100010_00000_00000_01001_100000_0 = some (.srGet .keyl 9) := by decide

theorem test_decode_S20_to_S22_d :
    decodeTableWord 32 0b0001110000_00000_00000_01001_100000_0 = some (.srGet .ebind 9) ∧
    decodeTableWord 32 0b0001110001_00000_00000_01001_100000_0 = some (.srGet .estat 9) ∧
    decodeTableWord 32 0b0010010000_00000_00000_01001_100000_0 = some (.srGet .rollc 9) ∧
    decodeTableWord 32 0b0010010001_00000_00000_01001_100000_0 = some (.srGet .rolli 9) ∧
    decodeTableWord 32 0b0010100000_00000_00000_01001_100000_0 = some (.srGet .cseq 9) ∧
    decodeTableWord 32 0b0010000000_00000_00000_01001_100000_0 = some (.srGet (.dci 0) 9) ∧
    decodeTableWord 32 0b0010001000_00000_00000_01001_100000_0 = some (.srGet (.dcc 0) 9) ∧
    decodeTableWord 32 0b0010000111_00000_00000_01001_100000_0 = some (.srGet (.dci 7) 9) ∧
    decodeTableWord 32 0b0010001111_00000_00000_01001_100000_0 = some (.srGet (.dcc 7) 9) ∧
    decodeTableWord 32 0b0000101011_00000_00100_00000_100001_0 = some (.srSet .xaddr2 4) ∧
    decodeTableWord 32 0b0010010001_00000_00100_01001_100010_0 = some (.srSwap .rolli 9 4) := by decide

theorem test_decode_S23_to_S25_a :
    decodeTableWord 32 0b0000000000_00000_00000_00000_100011_0 = some (.nop) ∧
    decodeTableWord 32 0b0000000001_00000_10101_00000_100011_0 = some (.trap 21) ∧
    decodeTableWord 32 0b0000000010_00000_00000_00000_100011_0 = some (.tret) ∧
    decodeTableWord 32 0b0000000011_00000_00000_00000_100011_0 = some (.tack) ∧
    decodeTableWord 32 0b0000000100_00000_00000_00000_100011_0 = some (.halt) ∧
    decodeTableWord 32 0b0000000101_00000_00000_00000_100011_0 = some (.yield) ∧
    decodeTableWord 32 0b0000001001_00000_00000_00000_100100_0 = some (.fenceAcq .clu) ∧
    decodeTableWord 32 0b0000010011_00000_00000_00000_100100_0 = some (.fenceRel .mod) ∧
    decodeTableWord 32 0b0000011101_00000_00000_00000_100100_0 = some (.fenceAr .dom) ∧
    decodeTableWord 32 0b0000011100_00000_00000_00000_100100_0 = some (.fenceAr .set) ∧
    decodeTableWord 32 0b0100000000_00000_00100_00000_100100_0 = some (.cflWt 4) ∧
    decodeTableWord 32 0b0100000001_00000_00100_00000_100100_0 = some (.cflInv 4) := by decide

theorem test_decode_S23_to_S25_b :
    decodeTableWord 32 0b0100000010_00000_00100_00000_100100_0 = some (.cflWi 4) ∧
    decodeTableWord 32 0b1000000000_00000_00100_00000_100100_0 = some (.tlbiPage 4) ∧
    decodeTableWord 32 0b1000000001_00000_00100_00000_100100_0 = some (.tlbiAsn 4) ∧
    decodeTableWord 32 0b1000000010_00000_00000_00000_100100_0 = some (.tlbiAll) ∧
    decodeTableWord 32 0b0000000000_00101_00100_01001_100101_0 = some (.waitNe 9 4 5) ∧
    decodeTableWord 32 0b0000000001_00101_00100_01001_100101_0 = some (.waitEq 9 4 5) ∧
    decodeTableWord 32 0b0000000010_00101_00100_01001_100101_0 = some (.waitGe 9 4 5) := by decide

theorem test_decode_M01_a :
    decodeTableWord 64 0b00000000000000_1_010_1011_00000000_10_01_011111_000100_001001_1_011_000001_01 = some (.vadd H k .n64 9 4 31) ∧
    decodeTableWord 64 0b00000000000000_1_010_0000_00000001_10_01_011111_000100_001001_1_011_000001_01 = some (.vsub H k .b8 9 4 31) ∧
    decodeTableWord 64 0b00000000000000_1_010_0110_00000010_10_01_011111_000100_001001_1_011_000001_01 = some (.vmul H k .i32 9 4 31) ∧
    decodeTableWord 64 0b00000000000000_1_010_0100_10000000_10_01_011111_000100_001001_1_011_000001_01 = some (.vaddSat H k .i8 9 4 31) ∧
    decodeTableWord 64 0b00000000000000_1_010_1001_10000001_10_01_011111_000100_001001_1_011_000001_01 = some (.vsubSat H k .n16 9 4 31) ∧
    decodeTableWord 64 0b00000000000000_1_010_0111_00000011_10_01_011111_000100_001001_1_011_000001_01 = some (.vmin H k .i64 9 4 31) ∧
    decodeTableWord 64 0b00000000000000_1_010_1000_00000100_10_01_011111_000100_001001_1_011_000001_01 = some (.vmax H k .n8 9 4 31) ∧
    decodeTableWord 64 0b00000000000000_1_010_0011_00001000_10_01_011111_000100_001001_1_011_000001_01 = some (.vand H k .b64 9 4 31) ∧
    decodeTableWord 64 0b00000000000000_1_010_0010_00001001_10_01_011111_000100_001001_1_011_000001_01 = some (.vor H k .b32 9 4 31) ∧
    decodeTableWord 64 0b00000000000000_1_010_0001_00001010_10_01_011111_000100_001001_1_011_000001_01 = some (.vxor H k .b16 9 4 31) ∧
    decodeTableWord 64 0b00000000000000_1_010_0000_00001011_10_01_011111_000100_001001_1_011_000001_01 = some (.vandn H k .b8 9 4 31) ∧
    decodeTableWord 64 0b00000000000000_1_010_0000_00001100_10_01_011111_000100_001001_1_011_000001_01 = some (.vshl H k .b8 9 4 31) := by decide

theorem test_decode_M01_b :
    decodeTableWord 64 0b00000000000000_1_010_0011_00001101_10_01_011111_000100_001001_1_011_000001_01 = some (.vshr H k .b64 9 4 31) ∧
    decodeTableWord 64 0b00000000000000_1_010_0100_00001110_10_01_011111_000100_001001_1_011_000001_01 = some (.vsar H k .i8 9 4 31) ∧
    decodeTableWord 64 0b00000000000000_1_010_0101_00000101_10_01_000000_000100_001001_1_011_000001_01 = some (.vabs H k .i16 9 4) ∧
    decodeTableWord 64 0b00000000000000_1_010_0111_00000110_10_01_000000_000100_001001_1_011_000001_01 = some (.vneg H k .i64 9 4) ∧
    decodeTableWord 64 0b00000000000000_1_010_0001_00010000_10_01_000000_000100_001001_1_011_000001_01 = some (.vmov H k .b16 9 4) ∧
    decodeTableWord 64 0b00000000011111_1_010_0010_01001100_10_01_000000_000100_001001_1_011_000001_01 = some (.vshlImmediate H k .b32 9 4 31) ∧
    decodeTableWord 64 0b00000000000111_1_010_0000_01001101_10_01_000000_000100_001001_1_011_000001_01 = some (.vshrImmediate H k .b8 9 4 7) ∧
    decodeTableWord 64 0b00000000100101_1_010_0111_01001110_10_01_000000_000100_001001_1_011_000001_01 = some (.vsarImmediate H k .i64 9 4 37) := by decide

theorem test_decode_M02 :
    decodeTableWord 64 0b00000000000000_1_010_1101_00000000_10_01_000101_000100_001001_1_011_000010_01 = some (.vaddFloat H k .bf16 .rne 9 4 5) ∧
    decodeTableWord 64 0b00000000000000_1_010_1101_01000001_10_01_000101_000100_001001_1_011_000010_01 = some (.vsubFloat H k .bf16 .rtz 9 4 5) ∧
    decodeTableWord 64 0b00000000000000_1_010_1101_10000010_10_01_000101_000100_001001_1_011_000010_01 = some (.vmulFloat H k .bf16 .rup 9 4 5) ∧
    decodeTableWord 64 0b00000000000000_1_010_1101_11000011_10_01_000101_000100_001001_1_011_000010_01 = some (.vfma H k .bf16 .rdn 9 4 5) ∧
    decodeTableWord 64 0b00000000000000_1_010_1101_01000100_10_01_000101_000100_001001_1_011_000010_01 = some (.vfms H k .bf16 .rtz 9 4 5) ∧
    decodeTableWord 64 0b00000000000000_1_010_1101_10001001_10_01_000101_000100_001001_1_011_000010_01 = some (.vdiv H k .bf16 .rup 9 4 5) ∧
    decodeTableWord 64 0b00000000000000_1_010_1100_11001010_10_01_000000_000100_001001_1_011_000010_01 = some (.vsqrt H k .f32 .rdn 9 4) ∧
    decodeTableWord 64 0b00000000000000_1_010_1100_00000101_10_01_000101_000100_001001_1_011_000010_01 = some (.vminFloat H k .f32 9 4 5) ∧
    decodeTableWord 64 0b00000000000000_1_010_1100_00000110_10_01_000101_000100_001001_1_011_000010_01 = some (.vmaxFloat H k .f32 9 4 5) ∧
    decodeTableWord 64 0b00000000000000_1_010_1101_00000111_10_01_000000_000100_001001_1_011_000010_01 = some (.vabsFloat H k .bf16 9 4) ∧
    decodeTableWord 64 0b00000000000000_1_010_1101_00001000_10_01_000000_000100_001001_1_011_000010_01 = some (.vnegFloat H k .bf16 9 4) := by decide

theorem test_decode_M03 :
    decodeTableWord 64 0b00000000000000_0_010_1100_00001010_10_01_011111_000100_000101_1_011_000011_01 = some (.vcmp H 2 .un .f32 5 4 31) ∧
    decodeTableWord 64 0b00000000000000_0_010_1001_00000111_10_01_011111_000100_000101_1_011_000011_01 = some (.vcmp H 2 .leu .n16 5 4 31) ∧
    decodeTableWord 64 0b00000000000000_0_010_0010_00010000_10_01_011111_000100_001001_1_011_000011_01 = some (.vsel H 2 .b32 9 4 31) ∧
    decodeTableWord 64 0b00000000000000_0_000_0000_00100000_10_01_000101_000100_000111_1_011_000011_01 = some (.mand H 7 4 5) ∧
    decodeTableWord 64 0b00000000000000_0_000_0000_00100001_10_01_000101_000100_000111_1_011_000011_01 = some (.mor H 7 4 5) ∧
    decodeTableWord 64 0b00000000000000_0_000_0000_00100010_10_01_000101_000100_000111_1_011_000011_01 = some (.mxor H 7 4 5) ∧
    decodeTableWord 64 0b00000000000000_0_000_0000_00100011_10_01_000000_000100_000111_1_011_000011_01 = some (.mnot H 7 4) ∧
    decodeTableWord 64 0b00000000000000_0_000_0000_00100100_10_01_000000_000100_011111_1_011_000011_01 = some (.mcnt H 31 4) ∧
    decodeTableWord 64 0b00000000000000_0_000_0000_00100101_10_01_000000_000100_011111_1_011_000011_01 = some (.mfirst H 31 4) := by decide

theorem test_decode_M04_M05 :
    decodeTableWord 64 0b00000000001100_1_010_0100_01100000_10_01_000000_000100_001001_1_011_000100_01 = some (.vcvt H k .i8 .f32 .rtz true 9 4) ∧
    decodeTableWord 64 0b00000000001101_1_010_1100_00000000_10_01_000000_000100_001001_1_011_000100_01 = some (.vcvt H k .f32 .bf16 .rne false 9 4) ∧
    decodeTableWord 64 0b00000000001100_1_010_1101_00000001_10_01_000000_000100_001001_1_011_000100_01 = some (.vsplit3 H k 9 4) ∧
    decodeTableWord 64 0b00000000000000_1_010_0000_00000000_10_01_000101_000100_001001_1_011_000101_01 = some (.vperm H k .b8 9 4 5) ∧
    decodeTableWord 64 0b00000000000001_1_010_0010_00000001_10_01_000101_000100_001001_1_011_000101_01 = some (.vzip H k .b32 9 4 5 true) ∧
    decodeTableWord 64 0b00000000000000_1_010_0011_00000010_10_01_000101_000100_001001_1_011_000101_01 = some (.vuzp H k .b64 9 4 5 false) ∧
    decodeTableWord 64 0b00000000000000_1_010_0001_00000011_10_01_000000_000100_001001_1_011_000101_01 = some (.vbcast H k .b16 9 4) ∧
    decodeTableWord 64 0b00000000000000_0_000_0010_00000100_10_01_000101_000100_001001_1_011_000101_01 = some (.vext H .b32 9 4 5) ∧
    decodeTableWord 64 0b00000000000000_0_000_0011_00000101_10_01_000101_000100_001001_1_011_000101_01 = some (.vins H .b64 9 4 5) := by decide

theorem test_decode_M06_M07_a :
    decodeTableWord 64 0b00000000000000_0_010_1100_00000000_10_01_000000_000100_001001_1_011_000110_01 = some (.vredAdd H 2 .f32 9 4) ∧
    decodeTableWord 64 0b00000000000000_1_010_1100_00010000_10_01_000000_000100_001001_1_011_000110_01 = some (.vscanAdd H k .f32 9 4) ∧
    decodeTableWord 64 0b00000000000000_0_010_0100_00000001_10_01_000000_000100_001001_1_011_000110_01 = some (.vredMin H 2 .i8 9 4) ∧
    decodeTableWord 64 0b00000000000000_1_010_0100_00010001_10_01_000000_000100_001001_1_011_000110_01 = some (.vscanMin H k .i8 9 4) ∧
    decodeTableWord 64 0b00000000000000_0_010_1101_00000010_10_01_000000_000100_001001_1_011_000110_01 = some (.vredMax H 2 .bf16 9 4) ∧
    decodeTableWord 64 0b00000000000000_1_010_1101_00010010_10_01_000000_000100_001001_1_011_000110_01 = some (.vscanMax H k .bf16 9 4) ∧
    decodeTableWord 64 0b00000000000000_0_010_0000_00000011_10_01_000000_000100_001001_1_011_000110_01 = some (.vredAnd H 2 .b8 9 4) ∧
    decodeTableWord 64 0b00000000000000_1_010_0000_00010011_10_01_000000_000100_001001_1_011_000110_01 = some (.vscanAnd H k .b8 9 4) ∧
    decodeTableWord 64 0b00000000000000_0_010_0011_00000100_10_01_000000_000100_001001_1_011_000110_01 = some (.vredOr H 2 .b64 9 4) ∧
    decodeTableWord 64 0b00000000000000_1_010_0011_00010100_10_01_000000_000100_001001_1_011_000110_01 = some (.vscanOr H k .b64 9 4) ∧
    decodeTableWord 64 0b00000000000000_0_010_0001_00000101_10_01_000000_000100_001001_1_011_000110_01 = some (.vredXor H 2 .b16 9 4) ∧
    decodeTableWord 64 0b00000000000000_1_010_0001_00010101_10_01_000000_000100_001001_1_011_000110_01 = some (.vscanXor H k .b16 9 4) := by decide

theorem test_decode_M06_M07_b :
    decodeTableWord 64 0b00000000000000_1_010_1100_00000000_10_01_000000_000100_001001_1_011_000111_01 = some (.vexp2 H k .f32 9 4) ∧
    decodeTableWord 64 0b00000000000000_1_010_1100_00000001_10_01_000000_000100_001001_1_011_000111_01 = some (.vlog2 H k .f32 9 4) ∧
    decodeTableWord 64 0b00000000000000_1_010_1100_00000010_10_01_000000_000100_001001_1_011_000111_01 = some (.vrcp H k .f32 9 4) ∧
    decodeTableWord 64 0b00000000000000_1_010_1100_00000011_10_01_000000_000100_001001_1_011_000111_01 = some (.vrsqrt H k .f32 9 4) ∧
    decodeTableWord 64 0b00000000000000_1_010_1100_00000100_10_01_000000_000100_001001_1_011_000111_01 = some (.vsinpi H k .f32 9 4) ∧
    decodeTableWord 64 0b00000000000000_1_010_1100_00000101_10_01_000000_000100_001001_1_011_000111_01 = some (.vcospi H k .f32 9 4) ∧
    decodeTableWord 64 0b00000000000000_1_010_1100_00000110_10_01_000000_000100_001001_1_011_000111_01 = some (.vtanh H k .f32 9 4) := by decide

theorem test_decode_M08 :
    decodeTableWord 64 0b00000000000000_1_010_1111_00000000_10_01_000101_000100_001001_1_011_001000_01 = some (.vdot H k .e5m2 9 4 5) ∧
    decodeTableWord 64 0b00000000101010_1_010_1100_00000001_10_01_000000_011101_001001_1_011_001000_01 = some (.vkeyMort H k .f32 9 29 21) ∧
    decodeTableWord 64 0b00000000000011_1_010_1010_00000001_10_01_000000_000100_001001_1_011_001000_01 = some (.vkeyHilb H k .n32 9 4 1) ∧
    decodeTableWord 64 0b00000000000000_1_010_1101_00000010_10_01_000000_000100_001001_1_011_001000_01 = some (.vclass H k .bf16 9 4) ∧
    decodeTableWord 64 0b00000000000000_1_010_0000_00000011_10_01_000000_000000_001001_1_011_001000_01 = some (.viota H k .b8 9) := by decide

theorem test_decode_M0C_M0D :
    decodeTableWord 64 0b11111111111111_1_010_0000_00000000_10_01_000000_000100_001001_1_011_001100_01 = some (.vld H k .b8 9 4 0x3FFF) ∧
    decodeTableWord 64 0b10000000000000_1_010_0011_00000001_10_01_000101_000100_001001_1_011_001100_01 = some (.vlds H k .b64 9 4 5 0x2000) ∧
    decodeTableWord 64 0b00000000000011_1_010_0010_00000010_10_01_000101_000100_001001_1_011_001100_01 = some (.vgat H k .b32 9 4 5 3) ∧
    decodeTableWord 64 0b00000000000001_1_010_0001_00000011_10_01_000000_000100_001001_1_011_001100_01 = some (.vldb H k .b16 9 4 1) ∧
    decodeTableWord 64 0b11111111111111_0_010_0000_00000000_10_01_000000_000100_001001_1_011_001101_01 = some (.vst H 2 .b8 9 4 0x3FFF) ∧
    decodeTableWord 64 0b10000000000000_0_010_0011_00000001_10_01_000101_000100_001001_1_011_001101_01 = some (.vsts H 2 .b64 9 4 5 0x2000) ∧
    decodeTableWord 64 0b00000000000011_0_010_0010_00000010_10_01_000101_000100_001001_1_011_001101_01 = some (.vsct H 2 .b32 9 4 5 3) := by decide

theorem test_decode_M10_to_M12 :
    decodeTableWord 64 0b00000000010111_0_000_0111_00000000_10_01_000101_000100_001001_1_011_010000_01 = some (.amoAdd H .i64 .ar .dom 9 4 5) ∧
    decodeTableWord 64 0b00000000010111_0_000_0011_00000001_10_01_000101_000100_001001_1_011_010000_01 = some (.amoAnd H .b64 .ar .dom 9 4 5) ∧
    decodeTableWord 64 0b00000000010111_0_000_0010_00000010_10_01_000101_000100_001001_1_011_010000_01 = some (.amoOr H .b32 .ar .dom 9 4 5) ∧
    decodeTableWord 64 0b00000000010111_0_000_0011_00000011_10_01_000101_000100_001001_1_011_010000_01 = some (.amoXor H .b64 .ar .dom 9 4 5) ∧
    decodeTableWord 64 0b00000000010111_0_000_1010_00000100_10_01_000101_000100_001001_1_011_010000_01 = some (.amoMin H .n32 .ar .dom 9 4 5) ∧
    decodeTableWord 64 0b00000000010111_0_000_0110_00000101_10_01_000101_000100_001001_1_011_010000_01 = some (.amoMax H .i32 .ar .dom 9 4 5) ∧
    decodeTableWord 64 0b00000000010111_0_000_0010_00000110_10_01_000101_000100_001001_1_011_010000_01 = some (.amoSwap H .b32 .ar .dom 9 4 5) ∧
    decodeTableWord 64 0b00000000010111_0_000_1100_00000111_10_01_000101_000100_001001_1_011_010000_01 = some (.amoFadd H .f32 .ar .dom 9 4 5) ∧
    decodeTableWord 64 0b00000000000001_0_000_0011_00000000_10_01_000101_000100_001001_1_011_010001_01 = some (.cas H .b64 .acq .core 9 4 5) ∧
    decodeTableWord 64 0b00101000001100_0_000_0000_00000000_10_01_000000_000100_001001_1_011_010010_01 = some (.bfxI64 H 9 4 12 40) ∧
    decodeTableWord 64 0b00101000001100_0_000_0000_00000001_10_01_000000_000100_001001_1_011_010010_01 = some (.bfxN64 H 9 4 12 40) ∧
    decodeTableWord 64 0b00101000001100_0_000_0000_00000010_10_01_000000_000100_001001_1_011_010010_01 = some (.bfi H 9 4 12 40) := by decide

theorem test_decode_M14_M15_a :
    decodeTableWord 64 0b00001111100001_0_000_0000_00000000_10_01_000101_000100_100011_1_011_010100_01 = some (.tld H 3 4 5 33 15) ∧
    decodeTableWord 64 0b00001111100001_0_000_0000_00000001_10_01_000101_000100_100011_1_011_010100_01 = some (.tst H 3 4 5 33 15) ∧
    decodeTableWord 64 0b00001111100001_0_000_0000_00000010_10_01_000101_000100_100011_1_011_010100_01 = some (.tldT2 H 3 4 5 33 15) ∧
    decodeTableWord 64 0b00001111100001_0_000_0000_00000011_10_01_000101_000100_100011_1_011_010100_01 = some (.tstT2 H 3 4 5 33 15) ∧
    decodeTableWord 64 0b00000000000000_0_000_0000_00000000_10_01_000000_000000_100111_1_011_010101_01 = some (.tzero H 7) ∧
    decodeTableWord 64 0b00000000000000_0_000_0000_00000001_10_01_000000_100011_100111_1_011_010101_01 = some (.tmov H 7 3) ∧
    decodeTableWord 64 0b00000001111111_0_000_0000_00000010_10_01_000000_100011_001001_1_011_010101_01 = some (.tr2v H 9 3 63 true) ∧
    decodeTableWord 64 0b00000000111110_0_000_0000_00000011_10_01_000000_001001_100011_1_011_010101_01 = some (.v2tr H 3 9 62 false) ∧
    decodeTableWord 64 0b10000100000101_0_000_0000_00000100_10_01_000000_000000_000000_1_011_010101_01 = some (.tdisc H 0x2105) ∧
    decodeTableWord 64 0b00000000000000_0_000_0000_00000101_10_01_000000_100011_001001_1_011_010101_01 = some (.tstat H 9 (.t 3)) ∧
    decodeTableWord 64 0b00000000000000_0_000_0000_00000101_10_01_000000_101010_001001_1_011_010101_01 = some (.tstat H 9 (.a 2)) ∧
    decodeTableWord 64 0b00000000000000_0_000_0000_00000101_10_01_000000_101100_001001_1_011_010101_01 = some (.tstat H 9 .ws) := by decide

theorem test_decode_M14_M15_b :
    decodeTableWord 64 0b00000000000000_0_000_0000_00000101_10_01_000000_101101_001001_1_011_010101_01 = some (.tstat H 9 .w) := by decide

theorem test_decode_M16_to_M19_a :
    decodeTableWord 64 0b00000000000000_0_000_1110_00000000_10_01_000000_100011_101100_1_011_010110_01 = some (.wld H .e4m3 3) ∧
    decodeTableWord 64 0b00000000000000_0_000_0000_00000001_10_01_000000_000000_000000_1_011_010110_01 = some (.wflip H) ∧
    decodeTableWord 64 0b00000000000000_0_000_0000_00000010_10_01_000000_100011_101100_1_011_010110_01 = some (.wldT2 H 3) ∧
    decodeTableWord 64 0b00000000000000_0_000_0100_00000000_10_01_000000_100011_101010_1_011_010111_01 = some (.tmul H .i8 2 3) ∧
    decodeTableWord 64 0b00000000000000_0_000_0000_00000001_10_01_000000_100000_101010_1_011_010111_01 = some (.tmulT2i8 H 2 false) ∧
    decodeTableWord 64 0b00000000000000_0_000_1101_10000000_10_01_000000_100011_101010_1_011_010111_01 = some (.tmulFlip H .bf16 2 3) ∧
    decodeTableWord 64 0b00000000000000_0_000_0000_10000001_10_01_000000_100100_101010_1_011_010111_01 = some (.tmulFlipT2i8 H 2 true) ∧
    decodeTableWord 64 0b00000000000000_0_000_0000_00000000_10_01_000000_000000_101011_1_011_011000_01 = some (.azero H 3) ∧
    decodeTableWord 64 0b00000000000000_0_000_1100_00000001_10_01_101001_101010_101011_1_011_011000_01 = some (.aaddF32 H 3 2 1) ∧
    decodeTableWord 64 0b00000000000000_0_000_0110_00000001_10_01_101001_101010_101011_1_011_011000_01 = some (.aaddI32 H 3 2 1) ∧
    decodeTableWord 64 0b00000000000000_0_000_1100_00000010_10_01_001001_101010_101011_1_011_011000_01 = some (.ascale H 3 2 9) ∧
    decodeTableWord 64 0b00000000000000_0_000_0110_00000011_10_01_000101_000100_101011_1_011_011000_01 = some (.ald H .i32 3 4 5) := by decide

theorem test_decode_M16_to_M19_b :
    decodeTableWord 64 0b00000000000001_0_000_1000_00000100_10_01_000101_000100_101011_1_011_011000_01 = some (.ast H .n8 true 3 4 5) ∧
    decodeTableWord 64 0b00000000000000_0_000_1111_00000101_10_01_000000_101010_100011_1_011_011000_01 = some (.a2t H .e5m2 false 3 2) ∧
    decodeTableWord 64 0b00000000001111_0_000_0000_00000000_10_01_000101_000100_000000_1_011_011001_01 = some (.roll H 4 5 15) ∧
    decodeTableWord 64 0b00000000101000_0_000_0000_00000001_10_01_000000_000000_001001_1_011_011001_01 = some (.leave H 9 40) ∧
    decodeTableWord 64 0b00000000000000_0_000_0000_00000010_10_01_000000_000000_000000_1_011_011001_01 = some (.leaveRet H) := by decide

theorem test_decode_M1C_M20_a :
    decodeTableWord 64 0b00000000000111_0_000_0000_00000000_10_01_000000_000100_001001_1_011_011100_01 = some (.dcp H 9 4 7) ∧
    decodeTableWord 64 0b00000000000111_0_000_0000_00000001_10_01_000000_000100_000000_1_011_011100_01 = some (.dcpw H 4 7) ∧
    decodeTableWord 64 0b00000000000111_0_000_0000_00000010_10_01_000000_000000_001001_1_011_011100_01 = some (.dcps H 9 7) ∧
    decodeTableWord 64 0b00000000000111_0_000_0000_00000011_10_01_000000_000000_000000_1_011_011100_01 = some (.dcpx H 7) ∧
    decodeTableWord 64 0b10000000000000_0_000_0000_00000000_10_01_000101_000100_001001_1_011_100000_01 = some (.rput H 9 4 5 0x2000) ∧
    decodeTableWord 64 0b00000000000000_0_000_0000_00000001_10_01_000101_000100_001001_1_011_100000_01 = some (.rget H 9 4 5) ∧
    decodeTableWord 64 0b00000000000000_0_000_0111_00000010_10_01_000101_000100_001001_1_011_100000_01 = some (.ratomAdd H .i64 9 4 5) ∧
    decodeTableWord 64 0b00000000000001_0_000_0011_00000010_10_01_000101_000100_001001_1_011_100000_01 = some (.ratomAnd H .b64 9 4 5) ∧
    decodeTableWord 64 0b00000000000010_0_000_0010_00000010_10_01_000101_000100_001001_1_011_100000_01 = some (.ratomOr H .b32 9 4 5) ∧
    decodeTableWord 64 0b00000000000011_0_000_0011_00000010_10_01_000101_000100_001001_1_011_100000_01 = some (.ratomXor H .b64 9 4 5) ∧
    decodeTableWord 64 0b00000000000100_0_000_1010_00000010_10_01_000101_000100_001001_1_011_100000_01 = some (.ratomMin H .n32 9 4 5) ∧
    decodeTableWord 64 0b00000000000101_0_000_0110_00000010_10_01_000101_000100_001001_1_011_100000_01 = some (.ratomMax H .i32 9 4 5) := by decide

theorem test_decode_M1C_M20_b :
    decodeTableWord 64 0b00000000000110_0_000_0010_00000010_10_01_000101_000100_001001_1_011_100000_01 = some (.ratomSwap H .b32 9 4 5) ∧
    decodeTableWord 64 0b00000000000111_0_000_1100_00000010_10_01_000101_000100_001001_1_011_100000_01 = some (.ratomFadd H .f32 9 4 5) ∧
    decodeTableWord 64 0b00000000000000_0_000_0010_00000011_10_01_000101_000100_001001_1_011_100000_01 = some (.rcas H .b32 9 4 5) ∧
    decodeTableWord 64 0b00000000000000_0_000_0000_00000100_10_01_000000_000100_001001_1_011_100000_01 = some (.wcntArr H 9 4) ∧
    decodeTableWord 64 0b00000000000001_0_000_0000_00000100_10_01_000000_000100_001001_1_011_100000_01 = some (.wcntIss H 9 4) ∧
    decodeTableWord 64 0b00000000000010_0_000_0000_00000100_10_01_000000_000100_001001_1_011_100000_01 = some (.wcntDone H 9 4) ∧
    decodeTableWord 64 0b00000000000000_0_000_0000_00000101_10_01_000000_000100_000000_1_011_100000_01 = some (.rfence H 4) := by decide

theorem test_decode_M24_to_M2C_a :
    decodeTableWord 64 0b00000000000000_0_000_0000_00000000_10_01_000000_000100_001001_1_011_100100_01 = some (.rpstat H 9 4) ∧
    decodeTableWord 64 0b00000000000000_0_000_0000_00000001_10_01_000000_000100_000000_1_011_100100_01 = some (.cbar H 4) ∧
    decodeTableWord 64 0b00000000000000_0_000_1100_00000010_10_01_000101_000100_001001_1_011_100100_01 = some (.credAdd H .f32 9 4 5) ∧
    decodeTableWord 64 0b00000000000001_0_000_0110_00000010_10_01_000101_000100_001001_1_011_100100_01 = some (.credMin H .i32 9 4 5) ∧
    decodeTableWord 64 0b00000000000010_0_000_0111_00000010_10_01_000101_000100_001001_1_011_100100_01 = some (.credMax H .i64 9 4 5) ∧
    decodeTableWord 64 0b00000000000000_0_000_0000_00000000_10_01_000000_000100_001001_1_011_101000_01 = some (.cast H 9 4) ∧
    decodeTableWord 64 0b00000000000000_0_000_0000_00000001_10_01_000000_000100_000000_1_011_101000_01 = some (.exit H 4) ∧
    decodeTableWord 64 0b00000000000000_0_000_0000_00000010_10_01_000000_000000_000000_1_011_101000_01 = some (.gong H) ∧
    decodeTableWord 64 0b00000000000000_0_000_0000_00000011_10_01_000101_000100_001001_1_011_101000_01 = some (.post H 9 4 5) ∧
    decodeTableWord 64 0b00000000000000_0_000_0000_00000100_10_01_000000_000000_001001_1_011_101000_01 = some (.take H 9) ∧
    decodeTableWord 64 0b00000000000000_0_000_0000_00000101_10_01_000101_000100_000000_1_011_101000_01 = some (.prio H 4 5) ∧
    decodeTableWord 64 0b00000000000000_0_000_0000_00000000_10_01_000101_000100_001001_1_011_101100_01 = some (.cinv H 9 4 5) := by decide

theorem test_decode_M24_to_M2C_b :
    decodeTableWord 64 0b00000000000000_0_000_0000_00000001_10_01_000101_000100_001001_1_011_101100_01 = some (.cinvRe H 9 4 5) ∧
    decodeTableWord 64 0b00000000000000_0_000_0000_00000010_10_01_000000_000100_001001_1_011_101100_01 = some (.stest H 9 4) ∧
    decodeTableWord 64 0b00000000000111_0_000_0000_00000011_00_00_000101_000100_001001_0_000_101100_01 = some (.thint u 9 4 5 7) ∧
    decodeTableWord 64 0b00000000000000_0_000_0000_00000100_00_00_000000_000100_001001_0_000_101100_01 = some (.step u 9 4) ∧
    decodeTableWord 64 0b00000000000000_0_000_0000_00000101_10_01_000000_000100_000000_1_011_101100_01 = some (.subup H 4) ∧
    decodeTableWord 64 0b00000000000000_0_000_0000_00000110_10_01_000000_000000_001001_1_011_101100_01 = some (.bellqPeal H 9) ∧
    decodeTableWord 64 0b00000000000001_0_000_0000_00000110_10_01_000000_000000_001001_1_011_101100_01 = some (.bellqLen H 9) ∧
    decodeTableWord 64 0b00000000000010_0_000_0000_00000110_10_01_000000_000000_001001_1_011_101100_01 = some (.bellqNext H 9) ∧
    decodeTableWord 64 0b00000000000000_0_000_0000_00000111_10_01_000000_000000_000000_1_011_101100_01 = some (.bellw H) := by decide

theorem test_decode_L01_to_L05_a :
    decodeTableWord 96 0b10001001101010111100110111101111_00000000000000_0_000_0000_00000000_10_01_000000_000000_001001_1_011_000001_11 = some (.li H 9 0x89ABCDEF) ∧
    decodeTableWord 96 0b10001001101010111100110111101111_00000000000000_0_000_0000_00000001_10_01_000000_000000_001001_1_011_000001_11 = some (.lihi H 9 0x89ABCDEF) ∧
    decodeTableWord 96 0b10001001101010111100110111101111_00000000000000_0_000_0000_00000000_10_01_000000_000100_001001_1_011_000010_11 = some (.addLiteral H 9 4 0x89ABCDEF) ∧
    decodeTableWord 96 0b10001001101010111100110111101111_00000000000000_0_000_0000_00000001_10_01_000000_000100_001001_1_011_000010_11 = some (.subLiteral H 9 4 0x89ABCDEF) ∧
    decodeTableWord 96 0b10001001101010111100110111101111_00000000000000_0_000_0000_00000010_10_01_000000_000100_001001_1_011_000010_11 = some (.andLiteral H 9 4 0x89ABCDEF) ∧
    decodeTableWord 96 0b10001001101010111100110111101111_00000000000000_0_000_0000_00000011_10_01_000000_000100_001001_1_011_000010_11 = some (.orLiteral H 9 4 0x89ABCDEF) ∧
    decodeTableWord 96 0b10001001101010111100110111101111_00000000000000_0_000_0000_00000100_10_01_000000_000100_001001_1_011_000010_11 = some (.xorLiteral H 9 4 0x89ABCDEF) ∧
    decodeTableWord 96 0b10001001101010111100110111101111_00000000000000_0_000_0000_00000101_10_01_000000_000100_001001_1_011_000010_11 = some (.andnLiteral H 9 4 0x89ABCDEF) ∧
    decodeTableWord 96 0b10001001101010111100110111101111_00000000000000_0_000_0000_00000110_10_01_000000_000100_001001_1_011_000010_11 = some (.ornLiteral H 9 4 0x89ABCDEF) ∧
    decodeTableWord 96 0b10001001101010111100110111101111_00000000000000_0_000_0000_00000111_10_01_000000_000100_001001_1_011_000010_11 = some (.shlLiteral H 9 4 0x89ABCDEF) ∧
    decodeTableWord 96 0b10001001101010111100110111101111_00000000000000_0_000_0000_00001000_10_01_000000_000100_001001_1_011_000010_11 = some (.shrLiteral H 9 4 0x89ABCDEF) ∧
    decodeTableWord 96 0b10001001101010111100110111101111_00000000000000_0_000_0000_00001001_10_01_000000_000100_001001_1_011_000010_11 = some (.sarLiteral H 9 4 0x89ABCDEF) := by decide

theorem test_decode_L01_to_L05_b :
    decodeTableWord 96 0b10001001101010111100110111101111_00000000000000_0_000_0000_00001010_10_01_000000_000100_001001_1_011_000010_11 = some (.rotLiteral H 9 4 0x89ABCDEF) ∧
    decodeTableWord 96 0b10001001101010111100110111101111_00000000000000_0_000_0000_00001011_10_01_000000_000100_001001_1_011_000010_11 = some (.minI64Literal H 9 4 0x89ABCDEF) ∧
    decodeTableWord 96 0b10001001101010111100110111101111_00000000000000_0_000_0000_00001100_10_01_000000_000100_001001_1_011_000010_11 = some (.maxI64Literal H 9 4 0x89ABCDEF) ∧
    decodeTableWord 96 0b10001001101010111100110111101111_00000000000000_0_000_0000_00001101_10_01_000000_000100_001001_1_011_000010_11 = some (.minN64Literal H 9 4 0x89ABCDEF) ∧
    decodeTableWord 96 0b10001001101010111100110111101111_00000000000000_0_000_0000_00001110_10_01_000000_000100_001001_1_011_000010_11 = some (.maxN64Literal H 9 4 0x89ABCDEF) ∧
    decodeTableWord 96 0b10001001101010111100110111101111_00000000000000_0_000_0000_00001111_10_01_000000_000000_001001_1_011_000010_11 = some (.movLiteral H 9 0x89ABCDEF) ∧
    decodeTableWord 96 0b10001001101010111100110111101111_00000000000000_0_000_0000_00010000_10_01_000000_000100_001001_1_011_000010_11 = some (.mulLiteral H 9 4 0x89ABCDEF) ∧
    decodeTableWord 96 0b10001001101010111100110111101111_00000000000000_0_000_0000_00010001_10_01_000000_000100_001001_1_011_000010_11 = some (.mulhI64Literal H 9 4 0x89ABCDEF) ∧
    decodeTableWord 96 0b10001001101010111100110111101111_00000000000000_0_000_0000_00010010_10_01_000000_000100_001001_1_011_000010_11 = some (.mulhN64Literal H 9 4 0x89ABCDEF) ∧
    decodeTableWord 96 0b10001001101010111100110111101111_00000000000000_0_000_0000_00010011_10_01_000000_000100_001001_1_011_000010_11 = some (.divI64Literal H 9 4 0x89ABCDEF) ∧
    decodeTableWord 96 0b10001001101010111100110111101111_00000000000000_0_000_0000_00010100_10_01_000000_000100_001001_1_011_000010_11 = some (.divN64Literal H 9 4 0x89ABCDEF) ∧
    decodeTableWord 96 0b10001001101010111100110111101111_00000000000000_0_000_0000_00010101_10_01_000000_000100_001001_1_011_000010_11 = some (.remI64Literal H 9 4 0x89ABCDEF) := by decide

theorem test_decode_L01_to_L05_c :
    decodeTableWord 96 0b10001001101010111100110111101111_00000000000000_0_000_0000_00010110_10_01_000000_000100_001001_1_011_000010_11 = some (.remN64Literal H 9 4 0x89ABCDEF) ∧
    decodeTableWord 96 0b10001001101010111100110111101111_00000000000000_0_000_0000_00000010_10_01_000000_000100_000111_1_011_000011_11 = some (.cmpLiteral H .lt 7 4 0x89ABCDEF) ∧
    decodeTableWord 96 0b10001001101010111100110111101111_00000000000000_0_000_0000_00000000_10_01_000000_000000_000000_1_011_000100_11 = some (.brLong H 0x89ABCDEF) ∧
    decodeTableWord 96 0b10001001101010111100110111101111_00000000000000_0_000_0000_00000001_10_01_000000_000000_000000_1_011_000100_11 = some (.callLong H 0x89ABCDEF) ∧
    decodeTableWord 96 0b10001001101010111100110111101111_00000001000111_0_000_1000_00000000_10_01_000101_000100_001001_1_011_000101_11 = some (.ldLong H .n8 (some .set) 3 9 4 5 0x89ABCDEF) ∧
    decodeTableWord 96 0b10001001101010111100110111101111_00000000000010_0_000_0010_00000001_10_01_000101_000100_001001_1_011_000101_11 = some (.stLong H .b32 none 2 9 4 5 0x89ABCDEF) := by decide

theorem test_decode_L08_to_L24_a :
    decodeTableWord 96 0b10001001101010111100110111101111_00000000000000_1_010_0101_10000001_10_01_000000_000100_001001_1_011_001000_11 = some (.vectorBroadcastLiteral H k .subSat .i16 9 4 0x89ABCDEF) ∧
    decodeTableWord 96 0b10001001101010111100110111101111_00000000000000_1_010_1100_11000011_10_01_000000_000100_001001_1_011_001000_11 = some (.vectorBroadcastLiteral H k (.ffma .rdn) .f32 9 4 0x89ABCDEF) ∧
    decodeTableWord 96 0b10001001101010111100110111101111_00000000000000_1_010_0011_00000000_10_01_000000_000100_001001_1_011_001100_11 = some (.vldsLiteral H k .b64 9 4 0x89ABCDEF) ∧
    decodeTableWord 96 0b10001001101010111100110111101111_00000000000000_0_010_0000_00000001_10_01_000000_000100_001001_1_011_001100_11 = some (.vstsLiteral H 2 .b8 9 4 0x89ABCDEF) ∧
    decodeTableWord 96 0b10001001101010111100110111101111_00001000000000_0_000_0000_00000000_10_01_000000_000100_100011_1_011_010100_11 = some (.tldLiteral H 3 4 0 8 0x89ABCDEF) ∧
    decodeTableWord 96 0b10001001101010111100110111101111_00001000000000_0_000_0000_00000001_10_01_000000_000100_100011_1_011_010100_11 = some (.tstLiteral H 3 4 0 8 0x89ABCDEF) ∧
    decodeTableWord 96 0b10001001101010111100110111101111_00001000000000_0_000_0000_00000010_10_01_000000_000100_100011_1_011_010100_11 = some (.tldT2Literal H 3 4 0 8 0x89ABCDEF) ∧
    decodeTableWord 96 0b10001001101010111100110111101111_00001000000000_0_000_0000_00000011_10_01_000000_000100_100011_1_011_010100_11 = some (.tstT2Literal H 3 4 0 8 0x89ABCDEF) ∧
    decodeTableWord 96 0b10001001101010111100110111101111_00000000000000_0_000_0000_00000000_10_01_000000_000100_101100_1_011_010110_11 = some (.wldT2Memory H 4 0x89ABCDEF) ∧
    decodeTableWord 96 0b10001001101010111100110111101111_00000000000000_0_000_0000_00000001_10_01_000000_000100_101100_1_011_010110_11 = some (.wldPip H 4 0x89ABCDEF) ∧
    decodeTableWord 96 0b10001001101010111100110111101111_00000000000111_0_000_0000_00000000_10_01_000000_000100_001001_1_011_011100_11 = some (.dcpLiteral H 9 4 7 0x89ABCDEF) ∧
    decodeTableWord 96 0b10001001101010111100110111101111_00000000000000_0_000_0000_00000000_10_01_000101_000100_001001_1_011_100000_11 = some (.rputLong H 9 4 5 0x89ABCDEF) := by decide

theorem test_decode_L08_to_L24_b :
    decodeTableWord 96 0b10001001101010111100110111101111_00000000000000_0_000_0000_00000000_10_01_000000_000100_001001_1_011_100100_11 = some (.rpart H 9 4 0x89ABCDEF) := by decide

/-! ## States -/

/-- The state after reset with strand 0 as `f` makes it. -/
def with0 (f : Strand → Strand) : State := State.reset.modMe f
/-- A state in which strand 0 runs at S with its pinned page over the first 64 KiB of memory, and `f` applied to it. -/
def pinned (f : Strand → Strand) : State := (State.reset.withFetchWord 32 0x46).modMe f
def isOk {α : Type} : Res α → Bool | .ok _ _ => true | _ => false
def isTrap {α : Type} : Res α → Bool | .trap _ _ => true | _ => false
def isWait {α : Type} : Res α → Bool | .wait _ => true | _ => false
def isError {α β : Type} : Except α β → Bool | .ok _ => false | .error _ => true

/-! ## Concrete states that meet the hypotheses of the statements -/

theorem witness_ArithmeticResults : State.reset.guard u = true ∧ State.reset.guard H = true ∧ (with0 fun t => { t with p := 0xFF }).guard H = false ∧
    (with0 fun t => { t with p := 0xFF }).guard { H with gn := false } = true := by decide
theorem witness_MoveConstantAndBitFieldResults :
    (0 : BitVec 6).toNat + widthOf 0 = 64 ∧ (63 : BitVec 6).toNat + widthOf 1 = 64 ∧ (1 : BitVec 6).toNat + widthOf 0 = 65 ∧
    (63 : BitVec 6).toNat + widthOf 2 = 65 ∧ State.reset.guard u = true := by decide
theorem witness_PredicateResults : (7 : R8) ≠ 0 ∧ Cond.geu ≠ .un ∧ State.reset.guard u = true := by decide

/-- The transfers of strand 0 at pc 8: a taken and an untaken branch, a jump back by 8 to address 0, and register targets. -/
theorem witness_ControlTransfers :
    let s := with0 fun t => ({ t with pc := 8, p := 4 }.setGpr 1 0x1000).setGpr 31 0xFFFFFFFFFFFFFFF8
    let near (o : Int) : Word := BitVec.ofInt 64 (s.me.pc.toNat + 4 * o)
    s.PR 2 = !false ∧ s.PR 1 = false ∧ (near (0x1FFFFE : BitVec 21).toInt).toNat % 4 = 0 ∧
    near (0x1FFFFE : BitVec 21).toInt = 0 ∧ near (0x1FFFFFE : BitVec 25).toInt = 0 ∧ near (0xFFFFFFFE : BitVec 32).toInt = 0 ∧
    s.guard u = true ∧ (s.G 1).toNat % 4 = 0 ∧ s.G 1 ≠ 0xFFFFFFFFFFFFFFFC ∧ (s.G 31).toNat % 4 = 0 ∧ s.G 31 ≠ 0xFFFFFFFFFFFFFFFC := by
  decide
theorem witness_ControlTransfers_misaligned :
    ((with0 (·.setGpr 31 1)).G 31).toNat % 4 ≠ 0 ∧ ((with0 (·.setGpr 31 0xFFFFFFFFFFFFFFFF)).G 31).toNat % 4 ≠ 0 := by decide

theorem witness_TrapEntry :
    ((State.reset.releaseBy 0 .core).acquireBy 0 .core |>.strand 0).xlvl = 0 ∧
    (((with0 fun t => { t with xlvl := 1 }).releaseBy 0 .core).acquireBy 0 .core |>.strand 0).xlvl = 1 ∧
    (((with0 fun t => { t with xlvl := 2 }).releaseBy 0 .core).acquireBy 0 .core |>.strand 0).xlvl = 2 ∧ 0xFF < 256 := by decide
theorem witness_TrapInstructionResults :
    let s := with0 fun t => { t with xlvl := 2, sup := false }
    State.reset.me.drains = [] ∧ (State.reset.drainAll 0).me.drains = [] ∧ State.reset.me.sup = true ∧
    State.reset.me.xlvl = 0 ∧ (with0 fun t => { t with xlvl := 1 }).me.xlvl ≠ 0 ∧ State.reset.me.xprq.getLsbD 0 = false ∧
    (with0 fun t => { t with xprq := 1 }).me.sup = true ∧ s.me.xlvl ≠ 0 := by decide
theorem witness_PrivilegedAtUserTraps : (with0 fun t => { t with sup := false }).me.sup = false := by decide
theorem witness_SystemRegisterResults :
    let s := with0 fun t => { t with sup := false }
    s.me.sup = false ∧ State.reset.me.sup = true ∧ SysReg.mid.number = 4 ∧ SysReg.ttag.number = 0x10 ∧ (SysReg.dci 0).number = 0x80 ∧
    SysReg.rolli.number = 0x91 ∧ SysReg.cseq.number = 0xA0 ∧ SysReg.xvec.number = 0x20 ∧ SysReg.ebind.number = 0x70 ∧ (4095 : Nat) < 4096 := by
  decide

theorem witness_VectorIntegerResults : Ty.n64.isAnyFloat = false ∧ Ty.b8.isAnyFloat = false ∧ Ty.f32.isFloat = true ∧
    Ty.bf16.isFloat = true ∧ State.reset.guard u = true := by decide
theorem witness_VectorFloatResults : Ty.bf16.isFloat = true ∧ State.reset.guard u = true := by decide
theorem witness_VectorCompareAndMaskResults : State.reset.guard u = true ∧ (1 : R8) ≠ 0 ∧ State.reset.MK 1 = 0 ∧
    (with0 (·.setMask 1 (1 <<< 63))).MK 1 = 1 <<< 63 := by decide
theorem witness_VectorConversionResults : State.reset.guard u = true ∧ (29 : R32).val ≤ 29 := by decide
theorem witness_ThreeTermSplit :
    widen .f32 0x7F800001 = .nan ∧ widen .f32 0xFF800000 = .inf true ∧ (widen .f32 0x7F7FFFFF).isFinite = true ∧
    (widen .f32 0x80000000).rat = 0 ∧ (2 : Rat) ^ (-110 : Int) ≤ magnitude (widen .f32 0x08800000).rat ∧
    magnitude (widen .f32 0x087FFFFF).rat < (2 : Rat) ^ (-110 : Int) := by decide +kernel
theorem witness_VectorPermuteAndReductionResults : State.reset.guard u = true ∧ Ty.i8.isAnyFloat = false ∧ Ty.f32.isFloat = true := by
  decide
theorem witness_VectorDotKeySpecialResults : State.reset.guard u = true ∧ Ty.n8.isAnyFloat = false ∧ Ty.n8.bits ≤ 32 ∧
    Ty.e5m2.isAnyFloat = true ∧ Ty.bf16.isFloat = true ∧ (1 : BitVec 5).toNat = 1 ∧ (21 : BitVec 5).toNat ≤ 21 ∧ (29 : R32).val ≤ 29 := by
  decide
theorem witness_ExactArithmetic :
    let A := widen .f32 0x3F800000
    let B := widen .f32 0xBF800000
    A.isFinite = true ∧ B.isFinite = true ∧ A.rat ≠ 0 ∧ B.rat ≠ 0 ∧ A.rat + B.rat = 0 ∧ A.rat - A.rat = 0 ∧ A.neg = false ∧ B.neg = true ∧
    (widen .f32 0x80000000).rat = 0 ∧ (widen .f32 0x80000000).neg = true ∧ widen .e5m2 0x7C = .inf false ∧ widen .e5m2 0xFC = .inf true ∧
    A ≠ .nan ∧ exactMul A B ≠ .nan := by decide +kernel
theorem witness_SelectionOfZerosAndNaNs :
    (widen .bf16 0x8000).isFinite = true ∧ (widen .bf16 0x8000).rat = 0 ∧ (widen .bf16 0x8000).neg = true ∧ (widen .bf16 0).neg = false ∧
    (widen .bf16 0).rat < (widen .bf16 0x3F80).rat ∧ widen .bf16 0x7FC0 = .nan ∧ widen .bf16 0x7F80 ≠ .nan := by decide +kernel
theorem witness_IntegerDivision :
    let s := with0 fun t => (t.setGpr 1 0x8000000000000000).setGpr 2 0xFFFFFFFFFFFFFFFF
    (s.G 1).toInt = -2 ^ 63 ∧ (s.G 2).toInt = -1 ∧ s.G 0 = 0 ∧ s.G 2 ≠ 0 ∧ ¬ ((s.G 2).toInt = -2 ^ 63) := by decide

theorem witness_ReservedWordsTrap :
    let s := State.reset.withFetchWord 32 0
    0x0000000E % 2 = 0 ∧ 0x0000000E / 2 % 64 = 7 ∧ 0x7E / 2 % 64 = 0x3F ∧ 0x4C / 2 % 64 = 0x26 ∧ 0x25 % 4 = 1 ∧ 0x25 / 4 % 64 = 9 ∧
    0xFF % 4 = 3 ∧ 0xFF / 4 % 64 = 63 ∧ 0x805 / 2 ^ 8 % 16 = 8 ∧ 0x430 / 2 % 64 = 0x18 ∧ 0x430 / 2 ^ 7 % 16 = 8 ∧
    s.agenda = [] ∧ s.runs s.cur = true ∧ isOk (fetchInstr s.cur s.me.pc s) = true ∧
    (match decodeKind 0 with | .error _ => true | .ok _ => false) = true := by decide +kernel
theorem witness_StepRunsDecoded :
    let s := pinned id
    let a := pinned fun t => { t with pc := 0x10000 }
    s.agenda = [] ∧ s.runs s.cur = true ∧ (decodeKind 0x46).toOption = some (.inl .nop) ∧
    (match fetchInstr s.cur s.me.pc s with | .ok (n, w) v => decide (n = 4 ∧ w = 0x46) && !v.me.rolling | _ => false) = true ∧
    (match nextInstr s.cur (pinned fun t => { t with rolling := true }) with | .ok _ v => v.me.rolling | _ => false) = true ∧
    rollInstr (pinned fun t => { t with rolling := true }).me.rollStep .nop = some .nop ∧
    isTrap (fetchInstr a.cur a.me.pc a) = true ∧ State.reset.runs 0 = false ∧
    isWait (fetchInstr s.cur s.me.pc { s with bellIn := true }) = true := by decide +kernel
theorem witness_PlacedWordRuns : (decodeKind 0x46).toOption = some (.inl .nop) ∧ lengthOf (0x46 % 256) = 4 ∧
    (decodeKind 0x0028180005109041).isOk = true ∧ lengthOf (0x0028180005109041 % 256) ≠ 4 := by decide +kernel
theorem witness_FalseGuardRetires :
    let h : Hdr := { gp := 3, gn := false, lu := 0, tmp := 0 }
    let l := Instr.li h 9 5
    let m := Instr.stest h 9 4
    l.flaw = none ∧ (match l.fields with | some (.long r) => State.reset.me.pred r.gp == decide (r.gn = 1) | _ => false) = true ∧
    m.flaw = none ∧ (match m.fields with | some (.mid r) => State.reset.me.pred r.gp == decide (r.gn = 1) | _ => false) = true ∧
    State.reset.me.sup = true ∧ (with0 fun t => { t with sup := false }).me.sup = false := by decide

/-! Memory: strand 0 loads and stores at G[1] = 0x100 of its pinned page; G[2] lies outside the page. -/

def ack (addr : Nat) : CohMsg := { agent := 32, addr := addr, key := 0, grain := 512, fmt := 0, etype := 0, mode := 0 }
/-- The instruction of strand 0 has performed a home write of 8 bytes at `a` that answers 7. -/
def performing (a : Nat) (s : State) : State := s.modMe fun t => { t with performed := some { key := 0, addr := a, n := 8, old := 7 } }
def mem1 : State := pinned fun t => (((t.setGpr 1 0x100).setGpr 2 0x20000).setGpr 3 0x101).setGpr 5 7
theorem witness_LoadAndStoreResults :
    let s := mem1
    isOk (memReadAt (s.who s.cur) .core 0x100 8 false 0 s) = true ∧ isTrap (memReadAt (s.who s.cur) .core 0x20000 8 false 0 s) = true ∧
    isWait (memReadAt (s.who s.cur) .core 0x100 8 false 0 { s with bellIn := true }) = true ∧
    isOk (memWriteAt (s.who s.cur) .core 0x100 8 7 false 0 s) = true ∧ isTrap (memWriteAt (s.who s.cur) .core 0x20000 8 7 false 0 s) = true ∧
    isWait (memWriteAt (s.who s.cur) .home 0x100 8 7 true 0 { s with bellIn := true }) = true ∧
    isOk (memReadAt (s.who s.cur) .home 0x100 8 true 0 s) = true ∧ isTrap (memReadAt (s.who s.cur) .home 0x101 8 true 0 s) = true ∧
    s.guard u = true ∧ s.me.performed = none ∧ (performing 0x100 s).me.performed ≠ none ∧ isOk (release .die s) = true ∧ isOk (acquire .die s) = true ∧
    isWait (release .dom { s with acks := [ack 0] }) = true ∧ isOk (awaited { key := 0, addr := 0x100, n := 8, old := 7 } s) = true ∧
    isWait (awaited { key := 0, addr := 0x100, n := 8, old := 7 } { s with acks := [ack 0] }) = true := by decide +kernel
theorem there_of (r : Except (Nat × Nat) Target) (a : Nat) (h : (match r with | .ok (.mem x) => x == a | _ => false) = true) :
    r = .ok (.mem a) := by
  split at h
  · simp only [beq_iff_eq] at h; rw [h]
  · simp at h
theorem witness_PinnedPageResults : PinnedAt mem1 0x100 8 0 0x100 ∧ (mem1.G 1).toNat % 8 = 0 ∧ PinnedAt mem1 (mem1.G 1) 8 0 0x100 ∧
    PinnedAt mem1 0xFFFF 1 0 0xFFFF ∧ mem1.guard u = true :=
  ⟨⟨by decide +kernel, by decide +kernel, by decide +kernel, by decide +kernel, by decide, by decide +kernel,
      fun w => there_of _ _ (by cases w <;> decide +kernel), by decide, by decide +kernel, by decide +kernel, by decide +kernel, by decide +kernel⟩,
    by decide +kernel,
    ⟨by decide +kernel, by decide +kernel, by decide +kernel, by decide +kernel, by decide +kernel, by decide +kernel,
      fun w => there_of _ _ (by cases w <;> decide +kernel), by decide +kernel, by decide +kernel, by decide +kernel, by decide +kernel, by decide +kernel⟩,
    ⟨by decide +kernel, by decide +kernel, by decide +kernel, by decide +kernel, by decide, by decide +kernel,
      fun w => there_of _ _ (by cases w <;> decide +kernel), by decide, by decide +kernel, by decide +kernel, by decide +kernel, by decide +kernel⟩,
    by decide +kernel⟩
theorem witness_AtomicResults :
    let s := mem1
    s.guard u = true ∧ s.me.performed = none ∧ isOk (release .die s) = true ∧ isWait (release .die { s with acks := [ack 0] }) = true ∧
    (performing 0x100 s).me.performed ≠ none ∧ isOk (acquire .die (performing 0x100 s)) = true ∧
    (∃ m ∈ { s with acks := [ack 0] }.acks, m.key = 0 ∧ m.addr < 0x100 + 8 ∧ 0x100 < m.addr + m.grain) ∧ s.acks = [] ∧
    isOk (memAtomic (s.who s.cur) (s.G 1) 8 .die (fun old => some (old + 1)) 0 s) = true ∧
    isTrap (memAtomic (s.who s.cur) (s.G 3) 8 .die (fun _ => none) 0 s) = true ∧
    isWait (memAtomic (s.who s.cur) (s.G 1) 8 .die (fun _ => none) 0 { s with bellIn := true }) = true := by decide +kernel
theorem witness_FenceResults :
    let s := mem1
    let held : State := { s with acks := [ack 0] }
    (s.strand s.cur).drains = [] ∧ (held.releaseBy s.cur .dom).releaseDone s.cur .dom = false ∧ (s.releaseBy s.cur .dom).releaseDone s.cur .dom = true ∧
    isOk (acquire .dom s) = true ∧ isWait (acquire .die (held.setCoreCache 0 { PCache.empty with stamp := 255 })) = true ∧ s.me.flushing = none ∧ s.acquireWaits (coreOf s.cur) .home = none ∧
    (∀ e ∈ s.strands, s.partOf e.1 = some 0 → e.2.drains = []) ∧
    (match s.pieceAD (s.who s.cur) .maintain Align.any (s.G 1).toNat 1 false with
      | .ok (q, v) => !v.bellIn && leafClass q.attr == 0 && !leafSub q.attr && coreOf v.cur == coreOf s.cur && v.acks.isEmpty &&
        (match v.toHome 0 q.nativeTag with | .ok w => w.acks.isEmpty | _ => false)
      | _ => false) = true ∧
    (match s.pieceAD (s.who s.cur) .prefetch Align.any 0x100 128 false with | .ok _ => true | _ => false) = true ∧
    (match s.pieceAD (s.who s.cur) .prefetch Align.any 0x20000 128 false with | .error _ => true | _ => false) = true ∧
    s.partOf s.cur = some 0 ∧ s.me.sup = true ∧ s.bellIn = false ∧ (s.G 3).toNat % 8 ≠ 0 ∧ (s.G 1).toNat % 8 = 0 ∧
    (match memReadAt (s.who s.cur) .home (s.G 1) 8 true 0 s with
      | .ok x _ => BitVec.ofNat 64 x == s.G 0 && BitVec.ofNat 64 x != s.G 5
      | _ => false) = true := by decide +kernel
theorem witness_VectorMemoryResults :
    let s := mem1
    let act := activeOf (s.MK 0) 8
    let at' (b j : Nat) : Word := BitVec.ofNat 64 (b + 8 * j)
    s.guard u = true ∧ act.length = 8 ∧ activeOf (s.MK 1) 8 = [] ∧
    (match checkLanes .load 8 (at' 0x100) act s with
      | .ok _ v => isOk (mapEach (readLane 8 0 (at' 0x100)) act v) | _ => false) = true ∧
    isTrap (checkLanes .load 8 (at' 0xFFE0) act s) = true ∧
    (match checkLanes .store 8 (at' 0x100) act s with
      | .ok _ v => (match forEach (readyLane 8 0 (at' 0x100)) act v with
        | .ok _ v => isOk (forEach (fun j s => memWriteAt ((s.who s.cur).lane j) .core (at' 0x100 j) 8 5 false 0 s) act v) | _ => false)
      | _ => false) = true ∧
    isTrap (forEach (readyLane 1 0 (at' 0x100)) act { s with poison := Tab.set 0 [] (0x100 / 32) 1 }) = true ∧
    isTrap (checkLanes .store 8 (at' 0xFFE0) act s) = true ∧ isOk (readLane 8 0 (at' 0x100) 0 s) = true := by decide +kernel

/-- AES-256 on the example of FIPS 197, appendix C.3, bytes lowest first. -/
theorem test_aes :
    aesEncrypt 0x1f1e1d1c1b1a191817161514131211100f0e0d0c0b0a09080706050403020100 0xffeeddccbbaa99887766554433221100 = 0x8960494b9049fceabf456751cab7a28e ∧
    aesDecrypt 0x1f1e1d1c1b1a191817161514131211100f0e0d0c0b0a09080706050403020100 0x8960494b9049fceabf456751cab7a28e = 0xffeeddccbbaa99887766554433221100 := by decide +kernel

/-! Tiles: strand 0 holds physical tile 5 in t0, w and ws and accumulator 6 in a0; both may drain. -/

def tiles0 (t : Strand) : Strand :=
  (((t.setTile 32 { phys := 5, val := 7, tag := 0, disc := false }).setTile 44 { phys := 8, val := 9, tag := 1, disc := false }).setTile 45
    { phys := 9, val := 9, tag := 0, disc := false }).setAcc 40 { phys := 6, val := 1, disc := false }
def tile1 : State := { mem1.modMe tiles0 with bellPeal := 1 }
def drains1 : State :=
  tile1.modMe fun t => { t with drains := [{ acc := false, phys := 5, rows := [] }, { acc := true, phys := 6, rows := [] },
    { acc := false, phys := 8, rows := [] }] }
/-- A pool that has no physical tile left: the four strands of engine 0 hold eight operand tiles, the planes and four drains each. -/
def fullPool (s : State) (r : DrainRow) : State :=
  (engineKeys 0).foldl (fun s j => s.modStrand j fun t =>
    { t with tiles := (List.range 8).map (fun i => (32 + i, { phys := i + 1, val := 0, tag := 0, disc := false })) ++
               [(44, { phys := 9, val := 0, tag := 0, disc := false }), (45, { phys := 10, val := 0, tag := 0, disc := false })],
             drains := (List.range 4).map fun i => { acc := false, phys := 11 + i, rows := [r] } }) s
/-- A row of 16 bytes of an uncached page, at address `a` of its window of the fast tier. -/
def rowU (a : Nat) : DrainRow := { va := a, pa := a, n := 16, key := 0, attr := 2 ^ 11, data := 0 }
/-- A tile store of t0, or of a0, to an uncached page, which a bell holds. -/
def heldTile : State :=
  { tile1.modMe fun t => { t with drains := [{ acc := false, phys := 5, rows := [rowU 0x100, rowU 0x110] }] } with bellIn := true }
def heldAcc : State :=
  { tile1.modMe fun t => { t with drains := [{ acc := true, phys := 6, rows := [rowU 0x100] }] } with bellIn := true }
/-- Every register is free, or is free once its drains have ended (R261). -/
def ends (s : State) (ks : List Nat) : Bool := !ks.any (s.settled ks).me.draining
/-- The pool has room, or has it once the engine's drains have ended (R258). -/
def fits (s : State) (acc : Bool) : Bool := (s.withRoom acc).poolAdmits (s.withRoom acc).cur acc
theorem witness_TrapInstructionResults_drains :
    tile1.me.drains = [] ∧ ((heldTile.drainAll heldTile.cur).strand heldTile.cur).drains ≠ [] ∧
    ((drains1.drainAll drains1.cur).strand drains1.cur).drains = [] := by decide +kernel
theorem witness_TileLoadStoreAndDrain :
    let s := tile1
    let rows (b : Nat) := mapEach (fun j => readRow rowAlign 16 0 j (BitVec.ofNat 64 (b + 16 * j))) (List.range 2)
    let st (b : Word) := storeRows false 5 16 0 b 16 [1, 2]
    s.guard u = true ∧ 8 * ((0 : BitVec 4).toNat + 1) % 16 ≠ 0 ∧ 8 * ((15 : BitVec 4).toNat + 1) % 16 = 0 ∧
    s.poolAdmits s.cur false = true ∧ fits s false = true ∧ (fullPool s (rowU 0)).poolAdmits s.cur false = false ∧ fits (fullPool s (rowU 0)) false = true ∧
    fits { fullPool s (rowU 0) with bellIn := true } false = false ∧
    isOk (rows 0x100 s) = true ∧ isTrap (rows 0xFFF0 s) = true ∧ isWait (rows 0x100 { s with bellIn := true }) = true ∧
    [32].any s.me.draining = false ∧ [32].any drains1.me.draining = true ∧ ends s [32] = true ∧ ends drains1 [32] = true ∧
    ends heldTile [32] = false ∧ isOk (st 0x100 s) = true ∧ isTrap (st 0xFFF0 s) = true ∧
    isOk (st 0x100 drains1) = true ∧ (drains1.strand 0).drains ≠ [] ∧ (s.strand 0).drains = [] ∧
    parts 0x100 16 = [(0x100, 16)] ∧ (match heldTile.drainPart 0 0 (rowU 0x100) 0 16 with | .error _ => true | .ok _ => false) = true ∧
    (match tile1.drainPart 0 0 (rowU 0x100) 0 16 with | .error _ => false | .ok _ => true) = true ∧
    (s.setStrand 0 { s.me with sup := false }).me.sup = false := by decide +kernel
theorem witness_TileMoveResults :
    let s := tile1
    s.guard u = true ∧ ends s [33] = true ∧ [32].any drains1.me.draining = true ∧ ends drains1 [32] = true ∧ ends heldTile [32] = false ∧
    fits (s.settled [32]) false = true ∧ TileName.field (.t 7) = 39 ∧ TileName.field .w = 45 ∧ TileName.field .ws = 44 := by
  decide +kernel
theorem witness_PlaneResults :
    let s := tile1
    let all (b : Nat) := mapEach (fun j => readRow rowAlign 128 0 j (BitVec.ofNat 64 (b + 128 * j))) (List.range 64)
    let pip (b : Nat) := mapEach (fun j => readPip 0 j (BitVec.ofNat 64 (b + 64 * j))) (List.range 64)
    let v := s.moveCredits 0 4
    s.guard u = true ∧ s.drainAdmits 160 = true ∧ { s with bellIn := true }.drainAdmits 160 = false ∧
    s.leaveGot.contains (.strand 0) = false ∧ (s.leaveQ.any fun r => r.owner == .strand 0) = false ∧ s.leaveGrants s.leaveQ 0 4 = true ∧
    (s.hubSet (lvcAddr 0) 3).leaveGrants [] 0 4 = false ∧ fits v false = true ∧ isOk (all 0x1000 v) = true ∧
    isTrap (all 0xF000 v) = true ∧ isOk (pip 0x1000 v) = true ∧ ends s [44] = true ∧ (s.me.tile 44).phys ≠ 0 ∧
    (mem1.me.tile 44).phys = 0 ∧ [44].any drains1.me.draining = true ∧ ends drains1 [44] = true ∧ fits (s.settled [44]) false = true ∧
    isWait (all 0x1000 { v with bellIn := true }) = true ∧ s.me.inFlight % 2 = 0 ∧
    ({ s.modMe (fun t => { t with inFlight := 1 }) with bellIn := true }.me.inFlight % 2 = 1) ∧
    { s with leaveGot := [.strand 0] }.leaveGot.contains (.strand 0) = true ∧
    pipDecode 0 ≠ none ∧ pipDecode (2 ^ 29 - 1) = none ∧ pipDecode (2 ^ 28 - 1) ≠ none ∧ pipDecode (2 ^ 64) = none := by decide +kernel
theorem witness_AccumulatorResults :
    let s := tile1
    let all (b : Nat) := mapEach (fun j => readRow rowAlign 256 0 j (BitVec.ofNat 64 (b + 256 * j))) (List.range 64)
    s.guard u = true ∧ ends s [40, 41] = true ∧ [40, 41].any drains1.me.draining = true ∧ ends drains1 [40, 41] = true ∧
    ends heldAcc [40] = false ∧ fits s true = true ∧ fits (s.settled [40]) false = true ∧
    isOk (all 0x1000 s) = true ∧ isTrap (all 0xF000 s) = true ∧ isOk (storeRows true 6 64 0 0x1000 64 (List.replicate 64 1) s) = true ∧
    isTrap (storeRows true 6 64 0 0xFF00 64 (List.replicate 64 1) s) = true := by decide +kernel
theorem witness_TmulResults :
    let s := tile1
    let e := engineKey s.cur
    s.guard u = true ∧ s.me.mul = none ∧ (s.me.tile 45).phys ≠ 0 ∧ (s.me.tile 45).tag ≠ 4 ∧ (s.me.tile 45).tag = 0 ∧
    (mem1.me.tile 45).phys = 0 ∧ [40, 45, 32].any drains1.me.draining = true ∧ ends heldTile [40, 45, 32] = false ∧ (∀ j ∈ [40, 45, 32], s.me.draining j = false) ∧
    s.poolAdmits s.cur true = true ∧ (s.me.tile 44).phys ≠ 0 ∧ s.poolAdmits s.cur false = true ∧ s.me.run = .running ∧
    (∀ j ∈ engineKeys s.cur, j ≠ s.cur → (s.strand j).mul = none) ∧ s.bankOn (clusterOf s.cur) = some (bankOf s.cur) ∧
    Tab.get EngineCheck.pass s.engineCheck e = .pass ∧ s.leaveGot.contains (.engine e s.cur) = false ∧ (s.engine e).freeAt ≤ s.clk ∧
    mismatch 0 [0x7FC0] 0x7FC0 (contributions 0 [0x7FC0] 0x7FC0) = none ∧
    24 ≤ ({ s with engines := Tab.set Engine.reset s.engines e { Engine.reset with held := 24 } }.engine e).credits := by decide +kernel
theorem witness_IntegerChecksums : [(0 : Tile)].length = (if 3 = 4 then 4 else 1) ∧ (List.replicate 4 (0 : Tile)).length = (if 4 = 4 then 4 else 1) ∧
    63 < 64 ∧ 0x80000000 % 2 ^ 32 ≠ 0 := by decide

/-- Strand 0 at pc 0 with the instruction `body` behind its `roll`. -/
def rollState (body : Nat) : State :=
  ((State.reset.withFetchWord 32 0x46).writeMem 0 8 8 body).modMe fun t => ((t.setGpr 1 3).setGpr 2 (2 ^ 59 + 2 ^ 36)).setGpr 3 (2 ^ 23) |>.setGpr 4 1
theorem witness_RollAndLeaveResults :
    let s := rollState 0x0002980003081005
    let bad := rollState 0x00800036
    let words (s : State) := rollFetch s.cur 1 0 (s.me.pc + 8) s
    s.guard u = true ∧
    (match words s with | .ok x _ => (x.2.map Prod.snd).all rollAllowed && decide (x.2.length = 1) | _ => false) = true ∧
    (match words bad with | .ok x _ => x.2.length == 1 && !(x.2.map Prod.snd).all rollAllowed | _ => false) = true ∧
    isTrap (words (s.modMe fun t => { t with pc := 0xFFFC })) = true ∧ 2 ^ 23 ≤ (s.G 3).toNat ∧ (s.G 1).toNat < 2 ^ 23 ∧ s.G 0 = 0 ∧
    (s.G 4).toNat % 2 ^ 6 ≠ 0 ∧ (s.G 2).toNat % 2 ^ 6 = 0 ∧ (s.G 2).toNat / 2 ^ 59 ≠ (s.G 2).toNat / 2 ^ 35 % 2 ^ 5 ∧ s.me.rolling = false ∧
    (s.modMe fun t => { t with rolling := true, rollc := 2 ^ 59 + 2 ^ 36 }).me.rollc.toNat / 2 ^ 59 % 2 ^ 5 = 1 ∧
    s.clusterBudget 0 = 40 ∧ s.me.estat.toNat % 2 ^ 8 + (40 : BitVec 6).toNat ≤ s.clusterBudget 0 ∧
    s.clusterBudget 0 < s.me.estat.toNat % 2 ^ 8 + (41 : BitVec 6).toNat ∧ s.leaveGrants s.leaveQ 0 40 = true ∧
    { s with leaveQ := [{ owner := .strand 2, cluster := 0, n := 1, since := 0 }] }.leaveGrants
      [{ owner := .strand 2, cluster := 0, n := 1, since := 0 }] 0 40 = false := by decide +kernel
theorem witness_RollAndLeaveResults_steps :
    let op : MulOp := { mode := 0, d := 40, a := 32, flip := false, kill := false, len := 8, aside := false }
    let s := tile1.modMe fun t => { t with mul := some op }
    let r : LeaveReq := { owner := .strand 2, cluster := 0, n := 1, since := 0 }
    let big : LeaveReq := { owner := .strand 4, cluster := 1, n := 41, since := 0 }
    let at1 (s : State) : State := { s with input := .engine 0 .pass }
    let w : State := { s with engines := Tab.set Engine.reset s.engines 0 { Engine.reset with held := 24 } }
    ((List.range 4).filter fun i => (s.eligible 0 i).isSome) = [0] ∧ ((List.range 4).filter fun i => (mem1.eligible 0 i).isSome) = [] ∧
    w.pick 0 [0] = some 0 ∧ (match w.eligible 0 0 with | some o => decide (modeCredits o.mode ≤ (w.engine 0).credits) | none => false) = true ∧
    (at1 w).input = .engine 0 .pass ∧ ((s.engine 0).lastEnd + 256 ≤ ({ s with clk := 256 } : State).clk) ∧ ¬ (w.engine 0).lastEnd + 256 ≤ w.clk ∧
    ({ s with leaveQ := [big, r] }.leaveQ.filter fun x => !s.withdrawn x) = [big, r] ∧
    s.leaveGrants [] 1 41 = false ∧ s.leaveGrants [big] 0 1 = true ∧ s.leaveGrants [r] 0 1 = false ∧ s.leaveAdmits r.owner = true ∧
    { s with bellIn := true }.leaveAdmits r.owner = false ∧ LeaveOwner.strand 2 ∉ s.leaveGot ∧
    LeaveOwner.strand 2 ∈ { s with leaveGot := [.strand 2] }.leaveGot := by decide +kernel

/-! The copy engine, remote operations and collectives. -/

def xfer0 : Xfer := { head := 0x200, id := 1, key := 0, part := 0, sup := true, ptbase := 0, asn := 0, keys := [] }
/-- A record of 8 bytes from 0x400 to 0x500 at 0x200, its channel as `f` makes it. -/
def copy1 (ctl cnt : Nat) (f : Chan → Chan) : State :=
  ({ mem1 with bellPeal := 1 }.writeMem 0 0x200 64 (ctl + 2 ^ 64 * 0x400 + 2 ^ 128 * 0x500 + 2 ^ 192 * cnt)).modChan 0 f
def rec0 (snap : Option (BitVec 512)) (done : Nat) : CopyRec := { addr := 0x200, snap := snap, done := done, leave := false, xfer := xfer0 }
def cnt8 : Nat := 8 + 2 ^ 24 + 2 ^ 40 + 2 ^ 52
def image (ctl cnt : Nat) : BitVec 512 := BitVec.ofNat 512 (ctl + 2 ^ 64 * 0x400 + 2 ^ 128 * 0x500 + 2 ^ 192 * cnt)
theorem witness_CopyEngineResults :
    let s := copy1 (2 ^ 63) cnt8 id
    let g (x : Word) : State := s.modMe (·.setGpr 1 x)
    let stop : Chan → Chan := fun c => { c with stop := some { cause := 0x10, addr := 0, recAddr := 0x200 }, dci := 3, dcc := 1 }
    s.guard u = true ∧ s.chanBound 0 1 = false ∧ s.chanBound 0 0 = true ∧ (s.chan 0).stop = none ∧
    ((copy1 0 0 stop).chan 0).stop.isSome = true ∧ ((copy1 0 0 stop).chan 0).now = none ∧ 2 ^ 55 ≤ ((g (2 ^ 55)).G 1).toNat ∧
    ((g 0x201).G 1).toNat % 64 ≠ 0 ∧ ((g 0x200).G 1).toNat % 64 = 0 ∧
    16 ≤ ((copy1 0 0 fun c => { c with queue := List.replicate 16 xfer0 }).chan 0).queue.length ∧ (s.chan 0).queue.length < 16 ∧
    (s.drainAll s.cur).me.drains = [] ∧ (s.coreCache 0).anyDirty = false ∧
    ((heldTile.drainAll heldTile.cur).flushCore 0).me.drains ≠ [] ∧ isOk (acquire .clu s) = true ∧
    isWait (acquire .clu ({ s with acks := [ack 0] }.setCoreCache 0 { PCache.empty with stamp := 255 })) = true ∧
    (s.chan 0).dci.toNat < ((g 1).G 1).toNat ∧ ((g 0).G 1).toNat ≤ (s.chan 0).dcc.toNat ∧
    ((copy1 0 0 stop).chan 0).dcc.toNat < 2 ∧ 2 ≤ ((copy1 0 0 stop).chan 0).dci.toNat ∧ (s.chanCancel 0).isOk = true ∧
    ((copy1 0 0 fun c => { c with now := some (rec0 none 0) }).chan 0).now = some (rec0 none 0) ∧
    (({ copy1 0 0 (fun c => { c with now := some { rec0 (some (image (2 ^ 63) cnt8)) 0 with xfer := { xfer0 with sup := false } } }) with bellIn := true } : State).chanCancel 0).isOk = false := by
  decide +kernel
def reads0 (ctl cnt : Nat) : Option Domino :=
  match copyRead xfer0 false 0x200 64 (copy1 ctl cnt id) with
  | .ok (n, _) => some (dominoOf n)
  | .error _ => none
theorem witness_CopyEngineResults_steps :
    let s := copy1 (2 ^ 63) cnt8 fun c => { c with queue := [xfer0] }
    let c := rec0 (some (image (2 ^ 63) cnt8)) 0
    let r := copy1 (2 ^ 63) cnt8 fun ch => { ch with now := some c }
    let far : Xfer := { xfer0 with head := 0x20000 }
    s.chanRuns 0 = true ∧ State.reset.chanRuns 0 = false ∧
    ((reads0 (2 ^ 63) cnt8).bind fun r => r.check true) = none ∧ (reads0 (2 ^ 63) cnt8).map Domino.elements = some 8 ∧
    (reads0 (2 ^ 63) 0).map Domino.elements = some 0 ∧ ((reads0 (2 ^ 63) 0).bind fun r => r.check true) = none ∧
    ((reads0 0 cnt8).bind fun r => r.check true) = some 0x16 ∧ ((reads0 (2 ^ 63 + 64) cnt8).bind fun r => r.check true) = some 0x10 ∧
    (match copyRead far false 0x20000 64 s with | .error (some _, _, _) => true | _ => false) = true ∧
    (match copyRead xfer0 false 0x200 64 { s with bellIn := true } with | .error (none, _, _) => true | _ => false) = true ∧
    r.drainAdmits 80 = true ∧ { r with bellIn := true }.drainAdmits 80 = false ∧ (dominoOf (image (2 ^ 63) cnt8).toNat).elements = 8 ∧
    (match copyChunk c (dominoOf (image (2 ^ 63) cnt8).toNat) r with | .done _ => true | _ => false) = true ∧
    (match copyFinish 0 (rec0 (some (image (2 ^ 63) cnt8)) 8) (dominoOf (image (2 ^ 63) cnt8).toNat) r with
      | .done _ => true | _ => false) = true ∧
    (match copyFinish 0 (rec0 none 8) (dominoOf (image (2 ^ 63 + 2 ^ 61 + 2 ^ 60 + 2 ^ 57) cnt8 ||| 0x100 <<< 384).toNat) { r with bellIn := true } with
      | .held _ => true | _ => false) = true ∧
    (match copyFinish 0 (rec0 none 8) (dominoOf (image (2 ^ 63 + 2 ^ 60) cnt8 ||| 0x20000 <<< 384).toNat) r with
      | .failed _ _ _ => true | _ => false) = true ∧
    isOk (copyAcquire (dominoOf (image (2 ^ 63) cnt8).toNat) 0 r) = true ∧ c.acquired = false ∧ c.leave = false ∧
    (match copyChunk c (dominoOf (image (2 ^ 63) cnt8).toNat) { r with bellIn := true } with | .held _ => true | _ => false) = true ∧
    (match copyChunk c (dominoOf ((2 ^ 63) + 2 ^ 64 * 0x20000 + 2 ^ 128 * 0x500 + 2 ^ 192 * cnt8)) r with | .failed _ _ _ => true | _ => false) = true ∧
    (hubCP + 8 * 255) % 8 = 0 ∧ hubCP + 8 * 255 < hubCP + 2048 ∧ (s.chan 0).idle = false ∧ (s.chan 1).idle = true := by decide +kernel

/-- Module 5 belongs to the domain; window 0 of this module is open over its first 64 KiB with every right. -/
def window0 (f : State → State) : State :=
  f (((((({ mem1 with bellPeal := 1 }.hubSet hubFC 0x20).hubSet (winAddr 0) 0xF000000000000000).hubSet (winAddr 0 + 16) 0x10000).hubSet
    (winAddr 0 + 24) 0).hubSet (winAddr 0 + 32) 0x800).modMe fun t =>
      (((t.setGpr 1 (5 * 2 ^ 55)).setGpr 2 8).setGpr 3 0x100).setGpr 4 (2 ^ 30 + 1))
def req (k : RemoteKind) (off n : Nat) : RemoteReq := { source := 0, window := 0, offset := off, length := n, kind := k, part := 0 }
theorem witness_RemoteResults :
    let s := window0 id
    let checks (va n : Nat) := checkParts (s.who s.cur) .load Align.any (rangeParts (BitVec.ofNat 64 va) n) s
    let gone := s.modMe (·.setGpr 1 (6 * 2 ^ 55))
    let own := s.modMe (·.setGpr 1 0)
    let e : SrcEntry := { mod := 5, win := 0, iss := 2, done := 1, latch := none, last := 0 }
    s.guard u = true ∧ 2 ^ 30 < (s.G 4).toNat ∧ s.inDomain 5 = true ∧ gone.inDomain 6 = false ∧ 6 ≠ gone.ownMid ∧ 0 = own.ownMid ∧
    isOk (checks 0x100 8) = true ∧ isTrap (checks 0xFFFC 8) = true ∧ s.drainAdmits 40 = true ∧
    { s with bellIn := true }.drainAdmits 40 = false ∧
    isOk (memReadAt (s.who s.cur) .cluster (s.G 3) 8 false 0 s) = true ∧ (s.openEntry 0 5 0).isSome = true ∧
    ((s.setSrc 0 (List.replicate 64 e)).openEntry 0 4 0).isNone = true ∧ s.me.remote = none ∧ ((s.modMe (·.setGpr 1 1)).G 1).toNat % 4 ≠ 0 ∧
    isOk (performRemote (req (.atom .add .i64 1) 0 8) own) = true ∧ isWait (performRemote (req .get 0 8) { own with bellIn := true }) = true ∧
    (performing 0x100 own).me.remote = none ∧ { own with acks := [ack 0] }.acks ≠ [] ∧ own.acks = [] ∧ isOk (acquire .die s) = true ∧
    isWait (memReadAt (s.who s.cur) .cluster (s.G 3) 8 false 0 { s with bellIn := true }) = true ∧
    ((s.setSrc 0 [e]).srcEntry 0 5 0) = some e ∧ e.done < e.iss := by decide +kernel
theorem witness_RemoteResults_steps :
    let s := window0 id
    let shut := s.hubSet (winAddr 0) 0
    let bare := s.hubSet (winAddr 0) 0x8000000000000000
    let o : RemoteOp := { id := 3, part := 0, ttag := 0, key := 0, addr := 5 * 2 ^ 55, kind := .get, n := 8, lva := 0x100, ptbase := 0, asn := 0,
                          keys := [], sup := true, counted := true, start := 0, sent := true, leave := false, result := none }
    let v : State := { s with remotes := [o] }
    (s.hubGet (winAddr 0)).getLsbD 63 = true ∧ (shut.hubGet (winAddr 0)).getLsbD 63 = false ∧ (bare.hubGet (winAddr 0)).getLsbD 62 = false ∧
    s.hubFld (winAddr 0 + 16) 0 41 = 0x10000 ∧ 0x10000 < 0xFFFC + 8 ∧ 0xFFF8 + 8 ≤ s.hubFld (winAddr 0 + 16) 0 41 ∧
    isOk (performRemote (req .get 0 8) s) = true ∧ isWait (performRemote (req .get 0 8) { s with bellIn := true }) = true ∧
    (v.remotes.find? fun x => x.id == 3 && x.sent && x.result.isNone) = some o ∧
    isOk (windowWho 0 s) = true ∧ isOk (remoteAccess (req .get 0 8) o.who 0x100 s) = true ∧ isTrap (remoteAccess (req .get 0 8) o.who 0x20000 s) = true ∧
    isWait (hubWrite o.who 0x100 8 5 { v with bellIn := true }) = true ∧
    isOk (hubWrite o.who 0x100 8 5 v) = true ∧ isTrap (hubWrite o.who 0x20000 8 5 v) = true ∧
    ¬ o.start + 1000 * max 1 (v.hubFld (hubFC + 136) 0 32) ≤ v.fabricTime ∧
    o.start + 1000 * max 1 (v.hubFld (hubFC + 136) 0 32) ≤ { v with clk := 10 ^ 9 }.fabricTime := by decide +kernel

/-! Collectives: the group 7 of the tasks (module 0, tag 9) and (module 5, tag 3), its descriptor at 0x400 and a record at 0x600;
strand 0 runs the first. -/

def group (p own : Nat) : List Nat := [7 + 2 ^ 32 * p, 10, 0, own, 5, 3]
def record0 (hi : Nat) : List Nat :=
  [2 ^ 25 + 128 + 40 + 1, 0x400, 0x800, 4, 0, 2 ^ 32 * hi, 16 + 2 ^ 36, 0, 8 + 2 ^ 32 * 10, 0, 0, 0, 0, 0, 0, 0]
def coll1 (g r : List Nat) : State :=
  (({ window0 id with bellPeal := 1, collSeq := 1 }.writeMem 0 0x400 64 (packN 64 g)).writeMem 0 0x600 128 (packN 64 r)).modMe fun t =>
    { (t.setGpr 2 0x400).setGpr 1 0x600 with ttag := 9 }
def coll0 : State := coll1 (group 2 9) (record0 16)
def part1 : CollKind := .part (2 ^ 25 + 128 + 40 + 1) 0 (2 ^ 36) (16 + 2 ^ 36) 10
def member (k : CollKind) : CollJoin :=
  { mid := 5, ttag := 3, gid := 7, count := 0, descriptor := group 2 9, kind := k, value := 1, elements := [], rcap := 0 }
/-- Both members have joined an operation, which `f` then changes. -/
def joined (k : CollKind) (f : Coll → Coll) : State :=
  let l : CollLocal := { coll0.asLocal (group 2 9) k 0x400 with base := 0x800, count := 4, rcap := 8 }
  let s := (coll0.joinColl 0 (member k) none).joinHere (group 2 9) 2 l
  { s with colls := s.colls.map f }
theorem witness_CollectiveResults :
    let s := coll0
    let k := CollKind.red 0 .f32
    let joins (k : CollKind) (s : State) : Res Unit := (readGroup (s.who s.cur) 0 (s.G 2) s).andThen fun g u =>
      (raiseLowest (groupFaults (s.G 2) g u) (s.G 2) u).andThen fun _ u => (collBusy g (s.G 2) u).andThen fun _ u =>
        (release .dom u).andThen fun _ u => .ok () (u.joinHere g 0 (u.asLocal g k (s.G 2)))
    s.guard u = true ∧ s.expireColls = s ∧ s.collAt k (s.G 2) = none ∧ s.bellIn = false ∧ isOk (joins k s) = true ∧
    isTrap (joins k (coll1 (group 2 8) [])) = true ∧ isTrap (joins k (coll1 (group 1025 9) [])) = true ∧
    isTrap (joins k (coll1 (group 0 9) [])) = true ∧
    isWait (joins k { s with bellIn := true }) = true ∧ isTrap (joins .bar (joined k fun c => { c with outcome := none })) = true ∧ isOk (joins .bar (joined k id)) = true ∧
    ((joined k id).collAt k (s.G 2)).isSome = true ∧ ((joined k fun c => { c with outcome := none }).collAt k (s.G 2)).isSome = true ∧
    (joined k id).colls.map (fun c => c.outcome.map CollEnd.status) = [some 0] ∧
    ((joined .bar id).collAt .bar (s.G 2)).isSome = true ∧ (512 / Ty.i64.bits = 8) ∧ (∀ y ∈ [0, 2 ^ 32 - 1], y < 2 ^ Ty.i32.bits) := by
  decide +kernel
theorem witness_CollectiveResults_repartition :
    let s := coll0
    let mineAt (c : Coll) : Bool := c.locals.any fun y => y.addr == 0x400
    isOk (rpartChecks 0x600 s) = true ∧ isTrap (rpartChecks 0x601 s) = true ∧ isTrap (rpartChecks (2 ^ 55) s) = true ∧
    isTrap (rpartChecks 0x600 (coll1 (group 2 9) (record0 0))) = true ∧ s.rpartsOf = 0 ∧
    4 ≤ ({ joined part1 id with colls := ((List.range 4).map fun _ => (joined part1 id).colls).flatten } : State).rpartsOf ∧
    isOk (release .dom s) = true ∧ isWait (release .dom { s with acks := [ack 0] }) = true ∧
    isWait (hubWrite (s.who s.cur) (0x600 + 96) 8 1 { s with bellIn := true }) = true ∧ isTrap (hubWrite (s.who s.cur) 0x20000 8 1 s) = true ∧
    isOk (hubWrite (s.who s.cur) (0x600 + 96) 8 1 (s.releaseBy 0 .dom)) = true ∧ ((joined part1 id).colls.find? mineAt).isSome = true ∧
    s.colls.find? mineAt = none ∧ isOk (memReadAt (s.who s.cur) .home (0x600 + 96) 8 true 0 s) = true := by decide +kernel
theorem witness_CollectiveResults_steps :
    let s := joined part1 id
    let half := coll0.joinColl 0 (member part1) none
    let other := member .bar
    let late := { half with clk := 10 ^ 9 }
    let err := joined part1 fun c => { c with outcome := some { status := 0x20, detail := [], news := [], helds := [], los := [] } }
    let m (c : Coll) : Nat := c.moves.size
    (half.colls.find? fun x => x.takes 0 (member part1)).isNone = true ∧
    (half.colls.find? fun x => x.takes 0 { member part1 with mid := 0, ttag := 9 }).isSome = true ∧ coll0.colls = [] ∧ groupSize (group 2 9) = 2 ∧
    (half.colls.map Coll.id) = [1] ∧ half.collSeq = 2 ∧ half.colls.all (fun c => c.outcome.isNone && c.kind == part1) = true ∧
    (half.colls.find? fun x => x.takes 0 { other with mid := 0, ttag := 9 }).isSome = true ∧ other.kind ≠ part1 ∧
    (err.colls.map fun c => c.outcome.isSome) = [true] ∧
    (half.colls.map fun c => decide (half.fabricTime < c.start + 1000 * 10)) = [true] ∧
    (late.colls.map fun c => decide (c.start + 1000 * 10 ≤ late.fabricTime)) = [true] ∧ (late.colls.all late.collExpired) = true ∧
    (late.expireColls.colls.map fun c => c.outcome.map CollEnd.status) = [some 0x20] ∧ half.expireColls = half ∧
    (s.colls.map fun c => (c.phase, c.outcome.isNone, c.joins.length, c.arrays.isNone, c.moved)) = [(1, true, 2, true, false)] ∧
    s.drainAdmits 40 = true ∧ { s with clk := 59950 }.bellIn = false ∧ { s with clk := 59950 }.drainAdmits 40 = false ∧
    ((joined part1 fun c => { c with arrays := some [(0, [1])] }).colls.map fun c => (c.arrays.isSome, c.moved)) = [(true, false)] ∧
    (s.colls.map fun c => (s.collCredits c c.locals).1) = [true] ∧
    (s.colls.map fun c => ((s.hubSet (lvcAddr 0) 3).collCredits c c.locals).1) = [false] ∧
    (s.colls.map fun c => match readLocals (m c) c.locals s with | .ok (.ok xs) _ => xs.length | _ => 0) = [1] ∧
    (s.colls.map fun c => match readLocals (m c) (c.locals.map fun l => { l with base := 0x20000 }) s with | .ok (.error _) _ => true | _ => false) = [true] ∧
    (s.colls.map fun c => isWait (readLocals (m c) c.locals { s with bellIn := true })) = [true] ∧
    (s.colls.map fun c => match receiveAll c.moves c.within s with | .ok none _ => true | _ => false) = [true] ∧
    (s.colls.map fun c => (s.movesDone c, s.movesDone { c with confirmed := true })) = [(false, true)] ∧
    (err.colls.map fun c => isOk (reportAll 1 c.moves { status := 0x20, detail := [], news := [], helds := [], los := [] } c.locals err)) = [true] := by
  decide +kernel


/-! Tasks and calls: partition 0 holds clusters 0 and 1; cast 0 has the tags 100 to 103; its task 100 runs on strand 0. -/

def caps0 : Tab Cap := Tab.set Cap.none (Tab.set Cap.none [] 0 { kind := 1, rights := 0xFFFF, base := 0, count := 4 }) 1
  { kind := 2, rights := 0xFFFF, base := 100, count := 3 }
def cast0 : Cast :=
  { id := 0, part := 0, packet := 0x800, entry := 0x40, arg := 5, stkb := 0x1000, stksz := 64, nslot := 2, gsz := 1, dmode := 0, prio := 3,
    count := 4, harg := 0, notq := 0, ccnt := 0x400, tagb := 100, mbox := 0, ptbase := 0, asn := 0, keyl := 0,
    keys := List.replicate 16 (some 0), dies := [0], next := [(1, 1)], ended := [0], reported := [], parent := none, caps := caps0 }
def task0 : Task :=
  { id := 0, cast := 0, part := 0, ttag := 100, idx := 0, die := 0, pos := 0, gsz := 1, state := .resident, cluster := 0, prio := 3,
    resume := false, keys := [0], exited := [], saved := [], status := 0, msgs := [], slots := [], caps := caps0, log := [], gongs := [] }
def tasks1 (c : Cast) (l : List Task) (f : Strand → Strand) : State :=
  let s := { mem1 with bellPeal := 1, casts := [c], tasks := l, castSeq := 1, taskSeq := 4 }.hubSet (ptAddr 0 + 8) 3
  ({ s with activeBank := Tab.set 0 s.activeBank 1 1 }.modMe fun t => f { (t.setGpr 1 100) with ttag := 100, gsz := 1 })
def queued (id : Nat) : Task := { task0 with id := id, idx := id, ttag := BitVec.ofNat 64 (100 + id), pos := id, state := .queued, keys := [] }
/-- A packet of 4 tasks of `gsz` strands from `tagb`. -/
def packet1 (gsz tagb : Nat) : Nat :=
  0x40 + 2 ^ 128 * 0x1000 + 2 ^ 192 * (64 + 2 ^ 32 * 2) + 2 ^ 256 * (gsz + 2 ^ 12 * 3) + 2 ^ 320 * 4 + 2 ^ 576 * tagb
theorem witness_ExecutionInstructionResults :
    let s := tasks1 cast0 [task0] id
    let at' (x : Word) := s.modMe (·.setGpr 1 x)
    let k := s.caster
    let fate (p : Nat) (s : State) := (castPacket k 0x900 p s).1
    s.guard u = true ∧ 2 ^ 55 ≤ ((at' (2 ^ 55)).G 1).toNat ∧ ((at' (2 ^ 55 - 1)).G 1).toNat < 2 ^ 55 ∧ ((at' 0x801).G 1).toNat % 128 ≠ 0 ∧
    ((at' 0x800).G 1).toNat % 128 = 0 ∧ isWait (release .dom { s with acks := [ack 0] }) = true ∧
    isOk (release .dom s) = true ∧ isOk (release .dom (s.returnReservation 0)) = true ∧ isOk (memReadAt (s.who s.cur) .home 0x800 128 false 0 s) = true ∧
    isTrap (memReadAt (s.who s.cur) .home 0x10000 128 false 0 s) = true ∧
    fate 0 s = 3 ∧ fate (packet1 17 200) s = 4 ∧ fate (packet1 1 200) { s with casts := List.replicate 64 cast0 } = 1 ∧
    fate (packet1 1 103) s = 2 ∧ fate (packet1 1 104) s = 0 ∧ fate (packet1 16 96) s = 0 ∧
    (s.hubSet (cpAddr 0) 0).boundChans 0 = [] ∧ s.me.ttag ≠ 0 ∧ (¬ s.colls.any fun c => c.locals.any fun y => y.ofTask 0 s.me.ttag) ∧
    (s.releaseBy 0 .dom).taskAt 0 = some task0 ∧ task0.gangOf 0 = some 0 ∧ (pinned id).taskAt 0 = none ∧
    (∃ k ∈ (s.modChan 0 fun c => { c with queue := [xfer0] }).boundChans 0, ((s.modChan 0 fun c => { c with queue := [xfer0] }).chan k).idle = false) ∧
    ((s.hubSet (cpAddr 0) 0x80).boundChans 0).map (fun k => ((s.chan k).idle, (s.chan k).stop.isSome)) = [(true, false)] ∧
    isOk (release .die s) = true ∧ isOk (acquire .die s) = true ∧ isOk (acquire .dom s) = true ∧ (s.releaseBy 0 .die).taskAt 0 = some task0 ∧ s.G 1 = 100 := by decide +kernel
theorem witness_ExecutionInstructionResults_gangs :
    let pair : Task := { task0 with gsz := 2, keys := [0, 1] }
    let s := tasks1 cast0 [pair] id
    let full : Task := { task0 with msgs := List.replicate 8 7 }
    let hit (c : Cast) : Bool := c.part == 0 && decide (c.tagb ≤ 100) && decide (100 < c.tagb + c.count)
    let past (c : Cast) : Bool := c.part == 0 && decide (c.tagb ≤ 104) && decide (104 < c.tagb + c.count)
    let v := tasks1 cast0 [task0] id
    (s.taskAt 0) = some pair ∧ (¬ ∀ i ∈ List.range 2, i ∈ (0 :: pair.exited)) ∧ (∀ i ∈ List.range 2, i ∈ (0 :: { pair with exited := [1] }.exited)) ∧
    (∀ j < 1, Tab.get 0 task0.gongs j + 1 ≤ 1) ∧ s.casts.find? hit = some cast0 ∧ s.casts.find? past = none ∧
    (s.tasks.find? fun t => t.cast == 0 && t.idx == 100 - 100) = some pair ∧ pair.msgs.length < 8 ∧ 8 ≤ full.msgs.length ∧
    ({ task0 with state := .ended } : Task).state = .ended ∧ task0.state = .resident ∧ task0.mailDue = false ∧ task0.live ≠ [] ∧
    ({ task0 with saved := [0] } : Task).live = [] ∧ (s.modMe fun t => { t with posting := true }).me.posting = true ∧
    s.me.posting = false ∧ isOk (postFate 0 100 7 v) = true ∧ ((tasks1 cast0 [full] id).taskAt 0) = some full ∧
    full.msgs = 7 :: List.replicate 7 7 ∧ isOk (memReadAt (v.who v.cur) .home (0x800 + 33) 1 false 0 v) = true ∧
    isOk (memWriteAt (v.who v.cur) .home (0x800 + 33) 1 0x70 false 0 v) = true := by decide +kernel

def call0 (slot opc : Nat) (a b c : Word) : SvcCall :=
  { part := 0, ttag := 100, gidx := 0, slot := slot, seq := 5, opc := opc, arg0 := a, arg1 := b, arg2 := c, ptbase := 0, asn := 0, keyl := 0 }
/-- The memory of the first 64 KiB on die 1. -/
def far1 : State := mem1.hubSet (irdA 0) (BitVec.ofNat 64 (2 ^ 63 + 2 * 2 ^ 57))
def subAt (a : Nat) (s : State) := s.pieceAD (s.who s.cur) .load Align.any a 1 false
theorem witness_SystemInstructionResults :
    let s := tasks1 cast0 [task0] id
    let block (slot a : Word) := blockCheck slot a s
    let called (r : Option Reply) : State := s.modMe fun t => { t with call := some { call := call0 0 1 0 0 8, reply := r } }
    let sub := s.pieceAD (s.who s.cur) .load Align.any 0x100 1 false
    s.guard u = true ∧ s.me.call = none ∧ 256 ≤ (256 : Word).toNat ∧ (255 : Word).toNat < 256 ∧ isOk (block 255 0x400) = true ∧
    isTrap (block 256 0x400) = true ∧ isTrap (block 0 (2 ^ 55)) = true ∧ isTrap (block 0 0x401) = true ∧ isOk (release .dom s) = true ∧ isOk (acquire .dom s) = true ∧
    isWait (memReadAt (s.who s.cur) .home 0x400 32 false 0 { s with bellIn := true }) = true ∧
    isOk (memReadAt (s.who s.cur) .home 0x400 32 false 0 (s.releaseBy 0 .dom)) = true ∧
    isOk (memWriteAt (s.who s.cur) .home 0x420 32 7 false 0 (called (some (.answered 0 0 1 2 3)))) = true ∧
    (called none).me.call.isSome = true ∧ s.me.sup = true ∧ s.partHasCluster 0 1 = true ∧ s.partHasCluster 0 63 = false ∧
    s.hubFld (0xF00000430000 + 8) 63 1 = 0 ∧ (s.hubSet (0xF00000430000 + 8) (2 ^ 63)).hubFld (0xF00000430000 + 8) 63 1 = 1 ∧
    (s.clustersOf 0).filter (fun x => x / 64 == 0) = [0, 1] ∧ ((pinned id).clustersOf 0).filter (fun x => x / 64 == 0) = [0] ∧
    (2 ^ 21 + 1) % 2 ^ 21 ≠ 0 ∧ ¬ (2 ^ 55 < (2 ^ 55 - 2 ^ 21) + 2 ^ 21) ∧ 2 ^ 55 < 2 ^ 55 + 2 ^ 21 ∧
    (s.hintQueue.filter fun r => r.part == 0).length < 256 ∧ sub.isOk = true ∧
    (s.pieceAD (s.who s.cur) .load Align.any 0x10000 1 false).isOk = false ∧
    (match sub with | .ok (p, v) => (v.homeOf p.t == some 0) | .error _ => false) = true ∧
    (match subAt 0x100 far1 with
      | .ok (p, v) => v.homeOf p.t == some 1 && !((v.grainAt p.key p.t 512).nativeOf 0 (v.incOf 0)) && (v.homeWaits p.key p.t 1).isNone &&
          (v.grainError p.key p.t 0 512).isNone
      | .error _ => false) = true ∧
    (match subAt 0x100 { far1 with poison := Tab.set 0 [] 8 1 } with
      | .ok (p, v) => (v.grainError p.key p.t 0 512).isSome
      | .error _ => false) = true ∧ s.me.bellWait = none ∧ s.bellPeal ≤ 1 ∧ 0 < s.bellPeal := by
  decide +kernel

theorem witness_DispatcherSteps :
    let c : Cast := { cast0 with ccnt := 0 }
    let s := tasks1 c [] id
    let t := tasks1 c [queued 0, queued 1] (fun t => { t with run := .free })
    let done : Cast := { cast0 with next := [(4, 4)], ended := [4] }
    let held : Cast := { cast0 with nslot := 1 }
    (s.distribute 0 0).isSome = true ∧ (s.distribute 0 1).isNone = true ∧ (tasks1 held [queued 0] id).heldBack held 0 0 = true ∧
    (s.nextCast 0 0).isSome = true ∧ (s.dealTo 0 0).isSome = true ∧ c.dmode ≠ 2 ∧ s.taskOf c (c.cursor 0).1 = none ∧
    2048 ≤ (List.replicate 2048 (queued 0)).length ∧ ((t.hubSet (svPool 0) 0x8000000000000004).placeHead 0 0).isSome = true ∧ (s.placeHead 0 0).isNone = true ∧
    (headOf (t.queueOf 0 0)).map Task.id = some 0 ∧ (t.positions (queued 0)).isSome = true ∧
    (∀ a ∈ t.tasks, ∀ b ∈ t.tasks, a.id = b.id → a = b) ∧ levelMove [0, 1] (fun c => if c = 0 then 2 else 0) 0 = some (1, 1) ∧
    levelMove [0, 1] (fun c => if c = 0 then 1 else 0) 0 = none ∧
    done.shareOver 0 = true ∧ c.shareOver 0 = false ∧ (tasks1 done [] id).castNo 0 = some done ∧ done.rank 0 = some 0 ∧ 0 ∉ done.reported ∧
    done.ccnt ≠ 0 ∧ c.ccnt = 0 ∧ (∀ d ∈ done.dies, d = 0 ∨ d ∈ done.reported) ∧ done.notq = 0 := by decide +kernel
theorem witness_DispatcherSteps_resume :
    let done : Cast := { cast0 with next := [(4, 4)], ended := [4] }
    let s := tasks1 done [{ queued 0 with state := .swapped }, queued 1] id
    let add (a : Word) (s : State) := hubAtomic done.who a 8 (fun y => some ((y + 4) % 2 ^ 64)) s
    s.task 5 = none ∧ (s.task 1).map Task.state = some .queued ∧ (s.task 0).map Task.state = some .swapped ∧
    (headOf ((s.modTask 0 fun y => { y with resume := true }).queueOf 0 0)).map Task.id = some 0 ∧
    isTrap (add 0x400 s) = true ∧ isWait (add 0x400 { s with bellIn := true }) = true ∧
    (∃ d ∈ ({ done with dies := [0, 1] } : Cast).dies, ¬ (d = 0 ∨ d ∈ done.reported)) := by decide +kernel

theorem witness_ServiceSteps :
    let s := { tasks1 cast0 [task0, queued 1] id with input := .call (call0 0 1 3 8 8) }
    let e : LogEntry := { slot := 0, gidx := 0, seq := 5, res0 := 1, res1 := 2 }
    let cap (n : Nat) := Tab.get Cap.none caps0 n
    s.callTask (call0 0 1 3 8 8) = some task0 ∧ (tasks1 cast0 [] id).callTask (call0 0 1 3 8 8) = none ∧
    ([e].find? fun x => x.gidx == 0 && x.seq == 5) = some e ∧ ([e].find? fun x => x.gidx == 0 && x.seq == 4) = none ∧
    (4 : Word).toNat < e.seq.toNat ∧ (cap 0).base ≤ 3 ∧ 3 < (cap 0).base + (cap 0).count ∧ ¬ 4 < (cap 0).base + (cap 0).count ∧
    (s.hubGet (winAddr 3)).getLsbD 63 = false ∧ ((s.hubSet (winAddr 3) (2 ^ 63)).hubGet (winAddr 3)).getLsbD 63 = true ∧
    (2 ^ 63 : Word).toNat / 2 ^ 56 % 2 ^ 4 = 0 ∧ 3 / 2 ^ 18 = 0 ∧ 2 ^ 18 / 2 ^ 18 ≠ 0 ∧ 2 ^ 40 < 2 ^ 40 + 8 ∧ 7 % 8 ≠ 0 ∧
    (cap 1).base ≤ 102 ∧ ¬ 103 < (cap 1).base + (cap 1).count ∧ s.tagged 0 104 = none ∧ (s.tagged 0 102).isSome = true ∧
    s.taskOf cast0 2 = none ∧ (s.taskOf cast0 0) = some task0 ∧ (s.taskOf cast0 1) = some (queued 1) ∧ (cap 0).count < 3 + 2 ∧
    3 + 1 ≤ (cap 0).count ∧ 255 < 256 ∧ 2 ^ 16 / 2 ^ 16 ≠ 0 ∧
    { s with deferred := [.event .remoteOperationArrival (.remote { req .get 0 8 with window := 3, accepted := true })] }.windowBusy 3 = true ∧ s.windowBusy 3 = false ∧ Tab.get Cap.none caps0 2 = Cap.none ∧ cap 1 ≠ Cap.none := by decide +kernel

def range0 : HintRange :=
  { part := 0, asn := 0, ptbase := 0, keys := List.replicate 16 (some 0), base := 0, len := 2 ^ 22, step := 9, prio := 1 }
def page0 (n : Nat) (p : Option Nat) : PageHint :=
  { part := 0, asn := 0, va := 2 ^ 21 * n, step := n, prio := 0, home := 2 ^ 40 + 2 ^ 21 * n, pool := p, leaf := 0x100, tkey := 0, key := 0 }
/-- A draining row of an uncached page of the first frame, in a bell. -/
def fullDrain (s : State) : State :=
  { s.modMe fun t => { t with drains := [{ acc := false, phys := 5, rows := [rowU 0x100] }] } with bellIn := true }
theorem witness_MigratorSteps :
    let s := (pinned id).hubSet (migAddr 0) 0x8000000000000000
    let pool := ((s.hubSet (migAddr 0 + 8) 1).hubSet (ptAddr 0 + 56) 64).hubSet (irdB 0) 0x400000
    let hinted := { pool with hints := [page0 1 none] }
    let full := { pool with hints := [page0 1 none, page0 2 (some 0)] }
    (s.hubGet (migAddr 0)).getLsbD 63 = true ∧ ((pinned id).hubGet (migAddr 0)).getLsbD 63 = false ∧
    ([range0].find? fun x => x.part == 0) = some range0 ∧ s.hintQueue.find? (fun x => x.part == 0) = none ∧
    (match s.pageHint range0 0 with | .ok (none, _) => true | _ => false) = true ∧ (match { s with bellIn := true }.pageHint range0 0 with | .error _ => true | _ => false) = true ∧
    (hinted.hints.filter fun x => x.part == 0 && x.pool.isNone) = [page0 1 none] ∧
    (hinted.hints.filter fun x => x.part == 0 && x.pool.isSome).length < hinted.poolFrames 0 ∧ hinted.freeFrame 0 = some 0 ∧
    pool.poolFrames 0 ≤ (full.hints.filter fun x => x.part == 0 && x.pool.isSome).length ∧
    (full.migChoice 0).isSome = true ∧ (hinted.migChoice 0).isSome = true ∧
    ([(page0 1 none).move true 0 0].find? fun x => x.part == 0) = some ((page0 1 none).move true 0 0) ∧
    hinted.leafHolds 0x81 (List.replicate 32 0) 0 = false ∧ hinted.leafHolds 0x81 ((List.range 32).map fun i => BitVec.ofNat 64 (0x81 + 2 ^ 16 * i)) 0 = true ∧
    ({ full with moves := [(page0 1 none).move true 0 0] }.hintOf ((page0 1 none).move true 0 0)).isSome = true ∧
    full.drainEvery.drainAside.drainsInto 0 0 = false ∧ ((fullDrain full).drainEvery.drainAside).drainsInto 0 0 = true ∧
    (full.purgeAll (inFrame 0 0)).isOk = true ∧ ¬ (16 ≤ 15) ∧ (0x8000000000000000 : Word).getLsbD 63 = true := by decide +kernel

theorem witness_DirectoryTransitions :
    let n : Ptr := { agent := 1, inc := 0, fmt := 0, etype := 0, mode := 0 }
    let view : Ptr := { agent := 2, inc := 0, fmt := 1, etype := 0, mode := 1 }
    let de : Grain := { Grain.di with owner := some (1, 0) }
    let ds : Grain := { Grain.di with sharers := .ptrs [n] }
    let full := (List.range 8).map fun i => { n with agent := i + 10 }
    Grain.di.owner = none ∧ Grain.di.sharers = .ptrs [] ∧ ds.sharers.empty = false ∧ de.owner = some (1, 0) ∧ de.dirty = false ∧
    ({ de with dirty := true } : Grain).dirty = true ∧ view.native = false ∧ n.native = true ∧ (Grain.di.rdF view).sharers = .ptrs [view] ∧ (∃ q ∈ [n], q.agent = 1) ∧
    ([n].filter fun q => !(q.agent == 2)).length < 8 ∧ 8 ≤ full.length ∧ (0 : Nat) ≠ 1 := by decide

/-! Steps without an encoding. -/

def coh (a grain agent : Nat) : CohMsg := { agent := agent, addr := a, key := 0, grain := grain, fmt := 0, etype := 0, mode := 0 }
/-- The line of 0x200 with a grain of 512 bytes that agent 1 owns; memory is modified there when `dirty`. -/
def owned (ag inc : Nat) (dirty : Bool) : State :=
  let g : Grain := { Grain.di with owner := some (ag, inc), dirty := dirty }
  let s := pinned id
  { s with bellPeal := 1, dir := Tab.set DirEntry.empty s.dir (dirKey 0x200 0) { DirEntry.empty with grain := 512, grains := [g] } }
/-- Agent 9, outside the module, has dirty data of the line; a recall of it by which it stays owner has been sent. -/
def recalled : State := { owned 9 0 true with recalls := [(coh 0x200 512 9, true)] }
/-- A sharer of agent 3 with a native copy, and one with a bf16 copy of f32 words. -/
def shared1 (native : Bool) : State :=
  let p : Ptr := { agent := 3, inc := 0, fmt := if native then 0 else 1, etype := 0, mode := 0 }
  let g : Grain := { Grain.di with sharers := .ptrs [p] }
  let s := pinned id
  { s with bellPeal := 1, dir := Tab.set DirEntry.empty s.dir (dirKey 0x200 0) { DirEntry.empty with grain := 512, grains := [g] } }

theorem witness_CoherenceSteps :
    let s := { pinned id with bellPeal := 1 }
    let m := coh 0x200 512 1
    let far := coh 0x200 512 9
    let t : Target := .mem 0x200
    cohFormed m = true ∧ cohFormed (coh 0x201 32 1) = false ∧ cohFormed (coh 0x200 64 1) = false ∧ cohFormed (coh 0x200 512 40) = false ∧
    isError (s.presentHome 0x200 0 true false) = false ∧ isError (s.presentHome 0x20000 0 false false) = true ∧
    isError (s.presentHome (2 ^ 50) 0 false true) = true ∧ s.bellIn = false ∧ s.scrub 0 t 512 = s ∧
    s.heldAbroad true 0 t 512 = false ∧ (owned 9 0 true).heldAbroad true 0 t 512 = true ∧ (owned 9 0 true).heldAbroad false 0 t 512 = true ∧
    s.homeBusy 0 t 512 = false ∧ { s with acks := [ack 0x200] }.homeBusy 0 t 512 = true ∧ (s.entryWaits t 0).isNone = true ∧
    s.throughOnly 0 0 t 512 512 = false ∧ (shared1 false).throughOnly 0 0 t 512 512 = true ∧ (shared1 true).throughOnly 0 0 t 512 512 = false ∧
    s.othersHold 1 0 t 512 = false ∧ (owned 2 0 false).othersHold 1 0 t 512 = true ∧
    (owned 1 0 false).namedFor m = true ∧ s.namedFor m = false ∧ s.unrecorded t = false ∧ m.agent < 32 ∧ 2 ^ 51 ≤ (coh (2 ^ 51) 512 1).addr ∧
    s.foreign 1 = false ∧ s.foreign 9 = true ∧ (owned 1 0 false).owns m = true ∧ s.owns m = false ∧ (owned 9 0 true).owns far = true ∧
    recalled.staysOwner far = true ∧ recalled.staysOwner m = false ∧ (recalled.answered far).recalls = [] ∧ (recalled.answered m).recalls ≠ [] ∧
    (s.cohReply far .shared 5).cohReplies.map (fun r : CohReply => r.msg.data) = [5] ∧ (s.cohReply m .shared 5).cohReplies = [] ∧
    ({ s with acks := [ack 0x200] }.cohReply far .shared 5).cohOwed.map (fun r : CohReply => r.msg.data) = [5] ∧
    { s with acks := [ack 0x200] }.acks.contains (ack 0x200) = true ∧
    (s.readTarget 0 t 8).isOk = true ∧
    ({ s with poison := Tab.set 0 s.poison 16 1 }.readTarget 0 t 8).isOk = false ∧ 0x204 % 8 ≠ 0 ∧ 0x204 % 4 = 0 ∧ 0x204 / 512 * 512 = m.addr ∧
    (owned 1 0 false).incOf 1 = 0 ∧ (owned 1 7 true).incOf 1 ≠ 7 := by decide +kernel
/-- The transitions of a grain by the table of R126. -/
theorem test_directory :
    let s := { pinned id with bellPeal := 1 }
    let entry (s : State) : List (Option Nat × Bool × List Nat) :=
      (Tab.get DirEntry.empty s.dir (dirKey 0x200 0)).grains.map fun g => (g.owner.map Prod.fst, g.dirty, g.sharers.agents)
    let run (i : Instr) (s : State) (ag : Nat) : State := match exec i { s with input := .coh (coh 0x200 512 ag) } with | .next t => t | _ => s
    entry (run .rds s 1) = [(some 1, false, [])] ∧ entry (run .rds (run .rds s 1) 2) = [(none, false, [1, 2])] ∧
    entry (run .rdo (run .rds s 1) 1) = [(some 1, true, [])] ∧ (run .rds (owned 9 0 true) 2).recalls = [(coh 0x200 512 9, true)] ∧
    (run .rds s 9).cohReplies.map (fun r : CohReply => (r.grant, r.msg.agent)) = [(.exclusive, 9)] := by decide +kernel
def dataLine (n : Nat) (d : Nat) : Line :=
  { tag := { line := n, key := 0, fmt := 0, etype := 0, mode := 0 }, data := 0, valid := 0xFFFF, dirty := BitVec.ofNat 32 d, stamp := 0, ro := false,
    tmp := 0, grain := 512, ttag := 0 }
theorem witness_CoherenceSteps_evictions :
    let s := pinned id
    let full (k n : Nat) (d : Nat) := (List.range n).map fun i => dataLine (1 + k * i) d
    let cl := s.setClusterCache 0 { s.clusterCache 0 with lines := full 2048 16 1 }
    let core := s.setCoreCache 0 { s.coreCache 0 with lines := full 128 8 1 }
    let last := dataLine (1 + 2048 * 15) 1
    (cl.clusterCache 0).lines[15]? = some last ∧ (cl.clusterCache 0).lru 2048 16 last.tag.line = some last ∧
    (cl.clusterCache 0).lines[0]? = some (dataLine 1 1) ∧ (cl.clusterCache 0).lru 2048 16 1 ≠ some (dataLine 1 1) ∧
    ({ cl with bellIn := true }.lineHome 0 (dataLine 1 1)).isOk = false ∧ (cl.lineHome 0 (dataLine 1 1)).isOk = true ∧
    (s.clusterCache 0).lines[0]?.isNone = true ∧ (s.coreCache 0).lines[0]?.isNone = true ∧
    (core.coreCache 0).lru 128 8 1 = some (dataLine (1 + 128 * 7) 1) ∧ (core.coreLineOut 0 (dataLine 1 1)).isOk = true ∧
    (owned 1 5 true).staleIn 0 (.mem 0x200) 512 = true ∧ s.staleIn 0 (.mem 0x200) 512 = false ∧ (owned 1 5 true).incOf 1 ≠ 5 ∧ (owned 1 0 true).incOf 1 = 0 := by
  decide +kernel

/-- IRDnA and IRDnB of region 1 over [0x10000, 0x20000) on die 0, channel 0. -/
def region1 : State := (pinned id).hubSet (irdB 1) 0x20000
def ird1 : Word := 0x8200000000010000
theorem witness_MemorySystemSteps :
    let s := region1
    let u := s.hubSet (irdA 1) (s.hubGet (irdA 1) &&& ~~~0x7E00FFFFFFFF0000 ||| ird1 &&& 0x7E00FFFFFFFF0000)
    let r := regionOfWords (u.hubGet (irdA 1)) (u.hubGet (irdB 1))
    let win := ((((pinned id).hubSet (fwAddr 0) 0x01000011000000001).hubSet (fwAddr 0 + 8) 0x400000000000).hubSet (fwAddr 0 + 16) 0x10000).hubSet
      (fwAddr 0 + 24) 0
    (s.hubGet (irdA 1)).getLsbD 63 = false ∧ ((pinned id).hubGet (irdA 0)).getLsbD 63 = true ∧ u.regionOk 1 r = true ∧
    u.regionOk 1 { r with limit := r.base } = false ∧ ird1.getLsbD 63 = true ∧ (win.hubGet (fwAddr 0)).getLsbD 63 = false ∧
    ((win.hubSetFld (fwAddr 0) 63 1 1).hubGet (fwAddr 0)).getLsbD 63 = true ∧ s.windowOk 0 = false ∧ s.hubFld (fwAddr 0) 61 1 = 0 ∧
    (s.hubSetFld (fwAddr 0) 61 1 1).hubFld (fwAddr 0) 61 1 = 1 ∧ (s.purgeLines fun _ _ => true).isOk = true ∧
    ({ s.setClusterCache 0 { s.clusterCache 0 with lines := [dataLine 1 1] } with bellIn := true }.purgeLines fun _ _ => true).isOk = false ∧ (s.linesWait fun _ _ => true).isNone = true ∧
    ((owned 9 0 true).linesWait fun _ _ => true).isSome = true ∧ s.sliceDrained = [] ∧ s.retiring = none ∧ 4095 < 4096 ∧ Tab.get 0 s.keySpace 7 = 0 ∧
    Tab.get 0 (s.programKey 7).keySpace 7 ≠ 0 ∧ s.slBusy 0 = false ∧ ((s.hubSetFld (slCtl 0) 63 1 1).slBusy 0) = true ∧
    (∃ h < 128, 0x7F / 2 ^ (s.hubFld (slAddr 0 + h / 8 * 8) (8 * (h % 8)) 7 / 16) % 2 = 0) ∧
    (∀ h < 128, 0xFF / 2 ^ (s.hubFld (slAddr 0 + h / 8 * 8) (8 * (h % 8)) 7 / 16) % 2 ≠ 0) ∧ s.dir = [] := by decide +kernel

theorem witness_StrandEventSteps :
    let s := pinned fun t => { t with sup := false }
    let m (x : Word) := s.modMe fun t => { t with xmask := x }
    let late := s.modMe fun t => { t with xprq := 1, xpdl := 5 }
    (s.atPoint 0) = true ∧ s.me.xlvl = 0 ∧ s.me.sup = false ∧ s.me.debugPend = none ∧ s.me.overrun = none ∧
    (m 0x404).me.xmask.getLsbD 10 = true ∧ (m 0x404).me.xmask.getLsbD 2 = true ∧ (m 0x101).me.xmask.getLsbD 8 = true ∧
    (m 0x202).me.xmask.getLsbD 9 = true ∧ (m 0x400).me.xmask.getLsbD 2 = false ∧
    (s.modMe fun t => { t with debugPend := some 1 }).me.debugPend = some 1 ∧
    (s.modMe fun t => { t with overrun := some (7, 1) }).me.overrun = some (7, 1) ∧
    (s.modMe fun t => { t with xctl := 2 }).me.xctl.getLsbD 1 = true ∧ s.time / 2 ^ 10 % 2 ^ 32 = 0 ∧
    (late.me.xprq.getLsbD 0 = true ∧ late.me.xpdl.toNat / 2 ^ 32 = 0) ∧ late.interruptFor 0 = none ∧ (m 0x404).interruptFor 0 ≠ none ∧
    (s.atPoint 1) = false ∧ (s.drainAll 0).releaseDone 0 .core = true ∧ (heldTile.drainAll 0).releaseDone 0 .core = false ∧ s.taskAt 0 = none ∧ (tasks1 cast0 [task0] id).taskAt 0 = some task0 ∧
    (∃ p ∈ task0.live, p.2 = 0) ∧ (¬ ∃ p ∈ task0.live, p.2 = 1) ∧ s.partEnabled 0 = true ∧ s.partHasCluster 0 0 = true ∧
    s.partHasCluster 0 1 = false := by decide +kernel

theorem witness_RegisterWriteSteps :
    let s := pinned id
    (2 ^ 47 - 8 < 2 ^ 47) ∧ (hubWIN + 8 * (32768 * 8 - 1)) % 8 = 0 ∧ (hubAGINC + 8 * 255) % 8 = 0 ∧ (hubMC + 64 * 36) % 8 = 0 ∧
    (s.hubGet (ptAddr 0)).getLsbD 63 = true ∧ (s.hubGet (ptAddr 15)).getLsbD 63 = false ∧ (s.hubGet (svPool 0)).getLsbD 63 = false ∧
    ((s.hubSet (svPool 0) 0x8000000000000004).hubGet (svPool 0)).getLsbD 63 = true ∧ (s.hubGet (migAddr 0)).getLsbD 63 = false ∧
    s.retiring = none ∧ (0x1007 : Word).toNat / 2 ^ 12 % 4 = 1 ∧ (0x2007 : Word).toNat / 2 ^ 12 % 4 = 2 ∧ (0x3007 : Word).toNat / 2 ^ 12 % 4 = 3 ∧
    (s.hubGet (irdA 0)).getLsbD 63 = true ∧ (s.hubGet (irdA 63)).getLsbD 63 = false ∧ (s.hubGet (fwAddr 31)).getLsbD 63 = false ∧
    s.slBusy 3 = false ∧ 168 < 176 ∧ 168 % 16 = 8 ∧ 160 % 16 = 0 := by decide +kernel

def mcEvent (code bank cls : Nat) : McEvent :=
  { code := code, bank := bank, cls := cls, part := 0, unit := 3, addr := some 0x200, key := 0, syn := some 9, kills := none }
theorem witness_BellAndCheckSteps :
    let s := pinned id
    let due := { s with bellPeal := 1, clk := 10 ^ 9 }
    let inB := { s with bellIn := true, bellStart := 24000, bellLen := 1600, bellPeal := 2, clk := 10 ^ 9 }
    let op : RemoteOp := { id := 3, part := 0, ttag := 0, key := 0, addr := 5 * 2 ^ 55, kind := .get, n := 8, lva := 0x100, ptbase := 0, asn := 0,
                           keys := [], sup := true, counted := true, start := 0, sent := false, leave := false, result := none }
    (due.bellIn = false ∧ 24000 * due.bellPeal ≤ due.time) ∧ s.bellPeal % 1024 = 0 ∧ due.bellPeal % 1024 ≠ 0 ∧ 24000 * s.bellPeal ≤ s.time ∧
    inB.bellStart + inB.bellLen ≤ inB.time ∧ (inB.bellLen - 1600) / 1600 = 0 ∧ (1600 * 5 - 1600) / 1600 = 4 ∧ inB.notices = [] ∧ inB.mcHeld = [] ∧
    (s.hubSet (testAddr 7) 0x8000000000000000).hubFld (testAddr 7) 63 1 = 1 ∧ s.hubFld (testAddr 6) 63 1 = 0 ∧
    (∃ o ∈ [op], o.key = 0 ∧ o.sent = false ∧ o.coll = none ∧ o.ttag = (s.strand 0).ttag ∧ o.kind = .get) ∧ (s.modMe fun t => { t with xctl := 1 }).me.xctl.getLsbD 0 = true ∧
    (s.hubSet (mcAddr 36) (2 ^ 63 + 0x400000)).hubFld (mcAddr 36) 16 16 = 0x40 ∧
    ((s.hubSet (sensAddr 4) 0x4000000000000000).hubGet (sensAddr 4)).getLsbD 62 = true ∧ s.hubFld lvmAddr 16 16 = 10240 ∧
    (s.hubSetFld lvmAddr 16 16 4097).hubFld lvmAddr 16 16 = 4097 ∧ (s.hubSetFld (rhlAddr 0) 61 1 1).hubFld (rhlAddr 0) 61 1 = 1 ∧
    s.hubFld (rhlAddr 255) 16 16 = 0 ∧ 7 ∉ s.testing ∧ 1680 ≤ (BitVec.ofNat 16 1680).toInt := by decide +kernel
theorem witness_BellAndCheckSteps_checks :
    let s := pinned id
    let full := s.hubSet (mcAddr 0) (2 ^ 63 + 2 ^ 61)
    classOf402 (mcEvent 0x01 0 0) = 1 ∧ classOf402 (mcEvent 0x04 36 0) = 2 ∧ classOf402 (mcEvent 0x32 36 0) = 3 ∧ (mcEvent 0 37 0).bank = 37 ∧
    classOf402 (mcEvent 0 0 0) = 0 ∧
    (s.hubGet (mcAddr 36)).getLsbD 63 = false ∧ (full.hubGet (mcAddr 0)).getLsbD 63 = true ∧ (full.hubGet (mcAddr 0)).toNat / 2 ^ 60 % 4 = 2 ∧
    (s.hubSetFld (mcAddr 0 + 24) 32 16 1).hubFld (mcAddr 0 + 24) 32 16 = 1 ∧ s.hubFld (mcAddr 0 + 24) 0 32 < 1 ∧
    (s.hubGet (mcqAddr 0)).getLsbD 63 = false ∧ ({ mcEvent 4 0 0 with kills := some 0 } : McEvent).kills = some 0 ∧ (mcEvent 0x11 1 0).kills = none ∧
    (mcEvent 4 0 0).kills = none ∧ s.bankOn (3 / 8) = some 0 ∧ { s with activeBank := Tab.set 0 s.activeBank 0 0 }.bankOn (3 / 8) = none ∧
    s.linesLost (mcEvent 0x11 2 0) = [] ∧
    (s.setClusterCache 0 { s.clusterCache 0 with lines := [dataLine 4 1] }).linesLost (mcEvent 0x11 2 0) = [dataLine 4 1] ∧
    s.checkClass (mcEvent 0x11 2 0) = 1 ∧ s.checkClass (mcEvent 0x11 3 0) = 2 ∧ s.checkClass (mcEvent 0x11 11 0) = 1 ∧
    s.checkClass (mcEvent 0x11 1 0) = 2 ∧ s.checkClass (mcEvent 0x11 3 3) = 3 ∧ inTier 0x200 = true := by decide +kernel

def packet0 : Packet := { src := 0, dst := 5, num := 3, first := 0, flits := 2, relayed := false, last := none }
/-- An admitted module with every destination's fibre in use, at `clk` within the turn. -/
def fabric1 (t c : Nat) : State := { (pinned id).hubSet hubFC (BitVec.allOnes 64) with admitted := true, turn := t, clk := c, outbox := [packet0], relay := [packet0] }
def flit0 (i : Nat) (ok : Bool) : Flit := { source := 5, dst := 0, packet := 3, flits := 2, index := i, crcOk := ok, fibre := 0, wave := 0 }
theorem witness_FabricSteps :
    let s := fabric1 0 200
    let sent : SentFlit := { src := 0, packet := 3, dst := 5, index := 0, fibre := 2, wave := 1, turn := 0, due := 0 }
    let l := { s with sentFlits := [sent] }
    let hit (x : SentFlit) : Bool := x.src == 0 && x.packet == 3 && x.index == 0
    let near (m : Nat) : Packet := { packet0 with dst := m }
    let ex : Exchange := { rotor := 1, sent := 5, seen := 7, peerSent := 6, arrived := 9, closer := true }
    s.outbox.find? (fun y => y.num == 3) = some packet0 ∧ s.relay.find? (fun y => y.src == 0 && y.num == 3) = some packet0 ∧
    (s.bellIn = false ∧ s.admitted = true ∧ 40 ≤ s.time % 1600) ∧ ¬ 40 ≤ (fabric1 0 0).time % 1600 ∧
    s.rotorTo 5 0 = some 1 ∧ s.turnFits 1 2 = true ∧ s.turnFits 1 20000 = false ∧ s.rotorTo 6 0 = none ∧ (s.rotorTo 6 1).isSome = true ∧
    s.rotorTo 8 0 = none ∧ s.rotorTo 8 1 = none ∧ (s.intermediate (near 8)).isSome = true ∧
    (s.intermediate (near 8)).map (fun x => s.relayRoom x.2 (near 8)) = some true ∧
    (s.intermediate (near 8)).map (fun x => { s with relayUsed := [(x.2, 9, 1820)] }.relayRoom x.2 (near 8)) = some false ∧
    l.sentFlits.find? hit = some sent ∧ s.sentFlits.find? hit = none ∧ ((l.wavesOf 2).filter fun w => w != 1) ≠ [] ∧
    l.time / 1600 = sent.turn ∧ l.turnFits 2 1 = true ∧ l.fibreUp 2 = true ∧ l.waveUp 2 1 = true ∧
    { l with clk := 5000 }.time / 1600 ≠ sent.turn ∧ sent.due < { l with clk := 5000 }.time / 1600 ∧ (0 = s.ownMid) ∧ (flit0 0 true).dst = s.ownMid ∧
    (flit0 1 false).crcOk = false ∧ (5, 3, 0) ∉ s.received ∧ s.shareOpen 5 = true ∧
    { s with relay := [{ packet0 with src := 5, flits := 1820 }] }.shareOpen 5 = false ∧
    s.time / 1600 ≤ s.turn ∧ 0 < (fabric1 0 (10 ^ 6)).time / 1600 ∧ s.role ≠ .leader ∧ s.exchanges 0 [ex] = [ex] := by
  decide +kernel
theorem witness_DomainSteps :
    let s := { pinned id with manifest := [(0, 0), (7, 5), (9, 6)] }
    let tab : TableSet := { seq := 4, fdmap := [0x20], fcset := [], mid := 0, time := 0 }
    (s.role = .follower ∧ (∃ e ∈ s.manifest, e.1 = s.serial) ∧ s.lastBeat = none) ∧ (∀ e ∈ (pinned id).manifest, e.1 ≠ s.serial) ∧
    { s with lastBeat := some 0 }.turn / 4 < 0 + 4 ∧ ({ s with role := .waiting 1 }.role = .waiting 1 ∧ s.turn / 4 < 1) ∧ s.turn / 4 ≤ 0 ∧
    ¬ (0 + 4 ≤ s.turn / 4) ∧ 0 + 4 ≤ { s with turn := 16 }.turn / 4 ∧ (∃ e ∈ s.manifest, e.1 = 7) ∧ s.term < 1 ∧ s.acked = none ∧
    8 ∉ [0, 7] ∧ s.tableSeq < tab.seq ∧ ¬ s.tableSeq < 0 ∧ s.manifest.length < 2 * 2 ∧ 2 * 1 ≤ s.manifest.length ∧
    (∀ e ∈ s.manifest, e.1 ≠ 8) ∧ s.agenda = [] ∧ { s with agenda := [.event .claimReceive (.claim 2 7 true 3)] }.claimBefore 1 0 3 = true ∧
    { s with agenda := [.event .claimReceive (.claim 2 7 true 2)] }.claimBefore 1 0 3 = false ∧
    { s with agenda := [.event .claimReceive (.claim 1 7 true 3)] }.claimBefore 1 7 3 = false ∧ s.manifestMid = some 0 ∧
    { s with tablesDue := [tab] }.tablesDue ≠ [] ∧ (s.applyTables { tab with fcset := [2 ^ 63], fdmap := [1] }).admitted = true ∧
    (s.applyTables tab).admitted = false ∧ { s with role := .claimant 0 [0] }.role = .claimant 0 [0] := by decide +kernel

/-- An image of a kind in slot 0 or 1, under the key 1, its body one byte, its digest that body's. -/
def image0 (kind slot seq : Nat) : BootImage :=
  { offset := slot * 2 ^ 26, kind := kind, seq := seq, len := 1, pk := 1, digest := shake256 [7], sig := 5, body := [7], entries := [(0, 0)] }
/-- A module whose fuses hold the digest of the key 1, with two images of hub firmware in its flash. -/
def flashed : State := { State.reset with fusedDigest := shake256 (bytesLow 64 1), flash := [image0 1 0 2, image0 1 1 3], heldReset := true }
/-- SHAKE256 of the empty message (FIPS 202's published output, first 16 bytes). -/
theorem test_shake : shake256 [] % 2 ^ 128 = 0x24EB3E74EB3F3B23138DA80B2BDDB946 := by decide +kernel
/-- Whatever the signatures verify to: an image of a kind is loaded where its own does. -/
theorem witness_BootAndResetSteps_images (h : Config.slhDsaVerifies 1 128 (imageHeader (image0 1 1 3)) 5 = true) :
    flashed.imageValid (image0 1 1 3) = true ∧ flashed.imageOf [image0 1 1 3] 1 = some (image0 1 1 3) := by
  have v : flashed.imageValid (image0 1 1 3) = true := by
    have e : (shake256 (bytesLow 64 1) == flashed.fusedDigest) = true := by decide +kernel
    have f : (shake256 (image0 1 1 3).body == (image0 1 1 3).digest && decide (Tab.get 0 flashed.minSeq (image0 1 1 3).kind ≤ (image0 1 1 3).seq)
      && decide ((image0 1 1 3).len ≤ 48 * 2 ^ 20) && (image0 1 1 3).body.length == (image0 1 1 3).len
      && decide ((image0 1 1 3).seq < 2 ^ 32)) = true := by decide +kernel
    change (shake256 (bytesLow 64 1) == flashed.fusedDigest && Config.slhDsaVerifies 1 128 (imageHeader (image0 1 1 3)) 5 && _ && _ && _ && _ && _) = true
    rw [e, h]; exact f
  refine ⟨v, ?_⟩
  have e0 : (image0 1 1 3).kind = 1 := rfl
  have e1 : imageSlot (image0 1 1 3) = 1 := rfl
  simp [State.imageOf, e0, e1, v]
theorem witness_BootAndResetSteps :
    let s := flashed
    let at' (k : Nat) : State := s.hubSetFld hubBOOT 0 3 k
    (State.reset.imageOf [] 1).isNone = true ∧ (s.imageOf s.flash 2).isNone = true ∧ s.loaded = [] ∧ s.hubFld hubBOOT 0 3 + 1 = 1 ∧
    s.hubFld hubBOOT 8 4 = 0 ∧ (s.hubSetFld hubBOOT 8 1 1).hubFld hubBOOT 8 4 ≠ 0 ∧ (at' 1).hubFld hubBOOT 0 3 + 1 = 2 ∧
    (at' 2).hubFld hubBOOT 0 3 + 1 = 3 ∧ (at' 3).hubFld hubBOOT 0 3 + 1 = 4 ∧ (at' 4).hubFld hubBOOT 0 3 + 1 = 5 ∧
    (∃ i ∈ { s with loaded := [image0 4 0 2] }.loaded, i.kind = 4) ∧ s.starting = [] ∧ s.agenda = [] ∧
    (∃ i ∈ { s with loaded := [image0 1 0 2] }.loaded, i.kind = 1) ∧ (∀ n, n < 64 → State.reset.region n = none) ∧
    ((pinned id).region 0).isSome = true := by decide +kernel
def dieReset : State := (pinned id).hubSetFld (drstAddr 0) 62 1 1
theorem witness_BootAndResetSteps_partitions :
    let s := pinned id
    let off := s.hubSetFld (ptAddr 0) 63 1 0
    let clash := (off.hubSet (ptAddr 1) 0x8000000000000000).hubSet (ptAddr 1 + 8) 1
    (s.hubGet (ptAddr 0)).getLsbD 63 = true ∧ (off.hubGet (ptAddr 0)).getLsbD 63 = false ∧ off.partOk 0 = true ∧ clash.partOk 0 = false ∧
    (off.physRead 0 (off.hubFld (ptAddr 0) 6 46 * 64) 64).isOk = true ∧
    (match (off.hubSetFld (ptAddr 0) 6 46 (2 ^ 20)).physRead 0 (2 ^ 26) 64 with | .error _ => true | .ok _ => false) = true ∧
    off.physWaits 0 (parts 0 64) = none ∧ s.starting = [] ∧ (s.disablePart 0).isOk = true ∧
    (s.quiesce 0).isOk = true ∧ (s.quiesce 3).isOk = true ∧ isError (dieReset.writeBackDie 0) = false ∧ { dieReset with fenced := [0] }.dieInReset 0 = true ∧
    dieReset.incNamed 0 1 = false ∧
    dieReset.bellIn = false ∧ dieReset.dieInReset 0 = false ∧
    s.selfIdx = 0 ∧ s.incNamed 5 1 = false ∧ (owned 5 1 false).incNamed 5 1 = true ∧
    s.drstBusy 3 = false ∧ (s.hubSetFld (drstAddr 0) 62 1 1).drstBusy 0 = true ∧ s.dieInReset 0 = false ∧
    s.incNamed 1 1 = false ∧ (owned 1 1 false).incNamed 1 1 = true := by decide +kernel
theorem witness_AttestationHostAndDebugSteps :
    let s := { pinned id with hostLink := some (16, 32) }
    let shared := (s.hubSet hubHOST 0x8000000000000000).hubSet (hubHOST + 8) 1
    (s.hostLink.isSome = true ∧ s.bellIn = false) ∧ State.reset.hostLink = none ∧ s.hostRange 0x100 = none ∧
    shared.hostRange 0x100 = some (0, 0) ∧ (shared.hostPresent 0 0 0x100 false).isOk = true ∧
    (match shared.hostPresent 0 0 0x20000 false with | .ok _ => false | .error _ => true) = true ∧
    (shared.readTarget 0 (.mem 0x100) 1).isOk = true ∧ shared.hostWaits true 0 8 (.mem 0x100) = none ∧ ({ shared with acks := [ack 0] }.hostWaits true 0 8 (.mem 0x100)).isSome = true ∧
    shared.unrecorded (.mem 0x100) = false ∧ (16, 64) ∈ [(16, 32), (16, 64)] ∧
    ({ s with debugToken := some 0 }.debugToken = some 0 ∧ s.partOf 0 = some 0) ∧ s.debugToken = none ∧ (15 : Nat) < 16 := by decide +kernel
theorem witness_StepKeepsMemoryCanonical :
    Memory.wf (pinned id).mem = true ∧ (match step (pinned id) with | .next _ => true | _ => false) = true := by decide +kernel

/-! More states that meet hypotheses of the statements. -/

theorem witness_RollAndLeaveResults_aside :
    let op : MulOp := { mode := 0, d := 40, a := 32, flip := false, kill := false, len := 8, aside := false }
    let s := { tile1.modMe fun t => { t with mul := some op } with input := .engine 0 .pass }
    let tight := s.hubSet (lvcAddr 0) 3
    let r : LeaveReq := { owner := .strand 2, cluster := 0, n := 1, since := 0 }
    let old : State := { s with engines := Tab.set Engine.reset s.engines 0 { Engine.reset with passes := [0, 16, 16, 0] } }
    (s.engine 0).freeAt ≤ s.clk ∧ s.eligible 0 0 = some op ∧ s.pick 0 [0] = some 0 ∧ (s.engine 0).credits < modeCredits op.mode ∧
    (s.strand (engineStrand 0 0)).estat.toNat % 2 ^ 8 = s.lentBy (engineStrand 0 0) ∧ s.leaveGot.contains (.engine 0 (engineStrand 0 0)) = false ∧
    (s.leaveQ.any fun r => r.owner == .engine 0 (engineStrand 0 0)) = false ∧
    tight.leaveNow 0 16 = false ∧ s.leaveNow 0 16 = true ∧ { s with leaveQ := [r] }.leaveNow 3 1 = false ∧
    s.clusterBudget 0 = 40 ∧ tight.clusterBudget 0 < 0 + 4 ∧ old.pick 0 [0, 1, 2] = some 1 ∧ s.pick 0 [1, 2] = some 1 := by decide +kernel

/-- A record of 2^19 elements of one byte. -/
def large1 : BitVec 512 := image (2 ^ 63) (2 ^ 19 + 2 ^ 24 + 2 ^ 40 + 2 ^ 52)
theorem witness_CopyEngineResults_chunks :
    let c := rec0 (some (image (2 ^ 63) cnt8)) 0
    let s := copy1 (2 ^ 63) cnt8 fun ch => { ch with now := some c }
    let big : Domino := dominoOf large1.toNat
    let d : Drain := { acc := false, phys := 5, rows := [rowU 0x100] }
    let put (s : State) := (drainEach (copyPut xfer0) [] [rowU 0x100] s).1
    s.flushHolds none (coreOf 0) true = false ∧
    ({ s with strands := Tab.set Strand.reset s.strands 0 { s.me with flush := [0, 1, 2, 3] } } : State).flushHolds none 0 true = true ∧
    s.asideOf 0 = [] ∧ { s with aside := [(0, s.tagOf 0, d)] }.asideOf 0 ≠ [] ∧
    (({ s with aside := [(0, s.tagOf 0, d)], bellIn := true } : State).drainAside).asideOf 0 ≠ [] ∧
    put s = [] ∧ put { s with bellIn := true } ≠ [] ∧
    (s.chan 0).now.map CopyRec.writes = some none ∧ 256 * 1024 < big.elements * big.wide ∧ 0 < big.elements ∧
    ¬ 256 * 1024 < (dominoOf (image (2 ^ 63) cnt8).toNat).elements * (dominoOf (image (2 ^ 63) cnt8).toNat).wide ∧
    { s with leaveGot := [.channel 0] }.leaveGot.contains (.channel 0) = true ∧ s.leaveGot.contains (.channel 0) = false ∧
    (s.leaveQ.any fun q => q.owner == .channel 0) = false ∧ s.leaveNow 0 4 = true ∧ (s.hubSet (lvcAddr 0) 3).leaveNow 0 4 = false ∧
    isWait (copyAcquire (dominoOf (image (2 ^ 63 + 2 ^ 62 + 3 * 2 ^ 56) cnt8).toNat) 0
      ({ s with acks := [ack 0] }.setClusterCache 0 { PCache.empty with stamp := 255 })) = true := by
  decide +kernel

theorem witness_RemoteResults_windows :
    let s := window0 id
    let o : RemoteOp := { id := 3, part := 0, ttag := 0, key := 0, addr := 5 * 2 ^ 55, kind := .get, n := 8, lva := 0x100, ptbase := 0, asn := 0,
                          keys := [], sup := true, counted := true, start := 0, sent := true, leave := false, result := none }
    let r := req .get 0 8
    (0 ∈ { s with releasing := [0] }.releasing ∧ { r with accepted := true }.accepted = true ∧ r.accepted = false) ∧
    isOk (performRemote { r with accepted := true } { s with releasing := [0] }) = true ∧
    (match performRemote r { s with releasing := [0] } with | .ok (.failed 3 0) _ => true | _ => false) = true ∧
    isTrap (windowWho 0 (s.hubSet (winAddr 0 + 32) 0x20000)) = true ∧ isWait (windowWho 0 { s with acks := [ack 0x800] }) = true ∧
    isWait (remoteAccess r o.who 0x100 { s with bellIn := true }) = true ∧
    (match performRemote (req (.put 5 (some 0x10000)) 0 8) s with | .ok (.failed 10 0) _ => true | _ => false) = true ∧
    { s with acks := [ack 0] }.acks ≠ [] ∧ s.acks = [] ∧ { o with coll := some 1 }.coll = some 1 ∧ o.coll = none ∧ o.silent = false ∧
    { o with counted := false }.counted = false ∧ ((s.modMe fun t => { t with remote := some 3 }).strand 0).remote = some 3 ∧
    (s.hubGet (winAddr 0)).toNat / 2 ^ 56 % 2 ^ 4 = 0 ∧ s.drainAdmits 40 = true ∧ { s with bellIn := true }.drainAdmits 40 = false := by decide +kernel
theorem witness_CollectiveResults_ends :
    let s := joined part1 id
    let part (c : Coll) : Bool := c.kind.isPart && c.phase != 0
    (s.colls.find? fun x => x.id == 1 && x.outcome.isNone).isSome = true ∧ (s.colls.find? fun x => x.id == 2 && x.outcome.isNone) = none ∧
    s.colls.all part = true ∧ (joined part1 fun c => { c with phase := 0 }).colls.all part = false ∧ (joined .bar id).colls.all part = false ∧
    (∀ c ∈ s.colls, groupSize c.descriptor = 2 ∧ c.joins.length = 2 ∧ c.descriptor = (member part1).descriptor) ∧
    (joined part1 fun c => { c with arrays := some [(0, [1])], moved := true }).colls.all (fun c => c.moved && c.arrays.isSome) = true ∧
    (s.colls.map fun c => decide (c.awaited ≤ c.flags)) = [true] ∧ (∀ o ∈ s.remotes, o.coll ≠ some 1) ∧ s.bellIn = false ∧
    groupSize (group 1 9) = 1 := by decide +kernel

theorem witness_ServiceSteps_busy :
    let c := call0 0 1 3 8 8
    let a : Move := .event .remoteOperationArrival (.remote { req .get 0 8 with window := 3, accepted := true })
    let s := { tasks1 cast0 [task0] id with input := .call c }
    let w := s.hubSet (winAddr 3) (2 ^ 63)
    { s with agenda := [a] }.windowBusy 3 = true ∧ { s with deferred := [a] }.windowBusy 3 = true ∧ { s with agenda := [a] }.windowBusy 2 = false ∧
    (w.hubGet (winAddr 3)).getLsbD 63 = true ∧ (w.hubGet (winAddr 3)).toNat / 2 ^ 56 % 2 ^ 4 = c.part ∧
    ((w.hubSet (winAddr 3) (2 ^ 63 + 2 ^ 56)).hubGet (winAddr 3)).toNat / 2 ^ 56 % 2 ^ 4 ≠ c.part ∧
    sameCall c c = true ∧ sameCall { c with seq := 6 } c = false ∧ sameCall { c with gidx := 1 } c = false ∧
    { s with agenda := [.event .taskQuery (.call c)] }.agenda.contains (.event .taskQuery (.call c)) = true ∧
    ((s.modMe fun t => { t with call := some { call := c, reply := none } }).strand 0).call.isSome = true ∧
    (tasks1 cast0 [queued 0] id).task 0 = some (queued 0) ∧ { task0 with saved := [0] }.saved ≠ [] := by decide +kernel
theorem witness_MigratorSteps_rows :
    let s := (pinned id).hubSet (migAddr 0) 0x8000000000000000
    let d : Drain := { acc := false, phys := 5, rows := [rowU 0x100] }
    let r : CopyRec := { addr := 0x200, snap := none, done := 0, leave := false, xfer := xfer0, writes := some [rowU 0x100] }
    let h := page0 1 none
    { s with aside := [(0, 9, d)] }.drainsInto 0 0 = true ∧ (s.modChan 0 fun c => { c with now := some r }).drainsInto 0 0 = true ∧
    s.drainsInto 0 0 = false ∧ { s with aside := [(0, 9, d)] }.drainsInto (2 ^ 21) 0 = false ∧
    (match (s.writeMigpool 0 0), (fullDrain s).writeMigpool 0 0 with | .ok _, .ok _ => true | _, _ => false) = true ∧
    (match s.readLeaves h (List.range 32) with | .ok (.ok l) => l.length == 32 | _ => false) = true ∧
    (match s.readLeaves { h with leaf := 0x20000 } (List.range 32) with | .ok (.error _) => true | _ => false) = true ∧
    (match { s with bellIn := true }.readLeaves h (List.range 32) with | .error _ => true | _ => false) = true ∧
    (match s.pageHint { range0 with keys := [] } 0 with | .ok (none, _) => true | _ => false) = true ∧
    (page0 1 (some 0)).pool.isSome = true ∧ h.pool.isSome = false := by decide +kernel

theorem witness_MemorySystemSteps_sweeps :
    let s := { pinned id with bellPeal := 1 }
    let win (f n b : Nat) := ((((s.hubSet (fwAddr 0) (BitVec.ofNat 64 (2 ^ 63 + f))).hubSet (fwAddr 0 + 8) (BitVec.ofNat 64 logBase)).hubSet (fwAddr 0 + 16)
      (BitVec.ofNat 64 n))).hubSet (fwAddr 0 + 24) (BitVec.ofNat 64 b)
    let w := win 0 0x10000 0
    let dirty (s : State) : State := { s with decoded := Tab.set DecLine.clean s.decoded (decKey logBase 0) { DecLine.clean with dirty := 1 } }
    let hitAll (_ _ : Nat) : Bool := true
    (dirty w).decoded ≠ [] ∧ (Tab.get DecLine.clean (dirty w).decoded (decKey logBase 0)).dirty ≠ 0 ∧
    (Tab.get DecLine.clean s.decoded (decKey logBase 0)).dirty = 0 ∧ isError (s.targetOfLine logBase 0) = true ∧
    (w.window 0).isSome = true ∧ (match w.targetOfLine logBase 0 with | .ok (.dec _ _) => true | _ => false) = true ∧
    isError (w.sweepWindow 0) = false ∧ isError ({ dirty w with bellIn := true }.sweepWindow 0) = true ∧
    isError (s.recallLines hitAll) = false ∧ isError ((shared1 true).recallLines hitAll) = false ∧
    isError ((owned 9 0 true).recallLines hitAll) = true ∧ ({ shared1 true with acks := [ack 0x200] }.ackOwed hitAll) = true ∧
    s.ackOwed hitAll = false ∧ isError (s.purgeAll hitAll) = false := by decide +kernel
theorem witness_MemorySystemSteps_keys :
    let s := { pinned id with bellPeal := 1 }
    let p := (s.programKey 7)
    let other := ({ p with keyring := p.keyring, retiring := none, keySpace := Tab.set 0 p.keySpace 7 0, keyData := [(0, 5)] })
    let r1 := regionOfWords 0x8200000000010000 0x20000
    let back := (region1.writeIrdA 1 ird1)
    Tab.get 0 p.keySpace 7 ≠ 0 ∧ (Tab.get (0, 0) s.keyPairs 7).2 = 0 ∧ (Tab.get (0, 0) p.keyPairs 7).2 ≠ 0 ∧
    (Tab.get (0, 0) other.keyPairs 7).2 ≠ 0 ∧ Tab.get 0 other.keySpace 7 = 0 ∧ other.keyPair ≠ p.keyPair ∧
    (∃ y ∈ (p.writeMem 7 0x100 8 9).mem, y.1 / 32 = 7 * 2 ^ 47 + 8) ∧ Memory.wf p.mem = true ∧ 1 ≤ (Tab.get (0, 0) p.keyPairs 7).1 ∧
    (Tab.get (0, 0) p.keyPairs 7).1 ≤ p.keyring.length ∧
    (back.hubGet (irdA 1)).getLsbD 63 = true ∧ (Tab.get none (back.disableRegion 1).regionMemo 1).isSome = true ∧
    (Tab.get none (back.disableRegion 1).regionMemo 1).map (fun m => decide (m.region = r1)) = some true ∧
    Tab.get none region1.regionMemo 1 = none ∧ r1.meets r1 = true ∧ { s with retiring := some 7 }.retiring = some 7 ∧
    0 ∈ { s with sliceDrained := [0] }.sliceDrained := by decide +kernel
/-- A KeyID that gets another pair gives what that pair deciphers, and its first pair gives the bytes back (R109). -/
theorem test_keys :
    let s := (({ pinned id with bellPeal := 1 }.programKey 7).writeMem 7 0x100 32 0x1234567)
    let retired (s : State) : State := { s with keySpace := Tab.set 0 s.keySpace 7 0 }
    let t := { retired s with keyData := [(0, 5)] }.programKey 7
    let v := { retired t with keyData := [] }.programKey 7
    s.readMem 7 0x100 32 = 0x1234567 ∧ t.readMem 7 0x100 32 ≠ 0x1234567 ∧ v.readMem 7 0x100 32 = 0x1234567 := by decide +kernel
theorem witness_StrandEventSteps_swap :
    let s := pinned id
    let busy := s.modMe fun t => { t with inFlight := 1 }
    s.midway 0 = [] ∧ busy.midway 0 = [0] ∧ { busy with bellIn := true }.midway 0 = [] ∧ (s.modMe fun t => { t with posting := true }).midway 0 = [0] ∧
    (performing 0x100 s).midway 0 = [0] ∧ s.partEnabled 0 = true ∧ s.partHasCluster 0 0 = true ∧ ¬ (s.partEnabled 3 = true ∧ s.partHasCluster 3 0 = true) ∧
    (heldTile.modMe fun t => { t with sup := false }).atPoint 0 = true ∧ (pinned fun t => { t with xmask := 8 }).me.xmask.getLsbD 3 = true := by decide +kernel
theorem witness_RegisterWriteSteps_more :
    let s := pinned id
    Tab.get [] { s with slotsHeld := [(0, [3])] }.slotsHeld 0 ≠ [] ∧ Tab.get [] s.slotsHeld 0 = [] ∧ 0 ∉ s.starting ∧ { s with retiring := some 7 }.retiring ≠ none ∧
    (5 : Word).toNat % 2 ^ 32 ≠ s.migCur 0 ∧ (0 : Word).toNat % 2 ^ 32 = s.migCur 0 ∧ (2 ^ 63 + 2 ^ 62 : Word).getLsbD 62 = true ∧
    ((s.hubSetFld (slCtl 0) 63 1 1).slBusy 0) = true := by decide +kernel

theorem witness_BellAndCheckSteps_calendar :
    let s := { pinned id with clk := 60000, bellPeal := 1 }
    let g := { s with bellPeal := 1024, clk := 1024 * 60000 }
    let b := { s with bellIn := true, bellStart := 24000, bellLen := 1600, bellPeal := 2, clk := 64000 }
    let x : Input := .bell [0] [1680] [(3, 5, 7)] [33] 2 [5]
    let op : RemoteOp := { id := 3, part := 0, ttag := 0, key := 0, addr := 5 * 2 ^ 55, kind := .get, n := 8, lva := 0x100, ptbase := 0, asn := 0,
                           keys := [], sup := true, counted := true, start := 0, sent := false, leave := false, result := none }
    s.bellIn = false ∧ 24000 * s.bellPeal ≤ s.time ∧ s.bellPeal % 1024 ≠ 0 ∧ 24000 * g.bellPeal ≤ g.time ∧ g.bellPeal % 1024 = 0 ∧
    ({ s with input := x }.bellInput.1 = [0] ∧ { s with input := x }.bellInput.2.2.2.2.2 = [5]) ∧ s.bellInput.1 = [] ∧
    ((List.range 256).all fun c => g.hubFld (testAddr c) 63 1 == 0) = true ∧ s.calendar.agenda = [.event .bellBegin .none] ∧ g.calendar.agenda = [.event .greatBellBegin .none] ∧
    b.calendar.agenda = [.event .bellEnd .none] ∧ { b with bellLate := 1 }.calendar.agenda = [.event .bellExtension .none] ∧
    { s with clk := 0 }.calendar.agenda = [] ∧ b.bellStart + b.bellLen ≤ b.time ∧
    (s.modMe fun t => { t with inFlight := 1 }).me.inFlight % 2 = 1 ∧ ¬ op.sent = true ∧ op.coll = none ∧ op.ttag = (s.strand 0).ttag ∧
    b.saves = [] ∧ (∀ x ∈ b.tasks, x.mailDue = false) ∧ (b.hubFld (mcAddr 36) 63 1 = 0) ∧
    (b.hubSet (mcAddr 36) (2 ^ 63 + 0x400000)).hubFld (mcAddr 36) 63 1 = 1 ∧ { b with bellLogged := true }.bellLogged = true ∧
    { s with testing := [3] }.clusterOpen 3 = false := by decide +kernel
theorem witness_BellAndCheckSteps_places :
    let s := tile1
    let tile (id : Nat) : McEvent := { mcEvent 0x11 1 0 with unit := 0, kills := some 0, tile := some (false, id) }
    let r : McRecord := { part := 0, stat := 0, addr := 0, syn := 0, time := 0 }
    let on := s.hubSet (mcqAddr 0) (2 ^ 63)
    s.partOf 0 = some 0 ∧ s.victim (tile 5) = some 0 ∧ s.victim (tile 99) = none ∧ s.victim { tile 5 with tile := none } = some 0 ∧
    s.victim { mcEvent 4 0 0 with kills := some 0 } = some 0 ∧ s.victim { mcEvent 4 0 0 with kills := some 0, part := 3 } = none ∧
    s.victim (mcEvent 0x20 0 0) = none ∧ (mcEvent 0x11 3 0).bank % 8 = 3 ∧ (mcEvent 0x11 1 0).bank % 8 = 1 ∧
    Tab.get 0 (s.poisonOf { mcEvent 0x11 3 0 with sectors := 3 } 0x200) 17 = 255 ∧ Tab.get 0 (s.poisonOf (mcEvent 0x11 3 0) 0x200) 17 = 0 ∧
    Tab.get 0 (s.poisonOf (mcEvent 0x11 3 0) 0x200) 16 = 255 ∧
    { s with mcHeld := [r] }.mcHeld ≠ [] ∧ s.mcHeld = [] ∧ (on.hubGet (mcqAddr 0)).getLsbD 63 = true ∧
    ((s.setCoreCache 0 { s.coreCache 0 with lines := [dataLine 4 1] }).coreCache 0).lines ≠ [] := by decide +kernel
theorem witness_FabricSteps_turns :
    let s := fabric1 0 200
    let f (fi : Nat) : Flit := { flit0 0 true with fibre := fi }
    let last := fabric1 3 12200
    s.rotorTo 507 0 = none ∧ (s.ackFlit (f 64)).acksSent = [(5, 3, 0)] ∧ (s.ackFlit (f 1)).acksSent = [] ∧ (last.ackFlit (f 127)).acksOwed = [(4, (5, 3, 0))] ∧
    last.time / 1600 % 4 = 3 ∧ (s.bellIn = false ∧ s.time < 24000 * { s with bellPeal := 1 }.bellPeal ∧ s.admitted = true ∧ s.fibreUp 64 = true) ∧
    s.waveUp 2 1 = true ∧ s.tablesDue = [] ∧ { s with cabled := true }.cabled = true ∧ s.cabled = false ∧ s.wavesOf 2 ≠ [] := by decide +kernel

theorem witness_BootAndResetSteps_partitions_more :
    let s := pinned id
    let d : Drain := { acc := false, phys := 5, rows := [rowU 0x100] }
    s.bellIn = false ∧ (∀ x ∈ s.aside, s.partOf x.1 ≠ some 0) ∧ (∃ x ∈ { s with aside := [(0, 9, d)] }.aside, s.partOf x.1 = some 0) ∧
    isError (s.endPartition 0) = false ∧ isError (s.purgeAll fun _ k => s.partKey 0 k) = false ∧
    isError ({ owned 9 0 true with bellIn := false }.recallLines fun a _ => s.homedOn 0 a) = true ∧
    isError (s.recallLines fun a _ => s.homedOn 0 a) = false ∧ 0 ∈ { s with starting := [0] }.starting ∧
    { s with fenced := [0] }.fenced = [0] ∧ (1 : Nat) ≠ s.selfIdx ∧ (owned 33 1 false).incNamed 33 1 = true ∧ s.incNamed 33 1 = false := by decide +kernel
theorem witness_AttestationHostAndDebugSteps_more :
    let s := { pinned id with hostLink := some (16, 32) }
    let shared := (s.hubSet hubHOST 0x8000000000000000).hubSet (hubHOST + 8) 1
    let theirs := (owned 32 0 true)
    0x100 % 64 + 8 ≤ 64 ∧ 64 < 0x13F % 64 + 8 ∧ 0x3FFF + 1 ≤ 16384 ∧ 16384 < 0x3FFF + 8 ∧ State.reset.hostLink = none ∧
    (shared.hostWaits true 0 8 (.mem 0x100)) = none ∧ (shared.hostWaits false 0 8 (.mem 0x100)) = none ∧
    ({ shared with dir := (owned 9 0 true).dir }.hostWaits true 0 8 (.mem 0x200)).isSome = true ∧
    theirs.hostOwns 0 (.mem 0x200) = true ∧ (owned 9 0 true).hostOwns 0 (.mem 0x200) = false ∧
    isError (shared.hostPresent 0 0 (2 ^ 48) false) = true ∧ { s with heldReset := true }.heldReset = true ∧ s.heldReset = false ∧
    hubBOOT % 8 = 0 ∧ (2 ^ 46) ≠ hubBOOT := by decide +kernel

theorem witness_ControlTransfers_exit :
    let s := with0 fun t => ({ t with pc := 0, p := 4 }.setGpr 1 0xFFFFFFFFFFFFFFFC).setGpr 31 0xFFFFFFFFFFFFFFFC
    let near (o : Int) : Word := BitVec.ofInt 64 (s.me.pc.toNat + 4 * o)
    s.guard u = true ∧ s.PR 2 = !false ∧ near (0x1FFFFF : BitVec 21).toInt = 0xFFFFFFFFFFFFFFFC ∧
    near (0x1FFFFFF : BitVec 25).toInt = 0xFFFFFFFFFFFFFFFC ∧ near (0xFFFFFFFF : BitVec 32).toInt = 0xFFFFFFFFFFFFFFFC ∧
    s.G 1 = 0xFFFFFFFFFFFFFFFC ∧ s.G 31 = 0xFFFFFFFFFFFFFFFC := by decide
theorem witness_SystemRegisterResults_writes :
    let s := mem1
    let w : Who := { s.who s.cur with sup := true }
    s.me.sup = true ∧ (4 : Word).getLsbD 2 = true ∧ (s.G 0).getLsbD 2 = false ∧ s.taskAt s.cur = none ∧ (tasks1 cast0 [task0] id).taskAt 0 = some task0 ∧
    isError (s.present w.part 0x20000 0 false) = true ∧
    (match s.present w.part 0x100 0 false with
      | .ok p => (match s.readPiece (coreOf s.cur) .home (physPiece 0x100 32 p) 0 (s.tagOf s.cur) with | .ok (_, v) => isOk (acquire .die v) | _ => false)
      | _ => false) = true ∧ s.cur < 4096 ∧ (s.hubGet 0xF00000160000).getLsbD 7 = true ∧
    ({ s with bellIn := true, bellLen := 40000 }.bellLen = 40000) ∧ s.bellPeal % 1024 = 0 ∧ { s with bellPeal := 1 }.bellPeal % 1024 ≠ 0 := by decide +kernel
theorem witness_FenceResults_waits :
    let s := mem1
    let d : Drain := { acc := false, phys := 5, rows := [rowU 0x100] }
    let held (p : Piece) (s : State) : Bool := isError (s.settleAlias 0 p)
    (match s.pieceAD (s.who s.cur) .maintain Align.any 0x100 1 false with
      | .ok (q, v) => isOk (settle v.cur [{ q with va := 0x100, n := 128, t := q.t.at 0x100 }] v) && !held q v
      | _ => false) = true ∧
    s.aside = [] ∧ { s with aside := [(0, 9, d)] }.aside ≠ [] ∧ s.asideOf 0 = [] ∧ (∀ e ∈ s.chans, ∀ c, e.2.now = some c → c.xfer.part = 0 → c.writes = none) ∧
    (match s.pieceAD (s.who s.cur) .prefetch Align.any 0x100 128 false with
      | .ok (p, v) => !isError (v.settleAlias 0 p) && !isError (fetchL1 0 p v) && !(v.coreCache 0).has p.tag
      | _ => false) = true ∧ s.me.flush = [] ∧
    isWait (memReadAt (s.who s.cur) .core 0x100 8 false 0 { s with bellIn := true }) = true := by decide +kernel
theorem witness_TileLoadStoreAndDrain_drains :
    let s := tile1
    let d : Drain := { acc := false, phys := 5, rows := [rowU 0x100, rowU 0x110] }
    let v := s.modMe fun t => { t with drains := [d] }
    let w := heldTile
    (v.strand 0).drains = d :: [] ∧ v.asideOf 0 = [] ∧ (rowU 0x110).meets (rowU 0x100) = false ∧ (rowU 0x100).meets (rowU 0x100) = true ∧
    isError (v.drainPart 0 (v.tagOf 0) (rowU 0x100) 0 16) = false ∧ isError (w.drainPart 0 (w.tagOf 0) (rowU 0x100) 0 16) = true := by decide +kernel

/-- The addresses from 0 on are mapped for every privilege by the TLBs of core 0 and of die 0, key selector 0 is KeyID 0, and the strand is as `f` makes it. -/
def mapped (f : Strand → Strand) : State :=
  let s := (window0 id).writeMem 0 0x800 2 0x8000
  let e : TlbEntry := { part := 0, asn := 0, glob := true, vbase := 0, size := 2 ^ 29, frame := 0, attr := pinnedAttr ||| 8 }
  { s.modMe f with tlb := [(tlbLast 0, [e]), (tlbData 0, [e])] }
theorem witness_RemoteResults_bulk :
    let s := mapped fun t => (t.setGpr 2 (2 ^ 18 + 1)).setGpr 3 0x20000
    let own := mapped (·.setGpr 1 0)
    let gets (n : Nat) := performRemote (req .get 0 n) own
    2 ^ 18 < (s.G 2).toNat ∧ (s.G 2).toNat ≤ 2 ^ 30 ∧
    isTrap (checkParts (s.who s.cur) .load Align.any [(0x20000, 64), (0x20040, 64)] s) = true ∧
    { s with leaveGot := [.remote 0] }.leaveGot.contains (.remote 0) = true ∧ s.leaveGot.contains (.remote 0) = false ∧
    (s.leaveQ.any fun q => q.owner == .remote 0) = false ∧ s.leaveNow 0 4 = true ∧ (s.hubSet (lvcAddr 0) 3).leaveNow 0 4 = false ∧
    (match gets 8 with | .ok (.done v) y => isOk (hubWrite (y.who y.cur) 0x100 8 v y) | _ => false) = true ∧
    (match gets 0x10008 with | .ok (.failed 4 0) _ => true | _ => false) = true ∧ 0 = own.ownMid ∧ (own.openEntry 0 0 0).isSome = true ∧
    (match performRemote (req (.put 5 (some 8)) 0 8) own with | .ok (.done _) y => y.acks.isEmpty | _ => false) = true ∧
    (match performRemote (req (.atom .add .i64 1) 0 8) own with | .ok (.done _) y => y.acks.isEmpty | _ => false) = true ∧
    own.drainAdmits 40 = true := by decide +kernel

theorem witness_DecodeInvertsEncode : (Instr.add 1 2 3).flaw = none ∧ (Instr.stest H 1 2).flaw = none ∧ (Instr.rput H 1 2 3 0x2000).flaw = none := by
  decide
theorem witness_EncodeInvertsDecode : (decode [0x46, 0, 0, 0, 9]).toOption = some (.nop, [9]) := by decide +kernel
theorem witness_RoundingIsNearest : (3 : Nat) ≠ 0 ∧ (FVal.fin true 3 (-1)).isFinite = true := by decide

/-! ## The manual's worked examples, one step each -/

/-- A value of the next state. -/
def after {α : Type} (i : Instr) (s : State) (f : State → α) : Option α := match exec i s with | .next t => some (f t) | _ => none
def vec32 (l : List Nat) : Vec := BitVec.ofNat 512 (packN 32 l)

-- R219's example
theorem test_mul_high : let s := with0 fun t => (t.setGpr 1 0xFFFFFFFFFFFFFFFF).setGpr 2 2
    after (.mulhN64 3 1 2) s (·.G 3) = some 1 ∧ after (.mulhI64 3 1 2) s (·.G 3) = some 0xFFFFFFFFFFFFFFFF ∧
    after (.mul 3 1 2) s (·.G 3) = some 0xFFFFFFFFFFFFFFFE := by decide
-- R222's example: under the false guard g9 keeps its value
theorem test_add_guarded : let s := with0 fun t => t.setGpr 9 5
    after (.addLiteral { u with gp := 1 } 9 9 100) s (·.G 9) = some 5 ∧
    after (.addLiteral { u with gp := 1 } 9 9 100) (with0 fun t => (t.setGpr 9 5).setPred 1 true) (·.G 9) = some 105 := by decide
-- R224's example
theorem test_bfx : let s := with0 fun t => t.setGpr 10 0xA5C3
    after (.bfxN64 u 9 10 8 4) s (·.G 9) = some 5 ∧ after (.bfxI64 u 9 10 8 4) s (·.G 9) = some 5 ∧
    after (.bfxN64 u 9 10 12 4) s (·.G 9) = some 10 ∧ after (.bfxI64 u 9 10 12 4) s (·.G 9) = some 0xFFFFFFFFFFFFFFFA := by decide
-- R69: division by zero, and the most negative value by -1
theorem test_div : let s := with0 fun t => ((t.setGpr 1 0x8000000000000000).setGpr 2 0xFFFFFFFFFFFFFFFF).setGpr 4 7
    after (.divI64 3 1 2) s (·.G 3) = some 0x8000000000000000 ∧ after (.remI64 3 1 2) s (·.G 3) = some 0 ∧
    after (.divN64 3 4 0) s (·.G 3) = some 0xFFFFFFFFFFFFFFFF ∧ after (.remN64 3 4 0) s (·.G 3) = some 7 := by decide
-- R244's example: an exact product and one rounding
theorem test_vfma : let s := with0 fun t => ((t.setVec 4 (vec32 [0x3F800800])).setVec 5 (vec32 [0x3F800800])).setVec 3 (vec32 [0xBF800000])
    after (.vfma u { m := 0, z := false } .f32 .rne 3 4 5) s (fun t => laneOf (t.V 3) 32 0) = some 0x3A000400 ∧
    after (.vfma u { m := 0, z := false } .f32 .rtz 3 4 5) s (fun t => laneOf (t.V 3) 32 0) = some 0x3A000400 := by decide +kernel
-- the conversions of the table after R78
def sources : Vec := vec32 [0x3F800000, 0x40490FDB, 0x3F808000, 0x3F818000, 0x3B400000, 0x43FA0000, 0xFF800000, 0x7FA00001]
theorem test_vcvt : let s := with0 fun t => t.setVec 2 sources
    let cvt (ty : Ty) (sat : Bool) := after (.vcvt u { m := 0, z := false } ty .f32 .rne sat 1 2) s fun t =>
      (List.range 8).map fun i => (laneOf (t.V 1) ty.bits i).toNat
    cvt .bf16 false = some [0x3F80, 0x4049, 0x3F80, 0x3F82, 0x3B40, 0x43FA, 0xFF80, 0x7FC0] ∧
    cvt .e4m3 false = some [0x38, 0x45, 0x38, 0x38, 0x02, 0x7E, 0xFE, 0x7F] ∧
    cvt .e5m2 false = some [0x3C, 0x42, 0x3C, 0x3C, 0x1A, 0x60, 0xFC, 0x7E] := by decide +kernel
-- R79's example
theorem test_vsplit3 : let s := with0 fun t => t.setVec 2 (vec32 [0x40490FDB])
    after (.vsplit3 u { m := 0, z := false } 4 2) s (fun t => [4, 5, 6].map fun (d : R32) => (laneOf (t.V d) 16 0).toNat) =
      some [0x4049, 0x3A7E, 0xB5A0] := by decide +kernel
-- R251's and R252's example
theorem test_vred_order : let s := with0 fun t => t.setVec 1 (vec32 (0x4B800000 :: List.replicate 15 0x3F800000))
    after (.vredAdd u 0 .f32 2 1) s (fun t => laneOf (t.V 2) 32 0) = some 0x4B800007 ∧
    after (.vscanAdd u { m := 0, z := false } .f32 3 1) s (fun t => laneOf (t.V 3) 32 15) = some 0x4B800000 := by decide +kernel
-- R256's example: x = 2, y = 1, z = 3 in two bits
theorem test_vkey : let s := with0 fun t => ((t.setVec 4 (vec32 [2])).setVec 5 (vec32 [1])).setVec 6 (vec32 [3])
    after (.vkeyMort u { m := 0, z := false } .n32 9 4 2) s (fun t => laneOf (t.V 9) 64 0) = some 43 ∧
    after (.vkeyHilb u { m := 0, z := false } .n32 9 4 2) s (fun t => laneOf (t.V 9) 64 0) = some 50 := by decide +kernel
-- the blocks of the examples after R85 and R87
theorem test_l6 :
    (l6Decode (0x1FD4 + 0xF4 * 2 ^ 144)).take 4 = [0x3E80, 0xBFD7, 0x3C18, 0] ∧
    l6Encode (0x3E80 :: 0xBFD7 :: 0x3C18 :: List.replicate 21 0) = 0x1FD4 + 0xF4 * 2 ^ 144 := by decide +kernel
theorem test_pip :
    pipEncode ((List.range 64).map fun i => if i = 3 then 0x3F80 else if i = 40 then 0xC000 else if i = 5 then 0x8000 else 0) =
      some (8 + 2 ^ 40 + 2 ^ 64 * 0x3F80 + 2 ^ 80 * 0xC000) := by decide +kernel
-- R88's example: a unit product in a block of its own is lost, two in the first block are kept
theorem test_tmul_order :
    let row (l : List Nat) : List FVal := (List.range 64).map fun k => widen .bf16 (if k = 0 then 0x4580 else if k ∈ l then 0x3F80 else 0)
    contribution 8 (row [8, 16]) (row [8, 16]) = 0x4B800000 ∧ contribution 8 (row [1, 2]) (row [1, 2]) = 0x4B800001 := by decide +kernel
-- R277's note on shares is R275's: tmov with a last use leaves one name, and t1 zero-mapped
theorem test_tstat_example :
    let s := match exec (.tmov { u with lu := 1 } 4 0) tile1 with | .next t => t | _ => tile1
    after (.tstat u 9 (.t 4)) s (·.G 9) = some 2 ∧ after (.tstat u 10 (.t 0)) s (·.G 10) = some 6 := by decide +kernel
-- R304's example
theorem test_rotor : rotorPeer 3 49 0 = 200 ∧ rotorPeer 200 113 0 = 3 := by decide
-- R340's example
theorem test_cred : credLane 0 .f32 [0x4B800000, 0x3F800000, 0x3F800000] = 0x4B800001 := by decide +kernel
-- the example after R332
def elements0 : List Elem :=
  [(20, 0, 0), (3, 0, 1), (41, 0, 2), (7, 1, 0), (20, 1, 1), (60, 1, 2), (12, 2, 0), (20, 2, 1), (7, 2, 2)].map fun (k, s, i) =>
    { key := k, src := s, idx := i, load := 1, bytes := 0 }
theorem test_repartition :
    splitters 6 3 elements0 = [0, 8, 21, 64] ∧
    (List.range 3).map (fun o => (acceptedBy [0, 8, 21, 64] [8, 3, 3] elements0 o).map fun e => (e.src, e.idx)) =
      [[(0, 1), (1, 0), (2, 2)], [(0, 0), (1, 1), (2, 0)], [(0, 2), (1, 2)]] := by decide +kernel
-- R347's and R350's examples
theorem test_shares :
    (List.range 3).map (fun r => (shareStart 0 10 3 r, shareLimit 0 10 3 r)) = [(0, 4), (4, 7), (7, 10)] ∧
    (List.range 3).map (fun r => (shareStart 1 10 3 r, shareStep 1 3)) = [(0, 3), (1, 3), (2, 3)] := by decide
theorem test_levelling :
    let len (c : Nat) : Nat := if c = 0 then 6 else if c = 1 then 1 else 3
    [0, 1, 8, 9].map (levelMove [0, 1, 8, 9] len) = [some (1, 2), none, none, some (1, 1)] := by decide
-- the example after R103: C is nearest, and A, the furthest of the promoted, is demoted for it
theorem test_migrator :
    let page (n step prio : Nat) (p : Option Nat) : PageHint := { page0 n p with step := step, prio := prio }
    let hints := [page 1 104 0 (some 0), page 2 103 0 (some (2 ^ 21)), page 3 102 3 none, page 4 99 0 none]
    let s := (((pinned id).hubSet (migAddr 0) 0x8000000000000000).hubSet (migAddr 0 + 8) 2).hubSet (migAddr 0 + 16) 100
    (({ s with hints := hints } : State).migChoice 0).map (fun m => (m.va / 2 ^ 21, m.up)) = some (1, false) := by decide +kernel
-- the example after R119: the slice of a local address under the reset map
theorem test_slice : State.reset.sliceNew 0 (sliceHash 0x000400010000) = 17 := by decide +kernel
-- R369, and steps 1 and 3 of the example after R373: a fault at XLVL 0 and one at XLVL 1, here error responses (no region is enabled)
theorem test_traps :
    let s := with0 fun t => { (t.setGpr 4 0x800002) with sup := false, pc := 0x401000, xvec := 0x10000000, xdvec := 0x10010000 }
    let t := match exec (.ld .b64 2 9 4) s with | .next t => t | _ => s
    t.me.xpc = 0x401000 ∧ t.me.xcause = 0x08 ∧ t.me.xlvl = 1 ∧ t.me.sup = true ∧ t.me.pc = 0x10000200 ∧
    (let v := match exec (.ld .b64 2 9 4) t with | .next v => v | _ => t
     v.me.xlvl = 2 ∧ v.me.xpc2 = 0x10000200 ∧ v.me.xcause2 = 0x081F ∧ v.me.pc = 0x10010000 ∧ v.me.xpc = 0x401000) := by decide +kernel
-- a store, and loads of its word and of the next
theorem test_store_load :
    let s := mem1
    let t := match exec (.st .n32 1 5 1) s with | .next t => t | _ => s
    after (.ld .n32 1 6 1) t (·.G 6) = some 7 ∧ after (.ld .n32 2 6 1) t (·.G 6) = some 0 := by decide +kernel

end Sys2Proof.Tests
end

namespace Sys2Proof.Machine

/-!
# Number formats (spec/04_number_formats.md)

Integer division, the rounding of exact values, exact arithmetic with its specials, comparisons and the three-term split.
-/

/-! ## Integer division (R69) -/

/-- A register-register operation writes its function's value and retires (R218). -/
theorem writesG_regReg (f : Word → Word → Word) (d a b : R32) (s : State) :
    WritesG (regReg f d a b s) s 4 d (f (s.G a) (s.G b)) :=
  ⟨_, rfl, retires_modMe s 4 (·.setGpr d.val (f (s.G a) (s.G b)))⟩

theorem readInt_signed {w : Nat} (x : BitVec w) : readInt true w x.toNat = x.toInt := by
  simp only [readInt, sextN, BitVec.toInt_eq_toNat_cond, Nat.mod_eq_of_lt x.isLt, if_true]
  rw [Int.natCast_pow]
  rfl

theorem readInt_unsigned {w : Nat} (x : BitVec w) : readInt false w x.toNat = x.toNat := by
  rw [readInt, Nat.mod_eq_of_lt x.isLt]
  rfl

theorem ofNat_wrapN (w : Nat) (n : Int) : BitVec.ofNat w (wrapN w n) = BitVec.ofInt w n := by
  have hpow : (2 : Int) ^ w = ((2 ^ w : Nat) : Int) := by rw [Int.natCast_pow]; rfl
  have hpos := Nat.two_pow_pos w
  have hnonneg : 0 ≤ n % ((2 ^ w : Nat) : Int) := Int.emod_nonneg _ (by omega)
  have hlt : n % ((2 ^ w : Nat) : Int) < ((2 ^ w : Nat) : Int) := Int.emod_lt_of_pos _ (by omega)
  apply BitVec.eq_of_toNat_eq
  rw [BitVec.toNat_ofNat, BitVec.toNat_ofInt, wrapN, hpow, Nat.mod_eq_of_lt (by omega)]

/-- The signed quotient is all ones for a divisor of zero, and else `BitVec.sdiv` (which wraps in R69's second case). -/
theorem aluDiv_eq (x y : Word) : aluDiv x y = if y = 0 then BitVec.allOnes 64 else x.sdiv y := by
  have hzero : y.toInt = 0 ↔ y = 0 := by rw [← BitVec.toInt_inj]; rfl
  simp only [aluDiv, divTrunc, readInt_signed, hzero]
  split
  · rfl
  · rw [ofNat_wrapN]
    exact BitVec.eq_of_toInt_eq (by rw [BitVec.toInt_ofInt, BitVec.toInt_sdiv])

theorem aluRem_eq (x y : Word) : aluRem x y = if y = 0 then x else x.srem y := by
  have hzero : y.toInt = 0 ↔ y = 0 := by rw [← BitVec.toInt_inj]; rfl
  simp only [aluRem, remTrunc, readInt_signed, hzero]
  split
  · rw [Nat.mod_eq_of_lt x.isLt, BitVec.ofNat_toNat, BitVec.setWidth_eq]
  · rw [ofNat_wrapN, ← BitVec.toInt_srem, BitVec.ofInt_toInt]

theorem aluDivU_eq (x y : Word) : aluDivU x y = if y = 0 then BitVec.allOnes 64 else x / y := by
  have hzero : (y.toNat : Int) = 0 ↔ y = 0 := by rw [← BitVec.toNat_inj]; exact Int.natCast_eq_zero
  simp only [aluDivU, divTrunc, readInt_unsigned, hzero]
  split
  · rfl
  · rw [ofNat_wrapN, ← Int.ofNat_tdiv, ← BitVec.toNat_udiv, BitVec.ofInt_natCast, BitVec.ofNat_toNat, BitVec.setWidth_eq]

theorem aluRemU_eq (x y : Word) : aluRemU x y = if y = 0 then x else x % y := by
  have hzero : (y.toNat : Int) = 0 ↔ y = 0 := by rw [← BitVec.toNat_inj]; exact Int.natCast_eq_zero
  simp only [aluRemU, remTrunc, readInt_unsigned, hzero]
  split
  · rw [Nat.mod_eq_of_lt x.isLt, BitVec.ofNat_toNat, BitVec.setWidth_eq]
  · rw [ofNat_wrapN, ← Int.ofNat_tmod, ← BitVec.toNat_umod, BitVec.ofInt_natCast, BitVec.ofNat_toNat, BitVec.setWidth_eq]

/-- A nonzero truncated remainder has the dividend's sign. -/
theorem tmod_neg_iff {x y : Int} (h : x.tmod y ≠ 0) : x.tmod y < 0 ↔ x < 0 := by
  have hsign : (x.tmod y).sign = x.sign := by
    rw [Int.sign_tmod, if_neg fun hd => h (Int.tmod_eq_zero_of_dvd hd)]
  rw [← Int.sign_eq_neg_one_iff_neg, hsign, Int.sign_eq_neg_one_iff_neg]

/-- R69's second fixed case. -/
theorem aluDiv_aluRem_corner {x y : Word} (hx : x.toInt = -2 ^ 63) (hy : y.toInt = -1) :
    (aluDiv x y).toInt = -2 ^ 63 ∧ aluRem x y = 0 := by
  obtain rfl : x = BitVec.intMin 64 := BitVec.eq_of_toInt_eq hx
  obtain rfl : y = -1#64 := BitVec.eq_of_toInt_eq hy
  decide

/-- Signed division outside the fixed cases. -/
theorem aluDiv_aluRem_spec {x y : Word} (hy : y ≠ 0) (hc : ¬ (x.toInt = -2 ^ 63 ∧ y.toInt = -1)) :
    x.toInt = (aluDiv x y).toInt * y.toInt + (aluRem x y).toInt ∧ (aluRem x y).toInt.natAbs < y.toInt.natAbs ∧
      (aluRem x y = 0 ∨ ((aluRem x y).toInt < 0 ↔ x.toInt < 0)) := by
  have hquot : (aluDiv x y).toInt = x.toInt.tdiv y.toInt := by
    rw [aluDiv_eq, if_neg hy]
    refine BitVec.toInt_sdiv_of_ne_or_ne x y ?_
    by_cases hx : x = BitVec.intMin 64
    · exact .inr fun hy1 => hc ⟨by rw [hx]; rfl, by rw [hy1]; rfl⟩
    · exact .inl hx
  have hrem : (aluRem x y).toInt = x.toInt.tmod y.toInt := by rw [aluRem_eq, if_neg hy, BitVec.toInt_srem]
  have hyInt : y.toInt ≠ 0 := fun h => hy (BitVec.eq_of_toInt_eq h)
  refine ⟨?_, ?_, ?_⟩
  · rw [hquot, hrem, Int.tdiv_mul_add_tmod]
  · rw [hrem, Int.natAbs_tmod]; exact Nat.mod_lt _ (Int.natAbs_pos.mpr hyInt)
  · by_cases hzero : x.toInt.tmod y.toInt = 0
    · exact .inl (BitVec.eq_of_toInt_eq (hrem.trans hzero))
    · exact .inr (hrem ▸ tmod_neg_iff hzero)

/-- Unsigned division by a nonzero divisor. -/
theorem aluDivU_aluRemU_spec {x y : Word} (hy : y ≠ 0) :
    x.toNat = (aluDivU x y).toNat * y.toNat + (aluRemU x y).toNat ∧ (aluRemU x y).toNat < y.toNat := by
  rw [aluDivU_eq, aluRemU_eq, if_neg hy, if_neg hy, BitVec.toNat_udiv, BitVec.toNat_umod]
  have hpos : 0 < y.toNat := Nat.pos_of_ne_zero fun h => hy (BitVec.eq_of_toNat_eq h)
  exact ⟨(Nat.div_add_mod' _ _).symm, Nat.mod_lt _ hpos⟩

/-- Settles O20: the quotients and remainders are those of `BitVec`, whose division truncates. -/
theorem integerDivision : Obligations.IntegerDivision := by
  unfold Obligations.IntegerDivision
  intro d a b s x y corner
  constructor
  · refine ⟨aluDiv x y, aluRem x y, writesG_regReg aluDiv d a b s, writesG_regReg aluRem d a b s, ?_, ?_, aluDiv_aluRem_spec⟩
    · intro hy; rw [aluDiv_eq, aluRem_eq, if_pos hy, if_pos hy]; exact ⟨rfl, rfl⟩
    · rintro ⟨hx, hy⟩; exact aluDiv_aluRem_corner hx hy
  · refine ⟨aluDivU x y, aluRemU x y, writesG_regReg aluDivU d a b s, writesG_regReg aluRemU d a b s, ?_, aluDivU_aluRemU_spec⟩
    intro hy; rw [aluDivU_eq, aluRemU_eq, if_pos hy, if_pos hy]; exact ⟨rfl, rfl⟩

/-! ## Rationals: magnitudes, powers of two, comparisons -/

/-- A magnitude with a sign. -/
def withSign (neg : Bool) (q : Rat) : Rat := if neg = true then -q else q

theorem magnitude_neg (q : Rat) : magnitude (-q) = magnitude q := by grind [magnitude]
theorem magnitude_of_nonneg {q : Rat} (h : 0 ≤ q) : magnitude q = q := by grind [magnitude]
theorem magnitude_of_nonpos {q : Rat} (h : q ≤ 0) : magnitude q = -q := by grind [magnitude]
theorem magnitude_nonneg (q : Rat) : 0 ≤ magnitude q := by grind [magnitude]
theorem le_magnitude (q : Rat) : q ≤ magnitude q := by grind [magnitude]
theorem neg_le_magnitude (q : Rat) : -q ≤ magnitude q := by grind [magnitude]
theorem magnitude_sub_comm (p q : Rat) : magnitude (p - q) = magnitude (q - p) := by grind [magnitude]
theorem magnitude_le_iff {q b : Rat} : magnitude q ≤ b ↔ -b ≤ q ∧ q ≤ b := by grind [magnitude]
theorem magnitude_eq_or (q : Rat) : magnitude q = q ∨ magnitude q = -q := by grind [magnitude]
theorem magnitude_zero : magnitude 0 = 0 := magnitude_of_nonneg Rat.le_refl

theorem magnitude_withSign (neg : Bool) (q : Rat) : magnitude (withSign neg q) = magnitude q := by
  cases neg
  · rfl
  · exact magnitude_neg q

theorem withSign_eq_zero (neg : Bool) (q : Rat) : withSign neg q = 0 ↔ q = 0 := by
  cases neg <;> grind [withSign]

theorem withSign_true (q : Rat) : withSign true q = -q := rfl

theorem mul_self_nonneg_rat (q : Rat) : 0 ≤ q * q := by
  rcases Rat.le_total (a := 0) (b := q) with h | h
  · exact Rat.mul_nonneg h h
  · have := Rat.mul_nonneg (a := -q) (b := -q) (by grind) (by grind)
    grind

/-- Squares of nonnegative numbers are in their order. -/
theorem mul_self_le_mul_self_rat {a b : Rat} (h0 : 0 ≤ a) (h : a ≤ b) : a * a ≤ b * b :=
  Rat.le_trans (Rat.mul_le_mul_of_nonneg_left h h0) (Rat.mul_le_mul_of_nonneg_right h (Rat.le_trans h0 h))

theorem mul_self_lt_mul_self_rat {a b : Rat} (h0 : 0 ≤ a) (h : a < b) : a * a < b * b := by
  have hle := Rat.mul_le_mul_of_nonneg_left (Rat.le_of_lt h) h0
  have hlt := Rat.mul_lt_mul_of_pos_right h (c := b) (by grind)
  grind

theorem two_ne_zero_rat : (2 : Rat) ≠ 0 := by decide

theorem two_zpow_pos (e : Int) : (0 : Rat) < 2 ^ e := Rat.zpow_pos (by decide)

theorem two_zpow_succ (e : Int) : (2 : Rat) ^ (e + 1) = 2 * 2 ^ e := by
  rw [Rat.zpow_add_one two_ne_zero_rat, Rat.mul_comm]

theorem two_zpow_pred (e : Int) : 2 * (2 : Rat) ^ (e - 1) = 2 ^ e := by
  rw [← two_zpow_succ, Int.sub_add_cancel]

theorem two_zpow_add_nat (e : Int) (k : Nat) : (2 : Rat) ^ (e + (k : Int)) = ((2 ^ k : Nat) : Rat) * 2 ^ e := by
  rw [Rat.zpow_add two_ne_zero_rat, Rat.zpow_natCast, Rat.natCast_pow, Rat.mul_comm]
  rfl

/-- A power of two as a count of a smaller one. -/
theorem two_zpow_split {a b : Int} (h : a ≤ b) : (2 : Rat) ^ b = ((2 ^ (b - a).toNat : Nat) : Rat) * 2 ^ a := by
  rw [← two_zpow_add_nat, show a + ((b - a).toNat : Int) = b by omega]

section
variable (m n : Nat) (i j e : Int)

theorem natCast_mul_le_iff : (m : Rat) * 2 ^ e ≤ n * 2 ^ e ↔ m ≤ n := by
  have hpos := two_zpow_pos e
  constructor
  · exact fun h => Rat.natCast_le_natCast.mp (Rat.le_of_mul_le_mul_right h hpos)
  · exact fun h => Rat.mul_le_mul_of_nonneg_right (Rat.natCast_le_natCast.mpr h) (Rat.le_of_lt hpos)

theorem natCast_mul_lt_iff : (m : Rat) * 2 ^ e < n * 2 ^ e ↔ m < n := by
  rw [← Rat.not_le, natCast_mul_le_iff, Nat.not_le]

theorem intCast_mul_le_iff : (i : Rat) * 2 ^ e ≤ j * 2 ^ e ↔ i ≤ j := by
  have hpos := two_zpow_pos e
  constructor
  · exact fun h => Rat.intCast_le_intCast.mp (Rat.le_of_mul_le_mul_right h hpos)
  · exact fun h => Rat.mul_le_mul_of_nonneg_right (Rat.intCast_le_intCast.mpr h) (Rat.le_of_lt hpos)

theorem intCast_mul_lt_iff : (i : Rat) * 2 ^ e < j * 2 ^ e ↔ i < j := by
  rw [← Rat.not_le, intCast_mul_le_iff, Int.not_le]

theorem natCast_mul_nonneg : 0 ≤ (m : Rat) * 2 ^ e :=
  Rat.mul_nonneg Rat.natCast_nonneg (Rat.le_of_lt (two_zpow_pos e))

theorem natCast_mul_eq_zero : (m : Rat) * 2 ^ e = 0 ↔ m = 0 := by
  rw [Rat.mul_eq_zero, Rat.natCast_eq_zero_iff, or_iff_left (Rat.ne_of_gt (two_zpow_pos e))]

theorem natCast_mul_two_zpow (k : Nat) : ((m * 2 ^ k : Nat) : Rat) * 2 ^ e = m * 2 ^ (e + (k : Int)) := by
  rw [two_zpow_add_nat, Rat.natCast_mul, Rat.mul_assoc]

end

theorem two_zpow_le {a b : Int} (h : a ≤ b) : (2 : Rat) ^ a ≤ 2 ^ b := by
  rw [two_zpow_split h]
  have hle := (natCast_mul_le_iff 1 (2 ^ (b - a).toNat) a).mpr (Nat.two_pow_pos _)
  rwa [show ((1 : Nat) : Rat) = 1 from rfl, Rat.one_mul] at hle

theorem FVal.rat_fin (neg : Bool) (m : Nat) (e : Int) : (FVal.fin neg m e).rat = withSign neg (m * 2 ^ e) := by
  cases neg <;> grind [FVal.rat, withSign]

/-- How two rationals, and two naturals, compare. -/
def ratOrder (a b : Rat) : Ordering := if a < b then .lt else if a = b then .eq else .gt
def natOrder (a b : Nat) : Ordering := if a < b then .lt else if a = b then .eq else .gt

section
variable {a b : Rat}
theorem ratOrder_eq_lt : ratOrder a b = .lt ↔ a < b := by grind [ratOrder]
theorem ratOrder_eq_eq : ratOrder a b = .eq ↔ a = b := by grind [ratOrder]
theorem ratOrder_eq_gt : ratOrder a b = .gt ↔ b < a := by grind [ratOrder]
theorem ratOrder_ne_gt : ratOrder a b ≠ .gt ↔ a ≤ b := by rw [Ne, ratOrder_eq_gt, Rat.not_lt]
end

section
variable {a b : Nat}
theorem natOrder_eq_lt : natOrder a b = .lt ↔ a < b := by grind [natOrder]
theorem natOrder_eq_eq : natOrder a b = .eq ↔ a = b := by grind [natOrder]
theorem natOrder_eq_gt : natOrder a b = .gt ↔ b < a := by grind [natOrder]
end

theorem ratOrder_scaled (a b : Nat) (e : Int) : ratOrder ((a : Rat) * 2 ^ e) (b * 2 ^ e) = natOrder a b := by
  rcases Nat.lt_trichotomy a b with h | h | h
  · rw [natOrder_eq_lt.mpr h, ratOrder_eq_lt]; exact (natCast_mul_lt_iff a b e).mpr h
  · rw [natOrder_eq_eq.mpr h, ratOrder_eq_eq, h]
  · rw [natOrder_eq_gt.mpr h, ratOrder_eq_gt]; exact (natCast_mul_lt_iff b a e).mpr h

theorem ratOrder_mul_pos {a b k : Rat} (hk : 0 < k) : ratOrder (a * k) (b * k) = ratOrder a b := by
  unfold ratOrder
  have heq : a * k = b * k ↔ a = b := by
    refine ⟨fun h => ?_, fun h => by rw [h]⟩
    have hle := Rat.le_of_mul_le_mul_right (a := a) (b := b) (c := k) (h ▸ Rat.le_refl) hk
    have hge := Rat.le_of_mul_le_mul_right (a := b) (b := a) (c := k) (h ▸ Rat.le_refl) hk
    exact Rat.le_antisymm hle hge
  simp only [Rat.mul_lt_mul_right hk, heq]

/-! ## Rounding: the values of a format around an exact one (R73) -/

/-- The exponent of the subnormals, the least of a format (R70). -/
def FF.minExp (F : FF) : Int := 1 - (F.bias : Int) - F.man

theorem FF.Representable.neg {F : FF} {v : Rat} (h : F.Representable v) : F.Representable (-v) := by
  obtain ⟨m, e, hv, hm, he⟩ := h
  exact ⟨-m, e, by rw [hv, Rat.intCast_neg, Rat.neg_mul], by rwa [Int.natAbs_neg], he⟩

theorem FF.Representable.magnitude {F : FF} {v : Rat} (h : F.Representable v) : F.Representable (magnitude v) := by
  rcases magnitude_eq_or v with hv | hv <;> rw [hv]
  · exact h
  · exact h.neg

theorem FF.EndsInZero.neg {F : FF} {v : Rat} (h : F.EndsInZero v) : F.EndsInZero (-v) := by
  obtain ⟨m, e, ⟨hv, hm, he⟩, heven, hfull⟩ := h
  exact ⟨-m, e, ⟨by rw [hv, Rat.intCast_neg, Rat.neg_mul], by rwa [Int.natAbs_neg], he⟩, by omega, by rwa [Int.natAbs_neg]⟩

/-- A count of 2^q that has a mantissa of its own in the format, a carry into the next binade included. -/
structure FF.Count (F : FF) (n : Nat) (q : Int) : Prop where
  least : F.minExp ≤ q
  le : n ≤ 2 ^ (F.man + 1)
  full : 2 ^ F.man ≤ n ∨ q = F.minExp

theorem FF.two_pow_man_even (F : FF) : 2 ^ F.man % 2 = 0 := by cases F <;> rfl

theorem FF.Count.represents {F : FF} {n : Nat} {q : Int} (h : F.Count n q) :
    ∃ (m : Nat) (e : Int), F.Represents (n * 2 ^ q) m e ∧ (n % 2 = 0 → m % 2 = 0) ∧
      (2 ^ F.man ≤ m ∨ e = F.minExp) := by
  obtain ⟨hleast, hle, hfull⟩ := h
  have hsucc : 2 ^ (F.man + 1) = 2 * 2 ^ F.man := by rw [Nat.pow_succ, Nat.mul_comm]
  by_cases hlt : n < 2 ^ (F.man + 1)
  · exact ⟨n, q, ⟨by rw [Rat.intCast_natCast], by rwa [Int.natAbs_natCast], hleast⟩, id, hfull⟩
  · have hn : n = 2 ^ F.man * 2 ^ 1 := by omega
    refine ⟨2 ^ F.man, q + 1, ⟨?_, ?_, ?_⟩, fun _ => F.two_pow_man_even, .inl (Nat.le_refl _)⟩
    · rw [Rat.intCast_natCast, hn, natCast_mul_two_zpow]; rfl
    · have := Nat.two_pow_pos F.man
      rw [Int.natAbs_natCast, hsucc]; omega
    · unfold FF.minExp at hleast; omega

theorem FF.Count.representable {F : FF} {n : Nat} {q : Int} (h : F.Count n q) : F.Representable (n * 2 ^ q) := by
  obtain ⟨m, e, hrep, -⟩ := h.represents
  exact ⟨m, e, hrep⟩

theorem FF.Count.endsInZero {F : FF} {n : Nat} {q : Int} (h : F.Count n q) (heven : n % 2 = 0) :
    F.EndsInZero (n * 2 ^ q) := by
  obtain ⟨m, e, hrep, hm, hfull⟩ := h.represents
  refine ⟨m, e, hrep, ?_, by rw [Int.natAbs_natCast]; exact hfull⟩
  have := hm heven; omega

/-- n · 2^q and (n + 1) · 2^q are values of the format with none between them. -/
structure FF.Grid (F : FF) (n : Nat) (q : Int) : Prop where
  least : F.minExp ≤ q
  lt : n < 2 ^ (F.man + 1)
  full : 2 ^ F.man ≤ n ∨ q = F.minExp

theorem FF.Grid.low {F : FF} {n : Nat} {q : Int} (h : F.Grid n q) : F.Count n q := ⟨h.least, Nat.le_of_lt h.lt, h.full⟩
theorem FF.Grid.high {F : FF} {n : Nat} {q : Int} (h : F.Grid n q) : F.Count (n + 1) q :=
  ⟨h.least, h.lt, h.full.imp_left fun hn => by omega⟩

/-- A value of the format is a count of 2^q, or it lies below the binade whose mantissas count 2^q. -/
theorem FF.Representable.count_or_lt {F : FF} {u : Rat} (hu : F.Representable u) (q : Int) :
    (∃ j : Int, u = j * 2 ^ q) ∨ (F.minExp < q ∧ u < ((2 ^ F.man : Nat) : Rat) * 2 ^ q) := by
  obtain ⟨m, e, hv, hm, he⟩ := hu
  by_cases hq : q ≤ e
  · refine .inl ⟨m * ((2 ^ (e - q).toNat : Nat) : Int), ?_⟩
    rw [hv, two_zpow_split hq, Rat.intCast_mul, Rat.intCast_natCast, Rat.mul_assoc]
  · refine .inr ⟨by unfold FF.minExp; omega, ?_⟩
    have hsucc : 2 ^ (F.man + 1) = 2 * 2 ^ F.man := by rw [Nat.pow_succ, Nat.mul_comm]
    have hlt : u < ((2 ^ F.man : Nat) : Rat) * 2 ^ (e + 1) := by
      rw [hv, show (2 : Rat) ^ (e + 1) = 2 ^ (e + ((1 : Nat) : Int)) from rfl, ← natCast_mul_two_zpow, ← Rat.intCast_natCast,
        ← Rat.not_le, intCast_mul_le_iff]
      omega
    have hle : ((2 ^ F.man : Nat) : Rat) * 2 ^ (e + 1) ≤ ((2 ^ F.man : Nat) : Rat) * 2 ^ q :=
      Rat.mul_le_mul_of_nonneg_left (two_zpow_le (by omega)) Rat.natCast_nonneg
    grind

theorem FF.Grid.gap {F : FF} {n : Nat} {q : Int} (h : F.Grid n q) {u : Rat} (hu : F.Representable u) :
    u ≤ n * 2 ^ q ∨ ((n + 1 : Nat) : Rat) * 2 ^ q ≤ u := by
  rcases hu.count_or_lt q with ⟨j, rfl⟩ | ⟨hq, hlt⟩
  · rw [← Rat.intCast_natCast, ← Rat.intCast_natCast, intCast_mul_le_iff, intCast_mul_le_iff]
    omega
  · have hn : 2 ^ F.man ≤ n := h.full.resolve_right (by omega)
    exact .inl (Rat.le_of_lt (Rat.not_le.mp fun hc => Rat.not_le.mpr hlt (Rat.le_trans ((natCast_mul_le_iff _ _ q).mpr hn) hc)))

/-- Where the exact value lies in the binade of 2^ex, R73's unit for it is 2^q. -/
theorem FF.grid_of_binade {F : FF} {n : Nat} {q ex : Int} {x : Rat} (hq : q = max ex (1 - (F.bias : Int)) - F.man)
    (hlo : (n : Rat) * 2 ^ q ≤ x) (hhi : x < ((n + 1 : Nat) : Rat) * 2 ^ q) (hex : (2 : Rat) ^ ex ≤ x) (hex' : x < 2 ^ (ex + 1)) :
    F.Grid n q := by
  have hleast : F.minExp ≤ q := by unfold FF.minExp; omega
  refine ⟨hleast, ?_, ?_⟩
  · rw [← natCast_mul_lt_iff _ _ q, ← two_zpow_add_nat]
    have hle : (2 : Rat) ^ (ex + 1) ≤ 2 ^ (q + ((F.man + 1 : Nat) : Int)) := two_zpow_le (by omega)
    grind
  · by_cases hsub : ex < 1 - (F.bias : Int)
    · right; unfold FF.minExp; omega
    · left
      refine Nat.le_of_lt_succ ?_
      rw [← natCast_mul_lt_iff _ _ q, ← two_zpow_add_nat, show q + (F.man : Int) = ex by omega]
      grind

/-! ## The count that a mode takes -/

/-- The mode as it acts on the magnitude of a value of a sign. -/
def magnitudeMode (neg : Bool) : Rm → Rm
  | .rup => if neg = true then .rdn else .rup
  | .rdn => if neg = true then .rup else .rdn
  | rm => rm

/-- n or n + 1, as R73's mode takes it for an exact value from n · 2^q on and below (n + 1) · 2^q; `c v` says how `v` compares with
the exact value, which need not be rational. -/
def roundedCount (rm : Rm) (c : Rat → Ordering) (n : Nat) (q : Int) : Nat :=
  if c (n * 2 ^ q) = .eq then n
  else
    match rm with
    | .rne =>
      match c (((2 * n + 1 : Nat) : Rat) * 2 ^ (q - 1)) with
      | .lt => n + 1
      | .gt => n
      | .eq => if n % 2 = 1 then n + 1 else n
    | .rup => n + 1
    | .rtz | .rdn => n

/-- The three ways in which a count is taken: the exact value is the lower one, or the mode goes down or up from it. -/
theorem roundedCount_cases (rm : Rm) (c : Rat → Ordering) (n : Nat) (q : Int) :
    (c (n * 2 ^ q) = .eq ∧ roundedCount rm c n q = n) ∨
    (c (n * 2 ^ q) ≠ .eq ∧ roundedCount rm c n q = n ∧ rm ≠ .rup ∧ (rm = .rne →
      c (((2 * n + 1 : Nat) : Rat) * 2 ^ (q - 1)) ≠ .lt ∧ (c (((2 * n + 1 : Nat) : Rat) * 2 ^ (q - 1)) = .eq → n % 2 = 0))) ∨
    (c (n * 2 ^ q) ≠ .eq ∧ roundedCount rm c n q = n + 1 ∧ (rm = .rne ∨ rm = .rup) ∧ (rm = .rne →
      c (((2 * n + 1 : Nat) : Rat) * 2 ^ (q - 1)) ≠ .gt ∧
      (c (((2 * n + 1 : Nat) : Rat) * 2 ^ (q - 1)) = .eq → (n + 1) % 2 = 0))) := by
  unfold roundedCount
  generalize c (n * 2 ^ q) = low
  generalize c (((2 * n + 1 : Nat) : Rat) * 2 ^ (q - 1)) = mid
  by_cases hlow : low = .eq
  · exact .inl ⟨hlow, if_pos hlow⟩
  simp only [if_neg hlow]
  cases rm with
  | rne =>
    cases mid with
    | lt => exact .inr (.inr ⟨hlow, rfl, .inl rfl, fun _ => ⟨nofun, nofun⟩⟩)
    | gt => exact .inr (.inl ⟨hlow, rfl, nofun, fun _ => ⟨nofun, nofun⟩⟩)
    | eq =>
      by_cases hodd : n % 2 = 1
      · exact .inr (.inr ⟨hlow, if_pos hodd, .inl rfl, fun _ => ⟨nofun, fun _ => by omega⟩⟩)
      · exact .inr (.inl ⟨hlow, if_neg hodd, nofun, fun _ => ⟨nofun, fun _ => by omega⟩⟩)
  | rup => exact .inr (.inr ⟨hlow, rfl, .inr rfl, nofun⟩)
  | rtz | rdn => exact .inr (.inl ⟨hlow, rfl, nofun, nofun⟩)

theorem FF.Grid.roundedCount {F : FF} {n : Nat} {q : Int} (h : F.Grid n q) (rm : Rm) (c : Rat → Ordering) :
    F.Count (roundedCount rm c n q) q := by
  rcases roundedCount_cases rm c n q with ⟨-, hr⟩ | ⟨-, hr, -⟩ | ⟨-, hr, -⟩ <;> rw [hr]
  · exact h.low
  · exact h.low
  · exact h.high

/-- The value halfway is the mean of its neighbours. -/
theorem two_mul_halfway (n : Nat) (q : Int) :
    2 * (((2 * n + 1 : Nat) : Rat) * 2 ^ (q - 1)) = n * 2 ^ q + ((n + 1 : Nat) : Rat) * 2 ^ q := by
  have hpred := two_zpow_pred q
  have hcast : ((2 * n + 1 : Nat) : Rat) = n + ((n + 1 : Nat) : Rat) := by
    rw [← Rat.natCast_add]; congr 1; omega
  rw [hcast]
  grind

/-! ## What a mode takes is R73's value -/

/-- A value of the format is its own rounding. -/
theorem roundsTo_self {F : FF} {y : Rat} (rm : Rm) (h : F.Representable y) : RoundsTo F rm y y := by
  refine ⟨h, ?_⟩
  cases rm with
  | rne =>
    intro u _
    rw [Rat.sub_self, magnitude_zero]
    exact ⟨magnitude_nonneg _, fun hne h0 => absurd (by grind [magnitude]) hne⟩
  | rtz => exact ⟨Rat.le_refl, mul_self_nonneg_rat y, fun u _ hu => hu⟩
  | rup => exact ⟨Rat.le_refl, fun u _ hu => hu⟩
  | rdn => exact ⟨Rat.le_refl, fun u _ hu => hu⟩

/-- Neighbours in a format. -/
structure FF.Neighbours (F : FF) (lo hi : Rat) : Prop where
  nonneg : 0 ≤ lo
  lt : lo < hi
  low : F.Representable lo
  high : F.Representable hi
  gap : ∀ u, F.Representable u → u ≤ lo ∨ hi ≤ u

theorem FF.Grid.neighbours {F : FF} {n : Nat} {q : Int} (h : F.Grid n q) :
    F.Neighbours (n * 2 ^ q) (((n + 1 : Nat) : Rat) * 2 ^ q) where
  nonneg := natCast_mul_nonneg n q
  lt := (natCast_mul_lt_iff n (n + 1) q).mpr n.lt_succ_self
  low := h.low.representable
  high := h.high.representable
  gap _ hu := h.gap hu

section
variable {F : FF} {lo hi y : Rat} (h : F.Neighbours lo hi)
include h

/-- A value of the format that does not exceed one below `hi` does not exceed `lo`. -/
theorem FF.Neighbours.le_low {u : Rat} (hu : F.Representable u) (hlt : u < hi) : u ≤ lo :=
  (h.gap u hu).resolve_right (Rat.not_le.mpr hlt)

theorem FF.Neighbours.high_le {u : Rat} (hu : F.Representable u) (hlt : lo < u) : hi ≤ u :=
  (h.gap u hu).resolve_left (Rat.not_le.mpr hlt)

theorem FF.Neighbours.roundsTo_low (rm : Rm) (hlo : lo < y) (hhi : y < hi) (hrup : rm ≠ .rup)
    (hrne : rm = .rne → 2 * y ≤ lo + hi ∧ (2 * y = lo + hi → F.EndsInZero lo)) : RoundsTo F rm y lo := by
  refine ⟨h.low, ?_⟩
  have h0 := h.nonneg
  cases rm with
  | rne =>
    obtain ⟨hmid, htie⟩ := hrne rfl
    intro u hu
    rw [magnitude_of_nonpos (q := lo - y) (by grind)]
    rcases h.gap u hu with hul | huh
    · rw [magnitude_of_nonpos (by grind)]
      exact ⟨by grind, fun hne heq => absurd (by grind) hne⟩
    · rw [magnitude_of_nonneg (by grind)]
      exact ⟨by grind, fun _ heq => htie (by grind)⟩
  | rtz =>
    have hy : 0 < y := by grind
    rw [magnitude_of_nonneg h0, magnitude_of_nonneg (Rat.le_of_lt hy)]
    refine ⟨Rat.le_of_lt hlo, Rat.mul_nonneg h0 (Rat.le_of_lt hy), fun u hu hle => ?_⟩
    exact h.le_low hu.magnitude (by grind)
  | rup => exact absurd rfl hrup
  | rdn => exact ⟨Rat.le_of_lt hlo, fun u hu hle => h.le_low hu (by grind)⟩

theorem FF.Neighbours.roundsTo_high (rm : Rm) (hlo : lo < y) (hhi : y < hi) (hmode : rm = .rne ∨ rm = .rup)
    (hrne : rm = .rne → lo + hi ≤ 2 * y ∧ (2 * y = lo + hi → F.EndsInZero hi)) : RoundsTo F rm y hi := by
  refine ⟨h.high, ?_⟩
  rcases hmode with rfl | rfl
  · obtain ⟨hmid, htie⟩ := hrne rfl
    intro u hu
    rw [magnitude_of_nonneg (q := hi - y) (by grind)]
    rcases h.gap u hu with hul | huh
    · rw [magnitude_of_nonpos (by grind)]
      exact ⟨by grind, fun _ heq => htie (by grind)⟩
    · rw [magnitude_of_nonneg (by grind)]
      exact ⟨by grind, fun hne heq => absurd (by grind) hne⟩
  · exact ⟨Rat.le_of_lt hhi, fun u hu hle => h.high_le hu (by grind)⟩

/-- The neighbours of a root, compared by their squares. -/
theorem FF.Neighbours.rootRoundsTo_low (rm : Rm) (hlo : lo * lo ≤ y) (hhi : y < hi * hi) (hrup : rm = .rup → y = lo * lo)
    (hrne : rm = .rne → 4 * y ≤ (lo + hi) * (lo + hi) ∧ (4 * y = (lo + hi) * (lo + hi) → F.EndsInZero lo)) :
    RootRoundsTo F rm y lo := by
  have h0 := h.nonneg
  have hlt := h.lt
  have hdown : ∀ u, F.Representable u → 0 ≤ u → u * u ≤ y → u ≤ lo := fun u hu hu0 hle =>
    (h.gap u hu).resolve_right fun hc => by
      have := mul_self_le_mul_self_rat (by grind) hc
      grind
  refine ⟨h.low, h0, ?_⟩
  cases rm with
  | rne =>
    obtain ⟨hmid, htie⟩ := hrne rfl
    intro u hu hu0
    constructor
    · intro hul
      have hsq : (u + lo) * (u + lo) < (lo + lo) * (lo + lo) := mul_self_lt_mul_self_rat (by grind) (by grind)
      exact ⟨by grind, fun heq => absurd heq (by grind)⟩
    · intro hlu
      have huh := h.high_le hu hlu
      have hsq : (lo + hi) * (lo + hi) ≤ (u + lo) * (u + lo) := mul_self_le_mul_self_rat (by grind) (by grind)
      exact ⟨Rat.le_trans hmid hsq, fun heq => htie (Rat.le_antisymm hmid (heq ▸ hsq))⟩
  | rtz | rdn => exact ⟨hlo, hdown⟩
  | rup =>
    refine ⟨hrup rfl ▸ Rat.le_refl, fun u _ hu0 hle => Rat.not_lt.mp fun hc => ?_⟩
    have := mul_self_lt_mul_self_rat hu0 hc
    grind

theorem FF.Neighbours.rootRoundsTo_high (rm : Rm) (hlo : lo * lo < y) (hhi : y < hi * hi) (hmode : rm = .rne ∨ rm = .rup)
    (hrne : rm = .rne → (lo + hi) * (lo + hi) ≤ 4 * y ∧ (4 * y = (lo + hi) * (lo + hi) → F.EndsInZero hi)) :
    RootRoundsTo F rm y hi := by
  have h0 := h.nonneg
  have hlt := h.lt
  refine ⟨h.high, by grind, ?_⟩
  rcases hmode with rfl | rfl
  · obtain ⟨hmid, htie⟩ := hrne rfl
    intro u hu hu0
    constructor
    · intro huh
      have hul := h.le_low hu huh
      have hsq : (u + hi) * (u + hi) ≤ (lo + hi) * (lo + hi) := mul_self_le_mul_self_rat (by grind) (by grind)
      exact ⟨Rat.le_trans hsq hmid, fun heq => htie (Rat.le_antisymm (heq ▸ hsq) hmid)⟩
    · intro hhu
      have hsq : (hi + hi) * (hi + hi) < (u + hi) * (u + hi) := mul_self_lt_mul_self_rat (by grind) (by grind)
      exact ⟨by grind, fun heq => absurd heq (by grind)⟩
  · refine ⟨Rat.le_of_lt hhi, fun u hu hu0 hle => (h.gap u hu).resolve_left fun hc => ?_⟩
    have := mul_self_le_mul_self_rat hu0 hc
    grind

end

/-- The count that a mode takes is the rounding of the exact value. -/
theorem FF.Grid.roundsTo {F : FF} {n : Nat} {q : Int} {y : Rat} (h : F.Grid n q) (rm : Rm)
    (hlo : ratOrder ((n : Rat) * 2 ^ q) y ≠ .gt) (hhi : ratOrder (((n + 1 : Nat) : Rat) * 2 ^ q) y = .gt) :
    RoundsTo F rm y (Machine.roundedCount rm (ratOrder · y) n q * 2 ^ q) := by
  have hcases := roundedCount_cases rm (ratOrder · y) n q
  have hmid := two_mul_halfway n q
  simp only [ne_eq, ratOrder_eq_eq, ratOrder_eq_lt, ratOrder_eq_gt, Rat.not_lt] at hcases hlo hhi
  rcases hcases with ⟨heq, hr⟩ | ⟨hne, hr, hmode, hrne⟩ | ⟨hne, hr, hmode, hrne⟩ <;> rw [hr]
  · exact heq ▸ roundsTo_self rm h.low.representable
  · refine h.neighbours.roundsTo_low rm (Rat.lt_of_le_of_ne hlo hne) hhi hmode fun hm => ?_
    obtain ⟨hle, heven⟩ := hrne hm
    exact ⟨by grind, fun hy => h.low.endsInZero (heven (by grind))⟩
  · refine h.neighbours.roundsTo_high rm (Rat.lt_of_le_of_ne hlo hne) hhi hmode fun hm => ?_
    obtain ⟨hle, heven⟩ := hrne hm
    exact ⟨by grind, fun hy => h.high.endsInZero (heven (by grind))⟩

/-- The same of a square root, with which a value is compared by its square. -/
theorem FF.Grid.rootRoundsTo {F : FF} {n : Nat} {q : Int} {y : Rat} (h : F.Grid n q) (rm : Rm)
    (hlo : ratOrder ((n : Rat) * 2 ^ q * (n * 2 ^ q)) y ≠ .gt)
    (hhi : ratOrder (((n + 1 : Nat) : Rat) * 2 ^ q * (((n + 1 : Nat) : Rat) * 2 ^ q)) y = .gt) :
    RootRoundsTo F rm y (Machine.roundedCount rm (fun v => ratOrder (v * v) y) n q * 2 ^ q) := by
  have hcases := roundedCount_cases rm (fun v => ratOrder (v * v) y) n q
  have hmid := two_mul_halfway n q
  simp only [ne_eq, ratOrder_eq_eq, ratOrder_eq_lt, ratOrder_eq_gt, Rat.not_lt] at hcases hlo hhi
  have hnb := h.neighbours
  generalize ((2 * n + 1 : Nat) : Rat) * 2 ^ (q - 1) = mid at *
  have hsq : 4 * (mid * mid) = (n * 2 ^ q + ((n + 1 : Nat) : Rat) * 2 ^ q) * (n * 2 ^ q + ((n + 1 : Nat) : Rat) * 2 ^ q) := by
    rw [← hmid]; grind
  rcases hcases with ⟨heq, hr⟩ | ⟨hne, hr, hmode, hrne⟩ | ⟨hne, hr, hmode, hrne⟩ <;> rw [hr]
  · have hlow : ((n : Rat) * 2 ^ q + n * 2 ^ q) * (n * 2 ^ q + n * 2 ^ q) < 4 * (mid * mid) := by
      have h0 := hnb.nonneg
      have hlt := hnb.lt
      exact hsq ▸ mul_self_lt_mul_self_rat (by grind) (by grind)
    exact hnb.rootRoundsTo_low rm hlo hhi (fun _ => heq.symm) fun _ => ⟨by grind, fun hc => absurd hc (by grind)⟩
  · refine hnb.rootRoundsTo_low rm hlo hhi (fun hm => absurd hm hmode) fun hm => ?_
    obtain ⟨hle, heven⟩ := hrne hm
    exact ⟨by grind, fun hc => h.low.endsInZero (heven (by grind))⟩
  · refine hnb.rootRoundsTo_high rm (Rat.lt_of_le_of_ne hlo hne) hhi hmode fun hm => ?_
    obtain ⟨hle, heven⟩ := hrne hm
    exact ⟨by grind, fun hc => h.high.endsInZero (heven (by grind))⟩

/-- R73's modes seen from the other side of zero. -/
theorem RoundsTo.withSign {F : FF} {rm : Rm} {y v : Rat} (neg : Bool) (h : RoundsTo F (magnitudeMode neg rm) y v) :
    RoundsTo F rm (withSign neg y) (withSign neg v) := by
  cases neg with
  | false => cases rm <;> exact h
  | true =>
    obtain ⟨hrep, hmode⟩ := h
    refine ⟨hrep.neg, ?_⟩
    have hdist : ∀ a b : Rat, magnitude (-a - b) = magnitude (a - -b) := fun a b => by
      rw [← magnitude_neg]; congr 1; grind
    simp only [withSign_true]
    cases rm with
    | rne =>
      intro u hu
      obtain ⟨hle, htie⟩ := hmode (-u) hu.neg
      rw [hdist u] at hle htie
      rw [hdist v, Rat.neg_neg]
      exact ⟨hle, fun hne heq => (htie (fun hc => hne (by grind)) heq).neg⟩
    | rtz =>
      obtain ⟨hle, hsign, hmax⟩ := hmode
      rw [magnitude_neg, magnitude_neg, Rat.neg_mul, Rat.mul_neg, Rat.neg_neg]
      exact ⟨hle, hsign, fun u hu hle' => hmax u hu hle'⟩
    | rup => exact ⟨Rat.neg_le_neg hmode.1, fun u hu hle => Rat.neg_le_iff.mp (hmode.2 (-u) hu.neg (Rat.neg_le_iff.mp hle))⟩
    | rdn => exact ⟨Rat.neg_le_neg hmode.1, fun u hu hle => Rat.le_neg_iff.mp (hmode.2 (-u) hu.neg (Rat.le_neg_iff.mp hle))⟩

/-! ## Patterns and their values (R70, R74) -/

theorem overflow_eq (F : FF) (rm : Rm) (neg : Bool) : overflow F rm neg = F.overflows rm neg := by
  cases F <;> cases rm <;> cases neg <;> rfl

/-- The magnitude bits of a count of 2^q: the exponent field is that of the count's binade, and a carry into the next one adds one to it. -/
def magnitudeBits (F : FF) (n : Nat) (q : Int) : Nat :=
  if n < 2 ^ F.man then n else (q + F.man + F.bias).toNat * 2 ^ F.man + (n - 2 ^ F.man)

/-- The pattern of magnitude bits with a sign, with R74's table above the largest finite value. -/
def signedPattern (F : FF) (rm : Rm) (neg : Bool) (k : Nat) : Nat :=
  if k > F.maxFin then F.overflows rm neg else F.sign neg + k

theorem FF.maxFin_lt (F : FF) : F.maxFin < 2 ^ (F.width - 1) := by cases F <;> decide

theorem sign_eq (F : FF) (neg : Bool) : F.sign neg = 2 ^ F.man * (2 ^ F.ebits * b2n neg) := by
  cases F <;> cases neg <;> rfl

/-- The three fields of a pattern (R70). -/
theorem man_field (F : FF) (neg : Bool) (k : Nat) : bits (F.sign neg + k) 0 F.man = k % 2 ^ F.man := by
  rw [bits, sign_eq, Nat.pow_zero, Nat.div_one, Nat.mul_add_mod]

theorem exp_field (F : FF) (neg : Bool) {k : Nat} (hk : k < 2 ^ (F.width - 1)) :
    bits (F.sign neg + k) F.man F.ebits = k / 2 ^ F.man := by
  have hexp : k / 2 ^ F.man < 2 ^ F.ebits := Nat.div_lt_of_lt_mul (by cases F <;> exact hk)
  rw [bits, sign_eq, Nat.mul_add_div (Nat.two_pow_pos _), Nat.mul_add_mod, Nat.mod_eq_of_lt hexp]

theorem sign_field (F : FF) (neg : Bool) {k : Nat} (hk : k < 2 ^ (F.width - 1)) :
    bits (F.sign neg + k) (F.width - 1) 1 = b2n neg := by
  have hsign : F.sign neg = 2 ^ (F.width - 1) * b2n neg := by
    cases neg
    · rfl
    · exact (Nat.mul_one _).symm
  rw [bits, hsign, Nat.mul_add_div (Nat.two_pow_pos _), Nat.div_eq_of_lt hk]
  cases neg <;> rfl

/-- The exponent field of a finite pattern is not the top one, except in E4M3, where the one NaN lies above 448 (R70). -/
theorem exp_ne_top {F : FF} (hF : F ≠ .e4m3) {k : Nat} (hk : k ≤ F.maxFin) : k / 2 ^ F.man ≠ 2 ^ F.ebits - 1 := by
  have hle := Nat.div_le_div_right (c := 2 ^ F.man) hk
  have htop : F.maxFin / 2 ^ F.man < 2 ^ F.ebits - 1 := by
    cases F with
    | e4m3 => exact absurd rfl hF
    | f32 | bf16 | e5m2 => decide
  omega

theorem nan_pattern_gt {k : Nat} (hk : k ≤ FF.maxFin .e4m3) (htop : k / 2 ^ FF.man .e4m3 = 2 ^ FF.ebits .e4m3 - 1)
    (hman : k % 2 ^ FF.man .e4m3 = 7) : False := by
  simp only [FF.maxFin, FF.man, FF.ebits] at *; omega

/-- A pattern up to the largest finite one denotes a subnormal or a normal number (R70). -/
theorem widen_finite (F : FF) (neg : Bool) {k : Nat} (hk : k ≤ F.maxFin) :
    widen F (F.sign neg + k) =
      if k < 2 ^ F.man then .fin neg k F.minExp
      else .fin neg (k % 2 ^ F.man + 2 ^ F.man) ((k / 2 ^ F.man : Nat) - 1 + F.minExp) := by
  have hlt := Nat.lt_of_le_of_lt hk F.maxFin_lt
  have hsign : decide (b2n neg = 1) = neg := by cases neg <;> rfl
  simp only [widen, sign_field F neg hlt, man_field, exp_field F neg hlt, hsign]
  by_cases hsub : k < 2 ^ F.man
  · have hexp : k / 2 ^ F.man = 0 := Nat.div_eq_of_lt hsub
    rw [if_pos hsub, hexp, Nat.mod_eq_of_lt hsub]
    cases F <;> rfl
  · have hexp : k / 2 ^ F.man ≠ 0 := fun h => hsub ((Nat.div_eq_zero_iff_lt (Nat.two_pow_pos _)).mp h)
    have hunit : ((k / 2 ^ F.man : Nat) : Int) - F.bias - F.man = (k / 2 ^ F.man : Nat) - 1 + F.minExp := by
      unfold FF.minExp; omega
    rw [if_neg hsub, if_neg hexp, hunit]
    cases F with
    | e4m3 => exact if_neg fun h => nan_pattern_gt hk h.1 h.2
    | f32 | bf16 | e5m2 => exact if_neg (exp_ne_top (by decide) hk)

/-- The pattern of an infinity (R70), or the finite one that stands for it in E4M3 (R74), has the sign that it is given. -/
theorem neg_widen_inf (F : FF) (neg : Bool) : (widen F (F.sign neg + F.inf)).neg = neg := by
  cases F <;> cases neg <;> rfl

theorem neg_widen_overflows (F : FF) (rm : Rm) (neg : Bool) : (widen F (F.overflows rm neg)).neg = neg := by
  cases F <;> cases rm <;> cases neg <;> rfl

theorem neg_widen_signedPattern (F : FF) (rm : Rm) (neg : Bool) (k : Nat) :
    (widen F (signedPattern F rm neg k)).neg = neg := by
  unfold signedPattern
  split
  next => exact neg_widen_overflows F rm neg
  next hk => rw [widen_finite F neg (Nat.not_lt.mp hk)]; split <;> rfl

section
variable {F : FF} {n : Nat} {q : Int} (h : F.Count n q)
include h

/-- The magnitude bits of a count denote it. -/
theorem FF.Count.widen (neg : Bool) (hk : magnitudeBits F n q ≤ F.maxFin) :
    ∃ m e, Machine.widen F (F.sign neg + magnitudeBits F n q) = .fin neg m e ∧ (m : Rat) * 2 ^ e = n * 2 ^ q := by
  rw [widen_finite F neg hk]
  obtain ⟨hleast, hle, hfull⟩ := h
  have hpos := Nat.two_pow_pos F.man
  have hsucc : 2 ^ (F.man + 1) = 2 * 2 ^ F.man := by rw [Nat.pow_succ, Nat.mul_comm]
  unfold magnitudeBits
  by_cases hsub : n < 2 ^ F.man
  · obtain rfl : q = F.minExp := hfull.resolve_left (by omega)
    rw [if_pos hsub, if_pos hsub]
    exact ⟨n, _, rfl, rfl⟩
  have hfield : ((q + F.man + F.bias).toNat : Int) = q - F.minExp + 1 := by unfold FF.minExp at *; omega
  have hge : 2 ^ F.man ≤ (q + F.man + F.bias).toNat * 2 ^ F.man := Nat.le_mul_of_pos_left _ (by omega)
  rw [if_neg hsub, if_neg (by omega), Nat.mul_comm, Nat.mul_add_mod, Nat.mul_add_div hpos]
  refine ⟨_, _, rfl, ?_⟩
  rcases Nat.lt_or_ge n (2 ^ (F.man + 1)) with hlt | hcarry
  · have hrest : n - 2 ^ F.man < 2 ^ F.man := by omega
    rw [Nat.mod_eq_of_lt hrest, Nat.div_eq_of_lt hrest, Nat.add_zero, Nat.sub_add_cancel (by omega)]
    rw [show (((q + F.man + F.bias).toNat : Nat) : Int) - 1 + F.minExp = q by omega]
  · have hcarried : n = 2 ^ F.man * 2 ^ 1 := by omega
    have hrest : 2 ^ F.man * 2 ^ 1 - 2 ^ F.man = 2 ^ F.man := by omega
    have hexp : (((q + F.man + F.bias).toNat + 1 : Nat) : Int) - 1 + F.minExp = q + ((1 : Nat) : Int) := by omega
    rw [hcarried, hrest, Nat.mod_self, Nat.div_self hpos, hexp, natCast_mul_two_zpow, Nat.zero_add]

end

/-- The count and the unit of the largest finite value. -/
theorem FF.largest_eq (F : FF) :
    F.largest = ((F.maxFin % 2 ^ F.man + 2 ^ F.man : Nat) : Rat) * 2 ^ (((F.maxFin / 2 ^ F.man : Nat) : Int) - 1 + F.minExp) := by
  cases F <;> decide +kernel

/-- The magnitude bits lie above the largest finite pattern where the count's value lies above the largest finite value. -/
theorem FF.Count.maxFin_lt_iff {F : FF} {n : Nat} {q : Int} (h : F.Count n q) :
    F.maxFin < magnitudeBits F n q ↔ F.largest < n * 2 ^ q := by
  obtain ⟨hleast, hle, hfull⟩ := h
  rw [F.largest_eq]
  have hpos := Nat.two_pow_pos F.man
  have hsucc : 2 ^ (F.man + 1) = 2 * 2 ^ F.man := by rw [Nat.pow_succ, Nat.mul_comm]
  have hsplit := Nat.div_add_mod' F.maxFin (2 ^ F.man)
  have hrest := Nat.mod_lt F.maxFin hpos
  have hnormal : 1 ≤ F.maxFin / 2 ^ F.man := by cases F <;> decide
  have hE : ((q + F.man + F.bias).toNat : Int) = q - F.minExp + 1 := by unfold FF.minExp at *; omega
  unfold magnitudeBits
  generalize F.maxFin / 2 ^ F.man = E at *
  generalize F.maxFin % 2 ^ F.man = f at *
  generalize (q + F.man + F.bias).toNat = e at *
  generalize 2 ^ F.man = P at *
  generalize hQ : (E : Int) - 1 + F.minExp = Q
  rcases Int.lt_trichotomy q Q with hlt | rfl | hgt
  · have heE : (e + 1) * P ≤ E * P := Nat.mul_le_mul_right P (by omega)
    have hval : (n : Rat) * 2 ^ q ≤ ((f + P : Nat) : Rat) * 2 ^ Q := by
      rw [two_zpow_split (Int.le_of_lt hlt), ← Rat.mul_assoc, ← Rat.natCast_mul, natCast_mul_le_iff]
      have htwo : 2 ^ 1 ≤ 2 ^ (Q - q).toNat := Nat.pow_le_pow_right (by decide) (by omega)
      have := Nat.mul_le_mul (show P ≤ f + P by omega) htwo
      omega
    refine iff_of_false (Nat.not_lt.mpr ?_) (Rat.not_lt.mpr hval)
    rw [Nat.succ_mul] at heE
    split <;> omega
  · have heE : e = E := by omega
    rw [natCast_mul_lt_iff, heE]
    have : P ≤ E * P := Nat.le_mul_of_pos_left P (by omega)
    split <;> omega
  · have hn : P ≤ n := hfull.resolve_right (by omega)
    have heE : (E + 1) * P ≤ e * P := Nat.mul_le_mul_right P (by omega)
    have hval : ((f + P : Nat) : Rat) * 2 ^ Q < n * 2 ^ q := by
      rw [two_zpow_split (Int.le_of_lt hgt), ← Rat.mul_assoc, ← Rat.natCast_mul, natCast_mul_lt_iff]
      have htwo : 2 ^ 1 ≤ 2 ^ (q - Q).toNat := Nat.pow_le_pow_right (by decide) (by omega)
      have := Nat.mul_le_mul hn htwo
      omega
    refine iff_of_true ?_ hval
    rw [Nat.succ_mul] at heE
    rw [if_neg (by omega)]; omega

/-- R74 on a count of 2^q: its value with a sign, or the table's where it lies above the largest finite one. -/
theorem FF.Count.resultIs {F : FF} {n : Nat} {q : Int} (h : F.Count n q) (rm : Rm) (neg : Bool) :
    ResultIs F rm neg (withSign neg (n * 2 ^ q)) (signedPattern F rm neg (magnitudeBits F n q)) := by
  have habs : magnitude (withSign neg (n * 2 ^ q)) = n * 2 ^ q := by
    rw [magnitude_withSign]; exact magnitude_of_nonneg (natCast_mul_nonneg n q)
  unfold ResultIs
  rw [habs, ← h.maxFin_lt_iff, ← Rat.not_lt, ← h.maxFin_lt_iff, Nat.not_lt]
  constructor
  · intro hk
    obtain ⟨m, e, hw, hval⟩ := h.widen neg hk
    rw [signedPattern, if_neg (Nat.not_lt.mpr hk), hw, FVal.rat_fin, hval]
    exact ⟨rfl, rfl, rfl⟩
  · exact fun hk => if_pos hk

/-! ## The model's rounding (R73) -/

/-- A shift to the right takes the count of its mode. -/
theorem roundShift_eq (rm : Rm) (neg : Bool) (m sh : Nat) (e : Int) :
    roundShift rm neg m sh = roundedCount (magnitudeMode neg rm) (ratOrder · ((m : Rat) * 2 ^ e)) (m / 2 ^ sh) (e + sh) := by
  have hdiv := Nat.div_add_mod' m (2 ^ sh)
  have hlow : ratOrder (((m / 2 ^ sh : Nat) : Rat) * 2 ^ (e + (sh : Int))) (m * 2 ^ e) = natOrder (m / 2 ^ sh * 2 ^ sh) m := by
    rw [← natCast_mul_two_zpow, ratOrder_scaled]
  have hmid : ratOrder (((2 * (m / 2 ^ sh) + 1 : Nat) : Rat) * 2 ^ (e + (sh : Int) - 1)) (m * 2 ^ e) =
      natOrder ((2 * (m / 2 ^ sh) + 1) * 2 ^ sh) (m * 2 ^ 1) := by
    rw [← ratOrder_scaled _ _ (e - 1), natCast_mul_two_zpow, natCast_mul_two_zpow, show e - 1 + (sh : Int) = e + sh - 1 by omega,
      show e - 1 + ((1 : Nat) : Int) = e by omega]
  simp only [roundShift, roundedCount, hlow, hmid]
  generalize m / 2 ^ sh = n at *
  generalize m % 2 ^ sh = r at *
  have hexact : natOrder (n * 2 ^ sh) m = .eq ↔ r = 0 := by rw [natOrder_eq_eq]; omega
  have hdouble : (2 * n + 1) * 2 ^ sh = 2 * (n * 2 ^ sh) + 2 ^ sh := by rw [Nat.succ_mul, Nat.mul_assoc]
  simp only [hexact]
  by_cases hr : r = 0
  · have := Nat.two_pow_pos sh
    cases rm <;> simp [hr, Nat.ne_of_lt this]
  simp only [hr, if_false]
  cases rm with
  | rne =>
    rcases Nat.lt_trichotomy (2 ^ sh) (2 * r) with h | h | h
    · rw [natOrder_eq_lt.mpr (by omega)]; simp [magnitudeMode, h]
    · rw [natOrder_eq_eq.mpr (by omega)]; simp [magnitudeMode, h]
    · rw [natOrder_eq_gt.mpr (by omega)]; simp [magnitudeMode, Nat.not_lt.mpr (Nat.le_of_lt h), Nat.ne_of_lt h]
  | rtz => rfl
  | rup | rdn => cases neg <;> simp [magnitudeMode, hr]

theorem fin_pos {m : Nat} (hm : m ≠ 0) (e : Int) : (0 : Rat) < m * 2 ^ e :=
  Rat.mul_pos (Rat.natCast_pos.mpr (Nat.pos_of_ne_zero hm)) (two_zpow_pos e)

/-- A positive value lies in the binade of its leading bit. -/
theorem binade_of_fin {m : Nat} (hm : m ≠ 0) (e : Int) :
    (2 : Rat) ^ (e + (Nat.log2 m : Int)) ≤ m * 2 ^ e ∧ (m : Rat) * 2 ^ e < 2 ^ (e + (Nat.log2 m : Int) + 1) := by
  rw [Int.add_assoc, ← Int.natCast_succ, two_zpow_add_nat, two_zpow_add_nat, natCast_mul_le_iff, natCast_mul_lt_iff]
  exact ⟨Nat.log2_self_le hm, Nat.lt_log2_self⟩

/-- The unit in which a positive value of the binade of its leading bit is counted (R73). -/
def roundingUnit (F : FF) (m : Nat) (e : Int) : Int :=
  (if e + (Nat.log2 m : Int) < 1 - (F.bias : Int) then 1 - (F.bias : Int) else e + (Nat.log2 m : Int)) - F.man

/-- m · 2^e counted in units of 2^q, rounded in a mode. -/
def countIn (rm : Rm) (neg : Bool) (m : Nat) (e q : Int) : Nat :=
  if q ≤ e then m * 2 ^ (e - q).toNat else roundShift rm neg m (q - e).toNat

/-- The whole units in m · 2^e. -/
def wholeUnits (m : Nat) (e q : Int) : Nat := if q ≤ e then m * 2 ^ (e - q).toNat else m / 2 ^ (q - e).toNat

theorem roundTo_eq (F : FF) (rm : Rm) (neg : Bool) {m : Nat} (hm : m ≠ 0) (e : Int) :
    roundTo F rm (.fin neg m e) =
      signedPattern F rm neg (magnitudeBits F (countIn rm neg m e (roundingUnit F m e)) (roundingUnit F m e)) := by
  simp only [roundTo, if_neg hm, overflow_eq]
  rfl

theorem wholeUnits_le (m : Nat) (e q : Int) : (wholeUnits m e q : Rat) * 2 ^ q ≤ m * 2 ^ e := by
  unfold wholeUnits
  split
  next h =>
    have heq : ((m * 2 ^ (e - q).toNat : Nat) : Rat) * 2 ^ q = m * 2 ^ e := by
      rw [natCast_mul_two_zpow, show q + ((e - q).toNat : Int) = e by omega]
    exact heq ▸ Rat.le_refl
  next h =>
    rw [two_zpow_split (Int.le_of_lt (Int.not_le.mp h)), ← Rat.mul_assoc, ← Rat.natCast_mul, natCast_mul_le_iff]
    exact Nat.div_mul_le_self _ _

theorem lt_wholeUnits_succ (m : Nat) (e q : Int) : (m : Rat) * 2 ^ e < ((wholeUnits m e q + 1 : Nat) : Rat) * 2 ^ q := by
  unfold wholeUnits
  split
  next h =>
    rw [two_zpow_split h, ← Rat.mul_assoc, ← Rat.natCast_mul, natCast_mul_lt_iff]
    exact Nat.lt_succ_self _
  next h =>
    rw [two_zpow_split (Int.le_of_lt (Int.not_le.mp h)), ← Rat.mul_assoc, ← Rat.natCast_mul, natCast_mul_lt_iff]
    exact Nat.lt_mul_of_div_lt (Nat.lt_succ_self _) (Nat.two_pow_pos _)

theorem countIn_eq (rm : Rm) (neg : Bool) (m : Nat) (e q : Int) :
    countIn rm neg m e q = roundedCount (magnitudeMode neg rm) (ratOrder · ((m : Rat) * 2 ^ e)) (wholeUnits m e q) q := by
  unfold countIn wholeUnits
  split
  next h =>
    refine (if_pos ?_).symm
    rw [ratOrder_eq_eq, natCast_mul_two_zpow, show q + ((e - q).toNat : Int) = e by omega]
  next h =>
    rw [roundShift_eq rm neg m _ e]
    rw [show e + ((q - e).toNat : Int) = q by omega]

/-- R73: a nonzero exact value is rounded to the count of its mode in the unit of its binade. -/
theorem roundTo_fin (F : FF) (rm : Rm) (neg : Bool) {m : Nat} (hm : m ≠ 0) (e : Int) :
    let c := (ratOrder · ((m : Rat) * 2 ^ e))
    ∃ n q, F.Grid n q ∧ e + (Nat.log2 m : Int) ≤ q + F.man ∧ c (n * 2 ^ q) ≠ .gt ∧ c (((n + 1 : Nat) : Rat) * 2 ^ q) = .gt ∧
      roundTo F rm (.fin neg m e) =
        signedPattern F rm neg (magnitudeBits F (roundedCount (magnitudeMode neg rm) c n q) q) := by
  intro c
  obtain ⟨hex, hex'⟩ := binade_of_fin hm e
  have hlo := wholeUnits_le m e (roundingUnit F m e)
  have hhi := lt_wholeUnits_succ m e (roundingUnit F m e)
  refine ⟨wholeUnits m e (roundingUnit F m e), roundingUnit F m e, ?_, ?_, ?_, ratOrder_eq_gt.mpr hhi, ?_⟩
  · refine FF.grid_of_binade ?_ hlo hhi hex hex'
    unfold roundingUnit; split <;> omega
  · unfold roundingUnit; split <;> omega
  · exact ratOrder_ne_gt.mpr hlo
  · rw [roundTo_eq F rm neg hm, countIn_eq]

/-- `c` compares the multiples of 2^s as `x` does. -/
def AgreesOn (c : Rat → Ordering) (x : Rat) (s : Int) : Prop := ∀ i : Nat, c ((i : Rat) * 2 ^ s) = ratOrder ((i : Rat) * 2 ^ s) x

theorem AgreesOn.of_le {c : Rat → Ordering} {x : Rat} {s : Int} (h : AgreesOn c x s) (n : Nat) {q : Int} (hq : s ≤ q) :
    c ((n : Rat) * 2 ^ q) = ratOrder ((n : Rat) * 2 ^ q) x := by
  rw [two_zpow_split hq, ← Rat.mul_assoc, ← Rat.natCast_mul]
  exact h _

/-- R73 for an exact value that is known by its comparisons: the model rounds m · 2^e, which lies among the multiples of 2^s as the
exact value does, and those are finer than half the unit of its binade. -/
theorem roundTo_of_agreesOn (F : FF) (rm : Rm) (neg : Bool) {m : Nat} (hm : m ≠ 0) {e s : Int} {c : Rat → Ordering}
    (h : AgreesOn c (m * 2 ^ e) s) (hs : s + F.man < e + (Nat.log2 m : Int)) :
    ∃ n q, F.Grid n q ∧ c (n * 2 ^ q) ≠ .gt ∧ c (((n + 1 : Nat) : Rat) * 2 ^ q) = .gt ∧
      roundTo F rm (.fin neg m e) =
        signedPattern F rm neg (magnitudeBits F (roundedCount (magnitudeMode neg rm) c n q) q) := by
  obtain ⟨n, q, hgrid, hq, hlo, hhi, hround⟩ := roundTo_fin F rm neg hm e
  refine ⟨n, q, hgrid, ?_, ?_, ?_⟩
  · rwa [h.of_le n (by omega)]
  · rwa [h.of_le (n + 1) (by omega)]
  · rw [hround]
    simp only [roundedCount, h.of_le n (by omega : s ≤ q), h.of_le (2 * n + 1) (by omega : s ≤ q - 1)]

/-- R73 for a nonzero exact value (-1)^neg · y that `roundTo` is given by its comparisons. -/
theorem roundTo_count (F : FF) (rm : Rm) (neg : Bool) {m : Nat} (hm : m ≠ 0) {e s : Int} {y : Rat}
    (h : AgreesOn (ratOrder · y) (m * 2 ^ e) s) (hs : s + F.man < e + (Nat.log2 m : Int)) :
    ∃ n q, F.Count n q ∧ RoundsTo F rm (withSign neg y) (withSign neg (n * 2 ^ q)) ∧
      roundTo F rm (.fin neg m e) = signedPattern F rm neg (magnitudeBits F n q) := by
  obtain ⟨n, q, hgrid, hlo, hhi, hround⟩ := roundTo_of_agreesOn F rm neg hm h hs
  exact ⟨_, q, hgrid.roundedCount _ _, (hgrid.roundsTo _ hlo hhi).withSign neg, hround⟩

theorem roundTo_roundsTo (F : FF) (rm : Rm) (neg : Bool) {m : Nat} (hm : m ≠ 0) {e s : Int} {y : Rat}
    (h : AgreesOn (ratOrder · y) (m * 2 ^ e) s) (hs : s + F.man < e + (Nat.log2 m : Int)) :
    ∃ u, RoundsTo F rm (withSign neg y) u ∧ ResultIs F rm neg u (roundTo F rm (.fin neg m e)) := by
  obtain ⟨n, q, hcount, hu, hround⟩ := roundTo_count F rm neg hm h hs
  exact ⟨_, hu, hround ▸ hcount.resultIs rm neg⟩

theorem roundTo_rootRoundsTo (F : FF) (rm : Rm) {m : Nat} (hm : m ≠ 0) {e s : Int} {y : Rat}
    (h : AgreesOn (fun v => ratOrder (v * v) y) (m * 2 ^ e) s) (hs : s + F.man < e + (Nat.log2 m : Int)) :
    ∃ u, RootRoundsTo F rm y u ∧ ResultIs F rm false u (roundTo F rm (.fin false m e)) := by
  obtain ⟨n, q, hgrid, hlo, hhi, hround⟩ := roundTo_of_agreesOn F rm false hm h hs
  have hmode : magnitudeMode false rm = rm := by cases rm <;> rfl
  rw [hround, hmode]
  exact ⟨_, hgrid.rootRoundsTo _ hlo hhi, (hgrid.roundedCount _ _).resultIs rm false⟩

/-- A value's own comparisons, at any unit. -/
theorem agreesOn_self (x : Rat) (s : Int) : AgreesOn (ratOrder · x) x s := fun _ => rfl

/-- R73 for a nonzero value of the model. -/
theorem roundTo_fin_count (F : FF) (rm : Rm) (neg : Bool) {m : Nat} (hm : m ≠ 0) (e : Int) :
    ∃ n q, F.Count n q ∧ RoundsTo F rm (FVal.fin neg m e).rat (withSign neg (n * 2 ^ q)) ∧
      roundTo F rm (.fin neg m e) = signedPattern F rm neg (magnitudeBits F n q) := by
  rw [FVal.rat_fin]
  exact roundTo_count F rm neg hm (agreesOn_self _ (e - F.man - 1)) (by omega)

theorem roundTo_inf (F : FF) (rm : Rm) (neg : Bool) : roundTo F rm (.inf neg) = F.sign neg + F.inf := rfl
theorem roundTo_nan (F : FF) (rm : Rm) : roundTo F rm .nan = F.canon := rfl
theorem roundTo_zero (F : FF) (rm : Rm) (neg : Bool) (e : Int) : roundTo F rm (.fin neg 0 e) = F.sign neg := rfl

/-- Settles O17: the model's count in the unit of the value's binade lies between neighbours of the format, of which its mode takes
R73's, and R74's table is read off the magnitude bits. -/
theorem roundingIsNearest : Obligations.RoundingIsNearest := by
  unfold Obligations.RoundingIsNearest
  refine ⟨fun F rm neg m e hm => ?_, fun F rm neg => ⟨?_, roundTo_nan F rm⟩⟩
  · obtain ⟨n, q, hcount, hu, hround⟩ := roundTo_fin_count F rm neg hm e
    exact ⟨_, hu, hround ▸ hcount.resultIs rm neg⟩
  · rw [roundTo_inf]
    cases F <;> rfl

/-! ## Exact sums and products (R75) -/

theorem FVal.isFinite_iff (v : FVal) : v.isFinite = true ↔ ∃ neg m e, v = .fin neg m e := by
  cases v <;> simp [FVal.isFinite]

theorem FVal.rat_eq_zero_iff (neg : Bool) (m : Nat) (e : Int) : (FVal.fin neg m e).rat = 0 ↔ m = 0 := by
  rw [FVal.rat_fin, withSign_eq_zero, natCast_mul_eq_zero]

theorem FVal.isZero_iff (neg : Bool) (m : Nat) (e : Int) : (FVal.fin neg m e).isZero = true ↔ (FVal.fin neg m e).rat = 0 := by
  rw [FVal.rat_eq_zero_iff]; cases m <;> simp [FVal.isZero]

theorem FVal.rat_negate (v : FVal) : v.negate.rat = -v.rat := by
  cases v with
  | fin neg m e =>
    rw [FVal.negate, FVal.rat_fin, FVal.rat_fin]
    cases neg
    · rfl
    · exact (Rat.neg_neg _).symm
  | nan | inf => rfl

theorem FVal.isFinite_negate (v : FVal) : v.negate.isFinite = v.isFinite := by cases v <;> rfl

theorem FVal.rat_ofScaled (z : Bool) (n e : Int) : (ofScaled z n e).rat = n * 2 ^ e := by
  unfold ofScaled
  split
  next h => rw [h, (FVal.rat_eq_zero_iff z 0 e).mpr rfl, Rat.intCast_zero, Rat.zero_mul]
  next h =>
    rw [FVal.rat_fin, ← Rat.intCast_natCast]
    by_cases hneg : n < 0
    · rw [decide_eq_true hneg, withSign_true, Int.ofNat_natAbs_of_nonpos (by omega), Rat.intCast_neg, Rat.neg_mul, Rat.neg_neg]
    · rw [decide_eq_false hneg, Int.natAbs_of_nonneg (by omega)]; rfl

/-- A finite value counted in a unit that is no larger than its own. -/
theorem FVal.scaled_mul {v : FVal} (hv : v.isFinite = true) {e0 : Int} (h : e0 ≤ v.exp) :
    (v.scaled e0 : Rat) * 2 ^ e0 = v.rat := by
  obtain ⟨neg, m, e, rfl⟩ := v.isFinite_iff.mp hv
  have hexp : e0 ≤ e := h
  have hscaled : (((m : Int) * (2 : Int) ^ (e - e0).toNat : Int) : Rat) * 2 ^ e0 = m * 2 ^ e := by
    rw [two_zpow_split hexp, Rat.intCast_mul, Rat.intCast_pow, Rat.intCast_natCast, Rat.natCast_pow, Rat.mul_assoc]
    rfl
  rw [FVal.rat_fin, ← hscaled]
  cases neg
  · rfl
  · rw [withSign_true, ← Rat.neg_mul, ← Rat.intCast_neg]; rfl

theorem minExp_cons_cons (v w : FVal) (l : List FVal) :
    minExp (v :: w :: l) = if v.exp < minExp (w :: l) then v.exp else minExp (w :: l) := rfl

theorem minExp_le {l : List FVal} {v : FVal} (hv : v ∈ l) : minExp l ≤ v.exp := by
  induction l with
  | nil => cases hv
  | cons w l ih =>
    cases l with
    | nil =>
      obtain rfl := List.mem_singleton.mp hv
      exact Int.le_refl _
    | cons w' l =>
      rw [minExp_cons_cons]
      rcases List.mem_cons.mp hv with rfl | hmem
      · split <;> omega
      · have := ih hmem
        split <;> omega

/-- The sign of a sum that is zero (R75). -/
def zeroSign (rm : Rm) (l : List FVal) : Bool :=
  if l.all FVal.isZero && l.all (fun v => v.neg) && !l.isEmpty then true
  else if l.all FVal.isZero && l.all (fun v => !v.neg) then false
  else decide (rm = .rdn)

/-- The sum of the values. -/
def ratSum : List FVal → Rat
  | [] => 0
  | v :: l => v.rat + ratSum l

theorem foldl_scaled_mul {e0 : Int} {l : List FVal} (h : ∀ v ∈ l, v.isFinite = true ∧ e0 ≤ v.exp) (a : Int) :
    (((l.map (FVal.scaled e0)).foldl (· + ·) a : Int) : Rat) * 2 ^ e0 = a * 2 ^ e0 + ratSum l := by
  induction l generalizing a with
  | nil => exact (Rat.add_zero _).symm
  | cons v l ih =>
    obtain ⟨hfin, hexp⟩ := h v List.mem_cons_self
    rw [List.map_cons, List.foldl_cons, ih (fun w hw => h w (List.mem_cons_of_mem _ hw)), Rat.intCast_add, Rat.add_mul,
      FVal.scaled_mul hfin hexp, Rat.add_assoc]
    rfl

theorem exactSum_of_finite (rm : Rm) {l : List FVal} (h : ∀ v ∈ l, v.isFinite = true) :
    ∃ n e, exactSum rm l = ofScaled (zeroSign rm l) n e ∧ (n : Rat) * 2 ^ e = ratSum l := by
  have hnone : ∀ p : FVal → Bool, (∀ neg m e, p (.fin neg m e) = false) → l.any p = false := fun p hp => by
    rw [List.any_eq_false]
    intro v hv
    obtain ⟨neg, m, e, rfl⟩ := v.isFinite_iff.mp (h v hv)
    rw [hp]; decide
  refine ⟨((l.map (FVal.scaled (minExp l))).foldl (· + ·) 0), minExp l, ?_, ?_⟩
  · simp only [exactSum, hnone FVal.isNan (fun _ _ _ => rfl), hnone (FVal.isInf _) (fun _ _ _ => rfl)]
    rfl
  · rw [foldl_scaled_mul fun v hv => ⟨h v hv, minExp_le hv⟩, Rat.intCast_zero, Rat.zero_mul, Rat.zero_add]

theorem rat_exactSum (rm : Rm) {l : List FVal} (h : ∀ v ∈ l, v.isFinite = true) :
    (exactSum rm l).rat = ratSum l := by
  obtain ⟨n, e, heq, hval⟩ := exactSum_of_finite rm h
  rw [heq, FVal.rat_ofScaled, hval]

theorem isFinite_exactSum (rm : Rm) {l : List FVal} (h : ∀ v ∈ l, v.isFinite = true) : (exactSum rm l).isFinite = true := by
  obtain ⟨n, e, heq, -⟩ := exactSum_of_finite rm h
  rw [heq, ofScaled]; split <;> rfl

/-- A sum whose exact value is zero rounds to the zero of R75's sign. -/
theorem roundTo_exactSum_zero (F : FF) (rm : Rm) {l : List FVal} (h : ∀ v ∈ l, v.isFinite = true)
    (hsum : ratSum l = 0) : roundTo F rm (exactSum rm l) = F.sign (zeroSign rm l) := by
  obtain ⟨n, e, heq, hval⟩ := exactSum_of_finite rm h
  have hn : n = 0 := by
    rw [hsum, Rat.mul_eq_zero, or_iff_left (Rat.ne_of_gt (two_zpow_pos e))] at hval
    exact Rat.intCast_eq_zero_iff.mp hval
  rw [heq, hn, ofScaled, if_pos rfl, roundTo_zero]

/-- Terms that are not all zeros and cancel leave the mode's zero. -/
theorem zeroSign_of_nonzero (rm : Rm) {l : List FVal} {v : FVal} (hv : v ∈ l) (hfin : v.isFinite = true) (hne : v.rat ≠ 0) :
    zeroSign rm l = decide (rm = .rdn) := by
  have hall : l.all FVal.isZero = false := by
    rw [List.all_eq_false]
    obtain ⟨neg, m, e, rfl⟩ := v.isFinite_iff.mp hfin
    exact ⟨_, hv, fun hz => hne ((FVal.isZero_iff neg m e).mp hz)⟩
  simp only [zeroSign, hall, Bool.false_and, Bool.false_eq_true, if_false]

theorem rat_exactMul {a b : FVal} (ha : a.isFinite = true) (hb : b.isFinite = true) : (exactMul a b).rat = a.rat * b.rat := by
  obtain ⟨n, m, e, rfl⟩ := a.isFinite_iff.mp ha
  obtain ⟨n', m', e', rfl⟩ := b.isFinite_iff.mp hb
  rw [exactMul, FVal.rat_fin, FVal.rat_fin, FVal.rat_fin, Rat.zpow_add two_ne_zero_rat, Rat.natCast_mul]
  cases n <;> cases n' <;> simp only [withSign, bne, BEq.beq] <;> grind

theorem isFinite_exactMul {a b : FVal} (ha : a.isFinite = true) (hb : b.isFinite = true) : (exactMul a b).isFinite = true := by
  obtain ⟨n, m, e, rfl⟩ := a.isFinite_iff.mp ha
  obtain ⟨n', m', e', rfl⟩ := b.isFinite_iff.mp hb
  rfl

theorem neg_exactMul {a b : FVal} (h : exactMul a b ≠ .nan) : (exactMul a b).neg = (a.neg != b.neg) := by
  match a, b with
  | .nan, _ => exact absurd rfl h
  | .inf _, .nan | .fin _ _ _, .nan => exact absurd rfl h
  | .inf _, .inf _ | .fin _ _ _, .fin _ _ _ => rfl
  | .inf _, .fin _ _ _ | .fin _ _ _, .inf _ =>
    simp only [exactMul] at h ⊢
    split at h
    next => exact absurd rfl h
    next hm => rw [if_neg hm]; rfl

/-- Rounding keeps the sign (R72, R73). -/
theorem neg_widen_roundTo (F : FF) (rm : Rm) {v : FVal} (hv : v ≠ .nan) : (widen F (roundTo F rm v)).neg = v.neg := by
  cases v with
  | nan => contradiction
  | inf neg => exact neg_widen_inf F neg
  | fin neg m e =>
    by_cases hm : m = 0
    · rw [hm, roundTo_zero, ← Nat.add_zero (F.sign neg), widen_finite F neg (Nat.zero_le _)]
      split <;> rfl
    · rw [roundTo_eq F rm neg hm, neg_widen_signedPattern]
      rfl

/-! ## Quotients and roots: the sticky bit (R73) -/

/-- A number that lies from f j on and below f (j + 1) is compared with every f i as 2j or, where it is not f j, 2j + 1 with 2i. -/
theorem natOrder_sticky {f : Nat → Nat} (hf : ∀ a b, a < b → f a < f b) {j n : Nat} (hlo : f j ≤ n) (hhi : n < f (j + 1))
    (i : Nat) : natOrder (2 * i) (2 * j + if f j = n then 0 else 1) = natOrder (f i) n := by
  rcases Nat.lt_trichotomy i j with hlt | rfl | hgt
  · have := hf i j hlt
    rw [natOrder_eq_lt.mpr (by omega : f i < n), natOrder_eq_lt]
    split <;> omega
  · by_cases heq : f i = n
    · rw [if_pos heq, natOrder_eq_eq.mpr heq, natOrder_eq_eq, Nat.add_zero]
    · rw [if_neg heq, natOrder_eq_lt.mpr (Nat.lt_of_le_of_ne hlo heq), natOrder_eq_lt]
      omega
  · have hle : f (j + 1) ≤ f i := by
      rcases Nat.eq_or_lt_of_le hgt with heq | hlt
      · exact heq ▸ Nat.le_refl _
      · exact Nat.le_of_lt (hf _ _ hlt)
    rw [natOrder_eq_gt.mpr (by omega : n < f i), natOrder_eq_gt]
    split <;> omega

/-- So a cut that compares the multiples of 2^(t+1) as `f` compares their counts is that of the sticky value. -/
theorem agreesOn_sticky {f : Nat → Nat} (hf : ∀ a b, a < b → f a < f b) {j n : Nat} (hlo : f j ≤ n) (hhi : n < f (j + 1)) {t : Int}
    {c : Rat → Ordering} (hc : ∀ i : Nat, c ((i : Rat) * 2 ^ (t + 1)) = natOrder (f i) n) :
    AgreesOn c ((2 * j + if f j = n then 0 else 1 : Nat) * 2 ^ t) (t + 1) := by
  intro i
  have hi : (i : Rat) * 2 ^ (t + 1) = ((i * 2 ^ 1 : Nat) : Rat) * 2 ^ t := (natCast_mul_two_zpow i t 1).symm
  rw [hc, ← natOrder_sticky hf hlo hhi, hi, ratOrder_scaled, Nat.pow_one, Nat.mul_comm i 2]

/-! ## Quotients -/

theorem withSign_div (n n' : Bool) (x y : Rat) :
    withSign n x / withSign n' y = withSign (n != n') (x / y) := by
  cases n <;> cases n' <;> simp only [withSign, bne, BEq.beq] <;> grind

/-- The quotient that the model forms has 80 bits or more. -/
theorem two_pow_le_quotient {m m' : Nat} (hm : m ≠ 0) (hm' : m' ≠ 0) : 2 ^ 79 ≤ m * 2 ^ (80 + Nat.log2 m') / m' := by
  rw [Nat.le_div_iff_mul_le (Nat.pos_of_ne_zero hm')]
  calc 2 ^ 79 * m' ≤ 2 ^ 79 * 2 ^ (Nat.log2 m' + 1) := Nat.mul_le_mul_left _ (Nat.le_of_lt Nat.lt_log2_self)
    _ = 2 ^ (80 + Nat.log2 m') := by rw [← Nat.pow_add]; congr 1; omega
    _ ≤ m * 2 ^ (80 + Nat.log2 m') := Nat.le_mul_of_pos_left _ (Nat.pos_of_ne_zero hm)

/-- A sticky value of at least 61 bits is fine enough for the rounding of every format. -/
theorem sticky_log2 (F : FF) {j b : Nat} (hj : 2 ^ 60 ≤ j) (t : Int) :
    2 * j + b ≠ 0 ∧ t + 1 + F.man < t + (Nat.log2 (2 * j + b) : Int) := by
  have hne : 2 * j + b ≠ 0 := by omega
  have hlog : 61 ≤ Nat.log2 (2 * j + b) := (Nat.le_log2 hne).mpr (by omega)
  have hman : F.man ≤ 23 := by cases F <;> decide
  exact ⟨hne, by omega⟩

/-- R73 of a quotient: the sticky quotient rounds as the exact one. -/
theorem roundTo_exactDiv (F : FF) (rm : Rm) (n n' : Bool) {m m' : Nat} (e e' : Int) (hm : m ≠ 0) (hm' : m' ≠ 0) :
    ∃ u, RoundsTo F rm ((FVal.fin n m e).rat / (FVal.fin n' m' e').rat) u ∧
      ResultIs F rm (n != n') u (roundTo F rm (exactDiv (.fin n m e) (.fin n' m' e'))) := by
  have hj := two_pow_le_quotient hm hm'
  have hpos : 0 < m' := Nat.pos_of_ne_zero hm'
  have hden : (0 : Rat) < m' * 2 ^ e' := fin_pos hm' e'
  simp only [exactDiv, hm, hm', if_false]
  rw [FVal.rat_fin, FVal.rat_fin, withSign_div]
  generalize 80 + Nat.log2 m' = k at *
  have hdiv := Nat.div_add_mod' (m * 2 ^ k) m'
  have hrem := Nat.mod_lt (m * 2 ^ k) hpos
  have hsticky : (m * 2 ^ k % m' = 0) = (m * 2 ^ k / m' * m' = m * 2 ^ k) := propext (by omega)
  simp only [hsticky]
  have hmono : ∀ a b, a < b → a * m' < b * m' := fun a b hab => Nat.mul_lt_mul_of_pos_right hab hpos
  have hagree : AgreesOn (ratOrder · ((m : Rat) * 2 ^ e / (m' * 2 ^ e')))
      ((2 * (m * 2 ^ k / m') + if m * 2 ^ k / m' * m' = m * 2 ^ k then 0 else 1 : Nat) * 2 ^ (e - e' - k - 1))
      (e - e' - k - 1 + 1) := by
    refine agreesOn_sticky hmono (by omega) (by rw [Nat.succ_mul]; omega) fun i => ?_
    have hnum : (m : Rat) * 2 ^ e = ((m * 2 ^ k : Nat) : Rat) * 2 ^ (e - k) := by
      rw [natCast_mul_two_zpow, Int.sub_add_cancel]
    have hleft : (i : Rat) * 2 ^ (e - e' - k) * (m' * 2 ^ e') = ((i * m' : Nat) : Rat) * 2 ^ (e - k) := by
      rw [show e - k = e - e' - k + e' by omega, Rat.zpow_add two_ne_zero_rat, Rat.natCast_mul]
      grind
    rw [← ratOrder_scaled _ _ (e - k), ← hleft, ← hnum, ← ratOrder_mul_pos hden, Rat.div_mul_cancel (Rat.ne_of_gt hden),
      Int.sub_add_cancel]
  obtain ⟨hne, hbits⟩ := sticky_log2 F (Nat.le_trans (by decide) hj) (e - e' - k - 1)
  exact roundTo_roundsTo F rm (n != n') hne hagree hbits

/-! ## Square roots -/

/-- The bisection keeps the root between its bounds. -/
theorem isqrtAux_bounds (k n r : Nat) (hlo : r * r ≤ n) (hhi : n < (r + 2 ^ k) * (r + 2 ^ k)) :
    isqrtAux k n r * isqrtAux k n r ≤ n ∧ n < (isqrtAux k n r + 1) * (isqrtAux k n r + 1) := by
  induction k generalizing r with
  | zero => exact ⟨hlo, hhi⟩
  | succ k ih =>
    have hpow : r + 2 ^ (k + 1) = r + 2 ^ k + 2 ^ k := by rw [Nat.pow_succ]; omega
    simp only [isqrtAux]
    split
    next h => exact ih _ h (hpow ▸ hhi)
    next h => exact ih _ hlo (Nat.not_le.mp h)

theorem isqrt_bounds (n : Nat) : isqrt n * isqrt n ≤ n ∧ n < (isqrt n + 1) * (isqrt n + 1) := by
  refine isqrtAux_bounds _ n 0 (Nat.zero_le n) ?_
  calc n < 2 ^ (Nat.log2 n + 1) := Nat.lt_log2_self
    _ ≤ 2 ^ ((Nat.log2 n / 2 + 1) + (Nat.log2 n / 2 + 1)) := Nat.pow_le_pow_right (by decide) (by omega)
    _ = _ := by rw [Nat.pow_add, Nat.zero_add]

theorem two_pow_le_isqrt {m k : Nat} (hm : m ≠ 0) (hk : 120 ≤ k) : 2 ^ 60 ≤ isqrt (m * 2 ^ k) := by
  obtain ⟨-, hlt⟩ := isqrt_bounds (m * 2 ^ k)
  have hle : 2 ^ 60 * 2 ^ 60 ≤ m * 2 ^ k :=
    Nat.le_trans (Nat.pow_le_pow_right (by decide) hk : 2 ^ 120 ≤ 2 ^ k) (Nat.le_mul_of_pos_left _ (Nat.pos_of_ne_zero hm))
  refine Nat.le_of_lt_succ (Nat.not_le.mp fun hc => ?_)
  have hsq : (isqrt (m * 2 ^ k) + 1) * (isqrt (m * 2 ^ k) + 1) ≤ 2 ^ 60 * 2 ^ 60 := Nat.mul_self_le_mul_self hc
  omega

/-- R73 of a square root: the sticky root rounds as the exact one. -/
theorem roundTo_exactSqrt (F : FF) (rm : Rm) {m : Nat} (e : Int) (hm : m ≠ 0) :
    ∃ u, RootRoundsTo F rm (FVal.fin false m e).rat u ∧ ResultIs F rm false u (roundTo F rm (exactSqrt (.fin false m e))) := by
  simp only [exactSqrt, if_neg hm, Bool.false_eq_true, if_false]
  generalize hk : (if e % 2 = 0 then 120 else 121 : Nat) = k
  have hk120 : 120 ≤ k := by split at hk <;> omega
  obtain ⟨d, hd⟩ : ∃ d, e - k = d + d := ⟨(e - k) / 2, by split at hk <;> omega⟩
  rw [show (e - k) / 2 = d by omega]
  have hj := two_pow_le_isqrt hm hk120
  obtain ⟨hlo, hhi⟩ := isqrt_bounds (m * 2 ^ k)
  have hmono : ∀ a b : Nat, a < b → a * a < b * b := fun a b hab => Nat.mul_self_lt_mul_self hab
  have hagree : AgreesOn (fun v => ratOrder (v * v) (FVal.fin false m e).rat)
      ((2 * isqrt (m * 2 ^ k) + if isqrt (m * 2 ^ k) * isqrt (m * 2 ^ k) = m * 2 ^ k then 0 else 1 : Nat) * 2 ^ (d - 1))
      (d - 1 + 1) := by
    refine agreesOn_sticky hmono hlo hhi fun i => ?_
    have hval : (FVal.fin false m e).rat = ((m * 2 ^ k : Nat) : Rat) * 2 ^ (e - k) := by
      rw [FVal.rat_fin, natCast_mul_two_zpow, Int.sub_add_cancel]; rfl
    have hsquare : (i : Rat) * 2 ^ d * (i * 2 ^ d) = ((i * i : Nat) : Rat) * 2 ^ (e - k) := by
      rw [hd, Rat.zpow_add two_ne_zero_rat, Rat.natCast_mul]
      grind
    rw [Int.sub_add_cancel, hsquare, hval, ratOrder_scaled]
  obtain ⟨hne, hbits⟩ := sticky_log2 F hj (d - 1)
  exact roundTo_rootRoundsTo F rm hne hagree hbits

/-! ## R75's table -/

/-- Two finite terms. -/
theorem forall_mem_pair_isFinite {a b : FVal} (ha : a.isFinite = true) (hb : b.isFinite = true) :
    ∀ v ∈ [a, b], v.isFinite = true := by
  intro v hv
  rcases List.mem_cons.mp hv with rfl | hmem
  · exact ha
  · exact List.mem_singleton.mp hmem ▸ hb

theorem ratSum_pair (a b : FVal) : ratSum [a, b] = a.rat + b.rat := by
  rw [ratSum, ratSum, ratSum, Rat.add_zero]

theorem rat_exactSum_pair (rm : Rm) {a b : FVal} (ha : a.isFinite = true) (hb : b.isFinite = true) :
    (exactSum rm [a, b]).rat = a.rat + b.rat := by
  rw [rat_exactSum rm (forall_mem_pair_isFinite ha hb), ratSum_pair]

theorem roundTo_exactSum_cancelled (F : FF) (rm : Rm) {a b : FVal} (ha : a.isFinite = true) (hb : b.isFinite = true)
    (hne : a.rat ≠ 0) (hsum : a.rat + b.rat = 0) :
    roundTo F rm (exactSum rm [a, b]) = if rm = .rdn then F.sign true else 0 := by
  rw [roundTo_exactSum_zero F rm (forall_mem_pair_isFinite ha hb) ((ratSum_pair a b).trans hsum),
    zeroSign_of_nonzero rm List.mem_cons_self ha hne]
  by_cases h : rm = .rdn <;> simp [h, FF.sign]

theorem roundTo_exactSum_zeros (F : FF) (rm : Rm) {a b : FVal} (ha : a.isFinite = true) (hb : b.isFinite = true)
    (ha0 : a.rat = 0) (hb0 : b.rat = 0) (hneg : a.neg = b.neg) : roundTo F rm (exactSum rm [a, b]) = F.sign a.neg := by
  rw [roundTo_exactSum_zero F rm (forall_mem_pair_isFinite ha hb) (by rw [ratSum_pair, ha0, hb0, Rat.add_zero])]
  obtain ⟨n, m, e, rfl⟩ := a.isFinite_iff.mp ha
  obtain ⟨n', m', e', rfl⟩ := b.isFinite_iff.mp hb
  obtain rfl : n = n' := hneg
  have hz := (FVal.isZero_iff n m e).mpr ha0
  have hz' := (FVal.isZero_iff n m' e').mpr hb0
  cases n <;> simp [zeroSign, hz, hz', FVal.neg]

theorem roundTo_quotient (F : FF) (rm : Rm) {a b : FVal} (ha : a.isFinite = true) (hb : b.isFinite = true)
    (hane : a.rat ≠ 0) (hbne : b.rat ≠ 0) :
    ∃ u, RoundsTo F rm (a.rat / b.rat) u ∧ ResultIs F rm (a.neg != b.neg) u (roundTo F rm (exactDiv a b)) := by
  obtain ⟨n, m, e, rfl⟩ := a.isFinite_iff.mp ha
  obtain ⟨n', m', e', rfl⟩ := b.isFinite_iff.mp hb
  rw [Ne, FVal.rat_eq_zero_iff] at hane hbne
  exact roundTo_exactDiv F rm n n' e e' hane hbne

theorem exactDiv_by_zero {a b : FVal} (ha : a.isFinite = true) (hb : b.isFinite = true) (hb0 : b.rat = 0) :
    exactDiv a b = if a.rat = 0 then .nan else .inf (a.neg != b.neg) := by
  obtain ⟨n, m, e, rfl⟩ := a.isFinite_iff.mp ha
  obtain ⟨n', m', e', rfl⟩ := b.isFinite_iff.mp hb
  rw [FVal.rat_eq_zero_iff] at hb0
  simp only [exactDiv, hb0, FVal.rat_eq_zero_iff, if_true, FVal.neg]

/-- The roots of finite values (R75). -/
theorem roundTo_root (F : FF) (rm : Rm) {a : FVal} (ha : a.isFinite = true) :
    (a.rat ≠ 0 → a.neg = false → ∃ u, RootRoundsTo F rm a.rat u ∧ ResultIs F rm false u (roundTo F rm (exactSqrt a))) ∧
    (a.rat ≠ 0 → a.neg = true → exactSqrt a = .nan) ∧ (a.rat = 0 → exactSqrt a = .fin a.neg 0 0) := by
  obtain ⟨n, m, e, rfl⟩ := a.isFinite_iff.mp ha
  rw [Ne, FVal.rat_eq_zero_iff]
  refine ⟨?_, ?_, ?_⟩
  · rintro hm rfl; exact roundTo_exactSqrt F rm e hm
  · rintro hm rfl; simp [exactSqrt, hm]
  · rintro rfl; rfl

theorem exactMul_inf_zero (n : Bool) {b : FVal} (hb : b.isFinite = true) (hb0 : b.rat = 0) :
    exactMul (.inf n) b = .nan ∧ exactMul b (.inf n) = .nan := by
  obtain ⟨n', m', e', rfl⟩ := b.isFinite_iff.mp hb
  rw [FVal.rat_eq_zero_iff] at hb0
  simp [exactMul, hb0]

theorem exactSum_opposite_infinities (rm : Rm) (n : Bool) : exactSum rm [.inf n, .inf (!n)] = .nan := by
  cases n <;> rfl

theorem exactDiv_inf_finite (n : Bool) {b : FVal} (hb : b.isFinite = true) :
    exactDiv (.inf n) b = .inf (n != b.neg) ∧ exactDiv b (.inf n) = .fin (n != b.neg) 0 0 := by
  obtain ⟨n', m', e', rfl⟩ := b.isFinite_iff.mp hb
  exact ⟨rfl, congrArg (FVal.fin · 0 0) (Bool.xor_comm n' n)⟩

/-- Settles O18: sums and products are exact rationals, and the sticky quotient and root compare with every half unit of the format as the
exact ones do. -/
theorem exactArithmetic : Obligations.ExactArithmetic := by
  unfold Obligations.ExactArithmetic
  intro F rm x y z A B C fin cancelled
  have hneg : ∀ v : FVal, fin v → fin v.negate := fun v hv => v.isFinite_negate.trans hv
  refine ⟨fun hA hB hC => ?_, ?_, ?_, ?_, ?_, ?_, ?_⟩
  · obtain ⟨hroot, hrootNeg, hrootZero⟩ := roundTo_root F rm hA
    refine ⟨rat_exactSum_pair rm hA hB, ?_, rat_exactMul hA hB, ?_, fun hA0 hB0 => ⟨?_, ?_, ?_⟩, hroot, ?_, ?_, ?_, ?_, ?_⟩
    · rw [rat_exactSum_pair rm hA (hneg B hB), FVal.rat_negate, Rat.sub_eq_add_neg]
    · rw [rat_exactSum_pair rm (isFinite_exactMul hA hB) hC, rat_exactMul hA hB]
    · exact roundTo_exactSum_cancelled F rm hA hB hA0
    · intro h
      exact roundTo_exactSum_cancelled F rm hA (hneg B hB) hA0 (by rwa [FVal.rat_negate, ← Rat.sub_eq_add_neg])
    · exact roundTo_quotient F rm hA hB hA0 hB0
    · exact fun h h' => congrArg (roundTo F rm) (hrootNeg h h')
    · exact fun h => congrArg (roundTo F rm) (hrootZero h)
    · exact roundTo_exactSum_zeros F rm hA hB
    · exact fun hA0 hB0 => congrArg (roundTo F rm) ((exactDiv_by_zero hA hB hB0).trans (if_pos hA0))
    · exact fun hA0 hB0 => congrArg (roundTo F rm) ((exactDiv_by_zero hA hB hB0).trans (if_neg hA0))
  · intro n n' hA hB
    change roundTo F rm (exactDiv A B) = _ ∧ (_ → roundTo F rm (exactSum rm [A, B]) = _) ∧
      (_ → roundTo F rm (exactSum rm [A, B.negate]) = _)
    rw [hA, hB]
    refine ⟨rfl, fun hne => ?_, fun heq => ?_⟩
    · rw [Bool.eq_not.mpr (Ne.symm hne), exactSum_opposite_infinities, roundTo_nan]
    · rw [heq, FVal.negate, exactSum_opposite_infinities, roundTo_nan]
  · intro n hA hB
    change roundTo F rm (exactDiv A B) = _ ∧ roundTo F rm (exactDiv B A) = _
    rw [hA, (exactDiv_inf_finite n hB).1, (exactDiv_inf_finite n hB).2]
    exact ⟨rfl, roundTo_zero F rm _ 0⟩
  · exact fun hA => congrArg (fun v => roundTo F rm (exactSqrt v)) hA
  · exact fun hA => congrArg (fun v => roundTo F rm (exactSqrt v)) hA
  · intro n hA hB hB0
    change roundTo F rm (exactMul A B) = _ ∧ roundTo F rm (exactMul B A) = _
    rw [hA, (exactMul_inf_zero n hB hB0).1, (exactMul_inf_zero n hB hB0).2]
    exact ⟨rfl, rfl⟩
  · intro _ _ hprod
    exact (neg_widen_roundTo F rm hprod).trans (neg_exactMul hprod)

/-! ## Comparisons and selections (R77) -/

theorem compare_eq_ratOrder (i j e : Int) : compare i j = ratOrder (i * 2 ^ e) (j * 2 ^ e) := by
  cases h : compare i j with
  | lt => exact (ratOrder_eq_lt.mpr ((intCast_mul_lt_iff i j e).mpr (Int.compare_eq_lt.mp h))).symm
  | eq => rw [Int.compare_eq_eq.mp h]; exact (ratOrder_eq_eq.mpr rfl).symm
  | gt => exact (ratOrder_eq_gt.mpr ((intCast_mul_lt_iff j i e).mpr (Int.compare_eq_gt.mp h))).symm

theorem fcompare_finite {a b : FVal} (ha : a.isFinite = true) (hb : b.isFinite = true) :
    fcompare a b = some (ratOrder a.rat b.rat) := by
  obtain ⟨n, m, e, rfl⟩ := a.isFinite_iff.mp ha
  obtain ⟨n', m', e', rfl⟩ := b.isFinite_iff.mp hb
  simp only [fcompare]
  generalize he : (if e < e' then e else e') = e0
  have hle : e0 ≤ e ∧ e0 ≤ e' := by split at he <;> omega
  rw [← FVal.scaled_mul ha hle.1, ← FVal.scaled_mul hb hle.2, compare_eq_ratOrder]

theorem fcompare_nan {a b : FVal} (h : a = .nan ∨ b = .nan) : fcompare a b = none := by
  rcases h with rfl | rfl
  · rfl
  · cases a <;> rfl

/-- A condition on finite values is that on the rationals that they are. -/
theorem condFloat_finite {a b : FVal} (ha : a.isFinite = true) (hb : b.isFinite = true) :
    condFloat .eq a b = decide (a.rat = b.rat) ∧ condFloat .ne a b = decide (a.rat ≠ b.rat) ∧
    condFloat .lt a b = decide (a.rat < b.rat) ∧ condFloat .le a b = decide (a.rat ≤ b.rat) ∧
    condFloat .gt a b = decide (a.rat > b.rat) ∧ condFloat .ge a b = decide (a.rat ≥ b.rat) ∧ condFloat .un a b = false := by
  simp only [condFloat, fcompare_finite ha hb]
  cases h : ratOrder a.rat b.rat with
  | lt => have := ratOrder_eq_lt.mp h; grind
  | eq => have := ratOrder_eq_eq.mp h; grind
  | gt => have := ratOrder_eq_gt.mp h; grind

theorem condFloat_nan {a b : FVal} (h : a = .nan ∨ b = .nan) :
    (∀ c ∈ [Cond.eq, .lt, .le, .gt, .ge], condFloat c a b = false) ∧ condFloat .ne a b = true ∧ condFloat .un a b = true := by
  simp [condFloat, fcompare_nan h]

/-- What the selections of the lesser and of the greater return, by the comparison of their operands. -/
theorem fmin_fmax_of_fcompare (F : FF) (x y : Nat) :
    (fcompare (widen F x) (widen F y) = some .lt → fmin F x y = x ∧ fmax F x y = y) ∧
    (fcompare (widen F x) (widen F y) = some .gt → fmin F x y = y ∧ fmax F x y = x) ∧
    (fcompare (widen F x) (widen F y) = some .eq →
      fmin F x y = (if (widen F x).neg = true then x else y) ∧ fmax F x y = if (widen F x).neg = true then y else x) := by
  unfold fmin fmax
  generalize widen F x = a
  generalize widen F y = b
  match a, b with
  | .nan, _ | .inf _, .nan | .fin _ _ _, .nan => exact ⟨nofun, nofun, nofun⟩
  | .inf _, .inf _ | .inf _, .fin _ _ _ | .fin _ _ _, .inf _ | .fin _ _ _, .fin _ _ _ =>
    exact ⟨fun h => by simp [h], fun h => by simp [h], fun h => by simp [h]⟩

/-- A selection with a NaN operand. -/
theorem fmin_fmax_nan (F : FF) (x y : Nat) :
    (widen F x = .nan → widen F y ≠ .nan → fmin F x y = y ∧ fmax F x y = y) ∧
    (widen F x ≠ .nan → widen F y = .nan → fmin F x y = x ∧ fmax F x y = x) ∧
    (widen F x = .nan → widen F y = .nan → fmin F x y = F.canon ∧ fmax F x y = F.canon) := by
  unfold fmin fmax
  cases widen F x <;> cases widen F y <;> simp

/-- Settles O19: finite values are compared as the rationals that they are, and a selection reads that comparison. -/
theorem selectionOfZerosAndNaNs : Obligations.SelectionOfZerosAndNaNs := by
  unfold Obligations.SelectionOfZerosAndNaNs
  intro F x y A B
  obtain ⟨hnan, hnan', hnans⟩ := fmin_fmax_nan F x y
  refine ⟨fun hA hB => ?_, condFloat_nan, hnan, hnan', hnans⟩
  obtain ⟨heq, hne, hlt, hle, hgt, hge, hun⟩ := condFloat_finite hA hB
  obtain ⟨hless, hmore, hsame⟩ := fmin_fmax_of_fcompare F x y
  obtain ⟨-, -, hsame'⟩ := fmin_fmax_of_fcompare F y x
  rw [fcompare_finite hA hB, Option.some_inj] at hless hmore hsame
  rw [fcompare_finite hB hA, Option.some_inj] at hsame'
  refine ⟨heq, hne, hlt, hle, hgt, hge, hun, fun h => hless (ratOrder_eq_lt.mpr h),
    fun h => hmore (ratOrder_eq_gt.mpr h), fun hA0 hB0 hAneg hBneg => ?_⟩
  obtain ⟨hmin, hmax⟩ := hsame (ratOrder_eq_eq.mpr (hA0.trans hB0.symm))
  obtain ⟨hmin', hmax'⟩ := hsame' (ratOrder_eq_eq.mpr (hB0.trans hA0.symm))
  have hBpos : ¬ (widen F y).neg = true := by rw [show (widen F y).neg = false from hBneg]; decide
  exact ⟨hmin.trans (if_pos hAneg), hmax.trans (if_pos hAneg), hmin'.trans (if_neg hBpos), hmax'.trans (if_neg hBpos)⟩

/-! ## Rounding to the nearest: what follows from R73 alone -/

/-- An integer count of a unit of the format, up to the next binade. -/
theorem FF.representable_of_natAbs_le {F : FF} {j e : Int} (hj : j.natAbs ≤ 2 ^ (F.man + 1)) (he : F.minExp ≤ e) :
    F.Representable (j * 2 ^ e) := by
  rcases Nat.lt_or_eq_of_le hj with hlt | heq
  · exact ⟨j, e, rfl, hlt, he⟩
  · have hsucc : 2 ^ (F.man + 1) = 2 * 2 ^ F.man := by rw [Nat.pow_succ, Nat.mul_comm]
    have hpos := Nat.two_pow_pos F.man
    obtain ⟨i, rfl⟩ : ∃ i, j = i * 2 := ⟨j / 2, by omega⟩
    exact ⟨i, e + 1, by rw [two_zpow_succ, Rat.intCast_mul, Rat.mul_assoc]; rfl, by omega, by unfold FF.minExp at he; omega⟩

theorem magnitude_intCast_mul (M e : Int) : magnitude ((M : Rat) * 2 ^ e) = (M.natAbs : Rat) * 2 ^ e := by
  rcases Int.natAbs_eq M with hM | hM
  · rw [hM, Int.natAbs_natCast, Rat.intCast_natCast]
    exact magnitude_of_nonneg (natCast_mul_nonneg _ e)
  · rw [hM, Int.natAbs_neg, Int.natAbs_natCast, Rat.intCast_neg, Rat.intCast_natCast, Rat.neg_mul, magnitude_neg]
    exact magnitude_of_nonneg (natCast_mul_nonneg _ e)

/-- A rational has an integer within a half. -/
theorem exists_nearest_int (x : Rat) : ∃ j : Int, magnitude ((j : Rat) - x) ≤ 1 / 2 := by
  refine ⟨(x + 1 / 2).floor, ?_⟩
  have hle := Rat.floor_le (a := x + 1 / 2)
  have hlt := Rat.lt_floor_add_one (a := x + 1 / 2)
  rw [magnitude_le_iff]
  grind

/-- A rational has a count of 2^t within half of it. -/
theorem exists_nearest_count (y : Rat) (t : Int) : ∃ j : Int, magnitude ((j : Rat) * 2 ^ t - y) ≤ 2 ^ (t - 1) := by
  have hpos := two_zpow_pos t
  have hhalf := two_zpow_pred t
  obtain ⟨j, hj⟩ := exists_nearest_int (y / 2 ^ t)
  obtain ⟨hlo, hhi⟩ := magnitude_le_iff.mp hj
  have hy : y = y / 2 ^ t * 2 ^ t := (Rat.div_mul_cancel (Rat.ne_of_gt hpos)).symm
  have hlo' := Rat.mul_le_mul_of_nonneg_right hlo (Rat.le_of_lt hpos)
  have hhi' := Rat.mul_le_mul_of_nonneg_right hhi (Rat.le_of_lt hpos)
  refine ⟨j, magnitude_le_iff.mpr ?_⟩
  generalize y / 2 ^ t = z at *
  subst hy
  grind

section
variable {F : FF} {y u : Rat} (h : RoundsTo F .rne y u)
include h

theorem RoundsTo.distance_le {w : Rat} (hw : F.Representable w) : magnitude (u - y) ≤ magnitude (w - y) := (h.2 w hw).1

theorem RoundsTo.eq_of_representable (hy : F.Representable y) : u = y := by
  have hle := h.distance_le hy
  rw [Rat.sub_self, magnitude_zero, magnitude_le_iff] at hle
  grind

/-- Rounding to the nearest does not pass a value of the format. -/
theorem RoundsTo.magnitude_le {w : Rat} (hw : F.Representable w) (hy : magnitude y ≤ w) : magnitude u ≤ w := by
  have h1 := h.distance_le hw
  have h2 := h.distance_le hw.neg
  obtain ⟨hlo, hhi⟩ := magnitude_le_iff.mp hy
  rw [magnitude_of_nonneg (q := w - y) (by grind)] at h1
  rw [magnitude_of_nonpos (q := -w - y) (by grind)] at h2
  have hup := le_magnitude (u - y)
  have hdown := neg_le_magnitude (u - y)
  exact magnitude_le_iff.mpr ⟨by grind, by grind⟩

theorem RoundsTo.le_magnitude {w : Rat} (hw : F.Representable w) (hy : w ≤ magnitude y) : w ≤ magnitude u := by
  rcases magnitude_eq_or y with hpos | hneg
  · have h1 := h.distance_le hw
    have hdown := neg_le_magnitude (u - y)
    rw [magnitude_of_nonpos (q := w - y) (by grind)] at h1
    exact Rat.le_trans (by grind) (Machine.le_magnitude u)
  · have h1 := h.distance_le hw.neg
    have hup := Machine.le_magnitude (u - y)
    rw [magnitude_of_nonneg (q := -w - y) (by grind)] at h1
    exact Rat.le_trans (by grind) (neg_le_magnitude u)

/-- A value of up to 2^(mantissa bits + 1) units is rounded by half a unit at most. -/
theorem RoundsTo.error_le {t : Int} (ht : F.minExp ≤ t) (hy : magnitude y ≤ ((2 ^ (F.man + 1) : Nat) : Rat) * 2 ^ t) :
    magnitude (u - y) ≤ 2 ^ (t - 1) := by
  obtain ⟨j, hj⟩ := exists_nearest_count y t
  refine Rat.le_trans (h.distance_le (FF.representable_of_natAbs_le ?_ ht)) hj
  obtain ⟨hlo, hhi⟩ := magnitude_le_iff.mp hy
  obtain ⟨hlo', hhi'⟩ := magnitude_le_iff.mp hj
  have hhalf := two_zpow_pred t
  have hpos := two_zpow_pos t
  have hlt : (j : Rat) * 2 ^ t < (((2 ^ (F.man + 1) : Nat) : Int) + 1 : Int) * 2 ^ t := by
    rw [Rat.intCast_add, Rat.intCast_natCast, Rat.intCast_one]; grind
  have hgt : (-((2 ^ (F.man + 1) : Nat) : Int) - 1 : Int) * 2 ^ t < (j : Rat) * 2 ^ t := by
    rw [Rat.intCast_sub, Rat.intCast_neg, Rat.intCast_natCast, Rat.intCast_one]; grind
  have hlt' := (intCast_mul_lt_iff _ _ t).mp hlt
  have hgt' := (intCast_mul_lt_iff _ _ t).mp hgt
  omega

/-- A count of a unit of the format is rounded to a count of it. -/
theorem RoundsTo.multiple {M e : Int} (hy : y = M * 2 ^ e) (he : F.minExp ≤ e) : ∃ j : Int, u = j * 2 ^ e := by
  by_cases hM : M.natAbs ≤ 2 ^ (F.man + 1)
  · exact ⟨M, (h.eq_of_representable (hy ▸ FF.representable_of_natAbs_le hM he)).trans hy⟩
  have hsucc : 2 ^ (F.man + 1) = 2 * 2 ^ F.man := by rw [Nat.pow_succ, Nat.mul_comm]
  have hbig : ((2 ^ F.man : Nat) : Rat) * 2 ^ e ≤ magnitude u := by
    rw [← Rat.intCast_natCast]
    refine h.le_magnitude (FF.representable_of_natAbs_le (by rw [Int.natAbs_natCast]; omega) he) ?_
    rw [hy, magnitude_intCast_mul, Rat.intCast_natCast, natCast_mul_le_iff]
    omega
  rcases h.1.magnitude.count_or_lt e with ⟨j, hj⟩ | ⟨-, hlt⟩
  · rcases magnitude_eq_or u with hc | hc
    · exact ⟨j, hc.symm.trans hj⟩
    · exact ⟨-j, by rw [Rat.intCast_neg, Rat.neg_mul, ← hj, hc, Rat.neg_neg]⟩
  · exact absurd hbig (Rat.not_le.mpr hlt)

end

/-! ## The three terms (R79, R80) -/

/-- What a rounding to BF16 leaves of a count of a unit is a count of it, eight bits shorter. -/
theorem RoundsTo.bf16_remainder {y u : Rat} (h : RoundsTo .bf16 .rne y u) {j e : Int} (hy : y = j * 2 ^ e) (he : -133 ≤ e)
    {t : Int} (ht : -133 ≤ t) (hb : magnitude y ≤ 2 ^ (t + 8)) :
    (∃ i : Int, y - u = i * 2 ^ e) ∧ magnitude (y - u) ≤ 2 ^ (t - 1) := by
  constructor
  · obtain ⟨i, hi⟩ := h.multiple hy he
    exact ⟨j - i, by rw [hy, hi, Rat.intCast_sub]; grind⟩
  · rw [magnitude_sub_comm]
    exact h.error_le ht (two_zpow_add_nat t 8 ▸ hb)

/-- R80 where the units of x are those of BF16 values: the second remainder has eight bits and is a BF16 value itself. -/
theorem split_exact {v hi mid lo : Rat} {e : Int} (he : -133 ≤ e) (hrest : ∃ j : Int, v - hi = j * 2 ^ e)
    (hbound : magnitude (v - hi) ≤ 2 ^ (e + 16)) (hmid : RoundsTo .bf16 .rne (v - hi) mid)
    (hlo : RoundsTo .bf16 .rne (v - hi - mid) lo) : hi + mid + lo = v := by
  obtain ⟨j, hj⟩ := hrest
  obtain ⟨⟨i, hi'⟩, hle⟩ := hmid.bf16_remainder hj he (t := e + 8) (by omega) (by rwa [Int.add_assoc])
  have hsmall : i.natAbs ≤ 2 ^ (FF.man .bf16 + 1) := by
    rw [hi', magnitude_intCast_mul, show e + 8 - 1 = e + ((7 : Nat) : Int) by omega, two_zpow_add_nat, natCast_mul_le_iff] at hle
    exact Nat.le_trans hle (by decide)
  rw [hlo.eq_of_representable (hi' ▸ FF.representable_of_natAbs_le hsmall he)]
  grind

/-- R80 below: two remainders are small enough that the third rounding is to the unit of the subnormals. -/
theorem split_error {v hi mid lo : Rat} (hv : magnitude v ≤ 2 ^ (-110 : Int)) (hhi : RoundsTo .bf16 .rne v hi)
    (hmid : RoundsTo .bf16 .rne (v - hi) mid) (hlo : RoundsTo .bf16 .rne (v - hi - mid) lo) :
    magnitude (hi + mid + lo - v) ≤ 2 ^ (-134 : Int) := by
  have herror : ∀ {y u : Rat} (s t : Int), RoundsTo .bf16 .rne y u → -133 ≤ t → s ≤ t + 8 → magnitude y ≤ 2 ^ s →
      magnitude (y - u) ≤ 2 ^ (t - 1) := by
    intro y u s t h ht hs hb
    rw [magnitude_sub_comm]
    exact h.error_le ht (two_zpow_add_nat t 8 ▸ Rat.le_trans hb (two_zpow_le hs))
  have h1 := herror (-110) (-118) hhi (by decide) (by decide) hv
  have h2 := herror _ (-127) hmid (by decide) (by decide) h1
  have h3 := herror _ (-133) hlo (by decide) (by decide) h2
  rw [show hi + mid + lo - v = -(v - hi - mid - lo) by grind, magnitude_neg]
  exact h3

/-- The finite values of FP32 (R70). -/
theorem widen_f32_bounds {x : Nat} {neg : Bool} {m : Nat} {e : Int} (h : widen .f32 x = .fin neg m e) :
    m < 2 ^ 24 ∧ -149 ≤ e ∧ e ≤ 104 := by
  have hman : bits x 0 (FF.man .f32) < 2 ^ 23 := Nat.mod_lt _ (by decide)
  have hexp : bits x (FF.man .f32) (FF.ebits .f32) < 2 ^ 8 := Nat.mod_lt _ (by decide)
  simp only [widen] at h
  generalize bits x (FF.man .f32) (FF.ebits .f32) = ex at *
  generalize bits x 0 (FF.man .f32) = f at *
  split at h
  · split at h <;> cases h
  next htop =>
    split at h
    all_goals
      simp only [FVal.fin.injEq, FF.man, FF.ebits, FF.bias] at h hman hexp htop
      omega

/-- What R79 asks of a term: `r` is the pattern of `q` rounded to BF16, with the largest finite value of its sign for an infinity; where
`q` is zero, a zero of a sign. -/
def TermIs (q : Rat) (zero : Bool) (r : Nat) : Prop :=
  if q = 0 then r = FF.sign .bf16 zero
  else ∃ u, RoundsTo .bf16 .rne q u ∧
    (u = 0 → r = FF.sign .bf16 (q < 0)) ∧
    (magnitude u ≤ FF.largest .bf16 → (widen .bf16 r).isFinite = true ∧ (widen .bf16 r).rat = u) ∧
    (FF.largest .bf16 < magnitude u → r = if q < 0 then 0xFF7F else 0x7F7F)

theorem termIs_zero {q : Rat} (hq : q = 0) (zero : Bool) : TermIs q zero (FF.sign .bf16 zero) := by rw [TermIs, if_pos hq]

theorem withSign_lt_zero {neg : Bool} {y : Rat} (hy : 0 < y) : withSign neg y < 0 ↔ neg = true := by
  cases neg <;> grind [withSign]

theorem magnitude_withSign_count (neg : Bool) (n : Nat) (q : Int) :
    magnitude (withSign neg ((n : Rat) * 2 ^ q)) = n * 2 ^ q := by
  rw [magnitude_withSign, magnitude_of_nonneg (natCast_mul_nonneg n q)]

/-- A count's magnitude bits, with those of the largest finite value for larger ones, are R79's term. -/
theorem termIs_of_count {n : Nat} {q : Int} (h : FF.Count .bf16 n q) {neg : Bool} {y : Rat} (hy : 0 < y)
    (hround : RoundsTo .bf16 .rne (withSign neg y) (withSign neg (n * 2 ^ q))) (zero : Bool) :
    TermIs (withSign neg y) zero (FF.sign .bf16 neg + min (magnitudeBits .bf16 n q) (FF.maxFin .bf16)) := by
  have hneg : (withSign neg y < 0) = (neg = true) := propext (withSign_lt_zero hy)
  have hne : withSign neg y ≠ 0 := by rw [Ne, withSign_eq_zero]; exact Rat.ne_of_gt hy
  obtain ⟨hfin, hover⟩ := h.resultIs .rne neg
  rw [TermIs, if_neg hne]
  simp only [hneg, Bool.decide_eq_true]
  have hlarge : FF.largest .bf16 < magnitude (withSign neg (n * 2 ^ q)) ↔ FF.maxFin .bf16 < magnitudeBits .bf16 n q := by
    rw [h.maxFin_lt_iff, magnitude_withSign_count]
  refine ⟨_, hround, ?_, ?_, ?_⟩
  · intro h0
    have hn : n = 0 := by rwa [withSign_eq_zero, natCast_mul_eq_zero] at h0
    rw [hn]; rfl
  · intro hle
    have hk := Nat.not_lt.mp (mt hlarge.mpr (Rat.not_lt.mpr hle))
    obtain ⟨hf, hr, -⟩ := hfin hle
    rw [signedPattern, if_neg (Nat.not_lt.mpr hk)] at hf hr
    rw [Nat.min_eq_left hk]
    exact ⟨hf, hr⟩
  · intro hlt
    rw [Nat.min_eq_right (Nat.le_of_lt (hlarge.mp hlt))]
    cases neg <;> rfl

/-- The first term: the largest finite value in place of an infinity (R79). -/
def saturatedTerm (h : Nat) : Nat := if bits h 0 15 = FF.inf .bf16 then bits h 15 1 * 2 ^ 15 + 0x7F7F else h

theorem split3_finite {x : Nat} {neg : Bool} {m : Nat} {e : Int} (h : widen .f32 x = .fin neg m e) :
    let v := FVal.fin neg m e
    let hi := saturatedTerm (roundTo .bf16 .rne v)
    let mid := roundTo .bf16 .rne (exactSum .rne [v, (widen .bf16 hi).negate])
    split3 x = (hi, mid, roundTo .bf16 .rne (exactSum .rne [v, (widen .bf16 hi).negate, (widen .bf16 mid).negate])) := by
  simp only [split3, h]
  rfl

theorem saturatedTerm_signedPattern (neg : Bool) (k : Nat) :
    saturatedTerm (signedPattern .bf16 .rne neg k) = FF.sign .bf16 neg + min k (FF.maxFin .bf16) := by
  unfold signedPattern
  split
  next h =>
    rw [Nat.min_eq_right (Nat.le_of_lt h)]
    cases neg <;> decide
  next h =>
    have hk : k ≤ 0x7F7F := Nat.not_lt.mp h
    have hsign : FF.sign .bf16 neg = 2 ^ 15 * b2n neg := by cases neg <;> rfl
    have hlow : bits (FF.sign .bf16 neg + k) 0 15 = k := by
      rw [bits, hsign, Nat.pow_zero, Nat.div_one, Nat.mul_add_mod, Nat.mod_eq_of_lt (by omega)]
    rw [Nat.min_eq_left (Nat.not_lt.mp h), saturatedTerm, if_neg]
    rw [hlow]; exact fun hc => absurd hk (by rw [hc]; decide)

theorem largest_bf16 : FF.largest .bf16 = ((255 * 2 ^ 16 : Nat) : Rat) * 2 ^ (104 : Int) := by decide +kernel

theorem representable_largest_bf16 : FF.Representable .bf16 (FF.largest .bf16) :=
  ⟨255, 120, by decide +kernel, by decide, by decide⟩

theorem two_zpow_le_largest_bf16 : (2 : Rat) ^ (120 : Int) ≤ FF.largest .bf16 := by decide +kernel

theorem representable_zero (F : FF) : F.Representable 0 :=
  ⟨0, F.minExp, (Rat.zero_mul _).symm, Nat.two_pow_pos _, Int.le_refl _⟩

theorem magnitude_rat_fin_lt {neg : Bool} {m : Nat} {e : Int} {k : Nat} (hm : m < 2 ^ k) :
    magnitude (FVal.fin neg m e).rat < 2 ^ (e + (k : Int)) := by
  rw [FVal.rat_fin, magnitude_withSign_count, two_zpow_add_nat, natCast_mul_lt_iff]
  exact hm

theorem FVal.rat_eq_count (neg : Bool) (m : Nat) (e : Int) : ∃ M : Int, (FVal.fin neg m e).rat = M * 2 ^ e := by
  cases neg
  · exact ⟨m, by rw [FVal.rat_fin, Rat.intCast_natCast]; rfl⟩
  · exact ⟨-m, by rw [FVal.rat_fin, withSign_true, Rat.intCast_neg, Rat.neg_mul, Rat.intCast_natCast]⟩

theorem widen_sign (neg : Bool) : widen .bf16 (FF.sign .bf16 neg) = .fin neg 0 (-133) := by cases neg <;> rfl

theorem widen_sign_add_min (neg : Bool) (k : Nat) :
    (widen .bf16 (FF.sign .bf16 neg + min k (FF.maxFin .bf16))).isFinite = true ∧
      (widen .bf16 (FF.sign .bf16 neg + min k (FF.maxFin .bf16))).neg = neg := by
  rw [widen_finite .bf16 neg (Nat.min_le_right _ _)]
  split <;> exact ⟨rfl, rfl⟩

/-- A later term: a rounding that cannot overflow. -/
theorem rounded_term {w : FVal} (hw : w.isFinite = true) (hle : magnitude w.rat ≤ FF.largest .bf16) {zero : Bool}
    (hzero : w.rat = 0 → w.neg = zero) :
    TermIs w.rat zero (roundTo .bf16 .rne w) ∧ (widen .bf16 (roundTo .bf16 .rne w)).isFinite = true ∧
      RoundsTo .bf16 .rne w.rat (widen .bf16 (roundTo .bf16 .rne w)).rat := by
  obtain ⟨neg, m, e, rfl⟩ := w.isFinite_iff.mp hw
  by_cases hm : m = 0
  · have h0 : (FVal.fin neg m e).rat = 0 := (FVal.rat_eq_zero_iff neg m e).mpr hm
    obtain rfl : neg = zero := hzero h0
    rw [h0, hm, roundTo_zero, widen_sign]
    refine ⟨termIs_zero rfl neg, rfl, ?_⟩
    rw [(FVal.rat_eq_zero_iff neg 0 _).mpr rfl]
    exact roundsTo_self .rne (representable_zero _)
  · obtain ⟨n, q, hcount, hround, heq⟩ := roundTo_fin_count .bf16 .rne neg hm e
    rw [FVal.rat_fin] at hle hround ⊢
    have hu := hround.magnitude_le representable_largest_bf16 hle
    have hk : magnitudeBits .bf16 n q ≤ FF.maxFin .bf16 := by
      rw [magnitude_withSign_count] at hu
      rwa [← Nat.not_lt, hcount.maxFin_lt_iff, Rat.not_lt]
    have hterm := termIs_of_count hcount (fin_pos hm e) hround zero
    obtain ⟨k, e', hw', hval⟩ := hcount.widen neg hk
    rw [heq, signedPattern, if_neg (Nat.not_lt.mpr hk)]
    rw [Nat.min_eq_left hk] at hterm
    refine ⟨hterm, ?_, ?_⟩
    · rw [hw']; rfl
    · rw [hw', FVal.rat_fin, hval]; exact hround

/-- An FP32 value above the largest finite one of BF16 lies in the top binade. -/
theorem top_binade {m : Nat} {e : Int} (hm : m < 2 ^ 24) (he : e ≤ 104) (h : FF.largest .bf16 < m * 2 ^ e) :
    e = 104 ∧ 255 * 2 ^ 16 < m := by
  rw [largest_bf16, two_zpow_split he, ← Rat.mul_assoc, ← Rat.natCast_mul, natCast_mul_lt_iff] at h
  rcases Int.lt_or_eq_of_le he with hlt | rfl
  · have hpow : 2 ^ 1 ≤ 2 ^ (104 - e).toNat := Nat.pow_le_pow_right (by decide) (by omega)
    omega
  · exact ⟨rfl, h⟩

/-- The first term's value `hi` for a value `v` in units of 2^e: it is v rounded, or v lies in the top binade and `hi` leaves less than
2^16 of its units. -/
def FirstRounds (v : Rat) (e : Int) (hi : Rat) : Prop :=
  RoundsTo .bf16 .rne v hi ∨ e = 104 ∧ (∃ j : Int, v - hi = j * 2 ^ e) ∧ magnitude (v - hi) ≤ 2 ^ (120 : Int)

/-- The largest finite value for an FP32 value above it. -/
theorem firstRounds_saturated (neg : Bool) {m : Nat} {e : Int} (hm : m < 2 ^ 24) (he : e ≤ 104) (hbig : FF.largest .bf16 < m * 2 ^ e) :
    FirstRounds (withSign neg (m * 2 ^ e)) e (widen .bf16 (FF.sign .bf16 neg + FF.maxFin .bf16)).rat := by
  obtain ⟨rfl, hm255⟩ := top_binade hm he hbig
  obtain ⟨j, rfl⟩ : ∃ j, m = 255 * 2 ^ 16 + j := ⟨m - 255 * 2 ^ 16, by omega⟩
  have hwiden : (widen .bf16 (FF.sign .bf16 neg + FF.maxFin .bf16)).rat = withSign neg (FF.largest .bf16) := by
    cases neg <;> decide +kernel
  have hdiff : withSign neg (((255 * 2 ^ 16 + j : Nat) : Rat) * 2 ^ (104 : Int)) - withSign neg (FF.largest .bf16) =
      (FVal.fin neg j 104).rat := by
    rw [largest_bf16, Rat.natCast_add, Rat.add_mul, FVal.rat_fin]
    cases neg <;> simp only [withSign] <;> grind
  refine .inr ⟨rfl, ?_, ?_⟩ <;> rw [hwiden, hdiff]
  · exact FVal.rat_eq_count neg j 104
  · exact Rat.le_of_lt (magnitude_rat_fin_lt (by omega : j < 2 ^ 16))

/-- R79's first term of an FP32 value. -/
theorem first_term {neg : Bool} {m : Nat} {e : Int} (hm24 : m < 2 ^ 24) (he : e ≤ 104) :
    let r := saturatedTerm (roundTo .bf16 .rne (.fin neg m e))
    TermIs (FVal.fin neg m e).rat neg r ∧ (widen .bf16 r).isFinite = true ∧ (widen .bf16 r).neg = neg ∧
      FirstRounds (FVal.fin neg m e).rat e (widen .bf16 r).rat := by
  intro r
  by_cases hm : m = 0
  · have hr : r = FF.sign .bf16 neg := by
      change saturatedTerm (roundTo .bf16 .rne (.fin neg m e)) = _
      rw [hm, roundTo_zero]; cases neg <;> decide
    rw [hr, widen_sign, (FVal.rat_eq_zero_iff neg m e).mpr hm, (FVal.rat_eq_zero_iff neg 0 _).mpr rfl]
    exact ⟨termIs_zero rfl neg, rfl, rfl, .inl (roundsTo_self .rne (representable_zero _))⟩
  obtain ⟨n, q, hcount, hround, heq⟩ := roundTo_fin_count .bf16 .rne neg hm e
  have hr : r = FF.sign .bf16 neg + min (magnitudeBits .bf16 n q) (FF.maxFin .bf16) := by
    rw [← saturatedTerm_signedPattern, ← heq]
  obtain ⟨hfin, hneg⟩ := widen_sign_add_min neg (magnitudeBits .bf16 n q)
  rw [FVal.rat_fin] at hround ⊢
  rw [hr]
  refine ⟨termIs_of_count hcount (fin_pos hm e) hround neg, hfin, hneg, ?_⟩
  rcases Nat.lt_or_ge (FF.maxFin .bf16) (magnitudeBits .bf16 n q) with hk | hk
  · rw [Nat.min_eq_right (Nat.le_of_lt hk)]
    refine firstRounds_saturated neg hm24 he (Rat.not_le.mp fun hle => ?_)
    have hu := hround.magnitude_le representable_largest_bf16 (by rwa [magnitude_withSign_count])
    rw [magnitude_withSign_count] at hu
    exact Rat.not_lt.mpr hu (hcount.maxFin_lt_iff.mp hk)
  · obtain ⟨k, e', hw, hval⟩ := hcount.widen neg hk
    rw [Nat.min_eq_left hk, hw, FVal.rat_fin, hval]
    exact .inl hround

/-- The sign of a rounded-to-nearest sum that is zero is plus where some term is not negative (R75). -/
theorem zeroSign_rne {l : List FVal} {v : FVal} (hv : v ∈ l) (hneg : v.neg = false) : zeroSign .rne l = false := by
  have hall : l.all (fun v => v.neg) = false := List.all_eq_false.mpr ⟨v, hv, by rw [hneg]; decide⟩
  simp [zeroSign, hall]

theorem neg_exactSum_of_zero (rm : Rm) {l : List FVal} (h : ∀ v ∈ l, v.isFinite = true) (h0 : (exactSum rm l).rat = 0) :
    (exactSum rm l).neg = zeroSign rm l := by
  obtain ⟨n, e, heq, -⟩ := exactSum_of_finite rm h
  rw [heq, FVal.rat_ofScaled, Rat.mul_eq_zero, or_iff_left (Rat.ne_of_gt (two_zpow_pos e)), Rat.intCast_eq_zero_iff] at h0
  rw [heq, h0]; rfl

theorem neg_negate {v : FVal} (hv : v.isFinite = true) : v.negate.neg = !v.neg := by
  obtain ⟨neg, m, e, rfl⟩ := v.isFinite_iff.mp hv
  rfl

/-- A later term of R79: a difference whose first two terms have opposite signs where they are zeros. -/
theorem difference_term {v h : FVal} (hv : v.isFinite = true) (hh : h.isFinite = true) (hneg : h.neg = v.neg) {l : List FVal}
    (hl : ∀ w ∈ l, w.isFinite = true) {d : Rat} (hd : v.rat - h.rat + ratSum l = d) (hle : magnitude d ≤ FF.largest .bf16) :
    let r := roundTo .bf16 .rne (exactSum .rne (v :: h.negate :: l))
    TermIs d false r ∧ (widen .bf16 r).isFinite = true ∧ RoundsTo .bf16 .rne d (widen .bf16 r).rat := by
  intro r
  have hfin : ∀ w ∈ v :: h.negate :: l, w.isFinite = true := by
    simp only [List.mem_cons]
    rintro w (rfl | rfl | hw)
    · exact hv
    · exact h.isFinite_negate.trans hh
    · exact hl w hw
  have hrat : (exactSum .rne (v :: h.negate :: l)).rat = d := by
    rw [rat_exactSum .rne hfin, ratSum, ratSum, FVal.rat_negate, ← hd, Rat.sub_eq_add_neg, Rat.add_assoc]
  have hsign : zeroSign .rne (v :: h.negate :: l) = false := by
    cases hvn : v.neg
    · exact zeroSign_rne List.mem_cons_self hvn
    · exact zeroSign_rne (List.mem_cons_of_mem _ List.mem_cons_self) (by rw [neg_negate hh, hneg, hvn]; rfl)
  rw [← hrat]
  exact rounded_term (isFinite_exactSum .rne hfin) (hrat ▸ hle) fun h0 => (neg_exactSum_of_zero .rne hfin h0).trans hsign

/-- A rounding to the nearest does not leave more than the value. -/
theorem RoundsTo.remainder_le {F : FF} {y u : Rat} (h : RoundsTo F .rne y u) : magnitude (y - u) ≤ magnitude y := by
  have hle := h.distance_le (representable_zero F)
  rwa [magnitude_sub_comm, show (0 : Rat) - y = -y by grind, magnitude_neg] at hle

/-- A zero splits into zeros. -/
theorem split_zero {hi mid lo : Rat} (hhi : RoundsTo .bf16 .rne 0 hi) (hmid : RoundsTo .bf16 .rne (0 - hi) mid)
    (hlo : RoundsTo .bf16 .rne (0 - hi - mid) lo) : hi + mid + lo = 0 := by
  have hzero : (0 : Rat) - 0 = 0 := Rat.sub_self
  obtain rfl := hhi.eq_of_representable (representable_zero _)
  rw [hzero] at hmid hlo
  obtain rfl := hmid.eq_of_representable (representable_zero _)
  rw [hzero] at hlo
  rw [hlo.eq_of_representable (representable_zero _), Rat.add_zero, Rat.add_zero]

/-- R80 of the three terms of a finite FP32 value. -/
theorem split_sum {neg : Bool} {m : Nat} {e : Int} (hm : m < 2 ^ 24) {hi mid lo : Rat}
    (hhi : FirstRounds (FVal.fin neg m e).rat e hi) (hmid : RoundsTo .bf16 .rne ((FVal.fin neg m e).rat - hi) mid)
    (hlo : RoundsTo .bf16 .rne ((FVal.fin neg m e).rat - hi - mid) lo) :
    ((FVal.fin neg m e).rat = 0 ∨ (2 : Rat) ^ (-110 : Int) ≤ magnitude (FVal.fin neg m e).rat →
        hi + mid + lo = (FVal.fin neg m e).rat) ∧
      magnitude (hi + mid + lo - (FVal.fin neg m e).rat) ≤ 2 ^ (-134 : Int) := by
  have hlt := magnitude_rat_fin_lt (neg := neg) (e := e) hm
  obtain ⟨M, hM⟩ := FVal.rat_eq_count neg m e
  generalize (FVal.fin neg m e).rat = v at *
  rcases Int.lt_or_le e (-133) with he | he
  · have hround := hhi.resolve_right fun ⟨h, _⟩ => by omega
    have hsmall : magnitude v < 2 ^ (-110 : Int) :=
      Rat.not_le.mp fun hge => Rat.not_lt.mpr (Rat.le_trans (two_zpow_le (by omega)) hge) hlt
    refine ⟨?_, split_error (Rat.le_of_lt hsmall) hround hmid hlo⟩
    rintro (rfl | hge)
    · exact split_zero hround hmid hlo
    · exact absurd hge (Rat.not_le.mpr hsmall)
  · have hexact : hi + mid + lo = v := by
      rcases hhi with hround | ⟨rfl, hrest, hbound⟩
      · obtain ⟨hrest, hbound⟩ :=
          hround.bf16_remainder hM he (t := e + 16) (by omega) (by rw [Int.add_assoc]; exact Rat.le_of_lt hlt)
        exact split_exact he hrest (Rat.le_trans hbound (two_zpow_le (by omega))) hmid hlo
      · exact split_exact he hrest hbound hmid hlo
    refine ⟨fun _ => hexact, ?_⟩
    rw [hexact, Rat.sub_self, magnitude_zero]
    exact Rat.le_of_lt (two_zpow_pos _)

theorem first_remainder_le {neg : Bool} {m : Nat} {e : Int} (hm : m < 2 ^ 24) (he : e ≤ 104) {hi : Rat}
    (hhi : FirstRounds (FVal.fin neg m e).rat e hi) :
    magnitude ((FVal.fin neg m e).rat - hi) ≤ FF.largest .bf16 := by
  refine Rat.le_trans ?_ two_zpow_le_largest_bf16
  rcases hhi with hround | ⟨-, -, hbound⟩
  · have hexp : e + ((24 : Nat) : Int) ≤ 120 + ((8 : Nat) : Int) := by omega
    have hv := Rat.le_trans (Rat.le_of_lt (magnitude_rat_fin_lt (neg := neg) (e := e) hm)) (two_zpow_le hexp)
    rw [magnitude_sub_comm]
    exact Rat.le_trans (hround.error_le (by decide) (two_zpow_add_nat 120 8 ▸ hv)) (two_zpow_le (by decide))
  · exact hbound

/-- R79 and R80 of a finite FP32 value. -/
theorem split3_terms {x : Nat} {neg : Bool} {m : Nat} {e : Int} (h : widen .f32 x = .fin neg m e) :
    let v := (FVal.fin neg m e).rat
    let p := split3 x
    let hi := (widen .bf16 p.1).rat
    let mid := (widen .bf16 p.2.1).rat
    let lo := (widen .bf16 p.2.2).rat
    TermIs v neg p.1 ∧ TermIs (v - hi) false p.2.1 ∧ TermIs (v - hi - mid) false p.2.2 ∧
      (v = 0 ∨ (2 : Rat) ^ (-110 : Int) ≤ magnitude v → hi + mid + lo = v) ∧
      magnitude (hi + mid + lo - v) ≤ 2 ^ (-134 : Int) := by
  obtain ⟨hm, -, he⟩ := widen_f32_bounds h
  rw [split3_finite h]
  intro v p hi mid lo
  obtain ⟨hterm1, hfin1, hneg1, hround1⟩ := first_term (neg := neg) hm he
  have hle := first_remainder_le hm he hround1
  have hv : (FVal.fin neg m e).isFinite = true := rfl
  obtain ⟨hterm2, hfin2, hround2⟩ :=
    difference_term hv hfin1 hneg1 (l := []) (fun _ hw => by cases hw) (d := v - hi) (Rat.add_zero _) hle
  have hmid : ratSum [(widen .bf16 p.2.1).negate] = -mid := by rw [ratSum, ratSum, FVal.rat_negate, Rat.add_zero]
  obtain ⟨hterm3, -, hround3⟩ := difference_term hv hfin1 hneg1 (l := [(widen .bf16 p.2.1).negate])
    (fun w hw => List.mem_singleton.mp hw ▸ (FVal.isFinite_negate _).trans hfin2) (d := v - hi - mid)
    (by rw [hmid, ← Rat.sub_eq_add_neg]) (Rat.le_trans hround2.remainder_le hle)
  exact ⟨hterm1, hterm2, hterm3, split_sum hm hround1 hround2 hround3⟩

/-- Settles O14: each remainder is a count of the unit of x, eight bits shorter than the one before, or the last rounding is to the unit of
the subnormals. -/
theorem threeTermSplit : Obligations.ThreeTermSplit := by
  unfold Obligations.ThreeTermSplit
  intro x v p rounds
  refine ⟨fun hnan => ?_, fun n hinf => ?_, fun hfin => ?_⟩
  · change split3 x.toNat = _
    simp only [split3, show widen .f32 x.toNat = .nan from hnan]
    rfl
  · change split3 x.toNat = _
    simp only [split3, show widen .f32 x.toNat = .inf n from hinf]
    rw [BitVec.extractLsb'_toNat, Nat.shiftRight_eq_div_pow]
    rfl
  · obtain ⟨neg, m, e, hv⟩ := v.isFinite_iff.mp hfin
    intro hi mid lo
    rw [hv]
    exact split3_terms hv

end Sys2Proof.Machine
